-- ==== Sys2Proof/Word.lean ====
section
/-! DEFINITION. The words of the model: bytes, words, lines and the unit numbers of R17. -/

namespace Sys2Proof

/-- A byte (R5). -/
abbrev Byte := BitVec 8

/-- A 32-bit register or command word. -/
abbrev Word := BitVec 32

/-- A 64-bit register. -/
abbrev DWord := BitVec 64

/-- A line of 64 bytes, or any run of bytes, lowest address first. -/
abbrev Bytes := List Byte

/-- A core number, 0 to 63 (R17). -/
abbrev CoreId := Fin 64

/-- A half number (R17). -/
abbrev HalfId := Fin 2

/-- A PCI Express function, 0 for PF0 and t for VF t (R17, R18). -/
abbrev Fn := Fin 16

/-- A stream context (R17). -/
abbrev CtxId := Fin 24

end Sys2Proof
end

