-- ==== Sys2Proof/Syntax.lean ====
section
/-! DEFINITION. The commands of the block: one constructor of `Instr` for each row of spec/opcode_table.json, with the
operands the rules give the row. What the part reads from outside (host memory, a device, a sensor, a signature check)
comes as an operand; what it holds is in `Machine.State`. -/

namespace Sys2Proof

/-- What the submission ring tells of a command: who sent it, on which queue, under which job ID, and NOIRQ (R417). -/
structure Sub where
  fn : Fn
  qid : Fin 64
  jobId : Word
  noirq : Bool
deriving DecidableEq, Repr

/-- An operation that enters the execute queue is first decoded by the fetch engine and later issued at the head of
the queue (R104, R105). -/
inductive Phase where
  | decode
  | issue
deriving DecidableEq, Repr

/-- What a check of stored bits finds (R115, R244, R284): the codes' polynomials are not given, so the finding is the
environment's. -/
inductive Finding where
  | clean
  | corrected
  | uncorrectable
deriving DecidableEq, Repr

/-- Why a core fences itself (R117); the bank is that of the error. -/
inductive FenceCause where
  | ctrl (bank : BitVec 4)
  | bank (bank : BitVec 4)
  | rate (bank : BitVec 4)
deriving DecidableEq, Repr

/-- What GANG_DISPATCH dispatches (R313): a pass of a version, or a waiting host job by its number. -/
inductive Work where
  | pass (handle : BitVec 16)
  | job (n : Nat)
deriving DecidableEq, Repr

/-- A GENERATE entry (R303), with the prompt's token IDs as the part reads them. -/
structure GenReq where
  slot : BitVec 6
  pin : Bool
  nospec : Bool
  devsrc : Bool
  progress : Bool
  handle : BitVec 16
  maxOut : BitVec 16
  plen : BitVec 16
  dslot : Byte
  k : Byte
  deadline : Word
  prompt : DWord
  out : DWord
  outlen : Word
  tokens : List Word
deriving DecidableEq, Repr

/-- A RUN entry (R418). -/
structure RunReq where
  cores : DWord
  ptable : DWord
  limit : Word
  adapt : Bool
  anycore : Bool
deriving DecidableEq, Repr

/-- Where a shard or manifest is read from (R423, R424). -/
inductive ShardSrc where
  | host
  | window (w : Fin 16) (gen : BitVec 16)
  | flash (loc : DWord)
deriving DecidableEq, Repr

/-- An INGEST entry (R423), with the manifest's bytes and the shards' locations as the part reads them, and the model key that
the key store unwraps, none where it refuses: the device's secret is not given (R428, R431). -/
structure IngestReq where
  src : Byte
  dst : Byte
  stg : Byte
  timeoutMs : Word
  manifestAt : DWord
  shardsAt : DWord
  report : DWord
  manifest : Bytes
  locs : List DWord
  key : Option Bytes
deriving DecidableEq, Repr

/-- An INGEST_SHARD entry (R424). -/
structure ShardReq where
  target : Word
  shard : Word
  src : ShardSrc
deriving DecidableEq, Repr

/-- A CSI-2 packet as the receiver sees it (R360). `hdr` is what the header ECC finds; `crcOk` tells the payload CRC;
`overflow` that the line found the line buffer full. -/
inductive CsiBody where
  | frameStart (num : BitVec 16)
  | frameEnd
  | line (payload : Bytes) (crcOk : Bool) (overflow : Bool)
deriving DecidableEq, Repr

structure CsiPacket where
  vcid : Fin 4
  dt : BitVec 6
  hdr : Finding
  body : CsiBody
deriving DecidableEq, Repr

/-- A received ring symbol after 8b/10b decoding (R376): a sync, the fill, a data byte or a code violation. -/
inductive RingSym where
  | k281
  | k285
  | k283
  | data (b : Byte)
  | violation
deriving DecidableEq, Repr

/-- What retraining finds on one lane (R247, R248): the first and last passing code of the longest run of each sweep. -/
structure LaneSweep where
  rdA : BitVec 7
  rdB : BitVec 7
  wrA : BitVec 7
  wrB : BitVec 7
deriving DecidableEq, Repr

/-- What the flash controller finds on its devices at bring-up (R260, R278). -/
structure FlashReport where
  answers : Bool
  usable : Bool
  channels : BitVec 4
  luns : BitVec 4
  rate : BitVec 2
  pages : BitVec 13
  blocks : BitVec 17
  sets : BitVec 5
  badMarks : List Nat
  /-- Some channel's journal holds pages and every such journal has a complete checkpoint. -/
  checkpointOk : Bool
deriving DecidableEq, Repr

/-- Who reads the embedded flash (R289). -/
inductive EflSrc where
  | control
  | security
  | rom
deriving DecidableEq, Repr

/-- What the boot ROM and self-test find during the start sequence (R482 to R486). `sigA` and `sigB` tell whether the
manifests' signatures verify: the key is not given. -/
structure StartReport where
  fusesOk : Bool
  factoryOk : Bool
  sigA : Bool
  sigB : Bool
  railsFault : Bool
  powerReady : Bool
  securityReady : Bool
  dramSupported : Bool
  lanes : List LaneSweep
  badCores : DWord
  badPairs : BitVec 16
  badCsi : BitVec 4
  badPci : BitVec 4
  badC0 : Byte
  badC1 : Byte
  badX : BitVec 4
  badHalf : BitVec 2
  sramOk : Bool
  memOk : Bool
  controlOk : Bool
deriving DecidableEq, Repr

/-- A 10 µs window as the estimator and the sensors find it (R460, R466): each island's dynamic energy and its leakage in pJ,
cores 0 to 63 first; what of that energy each job drew (R467); the sensors, the input voltage and the input current. -/
structure WindowReport where
  dynamic : List Nat
  leakage : List Nat
  served : List (Nat × Nat)
  temps : List Int
  vinMv : BitVec 16
  iinMa : BitVec 15
deriving DecidableEq, Repr

/-- What a held phase finds (R500). -/
structure HeldReport where
  ok : Bool
  badLanes : Byte
  lanes : List LaneSweep
  badPorts : BitVec 4
deriving DecidableEq, Repr

/-- A debug token as its checks find it (R446): the digest and the signature are the key store's to verify. -/
structure DebugToken where
  keyMatches : Bool
  scope : Word
  reserved : Bool
  signatureOk : Bool
deriving DecidableEq, Repr

/-- A debug access (R447): a read or write of a core's scratchpad row, a DRAM line or a shared SRAM line. -/
inductive DebugTarget where
  | coreRow (core : CoreId) (row : Nat)
  | dram (addr : Nat)
  | sram (off : Nat)
deriving DecidableEq, Repr

/-- A slot image that STAGE reads (R488): its bytes, or none at a host read error, and whether its signature verifies. -/
structure StageReport where
  image : Option Bytes
  sigOk : Bool
deriving DecidableEq, Repr

/-- The commands. Each constructor stands for the row of spec/opcode_table.json that LAWS.json maps it to. -/
inductive Instr where
  | flitReplay (dir : Fin 6) (lane : Fin 8)
  | laneGroupFence (bridge : Fin 3) (lane : Fin 8)
  | audSelectWrite (fn : Fn) (v : Word)
  | jobStart (core : CoreId)
  | programLoadLand (core : CoreId)
  | jobFirstDecode (core : CoreId)
  | endOp (core : CoreId) (ph : Phase)
  | jobComplete (core : CoreId)
  | nop (core : CoreId) (ph : Phase)
  | fetch (core : CoreId)
  | fetchRowLand (core : CoreId) (xfer : Nat) (f : Finding)
  | fwait (core : CoreId)
  | matmul (core : CoreId) (ph : Phase)
  | planeLoad (core : CoreId)
  | rowSlotAdmit (core : CoreId) (idle : Nat)
  | rampFall (core : CoreId) (cycles : Nat)
  | drain (core : CoreId) (ph : Phase)
  | gfn (core : CoreId) (ph : Phase)
  | gadd (core : CoreId) (ph : Phase)
  | gsub (core : CoreId) (ph : Phase)
  | gmul (core : CoreId) (ph : Phase)
  | gmax (core : CoreId) (ph : Phase)
  | grsum (core : CoreId) (ph : Phase)
  | grmax (core : CoreId) (ph : Phase)
  | gquant (core : CoreId) (ph : Phase)
  | gscale (core : CoreId) (ph : Phase)
  | move (core : CoreId) (ph : Phase)
  | transpose (core : CoreId) (ph : Phase)
  | store (core : CoreId) (ph : Phase)
  | storeAck (core : CoreId)
  | wait (core : CoreId) (ph : Phase)
  | signal (core : CoreId) (ph : Phase)
  | signalIncrementArrive (core : CoreId)
  | signalAck (core : CoreId)
  | fence (core : CoreId) (ph : Phase)
  | reside (core : CoreId) (ph : Phase)
  | unreside (core : CoreId) (ph : Phase)
  | loop (core : CoreId)
  | seti (core : CoreId)
  | creditStall (core : CoreId)
  | coreSelfFence (core : CoreId) (cause : FenceCause)
  | spmRegionSelWrite (fn : Fn) (core : CoreId) (v : Word)
  | coreNumClrWrite (fn : Fn) (core : CoreId) (v : Word)
  | arrStatClrWrite (fn : Fn) (core : CoreId) (v : Word)
  | chunkJobDispatch (inst : Nat)
  | batchWindowExpiry (inst : Nat)
  | chunkJobComplete (job : Nat)
  | memberCommit (job : Nat)
  | idleTimeout (ctx : CtxId)
  | swapOutComplete (ctx : CtxId)
  | swapInComplete (ctx : CtxId)
  | resetMark (ctx : CtxId)
  | contextCloseDone (ctx : CtxId)
  | lflCtxSelWrite (fn : Fn) (v : Word)
  | regionApply (fn : Fn) (v : Word)
  | tileReadStart (pass : Nat)
  | tableSlotLoad (pass : Nat) (table : Byte)
  | tableSlotLoadDone (slot : Fin 4)
  | expanderBlockAccept (entry : Fin 128) (blk : Fin 2)
  | blockDecodeDone (expander : Fin 8)
  | tileComplete (entry : Fin 128)
  | tileCopyDepart (entry : Fin 128) (half : HalfId)
  | tileDeadline (pass : Nat) (layer : Nat) (tile : Nat) (half : HalfId)
  | fallbackTileReady (pass : Nat) (layer : Nat) (tile : Nat) (half : HalfId)
  | tableBuildComplete (job : Nat)
  | dramAccessGrant (port : Fin 7) (acct : Fin 16) (line : Nat) (k : Fin 5) (write : Bool)
  | dramAccessComplete (port : Fin 7) (findings : List Finding)
  | tokenRefill
  | wheelSlot (ch : Fin 32)
  | patrolScrub (findings : List (Nat × Finding))
  | neighbourRefreshIssue (ch : Fin 32) (bank : Fin 16)
  | lfsrReseed (seeds : List Word)
  | retrainPeriodExpiry
  | tempDeltaRetrain
  | retrainChannelDone (sweeps : List LaneSweep)
  | accountApply (fn : Fn) (v : Word)
  | pairFailing (pair : Fin 16)
  | flashProgram (sub : Sub) (block : Nat) (first : Nat) (pages : Nat) (host : DWord)
  | flashSeal (sub : Sub) (block : Nat)
  | flashRetire (sub : Sub) (block : Nat)
  | flashErase (sub : Sub) (blocks : List Nat)
  | flashDirect (sub : Sub) (block : Nat) (first : Nat) (pages : Nat) (host : DWord) (raw : Bool)
  | flashFormat (sub : Sub) (confirm : BitVec 16)
  | journalPageProgrammed (ch : Fin 8) (passed : Bool)
  | eraseDeviceDone (block : Nat) (ok : Bool)
  | eraseSuspend (ch : Fin 8) (lun : Fin 8)
  | flashPageReadDone (ch : Fin 8) (lun : Fin 8) (tries : List (List Bool))
  | flashTierBringup (rep : FlashReport)
  | fltBlkSelWrite (fn : Fn) (v : Word)
  | eflProgram (v : Word) (data : List DWord)
  | eflErase (v : Word)
  | eflOpDone (bank : Fin 2) (pulses : Fin 11) (passed : Bool)
  | eflRead (src : EflSrc) (line : BitVec 19) (f : Finding)
  | partitionApply (fn : Fn) (v : Word)
  | generate (sub : Sub) (req : GenReq)
  | gangDispatch (w : Work)
  | passComplete (job : Nat)
  | jobTimeout (job : Nat)
  | requestComplete (req : Nat)
  | ledgerRefill
  | lflVerSelWrite (fn : Fn) (v : Word)
  | kvmPoolCfgWrite (fn : Fn) (v : DWord)
  | kvTenantApply (fn : Fn) (v : Word)
  | contextGrantApply (fn : Fn) (v : Word)
  | csiPacket (port : Fin 4) (p : CsiPacket)
  | imageFrameDelivered (ctx : CtxId)
  | audioFrame (ctx : CtxId)
  | ringFrameReceive (syms : List RingSym) (lat : Nat)
  | ringFrameTransmit
  | trgModeWrite (fn : Fn) (v : Word)
  | ringWrite (sub : Sub) (slot : Fin 32) (words : List Word)
  | trgKeyWrite (key : Fin 4) (word : Fin 4) (v : Word)
  | sqTail (fn : Fn) (q : Fin 64) (v : Word)
  | cqHead (fn : Fn) (q : Fin 64) (v : Word)
  | evHead (fn : Fn) (v : Word)
  | commandTake (entry : Bytes)
  | completionPost (fn : Fn) (q : Fin 64)
  | interruptSignal (fn : Fn) (q : Fin 65)
  | eventPost (fn : Fn)
  | queueCreate (fn : Fn) (v : Word)
  | queueDelete (fn : Fn) (v : Word)
  | eventQueueEnable (fn : Fn) (v : Word)
  | eventQueueDisable (fn : Fn) (v : Word)
  | functionLevelReset (fn : Fn)
  | hotReset
  | linkTrain (partner : Fin 4)
  | linkL1Exit
  | run (sub : Sub) (req : RunReq)
  | stateSwap (sub : Sub) (ctx : Byte)
  | streamOpen (sub : Sub) (ctx : Byte) (handle : BitVec 16) (record : Bytes)
  | streamClose (sub : Sub) (ctx : Byte) (flush : Bool)
  | streamPush (sub : Sub) (ctx : Byte) (data : Bytes)
  | streamMark (sub : Sub) (ctx : Byte)
  | bind (sub : Sub) (slot : Byte) (handle : BitVec 16)
  | replace (sub : Sub) (slot : Byte) (handle : BitVec 16)
  | unbind (sub : Sub) (slot : Byte)
  | activate (sub : Sub) (handle : BitVec 16)
  | discard (sub : Sub) (handle : BitVec 16)
  | resideLoad (sub : Sub) (core : Byte) (first : Byte) (countM1 : Byte) (addr : DWord)
  | resideRelease (sub : Sub) (core : Byte) (first : Byte) (countM1 : Byte)
  | ingest (sub : Sub) (req : IngestReq)
  | ingestShard (sub : Sub) (req : ShardReq)
  | shardStaged (job : Nat) (shard : Nat) (data : Option Bytes)
  | shardVerifyDone (job : Nat) (shard : Nat)
  | ingestTimeout (job : Nat)
  | winOpen (sub : Sub) (window : Byte) (stg : Byte) (offset : Word)
  | winClose (sub : Sub) (window : Byte)
  | windowWrite (fn : Fn) (offset : BitVec 26) (data : Bytes)
  | suspend (sub : Sub) (target : Word) (fn : Byte)
  | resume (sub : Sub) (target : Word) (fn : Byte)
  | cancel (sub : Sub) (target : Word) (fn : Byte)
  | ddrRetrain (sub : Sub)
  | doeDiscovery (fn : Fn) (index : Byte)
  | getVersion (fn : Fn)
  | getCapabilities (fn : Fn) (flags : Word)
  | negotiateAlgorithms (fn : Fn) (offersAll : Bool)
  | getDigests (fn : Fn)
  | getCertificate (fn : Fn) (slot : Byte) (off : BitVec 16) (len : BitVec 16)
  | challenge (fn : Fn) (slot : Byte) (nonce : Bytes)
  | getMeasurements (fn : Fn) (index : Byte) (signed : Bool) (nonce : Bytes)
  | keyExchange (fn : Fn) (slot : Byte) (reqSession : BitVec 16) (exchange : Bytes)
  | finish (fn : Fn) (session : Word) (hmacOk : Bool)
  | heartbeat (fn : Fn) (session : Word)
  | keyUpdate (fn : Fn) (session : Word) (op : Byte)
  | endSession (fn : Fn) (session : Word)
  | respondIfReady (fn : Fn) (code : Byte) (token : Byte)
  | ideKmQuery (session : Word) (port : Byte)
  | keyProg (session : Word) (stream : Fin 9) (keySet : Fin 2) (sub : Fin 3) (key : Bytes)
  | kSetGo (session : Word) (stream : Fin 9) (keySet : Fin 2) (sub : Fin 3)
  | kSetStop (session : Word) (stream : Fin 9) (keySet : Fin 2) (sub : Fin 3)
  | ideIntegrityFail (stream : Fin 9)
  | getTdispVersion (session : Word)
  | getTdispCapabilities (session : Word)
  | lockInterfaceRequest (session : Word) (tdi : Fn) (stream : Byte)
  | getDeviceInterfaceReport (session : Word) (tdi : Fn)
  | getDeviceInterfaceState (session : Word) (tdi : Fn)
  | startInterfaceRequest (session : Word) (tdi : Fn) (nonce : Bytes)
  | stopInterfaceRequest (session : Word) (tdi : Fn)
  | tenantConfApply (fn : Fn) (v : Word)
  | keySlotGenerate (fn : Fn) (v : Word)
  | keySlotDestroy (fn : Fn) (v : Word)
  | ringKeyInstall (fn : Fn) (v : Word)
  | ringKeyUnwrapped (key : Option Bytes)
  | ringKeyRemove (fn : Fn) (v : Word)
  | debugToken (tok : DebugToken)
  | debugAccess (target : DebugTarget) (write : Option Bytes)
  | idcode
  | bypass
  | boundaryScan
  | estimatorWindow (rep : WindowReport)
  | capDecision
  | coreStepSettle (core : CoreId)
  | powerTick (measured : List Nat)
  | vinFault
  | thermalTrip
  | domainStateApply (fn : Fn) (v : Word)
  | domainTransitionDone (dom : Byte)
  | autoWake (dom : Byte)
  | padRelease (fn : Fn) (v : Word)
  | smbusAddressMatch (addr : BitVec 7)
  | smbStatus
  | smbTemp
  | smbPower
  | smbLimitRead
  | smbLimitWrite (v : BitVec 16)
  | smbNursery
  | smbWake (v : Byte)
  | smbReset (v : Byte)
  | wakeTimerExpiry
  | packageReset (causes : Byte)
  | startSequence (rep : StartReport)
  | startTimeout
  | doneHoldExpiry
  | firmwareCopy (sigA : Bool)
  | watchdogExpiry
  | stage (fn : Fn) (v : Word) (rep : StageReport)
  | activateNow (fn : Fn) (v : Word)
  | activateAtReset (fn : Fn) (v : Word)
  | commitSvn (fn : Fn) (v : Word) (sigA : Bool) (sigB : Bool)
  | firmwareOpComplete (flashOk : Bool)
  | bootResetRequest (fn : Fn) (v : Word)
  | domainReset (fn : Fn) (v : Word)
  | heldPhaseEnd (rep : HeldReport)
  | calCommit (fn : Fn) (v : Word)
  | calDiscard (fn : Fn) (v : Word)
  | calCommitDone (ok : Bool)
  | lowHalfRead (fn : Fn) (offset : BitVec 25)
  | registerWrite (fn : Fn) (offset : BitVec 25) (size : Byte) (v : DWord)
  | expectedSyncMissed
  | linkL1Entry
  | devicePageProgramDone (block : Nat) (ok : Bool) (data : Bytes)
  | functionLevelResetComplete (fn : Fn)
deriving DecidableEq, Repr

end Sys2Proof
end

