-- ==== Sys2Proof/Machine/Numeric.lean ====
section
/-! DEFINITION. Numbers, quantisation and rescaling (chapter 02): the formats of R52 to R58 and their exact values, the
conversions of R59 and R528, FP32 arithmetic, the rescale of R72 to R75, statistics (R76) and scale selection (R78).
Everything is exact integer arithmetic, rounded where the rule says. -/

namespace Sys2Proof.Machine.Numeric

open Sys2Proof

/-! ### Bit fields and signs -/

/-- Bits `lo` to `lo + n - 1` of a natural number. -/
def bits (x lo n : Nat) : Nat := (x / 2 ^ lo) % 2 ^ n

/-- One bit. -/
def bit (x i : Nat) : Bool := (x / 2 ^ i) % 2 == 1

/-- An `n`-bit two's-complement number as an integer. -/
def signed (n x : Nat) : Int := if x % 2 ^ n < 2 ^ (n - 1) then ((x % 2 ^ n : Nat) : Int) else ((x % 2 ^ n : Nat) : Int) - 2 ^ n

/-- An integer as `n` bits of two's complement. -/
def unsigned (n : Nat) (x : Int) : Nat := (x % (2 ^ n : Int)).toNat

/-- The number whose bytes, lowest first, are given (little-endian, as every multi-byte field of the part). -/
def leNat : Bytes → Nat
  | [] => 0
  | b :: bs => b.toNat + 256 * leNat bs

/-- `n` bytes of a number, lowest first. -/
def toLE : Nat → Nat → Bytes
  | 0, _ => []
  | n + 1, x => BitVec.ofNat 8 x :: toLE n (x / 256)

/-- `n` bytes of a number, highest first. -/
def toBE (n x : Nat) : Bytes := (toLE n x).reverse

/-- ⌈a ÷ b⌉. -/
def ceilDiv (a b : Nat) : Nat := (a + b - 1) / b

/-- A count of `w` bits that saturates. -/
def satAdd {w : Nat} (x : BitVec w) (n : Nat) : BitVec w := if x.toNat + n < 2 ^ w then BitVec.ofNat w (x.toNat + n) else BitVec.allOnes w

/-! ### Floating-point values -/

/-- A floating-point value: NaN, an infinity, or ± m × 2^e, where a zero keeps its sign. -/
inductive FVal where
  | nan
  | inf (neg : Bool)
  | fin (neg : Bool) (m : Nat) (e : Int)
deriving DecidableEq, Repr

/-- A floating-point format (R57): `prec` bits of significand with the hidden one, the exponent bits, its bias. -/
structure FFmt where
  ebits : Nat
  prec : Nat
  bias : Nat
  /-- The largest finite encoding, without the sign. -/
  maxBits : Nat
  /-- The encoding of infinity, if the format has one. -/
  infBits : Option Nat
  /-- The NaN the part writes. -/
  nanBits : Nat
  /-- Subnormals are flushed (R58). -/
  flush : Bool
deriving DecidableEq, Repr

def e4m3 : FFmt := ⟨4, 4, 7, 0x7E, none, 0x7F, false⟩
def e5m2 : FFmt := ⟨5, 3, 15, 0x7B, some 0x7C, 0x7F, false⟩
def bf16 : FFmt := ⟨8, 8, 127, 0x7F7F, some 0x7F80, 0x7FC0, true⟩
def fp32 : FFmt := ⟨8, 24, 127, 0x7F7FFFFF, some 0x7F800000, 0x7FC00000, false⟩

def FFmt.width (f : FFmt) : Nat := f.ebits + f.prec

/-- The exponent of the smallest quantum: emin - (prec - 1). -/
def FFmt.kmin (f : FFmt) : Int := 2 - (f.bias : Int) - (f.prec : Int)

/-- The value an encoding stands for (R57, R58). -/
def FFmt.decode (f : FFmt) (x : Nat) : FVal :=
  let neg := bit x (f.width - 1)
  let mag := x % 2 ^ (f.width - 1)
  let man := mag % 2 ^ (f.prec - 1)
  let ex := mag / 2 ^ (f.prec - 1)
  if mag > f.maxBits then (if f.infBits = some mag then .inf neg else .nan)
  else if ex = 0 then (if f.flush then .fin neg 0 0 else .fin neg man f.kmin)
  else .fin neg (man + 2 ^ (f.prec - 1)) (f.kmin + ex - 1)

/-- ⌊log2 (n ÷ d)⌋ for positive n and d. -/
def ilog2 (n d : Nat) : Int :=
  let l : Int := (Nat.log2 n : Int) - (Nat.log2 d : Int)
  let ge : Bool := if 0 ≤ l then decide (d * 2 ^ l.toNat ≤ n) else decide (d ≤ n * 2 ^ (-l).toNat)
  if ge then l else l - 1

/-- n ÷ d rounded to the nearest integer, ties to even. -/
def rneDiv (n d : Nat) : Nat :=
  let q := n / d
  let r := 2 * (n % d)
  if d < r then q + 1 else if r = d then q + q % 2 else q

/-- (n ÷ d) × 2^k as a pair of numerator and denominator. -/
def scale2 (n d : Nat) (k : Int) : Nat × Nat := if 0 ≤ k then (n * 2 ^ k.toNat, d) else (n, d * 2 ^ (-k).toNat)

/-- The encoding, without sign and with no upper limit, of (n ÷ d) × 2^e rounded to nearest, ties to even, in a format
(R58, R59). The result grows with the value, so it is past `maxBits` exactly when the rounded value is too large. -/
def FFmt.roundMag (f : FFmt) (n d : Nat) (e : Int) : Nat :=
  if n = 0 then 0 else
  let top := ilog2 n d + e - ((f.prec : Int) - 1)
  let k := if f.flush then top else max top f.kmin
  let nd := scale2 n d (e - k)
  let m := rneDiv nd.1 nd.2
  let k' := if m = 2 ^ f.prec then k + 1 else k
  if k' < f.kmin then 0 else
  let m' := if m = 2 ^ f.prec then 2 ^ (f.prec - 1) else m
  (k' - f.kmin).toNat * 2 ^ (f.prec - 1) + m'

/-- The sign bit of a format. -/
def FFmt.signBits (f : FFmt) (neg : Bool) : Nat := if neg then 2 ^ (f.width - 1) else 0

/-- A narrowing conversion's result and what it counts (R59, R528). -/
structure Conv where
  bits : Nat
  /-- A finite value saturated: one count in OUT_SAT. -/
  sat : Bool
  /-- A NaN or an infinity was met in a conversion to an integer (R528). -/
  nonfin : Bool
deriving DecidableEq, Repr

/-- The conversion of ± (n ÷ d) × 2^e under R59. -/
def FFmt.convRat (f : FFmt) (neg : Bool) (n d : Nat) (e : Int) : Conv :=
  let m := f.roundMag n d e
  if f.maxBits < m then ⟨f.signBits neg + f.maxBits, true, false⟩ else ⟨f.signBits neg + m, false, false⟩

/-- The conversion of a value under R59. -/
def FFmt.conv (f : FFmt) : FVal → Conv
  | .nan => ⟨f.nanBits, false, false⟩
  | .inf neg => match f.infBits with
    | some b => ⟨f.signBits neg + b, false, false⟩
    | none => ⟨f.nanBits, false, false⟩
  | .fin neg m e => f.convRat neg m 1 e

/-- The conversion to an integer of `w` bits under R528, as `w` bits of two's complement. -/
def convInt (w : Nat) : FVal → Conv
  | .nan => ⟨0, false, true⟩
  | .inf neg => ⟨if neg then 2 ^ (w - 1) else 2 ^ (w - 1) - 1, false, true⟩
  | .fin neg m e =>
    let nd := scale2 m 1 e
    let r := rneDiv nd.1 nd.2
    if neg then
      if 2 ^ (w - 1) < r then ⟨2 ^ (w - 1), true, false⟩ else ⟨unsigned w (-(r : Int)), false, false⟩
    else if 2 ^ (w - 1) - 1 < r then ⟨2 ^ (w - 1) - 1, true, false⟩ else ⟨r, false, false⟩

/-! ### FP32 arithmetic (R60, R70: IEEE 754, round to nearest, ties to even) -/

/-- A value rounded to FP32, where a result past the largest finite value is an infinity. -/
def rnd32 : FVal → FVal
  | .nan => .nan
  | .inf n => .inf n
  | .fin neg m e =>
    let b := fp32.roundMag m 1 e
    if fp32.maxBits < b then .inf neg else
    match fp32.decode b with
    | .fin _ m' e' => .fin neg m' e'
    | v => v

/-- ± m × 2^e as an integer multiple of 2^k, for k at most e. -/
def atExp (neg : Bool) (m : Nat) (e k : Int) : Int :=
  let v : Int := ((m * 2 ^ (e - k).toNat : Nat) : Int)
  if neg then -v else v

/-- The exact sum. The sum of two zeros of unlike sign, and of a value and its opposite, is +0. -/
def addExact : FVal → FVal → FVal
  | .nan, _ => .nan
  | _, .nan => .nan
  | .inf a, .inf b => if a = b then .inf a else .nan
  | .inf a, .fin _ _ _ => .inf a
  | .fin _ _ _, .inf b => .inf b
  | .fin n1 m1 e1, .fin n2 m2 e2 =>
    if m1 = 0 ∧ m2 = 0 then .fin (n1 && n2) 0 0 else
    let k := min e1 e2
    let s := atExp n1 m1 e1 k + atExp n2 m2 e2 k
    if s = 0 then .fin false 0 0 else .fin (decide (s < 0)) s.natAbs k

def neg : FVal → FVal
  | .nan => .nan
  | .inf n => .inf (!n)
  | .fin n m e => .fin (!n) m e

/-- The exact product. -/
def mulExact : FVal → FVal → FVal
  | .nan, _ => .nan
  | _, .nan => .nan
  | .inf a, .inf b => .inf (xor a b)
  | .inf a, .fin b m _ => if m = 0 then .nan else .inf (xor a b)
  | .fin a m _, .inf b => if m = 0 then .nan else .inf (xor a b)
  | .fin a m1 e1, .fin b m2 e2 => .fin (xor a b) (m1 * m2) (e1 + e2)

/-- Compare two values that are no NaN: is `a` less than `b`? -/
def ltVal : FVal → FVal → Bool
  | .nan, _ => false
  | _, .nan => false
  | .inf a, .inf b => a && !b
  | .inf a, .fin _ _ _ => a
  | .fin _ _ _, .inf b => !b
  | .fin n1 m1 e1, .fin n2 m2 e2 => let k := min e1 e2; decide (atExp n1 m1 e1 k < atExp n2 m2 e2 k)

/-- The maximum; a NaN on either side gives NaN (R144). -/
def maxVal : FVal → FVal → FVal
  | .nan, _ => .nan
  | _, .nan => .nan
  | a, b => if ltVal a b then b else a

def isFin : FVal → Bool
  | .fin _ _ _ => true
  | _ => false

def isNan : FVal → Bool
  | .nan => true
  | _ => false

def absVal : FVal → FVal
  | .nan => .nan
  | .inf _ => .inf false
  | .fin _ m e => .fin false m e

/-- The 32 bits of an FP32 value, where a NaN takes the payload and sign bits given (IEEE 754 leaves them open). -/
def bits32 (payload : Nat) : FVal → Nat
  | .nan => 0x7FC00000 + payload % 2 ^ 22 + payload / 2 ^ 22 % 2 * 2 ^ 31
  | v => (fp32.conv v).bits

def val32 (x : Nat) : FVal := fp32.decode x

/-! ### Magnitudes rounded toward +∞ (R76, R78) -/

/-- The magnitude (n ÷ d) × 2^e rounded toward +∞ to FP32, as a value. -/
def roundUp32 (n d : Nat) (e : Int) : FVal :=
  if n = 0 then .fin false 0 0 else
  let k := max (ilog2 n d + e - 23) fp32.kmin
  let nd := scale2 n d (e - k)
  let m := ceilDiv nd.1 nd.2
  rnd32 (.fin false m k)

/-- The magnitude of a value, rounded toward +∞ to FP32. -/
def upVal : FVal → FVal
  | .nan => .nan
  | .inf _ => .nan
  | .fin _ m e => roundUp32 m 1 e

/-- The larger of two magnitudes, NaN if either is (R76, R77). `upVal` has made every non-finite member of the set a NaN; a
magnitude past the FP32 range is rounded toward +∞, to an infinity. -/
def statMax (a b : FVal) : FVal := maxVal a b

/-- The 32 bits of a statistic: a NaN is written as 0x7FC0_0000. -/
def statBits (v : FVal) : Nat := (fp32.conv v).bits

/-! ### The integer path (R65 to R69, R72 to R75) -/

/-- Saturation of an integer to `w` bits of two's complement: the value and whether it saturated. -/
def satInt (w : Nat) (x : Int) : Int × Bool :=
  if x < -(2 ^ (w - 1) : Int) then (-(2 ^ (w - 1) : Int), true)
  else if (2 ^ (w - 1) : Int) - 1 < x then ((2 ^ (w - 1) : Int) - 1, true)
  else (x, false)

/-- The shift of R73: 2^(S-1) is added when S is at least 1, then an arithmetic shift right by S. -/
def shiftRound (x : Int) (s : Nat) : Int := if s = 0 then x else (x + 2 ^ (s - 1)) / (2 ^ s : Int)

/-- The rescale to an integer of `w` bits (R72, R73): the bits and whether it saturated. -/
def rescaleInt (w : Nat) (a q m : Int) (s : Nat) : Int × Bool := satInt w (shiftRound (a * q * m) s)

/-- V = A × q × M × 2^-S as an exact value (R72). -/
def rescaleVal (a q m : Int) (s : Nat) : FVal := let p := a * q * m; .fin (decide (p < 0)) p.natAbs (-(s : Int))

/-! ### Scale selection and quantisation (R78) -/

/-- The target range Q of a format code: 127, 448 or 57,344. -/
def targetQ (fmt : Nat) : Nat := if fmt = 0 then 127 else if fmt = 3 then 448 else 57344

/-- The smallest e from -128 to 127 with v ≤ 255 × 2^e, counted up from `e`. -/
def expFrom (m : Nat) (x : Int) : Nat → Int → Int
  | 0, e => e
  | n + 1, e =>
    let a := scale2 m 1 (x - e)
    if a.1 ≤ 255 * a.2 then e else expFrom m x n (e + 1)

/-- The scale exponent of R78 for an FP32 ratio. -/
def scaleExp : FVal → Int
  | .fin _ m x => expFrom m x 255 (-128)
  | _ => 127

/-- The smallest integer from 1 to 255 with q × 2^e ≥ a ÷ Q. -/
def scaleMant (q : Nat) (e : Int) : FVal → Nat
  | .fin _ m x => let a := scale2 m q (x - e); min 255 (max 1 (ceilDiv a.1 a.2))
  | _ => 255

/-- GQUANT of one element: x ÷ (q × 2^e), exact, converted to the format with code `fmt` (R78). -/
def quantOne (fmt : Nat) (q : Nat) (e : Int) (x : FVal) : Conv :=
  match x with
  | .fin neg m k =>
    if fmt = 0 then
      let nd := scale2 m q (k - e)
      let r := rneDiv nd.1 nd.2
      if neg then (if 128 < r then ⟨0x80, true, false⟩ else ⟨unsigned 8 (-(r : Int)), false, false⟩)
      else (if 127 < r then ⟨0x7F, true, false⟩ else ⟨r, false, false⟩)
    else (if fmt = 3 then e4m3 else e5m2).convRat neg m q (k - e)
  | v => if fmt = 0 then convInt 8 v else (if fmt = 3 then e4m3 else e5m2).conv v

/-- The magnitude that a GQUANT element gives to the statistics: the exact quotient (R76, R78). -/
def quantMag (q : Nat) (e : Int) : FVal → FVal
  | .fin _ m k => roundUp32 m q (k - e)
  | _ => .nan

/-! ### Formats by code (R52, R55) -/

/-- The levels of Bell-4 (R55). -/
def bell4 (c : Nat) : Int :=
  [-127, -88, -67, -50, -36, -23, -11, 0, 10, 20, 31, 43, 57, 74, 96, 127].getD (c % 16) 0

/-- The value of a code of an integer tile: INT8, INT4 or Bell-4 (R54, R55). -/
def intElem (fmt c : Nat) : Int := if fmt = 0 then signed 8 c else if fmt = 1 then signed 4 c else bell4 c

/-- The value of a code of a floating-point element. -/
def fpElem (fmt c : Nat) : FVal := if fmt = 3 then e4m3.decode c else if fmt = 4 then e5m2.decode c else bf16.decode c

/-- Bytes of a result element of a format (R166). -/
def elemBytes (fmt : Nat) : Nat := if fmt = 5 then 2 else if fmt = 6 ∨ fmt = 7 then 4 else 1

/-- The conversion of an exact value to an output format of a drain or gate operation (R59, R528). -/
def convOut (fmt : Nat) (v : FVal) : Conv :=
  if fmt = 0 then convInt 8 v else if fmt = 7 then convInt 32 v
  else (if fmt = 3 then e4m3 else if fmt = 4 then e5m2 else if fmt = 5 then bf16 else fp32).conv v

/-! ### The compatibility pipe (R147 to R149) -/

/-- T[i] of SIGMOID, i from 0 to 128: f(-8 + i/8) × 2^14, nearest, ties to even. -/
def sigmoidT : List Int :=
  [5, 6, 7, 8, 9, 10, 12, 13, 15, 17, 19, 22, 25, 28, 32, 36] ++
  [41, 46, 52, 59, 67, 76, 86, 97, 110, 124, 141, 159, 180, 204, 230, 261] ++
  [295, 333, 376, 425, 480, 542, 612, 690, 777, 875, 984, 1107, 1243, 1394, 1562, 1748] ++
  [1953, 2178, 2426, 2695, 2989, 3307, 3649, 4015, 4406, 4820, 5256, 5712, 6186, 6674, 7173, 7681] ++
  [8192, 8703, 9211, 9710, 10198, 10672, 11128, 11564, 11978, 12369, 12735, 13077, 13395, 13689, 13958, 14206] ++
  [14431, 14636, 14822, 14990, 15141, 15277, 15400, 15509, 15607, 15694, 15772, 15842, 15904, 15959, 16008, 16051] ++
  [16089, 16123, 16154, 16180, 16204, 16225, 16243, 16260, 16274, 16287, 16298, 16308, 16317, 16325, 16332, 16338] ++
  [16343, 16348, 16352, 16356, 16359, 16362, 16365, 16367, 16369, 16371, 16372, 16374, 16375, 16376, 16377, 16378] ++
  [16379]

/-- T[i] of TANH. -/
def tanhT : List Int :=
  [-16384, -16384, -16384, -16384, -16384, -16384, -16384, -16384, -16384, -16384, -16384, -16384, -16384, -16384, -16384, -16384] ++
  [-16384, -16384, -16384, -16384, -16383, -16383, -16383, -16383, -16383, -16382, -16382, -16381, -16380, -16379, -16377, -16375] ++
  [-16373, -16370, -16366, -16361, -16354, -16346, -16335, -16321, -16303, -16280, -16251, -16213, -16165, -16103, -16024, -15923] ++
  [-15795, -15631, -15423, -15161, -14830, -14415, -13898, -13260, -12478, -11533, -10406, -9087, -7571, -5871, -4013, -2037] ++
  [0, 2037, 4013, 5871, 7571, 9087, 10406, 11533, 12478, 13260, 13898, 14415, 14830, 15161, 15423, 15631] ++
  [15795, 15923, 16024, 16103, 16165, 16213, 16251, 16280, 16303, 16321, 16335, 16346, 16354, 16361, 16366, 16370] ++
  [16373, 16375, 16377, 16379, 16380, 16381, 16382, 16382, 16383, 16383, 16383, 16383, 16383, 16384, 16384, 16384] ++
  [16384, 16384, 16384, 16384, 16384, 16384, 16384, 16384, 16384, 16384, 16384, 16384, 16384, 16384, 16384, 16384] ++
  [16384]

/-- T[i] of HSIGMOID: min(max(x/6 + 1/2, 0), 1) × 2^14 at x = -8 + i/8, nearest, ties to even. -/
def hsigmoidT (i : Nat) : Int :=
  if i ≤ 40 then 0 else if 88 ≤ i then 16384 else ((rneDiv ((i - 40) * 16384) 48 : Nat) : Int)

def compatT (cfn i : Nat) : Int :=
  if cfn = 0 then sigmoidT.getD i 0 else if cfn = 1 then tanhT.getD i 0 else hsigmoidT i

/-- y of R148 for a clamped C. -/
def compatY (cfn : Nat) (c : Int) : Int :=
  let u := (c + 16384).toNat
  let i := u / 256
  let r := u % 256
  compatT cfn i + ((compatT cfn (i + 1) - compatT cfn i) * r) / 256

/-- The clamp of R147. -/
def compatClamp (c : Int) : Int := min 16383 (max (-16384) c)

end Sys2Proof.Machine.Numeric
end

