-- ==== Sys2Proof/Machine/Crypto.lean ====
section
/-! DEFINITION. The standard algorithms that the rules name: CRC-32 (R276), SipHash-2-4 (R333), AES and GCM (R391, R423),
SHA-256 (R434). -/

namespace Sys2Proof.Machine.Crypto

open Sys2Proof Numeric

/-- A number from bytes, highest first. -/
def beNat (bs : Bytes) : Nat := leNat bs.reverse

def xorBytes (a b : Bytes) : Bytes := a.zipWith (fun x y => x ^^^ y) b

/-! ## CRC-32 (IEEE 802.3) -/

def crcBit (c : BitVec 32) : BitVec 32 := if c.getLsbD 0 then (c >>> 1) ^^^ 0xEDB88320#32 else c >>> 1

def crcByte (c : BitVec 32) (b : Byte) : BitVec 32 := (List.range 8).foldl (fun c _ => crcBit c) (c ^^^ b.setWidth 32)

def crc32 (bs : Bytes) : BitVec 32 := ~~~(bs.foldl crcByte (BitVec.allOnes 32))

/-! ## SipHash-2-4 -/

structure Sip where
  a : BitVec 64
  b : BitVec 64
  c : BitVec 64
  d : BitVec 64
deriving DecidableEq, Repr

def sipRound (s : Sip) : Sip :=
  let a := s.a + s.b
  let b := s.b.rotateLeft 13 ^^^ a
  let a := a.rotateLeft 32
  let c := s.c + s.d
  let d := s.d.rotateLeft 16 ^^^ c
  let a' := a + d
  let d := d.rotateLeft 21 ^^^ a'
  let c := c + b
  let b := b.rotateLeft 17 ^^^ c
  { a := a', b := b, c := c.rotateLeft 32, d := d }

def sipRounds : Nat → Sip → Sip
  | 0, s => s
  | n + 1, s => sipRounds n (sipRound s)

def sipWord (s : Sip) (m : BitVec 64) : Sip :=
  let s := sipRounds 2 { s with d := s.d ^^^ m }
  { s with a := s.a ^^^ m }

/-- The 64-bit words of the message: whole 8-byte groups, then the last with the length in its top byte. -/
def sipWords (bs : Bytes) : List (BitVec 64) :=
  let n := bs.length / 8
  ((List.range n).map fun i => BitVec.ofNat 64 (leNat ((bs.drop (8 * i)).take 8))) ++
  [BitVec.ofNat 64 (leNat (bs.drop (8 * n)) + bs.length % 256 * 2 ^ 56)]

/-- SipHash-2-4 under a 128-bit key. -/
def sipHash (key : BitVec 128) (bs : Bytes) : BitVec 64 :=
  let k0 := key.setWidth 64
  let k1 := (key >>> 64).setWidth 64
  let s : Sip := {
    a := k0 ^^^ 0x736f6d6570736575#64
    b := k1 ^^^ 0x646f72616e646f6d#64
    c := k0 ^^^ 0x6c7967656e657261#64
    d := k1 ^^^ 0x7465646279746573#64 }
  let s := (sipWords bs).foldl sipWord s
  let s := sipRounds 4 { s with c := s.c ^^^ 0xff#64 }
  s.a ^^^ s.b ^^^ s.c ^^^ s.d

/-! ## AES -/

def sboxTable : List Nat :=
  [99, 124, 119, 123, 242, 107, 111, 197, 48, 1, 103, 43, 254, 215, 171, 118] ++
  [202, 130, 201, 125, 250, 89, 71, 240, 173, 212, 162, 175, 156, 164, 114, 192] ++
  [183, 253, 147, 38, 54, 63, 247, 204, 52, 165, 229, 241, 113, 216, 49, 21] ++
  [4, 199, 35, 195, 24, 150, 5, 154, 7, 18, 128, 226, 235, 39, 178, 117] ++
  [9, 131, 44, 26, 27, 110, 90, 160, 82, 59, 214, 179, 41, 227, 47, 132] ++
  [83, 209, 0, 237, 32, 252, 177, 91, 106, 203, 190, 57, 74, 76, 88, 207] ++
  [208, 239, 170, 251, 67, 77, 51, 133, 69, 249, 2, 127, 80, 60, 159, 168] ++
  [81, 163, 64, 143, 146, 157, 56, 245, 188, 182, 218, 33, 16, 255, 243, 210] ++
  [205, 12, 19, 236, 95, 151, 68, 23, 196, 167, 126, 61, 100, 93, 25, 115] ++
  [96, 129, 79, 220, 34, 42, 144, 136, 70, 238, 184, 20, 222, 94, 11, 219] ++
  [224, 50, 58, 10, 73, 6, 36, 92, 194, 211, 172, 98, 145, 149, 228, 121] ++
  [231, 200, 55, 109, 141, 213, 78, 169, 108, 86, 244, 234, 101, 122, 174, 8] ++
  [186, 120, 37, 46, 28, 166, 180, 198, 232, 221, 116, 31, 75, 189, 139, 138] ++
  [112, 62, 181, 102, 72, 3, 246, 14, 97, 53, 87, 185, 134, 193, 29, 158] ++
  [225, 248, 152, 17, 105, 217, 142, 148, 155, 30, 135, 233, 206, 85, 40, 223] ++
  [140, 161, 137, 13, 191, 230, 66, 104, 65, 153, 45, 15, 176, 84, 187, 22]

def sbox (b : Byte) : Byte := BitVec.ofNat 8 (sboxTable.getD b.toNat 0)

def xtime (b : Byte) : Byte := if b.getLsbD 7 then (b <<< 1) ^^^ 0x1B#8 else b <<< 1

/-- One column of MixColumns. -/
def mixColumn (c : Bytes) : Bytes :=
  let x := fun i => c.getD (i % 4) 0
  (List.range 4).map fun i => xtime (x i) ^^^ (xtime (x (i + 1)) ^^^ x (i + 1)) ^^^ x (i + 2) ^^^ x (i + 3)

def mixColumns (s : Bytes) : Bytes := (List.range 4).flatMap fun j => mixColumn ((s.drop (4 * j)).take 4)

/-- SubBytes and ShiftRows: byte i of the state is row i mod 4 of column i / 4. -/
def subShift (s : Bytes) : Bytes := (List.range 16).map fun i => sbox (s.getD ((i + 4 * (i % 4)) % 16) 0)

/-- The key schedule: `w` holds the words so far, newest first; `i` is the number of the next. -/
def expandKey (nk : Nat) : Nat → Nat → Byte → List Bytes → List Bytes
  | 0, _, _, w => w
  | n + 1, i, rcon, w =>
    let prev := w.headD []
    let t := if i % nk = 0 then xorBytes ((prev.drop 1 ++ prev.take 1).map sbox) [rcon, 0, 0, 0]
      else if 6 < nk ∧ i % nk = 4 then prev.map sbox else prev
    let rcon := if i % nk = 0 then xtime rcon else rcon
    expandKey nk n (i + 1) rcon (xorBytes (w.getD (nk - 1) []) t :: w)

/-- The round keys of a 16- or 32-byte key, in order. -/
def roundKeys (key : Bytes) : List Bytes :=
  let nk := key.length / 4
  let w0 := ((List.range nk).map fun i => (key.drop (4 * i)).take 4).reverse
  let w := (expandKey nk (4 * (nk + 7) - nk) nk 1 w0).reverse
  (List.range (nk + 7)).map fun r => ((w.drop (4 * r)).take 4).flatten

def aesRounds : List Bytes → Bytes → Bytes
  | [], s => s
  | [k], s => xorBytes (subShift s) k
  | k :: r, s => aesRounds r (xorBytes (mixColumns (subShift s)) k)

/-- AES encryption of one 16-byte block. -/
def aes (keys : List Bytes) (block : Bytes) : Bytes :=
  match keys with
  | [] => block
  | k :: r => aesRounds r (xorBytes block k)

/-! ## GCM -/

/-- The product of two elements of GF(2^128), bit 127 the coefficient of 1. -/
def gmul : Nat → Nat → Nat → Nat → Nat
  | 0, _, _, z => z
  | n + 1, x, v, z =>
    let z := if x.testBit n then z ^^^ v else z
    let v := if v % 2 = 1 then (v / 2) ^^^ (0xE1 * 2 ^ 120) else v / 2
    gmul n x v z

def ghashBlock (h y : Nat) (b : Bytes) : Nat := gmul 128 (y ^^^ beNat b) h 0

def padBlock (b : Bytes) : Bytes := b ++ List.replicate (16 - b.length) 0

/-- The 16-byte blocks of a string, the last padded with zeros. -/
def blocks (bs : Bytes) : List Bytes := (List.range ((bs.length + 15) / 16)).map fun i => padBlock ((bs.drop (16 * i)).take 16)

def ghash (h : Nat) (aad data : Bytes) : Nat :=
  let y := (blocks aad).foldl (ghashBlock h) 0
  let y := (blocks data).foldl (ghashBlock h) y
  ghashBlock h y (toBE 8 (8 * aad.length) ++ toBE 8 (8 * data.length))

/-- The counter-mode key stream from counter `c` on, applied to data. -/
def ctr (keys : List Bytes) (iv : Bytes) : Nat → Nat → Bytes → Bytes
  | 0, _, _ => []
  | n + 1, c, data =>
    xorBytes (data.take 16) (aes keys (iv ++ toBE 4 c)) ++ ctr keys iv n (c + 1) (data.drop 16)

/-- Encryption or decryption of GCM's data with a 12-byte IV. -/
def gcmCrypt (key iv data : Bytes) : Bytes := ctr (roundKeys key) iv ((data.length + 15) / 16) 2 data

/-- The tag over ciphertext. -/
def gcmTag (key iv aad cipher : Bytes) : Bytes :=
  let keys := roundKeys key
  let h := beNat (aes keys (List.replicate 16 0))
  xorBytes (toBE 16 (ghash h aad cipher)) (aes keys (iv ++ toBE 4 1))

/-! ## SHA-256 -/

def shaK : List (BitVec 32) :=
  [0x428a2f98, 0x71374491, 0xb5c0fbcf, 0xe9b5dba5, 0x3956c25b, 0x59f111f1, 0x923f82a4, 0xab1c5ed5] ++
  [0xd807aa98, 0x12835b01, 0x243185be, 0x550c7dc3, 0x72be5d74, 0x80deb1fe, 0x9bdc06a7, 0xc19bf174] ++
  [0xe49b69c1, 0xefbe4786, 0x0fc19dc6, 0x240ca1cc, 0x2de92c6f, 0x4a7484aa, 0x5cb0a9dc, 0x76f988da] ++
  [0x983e5152, 0xa831c66d, 0xb00327c8, 0xbf597fc7, 0xc6e00bf3, 0xd5a79147, 0x06ca6351, 0x14292967] ++
  [0x27b70a85, 0x2e1b2138, 0x4d2c6dfc, 0x53380d13, 0x650a7354, 0x766a0abb, 0x81c2c92e, 0x92722c85] ++
  [0xa2bfe8a1, 0xa81a664b, 0xc24b8b70, 0xc76c51a3, 0xd192e819, 0xd6990624, 0xf40e3585, 0x106aa070] ++
  [0x19a4c116, 0x1e376c08, 0x2748774c, 0x34b0bcb5, 0x391c0cb3, 0x4ed8aa4a, 0x5b9cca4f, 0x682e6ff3] ++
  [0x748f82ee, 0x78a5636f, 0x84c87814, 0x8cc70208, 0x90befffa, 0xa4506ceb, 0xbef9a3f7, 0xc67178f2]

def shaInit : List (BitVec 32) :=
  [0x6a09e667, 0xbb67ae85, 0x3c6ef372, 0xa54ff53a, 0x510e527f, 0x9b05688c, 0x1f83d9ab, 0x5be0cd19]

/-- The message schedule, newest word first. -/
def shaSchedule : Nat → List (BitVec 32) → List (BitVec 32)
  | 0, w => w
  | n + 1, w =>
    let g := fun i => w.getD i 0
    let s0 := (g 14).rotateRight 7 ^^^ (g 14).rotateRight 18 ^^^ (g 14 >>> 3)
    let s1 := (g 1).rotateRight 17 ^^^ (g 1).rotateRight 19 ^^^ (g 1 >>> 10)
    shaSchedule n ((g 15 + s0 + g 6 + s1) :: w)

def shaStep (v : List (BitVec 32)) (kw : BitVec 32) : List (BitVec 32) :=
  let g := fun i => v.getD i 0
  let s1 := (g 4).rotateRight 6 ^^^ (g 4).rotateRight 11 ^^^ (g 4).rotateRight 25
  let ch := (g 4 &&& g 5) ^^^ (~~~(g 4) &&& g 6)
  let t1 := g 7 + s1 + ch + kw
  let s0 := (g 0).rotateRight 2 ^^^ (g 0).rotateRight 13 ^^^ (g 0).rotateRight 22
  let maj := (g 0 &&& g 1) ^^^ (g 0 &&& g 2) ^^^ (g 1 &&& g 2)
  [t1 + s0 + maj, g 0, g 1, g 2, g 3 + t1, g 4, g 5, g 6]

def shaBlock (h : List (BitVec 32)) (b : Bytes) : List (BitVec 32) :=
  let w0 := ((List.range 16).map fun i => BitVec.ofNat 32 (beNat ((b.drop (4 * i)).take 4))).reverse
  let w := (shaSchedule 48 w0).reverse
  let v := (w.zipWith (fun x k => x + k) shaK).foldl shaStep h
  h.zipWith (fun x y => x + y) v

def sha256 (bs : Bytes) : Bytes :=
  let z := (119 - bs.length % 64) % 64
  let m := bs ++ [0x80] ++ List.replicate z 0 ++ toBE 8 (8 * bs.length)
  ((List.range (m.length / 64)).foldl (fun h i => shaBlock h ((m.drop (64 * i)).take 64)) shaInit).flatMap fun x => toBE 4 x.toNat

end Sys2Proof.Machine.Crypto
end

