-- ==== Sys2Proof/Config.lean ====
section
/-! DEFINITION. What one part fixes and the spec leaves open: fuse values, and the free values. None has a body, so a
proof holds for every value. -/

namespace Sys2Proof.Config

/-- The free values: the model applies it to the counter `State.free` and to an index within the command
(notes/assumptions/2.md). -/
opaque free : Nat → Nat → Nat

/-- Where within the bound of R145 the value of an element function lies, by function code and argument. -/
opaque gfnPick : Nat → Nat → Nat

/-- Fuse: BOOT_ID.STEPPING (R504). -/
opaque stepping : BitVec 4

/-- Fuse: the variant, 64 or 56 (R1, R482). -/
opaque variant : BitVec 7

/-- Fuse: cores that passed production test (R504). -/
opaque cores : BitVec 64

/-- Fuse: the SVN floor at production (R488, R504). -/
opaque svnMin : BitVec 7

/-- Fuse: TRG_CFG.NODE_ID (R398). -/
opaque nodeId : BitVec 16

/-- Fuse: LFL_SCHED_CFG.SYS, the system area in 4 KiB units (R321). -/
opaque sysUnits : BitVec 14

/-- The DRAM devices on the board: density code and whether there are two ranks (R239). -/
opaque dramDens : BitVec 4
opaque dramRanks : Bool

/-- Factory value of a calibration field, by field ID (R497). -/
opaque calFactory : Nat → Int

/-- The bytes of a certificate chain by slot, H_set and SVN (R430), and the measurement values that the part's making fixes, by
index (R435). -/
opaque certificate : Nat → List (BitVec 8) → Nat → List (BitVec 8)
opaque measurement : Nat → List (BitVec 8)

/-- The device's signature over a transcript (R430). -/
opaque signature : List (BitVec 8) → List (BitVec 8)

/-- The prefix keys drawn from the random number generator, by the number of the draw (R333). -/
opaque prefixKey : Nat → BitVec 128

/-- The number by which a unit notice names a lane group of a bridge (R415 gives the byte, no rule the numbering). -/
opaque laneNumber : Nat → Nat → Nat

/-- Bits 31 to 1 of the identification that IDCODE returns (R524 names it, no rule gives it). -/
opaque idcode : Nat

end Sys2Proof.Config
end

