-- ==== Sys2Proof/Machine/Program.lean ====
section
/-! DEFINITION. The tile program format (chapter 05): the header (R151), the operations and their fields (R154 to R175),
the checks found at decode with the CODE each records (R160), and the scratchpad and accumulator rows that an operation
touches. -/

namespace Sys2Proof.Machine

open Sys2Proof Numeric

/-- The header of a program image (R151). -/
structure Header where
  count : Nat
  workset : Nat
  init : List Int
deriving DecidableEq, Repr

/-- A FETCH with its effective operands (R161). -/
structure FetchOp where
  kind : Nat
  fallback : Bool
  /-- Rows moved, SIZE + 1. -/
  rows : Nat
  dst : Nat
  /-- KIND 0 and 1: the effective SRC in 64 B units. KIND 2: the channel. KIND 3: the source core plus 64 times the row. -/
  src : Nat
deriving DecidableEq, Repr

/-- A MATMUL with its effective operands (R164). -/
structure MatOp where
  tfmt : Nat
  afmt : Nat
  trans : Bool
  acc : Bool
  wide : Bool
  lt : Bool
  ls : Bool
  ld : Bool
  la : Bool
  tile : Nat
  scale : Nat
  act : Nat
  astride : Nat
  n : Nat
  d : Nat
  delta : Nat
  drows : Nat
  texp : Int
deriving DecidableEq, Repr

/-- A DRAIN with its effective operands (R166). -/
structure DrainOp where
  ofmt : Nat
  fp : Bool
  wide : Bool
  compat : Bool
  cfn : Nat
  mvec : Bool
  rowq : Bool
  lp : Bool
  lq : Bool
  accr : Nat
  n : Nat
  dst : Nat
  m : Int
  s : Nat
  param : Nat
  qrec : Nat
  smode : Nat
  smerge : Bool
  srow : Nat
  eadj : Bool
deriving DecidableEq, Repr

/-- The gate-unit operations, in the order of their opcodes (R154). -/
inductive GateKind where
  | gfn | gadd | gsub | gmul | gmax | grsum | grmax | gquant | gscale
deriving DecidableEq, Repr

/-- A gate-unit operation with its effective operands (R169). -/
structure GateOp where
  kind : GateKind
  fn : Nat
  bmode : Nat
  merge : Bool
  qfmt : Nat
  la : Bool
  lb : Bool
  n : Nat
  a : Nat
  astride : Nat
  b : Nat
  dst : Nat
  smode : Nat
  smerge : Bool
  srow : Nat
deriving DecidableEq, Repr

/-- A MOVE or TRANSPOSE (R170). -/
structure MoveOp where
  esize : Nat
  last : Bool
  count : Nat
  src : Nat
  sstride : Nat
  dst : Nat
  dstride : Nat
deriving DecidableEq, Repr

/-- A STORE (R163); `dst` is the effective DST in 64 B units. -/
structure StoreOp where
  kind : Nat
  last : Bool
  rows : Nat
  src : Nat
  dst : Nat
deriving DecidableEq, Repr

/-- A decoded operation (R154). -/
inductive Op where
  | nop
  | endOp
  | fetch (f : FetchOp)
  | fwait (ctr thresh : Nat)
  | matmul (m : MatOp)
  | drain (d : DrainOp)
  | gate (g : GateOp)
  | move (m : MoveOp)
  | transpose (m : MoveOp)
  | store (st : StoreOp)
  | wait (ctr thresh : Nat)
  | signal (core ctr inc : Nat)
  | fence
  | reside (first count : Nat)
  | unreside (first count : Nat)
  | loop (count body : Nat) (incs : List Int)
  | seti (reg : Nat) (val : Int)
deriving DecidableEq, Repr

/-- A decode: an operation, or the CODEs of every check it fails (R160). -/
inductive Decoded where
  | ok (op : Op)
  | bad (codes : List Nat)
deriving DecidableEq, Repr

/-! ### The header -/

/-- The header of an image, or none at a header error (R151). -/
def parseHeader (img : Bytes) : Option Header :=
  let h := img.take 64
  let count := leNat ((h.drop 2).take 2)
  if h.length = 64 ∧ leNat (h.take 2) = 1 ∧ 1 ≤ count ∧ count ≤ 1020 ∧ leNat ((h.drop 4).take 12) = 0 ∧ leNat ((h.drop 60).take 4) = 0
  then some {
              count := count, workset := leNat ((h.drop 16).take 16),
              init := (List.range 7).map fun k => signed 32 (leNat ((h.drop (32 + 4 * k)).take 4)) }
  else none

/-- Bytes of the image that a core loads (R152). -/
def imageBytes (count : Nat) : Nat := 64 * ceilDiv (count + 4) 4

/-! ### Rows that an operand covers -/

/-- `n` rows from `r`, `stride` apart, each `w` scratchpad rows wide. -/
def rowsOf (r stride w n : Nat) : List Nat := (List.range n).flatMap fun i => (List.range w).map fun j => r + i * stride + j

/-- Scratchpad rows of a tile of a format (R125). -/
def tileRows (fmt : Nat) : Nat := if fmt = 1 ∨ fmt = 2 then 32 else if fmt = 5 then 128 else 64

/-- Is this matrix instruction double rate: a 4-bit tile outside transposed mode (R122, R138)? -/
def MatOp.dbl (m : MatOp) : Bool := (m.tfmt == 1 || m.tfmt == 2) && !m.trans

/-- The first scratchpad row of activation row `i` (R123, R164). -/
def MatOp.actRow (m : MatOp) (i : Nat) : Nat :=
  if m.dbl then m.act + (i / 2) * m.astride + i % 2 else m.act + i * m.astride

/-- The rows of activation row `i`. -/
def MatOp.actRows (m : MatOp) (i : Nat) : List Nat := if m.afmt = 5 then [m.actRow i, m.actRow i + 1] else [m.actRow i]

def MatOp.allAct (m : MatOp) : List Nat := (List.range m.n).flatMap m.actRows

/-- The row slots of the instruction (R122, R138). -/
def MatOp.slots (m : MatOp) : Nat := if m.tfmt = 5 then 4 * m.n else if m.dbl then (m.n + 1) / 2 else m.n

/-- The rows that the plane load reads: delta list, tile, scale vector (R125, R129). -/
def MatOp.loadRows (m : MatOp) : List Nat :=
  rowsOf m.delta 1 1 m.drows ++ rowsOf m.tile 1 1 (tileRows m.tfmt) ++ (if m.tfmt = 5 then [] else [m.scale])

/-- The accumulator rows the instruction writes (R67, R120). -/
def MatOp.accRows (m : MatOp) : List Nat :=
  rowsOf m.d 1 1 m.n ++ (if m.wide then rowsOf (m.d + 128) 1 1 m.n else [])

/-- Scratchpad rows of one result row (R166). -/
def resultRows (fmt : Nat) : Nat := if fmt = 5 then 2 else if fmt = 6 ∨ fmt = 7 then 4 else 1

/-- Entries of a statistics buffer: `per` is the entries of ROW mode, `vec` tells a one-value-per-row output (R76). -/
def statEntries (smode n : Nat) (vec : Bool) : Nat := if smode = 1 then n else if smode = 2 then (if vec then 1 else 64) else if smode = 3 then 1 else 0

def statRows (smode srow n : Nat) (vec : Bool) : List Nat := rowsOf srow 1 1 (ceilDiv (statEntries smode n vec) 16)

def DrainOp.paramRows (d : DrainOp) : List Nat := if d.mvec then rowsOf d.param 1 1 8 else []

def DrainOp.qrecRows (d : DrainOp) : List Nat :=
  if d.rowq then rowsOf d.qrec 1 1 (1 + ceilDiv d.n 64) else if d.eadj then [d.qrec] else []

def DrainOp.statRows (d : DrainOp) : List Nat := Machine.statRows d.smode d.srow d.n false

def DrainOp.outRows (d : DrainOp) : List Nat := rowsOf d.dst 1 1 (d.n * resultRows d.ofmt)

def DrainOp.reads (d : DrainOp) : List Nat := d.paramRows ++ d.qrecRows ++ (if d.smerge then d.statRows else [])

def DrainOp.writes (d : DrainOp) : List Nat := d.outRows ++ d.statRows

def DrainOp.accRows (d : DrainOp) : List Nat :=
  rowsOf d.accr 1 1 d.n ++ (if d.wide then rowsOf (d.accr + 128) 1 1 d.n else [])

/-- Does the operation write one FP32 value per row (R143)? -/
def GateOp.vec (g : GateOp) : Bool := g.kind == .grsum || g.kind == .grmax

def GateOp.aRows (g : GateOp) : List Nat :=
  if g.kind = .gscale then rowsOf g.a 1 1 (ceilDiv g.n 16) else rowsOf g.a g.astride 2 g.n

def GateOp.bRows (g : GateOp) : List Nat :=
  match g.kind with
  | .gadd | .gsub | .gmul | .gmax =>
    if g.bmode = 0 then rowsOf g.b g.astride 2 g.n else if g.bmode = 1 then [g.b, g.b + 1] else rowsOf g.b 1 1 (ceilDiv g.n 16)
  | .gquant => rowsOf g.b 1 1 (1 + ceilDiv g.n 64)
  | _ => []

def GateOp.outRows (g : GateOp) : List Nat :=
  match g.kind with
  | .gquant => rowsOf g.dst 1 1 g.n
  | .gscale => rowsOf g.dst 1 1 (1 + ceilDiv g.n 64)
  | .grsum | .grmax => rowsOf g.dst 1 1 (ceilDiv g.n 16)
  | _ => rowsOf g.dst 2 2 g.n

def GateOp.statRows (g : GateOp) : List Nat := Machine.statRows g.smode g.srow g.n g.vec

def GateOp.reads (g : GateOp) : List Nat :=
  g.aRows ++ g.bRows ++ (if g.merge then g.outRows else []) ++ (if g.smerge then g.statRows else [])

def GateOp.writes (g : GateOp) : List Nat := g.outRows ++ g.statRows

/-- Source rows of a MOVE or TRANSPOSE (R170). -/
def MoveOp.reads (m : MoveOp) (tr : Bool) : List Nat :=
  if tr then rowsOf m.src m.sstride (m.esize + 1) 64 else rowsOf m.src m.sstride 1 m.count

def MoveOp.writes (m : MoveOp) (tr : Bool) : List Nat :=
  if tr then rowsOf m.dst m.dstride (m.esize + 1) 64 else rowsOf m.dst m.dstride 1 m.count

/-- Scratchpad rows that an execute operation reads when it issues (R105, R158). A MATMUL's tile, scale vector and delta
list are read by its plane load. -/
def Op.reads : Op → List Nat
  | .matmul m => m.allAct
  | .drain d => d.reads
  | .gate g => g.reads
  | .move m => m.reads false
  | .transpose m => m.reads true
  | .store st => rowsOf st.src 1 1 st.rows
  | _ => []

/-- Scratchpad rows that an execute operation writes. -/
def Op.writes : Op → List Nat
  | .drain d => d.writes
  | .gate g => g.writes
  | .move m => m.writes false
  | .transpose m => m.writes true
  | _ => []

/-- The rows of the operands that carry a LAST flag (R157). -/
def Op.lastRows : Op → List Nat
  | .matmul m => if m.la then m.allAct else []
  | .drain d => (if d.lp then d.paramRows else []) ++ (if d.lq then d.qrecRows else [])
  | .gate g => (if g.la then g.aRows else []) ++ (if g.lb then g.bRows else [])
  | .move m => if m.last then m.reads false else []
  | .transpose m => if m.last then m.reads true else []
  | .store st => if st.last then rowsOf st.src 1 1 st.rows else []
  | _ => []

/-- The rows of a MATMUL's load operands that carry a LAST flag (R126, R157). -/
def MatOp.lastLoad (m : MatOp) : List Nat :=
  (if m.lt then rowsOf m.tile 1 1 (tileRows m.tfmt) else []) ++ (if m.ls ∧ m.tfmt ≠ 5 then [m.scale] else []) ++
  (if m.ld then rowsOf m.delta 1 1 m.drows else [])

/-! ### Decoding one operation -/

/-- The value of index register `i`; I0 reads zero (R156). -/
def ireg (regs : List Int) (i : Nat) : Int := if i = 0 then 0 else regs.getD (i - 1) 0

/-- The effective row of a row operand (R155). -/
def effRow (regs : List Int) (x : Nat) : Int := ((x % 8192 : Nat) : Int) + ireg regs (x / 8192 % 8)

/-- The effective external address of a field, on 40 bits (R156, R161). -/
def effExt (regs : List Int) (x idx : Nat) : Nat := unsigned 40 ((x : Int) + ireg regs idx)

/-- The code, where the check fails. -/
def failIf (b : Bool) (code : Nat) : List Nat := if b then [code] else []

/-- Are all the fields `(lo, width)` zero? -/
def anySet (w : Nat) (fs : List (Nat × Nat)) : Bool := fs.any fun f => bits w f.1 f.2 != 0

/-- Rows out of the scratchpad: code 0x05 (R155). `x` is the effective first row, `rows` what it covers from there. -/
def rowErr (x : Int) (rows : List Nat) : List Nat := failIf (decide (x < 0) || rows.any fun r => decide (8191 < r)) 5

def answer (errs : List Nat) (op : Op) : Decoded := if errs.isEmpty then .ok op else .bad errs

/-- FETCH (R161). A KIND 3 row is checked with SIZE; the source core is checked when the FETCH is decoded (R101). -/
def decodeFetch (regs : List Int) (w : Nat) : Decoded :=
  let kind := bits w 8 2
  let dst := effRow regs (bits w 22 16)
  let rows := bits w 12 10 + 1
  let src := effExt regs (bits w 41 40) (bits w 38 3)
  let op : FetchOp := {
                        kind := kind, fallback := bit w 10, rows := rows, dst := dst.toNat,
                        src := if kind = 2 then bits w 41 4 else src }
  answer (failIf (anySet w [(11, 1), (81, 47)]) 1 ++
    failIf (bit w 10 && (kind == 0 || kind == 3)) 1 ++
    failIf (kind == 2 && (bits w 38 3 != 0 || bits w 45 36 != 0)) 1 ++
    failIf (kind == 0 && decide (2 ^ 20 ≤ src)) 5 ++
    failIf (kind == 3 && (decide (2 ^ 19 ≤ src) || decide (8191 < bits src 6 13 + (rows - 1)))) 5 ++
    rowErr dst (rowsOf dst.toNat 1 1 rows)) (.fetch op)

/-- The pairings of R53. -/
def pairOk (t a : Nat) : Bool :=
  (t == 0 && a == 0) || ((t == 1 || t == 2) && a == 0) || ((t == 3 || t == 4) && (a == 3 || a == 4)) || (t == 5 && a == 5)

/-- MATMUL (R164, R165). -/
def decodeMatmul (regs : List Int) (w : Nat) : Decoded :=
  let t := bits w 8 4
  let a := bits w 12 4
  let tile := effRow regs (bits w 24 16)
  let scale := effRow regs (bits w 40 16)
  let act := effRow regs (bits w 56 16)
  let delta := effRow regs (bits w 98 16)
  let n := bits w 82 8 + 1
  let d := bits w 90 8
  let wide := bit w 18
  let drows := bits w 114 4
  let op : MatOp := {
    tfmt := t, afmt := a, trans := bit w 16, acc := bit w 17, wide := wide, lt := bit w 20, ls := bit w 21,
    ld := bit w 22, la := bit w 23, tile := tile.toNat, scale := scale.toNat, act := act.toNat, astride := bits w 72 10,
    n := n, d := d, delta := delta.toNat, drows := drows, texp := signed 8 (bits w 118 8) }
  let tOk := decide (t ≤ 5)
  let aOk := a == 0 || a == 3 || a == 4 || a == 5
  let fp8 := t == 3 || t == 4
  answer (failIf (anySet w [(19, 1), (126, 2)]) 1 ++
    failIf (!fp8 && bits w 118 8 != 0) 1 ++
    failIf (!(tOk && aOk)) 2 ++
    failIf (tOk && aOk && !pairOk t a) 3 ++
    failIf (wide && (fp8 || t == 5)) 3 ++
    failIf (t == 5 && drows != 0) 7 ++
    failIf ((t == 5 || op.dbl) && (op.astride % 2 == 1 || act % 2 != 0)) 4 ++
    failIf (op.astride == 0 || decide (512 < op.astride)) 5 ++
    failIf (decide ((if wide then 127 else 255) < d + (n - 1))) 5 ++
    rowErr tile (rowsOf tile.toNat 1 1 (tileRows t)) ++
    (if t = 5 then [] else rowErr scale [scale.toNat]) ++
    (if drows = 0 then [] else rowErr delta (rowsOf delta.toNat 1 1 drows)) ++
    rowErr act op.allAct) (.matmul op)

/-- DRAIN (R166). -/
def decodeDrain (regs : List Int) (w : Nat) : Decoded :=
  let o := bits w 8 4
  let fp := bit w 12
  let mvec := bit w 17
  let dst := effRow regs (bits w 37 16)
  let param := effRow regs (bits w 53 16)
  let qrec := effRow regs (bits w 91 16)
  let srow := effRow regs (bits w 110 16)
  let op : DrainOp := {
    ofmt := o, fp := fp, wide := bit w 13, compat := bit w 14, cfn := bits w 15 2, mvec := mvec,
    rowq := bit w 18, lp := bit w 19, lq := bit w 20, accr := bits w 21 8, n := bits w 29 8 + 1, dst := dst.toNat,
    m := signed 32 (bits w 53 32), s := bits w 85 6, param := param.toNat, qrec := qrec.toNat, smode := bits w 107 2,
    smerge := bit w 109, srow := srow.toNat, eadj := bit w 126 }
  answer (failIf (bit w 127) 1 ++
    failIf (fp && (mvec || bits w 53 38 != 0 || op.rowq || op.eadj)) 1 ++
    failIf (op.cfn == 3) 1 ++
    failIf (!fp && mvec && bits w 69 22 != 0) 1 ++
    failIf (!(o == 0 || o == 3 || o == 4 || o == 5 || o == 6 || o == 7)) 2 ++
    failIf (fp && op.wide) 3 ++
    failIf (op.compat && (fp || !(o == 0 || o == 5))) 9 ++
    failIf (decide ((if op.wide then 127 else 255) < op.accr + (op.n - 1))) 5 ++
    failIf (!fp && !mvec && decide (47 < op.s)) 5 ++
    rowErr dst op.outRows ++
    (if mvec then rowErr param op.paramRows else []) ++
    (if op.rowq ∨ op.eadj then rowErr qrec op.qrecRows else []) ++
    (if op.smode = 0 then [] else rowErr srow op.statRows)) (.drain op)

/-- The gate-unit operation of an opcode from 0x40 to 0x48 (R154). -/
def gateKind (opc : Nat) : GateKind :=
  [GateKind.gfn, .gadd, .gsub, .gmul, .gmax, .grsum, .grmax, .gquant, .gscale].getD (opc - 0x40) .gfn

/-- The fields of R169's layout that an operation does not use, as (lowest bit, width). -/
def gateUnused : GateKind → List (Nat × Nat)
  | .gfn => [(11, 2), (13, 1), (14, 4), (19, 1), (54, 16)]
  | .gadd | .gsub | .gmul | .gmax => [(8, 3), (13, 1), (14, 4)]
  | .grsum | .grmax => [(8, 3), (11, 2), (14, 4), (19, 1), (54, 16)]
  | .gquant => [(8, 3), (11, 2), (13, 1)]
  | .gscale => [(8, 3), (11, 2), (13, 1), (19, 1), (44, 10), (54, 16), (86, 2), (88, 1), (89, 16)]

/-- GFN to GSCALE (R169). -/
def decodeGate (regs : List Int) (w : Nat) : Decoded :=
  let k := gateKind (bits w 0 8)
  let a := effRow regs (bits w 28 16)
  let b := effRow regs (bits w 54 16)
  let dst := effRow regs (bits w 70 16)
  let srow := effRow regs (bits w 89 16)
  let q := bits w 14 4
  let op : GateOp := {
    kind := k, fn := bits w 8 3, bmode := bits w 11 2, merge := bit w 13, qfmt := q, la := bit w 18, lb := bit w 19,
    n := bits w 20 8 + 1, a := a.toNat, astride := bits w 44 10, b := b.toNat, dst := dst.toNat, smode := bits w 86 2,
    smerge := bit w 88, srow := srow.toNat }
  let usesQ := k == .gquant || k == .gscale
  answer (failIf (bits w 105 23 != 0) 1 ++
    failIf (anySet w (gateUnused k)) 1 ++
    failIf (k == .gfn && op.fn == 7) 1 ++
    failIf (op.bmode == 3) 1 ++
    failIf (usesQ && !(q == 0 || q == 3 || q == 4)) 2 ++
    failIf (k != .gscale && (op.astride == 0 || decide (512 < op.astride) || op.astride % 2 == 1)) 5 ++
    rowErr a op.aRows ++
    (if op.bRows.isEmpty then [] else rowErr b op.bRows) ++
    rowErr dst op.outRows ++
    (if op.smode = 0 then [] else rowErr srow op.statRows)) (.gate op)

/-- MOVE and TRANSPOSE (R170). -/
def decodeMove (regs : List Int) (tr : Bool) (w : Nat) : Decoded :=
  let src := effRow regs (bits w 20 16)
  let dst := effRow regs (bits w 46 16)
  let op : MoveOp := {
    esize := bits w 8 1, last := bit w 9, count := bits w 10 10 + 1, src := src.toNat, sstride := bits w 36 10,
    dst := dst.toNat, dstride := bits w 62 10 }
  let badStride := fun s : Nat => s == 0 || decide (512 < s)
  answer (failIf (bits w 72 56 != 0) 1 ++
    failIf (if tr then bits w 10 10 != 0 else op.esize != 0) 1 ++
    failIf (tr && op.esize == 1 && (op.sstride % 2 == 1 || op.dstride % 2 == 1 || src % 2 != 0)) 4 ++
    failIf (badStride op.sstride || badStride op.dstride) 5 ++
    rowErr src (op.reads tr) ++ rowErr dst (op.writes tr) ++
    failIf (!tr && (op.reads false).any fun r => (op.writes false).contains r) 10) (if tr then .transpose op else .move op)

/-- STORE (R163). -/
def decodeStore (regs : List Int) (w : Nat) : Decoded :=
  let src := effRow regs (bits w 20 16)
  let op : StoreOp := {
    kind := bits w 8 1, last := bit w 9, rows := bits w 10 10 + 1, src := src.toNat,
    dst := effExt regs (bits w 39 40) (bits w 36 3) }
  answer (failIf (bits w 79 49 != 0) 1 ++ rowErr src (rowsOf src.toNat 1 1 op.rows)) (.store op)

/-- WAIT and FWAIT (R172). -/
def decodeWait (f : Bool) (w : Nat) : Decoded :=
  answer (failIf (anySet w [(8, 6), (18, 8), (42, 86)]) 1 ++ failIf (bits w 26 16 == 0) 5)
    (if f then .fwait (bits w 14 4) (bits w 26 16) else .wait (bits w 14 4) (bits w 26 16))

/-- SIGNAL (R172). -/
def decodeSignal (w : Nat) : Decoded :=
  answer (failIf (anySet w [(26, 16), (42, 86)]) 1 ++ failIf (bits w 18 8 == 0) 5)
    (.signal (bits w 8 6) (bits w 14 4) (bits w 18 8))

/-- RESIDE and UNRESIDE (R174). -/
def decodeReside (un : Bool) (w : Nat) : Decoded :=
  let first := bits w 8 7
  let count := bits w 15 7 + 1
  answer (failIf (bits w 22 106 != 0) 1 ++ failIf (decide (128 < first + count)) 5)
    (if un then .unreside first count else .reside first count)

/-- LOOP (R175). That the body fits the program and the nesting the stack is checked by the fetch engine. -/
def decodeLoop (w : Nat) : Decoded :=
  answer (failIf (bits w 125 3 != 0) 1 ++ failIf (bits w 24 10 == 0) 5)
    (.loop (bits w 8 16) (bits w 24 10) ((List.range 7).map fun k => signed 13 (bits w (34 + 13 * k) 13)))

/-- SETI (R175). -/
def decodeSeti (w : Nat) : Decoded :=
  answer (failIf (bits w 43 85 != 0) 1) (.seti (bits w 8 3) (signed 32 (bits w 11 32)))

/-- An operation that has only its opcode. -/
def decodeBare (op : Op) (w : Nat) : Decoded := answer (failIf (bits w 8 120 != 0) 1) op

/-- The operation of a 128-bit word, with the index registers as they stand (R154, R155). -/
def decodeOp (regs : List Int) (w : Nat) : Decoded :=
  let opc := bits w 0 8
  if opc = 0x00 then decodeBare .endOp w
  else if opc = 0x01 then decodeBare .nop w
  else if opc = 0x10 then decodeFetch regs w
  else if opc = 0x11 then decodeWait true w
  else if opc = 0x20 then decodeMatmul regs w
  else if opc = 0x30 then decodeDrain regs w
  else if 0x40 ≤ opc ∧ opc ≤ 0x48 then decodeGate regs w
  else if opc = 0x50 then decodeMove regs false w
  else if opc = 0x51 then decodeMove regs true w
  else if opc = 0x52 then decodeStore regs w
  else if opc = 0x60 then decodeWait false w
  else if opc = 0x61 then decodeSignal w
  else if opc = 0x62 then decodeBare .fence w
  else if opc = 0x63 then decodeReside false w
  else if opc = 0x64 then decodeReside true w
  else if opc = 0x70 then decodeLoop w
  else if opc = 0x71 then decodeSeti w
  else .bad [1]

end Sys2Proof.Machine
end

