-- ==== Sys2Proof/Machine/State.lean ====
section
/-! DEFINITION. The state of the block: every register, buffer, counter, mode and pin the spec gives the part, grouped
by the block that owns it, and the queue of the commands that wait. All of it is plain data. -/

namespace Sys2Proof.Machine

open Sys2Proof

/-- A table by number in canonical form: keys strictly rising, and no entry equal to what an unlisted key reads as. -/
abbrev Tab (α : Type) := List (Nat × α)

/-- A byte memory: the cells that differ from what an unlisted address reads as, addresses strictly rising. -/
abbrev Mem := List Host.Cell

/-- A pool of countable units (R46): hardware keeps total = free + held. -/
structure Pool where
  total : Nat
  free : Nat
  held : Nat
deriving DecidableEq, Repr

/-- Every byte memory of the part, and what the part has written into host memory. -/
structure Mems where
  /-- The shared SRAM, 64 MiB (R201). -/
  sram : Mem
  /-- DRAM by device address, in plain text (R203, R243). -/
  dram : Mem
  /-- The scratchpad of each core, 512 KiB (R85). -/
  spm : Tab Mem
  /-- The program buffer of each core, 16 KiB (R152). -/
  prog : Tab Mem
  /-- What the part has written into the host memory of each function (R413, R415). -/
  host : Tab Mem
  /-- The embedded flash, 16 MiB (R284). -/
  efl : Mem
  /-- The NAND array of the flash tier by byte of page (R262). -/
  nand : Mem
deriving DecidableEq, Repr

/-! ## Chapter 01: fences, bridges, audit registers -/

/-- The fence maps (R45). -/
structure Fences where
  /-- BOOT_FENCE_CORES: bit n, core n is fenced. -/
  cores : BitVec 64
  /-- DDR_PAIR, as decided at the last start. -/
  pairs : BitVec 16
  csi : BitVec 4
  pci : BitVec 4
  brC0 : BitVec 8
  brC1 : BitVec 8
  brX : BitVec 4
  half : BitVec 2
deriving DecidableEq, Repr

/-- A flit that its sender keeps in the replay buffer until the receiver accepts it intact (R24): the lane group it
went on, or none while it waits to be sent. -/
structure Flit where
  lane : Option Nat
deriving DecidableEq, Repr

/-- One direction of a bridge (R22): its credits (pool 0x02) and the sender's replay buffer. -/
structure BridgeDir where
  credits : Pool
  replay : List Flit
deriving DecidableEq, Repr

/-- The audit registers (R51) and the latch of the first conservation fault (R50). -/
structure Audit where
  pool : BitVec 8
  inst : BitVec 8
  total : DWord
  free : DWord
  held : DWord
  valid : Bool
  badSelect : Bool
  fault : Bool
  faultPool : BitVec 8
  faultInst : BitVec 8
deriving DecidableEq, Repr

/-! ## Chapters 03 to 05: the compute core -/

/-- The state of a scratchpad region (R92); a RESIDENT region has its owner (R107). -/
inductive Region where
  | free
  | stream
  | work
  | resident (owner : Nat)
deriving DecidableEq, Repr

/-- How the plane load of a queued MATMUL stands (R124, R126, R158). -/
inductive LoadState where
  | waiting
  /-- The tile is in the plane with this number. -/
  | loaded (plane : Nat)
  /-- The check of R158 failed when the load began: a RESIDENT region of another owner, or any other failure. -/
  | denied
  | badRegion
deriving DecidableEq, Repr

/-- A decoded operation in the execute queue (R104), with its position in the program. -/
structure QOp where
  pos : Nat
  op : Op
  load : LoadState
deriving DecidableEq, Repr

/-- A weight plane (R120): the codes of the tile with its delta list applied, row k then column n, and its 64 scale
mantissas. -/
structure Plane where
  fmt : Nat
  elems : List Nat
  scales : List Nat
deriving DecidableEq, Repr

/-- A matrix instruction in the array: the slots admitted so far and the activation rows its feeder read. -/
structure ArrayOp where
  m : MatOp
  plane : Nat
  slot : Nat
  acts : List Bytes
deriving DecidableEq, Repr

/-- A row in flight to a scratchpad: its bytes and whether its source delivered it poisoned (R116). -/
structure RowData where
  data : Bytes
  poison : Bool
deriving DecidableEq, Repr

/-- A transfer of the fetch engine (R98). `rows` holds what has been read from the source and not landed: the rows read
at issue, or the rows that a multicast brought. -/
structure Transfer where
  num : Nat
  f : FetchOp
  landed : Nat
  rows : List (Option RowData)
  /-- The regions it claimed. -/
  streaming : Bool
deriving DecidableEq, Repr

/-- An iteration of a loop in progress (R175). -/
structure LoopFrame where
  start : Nat
  stop : Nat
  left : Nat
  incs : List Int
  saved : List Int
deriving DecidableEq, Repr

/-- A STORE that is not acknowledged yet: the lines that have still to become visible (R163). -/
structure StoreOut where
  kind : Nat
  lines : List (Nat × RowData)
deriving DecidableEq, Repr

/-- A SIGNAL in flight (R172): sent, or arrived and its acknowledgement on the way back. -/
structure SignalOut where
  target : Nat
  ctr : Nat
  inc : Nat
  arrived : Bool
deriving DecidableEq, Repr

/-- How a job's start or end stands on a core (R153, R176). -/
inductive RunPhase where
  /-- The program load runs. -/
  | loading
  /-- The load has landed. -/
  | loaded
  | running
  /-- Decoding has ended with an error or a cancel: what is outstanding finishes and is discarded (R113, R159). -/
  | cancelling
deriving DecidableEq, Repr

/-- A job on a core and all that the two engines hold for it (R84, R112). -/
structure Run where
  job : Nat
  owner : Nat
  image : DWord
  phase : RunPhase
  count : Nat
  workset : Nat
  init : List Int
  pos : Nat
  iregs : List Int
  loops : List LoopFrame
  /-- Decoding has ended: END was decoded, or an error found at decode was raised. -/
  decodeEnded : Bool
  /-- A SUSPEND waits for the job to reach its operation boundary (R112). -/
  suspending : Bool
  /-- END has left the head of the queue. -/
  ended : Bool
  queue : List QOp
  nextPlane : Nat
  array : List ArrayOp
  transfers : List Transfer
  nextXfer : Nat
  stores : List StoreOut
  signals : List SignalOut
  /-- Regions that an earlier RESIDE marked, and working-set regions that an UNRESIDE releases at the end (R174). -/
  reside : List Nat
  unreside : List Nat
  /-- The status with which the job ends, if it is decided (R159, R116), and its DETAIL. -/
  ending : Option (BitVec 16 × Word)
deriving DecidableEq, Repr

/-- A job that is suspended on a core, with all that it keeps (R112). -/
structure KeptRun where
  run : Run
  /-- Its STREAM and WORK regions. -/
  regions : List Nat
  acc : Tab Word
  plane0 : Plane
  plane1 : Plane
  /-- Its program. -/
  prog : Bytes
deriving DecidableEq, Repr

/-- CORE_FAULT (R118), held in the always-on domain. -/
structure CoreFault where
  ueCtrl : Bool
  ueBank : Bool
  ceRate : Bool
  creditStall : Bool
  poison : Bool
  bank : BitVec 4
deriving DecidableEq, Repr

/-- A compute core. -/
structure Core where
  /-- The owner, 0 for none (R107). -/
  owner : Nat
  regions : Tab Region
  /-- Pool 0x01 of the core. -/
  credits : Pool
  presence : BitVec 8192
  poison : BitVec 8192
  /-- The accumulator file: entry 64 × row + column (R67, R84). -/
  acc : Tab Word
  plane0 : Plane
  plane1 : Plane
  run : Option Run
  kept : Option KeptRun
  /-- A job that Liftline has dispatched to the core and that has not started: its number, owner and image. -/
  assigned : Option (Nat × Nat × DWord)
  /-- The 16 sync counters (R171). -/
  sync : Tab (BitVec 16)
  /-- The slot account A and the enabled columns E of the ramp (R135). -/
  slotAcct : Nat
  columns : Nat
  /-- ARR_STAT0 (R150). -/
  deltaSkip : BitVec 16
  ramps : BitVec 16
  /-- CORE_NUM_STAT0 and CORE_NUM_STAT1 (R82). -/
  outSat : BitVec 32
  accSat : BitVec 16
  nonfinite : BitVec 8
  fmtErr : BitVec 8
  fault : CoreFault
  /-- SPM_ECC_STAT (R118). -/
  ceCount : BitVec 16
  ueCount : BitVec 8
  ceBank : BitVec 4
  /-- The scratchpad rows found uncorrectable since the last reset of the domain (R117). -/
  ueRows : List Nat
  /-- CORE_PROG_ERR (R160). -/
  errIndex : BitVec 10
  errCode : BitVec 8
  errValid : Bool
  /-- SPM_REGION_SEL and the snapshot in SPM_REGION_STAT (R119). -/
  regionSel : BitVec 7
  regionStat : Word
  /-- The present and the target step of its clock (R457, R458). -/
  step : Nat
  target : Nat
deriving DecidableEq, Repr

/-! ## Chapter 07: memory tiers and the weight stream -/

/-- An entry of the region table (R203, R204). -/
structure RegionEntry where
  base : BitVec 16
  size : BitVec 16
  type : BitVec 3
  compress : Bool
  prot : Bool
  owner : BitVec 4
  key : BitVec 7
  readers : BitVec 15
deriving DecidableEq, Repr

/-- A decoding-table slot, the same in all eight Expanders (R219): its tag is the version's handle and the table. -/
structure TableSlot where
  tag : Option (Nat × Nat)
  use : BitVec 16
  loading : Bool
  /-- A table build holds the slot. -/
  held : Bool
  /-- The 128-byte record that the load read. -/
  record : Bytes
  lastUse : Nat
deriving DecidableEq, Repr

/-- A layer stream record (R224). -/
structure LayerRec where
  block0 : Nat
  ntiles : Nat
  tfmt : Nat
  chan : Nat
  set0 : Nat
  nsets : Nat
  fbElig : Bool
  dfrac : Nat
  fbOff : Nat
deriving DecidableEq, Repr

/-- A Gondola pass (R224): its job, version, set table, start time and budget in ns, and how far its stream has come. The
KV manager's images for a pass are a stream of their own, with the rows it has still to deliver (R342). -/
structure GdlPass where
  job : Nat
  handle : Nat
  sets : List Nat
  start : Nat
  budget : Nat
  layers : List LayerRec
  layer : Nat
  tile : Nat
  images : List RowData
  /-- GDL_TENANT_CFG.SNOW_EN as the pass found it at its start (R237). -/
  snowEn : BitVec 15
  /-- Tiles found late, as layer, tile and half (R230). -/
  late : List (Nat × Nat × Nat)
  /-- A fallback tile was delivered to some core of the pass (R233). -/
  degraded : Bool
deriving DecidableEq, Repr

/-- A block of a tile in the delivery buffer: a raw block that was read, a coded block that waits for an Expander, one
that an Expander holds, or a decoded one. -/
inductive BlockState where
  | coded (handle table : Nat) (lines : List RowData) (crc : Nat)
  | inExpander
  | ready (lines : List RowData)
deriving DecidableEq, Repr

/-- An entry of the delivery buffer (R227): a tile of a pass, or 4 KiB of an image stream. -/
structure BufEntry where
  pass : Nat
  layer : Nat
  tile : Nat
  blocks : List BlockState
  complete : Bool
  /-- The halves that hold cores of the set and have had no copy, full or fallback, with the rows that have left. -/
  waiting : List (Nat × Nat)
  /-- The fallback tile read and expanded for a half (R231). -/
  fallback : Tab (List RowData)
deriving DecidableEq, Repr

/-- A block in an Expander (R222): where it came from, the table slot it uses, and its coded lines. -/
structure ExpBlock where
  entry : Nat
  blk : Nat
  pass : Nat
  layer : Nat
  tile : Nat
  slot : Nat
  lines : List RowData
  crc : Nat
deriving DecidableEq, Repr

/-- A table build (R217, R218). -/
structure TableBuild where
  ingest : Nat
  handle : Nat
  /-- The table that the build has in work, the pass 1 or 2, and the blocks left in it. -/
  waiting : Bool
deriving DecidableEq, Repr

/-- Gondola, the Expanders and the shared SRAM's line flags. -/
structure Gdl where
  regions : Tab RegionEntry
  rgnSel : BitVec 8
  rgnErr : Bool
  rgnSpan : Word
  rgnAttr : DWord
  slots : Tab TableSlot
  expanders : Tab (List ExpBlock)
  rrExp : Nat
  passes : Tab GdlPass
  buffer : Tab (Option BufEntry)
  rrPass : Nat
  snowEn : BitVec 15
  share : BitVec 15
  fallback : BitVec 32
  late : BitVec 32
  coded : BitVec 32
  raw : BitVec 24
  decErr : BitVec 8
  builds : List TableBuild
  /-- Poisoned lines of the shared SRAM, rising (R530). -/
  sramPoison : List Nat
  /-- The header lines kept (R211), most recent first. -/
  headerCache : List Nat
  useClock : Nat
deriving DecidableEq, Repr

/-! ## Chapter 08: the DRAM controller -/

/-- What the check word of a data line records (R243), the epoch of the key that wrote it, and an error that stays in
the line until it is written again. -/
structure LineTag where
  poison : Bool
  key : BitVec 7
  epoch : Nat
  ue : Bool
deriving DecidableEq, Repr

/-- The delay codes of one byte lane (R249). -/
structure LaneDelay where
  rd : BitVec 7
  wr : BitVec 7
  mode : Bool
  rdW : BitVec 7
  wrW : BitVec 7
deriving DecidableEq, Repr

/-- A DRAM channel: lanes, error counts, wheel, neighbour refresh, check-line cache. -/
structure Channel where
  lane0 : LaneDelay
  lane1 : LaneDelay
  ce : BitVec 16
  ue : BitVec 8
  keyMM : BitVec 8
  lastUe : BitVec 31
  /-- The rows with an uncorrectable error since start-up, as rank, bank and row (R259). -/
  ueRows : List (Nat × Nat × Nat)
  /-- Corrected errors within the present 1 ms interval, and the interval's number. -/
  ceTick : Nat
  ceTickNo : Nat
  wheelPos : BitVec 6
  /-- The owners of the wheel's slots, as port and account (R254). -/
  owners : Tab (Option (Nat × Nat))
  lfsr : Word
  /-- Queued neighbour refreshes of each bank: the rows activated, oldest first (R250). -/
  nr : Tab (List Nat)
  /-- The open row of each bank. -/
  openRow : Tab (Option Nat)
  /-- Check lines in the write-back cache, most recent first (R245). -/
  checkCache : List Nat
  rrPort : Nat
deriving DecidableEq, Repr

/-- A regulator account (R252, R253, R256). The fraction is in 1/6,400 of a token. -/
structure Account where
  rate : BitVec 10
  mode : BitVec 2
  slots : BitVec 5
  burst : BitVec 16
  free : Nat
  held : Nat
  frac : Nat
deriving DecidableEq, Repr

/-- A port's regulator: pool 0x03 of the port and its accounts. -/
structure Port where
  total : Nat
  /-- Accounts 0 to 15, in order. -/
  accts : List Account
deriving DecidableEq, Repr

/-- A granted access: port, account, first line, count, channel. -/
structure Grant where
  port : Nat
  acct : Nat
  line : Nat
  k : Nat
  write : Bool
deriving DecidableEq, Repr

/-- A retraining (R248): the channel it is at, and the command that waits for it. -/
structure Retrain where
  chan : Nat
  suspended : Bool
  cmd : Option (Nat × Sub)
deriving DecidableEq, Repr

/-- The DRAM controller. -/
structure Ddr where
  dens : BitVec 4
  ranks : Bool
  nch : BitVec 6
  gseg : BitVec 24
  cap : BitVec 16
  tags : Tab LineTag
  chans : Tab Channel
  /-- Ports 0 to 6, in order. -/
  ports : List Port
  grants : List Grant
  chSel : BitVec 5
  laneSel : Bool
  periodS : BitVec 16
  tempDelta : BitVec 8
  retrain : Option Retrain
  retrainDue : Bool
  /-- DDR_RETRAIN commands that wait for the retraining in work, oldest first, and the number of the next. -/
  retrainQ : List (Nat × Sub)
  nextRetrain : Nat
  lastTrain : Nat
  lastTemp : Int
  prob : BitVec 3
  patrolH : BitVec 8
  lastPatrol : Nat
  nrCount : BitVec 32
  regPort : BitVec 3
  regAcct : BitVec 4
  regErr : Bool
  regCfg : DWord
  keepR0 : BitVec 8
  keepR1 : BitVec 8
  /-- DDR_FAIL, always-on. -/
  fail : BitVec 16
  rrShared : Nat
deriving DecidableEq, Repr

/-! ## Chapter 09: the flash tier and the embedded flash -/

/-- The entry of a block in the block table (R266, R268). -/
structure FltBlock where
  state : BitVec 4
  wptr : Nat
  /-- Ingests in flight that name the block (R269). -/
  pins : Nat
deriving DecidableEq, Repr

/-- A journal record (R276) and the flash command that waits for it, if one does. -/
structure JRec where
  type : Nat
  addr : Nat
  seq : Nat
  cmd : Option Nat
deriving DecidableEq, Repr

/-- The journal of a channel (R276, R277): queued records, the records of the page that programs, the parts of a
checkpoint still to program, the numbers of the next record and page, the next page of the active block. -/
structure Journal where
  queue : List JRec
  programming : Option (List JRec)
  ckpt : Nat
  seq : Nat
  pseq : Nat
  page : Nat
  active : Nat
deriving DecidableEq, Repr

/-- Who waits for a page read: shard `shard` of ingest `job`, or a FLASH_DIRECT command. -/
inductive Reader where
  | ingest (job shard : Nat)
  | direct (cmd : Nat)
deriving DecidableEq, Repr

/-- A page read in the read queue of a LUN, or on the device. -/
structure PageRead where
  block : Nat
  page : Nat
  who : Reader
deriving DecidableEq, Repr

/-- A device erase on a LUN: the block, its command, when it was issued or last resumed, and why it is suspended. -/
structure LunErase where
  block : Nat
  cmd : Option Nat
  since : Nat
  byCtrl : Bool
  byHost : Bool
  /-- Reads served in the present suspension. -/
  served : Nat
deriving DecidableEq, Repr

/-- A LUN: its read queue, the read on the device, the erases that wait and the one in progress, and whose turn is next
(R270, R272). -/
structure Lun where
  reads : List PageRead
  reading : Option PageRead
  eraseQ : List (Nat × Option Nat)
  erase : Option LunErase
  readTurn : Bool
deriving DecidableEq, Repr

/-- A flash command that is not complete (R267): what it still has to do. -/
structure FlashCmd where
  num : Nat
  sub : Sub
  kind : Nat
  /-- Blocks of an erase still to take, or the one block of the command. -/
  blocks : List Nat
  page : Nat
  left : Nat
  host : Nat
  raw : Bool
  suspended : Bool
  cancelled : Bool
  /-- The first failing page of a FLASH_DIRECT. -/
  failPage : Option Nat
deriving DecidableEq, Repr

/-- An operation of a bank of the embedded flash (R287): program or erase, with its line. -/
structure EflOp where
  erase : Bool
  line : Nat
  data : Bytes
deriving DecidableEq, Repr

/-- The flash-tier controller. -/
structure Flt where
  state : BitVec 3
  channels : BitVec 4
  luns : BitVec 4
  rate : BitVec 2
  pages : BitVec 13
  blocks : BitVec 17
  sets : BitVec 5
  table : Tab FltBlock
  /-- The block states that the journals on the devices hold. -/
  durable : Tab (BitVec 4)
  journals : Tab Journal
  units : Tab Lun
  cmds : List FlashCmd
  nextCmd : Nat
  suspMin : BitVec 16
  retryMax : BitVec 5
  blkSel : BitVec 22
  blkStat : Word
  retries : BitVec 24
  uncorr : BitVec 8
  suspends : BitVec 16
  badNew : BitVec 8
  /-- Every journal block on the devices reads erased. -/
  blank : Bool
deriving DecidableEq, Repr

/-- The embedded flash (R284 to R289). -/
structure Efl where
  wdata : Tab DWord
  busy : Tab EflOp
  fail : Bool
  reprog : Bool
  lock : Bool
  busyErr : Bool
  pulses : BitVec 4
  ceCount : BitVec 16
  faultAddr : BitVec 19
  faultCause : Bool
  faultSrc : BitVec 2
  faultCount : BitVec 8
  prefetch : List Nat
  branch : List Nat
  lastDemand : Nat
deriving DecidableEq, Repr

/-! ## Chapters 06, 10 and 11: Liftline, recurrent operators, the KV manager -/

/-- The partition, budget and cost registers of a tenant (R291, R310, R320, R322). -/
structure Tenant where
  cores : BitVec 64
  base : BitVec 14
  size : BitVec 14
  stateUnits : BitVec 14
  kvQuota : BitVec 20
  maxReq : BitVec 11
  lend : Bool
  borrow : Bool
  rate : BitVec 24
  burst : BitVec 24
  /-- The ledger: pool 0x08 of the tenant, and the milli-token fraction. -/
  ledger : Pool
  milli : Nat
  pfScale : BitVec 12
  stepScale : BitVec 12
  noMeas : Bool
  specGain : BitVec 4
  /-- The 64 model slots: the bound handle, 0 for none (R301). -/
  slots : Tab Nat
  /-- KVM_TEN_CFG and KVM_TEN_APP (R351). -/
  area : BitVec 16
  fbase : BitVec 18
  frameKib : BitVec 7
  append : BitVec 14
  appUnits : BitVec 14
  group : BitVec 3
  /-- KV_QUOTA has changed since the last successful KVM_TEN_SEL APPLY (R327). -/
  quotaStale : Bool
  /-- The draw that made the tenant's prefix key, 0 for the one at the last package reset (R333). -/
  prefixKey : Nat
deriving DecidableEq, Repr

/-- An entry of the version table (R298, R299, R302). -/
structure Version where
  state : BitVec 3
  fail : BitVec 3
  gen : BitVec 6
  owner : BitVec 4
  refs : BitVec 16
  /-- The region that holds the version, with its base device address at ingest. -/
  region : Nat
  addr : Nat
  kind : Nat
  delta : Bool
  spec : Bool
  nlayers : Nat
  nrec : Nat
  nroles : Nat
  ctxMax : Nat
  baseHandle : Nat
  nkv : Nat
  ntables : Nat
  /-- Device addresses of the table area, the layer and recurrent records, the program table, the KV geometry, the delta
  area and the fallback image, from the header. -/
  tablesAt : Nat
  lsrAt : Nat
  recAt : Nat
  progAt : Nat
  geomAt : Nat
  deltasAt : Nat
  fbAt : Nat
  cPf : Nat
  cDec : Nat
  cFix : Nat
  /-- 4 KiB units that hold its fallback image: first unit and count (R299). -/
  fbUnit : Nat
  fbUnits : Nat
  /-- The last 16 pass durations in ns, newest first (R308). -/
  steps : List Nat
deriving DecidableEq, Repr

/-- A sequence of a request in one version: committed length, its blocks by head frame, and provisional entries. -/
structure Sequence where
  handle : Nat
  lkv : Nat
  blocks : List Nat
  prov : Nat
deriving DecidableEq, Repr

/-- The speculation state of a request (R343). -/
inductive SpecState where
  | prefill
  | draft (i : Nat)
  | verify
  | plain
deriving DecidableEq, Repr

/-- An admitted GENERATE request (R303, R304). -/
structure Request where
  sub : Sub
  tenant : Nat
  main : Nat
  draft : Nat
  k : Nat
  plen : Nat
  maxOut : Nat
  prompt : List Word
  outAddr : Nat
  /-- The deadline in ns of the timer, if there is one. -/
  deadline : Option Nat
  progress : Bool
  state : SpecState
  seq : Sequence
  dseq : Sequence
  /-- Draft tokens of the present round. -/
  dtoks : List Word
  /-- Output tokens committed so far. -/
  out : List Word
  stopped : Bool
  /-- Pages still reserved (R305). -/
  reserved : Nat
  accepted : BitVec 16
  kvSat : BitVec 14
  /-- The last 16 verify passes, newest first: accepted and proposed (R346). -/
  history : List (Nat × Nat)
  specOff : Bool
  degSteps : Nat
  suspended : Bool
  /-- The status with which the request ends once its pass has ended, if it is decided. -/
  ending : Option (BitVec 16)
  admittedAt : Nat
  slotNo : Nat
  energy : Nat
deriving DecidableEq, Repr

/-- The rows of a sequence in a pass (R314). -/
inductive RowKind where
  | decode
  | verify
  | draft
  | prefill
deriving DecidableEq, Repr

structure PassSeq where
  req : Nat
  rowKind : RowKind
  /-- The rows of the draft sequence, in a pass of a draft version. -/
  isDraft : Bool
  rows : Nat
  degraded : Bool
deriving DecidableEq, Repr

/-- A member of a chunk job (R177, R193, R198). -/
structure Member where
  ctx : Nat
  op : Nat
  seq : Nat
  firstFrame : Nat
  steps : Nat
  deadline : Nat
  discard : Bool
  reset : Bool
  gap : Bool
  padded : Bool
deriving DecidableEq, Repr

/-- What a job is (R313). -/
inductive JobKind where
  | pass (handle : Nat) (seqs : List PassSeq)
  | chunk (inst : Nat) (members : List Member)
  | run (adapt : Bool)
  | resideLoad (first count addr : Nat)
deriving DecidableEq, Repr

inductive JobStatus where
  | ready
  | running
  | suspended
  /-- Every core has reported. -/
  | done
  /-- A chunk job has completed with ST_OK and its members commit. -/
  | copying
  /-- A pass or chunk job that is over: only its energy has still to be attributed. -/
  | ended
deriving DecidableEq, Repr

/-- A job (R313 to R317). -/
structure Job where
  kind : JobKind
  tenant : Nat
  sub : Option Sub
  /-- Cores and image addresses of the gang. -/
  gang : List (Nat × DWord)
  anycore : Bool
  limit : Nat
  /-- When it was dispatched, in ns, and the time spent running before a suspension. -/
  start : Nat
  ran : Nat
  budget : Nat
  /-- Cores that have not reported yet. -/
  left : List Nat
  result : BitVec 16
  detail : Word
  state : JobStatus
  rerun : Bool
  degSteps : Nat
  /-- Energy attributed to it, in pJ, and the part estimated in the present tick. -/
  energy : Nat
  tick : Nat
  /-- Members of a chunk job committed so far. -/
  committed : Nat
  /-- The requests that share its energy, with their rows. -/
  shares : List (Nat × Nat)
deriving DecidableEq, Repr

/-- An operator instance (R179): one recurrent operator of one version for one tenant. -/
structure OpInst where
  tenant : Nat
  handle : Nat
  lsteps : Nat
  bmax : Nat
  stateOff : Nat
  stateLen : Nat
  bwin : Nat
  /-- Its position in the model's order, and the OPIDX of its record. -/
  pos : Nat
  opidx : Nat
  stage : Nat
deriving DecidableEq, Repr

/-- The life of a context (R196). -/
inductive Life where
  | closed
  | running
  | idle
  | closing
deriving DecidableEq, Repr

/-- Where a context's state is (R187). -/
inductive Loc where
  | none
  | present
  | swapOut
  | absent
  | swapIn
deriving DecidableEq, Repr

/-- A ready chunk that waits for its job (R180, R190). -/
structure ReadyChunk where
  op : Nat
  seq : Nat
  firstFrame : Nat
  steps : Nat
  since : Nat
  deadline : Nat
  waitState : Bool
  reset : Bool
  gap : Bool
  padded : Bool
deriving DecidableEq, Repr

/-- A frame that a context holds (R356, R366): its index, its 256-byte row or record, the slot that holds a feature row. -/
structure Frame where
  idx : Nat
  row : Bytes
  slot : Option Nat
  /-- A chunk in flight holds it. -/
  inChunk : Bool
  gap : Bool
  firstOfSegment : Bool
deriving DecidableEq, Repr

/-- The parameters of an open context (R355). -/
structure StreamParams where
  resetOnGap : Bool
  fmax16 : Bool
  ofmt : Nat
  decim : Nat
  nfr : Nat
  x0 : Nat
  y0 : Nat
  w : Nat
  h : Nat
  ow : Nat
  oh : Nat
  hopUs : Nat
  input : Nat
  ring : Nat
  backing : Nat
  sw : Nat
  sh : Nat
  sdt : Nat
deriving DecidableEq, Repr

/-- An image frame between its delivery and the CSI receiver or the push: its source pixels, row by row. -/
structure ImageIn where
  lines : List Bytes
  dt : Nat
  timestamp : Nat
  jump : Bool
deriving DecidableEq, Repr

/-- A stream context (R187, R193, R196, R353 to R357). -/
structure Context where
  /-- SFE_CTX_CFG (R371). -/
  cfgOwner : BitVec 4
  kind : BitVec 3
  src : BitVec 5
  rsv : BitVec 7
  life : Life
  loc : Loc
  zeroPend : Bool
  params : StreamParams
  handle : Nat
  /-- The 4 KiB units of the shared SRAM that form the state slot. -/
  units : List Nat
  lastCommit : Nat
  lastFrame : Nat
  frameIdx : Nat
  /-- A frame was lost since the last delivered one. -/
  lostSince : Bool
  segment : Bool
  frames : List Frame
  /-- Slots of pool 0x05 held: the slot's rows not yet released, and the position of the next row in the current one. -/
  slots : List (Nat × Nat)
  curRows : Nat
  slotCtr : Nat
  ready : List ReadyChunk
  /-- Chunks that the preceding operator has committed, for operator `op` to take. -/
  passed : List ReadyChunk
  /-- The number of the next chunk of each operator to be made ready. -/
  nextSeq : Tab Nat
  /-- Frames that have arrived in the present segment, and those taken into chunks, by operator. -/
  arrived : Nat
  taken : Tab Nat
  /-- A chunk waits for a state slot. -/
  needSlot : Bool
  /-- A swap-out waits until no chunk is in flight. -/
  swapWant : Bool
  flush : Bool
  closeSub : Option Sub
  swapSubs : List Sub
  /-- Reset marks sent by STREAM_MARK that have not reached the context. -/
  marksSent : Nat
  /-- The last chunk record written. Where the records go is not stated. -/
  record : Bytes
  marks : BitVec 8
  late : BitVec 8
  discards : BitVec 16
  /-- The SFE_CTX_STAT counters (R372). -/
  delivered : BitVec 32
  lost : BitVec 16
  overrun : BitVec 16
  /-- The last 1,200 samples of an audio context, newest first, and the samples since the segment began. -/
  window : List Int
  newSamples : List (Option Int)
  /-- Source frames for the image pipeline, oldest first, none for one that was lost at the source. -/
  images : List (Option ImageIn)
deriving DecidableEq, Repr

/-- A KV block (R326, R328): its frames in layer order, references and entries. -/
structure KvBlock where
  frames : List Nat
  tenant : Nat
  handle : Nat
  refs : Nat
  committed : Nat
  prov : Nat
  /-- The index entry that holds it: the key and the hash. -/
  entry : Option (Nat × Nat)
  lastRef : Nat
  /-- The request that allocated it. -/
  alloc : Nat
deriving DecidableEq, Repr

/-- A long operation (R421). -/
inductive LongKind where
  | request (n : Nat)
  | job (n : Nat)
  | ingest (n : Nat)
  | flash (n : Nat)
  | retrain (n : Nat)
deriving DecidableEq, Repr

structure LongOp where
  fn : Nat
  jobId : Word
  kind : LongKind
  suspended : Bool
  /-- A SUSPEND or CANCEL that waits for the target to reach its point. -/
  waiting : List (Sub × Nat)
deriving DecidableEq, Repr

/-- The state of a shard (R424). -/
inductive ShardState where
  | absent
  | staging
  | staged
  | verified
deriving DecidableEq, Repr

/-- A shard on its way: the device address of its ciphertext in staging, and the INGEST_SHARDs that wait for it. -/
structure ShardJob where
  shard : Nat
  src : ShardSrc
  at' : Nat
  waiters : List Sub
  /-- Its staging has begun. -/
  begun : Bool
  /-- Flash pages still to be read, and whether a read has failed. -/
  left : Nat
  failed : Bool
deriving DecidableEq, Repr

/-- An INGEST in flight (R424, R427). -/
structure Ingest where
  sub : Sub
  src : Nat
  dst : Nat
  stg : Nat
  timeoutMs : Nat
  report : Nat
  nshards : Nat
  imageLen : Nat
  nonce : Nat
  tags : List Bytes
  tmap : List (Nat × Nat × Nat)
  /-- The model key, unwrapped. -/
  key : Bytes
  locs : List DWord
  handle : Nat
  shards : Tab ShardState
  active : List ShardJob
  nextFetch : Nat
  /-- Shards that have failed: only an INGEST_SHARD has them fetched again (R424). -/
  refetch : List Nat
  /-- When the timeout last restarted, in ms; while the ingest is suspended, how long it had run. -/
  since : Nat
  /-- A SUSPEND has been taken: no shard begins to move. -/
  suspended : Bool
  building : Bool
deriving DecidableEq, Repr

/-- Liftline and the KV manager. -/
structure Lfl where
  tenants : Tab Tenant
  partSel : BitVec 4
  partErr : Bool
  partCores : BitVec 64
  partSram : DWord
  partCfg : DWord
  budgetCfg : DWord
  slack : BitVec 6
  commonBase : BitVec 14
  commonSize : BitVec 14
  sysUnits : BitVec 14
  versions : Tab Version
  requests : Tab Request
  nextReq : Nat
  jobs : Tab Job
  nextJob : Nat
  insts : Tab OpInst
  idleMs : BitVec 16
  ctxSel : BitVec 5
  ctxStat : Word
  ctxCnt : Word
  longOps : List LongOp
  ingests : Tab Ingest
  rrClass : Tab Nat
  kvPages : BitVec 19
  descBase : BitVec 16
  descKey : BitVec 7
  tenSel : BitVec 4
  tenErr : Bool
  tenCfg : DWord
  tenApp : DWord
  blocks : Tab KvBlock
  /-- Pool 0x06. -/
  kvPool : Pool
  kvSat : BitVec 16
  cow : BitVec 16
  idxSkip : BitVec 16
  specOff : BitVec 8
  refClock : Nat
  /-- The draws of prefix keys so far, the draw at the last package reset, and that of each sharing group (R333). -/
  keyDraw : Nat
  keyBase : Nat
  groupKeys : Tab Nat
deriving DecidableEq, Repr

/-! ## Chapters 12 and 13: the stream front end and the Traverse Ring -/

/-- CSI_PORT_CFG (R373). -/
structure CsiPort where
  en : Bool
  /-- EN as in force since the last Frame Start. -/
  on : Bool
  lanes : BitVec 2
  rate : BitVec 12
  eccCorr : BitVec 16
  eccUe : BitVec 8
  crc : BitVec 8
  lost : BitVec 16
  ignored : BitVec 16
deriving DecidableEq, Repr

/-- CSI_VC_CFG of one virtual channel index (R373). -/
structure CsiVc where
  en : Bool
  vcid : BitVec 2
  dt : BitVec 6
  width : BitVec 12
  height : BitVec 12
deriving DecidableEq, Repr

/-- A frame that a virtual channel receives: its lines so far, whether it is lost, its gap, and when it began. -/
structure CsiFrame where
  active : Bool
  lines : List Bytes
  lost : Bool
  jump : Bool
  start : Nat
deriving DecidableEq, Repr

/-- The stream front end and the camera receivers. -/
structure Sfe where
  ctxs : Tab Context
  /-- SFE_CTX_CFG as PF0 has written it. -/
  ctxCfg : Word
  /-- Pool 0x05. -/
  pool : Pool
  csiPort : BitVec 2
  csiVc : Bool
  ports : Tab CsiPort
  /-- The configuration written, by 2 × port + index, and the one in force since the last Frame Start. -/
  vcs : Tab CsiVc
  vcsNow : Tab CsiVc
  frames : Tab CsiFrame
  /-- The last non-zero Frame Start number, by 2 × port + index, and the source frames since the open for decimation. -/
  lastNum : Tab Nat
  decim : Tab Nat
  /-- A loss or a jump of a frame that decimation drops: the next frame kept carries GAP. -/
  gapNext : Tab Bool
deriving DecidableEq, Repr

/-- A ring slot's entry in the map (R381). -/
structure MapEntry where
  waddr : BitVec 5
  en : Bool
  enc : Bool
  key : BitVec 2
deriving DecidableEq, Repr

/-- TRG_MAP_CFG of one slot (R399). -/
structure MapCfg where
  node : BitVec 16
  en : Bool
  enc : Bool
  key : BitVec 2
deriving DecidableEq, Repr

/-- A slot as a reader takes it for one superframe (R386, R390 to R392): the map entry it was under, the key and counter of an
encrypted one, whether its words come one frame late, the words with VALID and whether their frames were intact, and the
tag bytes of the next superframe. -/
structure RxSlot where
  entry : MapEntry
  shift : Bool
  key : Option (BitVec 128)
  counter : Nat
  words : List (Word × Bool × Bool)
  tag : Bytes
deriving DecidableEq, Repr

/-- A slot that the node writes encrypted (R391, R392): the present superframe's ciphertext and VALID bits, and the tag of the
one before. -/
structure TxSeal where
  entry : MapEntry
  key : Option (BitVec 128)
  counter : Nat
  cipher : Bytes
  valids : List Bool
  tag : Bytes
deriving DecidableEq, Repr

/-- The Traverse Ring node. -/
structure Trg where
  mode : BitVec 2
  role : Bool
  /-- ROLE as it was when MODE changed to 2: the node is the master (R399). -/
  master : Bool
  nodeId : BitVec 16
  mapSel : BitVec 5
  mapCfg : Tab MapCfg
  lock : Bool
  long : Bool
  dup : Bool
  addr : Option (Fin 32)
  nodes : BitVec 8
  lat : BitVec 8
  code : BitVec 16
  damaged : BitVec 16
  marked : BitVec 16
  lockLoss : BitVec 8
  tagFail : BitVec 8
  /-- Ring keys in effect and those that take effect at the next frame 0 (R393). -/
  keys : Tab (Option (BitVec 128))
  pendingKeys : Tab (Option (BitVec 128))
  /-- TRG_KEY words being written, by 4 × key + word. -/
  keyWords : Tab Word
  applied : Tab MapEntry
  /-- Tap: the map words received in the present superframe, none where one was not intact. Master: the words sent. -/
  mapRx : Tab (Option Word)
  mapTx : Tab Word
  /-- Master: TRG_MAP_CFG as sampled at frame 32. -/
  sampled : Tab MapCfg
  topoChange : Bool
  /-- The received HOP; a new value seen once; and whether it stayed the same during this superframe. -/
  hop : Option Nat
  hopPend : Bool
  hopSame : Bool
  lockedAll : Bool
  /-- The number of the last frame received. -/
  fnum : Nat
  counter : Nat
  lastCounter : Option Nat
  ctrBytes : List (Option Byte)
  /-- Master: the message words of the present and the last superframe by address, none where the frame was damaged. -/
  msgs : Tab (Option Word)
  lastMsgs : Tab (Option Word)
  heart : BitVec 8
  damageSeen : Bool
  lastDamageSeen : Bool
  missed : Nat
  syncs : Nat
  txBuf : Tab (List Word)
  /-- Master: the words that returned in the last frame received, with VALID, and that frame's number. -/
  returned : Tab (Word × Bool)
  returnedF : Option Nat
  rx : Tab RxSlot
  rxPrev : Tab RxSlot
  txSeal : Tab TxSeal
  /-- Master: the number of the next frame to emit. -/
  txFrame : Nat
  /-- The symbols of the last frame emitted, none while the node sends the fill symbol. -/
  sent : List RingSym
deriving DecidableEq, Repr

/-! ## Chapter 14: the host interface -/

/-- A completion that its queue has still to write (R413). `jobs` names the ended jobs whose energy it waits for (R468), with
its share of each as rows of all rows. -/
structure Completion where
  jobId : Word
  status : BitVec 16
  detail : Word
  degSteps : Nat
  energy : Nat
  tokens : BitVec 16
  noirq : Bool
  jobs : List (Nat × Nat × Nat)
  /-- Commands that complete once this completion is visible, with their statuses (R421). -/
  after : List (Sub × BitVec 16)
deriving DecidableEq, Repr

/-- The STATE of a queue in PCI_Q_STAT (R410). -/
inductive QState where
  | none
  | active
  | error
deriving DecidableEq, Repr

/-- A queue of a function: a submission and a completion ring in host memory (R409 to R414). -/
structure HostQueue where
  state : QState
  sqBase : DWord
  cqBase : DWord
  depth : BitVec 4
  vector : BitVec 7
  ithresh : BitVec 8
  itime : BitVec 8
  globalIdx : Nat
  /-- Pool 0x04 of the queue's global index; `held` is OUTST. -/
  slots : Pool
  tail : Nat
  /-- SQ_HEAD: the index of the next entry the part takes. -/
  sqHead : Nat
  /-- Entries submitted and not yet taken. -/
  untaken : Nat
  cqWrite : Nat
  cqHead : Nat
  /-- Entries of the completion ring written and not yet passed by CQ_HEAD. -/
  cqUsed : Nat
  phase : Bool
  /-- Ended commands whose completion is not written yet. -/
  waiting : List Completion
  /-- Counted completions written since the last signal (R414). -/
  unsignalled : Nat
  /-- When the oldest completion not yet signalled was written, on the timer. -/
  oldest : Option Nat
deriving DecidableEq, Repr

/-- The event queue of a function (R415, R416). An event is its bytes 0 to 30. -/
structure EventQueue where
  en : Bool
  base : DWord
  depth : BitVec 4
  vector : BitVec 7
  ithresh : BitVec 8
  itime : BitVec 8
  head : Nat
  writePos : Nat
  used : Nat
  phase : Bool
  /-- Events on their way to the queue, oldest first. -/
  posted : List Bytes
  /-- Events kept inside the part while the queue is disabled, up to 64. -/
  kept : List Bytes
  lost : BitVec 16
  err : Bool
  unsignalled : Nat
  oldest : Option Nat
deriving DecidableEq, Repr

/-- An ingest window (R425, R426). -/
structure Window where
  gen : BitVec 16
  stg : Byte
  offset : BitVec 16
  dropped : BitVec 16
  /-- Writes dropped since the last close, 32 bits. -/
  droppedSince : Nat
  /-- INGEST_SHARDs still reading the window's span, and the WIN_OPENs that wait for them to end. -/
  reading : Nat
  opens : List (Sub × Byte × Word)
  /-- It has been closed since the last package reset. -/
  hasClosed : Bool
deriving DecidableEq, Repr

/-- A function: its set-up block (R407), its queues, windows and the latch of R506. -/
structure Func where
  expertEn : Bool
  qmax : BitVec 7
  winEn : Bool
  qsel : BitVec 6
  qerr : Bool
  sqBase : DWord
  cqBase : DWord
  qcfg : Word
  queues : Tab HostQueue
  evq : EventQueue
  winSel : BitVec 4
  windows : Tab Window
  /-- The round-robin pointer of R412 among the function's queues. -/
  rrQueue : Nat
  /-- A Function Level Reset of the function runs (R405), and what its reclaim report will list. -/
  flr : Bool
  reclaim : List (Nat × Nat × Nat)
  /-- The upper half latched by the last 32-bit read of a lower half (R506): the register's offset and the value. -/
  latch : Option (Nat × Word)
  /-- What the function's last 32-bit read returned. -/
  readData : Word
  /-- SFE_CTX_SEL: CTX and ERR (R371). -/
  sfeSel : BitVec 5
  sfeErr : Bool
  /-- LFL_VER_SEL.ENTRY and the snapshot in LFL_VER_STAT (R323). -/
  verSel : BitVec 10
  verStat : DWord
  /-- MSI-X pending bits and masks of the 65 vectors (R414). -/
  msixMask : BitVec 65
  msixPending : BitVec 65
deriving DecidableEq, Repr

/-- A submission entry that was taken and whose command has not begun yet (R412). -/
structure Taken where
  fn : Nat
  qid : Nat
  entry : Bytes
deriving DecidableEq, Repr

/-- The PCI Express link (R402, R403, R475). -/
structure Link where
  /-- Width in lanes, 0 while the link is not trained. -/
  width : Nat
  l1 : Bool
deriving DecidableEq, Repr

/-- The host interface. -/
structure Pci where
  fnSel : BitVec 4
  funcs : Tab Func
  rrFn : Nat
  taken : List Taken
  link : Link
  /-- The number of the next reclaim report (R415). -/
  reportNo : Word
  /-- Signals sent: vectors of MSI-X messages written, newest first, for each function (R414). -/
  msix : List (Nat × Nat)
  /-- An uncorrectable internal error has been signalled on PF0 (R50, R503). -/
  aer : Bool
deriving DecidableEq, Repr

/-! ## Chapter 15: trust, isolation and attestation -/

/-- A key slot (R432); `epoch` counts the keys drawn, so that a line tells the key that wrote it. -/
structure KeySlot where
  live : Bool
  owner : BitVec 4
  epoch : Nat
deriving DecidableEq, Repr

/-- The TDI states of R440. -/
inductive Tdi where
  | unlocked
  | locked
  | run
  | error
deriving DecidableEq, Repr

/-- A tenant's confidential mode (R450) and its TDI (R440). -/
structure TenantSec where
  conf : Bool
  tdi : Tdi
  stream : Nat
  /-- The nonce that the last LOCK_INTERFACE_REQUEST made. -/
  nonce : Bytes
deriving DecidableEq, Repr

/-- How far an SPDM connection has come (R434). -/
inductive SpdmConn where
  | none
  | version
  | capabilities
  | algorithms
deriving DecidableEq, Repr

/-- An SPDM session (R434): its identifier, whether FINISH has completed it, and the last HEARTBEAT in ns. -/
structure Session where
  id : Word
  established : Bool
  since : Nat
  heartbeat : Bool
  reqKeys : Nat
  rspKeys : Nat
deriving DecidableEq, Repr

/-- A TDISP request (R439). -/
inductive TdispReq where
  | version
  | capabilities
  | lock (tdi : Nat) (stream : Nat)
  | report (tdi : Nat)
  | state (tdi : Nat)
  | start (tdi : Nat) (nonce : Bytes)
  | stop (tdi : Nat)
deriving DecidableEq, Repr

/-- A request that R436 tells to wait during a transition. -/
inductive SignedReq where
  | challenge (slot : Nat) (nonce : Bytes)
  | measurements (index : Nat) (signed : Bool) (nonce : Bytes)
  | keyExchange (slot : Nat) (reqSession : Nat) (exchange : Bytes)
  | tdisp (session : Word) (req : TdispReq)
deriving DecidableEq, Repr

/-- The SPDM responder of a function: its connection, sessions, and a signed request that waits (R436). -/
structure Spdm where
  conn : SpdmConn
  sessions : List Session
  nextSession : Nat
  token : Byte
  /-- The request code and the token of a request that was told to wait, and the request. -/
  deferred : Option (Byte × Byte × SignedReq)
  /-- The last response sent. -/
  response : Bytes
deriving DecidableEq, Repr

/-- A sub-stream of an IDE stream: the keys of its two key sets and which set is in use (R438). -/
structure SubStream where
  keys : Tab (Option Bytes)
  active : Option Nat
deriving DecidableEq, Repr

/-- An IDE stream, the link stream or a selective one. -/
structure IdeStream where
  subs : Tab SubStream
  secure : Bool
  /-- It was secure and has failed its integrity check. -/
  failed : Bool
deriving DecidableEq, Repr

/-- The security registers and the security processor. -/
structure Sec where
  kslots : Tab KeySlot
  tenSel : BitVec 4
  tenErr : Bool
  tenConf : Bool
  tens : Tab TenantSec
  kslot : BitVec 7
  kowner : BitVec 4
  kErr : Bool
  /-- SEC_RKEY_BUF0 to 15. -/
  rkeyBuf : Tab DWord
  rkeyKey : BitVec 2
  rkeyBusy : Bool
  rkeyErr : Bool
  /-- The blob under unwrapping. -/
  rkeyWork : Tab DWord
  /-- Ring keys the security firmware holds (R448). -/
  ringKeys : Tab (Option (BitVec 128))
  dbgOpened : Bool
  dbgScope : BitVec 3
  dbgRejects : BitVec 8
  /-- What the last access through the debug port read. -/
  dbgData : Bytes
  spdm : Tab Spdm
  ide : Tab IdeStream
deriving DecidableEq, Repr

/-! ## Chapter 16: power, clocks and temperature -/

/-- The state of a power domain (R469). -/
inductive DomState where
  | on
  | retain
  | off
deriving DecidableEq, Repr

/-- A power domain (R469 to R473, R477). -/
structure Dom where
  state : DomState
  target : DomState
  auto : Bool
  busy : Bool
  hold : Bool
  /-- The request that waits for the running transition. -/
  pend : Option DomState
  /-- The domain is in reset (R500). -/
  reset : Bool
  /-- When it entered its state, in ns. -/
  since : Nat
deriving DecidableEq, Repr

/-- PWR_STAT (R476). -/
structure PwrStat where
  pkg : BitVec 16
  ceil : BitVec 4
  thr : BitVec 2
  unmet : Bool
  calf : Bool
  tmax : BitVec 8
  vin : BitVec 16
  iin : BitVec 15
  cap : Bool
deriving DecidableEq, Repr

/-- Voltage-offset and step cap of an island (R478). -/
structure Vf where
  voff : BitVec 5
  maxStep : BitVec 4
deriving DecidableEq, Repr

/-- A 10 µs window (R463): the calibrated estimate, the same with the cores at the step above the ceiling, both in mW, and
the input current in mA. -/
structure PowerWindow where
  est : Nat
  above : Nat
  amps : Nat
deriving DecidableEq, Repr

/-- The power controller. -/
structure Pwr where
  limit : BitVec 8
  boardMax : BitVec 8
  boardLocked : Bool
  tThrot : BitVec 7
  ceiling : BitVec 4
  throttle : BitVec 2
  /-- The limit was exceeded at throttle level 2 at the last decision (R464). -/
  unmet : Bool
  /-- Decisions in a row that allow a step up (R463, R464). -/
  passes : Nat
  stat : PwrStat
  tripped : Bool
  /-- The windows since the last decision, newest first (R463). -/
  windows : List PowerWindow
  /-- Energy estimated over the windows of the present tick, in pJ, and the calibration factor of the last tick as a fraction
  (R461). -/
  tickEnergy : Nat
  kNum : Nat
  kDen : Nat
  /-- Measured energy below 1 µJ that the pool has not taken yet, in pJ. -/
  rest : Nat
  vinMv : BitVec 16
  iinMa : BitVec 15
  temps : List Int
  hotBefore : Bool
  capWindow : Bool
  doms : Tab Dom
  domSel : BitVec 8
  domErr : Bool
  /-- PWR_DOM_CTRL: TARGET and AUTO. -/
  domTarget : BitVec 2
  domAuto : Bool
  vfSel : BitVec 8
  vfs : Tab Vf
  smbAddr : BitVec 7
  smbEn : Bool
  wakeTimer : Word
  /-- The pending SMBus address match, and the last block or word answered. -/
  smbMatched : Bool
  smbReply : Bytes
  thermtrip : Bool
  /-- When the input voltage last returned into range, in ns (R455). -/
  vinSince : Nat
  energy : Pool
deriving DecidableEq, Repr

/-! ## Chapter 17: start-up, calibration and recovery -/

/-- BOOT_FAIL (R504), always-on. -/
structure BootFail where
  count : BitVec 2
  lastNrc : BitVec 8
  aCode : BitVec 8
  bCode : BitVec 8
  cause : BitVec 3
deriving DecidableEq, Repr

/-- A domain reset (R436, R500, R501): the domain, what returned to its pool while the reclaim phase lasts, and the jobs with the
core of each that end with the reset. -/
structure HeldPhase where
  dom : Byte
  reclaim : Option (List (Nat × Nat × Nat))
  jobs : List (Nat × Nat)
deriving DecidableEq, Repr

/-- A calibration field's user offsets (R497, R499). -/
structure CalField where
  pending : BitVec 16
  committed : BitVec 16
deriving DecidableEq, Repr

/-- The start-up registers. -/
structure Boot where
  done : Bool
  nursery : Bool
  fatal : Bool
  calDefault : Bool
  slotB : Bool
  tryB : Bool
  forceNursery : Bool
  nrc : BitVec 8
  fail : BootFail
  fwSrc : DWord
  /-- ACTIVE_OP of BOOT_FW_CMD: 0 idle, 1 to 4 the operation, 5 COPY. -/
  fwOp : BitVec 3
  fwResult : BitVec 8
  /-- The image that STAGE writes, and in nursery mode whether slot B is in work. -/
  fwImage : Bytes
  fwSecond : Bool
  /-- A set has been staged and has passed since the last package reset, and its slot. -/
  staged : Bool
  stagedB : Bool
  svnRunning : Word
  domSel : BitVec 8
  domErr : Bool
  held : Option HeldPhase
  calSel : BitVec 16
  cal : Tab CalField
  calBusy : Bool
  calErr : Bool
  /-- The overlay copy in force, empty when CAL_DEFAULT is 1 (R498). -/
  calBytes : Bytes
  /-- When the last package reset was released, DONE was set, and a fatal condition arose, in ns. -/
  resetAt : Nat
  doneAt : Nat
  fatalAt : Nat
deriving DecidableEq, Repr

/-- What the fuses hold (R482, R504). -/
structure Fuses where
  stepping : BitVec 4
  variant : BitVec 7
  cores : BitVec 64
  nodeId : BitVec 16
  sys : BitVec 14
  /-- SVN_MIN as the fuses hold it now; COMMIT_SVN blows more of them. -/
  svnMin : BitVec 7
  /-- The DRAM devices of the board. -/
  dens : BitVec 4
  ranks : Bool
deriving DecidableEq, Repr

/-! ## Chapter 19: pins -/

/-- Pins and the JTAG port (R516 to R524). -/
structure Pins where
  thermtripN : Bool
  ringBypOpen : Bool
  testMode : Bool
  perstN : Bool
  /-- The value that the JTAG port shifts out under its present instruction, 32 bits. -/
  jtag : Word
deriving DecidableEq, Repr

/-! ## The machine -/

/-- The state of the part. -/
structure State where
  cores : Tab Core
  mem : Mems
  fences : Fences
  /-- The six directions of R22, in the order of the instances of pool 0x02. -/
  bridges : List BridgeDir
  audit : Audit
  gdl : Gdl
  ddr : Ddr
  flt : Flt
  efl : Efl
  lfl : Lfl
  sfe : Sfe
  trg : Trg
  pci : Pci
  sec : Sec
  pwr : Pwr
  boot : Boot
  fuses : Fuses
  pins : Pins
  /-- The always-on 64-bit timer of 38.4 MHz (R469, R29). -/
  timer : Nat
  /-- The model's own counter of free values: nothing rests on its value. -/
  free : Nat
  /-- The commands that wait, first in, first out. -/
  pending : List Instr
deriving DecidableEq, Repr

/-! ## How the machine stops -/

/-- Why a step stops. Only the interface's form asks for this type: no meaning of the model raises a fault. -/
inductive Fault where
  /-- Raised by nothing: kept so that the type has a name. Safe. -/
  | unreachable
deriving DecidableEq, Repr

/-- Why a command is refused. -/
inductive Refusal where
  /-- Raised by the dispatcher for a command that has no meaning yet. Safe: nothing runs. -/
  | notModelled (mnemonic : String)
deriving DecidableEq, Repr

/-! ## The state right after reset

The values are those of the register tables; a value that no rule gives is named in notes/assumptions/3.md. -/

def Plane.zero : Plane := { fmt := 0, elems := [], scales := [] }

def CoreFault.none : CoreFault :=
  { ueCtrl := false, ueBank := false, ceRate := false, creditStall := false, poison := false, bank := 0 }

/-- A core after a reset of its domain (R114). -/
def Core.init : Core := {
  owner := 0
  regions := []
  credits := { total := 128, free := 128, held := 0 }
  presence := 0
  poison := 0
  acc := []
  plane0 := Plane.zero
  plane1 := Plane.zero
  run := none
  kept := none
  assigned := none
  sync := []
  slotAcct := 0
  columns := 0
  deltaSkip := 0
  ramps := 0
  outSat := 0
  accSat := 0
  nonfinite := 0
  fmtErr := 0
  fault := CoreFault.none
  ceCount := 0
  ueCount := 0
  ceBank := 0
  ueRows := []
  errIndex := 0
  errCode := 0
  errValid := false
  regionSel := 0
  regionStat := 0
  step := 12
  target := 12 }

def Mems.reset : Mems := { sram := [], dram := [], spm := [], prog := [], host := [], efl := [], nand := [] }

def Fences.reset : Fences :=
  { cores := 0, pairs := 0, csi := 0, pci := 0, brC0 := 0, brC1 := 0, brX := 0, half := 0 }

def BridgeDir.init (n : Nat) : BridgeDir := { credits := { total := n, free := n, held := 0 }, replay := [] }

/-- The six bridge directions, with the credits of R22. -/
def bridgeCredits (d : Nat) : Nat := if d < 4 then 512 else 128

def Audit.reset : Audit := {
  pool := 0
  inst := 0
  total := 0
  free := 0
  held := 0
  valid := false
  badSelect := false
  fault := false
  faultPool := 0
  faultInst := 0 }

def RegionEntry.none : RegionEntry :=
  { base := 0, size := 0, type := 0, compress := false, prot := false, owner := 0, key := 0, readers := 0 }

def TableSlot.none : TableSlot := { tag := Option.none, use := 0, loading := false, held := false, record := [], lastUse := 0 }

/-- What an unlisted pass number reads as. -/
def GdlPass.none : GdlPass := {
  job := 0
  handle := 0
  sets := []
  start := 0
  budget := 0
  layers := []
  layer := 0
  tile := 0
  images := []
  snowEn := 0
  late := []
  degraded := false }

def Gdl.reset : Gdl := {
  regions := []
  rgnSel := 0
  rgnErr := false
  rgnSpan := 0
  rgnAttr := 0
  slots := []
  expanders := []
  rrExp := 0
  passes := []
  buffer := []
  rrPass := 0
  snowEn := 0x7FFF
  share := 0
  fallback := 0
  late := 0
  coded := 0
  raw := 0
  decErr := 0
  builds := []
  sramPoison := []
  headerCache := []
  useClock := 0 }

def LaneDelay.zero : LaneDelay := { rd := 0, wr := 0, mode := false, rdW := 0, wrW := 0 }

def Channel.init : Channel := {
  lane0 := LaneDelay.zero
  lane1 := LaneDelay.zero
  ce := 0
  ue := 0
  keyMM := 0
  lastUe := 0
  ueRows := []
  ceTick := 0
  ceTickNo := 0
  wheelPos := 0
  owners := []
  lfsr := 1
  nr := []
  openRow := []
  checkCache := []
  rrPort := 0 }

/-- A line as the start-up fill leaves it (R247): poisoned, key slot 0. -/
def LineTag.init : LineTag := { poison := true, key := 0, epoch := 0, ue := false }

/-- The default RATE of account 0 of a port (R251). -/
def portRate (p : Nat) : BitVec 10 :=
  match p with
  | 0 => 36
  | 1 => 36
  | 2 => 48
  | 3 => 182
  | 4 => 12
  | 5 => 36
  | _ => 14

def Account.init (p a : Nat) : Account :=
  { rate := if a = 0 then portRate p else 0, mode := if a = 0 then 1 else 0, slots := 0, burst := 0x200, free := 0, held := 0, frac := 0 }

def Port.init (p : Nat) : Port := { total := 0, accts := (List.range 16).map (Account.init p) }

def Ddr.reset : Ddr := {
  dens := 0
  ranks := false
  nch := 0
  gseg := 0
  cap := 0
  tags := []
  chans := []
  ports := (List.range 7).map Port.init
  grants := []
  chSel := 0
  laneSel := false
  periodS := 0x258
  tempDelta := 0x0A
  retrain := none
  retrainDue := false
  retrainQ := []
  nextRetrain := 0
  lastTrain := 0
  lastTemp := 0
  prob := 3
  patrolH := 0x18
  lastPatrol := 0
  nrCount := 0
  regPort := 0
  regAcct := 0
  regErr := false
  regCfg := 0
  keepR0 := 0xFF
  keepR1 := 0xFF
  fail := 0
  rrShared := 0 }

def FltBlock.unlisted : FltBlock := { state := 0, wptr := 0, pins := 0 }

def Journal.init : Journal := { queue := [], programming := none, ckpt := 0, seq := 0, pseq := 0, page := 0, active := 0 }

def Lun.idle : Lun := { reads := [], reading := none, eraseQ := [], erase := none, readTurn := true }

def Flt.reset : Flt := {
  state := 0
  channels := 0
  luns := 0
  rate := 0
  pages := 0
  blocks := 0
  sets := 0
  table := []
  durable := []
  journals := []
  units := []
  cmds := []
  nextCmd := 0
  suspMin := 0x3E8
  retryMax := 0x10
  blkSel := 0
  blkStat := 0
  retries := 0
  uncorr := 0
  suspends := 0
  badNew := 0
  blank := true }

def Efl.reset : Efl := {
  wdata := []
  busy := []
  fail := false
  reprog := false
  lock := false
  busyErr := false
  pulses := 0
  ceCount := 0
  faultAddr := 0
  faultCause := false
  faultSrc := 0
  faultCount := 0
  prefetch := []
  branch := []
  lastDemand := 0 }

def Tenant.init : Tenant := {
  cores := 0
  base := 0
  size := 0
  stateUnits := 0
  kvQuota := 0
  maxReq := 0x40
  lend := false
  borrow := false
  rate := 0
  burst := 0
  ledger := { total := 0, free := 0, held := 0 }
  milli := 0
  pfScale := 0x100
  stepScale := 0x100
  noMeas := false
  specGain := 0
  slots := []
  area := 0
  fbase := 0
  frameKib := 0
  append := 0
  appUnits := 0
  group := 0
  quotaStale := false
  prefixKey := 0 }

def Version.free : Version := {
  state := 0
  fail := 0
  gen := 0
  owner := 0
  refs := 0
  region := 0
  addr := 0
  kind := 0
  delta := false
  spec := false
  nlayers := 0
  nrec := 0
  nroles := 0
  ctxMax := 0
  baseHandle := 0
  nkv := 0
  ntables := 0
  tablesAt := 0
  lsrAt := 0
  recAt := 0
  progAt := 0
  geomAt := 0
  deltasAt := 0
  fbAt := 0
  cPf := 0
  cDec := 0
  cFix := 0
  fbUnit := 0
  fbUnits := 0
  steps := [] }

def Lfl.reset (sys : BitVec 14) : Lfl := {
  tenants := []
  partSel := 0
  partErr := false
  partCores := 0
  partSram := 0
  partCfg := 0x04000000
  budgetCfg := 0
  slack := 0x14
  commonBase := 0
  commonSize := 0
  sysUnits := sys
  versions := []
  requests := []
  nextReq := 0
  jobs := []
  nextJob := 0
  insts := []
  idleMs := 0x07D0
  ctxSel := 0
  ctxStat := 0
  ctxCnt := 0
  longOps := []
  ingests := []
  rrClass := []
  kvPages := 0
  descBase := 0
  descKey := 0
  tenSel := 0
  tenErr := false
  tenCfg := 0
  tenApp := 0
  blocks := []
  kvPool := { total := 0, free := 0, held := 0 }
  kvSat := 0
  cow := 0
  idxSkip := 0
  specOff := 0
  refClock := 0
  keyDraw := 0
  keyBase := 0
  groupKeys := [] }

def StreamParams.zero : StreamParams := {
  resetOnGap := false
  fmax16 := false
  ofmt := 0
  decim := 0
  nfr := 0
  x0 := 0
  y0 := 0
  w := 0
  h := 0
  ow := 0
  oh := 0
  hopUs := 0
  input := 0
  ring := 0
  backing := 0
  sw := 0
  sh := 0
  sdt := 0 }

/-- A context that PF0 has assigned to nobody and that is closed. -/
def Context.init : Context := {
  cfgOwner := 0
  kind := 0
  src := 0
  rsv := 0
  life := .closed
  loc := .none
  zeroPend := false
  params := StreamParams.zero
  handle := 0
  units := []
  lastCommit := 0
  lastFrame := 0
  frameIdx := 0
  lostSince := false
  segment := false
  frames := []
  slots := []
  curRows := 0
  slotCtr := 0
  ready := []
  passed := []
  nextSeq := []
  arrived := 0
  taken := []
  needSlot := false
  swapWant := false
  flush := false
  closeSub := none
  swapSubs := []
  marksSent := 0
  record := []
  marks := 0
  late := 0
  discards := 0
  delivered := 0
  lost := 0
  overrun := 0
  window := []
  newSamples := []
  images := [] }

def CsiPort.init : CsiPort :=
  { en := false, on := false, lanes := 0, rate := 0x50, eccCorr := 0, eccUe := 0, crc := 0, lost := 0, ignored := 0 }

def CsiVc.init : CsiVc := { en := false, vcid := 0, dt := 0, width := 0, height := 0 }

def CsiFrame.none : CsiFrame := { active := false, lines := [], lost := false, jump := false, start := 0 }

def Sfe.reset : Sfe := {
  ctxs := []
  ctxCfg := 0
  pool := { total := 512, free := 512, held := 0 }
  csiPort := 0
  csiVc := false
  ports := []
  vcs := []
  vcsNow := []
  frames := []
  lastNum := []
  decim := []
  gapNext := [] }

def MapEntry.zero : MapEntry := { waddr := 0, en := false, enc := false, key := 0 }

def MapCfg.zero : MapCfg := { node := 0, en := false, enc := false, key := 0 }

def RxSlot.none : RxSlot := { entry := MapEntry.zero, shift := false, key := Option.none, counter := 0, words := [], tag := [] }

def TxSeal.none : TxSeal := { entry := MapEntry.zero, key := Option.none, counter := 0, cipher := [], valids := [], tag := [] }

def Trg.reset (node : BitVec 16) : Trg := {
  mode := 1
  role := false
  master := false
  nodeId := node
  mapSel := 0
  mapCfg := []
  lock := false
  long := false
  dup := false
  addr := none
  nodes := 0
  lat := 0
  code := 0
  damaged := 0
  marked := 0
  lockLoss := 0
  tagFail := 0
  keys := []
  pendingKeys := []
  keyWords := []
  applied := []
  mapRx := []
  mapTx := []
  sampled := []
  topoChange := false
  hop := none
  hopPend := false
  hopSame := false
  lockedAll := false
  fnum := 0
  counter := 0
  lastCounter := none
  ctrBytes := []
  msgs := []
  lastMsgs := []
  heart := 0
  damageSeen := false
  lastDamageSeen := false
  missed := 0
  syncs := 0
  txBuf := []
  returned := []
  returnedF := none
  rx := []
  rxPrev := []
  txSeal := []
  txFrame := 0
  sent := [] }

def HostQueue.none : HostQueue := {
  state := .none
  sqBase := 0
  cqBase := 0
  depth := 4
  vector := 0
  ithresh := 0
  itime := 0
  globalIdx := 0
  slots := { total := 0, free := 0, held := 0 }
  tail := 0
  sqHead := 0
  untaken := 0
  cqWrite := 0
  cqHead := 0
  cqUsed := 0
  phase := true
  waiting := []
  unsignalled := 0
  oldest := Option.none }

def EventQueue.off : EventQueue := {
  en := false
  base := 0
  depth := 4
  vector := 0
  ithresh := 0
  itime := 0
  head := 0
  writePos := 0
  used := 0
  phase := true
  posted := []
  kept := []
  lost := 0
  err := false
  unsignalled := 0
  oldest := none }

def Window.closed : Window := {
  gen := 0
  stg := 0
  offset := 0
  dropped := 0
  droppedSince := 0
  reading := 0
  opens := []
  hasClosed := false }

def Func.init : Func := {
  expertEn := false
  qmax := 0x10
  winEn := false
  qsel := 0
  qerr := false
  sqBase := 0
  cqBase := 0
  qcfg := 4
  queues := []
  evq := EventQueue.off
  winSel := 0
  windows := []
  rrQueue := 0
  flr := false
  reclaim := []
  latch := none
  readData := 0
  sfeSel := 0
  sfeErr := false
  verSel := 0
  verStat := 0
  msixMask := 0
  msixPending := 0 }

def Pci.reset : Pci := {
  fnSel := 0
  funcs := []
  rrFn := 0
  taken := []
  link := { width := 0, l1 := false }
  reportNo := 0
  msix := []
  aer := false }

def KeySlot.dead : KeySlot := { live := false, owner := 0, epoch := 0 }

def TenantSec.init : TenantSec := { conf := false, tdi := .unlocked, stream := 0, nonce := [] }

def Spdm.init : Spdm :=
  { conn := .none, sessions := [], nextSession := 0, token := 0, deferred := none, response := [] }

def SubStream.none : SubStream := { keys := [], active := Option.none }

def IdeStream.insecure : IdeStream := { subs := [], secure := false, failed := false }

def Sec.reset : Sec := {
  kslots := []
  tenSel := 0
  tenErr := false
  tenConf := false
  tens := []
  kslot := 0
  kowner := 0
  kErr := false
  rkeyBuf := []
  rkeyKey := 0
  rkeyBusy := false
  rkeyErr := false
  rkeyWork := []
  ringKeys := []
  dbgOpened := false
  dbgScope := 0
  dbgRejects := 0
  dbgData := []
  spdm := []
  ide := [] }

def Dom.init : Dom :=
  { state := .on, target := .on, auto := true, busy := false, hold := false, pend := none, reset := false, since := 0 }

def PwrStat.reset : PwrStat := {
  pkg := 0
  ceil := 0xC
  thr := 0
  unmet := false
  calf := false
  tmax := 0
  vin := 0
  iin := 0
  cap := false }

def Vf.init : Vf := { voff := 0, maxStep := 0xC }

def Pwr.reset : Pwr := {
  limit := 0x6E
  boardMax := 0x6E
  boardLocked := false
  tThrot := 0x64
  ceiling := 12
  throttle := 0
  unmet := false
  passes := 0
  stat := PwrStat.reset
  tripped := false
  windows := []
  tickEnergy := 0
  kNum := 1
  kDen := 1
  rest := 0
  vinMv := 0
  iinMa := 0
  temps := []
  hotBefore := false
  capWindow := false
  doms := []
  domSel := 0
  domErr := false
  domTarget := 0
  domAuto := true
  vfSel := 0
  vfs := []
  smbAddr := 0x5C
  smbEn := true
  wakeTimer := 0
  smbMatched := false
  smbReply := []
  thermtrip := false
  vinSince := 0
  energy := { total := 0, free := 0, held := 0 } }

def CalField.none : CalField := { pending := 0, committed := 0 }

def Boot.reset : Boot := {
  done := false
  nursery := false
  fatal := false
  calDefault := false
  slotB := false
  tryB := false
  forceNursery := false
  nrc := 0
  fail := { count := 0, lastNrc := 0, aCode := 0, bCode := 0, cause := 0 }
  fwSrc := 0
  fwOp := 0
  fwResult := 0
  fwImage := []
  fwSecond := false
  staged := false
  stagedB := false
  svnRunning := 0
  domSel := 0
  domErr := false
  held := none
  calSel := 0
  cal := []
  calBusy := false
  calErr := false
  calBytes := []
  resetAt := 0
  doneAt := 0
  fatalAt := 0 }

def Fuses.fused : Fuses := {
  stepping := Config.stepping
  variant := Config.variant
  cores := Config.cores
  nodeId := Config.nodeId
  sys := Config.sysUnits
  svnMin := Config.svnMin
  dens := Config.dramDens
  ranks := Config.dramRanks }

def Pins.reset : Pins :=
  { thermtripN := true, ringBypOpen := false, testMode := false, perstN := true, jtag := 0 }

/-- The part right after its power-on reset (R480, R481): the start sequence has not run, so BOOT_STATUS.DONE is 0. -/
def State.reset : State := {
  cores := []
  mem := Mems.reset
  fences := Fences.reset
  bridges := (List.range 6).map fun d => BridgeDir.init (bridgeCredits d)
  audit := Audit.reset
  gdl := Gdl.reset
  ddr := Ddr.reset
  flt := Flt.reset
  efl := Efl.reset
  lfl := Lfl.reset Config.sysUnits
  sfe := Sfe.reset
  trg := Trg.reset Config.nodeId
  pci := Pci.reset
  sec := Sec.reset
  pwr := Pwr.reset
  boot := Boot.reset
  fuses := Fuses.fused
  pins := Pins.reset
  timer := 0
  free := 0
  pending := [] }

end Sys2Proof.Machine
end

