-- ==== Sys2Proof/Machine/Ops.lean ====
section
/-! DEFINITION. The named operations every meaning is built from: tables, byte memories, pools, free values, time, the
units of the part, and conservation (chapters 00 and 01). -/

namespace Sys2Proof.Machine

open Sys2Proof

/-- The outcome of a command. -/
abbrev Out := Host.Outcome State Fault Refusal

/-! ## Tables in canonical form -/

/-- The entry of key `k`; `d` is what an unlisted key reads as. -/
def Tab.get {α : Type} (d : α) : Tab α → Nat → α
  | [], _ => d
  | (n, v) :: t, k => if k = n then v else Tab.get d t k

/-- Lists `v` at key `k`, before the first greater key. -/
def Tab.insert {α : Type} : Tab α → Nat → α → Tab α
  | [], k, v => [(k, v)]
  | (n, w) :: t, k, v => if k < n then (k, v) :: (n, w) :: t else (n, w) :: Tab.insert t k v

/-- The table with `v` at key `k`; a value equal to the default is not listed. -/
def Tab.set {α : Type} [DecidableEq α] (d : α) (t : Tab α) (k : Nat) (v : α) : Tab α :=
  let rest := t.filter fun e => e.1 ≠ k
  if v = d then rest else Tab.insert rest k v

/-- Applies `f` to the entry of key `k`. -/
def Tab.upd {α : Type} [DecidableEq α] (d : α) (t : Tab α) (k : Nat) (f : α → α) : Tab α :=
  Tab.set d t k (f (Tab.get d t k))

/-- Every listed key is greater than `lo`, keys strictly rise, and no entry is the default. -/
def Tab.wfFrom {α : Type} [DecidableEq α] (d : α) : Nat → Tab α → Bool
  | _, [] => true
  | lo, (n, v) :: t => decide (lo ≤ n) && decide (v ≠ d) && Tab.wfFrom d (n + 1) t

/-- The canonical form. -/
def Tab.wf {α : Type} [DecidableEq α] (d : α) (t : Tab α) : Bool := Tab.wfFrom d 0 t

/-- Removes the entries whose key satisfies `p`: they read as the default again. -/
def Tab.drop {α : Type} (p : Nat → Bool) (t : Tab α) : Tab α := t.filter fun e => !p e.1

/-- The keys `lo ≤ k < hi` without an entry equal to `some`, lowest first: the lowest free number. -/
def firstFree (used : Nat → Bool) (n : Nat) : Option Nat := (List.range n).find? fun k => !used k

/-! ## Byte memories -/

/-- One byte; `d` is what an unlisted address reads as. -/
def Mem.rd (d : Byte) (m : Mem) (a : Nat) : Byte := Tab.get d m a

/-- `n` bytes from address `a`. -/
def Mem.rdN (d : Byte) (m : Mem) (a n : Nat) : Bytes := (List.range n).map fun i => Mem.rd d m (a + i)

/-- Writes bytes from address `a`. -/
def Mem.wrN (d : Byte) : Mem → Nat → Bytes → Mem
  | m, _, [] => m
  | m, a, b :: bs => Mem.wrN d (Tab.set d m a b) (a + 1) bs

/-- Returns the bytes from `a` to `a + n - 1` to what an unlisted address reads as. -/
def Mem.clear (m : Mem) (a n : Nat) : Mem := Tab.drop (fun k => decide (a ≤ k) && decide (k < a + n)) m

/-- The canonical form of every byte memory of the part. -/
def Memory.wf (m : Mems) : Bool :=
  Tab.wf (0 : Byte) m.sram && Tab.wf (0 : Byte) m.dram && Tab.wf (0xFF : Byte) m.efl && Tab.wf (0xFF : Byte) m.nand &&
  (Tab.wf ([] : Mem) m.spm && m.spm.all fun e => Tab.wf (0 : Byte) e.2) &&
  (Tab.wf ([] : Mem) m.prog && m.prog.all fun e => Tab.wf (0 : Byte) e.2) &&
  (Tab.wf ([] : Mem) m.host && m.host.all fun e => Tab.wf (0 : Byte) e.2)

/-- Little-endian fields of a record. -/
def field (bs : Bytes) (off n : Nat) : Nat := Numeric.leNat ((bs.drop off).take n)

def zeros (n : Nat) : Bytes := List.replicate n 0

/-- The bytes of a record read beyond its end are zero: a record of exactly `n` bytes. -/
def padTo (n : Nat) (bs : Bytes) : Bytes := (bs.take n) ++ zeros (n - bs.length)

/-- Overwrites part of a record. -/
def splice (bs : Bytes) (off : Nat) (new : Bytes) : Bytes := bs.take off ++ new ++ bs.drop (off + new.length)

def setMems (s : State) (f : Mems → Mems) : State := { s with mem := f s.mem }

def Mems.wrSram (m : Mems) (a : Nat) (bs : Bytes) : Mems := { m with sram := Mem.wrN 0 m.sram a bs }
def Mems.wrDram (m : Mems) (a : Nat) (bs : Bytes) : Mems := { m with dram := Mem.wrN 0 m.dram a bs }
def Mems.wrSpm (m : Mems) (c a : Nat) (bs : Bytes) : Mems :=
  { m with spm := Tab.upd [] m.spm c fun x => Mem.wrN 0 x a bs }
def Mems.wrProg (m : Mems) (c a : Nat) (bs : Bytes) : Mems :=
  { m with prog := Tab.upd [] m.prog c fun x => Mem.wrN 0 x a bs }
def Mems.wrHost (m : Mems) (fn a : Nat) (bs : Bytes) : Mems :=
  { m with host := Tab.upd [] m.host fn fun x => Mem.wrN 0 x a bs }
def Mems.wrEfl (m : Mems) (a : Nat) (bs : Bytes) : Mems := { m with efl := Mem.wrN 0xFF m.efl a bs }
def Mems.wrNand (m : Mems) (a : Nat) (bs : Bytes) : Mems := { m with nand := Mem.wrN 0xFF m.nand a bs }

/-- Returns a span to what an unlisted address reads as: the zero fill of a scrub. -/
def Mems.clrSram (m : Mems) (a n : Nat) : Mems := { m with sram := Mem.clear m.sram a n }
def Mems.clrSpm (m : Mems) (c a n : Nat) : Mems := { m with spm := Tab.upd [] m.spm c fun x => Mem.clear x a n }
def Mems.clrNand (m : Mems) (a n : Nat) : Mems := { m with nand := Mem.clear m.nand a n }
def Mems.clrEfl (m : Mems) (a n : Nat) : Mems := { m with efl := Mem.clear m.efl a n }
/-- Zeroes the bytes of the shared SRAM, or of a core's scratchpad, whose address satisfies `p`. -/
def Mems.dropSram (m : Mems) (p : Nat → Bool) : Mems := { m with sram := Tab.drop p m.sram }
def Mems.dropSpm (m : Mems) (c : Nat) (p : Nat → Bool) : Mems := { m with spm := Tab.upd [] m.spm c fun x => Tab.drop p x }
/-- Zeroes the scratchpad and the program buffer of a core. -/
def Mems.zeroCore (m : Mems) (c : Nat) : Mems := { m with spm := Tab.set [] m.spm c [], prog := Tab.set [] m.prog c [] }
/-- What is left when every volatile memory of the part loses its contents. -/
def Mems.cold (m : Mems) : Mems := { sram := [], dram := [], spm := [], prog := [], host := m.host, efl := m.efl, nand := m.nand }

def Mems.rdSram (m : Mems) (a n : Nat) : Bytes := Mem.rdN 0 m.sram a n
def Mems.rdDram (m : Mems) (a n : Nat) : Bytes := Mem.rdN 0 m.dram a n
def Mems.rdSpm (m : Mems) (c a n : Nat) : Bytes := Mem.rdN 0 (Tab.get [] m.spm c) a n
def Mems.rdProg (m : Mems) (c a n : Nat) : Bytes := Mem.rdN 0 (Tab.get [] m.prog c) a n
def Mems.rdHost (m : Mems) (fn a n : Nat) : Bytes := Mem.rdN 0 (Tab.get [] m.host fn) a n
def Mems.rdEfl (m : Mems) (a n : Nat) : Bytes := Mem.rdN 0xFF m.efl a n
def Mems.rdNand (m : Mems) (a n : Nat) : Bytes := Mem.rdN 0xFF m.nand a n

/-! ## Free values, time, counters -/

/-- The `i`-th free value of the present command. -/
def State.fv (s : State) (i : Nat) : Nat := Config.free s.free i

/-- A free bit. -/
def State.fbit (s : State) (i : Nat) : Bool := s.fv i % 2 = 1

/-- A free string of bytes from index `i`: noise, or the security processor's random numbers. -/
def State.fbytes (s : State) (i n : Nat) : Bytes := (List.range n).map fun k => BitVec.ofNat 8 (s.fv (i + k))

/-- One of several possibilities, by a free value. -/
def State.pick {α : Type} (s : State) (i : Nat) (d : α) (l : List α) : α := l.getD (s.fv i % l.length) d

/-- The next command draws free values of its own. -/
def State.spend (s : State) : State := { s with free := s.free + 1 }

/-- Nanoseconds, microseconds and milliseconds of the always-on 38.4 MHz timer (R27). -/
def State.ns (s : State) : Nat := s.timer * 625 / 24
def State.us (s : State) : Nat := s.timer * 10 / 384
def State.ms (s : State) : Nat := s.timer / 38400

/-- A counter that saturates (R10). -/
def satUp {w : Nat} (x : BitVec w) (n : Nat) : BitVec w :=
  if 2 ^ w ≤ x.toNat + n then BitVec.ofNat w (2 ^ w - 1) else BitVec.ofNat w (x.toNat + n)

/-- A counter that wraps (R10). -/
def wrapUp {w : Nat} (x : BitVec w) (n : Nat) : BitVec w := BitVec.ofNat w (x.toNat + n)

/-- Bits `lo` to `lo + n - 1` of a register. -/
def bits64 (v : DWord) (lo n : Nat) : Nat := v.toNat / 2 ^ lo % 2 ^ n
def bits32 (v : Word) (lo n : Nat) : Nat := v.toNat / 2 ^ lo % 2 ^ n
def bit32 (v : Word) (i : Nat) : Bool := v.toNat / 2 ^ i % 2 = 1

/-- Packs fields given as value and lowest bit. -/
def pack (fs : List (Nat × Nat)) : Nat := fs.foldl (fun a f => a + f.1 * 2 ^ f.2) 0

def ofBool (b : Bool) : Nat := if b then 1 else 0

/-! ## Pools (R46) -/

def Pool.take (p : Pool) (n : Nat) : Pool := { p with free := p.free - n, held := p.held + n }
def Pool.give (p : Pool) (n : Nat) : Pool := { p with free := p.free + n, held := p.held - n }
/-- Refill adds to the total and the free units; settlement takes from the total and the held units. -/
def Pool.refill (p : Pool) (n : Nat) : Pool := { p with total := p.total + n, free := p.free + n }
def Pool.settle (p : Pool) (n : Nat) : Pool := { p with total := p.total - n, held := p.held - n }
def Pool.whole (n : Nat) : Pool := { total := n, free := n, held := 0 }
def Pool.balanced (p : Pool) : Bool := p.total = p.free + p.held

/-- The fatal condition (R503): work stops, an uncorrectable internal error is signalled on PF0, FATAL is set. -/
def fatalStop (s : State) : State :=
  if s.boot.fatal then s
  else { s with boot := { s.boot with fatal := true, fatalAt := s.ns }, pci := { s.pci with aer := true } }

/-- The check of R46 at a change of a pool, and CONSERVATION_FAULT (R50): the first failure is captured. -/
def conserve (id inst : Nat) (p : Pool) (s : State) : State :=
  if p.balanced || s.audit.fault then s
  else fatalStop { s with audit := { s.audit with
    fault := true
    faultPool := BitVec.ofNat 8 id
    faultInst := BitVec.ofNat 8 inst
    pool := s.audit.pool
    total := BitVec.ofNat 64 p.total
    free := BitVec.ofNat 64 p.free
    held := BitVec.ofNat 64 p.held
    valid := true } }

/-! ## The part's units -/

/-- A core number names a core (R2). -/
def coreExists (s : State) (n : Nat) : Bool := decide (n < 64) && (s.fuses.variant = 64 || decide (n % 32 < 28))

def coreFenced (s : State) (n : Nat) : Bool := s.fences.cores.getLsbD n

/-- The domain with this code (R469). -/
def State.dom (s : State) (d : Nat) : Dom := Tab.get Dom.init s.pwr.doms d

def setDom (s : State) (d : Nat) (f : Dom → Dom) : State :=
  { s with pwr := { s.pwr with doms := Tab.upd Dom.init s.pwr.doms d f } }

/-- The domain is ON, not in reset, and its pads are not latched (R473). -/
def domUp (s : State) (d : Nat) : Bool := (s.dom d).state = .on && !(s.dom d).reset && !(s.dom d).hold

/-- The part runs: start-up is complete, no fatal condition holds (R50, R503, R505), and the clocks of the control domain
do not stand (R471). -/
def State.running (s : State) : Bool := s.boot.done && !s.boot.fatal && (s.dom 0x74).state = .on

/-- A core in service: it exists, is not fenced, and its domain is ON and not in reset. -/
def coreUp (s : State) (n : Nat) : Bool := coreExists s n && !coreFenced s n && domUp s n

/-- The half of a core (R17). -/
def coreHalf (n : Nat) : Nat := n / 32

def State.core (s : State) (n : Nat) : Core := Tab.get Core.init s.cores n

def setCore (s : State) (n : Nat) (k : Core) : State := { s with cores := Tab.set Core.init s.cores n k }

def updCore (s : State) (n : Nat) (f : Core → Core) : State := setCore s n (f (s.core n))

def State.func (s : State) (f : Nat) : Func := Tab.get Func.init s.pci.funcs f

def setFunc (s : State) (f : Nat) (g : Func → Func) : State :=
  { s with pci := { s.pci with funcs := Tab.upd Func.init s.pci.funcs f g } }

def State.tenant (s : State) (t : Nat) : Tenant := Tab.get Tenant.init s.lfl.tenants t

def setTenant (s : State) (t : Nat) (g : Tenant → Tenant) : State :=
  { s with lfl := { s.lfl with tenants := Tab.upd Tenant.init s.lfl.tenants t g } }

def State.tsec (s : State) (t : Nat) : TenantSec := Tab.get TenantSec.init s.sec.tens t

def setTsec (s : State) (t : Nat) (g : TenantSec → TenantSec) : State :=
  { s with sec := { s.sec with tens := Tab.upd TenantSec.init s.sec.tens t g } }

/-- The tenant's TDI is CONFIG_LOCKED or RUN: its locked registers refuse changes (R441). -/
def tdiLocked (s : State) (t : Nat) : Bool := (s.tsec t).tdi = .locked || (s.tsec t).tdi = .run

def State.ctx (s : State) (c : Nat) : Context := Tab.get Context.init s.sfe.ctxs c

def setCtx (s : State) (c : Nat) (g : Context → Context) : State :=
  { s with sfe := { s.sfe with ctxs := Tab.upd Context.init s.sfe.ctxs c g } }

def State.region (s : State) (e : Nat) : RegionEntry := Tab.get RegionEntry.none s.gdl.regions e

/-- EXPERT_EN of a function (R408). -/
def expert (s : State) (f : Nat) : Bool := (s.func f).expertEn

/-- An effect that takes place only while the part runs; otherwise nothing changes. -/
def whenRunning (s : State) (c : Bool) (f : State → State) : Out := .next (if s.running && c then f s else s)

/-- An effect under a condition. -/
def whenever (s : State) (c : Bool) (f : State → State) : Out := .next (if c then f s else s)

/-- The first requester from the pointer, in circular order (R36). -/
def roundRobin (n ptr : Nat) (asks : Nat → Bool) : Option Nat :=
  ((List.range n).map fun i => (ptr + i) % n).find? asks

end Sys2Proof.Machine
end

