-- ==== Sys2Proof/Machine/HostOps.lean ====
section
/-! DEFINITION. Queues, completions, interrupts and events of the host interface (chapter 14): the operations that the
other blocks use to answer the host. -/

namespace Sys2Proof.Machine

open Sys2Proof

/-! ## Status codes (R419) -/

namespace St
def ok : BitVec 16 := 0x0000
def late : BitVec 16 := 0x0001
def defer : BitVec 16 := 0x0002
def refuse : BitVec 16 := 0x0003
def cancelled : BitVec 16 := 0x0010
def timeout : BitVec 16 := 0x0011
def noSuchJob : BitVec 16 := 0x0012
def badCommand : BitVec 16 := 0x0013
def accessDenied : BitVec 16 := 0x0014
def noSuchUnit : BitVec 16 := 0x0015
def unitFenced : BitVec 16 := 0x0016
def domainReset : BitVec 16 := 0x0017
def programError : BitVec 16 := 0x0020
def creditStall : BitVec 16 := 0x0021
def dataPoison : BitVec 16 := 0x0022
def residentLimit : BitVec 16 := 0x0023
def noSuchModel : BitVec 16 := 0x0030
def modelState : BitVec 16 := 0x0031
def ingestIncomplete : BitVec 16 := 0x0040
def ingestAuth : BitVec 16 := 0x0041
def ingestSpace : BitVec 16 := 0x0042
def shardState : BitVec 16 := 0x0043
def windowStale : BitVec 16 := 0x0044
def streamParam : BitVec 16 := 0x0050
def streamFull : BitVec 16 := 0x0051
def streamState : BitVec 16 := 0x0052
def blockState : BitVec 16 := 0x0060
def blockBusy : BitVec 16 := 0x0061
def blockInErase : BitVec 16 := 0x0062
def flashNotReady : BitVec 16 := 0x0063
def programFail : BitVec 16 := 0x0064
def eraseFail : BitVec 16 := 0x0065
def uncorrectable : BitVec 16 := 0x0066
end St

/-! ## Queues -/

def State.queue (s : State) (f q : Nat) : HostQueue := Tab.get HostQueue.none (s.func f).queues q

def setQueue (s : State) (f q : Nat) (g : HostQueue → HostQueue) : State :=
  setFunc s f fun x => { x with queues := Tab.upd HostQueue.none x.queues q g }

/-- D = 2^DEPTH (R410). -/
def HostQueue.size (q : HostQueue) : Nat := 2 ^ q.depth.toNat

/-- Completion bytes 0 to 31 (R413). -/
def completionBytes (c : Completion) (head : Nat) (phase : Bool) : Bytes :=
  Numeric.toLE 4 c.jobId.toNat ++ Numeric.toLE 2 c.status.toNat ++ Numeric.toLE 2 head ++ Numeric.toLE 4 c.detail.toNat ++
  Numeric.toLE 4 (min c.degSteps 0xFFFFFFFF) ++ Numeric.toLE 6 (min (c.energy / 1000000) (2 ^ 48 - 1)) ++ Numeric.toLE 2 c.tokens.toNat ++
  zeros 7 ++ [BitVec.ofNat 8 (ofBool phase)]

/-- The completion of a command that ran no job. -/
def plainCompletion (sub : Sub) (st : BitVec 16) (detail : Word) : Completion :=
  { jobId := sub.jobId, status := st, detail := detail, degSteps := 0, energy := 0, tokens := 0, noirq := sub.noirq,
    jobs := [], after := [] }

/-- A completion waits for its queue's ring. -/
def queueCompletion (sub : Sub) (c : Completion) (s : State) : State :=
  if (s.queue sub.fn sub.qid).state = .none then s
  else setQueue s sub.fn sub.qid fun q => { q with waiting := q.waiting ++ [c] }

/-- The command has ended. A queue that a Function Level Reset deleted takes no completion (R405, R413), and what would
follow that completion follows at once. -/
def complete (sub : Sub) (c : Completion) (s : State) : State :=
  if (s.queue sub.fn sub.qid).state = .none then
    c.after.foldl (fun s w => queueCompletion w.1 (plainCompletion w.1 w.2 0) s) s
  else queueCompletion sub c s

/-- Ends a command that ran no job with a status and DETAIL. -/
def reply (sub : Sub) (st : BitVec 16) (detail : Nat) (s : State) : State :=
  complete sub (plainCompletion sub st (BitVec.ofNat 32 detail)) s

def endWith (sub : Sub) (st : BitVec 16) (s : State) : State := reply sub st 0 s

/-! ## Taken entries

A command row carries its entry's fields. It acts on an entry that COMMAND_TAKE has taken: the same function, queue,
opcode, flags and JOB_ID (R412, R417). -/

def Taken.isOf (op : Nat) (sub : Sub) (t : Taken) : Bool :=
  t.fn = sub.fn.val && t.qid = sub.qid.val && field t.entry 0 1 = op && field t.entry 4 4 = sub.jobId.toNat &&
  decide (field t.entry 1 1 % 2 = ofBool sub.noirq)

/-- An entry of this command has been taken and its command has not begun. -/
def isTaken (op : Nat) (sub : Sub) (s : State) : Bool := s.pci.taken.any (Taken.isOf op sub)

def popTaken (op : Nat) (sub : Sub) (s : State) : State :=
  { s with pci := { s.pci with taken := s.pci.taken.eraseP (Taken.isOf op sub) } }

/-- A command of the host: it acts on its taken entry while the part runs. -/
def hostCommand (op : Nat) (sub : Sub) (f : State → State) (s : State) : Out :=
  whenRunning s (isTaken op sub s) fun s => f (popTaken op sub s)

/-- A command that PF0 alone may issue, or a tenant alone: of any other function it completes with ST_ACCESS_DENIED
(R417, R418). -/
def pf0Command (op : Nat) (sub : Sub) (f : State → State) (s : State) : Out :=
  hostCommand op sub (fun s => if sub.fn = 0 then f s else endWith sub St.accessDenied s) s

def tenantCommand (op : Nat) (sub : Sub) (f : State → State) (s : State) : Out :=
  hostCommand op sub (fun s => if sub.fn = 0 then endWith sub St.accessDenied s else f s) s

/-! ## Events (R415, R416) -/

/-- Posts an event of 31 bytes to a function; EVENT_POST brings it to the ring. -/
def postEvent (f : Nat) (ev : Bytes) (s : State) : State :=
  setFunc s f fun x => { x with evq := { x.evq with posted := x.evq.posted ++ [padTo 31 ev] } }

def evProgress (jobId : Word) (tokens : Nat) : Bytes :=
  [0x01] ++ zeros 3 ++ Numeric.toLE 4 jobId.toNat ++ Numeric.toLE 4 tokens

def evWinDrop (w stale current dropped : Nat) : Bytes :=
  [0x02, 0, BitVec.ofNat 8 w, 0] ++ Numeric.toLE 2 stale ++ Numeric.toLE 2 current ++ Numeric.toLE 4 (min dropped 0xFFFFFFFF)

def evShardFail (jobId : Word) (shard cause : Nat) : Bytes :=
  [0x03] ++ zeros 3 ++ Numeric.toLE 4 jobId.toNat ++ Numeric.toLE 4 shard ++ [BitVec.ofNat 8 cause]

def evQueueError (q cause : Nat) : Bytes := [0x04, 0, BitVec.ofNat 8 q, BitVec.ofNat 8 cause]

def evUnitNotice (kind unit : Nat) : Bytes := [0x06, 0, BitVec.ofNat 8 kind, BitVec.ofNat 8 unit]

def evLost (n : Nat) : Bytes := [0x07] ++ zeros 3 ++ Numeric.toLE 4 n

/-- One RECLAIM event with up to three entries of pool, instance and count. -/
def evReclaim (last : Bool) (dom no : Nat) (es : List (Nat × Nat × Nat)) : Bytes :=
  [0x05, BitVec.ofNat 8 (ofBool last), BitVec.ofNat 8 dom, 0] ++ Numeric.toLE 4 no ++
  es.flatMap fun e => [BitVec.ofNat 8 e.1, BitVec.ofNat 8 e.2.1] ++ Numeric.toLE 4 (min e.2.2 0xFFFFFFFF)

/-- The events of a reclaim report, three entries each; `fuel` bounds their number. -/
def reclaimEvents (dom no : Nat) : Nat → List (Nat × Nat × Nat) → List Bytes
  | 0, _ => []
  | fuel + 1, es =>
    if es.length ≤ 3 then [evReclaim true dom no es]
    else evReclaim false dom no (es.take 3) :: reclaimEvents dom no fuel (es.drop 3)

/-- Posts the reclaim report of a domain (R48): only pool instances to which a unit returned are listed. -/
def postReclaim (dom : Nat) (es : List (Nat × Nat × Nat)) (s : State) : State :=
  let es := es.filter fun e => e.2.2 ≠ 0
  let evs := reclaimEvents dom s.pci.reportNo.toNat (es.length + 1) es
  let s := evs.foldl (fun s e => postEvent 0 e s) s
  { s with pci := { s.pci with reportNo := wrapUp s.pci.reportNo 1 } }

/-- The queue enters ERROR: entries not yet taken give their slots back, and the event is posted (R411). -/
def queueError (f q cause : Nat) (s : State) : State :=
  let s := setQueue s f q fun x => { x with
    state := .error
    slots := x.slots.give x.untaken
    untaken := 0 }
  postEvent f (evQueueError q cause) s

/-- Events that a ring has room for. -/
def EventQueue.size (e : EventQueue) : Nat := 2 ^ e.depth.toNat

/-- Writes one event into the ring at the write position. -/
def writeEvent (f : Nat) (ev : Bytes) (s : State) : State :=
  let e := (s.func f).evq
  let s := setMems s fun m =>
    m.wrHost f (e.base.toNat + 32 * e.writePos) (padTo 31 ev ++ [BitVec.ofNat 8 (ofBool e.phase)])
  setFunc s f fun x => { x with evq := { x.evq with
    writePos := (e.writePos + 1) % e.size
    phase := if e.writePos + 1 = e.size then !e.phase else e.phase
    used := e.used + 1
    unsignalled := e.unsignalled + 1
    oldest := match e.oldest with | some t => some t | none => some s.timer } }

/-- Signals MSI-X vector `v` of a function: the message, or its pending bit when masked (R414). -/
def signalVector (f v : Nat) (s : State) : State :=
  if (s.func f).msixMask.getLsbD v then
    setFunc s f fun x => { x with msixPending := x.msixPending ||| BitVec.ofNat 65 (2 ^ v) }
  else { s with pci := { s.pci with msix := (f, v) :: s.pci.msix } }

/-- The conditions of R414 for a signal: enough counted completions, or the oldest one has waited ITIME µs. -/
def signalDue (unsignalled : Nat) (oldest : Option Nat) (ithresh itime : BitVec 8) (now : Nat) : Bool :=
  decide (max 1 ithresh.toNat ≤ unsignalled) ||
  match oldest with
  | some t => decide (itime.toNat * 384 ≤ (now - t) * 10)
  | none => false

/-! ## Long operations (R421) -/

def addLong (l : LongOp) (s : State) : State := { s with lfl := { s.lfl with longOps := s.lfl.longOps ++ [l] } }

def State.longWaiters (s : State) (k : LongKind) : List (Sub × Nat) :=
  (s.lfl.longOps.filter fun l => l.kind = k).flatMap fun l => l.waiting

/-- The operation is at its suspension point. -/
def State.longSuspended (s : State) (k : LongKind) : Bool := s.lfl.longOps.any fun l => l.kind = k && l.suspended

/-- A command waits for the operation to reach its point. -/
def waitLong (k : LongKind) (sub : Sub) (op : Nat) (s : State) : State :=
  { s with lfl := { s.lfl with longOps := s.lfl.longOps.map fun l =>
    if l.kind = k then { l with waiting := l.waiting ++ [(sub, op)] } else l } }

def removeLong (k : LongKind) (s : State) : State :=
  { s with lfl := { s.lfl with longOps := s.lfl.longOps.filter fun l => l.kind ≠ k } }

/-- A long operation has ended with completion `c`. A CANCEL that waits for it completes once `c` is visible; a SUSPEND or
RESUME that waits finds no target (R421). -/
def finishLong (k : LongKind) (sub : Sub) (c : Completion) (s : State) : State :=
  let ws := s.longWaiters k
  let s := removeLong k s
  let s := (ws.filter fun w => w.2 ≠ 0x1A).foldl (fun s w => endWith w.1 St.noSuchJob s) s
  complete sub { c with after := (ws.filter fun w => w.2 = 0x1A).map fun w => (w.1, St.ok) } s

/-- The same for a long operation that a Function Level Reset removes: no completion is written for it (R405). -/
def dropLong (k : LongKind) (s : State) : State :=
  let ws := s.longWaiters k
  let s := removeLong k s
  ws.foldl (fun s w => endWith w.1 (if w.2 = 0x1A then St.ok else St.noSuchJob) s) s

/-- Marks a long operation suspended or running. -/
def markLong (k : LongKind) (susp : Bool) (s : State) : State :=
  { s with lfl := { s.lfl with longOps := s.lfl.longOps.map fun l => if l.kind = k then { l with suspended := susp } else l } }

/-- The long operation has reached its suspension point or runs again: the commands with opcode `op` that wait for that
complete with ST_OK. -/
def settleLong (k : LongKind) (op : Nat) (s : State) : State :=
  let ws := (s.longWaiters k).filter fun w => w.2 = op
  let s := { s with lfl := { s.lfl with longOps := s.lfl.longOps.map fun l =>
    if l.kind = k then { l with waiting := l.waiting.filter fun w => w.2 ≠ op } else l } }
  ws.foldl (fun s w => endWith w.1 St.ok s) s

end Sys2Proof.Machine
end

