-- ==== Sys2Proof/Machine/RegOps.lean ====
section
/-! DEFINITION. When BAR0 accepts a write and who may make it (chapter 18: R505, R508, R510, R513, R441). -/

namespace Sys2Proof.Machine

open Sys2Proof

/-- BAR0 takes the function's writes: start-up is complete and none of R505's states holds. -/
def bar0Open (s : State) (f : Nat) : Bool :=
  s.running && !s.boot.nursery && !(s.func f).flr && (f = 0 || (s.tsec f).tdi ≠ .error)

/-- The same for the BOOT_ registers, which nursery mode accepts too (R494, R505). -/
def bootOpen (s : State) (f : Nat) : Bool :=
  !s.boot.fatal && !(s.func f).flr && (s.boot.nursery || s.boot.done) && (f = 0 || (s.tsec f).tdi ≠ .error)

/-- A register of class PF0. -/
def pf0Open (s : State) (f : Nat) : Bool := bar0Open s f && f = 0

/-- A core-window register that PF0 and the core's owner may write (class Own), in the core's domain (R508, R510). -/
def coreWindowOpen (s : State) (f n : Nat) : Bool :=
  bar0Open s f && coreUp s n && (f = 0 || (s.core n).owner = f)

/-- A write of a register row: the effect while BAR0 accepts it, else nothing. -/
def regWrite (s : State) (ok : Bool) (f : State → State) : Out := .next (if ok then f s else s)

/-- The block that a function's access to window 4 reaches: PF0's goes to the function that PCI_FN_SEL names (R407, R509). -/
def setupFn (s : State) (f : Nat) : Nat := if f = 0 then s.pci.fnSel.toNat else f

end Sys2Proof.Machine
end

