-- ==== Sys2Proof/Machine/BootOps.lean ====
section
/-! DEFINITION. Start-up as operations (chapter 17): the user overlay and effective calibration values, the checks of a firmware
slot, package reset, a failed start, and nursery mode. -/

namespace Sys2Proof.Machine

open Sys2Proof Numeric

/-! ## Calibration (R497, R498) -/

/-- B, MIN and MAX of a calibrated field, none for an ID that names no field. -/
def calBounds (id : Nat) : Option (Int × Int × Int) :=
  let i := id % 256
  let eighth := Config.calFactory id / 8
  match id / 256 with
  | 1 => if i < 72 then some (32, -80, 80) else none
  | 2 => if i < 94 then some (1311, 58982, 72090) else none
  | 3 => if i < 94 then some (50, -200, 200) else none
  | 4 => if i < 32 then some (eighth, 0, 2 ^ 31 - 1) else none
  | 5 => if i < 64 then some (eighth, 0, 65535) else none
  | 6 => if i < 128 then some (16, 0, 127) else none
  | 7 => if i < 112 then some (16, -128, 127) else none
  | _ => none

def clampInt (lo hi x : Int) : Int := max lo (min hi x)

/-- A user offset after clamping to B. -/
def clampUser (id : Nat) (u : Int) : Int :=
  match calBounds id with
  | some (b, _, _) => clampInt (-b) b u
  | none => 0

def State.calField (s : State) (id : Nat) : CalField := Tab.get CalField.none s.boot.cal id

def setCal (id : Nat) (f : CalField → CalField) (s : State) : State :=
  { s with boot := { s.boot with cal := Tab.upd CalField.none s.boot.cal id f } }

/-- The effective value in force. -/
def effective (s : State) (id : Nat) : Int :=
  match calBounds id with
  | some (_, lo, hi) => clampInt lo hi (Config.calFactory id + (s.calField id).committed.toInt)
  | none => 0

/-- A valid overlay copy: its sequence number, its entries and its bytes. -/
structure Overlay where
  seq : Nat
  entries : List (Nat × Int)
  bytes : Bytes
deriving DecidableEq, Repr

def overlayAt (copy : Nat) : Nat := if copy = 0 then 0x780000 else 0xF80000

def overlayEntries (n : Nat) (bs : Bytes) : List (Nat × Int) :=
  (List.range n).map fun i => (field bs (32 + 4 * i) 2, signed 16 (field bs (34 + 4 * i) 2))

def overlayCopy (s : State) (copy : Nat) : Option Overlay :=
  let a := overlayAt copy
  let head := s.mem.rdEfl a 32
  let n := field head 2 2
  if field head 0 2 ≠ 1 ∨ 1024 < n then none
  else
    let bs := s.mem.rdEfl a (32 + 4 * n)
    let crc := s.mem.rdEfl (a + 32 + 4 * n) 4
    if field crc 0 4 = (Crypto.crc32 bs).toNat then
      some { seq := field head 4 8, entries := overlayEntries n bs, bytes := bs ++ crc }
    else none

/-- The valid copy with the higher SEQ. -/
def overlayInForce (s : State) : Option Overlay :=
  match overlayCopy s 0, overlayCopy s 1 with
  | some a, some b => if a.seq < b.seq then some b else some a
  | some a, none => some a
  | none, b => b

/-- The user offsets of an overlay: a field's last entry counts, and an entry that names no field none. -/
def overlayFields (o : Overlay) : Tab CalField :=
  o.entries.foldl (fun t e =>
    if (calBounds e.1).isNone then t
    else
      let v := BitVec.ofInt 16 (clampUser e.1 e.2)
      Tab.set CalField.none t e.1 { pending := v, committed := v }) []

/-- Stage 2 forms the effective values. -/
def loadOverlay (s : State) : State :=
  match overlayInForce s with
  | some o => { s with boot := { s.boot with calDefault := false, cal := overlayFields o, calBytes := o.bytes } }
  | none => { s with boot := { s.boot with calDefault := true, cal := [], calBytes := [] } }

/-- An overlay copy with the pending offsets that are not zero. -/
def overlayBytes (seq : Nat) (cal : Tab CalField) : Bytes :=
  let es := cal.filter fun c => c.2.pending != 0
  let body := toLE 2 1 ++ toLE 2 es.length ++ toLE 8 seq ++ zeros 20 ++
    es.flatMap fun c => toLE 2 c.1 ++ toLE 2 c.2.pending.toNat
  body ++ toLE 4 (Crypto.crc32 body).toNat

/-! ## Firmware slots (R485, R486) -/

def slotBase (b : Bool) : Nat := if b then 0x800000 else 0
def slotSize : Nat := 0x780000

/-- An image entry of a manifest. -/
structure ImageEntry where
  off : Nat
  len : Nat
  prov : Nat
  reqX : Nat
  reqY : Nat
  clean : Bool
  hash : Bytes
deriving DecidableEq, Repr

def allZero (bs : Bytes) : Bool := bs.all fun b => b = 0

def imageEntry (m : Bytes) (i : Nat) : ImageEntry :=
  let e := (m.drop (64 + 64 * i)).take 64
  { off := field e 0 4, len := field e 4 4, prov := field e 8 2, reqX := field e 10 2, reqY := field e 12 2,
    clean := allZero ((e.drop 14).take 18), hash := e.drop 32 }

def ImageEntry.inSlot (e : ImageEntry) : Bool :=
  decide (e.off % 32 = 0) && decide (512 ≤ e.off) && decide (1 ≤ e.len) && decide (e.off + e.len ≤ slotSize)

/-- A provided version meets a requirement: the same major version, a minor version at least as high. -/
def meets (prov req : Nat) : Bool := prov / 256 = req / 256 && decide (req % 256 ≤ prov % 256)

/-- Images `i` and `j`, `i < j`, meet each other's requirements. The first other image of 1 and of 2 is 0, the second other
image of 0 and of 1 is 2. -/
def compatible (m : Bytes) (i j : Nat) : Bool :=
  let a := imageEntry m i
  let b := imageEntry m j
  meets b.prov (if i = 0 ∧ j = 1 then a.reqX else a.reqY) && meets a.prov (if i = 1 ∧ j = 2 then b.reqY else b.reqX)

def manifestSvn (m : Bytes) : Nat := field m 4 4

def wellFormedManifest (m : Bytes) : Bool :=
  m.length = 512 && field m 0 2 = 1 && allZero ((m.drop 2).take 2) && allZero ((m.drop 9).take 55) &&
  allZero ((m.drop 256).take 192) && [0, 1, 2].all fun i => (imageEntry m i).clean && (imageEntry m i).inSlot

/-- Checks 1 to 7, in order: 0, or the first failing code. -/
def firstChecks (s : State) (m : Bytes) (sig : Bool) : Nat :=
  if !wellFormedManifest m then 1
  else if !sig then 2
  else if manifestSvn m < s.fuses.svnMin.toNat then 3
  else if !(m.getD 8 0).getLsbD s.fuses.stepping.toNat then 4
  else if !compatible m 0 1 then 5
  else if !compatible m 0 2 then 6
  else if !compatible m 1 2 then 7
  else 0

/-- Check 8 on a slot of the embedded flash. -/
def hashesHold (s : State) (b : Bool) (m : Bytes) : Bool :=
  [0, 1, 2].all fun i =>
    let e := imageEntry m i
    Crypto.sha256 (s.mem.rdEfl (slotBase b + e.off) e.len) = e.hash

def slotManifest (s : State) (b : Bool) : Bytes := s.mem.rdEfl (slotBase b) 512

/-- The checks of R486 on a slot. -/
def slotCheck (s : State) (b sig : Bool) : Nat :=
  let m := slotManifest s b
  let c := firstChecks s m sig
  if c ≠ 0 then c else if hashesHold s b m then 0 else 8

/-! ## Package reset (R480, R481) -/

/-- What an operation of the embedded flash that a reset cuts short leaves: its line or sector is undefined (R287). -/
def cutEfl (s : State) : Mems :=
  s.efl.busy.foldl (fun m o =>
    if o.2.erase then m.wrEfl (o.2.line / 256 * 8192) (s.fbytes 0 8192) else m.wrEfl (32 * o.2.line) (s.fbytes 0 32)) s.mem

/-- A slot that a STAGE or COPY was writing: what it holds is undefined; after a COPY it fails R486 (R489). -/
def cutSlot (s : State) (m : Mems) : Mems :=
  let junk := fun (m : Mems) b => m.wrEfl (slotBase b) (s.fbytes 0x10000 slotSize)
  if s.boot.fwOp = 5 then (junk m false).wrEfl 0 [0xFF, 0xFF]
  else if s.boot.fwOp = 1 then
    if s.boot.nursery then (if s.boot.fwSecond then junk m true else junk m false) else junk m (!s.boot.slotB)
  else m

/-- An overlay copy that a reset leaves unwritten is invalid (R499). -/
def cutCopy (s : State) (m : Mems) : Mems :=
  if s.boot.calBusy then
    let c := match overlayCopy s 0, overlayCopy s 1 with
      | some a, some b => if a.seq < b.seq then 0 else 1
      | some _, none => 1
      | none, _ => 0
    (m.wrEfl (overlayAt c) (s.fbytes 0x20000 8192)).wrEfl (overlayAt c) [0xFF, 0xFF]
  else m

/-- Every domain but the always-on domain is reset and every pool re-initialised; memories that need no power, and what the
always-on domain keeps, stay. -/
def resetDomains (s : State) : State :=
  let r := State.reset
  { r with
    mem := (cutCopy s (cutSlot s (cutEfl s))).cold
    cores := (List.range 64).foldl (fun t n => Tab.set Core.init t n { Core.init with fault := (s.core n).fault }) []
    ddr := { r.ddr with fail := s.ddr.fail }
    flt := { r.flt with durable := s.flt.durable, blank := s.flt.blank }
    lfl := { r.lfl with keyDraw := s.lfl.keyDraw + 1, keyBase := s.lfl.keyDraw + 1 }
    pci := { r.pci with msix := s.pci.msix }
    pwr := { r.pwr with
      tripped := s.pwr.tripped
      smbAddr := s.pwr.smbAddr
      smbEn := s.pwr.smbEn
      wakeTimer := s.pwr.wakeTimer
      thermtrip := s.pwr.thermtrip
      vinSince := s.pwr.vinSince }
    boot := { r.boot with
      fail := s.boot.fail
      tryB := s.boot.tryB
      forceNursery := s.boot.forceNursery
      resetAt := s.ns }
    fuses := s.fuses
    pins := { r.pins with thermtripN := s.pins.thermtripN, perstN := s.pins.perstN }
    timer := s.timer
    free := s.free + 1
    pending := s.pending }

/-- Loss of power clears what the always-on domain keeps. -/
def powerLost (s : State) : State :=
  { s with
    cores := []
    ddr := { s.ddr with fail := 0 }
    pwr := { s.pwr with tripped := false, smbAddr := 0x5C, smbEn := true, wakeTimer := 0, thermtrip := false, vinSince := s.ns }
    boot := { s.boot with fail := Boot.reset.fail, tryB := false, forceNursery := false }
    pins := { s.pins with thermtripN := true } }

/-! ## Nursery mode and failed starts (R490 to R494) -/

def enterNursery (code : Nat) (s : State) : State :=
  { s with boot := { s.boot with nursery := true, done := false, nrc := BitVec.ofNat 8 code } }

/-- A package reset with its cause. FORCE_NURSERY, and three failed starts in a row, lead to nursery mode. -/
def packageReset (cause : Nat) (s : State) : State :=
  let s := resetDomains s
  let s := if cause = 0 then powerLost s else s
  let s := { s with boot := { s.boot with fail := { s.boot.fail with cause := BitVec.ofNat 3 cause } } }
  if s.boot.forceNursery then enterNursery 24 { s with boot := { s.boot with forceNursery := false } }
  else if s.boot.fail.count = 3 then enterNursery s.boot.fail.lastNrc.toNat s
  else s

/-- A counted code: COUNT rises and LAST_NRC takes the code. -/
def countFailure (code : Nat) (s : State) : State :=
  { s with boot := { s.boot with fail := { s.boot.fail with
    count := satUp s.boot.fail.count 1
    lastNrc := BitVec.ofNat 8 code } } }

/-- A start fails: below 3 the part starts again, else it enters nursery mode with the code. -/
def failedStart (code : Nat) (s : State) : State :=
  let s := countFailure code s
  if s.boot.fail.count = 3 then enterNursery code (resetDomains s) else packageReset 6 s

/-- A counted code counts: before DONE, or within 10 s after it (R490). -/
def startWindow (s : State) : Bool := !s.boot.nursery && (!s.boot.done || decide (s.ns < s.boot.doneAt + 10 ^ 10))

/-- Every sensor of die X reads below 90 °C (R466). -/
def cooled (s : State) : Bool := decide (72 ≤ s.pwr.temps.length) && ((s.pwr.temps.drop 68).take 4).all fun t => decide (t < 90)

/-- Package reset is over, and the stages run: VIN has been in range for 10 ms (R455), a thermal trip has cooled (R466), and
TEST_MODE is held at GND (R516). -/
def startReady (s : State) : Bool :=
  !s.boot.done && !s.boot.nursery && decide (s.pwr.vinSince + 10 ^ 7 ≤ s.ns) && (!s.pwr.thermtrip || cooled s) && !s.pins.testMode

/-- The management port answers: in package reset every address is NACKed (R521). -/
def portAnswers (s : State) : Bool := s.boot.done || s.boot.nursery || (startReady s && s.pins.perstN)

/-- The host may not hold more than one operation of the security firmware: BUSY of BOOT_FW_CMD. -/
def fwBusy (s : State) : Bool := s.boot.fwOp != 0

end Sys2Proof.Machine
end

