-- ==== Sys2Proof/Machine/Efl.lean ====
section
/-! DEFINITION. The embedded firmware flash (chapter 09): program, erase, the end of an operation, and demand reads with
the prefetch buffer and the branch cache. -/

namespace Sys2Proof.Machine

open Sys2Proof Numeric

/-- The bank of a line, by its offset ÷ 32 (R284). -/
def eflBank (line : Nat) : Nat := line / 2 ^ 18

def eflFactory (line : Nat) : Bool := decide (0xFF0000 / 32 ≤ line)

/-- The operation that keeps a bank busy (R288). -/
def eflBusy (s : State) (bank : Nat) : Option EflOp := (s.efl.busy.find? fun e => e.1 = bank).map (·.2)

def setEflBusy (bank : Nat) (o : Option EflOp) (s : State) : State :=
  let rest := s.efl.busy.filter fun e => e.1 ≠ bank
  { s with efl := { s.efl with busy := match o with
      | none => rest
      | some x => if bank = 0 then (0, x) :: rest else rest ++ [(bank, x)] } }

/-- The bytes of EFL_WDATA0 to EFL_WDATA3. -/
def eflData (e : Efl) : Bytes := (List.range 4).flatMap fun w => toLE 8 (Tab.get 0 e.wdata w).toNat

/-- ADDR of EFL_CMD. -/
def eflLine (v : Word) : Nat := bits32 v 5 19

/-- The refusals of R287: the factory sector, a busy bank, a line that is not erased; else the operation starts. -/
def startEfl (erase : Bool) (line : Nat) (s : State) : State :=
  if eflFactory line then { s with efl := { s.efl with lock := true } }
  else if (eflBusy s (eflBank line)).isSome then { s with efl := { s.efl with busyErr := true } }
  else if !erase && !((s.mem.rdEfl (32 * line) 32).all fun b => b = 0xFF) then { s with efl := { s.efl with reprog := true } }
  else setEflBusy (eflBank line) (some { erase := erase, line := line, data := eflData s.efl }) s

/-- The security processor writes EFL_WDATA0 to EFL_WDATA3 and then EFL_CMD with OP 1. -/
def execEflProgram (v : Word) (data : List DWord) (s : State) : Out :=
  whenever s (!s.boot.fatal && decide (bits32 v 0 2 = 1)) fun s =>
    startEfl false (eflLine v) { s with efl := { s.efl with
      wdata := (List.range 4).foldl (fun t w => Tab.set 0 t w (data.getD w (Tab.get 0 t w))) s.efl.wdata } }

/-- The security processor writes EFL_CMD with OP 2. -/
def execEflErase (v : Word) (s : State) : Out :=
  whenever s (!s.boot.fatal && decide (bits32 v 0 2 = 2)) (startEfl true (eflLine v))

/-- Bytes of a line as an operation leaves them. After a FAIL they are undefined. -/
def eflResult (s : State) (o : EflOp) (passed : Bool) : Nat × Bytes :=
  let at' := if o.erase then o.line / 256 * 8192 else 32 * o.line
  let n := if o.erase then 8192 else 32
  (at', if !passed then s.fbytes 0 n else if o.erase then List.replicate 8192 0xFF else o.data)

/-- An operation ends, by its first verify that passes or after the tenth that fails; lines of the bank leave the prefetch
buffer and the branch cache. -/
def execEflOpDone (bank : Fin 2) (pulses : Fin 11) (passed : Bool) (s : State) : Out :=
  whenever s (!s.boot.fatal && (if passed then decide (1 ≤ pulses.val) else decide (pulses.val = 10))) fun s =>
    match eflBusy s bank with
    | none => s
    | some o =>
      let r := eflResult s o passed
      let s := setMems s fun m => m.wrEfl r.1 r.2
      let s := setEflBusy bank none s
      { s with
        efl := { s.efl with
          fail := s.efl.fail || !passed
          pulses := BitVec.ofNat 4 pulses
          prefetch := s.efl.prefetch.filter fun l => eflBank l ≠ bank.val
          branch := s.efl.branch.filter fun l => eflBank l ≠ bank.val }
        free := s.free + 1 }

def eflSrcCode : EflSrc → BitVec 2
  | .control => 0
  | .security => 1
  | .rom => 2

def eflFault (src : EflSrc) (line : BitVec 19) (cause : Bool) (s : State) : State :=
  { s with efl := { s.efl with
    faultAddr := line
    faultCause := cause
    faultSrc := eflSrcCode src
    faultCount := satUp s.efl.faultCount 1 } }

/-- The prefetch buffer fetches what it lacks of the next three lines, of a bank that is not busy; it keeps the four lines
fetched last. -/
def eflPrefetch (line : Nat) (s : State) : State :=
  let want := [line + 1, line + 2, line + 3].filter fun l =>
    decide (l < 2 ^ 19) && (eflBusy s (eflBank l)).isNone && !s.efl.prefetch.contains l
  let all := s.efl.prefetch ++ want
  { s with efl := { s.efl with prefetch := all.drop (all.length - 4) } }

/-- An offset lies in the slot in use. -/
def inActiveSlot (s : State) (a : Nat) : Bool :=
  s.boot.done && decide (slotBase s.boot.slotB ≤ a) && decide (a < slotBase s.boot.slotB + slotSize)

/-- A demand read of a line (R285, R286, R288). `f` is what the check of an array read finds. -/
def execEflRead (src : EflSrc) (line : BitVec 19) (f : Finding) (s : State) : Out :=
  whenever s (!s.boot.fatal) fun s =>
    let l := line.toNat
    if (eflBusy s (eflBank l)).isSome then eflFault src line false s
    else
      let e := s.efl
      let hit := e.prefetch.contains l || e.branch.contains l
      if !hit && f = .uncorrectable then
        let s := eflFault src line true s
        if src ≠ .rom && startWindow s && inActiveSlot s (32 * l) then failedStart 23 s else s
      else
        let branch := if e.branch.contains l then l :: e.branch.filter fun x => x ≠ l
          else if !hit && l ≠ e.lastDemand + 1 then (l :: e.branch).take 64 else e.branch
        eflPrefetch l { s with efl := { e with
          branch := branch
          lastDemand := l
          ceCount := if !hit && f = .corrected then satUp e.ceCount 1 else e.ceCount } }

end Sys2Proof.Machine
end

