-- ==== Sys2Proof/Machine/Codec.lean ====
section
/-! DEFINITION. The weight code of chapter 07 (R210 to R217): headers, table records, canonical codes, decoding, coding,
and the length-limited optimum of the table builder; and the CRC of a block. -/

namespace Sys2Proof.Machine.Codec

open Sys2Proof Numeric

/-! ### Bits -/

/-- The bits of bytes, bit b being bit 7 - (b mod 8) of byte ⌊b/8⌋ (R216). -/
def toBits : Bytes → List Bool
  | [] => []
  | b :: bs => (List.range 8).map (fun i => b.getLsbD (7 - i)) ++ toBits bs

/-- The value of bits, the most significant first. -/
def ofBits (l : List Bool) : Nat := l.foldl (fun a b => 2 * a + (if b then 1 else 0)) 0

/-- The byte of eight bits, the most significant first; missing bits are zero. -/
def byteOf (l : List Bool) : Byte := BitVec.ofNat 8 (ofBits ((l ++ List.replicate 8 false).take 8))

/-- Bytes of a bit stream, padded with zero bits; `fuel` bounds their number. -/
def packBits : Nat → List Bool → Bytes
  | 0, _ => []
  | n + 1, l => if l.isEmpty then [] else byteOf (l.take 8) :: packBits n (l.drop 8)

/-- `n` bits of a number, the most significant first. -/
def msbBits (n x : Nat) : List Bool := (List.range n).map fun i => bit x (n - 1 - i)

/-! ### CRC-16/CCITT-FALSE (R210) -/

def crcBit (c : Nat) : Nat := if 0x8000 ≤ c then ((2 * c) % 65536) ^^^ 0x1021 else 2 * c

def crcByte (c : Nat) (b : Byte) : Nat := Nat.repeat crcBit 8 (c ^^^ (b.toNat * 256))

def crc16 (bs : Bytes) : Nat := bs.foldl crcByte 0xFFFF

/-! ### Block headers (R210) -/

structure BlockHeader where
  table : Nat
  raw : Bool
  len : Nat
  crc : Nat
deriving DecidableEq, Repr

/-- The header of 8 bytes, or none when it breaks the table of R210. -/
def parseBlockHeader (w : Nat) : Option BlockHeader :=
  let h : BlockHeader := { table := bits w 0 8, raw := bit w 8, len := bits w 9 6, crc := bits w 16 16 }
  if bit w 15 || bits w 32 32 != 0 then none
  else if h.raw then (if h.table = 0 ∧ h.len = 32 ∧ h.crc = 0 then some h else none)
  else if 1 ≤ h.table ∧ 1 ≤ h.len ∧ h.len ≤ 30 then some h else none

def rawHeader : Nat := 2 ^ 8 + 32 * 2 ^ 9

def codedHeader (table len crc : Nat) : Nat := table + len * 2 ^ 9 + crc * 2 ^ 16

/-! ### Table records (R214, R215) -/

/-- The code length of each of the 256 symbols in a 128-byte record. -/
def recordLens (rec : Bytes) : List Nat := rec.flatMap fun b => [b.toNat % 16, b.toNat / 16]

/-- The record of 256 lengths. -/
def lensRecord (ls : List Nat) : Bytes :=
  (List.range 128).map fun i => BitVec.ofNat 8 (ls.getD (2 * i) 0 + 16 * ls.getD (2 * i + 1) 0)

def validLens (ls : List Nat) : Bool :=
  ls.all (fun l => decide (l ≤ 12)) && ls.any (fun l => l != 0) &&
  decide (ls.foldl (fun a l => if l = 0 then a else a + 2 ^ (12 - l)) 0 ≤ 4096)

/-- Symbols with their lengths in canonical order: by length, then by symbol. -/
def canonical (ls : List Nat) : List (Nat × Nat) :=
  (List.range 12).flatMap fun i => ((List.range 256).filter fun s => ls.getD s 0 = i + 1).map fun s => (s, i + 1)

/-- The codes of the symbols in canonical order: (symbol, length, code). -/
def assign : Nat → Nat → List (Nat × Nat) → List (Nat × Nat × Nat)
  | _, _, [] => []
  | next, len, (s, l) :: r =>
    let c := next * 2 ^ (l - len)
    (s, l, c) :: assign (c + 1) l r

def codes (ls : List Nat) : List (Nat × Nat × Nat) :=
  match canonical ls with
  | [] => []
  | (s, l) :: r => (s, l, 0) :: assign 1 l r

/-- The first code that begins the bits: its symbol and length. -/
def nextSym (cs : List (Nat × Nat × Nat)) (bs : List Bool) : Option (Nat × Nat) :=
  (cs.find? fun c => decide (c.2.1 ≤ bs.length) && ofBits (bs.take c.2.1) == c.2.2).map fun c => (c.1, c.2.1)

/-- Decodes `n` symbols, or none where a code matches no symbol or the stream ends (R216). -/
def decodeSyms (cs : List (Nat × Nat × Nat)) : Nat → List Bool → Option Bytes
  | 0, _ => some []
  | n + 1, bs =>
    match nextSym cs bs with
    | none => none
    | some (s, l) => (decodeSyms cs n (bs.drop l)).map fun r => BitVec.ofNat 8 s :: r

/-- The 2,048 bytes of a coded block from its LEN lines, or none in any case of R216. -/
def expand (rec coded : Bytes) (crc : Nat) : Option Bytes :=
  let ls := recordLens rec
  if !validLens ls then none else
  match decodeSyms (codes ls) 2048 (toBits coded) with
  | none => none
  | some out => if crc16 out = crc then some out else none

/-- The coded stream of a block (R216). -/
def encodeBits (cs : List (Nat × Nat × Nat)) (bs : Bytes) : List Bool :=
  bs.flatMap fun b => match cs.find? fun c => c.1 = b.toNat with
    | some c => msbBits c.2.1 c.2.2
    | none => []

/-- The coded stream in whole lines, padded with zero bits, with its count of lines (R208, R212). -/
def compress (rec : Bytes) (block : Bytes) : Bytes × Nat :=
  let bs := packBits 4096 (encodeBits (codes (recordLens rec)) block)
  let lines := ceilDiv bs.length 64
  (bs ++ List.replicate (64 * lines - bs.length) 0, lines)

/-! ### The table builder's lengths (R217) -/

/-- How often each symbol occurs, in 40-bit counters that saturate. -/
def countSyms (blocks : List Bytes) : List Nat :=
  (List.range 256).map fun s => min (2 ^ 40 - 1) (blocks.foldl (fun a b => a + b.countP fun x => x.toNat == s) 0)

/-- A package: its weight and how often each symbol's leaf is in it. -/
structure Package where
  weight : Nat
  syms : List Nat

def insertPkg (p : Package) : List Package → List Package
  | [] => [p]
  | q :: r => if p.weight ≤ q.weight then p :: q :: r else q :: insertPkg p r

def pairUp : List Package → List Package
  | a :: b :: r => { weight := a.weight + b.weight, syms := a.syms ++ b.syms } :: pairUp r
  | _ => []

/-- The leaves of the symbols that occur, lightest first. -/
def leaves (counts : List Nat) : List Package :=
  ((List.range 256).filter fun s => counts.getD s 0 ≠ 0).foldl
    (fun l s => insertPkg { weight := counts.getD s 0, syms := [s] } l) []

/-- The packages after merging through `n` levels (package-merge for a limit of n + 1). -/
def packages (ls : List Package) : Nat → List Package
  | 0 => ls
  | n + 1 => (pairUp (packages ls n)).foldl (fun l p => insertPkg p l) ls

/-- A set of lengths of at most 12 with the least total coded length. A single distinct symbol gets length 1. -/
def bestLens (counts : List Nat) : List Nat :=
  let ls := leaves counts
  if ls.length ≤ 1 then (List.range 256).map fun s => if counts.getD s 0 = 0 then 0 else 1
  else
    let chosen := (packages ls 11).take (2 * ls.length - 2)
    (List.range 256).map fun s => chosen.foldl (fun a p => a + p.syms.countP fun x => x == s) 0

/-- The total coded length of the counted symbols. -/
def codedLength (counts ls : List Nat) : Nat :=
  (List.range 256).foldl (fun a s => a + counts.getD s 0 * ls.getD s 0) 0

/-- The lengths the builder writes: any valid set that reaches the minimum and gives no symbol that occurs length 0.
`want` is a free choice; where it is not such a set, the optimum above stands. -/
def builtLens (counts want : List Nat) : List Nat :=
  let best := bestLens counts
  if want.length = 256 && validLens want && (List.range 256).all (fun s => decide (counts.getD s 0 = 0 ↔ want.getD s 0 = 0)) &&
     codedLength counts want == codedLength counts best
  then want else best

end Sys2Proof.Machine.Codec
end

