-- ==== Sys2Proof/Machine/DramOps.lean ====
section
/-! DEFINITION. Reading and writing the memory tiers (chapters 07 and 08): regions and permissions, the Herringbone
placement, data lines with what their check words record, blocks of compressed regions, and shared SRAM lines. -/

namespace Sys2Proof.Machine

open Sys2Proof Numeric

/-! ## Regions (R203 to R206) -/

def RegionEntry.lo (r : RegionEntry) : Nat := r.base.toNat * 2 ^ 21
def RegionEntry.len (r : RegionEntry) : Nat := r.size.toNat * 2 ^ 21
def RegionEntry.hi (r : RegionEntry) : Nat := r.lo + r.len

/-- A region is compressed (R206). -/
def RegionEntry.comp (r : RegionEntry) : Bool := r.type = 1 && r.compress && !r.prot

/-- Where the header array of a compressed region begins (R211). -/
def RegionEntry.headers (r : RegionEntry) : Nat := r.lo + 255 * r.len / 256

/-- The entry whose span holds the whole range; a range that spans two regions has none (R205). -/
def entryOf (s : State) (a n : Nat) : Option Nat :=
  (List.range 256).find? fun e => (s.region e).size ≠ 0 && decide ((s.region e).lo ≤ a) && decide (a + n ≤ (s.region e).hi)

/-- Tenant `t` is among READERS of a region with OWNER 0 (R204). -/
def RegionEntry.reader (r : RegionEntry) (t : Nat) : Bool := r.readers.getLsbD (t - 1)

/-- A job, or a pass, of tenant `t` may read this range of DRAM (R204, R205, R213). -/
def mayReadDram (s : State) (t a n : Nat) : Bool :=
  match entryOf s a n with
  | none => false
  | some e =>
    let r := s.region e
    let own := r.owner.toNat = t
    let ok := if r.type = 1 then own || (r.owner = 0 && r.reader t)
      else if r.type = 2 ∨ r.type = 3 ∨ r.type = 4 then own else false
    ok && (!r.comp || decide (a + n ≤ r.headers))

/-- A STORE of a job of tenant `t` may write this range (R205). -/
def mayWriteDram (s : State) (t a n : Nat) : Bool :=
  match entryOf s a n with
  | none => false
  | some e => (s.region e).type = 2 && (s.region e).owner.toNat = t

/-- The 4 KiB units of shared SRAM that hold fallback areas of tenant `t`'s versions (R291, R299). -/
def inFallback (s : State) (t unit : Nat) : Bool :=
  s.lfl.versions.any fun v => v.2.state ≠ 0 && v.2.owner.toNat = t && decide (v.2.fbUnit ≤ unit) &&
    decide (unit < v.2.fbUnit + v.2.fbUnits)

/-- A job of tenant `t` may reach this range of shared SRAM: its partition without the state area and without fallback
areas (R205, R291). `a` counts bytes of the whole shared SRAM. -/
def maySram (s : State) (t a n : Nat) : Bool :=
  let p := s.tenant t
  decide (4096 * (p.base.toNat + p.stateUnits.toNat) ≤ a) && decide (a + n ≤ 4096 * (p.base.toNat + p.size.toNat)) &&
  (List.range ((a % 4096 + n + 4095) / 4096)).all fun i => !inFallback s t (a / 4096 + i)

/-! ## Placement (R239 to R242) -/

/-- Lines of a segment, by density code (R239, R240). -/
def segLines (dens : Nat) : Nat := [2, 3, 4, 6, 8].getD dens 2 * 2 ^ 20

/-- Channels in service, in ascending order. -/
def channels (s : State) : List Nat := (List.range 32).filter fun c => !s.fences.pairs.getLsbD (c / 2)

structure Place where
  chan : Nat
  rank : Nat
  segment : Nat
  bank : Nat
  row : Nat
  pos : Nat
  group : Nat
deriving DecidableEq, Repr

/-- The place of a device address (R241). -/
def place (s : State) (a : Nat) : Place :=
  let chs := channels s
  let n := max 1 chs.length
  let g := s.ddr.gseg.toNat
  let grp := a / 256
  let i := a / 64 % 4
  let st := grp / n
  let x := grp % n
  let j := if st % 2 = 0 then (x + st) % n else (n - 1 - x + st) % n
  let seg := st / g % 8
  let u := st % g
  let lam := 4 * u + i
  { chan := chs.getD j 0, rank := st / (8 * g), segment := seg, bank := lam / 32 % 16,
    row := seg * (segLines s.ddr.dens.toNat / 512) + lam / 32 / 16, pos := lam % 32, group := grp }

/-- Usable capacity in units of 2 MiB (R242). -/
def usable (s : State) : Nat := s.ddr.cap.toNat

/-- The domain of the channel group that holds an address (R469). -/
def groupDom (s : State) (a : Nat) : Nat := 0x60 + (place s a).chan / 4

/-! ## Lines -/

/-- Bytes that nobody can know: what a poisoned line, or one of a dead key, delivers. -/
def noise (s : State) (a n : Nat) : Bytes := s.fbytes a n

def keySlot (s : State) (k : Nat) : KeySlot := Tab.get KeySlot.dead s.sec.kslots k

def lineTag (s : State) (a : Nat) : LineTag := Tab.get LineTag.init s.ddr.tags (a / 64)

/-- A read of a line finds its KEY unequal to its region's (R244). -/
def keyMismatch (s : State) (a : Nat) : Bool :=
  match entryOf s a 64 with
  | some e => (lineTag s a).key != (s.region e).key
  | none => false

/-- The line at an address, a multiple of 64, as a reader gets it (R244, R258). -/
def readLine (s : State) (a : Nat) : RowData :=
  let t := lineTag s a
  if (s.dom (groupDom s a)).state = .off || (s.dom (groupDom s a)).reset || t.poison || t.ue || keyMismatch s a then
    { data := noise s a 64, poison := true }
  else if t.epoch ≠ (keySlot s t.key.toNat).epoch then { data := noise s a 64, poison := false }
  else { data := s.mem.rdDram a 64, poison := false }

/-- Writes a whole line, with the poison it carries and the key of its region (R244). A group that is OFF takes nothing
(R258). -/
def writeLine (s : State) (a : Nat) (r : RowData) : State :=
  if (s.dom (groupDom s a)).state = .off then s else
  match entryOf s a 64 with
  | none => s
  | some e =>
    let key := (s.region e).key
    let tag : LineTag := { poison := r.poison, key := key, epoch := (keySlot s key.toNat).epoch, ue := false }
    { s with
      mem := s.mem.wrDram a (padTo 64 r.data)
      ddr := { s.ddr with tags := Tab.set LineTag.init s.ddr.tags (a / 64) tag } }

/-- Writes a run of bytes that starts and ends on lines. -/
def writeLines (s : State) (a : Nat) (rows : List RowData) : State :=
  (rows.foldl (fun (acc : State × Nat) r => (writeLine acc.1 acc.2 r, acc.2 + 64)) (s, a)).1

/-- Bytes as clean lines, the last padded with zeros. -/
def toLines : Nat → Bytes → List RowData
  | 0, _ => []
  | n + 1, bs => { data := padTo 64 (bs.take 64), poison := false } :: toLines n (bs.drop 64)

/-- Changes bytes anywhere in DRAM, line by line, leaving the other bytes of each line. A line that was poisoned keeps
its flag. -/
def patchDram (s : State) (a : Nat) (bs : Bytes) : State :=
  let first := a / 64 * 64
  let n := (a - first + bs.length + 63) / 64
  (List.range n).foldl (fun s i =>
    let l := first + 64 * i
    let old := readLine s l
    let data := (List.range 64).map fun k =>
      if a ≤ l + k ∧ l + k < a + bs.length then bs.getD (l + k - a) 0 else old.data.getD k 0
    writeLine s l { data := data, poison := old.poison }) s

/-! ## Blocks of compressed regions (R208 to R216) -/

/-- The version whose image lies in a region. -/
def versionIn (s : State) (e : Nat) : Option (Nat × Version) :=
  s.lfl.versions.find? fun v => v.2.state ≠ 0 && v.2.region = e

/-- The header of the block at an address, or none where its line is poisoned or it breaks R210. -/
def blockHeader (s : State) (e a : Nat) : Option Codec.BlockHeader :=
  let r := s.region e
  let h := r.headers + 8 * ((a - r.lo) / 2048)
  let line := readLine s (h / 64 * 64)
  if line.poison then none else Codec.parseBlockHeader (field line.data (h % 64) 8)

def poisonedBlock (s : State) (a : Nat) : List RowData :=
  (List.range 32).map fun i => { data := noise s (a + 64 * i) 64, poison := true }

/-- What a block's delivery counts in EXP_STAT (R238). -/
inductive BlockCount where
  | coded
  | raw
  | error
deriving DecidableEq, Repr

/-- The 128-byte record of table `k` (R214). -/
def tableRecord (s : State) (v : Version) (k : Nat) : Bytes :=
  (readLine s ((v.tablesAt + 128 * k) / 64 * 64)).data ++ (readLine s ((v.tablesAt + 128 * k) / 64 * 64 + 64)).data

/-- The block at an address of a compressed region as Gondola delivers it, and what it counts. -/
def readBlock (s : State) (e a : Nat) : List RowData × BlockCount :=
  match blockHeader s e a with
  | none => (poisonedBlock s a, .error)
  | some h =>
    if h.raw then ((List.range 32).map fun i => readLine s (a + 64 * i), .raw)
    else
      let lines := (List.range h.len).map fun i => readLine s (a + 64 * i)
      if lines.any (·.poison) then (poisonedBlock s a, .coded)
      else match versionIn s e with
        | none => (poisonedBlock s a, .error)
        | some v =>
          match Codec.expand (tableRecord s v.2 h.table) (lines.flatMap (·.data)) h.crc with
          | none => (poisonedBlock s a, .error)
          | some out => (toLines 32 out, .coded)

/-- A 64-byte row of DRAM in plain text, as every reader but the Expanders' own gets it (R213). -/
def dramRow (s : State) (a : Nat) : RowData :=
  match entryOf s a 64 with
  | none => { data := noise s a 64, poison := true }
  | some e =>
    if (s.region e).comp then (readBlock s e (a / 2048 * 2048)).1.getD (a % 2048 / 64) { data := zeros 64, poison := true }
    else readLine s a

/-- `n` bytes of DRAM in plain text, and whether any line of them was poisoned. -/
def readDram (s : State) (a n : Nat) : Bytes × Bool :=
  let first := a / 64 * 64
  let rows := (List.range ((a - first + n + 63) / 64)).map fun i => dramRow s (first + 64 * i)
  (((rows.flatMap (·.data)).drop (a - first)).take n, rows.any (·.poison))

/-- A field of a record in DRAM. -/
def dramField (s : State) (a n : Nat) : Nat := leNat (readDram s a n).1

def countBlock (g : Gdl) (c : BlockCount) : Gdl :=
  match c with
  | .coded => { g with coded := wrapUp g.coded 1 }
  | .raw => { g with raw := wrapUp g.raw 1 }
  | .error => { g with decErr := satUp g.decErr 1 }

/-! ## Shared SRAM (R530) -/

/-- The bank groups of the quad that holds a byte offset (R470). -/
def quadDoms (a : Nat) : List Nat := (List.range 4).map fun i => 0x50 + 4 * (a / 2 ^ 24) + i

/-- A bank group of the quad is OFF or in reset: a read is poisoned and a write is dropped (R471). -/
def sramOff (s : State) (a : Nat) : Bool := (quadDoms a).any fun d => (s.dom d).state = .off || (s.dom d).reset

/-- A row of shared SRAM by byte offset. -/
def sramRow (s : State) (a : Nat) : RowData :=
  if sramOff s a then { data := noise s a 64, poison := true }
  else { data := s.mem.rdSram a 64, poison := s.gdl.sramPoison.contains (a / 64) }

def insertSorted (x : Nat) : List Nat → List Nat
  | [] => [x]
  | y :: r => if x = y then y :: r else if x < y then x :: y :: r else y :: insertSorted x r

/-- Writes a whole line of shared SRAM. -/
def writeSram (s : State) (a : Nat) (r : RowData) : State :=
  if sramOff s a then s else
  { s with
    mem := s.mem.wrSram a (padTo 64 r.data)
    gdl := { s.gdl with sramPoison :=
      if r.poison then insertSorted (a / 64) s.gdl.sramPoison else s.gdl.sramPoison.filter fun l => l ≠ a / 64 } }

/-- Zero fill of a span of shared SRAM, poison cleared. -/
def clearSram (s : State) (a n : Nat) : State :=
  { s with
    mem := s.mem.clrSram a n
    gdl := { s.gdl with sramPoison := s.gdl.sramPoison.filter fun l => l * 64 < a ∨ a + n ≤ l * 64 } }

end Sys2Proof.Machine
end

