-- ==== Sys2Proof/Machine/JobOps.lean ====
section
/-! DEFINITION. The job table as the cores and the host commands see it (chapters 03, 10 and 14): a job's gang, the
reports of its cores, and its end. -/

namespace Sys2Proof.Machine

open Sys2Proof

/-- What an unlisted job number reads as. -/
def Job.none : Job := {
  kind := .run false
  tenant := 0
  sub := Option.none
  gang := []
  anycore := false
  limit := 0
  start := 0
  ran := 0
  budget := 0
  left := []
  result := 0
  detail := 0
  state := .done
  rerun := false
  degSteps := 0
  energy := 0
  tick := 0
  committed := 0
  shares := [] }

def State.job (s : State) (n : Nat) : Job := Tab.get Job.none s.lfl.jobs n

def setJob (s : State) (n : Nat) (f : Job → Job) : State :=
  { s with lfl := { s.lfl with jobs := Tab.upd Job.none s.lfl.jobs n f } }

def dropJob (s : State) (n : Nat) : State := setJob s n fun _ => Job.none

/-- A pass or chunk job is over: only its energy has still to be attributed. -/
def retireJob (s : State) (n : Nat) : State :=
  setJob s n fun j => { j with kind := .run false, state := .ended, gang := [], sub := Option.none }

/-- Adds a job under the next number. -/
def addJob (j : Job) (s : State) : State :=
  { s with lfl := { s.lfl with jobs := Tab.set Job.none s.lfl.jobs s.lfl.nextJob j, nextJob := s.lfl.nextJob + 1 } }

def Job.isHost (j : Job) : Bool :=
  match j.kind with
  | .run _ => true
  | .resideLoad _ _ _ => true
  | _ => false

def Job.isAdapt (j : Job) : Bool :=
  match j.kind with
  | .run a => a
  | _ => false

/-- The completion of a host job; its energy is known at the next tick (R467). -/
def jobCompletion (n : Nat) (j : Job) (sub : Sub) : Completion :=
  { jobId := sub.jobId, status := j.result, detail := j.detail, degSteps := j.degSteps, energy := j.energy, tokens := 0,
    noirq := sub.noirq, jobs := [(n, 1, 1)], after := [] }

/-- Every core of a host job has reported: the command completes (R176, R413). -/
def finishHostJob (n : Nat) (s : State) : State :=
  let j := s.job n
  match j.sub with
  | some sub =>
    if j.isAdapt then finishLong (.job n) sub (jobCompletion n j sub) s else complete sub (jobCompletion n j sub) s
  | none => s

/-- Core `c` has ended its part of job `n` with a status. The first status that is not ST_OK is the job's. -/
def coreReport (n c : Nat) (st : BitVec 16) (detail : Word) (s : State) : State :=
  let j := s.job n
  let j' : Job := { j with
    left := j.left.filter fun x => x ≠ c
    result := if j.result = St.ok then st else j.result
    detail := if j.result = St.ok then detail else j.detail }
  let j' := if j'.left.isEmpty then { j' with state := .done } else j'
  let s := setJob s n fun _ => j'
  if j'.left.isEmpty && j'.isHost then finishHostJob n s else s

/-- A tenant is in confidential mode (R443). -/
def isConf (s : State) (t : Nat) : Bool := (s.tsec t).conf

end Sys2Proof.Machine
end

