-- ==== Sys2Proof/Machine/CoreOps.lean ====
section
/-! DEFINITION. The shared operations of a compute core (chapters 03 to 05): regions and credits, rows with their presence
and poison flags, the scrub, the decoding position, and how a job ends. -/

namespace Sys2Proof.Machine

open Sys2Proof Numeric

/-! ## Regions and credits (R92 to R95) -/

def Core.region (k : Core) (r : Nat) : Region := Tab.get .free k.regions r

/-- Moves a region to a state; pool 0x01 counts it free only in state FREE. -/
def Core.setRegion (k : Core) (r : Nat) (st : Region) : Core :=
  let was := k.region r
  { k with
    regions := Tab.set .free k.regions r st
    credits := if was = .free ∧ st ≠ .free then k.credits.take 1
      else if was ≠ .free ∧ st = .free then k.credits.give 1 else k.credits }

def Core.setRegions (k : Core) (rs : List Nat) (st : Region) : Core := rs.foldl (fun k r => k.setRegion r st) k

/-- The regions, ascending, in which the rows lie. -/
def regionsOf (rows : List Nat) : List Nat := (List.range 128).filter fun r => rows.any fun x => x / 64 = r

def rowsOfRegion (r : Nat) : List Nat := (List.range 64).map fun i => 64 * r + i

def isResident : Region → Bool
  | .resident _ => true
  | _ => false

/-- The STREAM and WORK regions of the running job: those of a suspended one are its own (R112). -/
def Core.heldRegions (k : Core) : List Nat :=
  let kept := match k.kept with
    | some x => x.regions
    | none => []
  (List.range 128).filter fun r => (k.region r = .work || k.region r = .stream) && !kept.contains r

def residentCount (k : Core) : Nat := k.regions.countP fun e => isResident e.2

/-! ## Row flags -/

def rowMask (rows : List Nat) : BitVec 8192 := rows.foldl (fun m r => m ||| (1#8192 <<< r)) 0

def Core.present (k : Core) (r : Nat) : Bool := k.presence.getLsbD r
def Core.allPresent (k : Core) (rows : List Nat) : Bool := rows.all k.present
def Core.poisoned (k : Core) (rows : List Nat) : Bool := rows.any fun r => k.poison.getLsbD r
def Core.clearPresence (k : Core) (rows : List Nat) : Core := { k with presence := k.presence &&& ~~~(rowMask rows) }
def Core.setPresence (k : Core) (r : Nat) : Core := { k with presence := k.presence ||| rowMask [r] }
def Core.setPoison (k : Core) (r : Nat) (p : Bool) : Core :=
  { k with poison := if p then k.poison ||| rowMask [r] else k.poison &&& ~~~(rowMask [r]) }

/-- The bytes of a scratchpad row. -/
def rowBytes (s : State) (c r : Nat) : Bytes := s.mem.rdSpm c (64 * r) 64

/-- `n` bytes that start at a row. -/
def rowsBytes (s : State) (c r n : Nat) : Bytes := s.mem.rdSpm c (64 * r) n

/-- A full-row write lands: the row is present, and its poison flag is what the write carries (R100, R116). -/
def putRow (c r : Nat) (bs : Bytes) (poison : Bool) (s : State) : State :=
  let s := setMems s fun m => m.wrSpm c (64 * r) (padTo 64 bs)
  updCore s c fun k => (k.setPresence r).setPoison r poison

/-- Rows written one after the other from row `r`. -/
def putRows (c r : Nat) (bs : Bytes) (poison : Bool) (n : Nat) (s : State) : State :=
  (List.range n).foldl (fun s i => putRow c (r + i) ((bs.drop (64 * i)).take 64) poison s) s

/-- A write of part of a row: the other bytes stay, a poison flag stays unless the write carries poison (R86, R116). -/
def putPart (c a : Nat) (bs : Bytes) (poison : Bool) (s : State) : State :=
  let rows := (List.range ((a % 64 + bs.length + 63) / 64)).map fun i => a / 64 + i
  let s := setMems s fun m => m.wrSpm c a bs
  rows.foldl (fun s r => updCore s c fun k =>
    let k := k.setPresence r
    if poison then k.setPoison r true else k) s

/-! ## Accumulator file (R67) -/

def Core.accAt (k : Core) (row col : Nat) : Word := Tab.get 0 k.acc (64 * row + col)
def Core.setAcc (k : Core) (row col : Nat) (v : Word) : Core := { k with acc := Tab.set 0 k.acc (64 * row + col) v }

/-! ## Ownership and scrubbing (R107 to R114) -/

/-- Regions that are released are scrubbed to zero, their presence bits cleared, and become FREE (R108). -/
def releaseRegions (c : Nat) (rs : List Nat) (s : State) : State :=
  rs.foldl (fun s r =>
    let s := setMems s fun m => m.clrSpm c (4096 * r) 4096
    updCore s c fun k =>
      let k := k.clearPresence (rowsOfRegion r)
      let k := { k with poison := k.poison &&& ~~~(rowMask (rowsOfRegion r)) }
      k.setRegion r .free) s

/-- The RESIDENT regions of a tenant on a core. -/
def residentOf (k : Core) (t : Nat) : List Nat := (k.regions.filter fun e => e.2 = .resident t).map (·.1)

/-- The scrub at a change of owner (R109, R83, R150, R171). Regions that are not RESIDENT are zeroed. -/
def scrubCore (c owner : Nat) (s : State) : State :=
  let k := s.core c
  let rs := (List.range 128).filter fun r => !isResident (k.region r)
  let s := setMems s fun m => m.dropSpm c fun a => rs.contains (a / 4096)
  let mask := rs.foldl (fun m r => m ||| rowMask (rowsOfRegion r)) 0
  updCore s c fun k => { k with
    owner := owner
    presence := k.presence &&& ~~~mask
    poison := k.poison &&& ~~~mask
    acc := []
    plane0 := Plane.zero
    plane1 := Plane.zero
    sync := []
    deltaSkip := 0
    ramps := 0
    outSat := 0
    accSat := 0
    nonfinite := 0
    fmtErr := 0 }

/-- A reset of the core's domain (R114). CORE_FAULT stays: it lies in the always-on domain. -/
def resetCore (c : Nat) (s : State) : State :=
  let s := setMems s fun m => m.zeroCore c
  updCore s c fun k => { Core.init with fault := k.fault, step := k.step, target := k.target, assigned := none }

/-! ## The running job -/

def State.run (s : State) (c : Nat) : Option Run := (s.core c).run

def setRun (c : Nat) (f : Run → Run) (s : State) : State := updCore s c fun k => { k with run := k.run.map f }

/-- Nothing that the two engines issued is outstanding. -/
def Run.quiet (r : Run) : Bool := r.array.isEmpty && r.transfers.isEmpty && r.stores.isEmpty && r.signals.isEmpty

/-- The job is ending with a failure or a cancel and its queue is empty: what lands is discarded (R113, R159). -/
def Run.cancelling (r : Run) : Bool := r.ending.isSome && r.queue.isEmpty

/-- The fetch engine decodes: the job runs, decoding has not ended and no suspend waits. -/
def Run.decodes (r : Run) : Bool := r.phase = .running && !r.decodeEnded && !r.suspending && r.ending.isNone

/-- The execute engine issues. -/
def Run.issues (r : Run) : Bool := r.phase = .running && !r.suspending

/-- The job ends with a status at once: the queue empties, decoding ends. The first status raised stands. -/
def failRun (st : BitVec 16) (detail : Word) (r : Run) : Run :=
  { r with
    ending := match r.ending with
      | some e => some e
      | none => some (st, detail)
    decodeEnded := true
    queue := [] }

/-- An error found at decode: earlier operations complete as they would have (R159). -/
def failDecode (st : BitVec 16) (detail : Word) (r : Run) : Run :=
  { r with
    ending := match r.ending with
      | some e => some e
      | none => some (st, detail)
    decodeEnded := true }

/-- DETAIL of ST_PROGRAM_ERROR (R420). -/
def progDetail (c pos code : Nat) : Word := BitVec.ofNat 32 (pos + code * 2 ^ 16 + c % 64 * 2 ^ 24)

/-- CORE_PROG_ERR records the first program error of a job (R160). -/
def recordError (pos code : Nat) (k : Core) : Core :=
  if k.errValid then k
  else { k with errIndex := BitVec.ofNat 10 pos, errCode := BitVec.ofNat 8 code, errValid := true }

/-- A program error found at decode of the operation at the decoding position. Of several CODEs that apply, which one is
recorded is open. -/
def decodeError (c : Nat) (codes : List Nat) (s : State) : State :=
  match s.run c with
  | none => s
  | some r =>
    let code := s.pick 0 1 codes
    let s := updCore s c (recordError r.pos code)
    (setRun c (failDecode St.programError (progDetail c r.pos code)) s).spend

/-- A program error found at issue of the operation at program position `pos`. -/
def issueError (c pos code : Nat) (s : State) : State :=
  let s := updCore s c (recordError pos code)
  setRun c (failRun St.programError (progDetail c pos code)) s

/-- A poisoned row was read by the operation at index `i` of the queue: no later operation issues (R116). -/
def raisePoison (c i : Nat) (s : State) : State :=
  let s := updCore s c fun k => { k with fault := { k.fault with poison := true } }
  setRun c (fun r => { r with
    ending := match r.ending with
      | some e => some e
      | none => some (St.dataPoison, 0)
    decodeEnded := true
    queue := r.queue.take i }) s

/-! ## Decoding (R153, R175) -/

/-- The 128-bit word of the operation at a position of the program buffer (R151). -/
def opWord (s : State) (c pos : Nat) : Nat := leNat (s.mem.rdProg c (64 + 16 * pos) 16)

/-- What the fetch engine decodes next, or none past the last operation (R176). -/
def nextOp (s : State) (c : Nat) (r : Run) : Option Decoded :=
  if r.count ≤ r.pos then none else some (decodeOp r.iregs (opWord s c r.pos))

/-- A 32-bit two's-complement register wraps (R156). -/
def wrap32 (x : Int) : Int := signed 32 (unsigned 32 x)

def addRegs (a b : List Int) : List Int := (List.range 7).map fun i => wrap32 (a.getD i 0 + b.getD i 0)

/-- The ends of loop bodies at the decoding position: increments, returns to the start of the body, and restored
registers (R175). `fuel` is more than the depth of the loop stack. -/
def settleLoops : Nat → Run → Run
  | 0, r => r
  | n + 1, r =>
    match r.loops with
    | [] => r
    | f :: fs =>
      if r.pos ≠ f.stop then r
      else if f.left ≤ 1 then settleLoops n { r with loops := fs, iregs := f.saved }
      else { r with iregs := addRegs r.iregs f.incs, pos := f.start, loops := { f with left := f.left - 1 } :: fs }

/-- Decoding goes on after an operation. -/
def advance (r : Run) : Run := settleLoops 5 { r with pos := r.pos + 1 }

/-- A decoded operation enters the execute queue (R104). -/
def enqueue (op : Op) (r : Run) : Run :=
  advance { r with queue := r.queue ++ [{ pos := r.pos, op := op, load := .waiting }] }

/-- The decode of an operation that goes to the execute queue: `sel` accepts the row's own operation, `opc` tells its
opcodes for a word that fails a check. -/
def decodeQueued (c : Nat) (opc : Nat → Bool) (sel : Op → Bool) (s : State) : State :=
  match s.run c with
  | none => s
  | some r =>
    if !r.decodes || decide (16 ≤ r.queue.length) then s else
    match nextOp s c r with
    | some (.ok op) => if sel op then setRun c (enqueue op) s else s
    | some (.bad codes) => if opc (opWord s c r.pos % 256) then decodeError c codes s else s
    | none => s

/-- A reserved opcode is decoded by the row that would decode the word; NOP's row takes it. -/
def isReserved (opc : Nat) : Bool :=
  !([0x00, 0x01, 0x10, 0x11, 0x20, 0x30, 0x50, 0x51, 0x52, 0x60, 0x61, 0x62, 0x63, 0x64, 0x70, 0x71].contains opc ||
    (decide (0x40 ≤ opc) && decide (opc ≤ 0x48)))

/-! ## Issuing (R105, R158) -/

/-- Access by a job of tenant `t` to a row: none when it is allowed, else whether a RESIDENT region of another owner is
in the way (ST_ACCESS_DENIED) or another state (CODE 0x06). -/
inductive Access where
  | ok
  | denied
  | bad
deriving DecidableEq, Repr

def Core.readAccess (k : Core) (t r : Nat) : Access :=
  match k.region (r / 64) with
  | .free => .bad
  | .stream => .ok
  | .work => .ok
  | .resident o => if o = t then .ok else .denied

def Core.writeAccess (k : Core) (t r : Nat) : Access :=
  match k.region (r / 64) with
  | .free => .bad
  | .stream => .bad
  | .work => .ok
  | .resident o => if o = t then .ok else .denied

/-- The first failure over rows read and rows written. -/
def Core.check (k : Core) (t : Nat) (reads writes : List Nat) : Access :=
  match ((reads.map (k.readAccess t)) ++ writes.map (k.writeAccess t)).find? fun a => a ≠ .ok with
  | some a => a
  | none => .ok

/-- Accumulator rows that issued matrix instructions have still to write. -/
def Run.pendingAcc (r : Run) : List Nat := r.array.flatMap fun a => a.m.accRows

def disjoint (a b : List Nat) : Bool := a.all fun x => !b.contains x

/-- The head of the queue, when it is the row's own operation. -/
def headOp (s : State) (c : Nat) (sel : Op → Bool) : Option (Run × QOp) :=
  match s.run c with
  | some r =>
    if !r.issues then none else
    match r.queue with
    | q :: _ => if sel q.op then some (r, q) else none
    | [] => none
  | none => none

def popHead (c : Nat) (s : State) : State := setRun c (fun r => { r with queue := r.queue.drop 1 }) s

/-- The final read of a streaming region under a LAST flag returns its credit (R94, R157). -/
def returnLast (c : Nat) (rows : List Nat) (s : State) : State :=
  updCore s c fun k => k.setRegions ((regionsOf rows).filter fun r => k.region r = .stream) .free

/-- The check of R158 of an operation at the head of the queue, found when it reaches it (R159): the state in which the
job has failed, if it fails. -/
def headCheck (c : Nat) (r : Run) (q : QOp) (s : State) : Option State :=
  match (s.core c).check r.owner q.op.reads q.op.writes with
  | .denied => some (setRun c (failRun St.accessDenied 0) s)
  | .bad => some (issueError c q.pos 0x06 s)
  | .ok => none

/-- The common part of issuing an operation that reads and writes scratchpad rows. It is checked under R158 when it is at
the head of the queue (R159), waits for presence and for the accumulator, and then runs `f` with the poison its reads
carry. Rows it writes lose their presence bits first; a poisoned read ends the job after it (R105, R116). -/
def issueRows (c : Nat) (sel : Op → Bool) (acc : Op → List Nat) (f : QOp → Bool → State → State) (s : State) : State :=
  match headOp s c sel with
  | none => s
  | some (r, q) =>
    let k := s.core c
    match headCheck c r q s with
    | some t => t
    | none =>
      if !k.allPresent q.op.reads || !disjoint (acc q.op) r.pendingAcc then s else
      let p := k.poisoned q.op.reads
      let s := popHead c s
      let s := updCore s c fun k => k.clearPresence q.op.writes
      let s := f q p s
      let s := returnLast c q.op.lastRows s
      let s := if p then raisePoison c 0 s else s
      s.spend

/-- Does the core run, keep or await a part of job `n`? -/
def Core.runs (k : Core) (n : Nat) : Bool := k.run.any fun r => r.job = n
def Core.keeps (k : Core) (n : Nat) : Bool := k.kept.any fun x => x.run.job = n
def Core.awaits (k : Core) (n : Nat) : Bool := k.assigned.any fun x => x.1 = n

/-! ## The end of a job (R113, R116, R174, R176) -/

/-- The job has reached its suspension point: everything it holds is kept (R112). -/
def settleSuspend (c : Nat) (s : State) : State :=
  match s.run c with
  | none => s
  | some r =>
    if !r.suspending || !r.quiet then s else
    let s := updCore s c fun k => { k with
      run := none
      kept := some {
        run := { r with suspending := false }
        regions := k.heldRegions
        acc := k.acc
        plane0 := k.plane0
        plane1 := k.plane1
        prog := s.mem.rdProg c 0 16384 } }
    let j := s.job r.job
    if j.gang.all (fun g => !(s.core g.1).runs r.job && !(s.core g.1).awaits r.job) then
      let s := setJob s r.job fun j => { j with state := .suspended, ran := j.ran + (s.ns - j.start) }
      settleLong (.job r.job) 0x18 (markLong (.job r.job) true s)
    else s

/-- The job may end: it reached END, or its failure has left nothing outstanding. -/
def Run.ends (r : Run) : Bool := r.queue.isEmpty && r.quiet && (r.ending.isSome || r.ended)

/-- The regions at the end of a job, of those it holds: WORK regions that RESIDE marked become RESIDENT after ST_OK, the
rest return to FREE, their presence bits cleared unless the job ended with ST_OK; UNRESIDE's regions are released (R113,
R174). -/
def endRegions (c : Nat) (r : Run) (held : List Nat) (ok : Bool) (s : State) : State :=
  let k := s.core c
  let keep := held.filter fun x => ok && r.reside.contains x && k.region x = .work
  let back := held.filter fun x => !keep.contains x
  let s := updCore s c fun k => (k.setRegions keep (.resident r.owner)).setRegions back .free
  let s := if ok then s else updCore s c fun k => k.clearPresence (back.flatMap rowsOfRegion)
  let gone := r.unreside.filter fun x => (s.core c).region x = .resident r.owner
  releaseRegions c gone s

/-- A core that is in no partition any more gives up, once no job is on it, the residency held there (R108, R293). -/
def leavePartition (c : Nat) (s : State) : State :=
  let k := s.core c
  if (s.lfl.tenants.any fun t => t.2.cores.getLsbD c) || k.run.isSome || k.kept.isSome || k.assigned.isSome then s
  else releaseRegions c ((List.range 16).flatMap fun t => residentOf k t) s

/-- A suspended job on a core ends: what it kept returns. -/
def dropKept (c : Nat) (st : BitVec 16) (s : State) : State :=
  match (s.core c).kept with
  | none => s
  | some x =>
    let s := endRegions c x.run x.regions false s
    let s := leavePartition c (updCore s c fun k => { k with kept := none })
    coreReport x.run.job c st 0 s

/-- Every core of a job's gang that runs it, holds it kept, or has it assigned, behaves as under a cancel (R113, R316). -/
def cancelCores (n : Nat) (st : BitVec 16) (s : State) : State :=
  (List.range 64).foldl (fun s c =>
    let k := s.core c
    if k.runs n then setRun c (fun r => failRun st 0 { r with suspending := false }) s
    else if k.keeps n then dropKept c st s
    else if k.awaits n then coreReport n c st 0 (leavePartition c (updCore s c fun k => { k with assigned := none }))
    else s) s

/-- A core reports, and where it failed the rest of the gang is cancelled. -/
def reportEnd (n c : Nat) (st : BitVec 16) (detail : Word) (s : State) : State :=
  let s := coreReport n c st detail s
  if st = St.ok then s else cancelCores n st s

/-- The core ends its job with a status. -/
def endRun (c : Nat) (s : State) : State :=
  match s.run c with
  | none => s
  | some r =>
    let st := match r.ending with
      | some e => e
      | none => (St.ok, (0 : Word))
    let s := endRegions c r (s.core c).heldRegions (st.1 = St.ok) s
    let s := updCore s c fun k => { k with run := none }
    let s := leavePartition c s
    reportEnd r.job c st.1 st.2 s

/-- A fence or a domain reset ends whatever the core has of jobs with a status at once; the core's own state goes with
`resetCore`. -/
def killCore (c : Nat) (st : BitVec 16) (s : State) : State :=
  let k := s.core c
  let s := updCore s c fun k => { k with run := none, kept := none, assigned := none }
  let s := match k.run with
    | some r => reportEnd r.job c st 0 s
    | none => s
  let s := match k.kept with
    | some x => reportEnd x.run.job c st 0 s
    | none => s
  match k.assigned with
  | some a => reportEnd a.1 c st 0 s
  | none => s

end Sys2Proof.Machine
end

