-- ==== Sys2Proof/Machine/CoreFetch.lean ====
section
/-! DEFINITION. A job on a core and the operations of the fetch engine (chapters 03 and 05): start, program load, decode of
END, NOP, FETCH, FWAIT, LOOP and SETI, the landing of rows, credit stall, the end of the job. -/

namespace Sys2Proof.Machine

open Sys2Proof Numeric

/-! ## Start and load (R152, R153) -/

/-- A job as it starts on a core. -/
def newRun (job owner : Nat) (image : DWord) : Run := {
  job := job
  owner := owner
  image := image
  phase := .loading
  count := 0
  workset := 0
  init := []
  pos := 0
  iregs := List.replicate 7 0
  loops := []
  decodeEnded := false
  suspending := false
  ended := false
  queue := []
  nextPlane := 0
  array := []
  transfers := []
  nextXfer := 0
  stores := []
  signals := []
  reside := []
  unreside := []
  ending := none }

/-- The job that Liftline assigned starts: the owner changes if needed, with the scrub of R109, and the load begins. -/
def startJob (c : Nat) (s : State) : State :=
  match (s.core c).assigned with
  | none => s
  | some (job, owner, image) =>
    let s := if (s.core c).owner = owner then s else scrubCore c owner s
    let stops := (s.longWaiters (.job job)).any fun w => w.2 = 0x18
    settleSuspend c (updCore s c fun k => { k with
      assigned := none
      run := some { newRun job owner image with suspending := stops }
      errIndex := 0
      errCode := 0
      errValid := false })

/-- The core may start its assigned job: it is in service and idle, and a suspended job on it has the same owner (R112). -/
def canStart (s : State) (c : Nat) : Bool :=
  let k := s.core c
  coreUp s c && k.run.isNone &&
  match k.assigned with
  | none => false
  | some (_, owner, _) => match k.kept with
    | none => true
    | some x => x.run.owner = owner

def execJobStart (core : CoreId) (s : State) : Out := whenRunning s (canStart s core) (startJob core)

/-- A source of bytes: DRAM by device address, or shared SRAM by byte offset. -/
inductive Place2 where
  | dram (a : Nat)
  | sram (a : Nat)
deriving DecidableEq, Repr

/-- The place that an image address names, or none when it breaks the layout of R152. -/
def imagePlace (s : State) (owner : Nat) (img : DWord) : Option Place2 :=
  let v := img.toNat
  if v < 2 ^ 63 then (if v % 64 = 0 then some (.dram v) else none)
  else if v % 64 = 0 ∧ v / 2 ^ 26 % 2 ^ 37 = 0 then some (.sram (4096 * (s.tenant owner).base.toNat + v % 2 ^ 26)) else none

/-- The owner may read `n` bytes there (R162). -/
def mayReadPlace (s : State) (owner : Nat) (p : Place2) (n : Nat) : Bool :=
  match p with
  | .dram a => mayReadDram s owner a n
  | .sram a => maySram s owner a n

def placeRows (s : State) (p : Place2) (rows : Nat) : List RowData :=
  (List.range rows).map fun i => match p with
    | .dram a => dramRow s (a + 64 * i)
    | .sram a => sramRow s (a + 64 * i)

/-- The load ends the job before any operation runs (R152). -/
def loadFails (c : Nat) (st : BitVec 16) (detail : Word) (s : State) : State := setRun c (failRun st detail) s

def loadPoisoned (c : Nat) (s : State) : State :=
  loadFails c St.dataPoison 0 (updCore s c fun k => { k with fault := { k.fault with poison := true } })

/-- Every region of the working set is FREE, or RESIDENT to the owner (R93). -/
def worksetOk (k : Core) (owner workset : Nat) : Bool :=
  (List.range 128).all fun r => !bit workset r || k.region r = .free || k.region r = .resident owner

/-- The program image lands (R151, R152). -/
def landProgram (c : Nat) (r : Run) (s : State) : State :=
  match imagePlace s r.owner r.image with
  | none => loadFails c St.accessDenied 0 s
  | some p =>
    if !mayReadPlace s r.owner p 64 then loadFails c St.accessDenied 0 s else
    let head := (placeRows s p 1).getD 0 { data := [], poison := true }
    if head.poison then loadPoisoned c s else
    match parseHeader head.data with
    | none =>
      let s := updCore s c (recordError 0x3FF 0x0B)
      loadFails c St.programError (progDetail c 0x3FF 0x0B) s
    | some h =>
      let n := imageBytes h.count
      if !mayReadPlace s r.owner p n then loadFails c St.accessDenied 0 s else
      let rows := placeRows s p (n / 64)
      if rows.any (·.poison) then loadPoisoned c s
      else if !worksetOk (s.core c) r.owner h.workset then loadFails c St.accessDenied 0 s
      else
        let s := setMems s fun m => m.wrProg c 0 (rows.flatMap (·.data))
        setRun c (fun r => { r with phase := .loaded, count := h.count, workset := h.workset, init := h.init }) s

/-- The regions of a RESIDE_LOAD land (R533). -/
def landReside (c : Nat) (r : Run) (first count addr : Nat) (s : State) : State :=
  let k := s.core c
  let rs := (List.range count).map fun i => first + i
  if rs.any (fun x => k.region x ≠ .free && k.region x ≠ .resident r.owner) then loadFails c St.accessDenied 0 s
  else if 96 < residentCount k + rs.countP (fun x => k.region x = .free) then loadFails c St.residentLimit 0 s
  else if !mayReadDram s r.owner addr (4096 * count) then loadFails c St.accessDenied 0 s
  else
    let rows := (List.range (64 * count)).map fun i => (64 * first + i, dramRow s (addr + 64 * i))
    let s := rows.foldl (fun s x => putRow c x.1 x.2.data x.2.poison s) s
    let s := updCore s c fun k => k.setRegions rs (.resident r.owner)
    if rows.any (fun x => x.2.poison) then loadPoisoned c s
    else setRun c (fun r => { r with decodeEnded := true, ended := true }) s

def execProgramLoadLand (core : CoreId) (s : State) : Out :=
  whenRunning s (coreUp s core && (s.run core).any fun r => r.phase = .loading && r.ending.isNone && !r.ended) fun s =>
    match s.run core with
    | none => s
    | some r =>
      (match (s.job r.job).kind with
      | .resideLoad first count addr => landReside core r first count addr s
      | _ => landProgram core r s).spend

/-- The working set enters WORK, the index registers take INIT, and decoding begins (R153). -/
def execJobFirstDecode (core : CoreId) (s : State) : Out :=
  whenRunning s (coreUp s core && (s.run core).any fun r => r.phase = .loaded && r.ending.isNone) fun s =>
    match s.run core with
    | none => s
    | some r =>
      let s := updCore s core fun k =>
        k.setRegions ((List.range 128).filter fun x => bit r.workset x && k.region x = .free) .work
      setRun core (fun r => { r with phase := .running, iregs := r.init, loops := [], nextPlane := 0, pos := 0 }) s

/-! ## END and the end of the job (R176) -/

/-- END is decoded, or decoding passes the last operation. -/
def decodeEnd (c : Nat) (s : State) : State :=
  match s.run c with
  | none => s
  | some r =>
    if !r.decodes || decide (16 ≤ r.queue.length) then s else
    let put := setRun c (fun r => { r with
      queue := r.queue ++ [{ pos := r.pos, op := .endOp, load := .waiting }]
      decodeEnded := true }) s
    match nextOp s c r with
    | none => put
    | some (.ok .endOp) => put
    | some (.ok _) => s
    | some (.bad codes) => if opWord s c r.pos % 256 = 0x00 then decodeError c codes s else s

def execEndOp (core : CoreId) (ph : Phase) (s : State) : Out :=
  whenRunning s (coreUp s core) fun s =>
    match ph with
    | .decode => decodeEnd core s
    | .issue => match headOp s core (· == .endOp) with
      | some _ => setRun core (fun r => { r with ended := true }) (popHead core s)
      | none => s

def execJobComplete (core : CoreId) (s : State) : Out :=
  whenRunning s (coreUp s core && (s.run core).any Run.ends) (endRun core)

def execNop (core : CoreId) (ph : Phase) (s : State) : Out :=
  whenRunning s (coreUp s core) fun s =>
    match ph with
    | .decode => decodeQueued core (fun o => o = 0x01 || isReserved o) (· == .nop) s
    | .issue => match headOp s core (· == .nop) with
      | some _ => popHead core s
      | none => s

/-! ## FETCH (R94 to R101, R158, R161, R162) -/

/-- The format's tile size in bytes (R56, R224). -/
def tileBytes (fmt : Nat) : Nat := if fmt = 1 ∨ fmt = 2 then 2048 else 4096

/-- The set of a tile holds the core (R224). -/
def setHas (p : GdlPass) (l : LayerRec) (t c : Nat) : Bool := bit (p.sets.getD (l.set0 + t % max 1 l.nsets) 0) c

/-- Tiles of a layer from tile `t0` on that go to the core. -/
def tilesLeft (p : GdlPass) (l : LayerRec) (c t0 : Nat) : Nat :=
  ((List.range l.nsets).map fun j =>
    let first := t0 + (j + l.nsets - t0 % l.nsets) % l.nsets
    if setHas p l first c ∧ first < l.ntiles then (l.ntiles - 1 - first) / l.nsets + 1 else 0).sum

/-- The layer that brings row `skip` of those that are still to come to the core on a channel: `from_` is the first tile
of the first layer in the list. -/
def layerAfter (p : GdlPass) (c chan : Nat) : Nat → Nat → List LayerRec → Option LayerRec
  | _, _, [] => none
  | skip, from_, l :: r =>
    let rows := if l.chan = chan then tilesLeft p l c from_ * (tileBytes l.tfmt / 64) else 0
    if skip < rows then some l else layerAfter p c chan (skip - rows) 0 r

/-- Rows that the core's posted fetches on a channel still take. -/
def unfilledRows (r : Run) (chan : Nat) : Nat :=
  ((r.transfers.filter fun x => x.f.kind = 2 ∧ x.f.src = chan).map fun x => x.rows.countP fun d => d.isNone).sum

/-- The first tile of a pass that has not left for the core's half: in the delivery buffer, or the next to be read. -/
def nextTileFor (s : State) (key : Nat) (p : GdlPass) (c chan : Nat) : Nat × Nat :=
  (s.gdl.buffer.filterMap fun e => e.2).foldl (fun m b =>
    if b.pass = key ∧ (b.waiting.any fun w => w.1 = coreHalf c) ∧ (p.layers[b.layer]?.any fun l => l.chan = chan) ∧
        (b.layer < m.1 ∨ (b.layer = m.1 ∧ b.tile < m.2)) then (b.layer, b.tile) else m) (p.layer, p.tile)

/-- The layer whose tiles a new FETCH of the core on a channel will take, from the pass of its job. A channel of KV images
has none (R342). -/
def layerOn (s : State) (c : Nat) (r : Run) (chan : Nat) : Option LayerRec :=
  match s.gdl.passes.find? fun p => p.2.job = r.job && p.2.layers.any fun l => l.chan = chan && decide (0 < l.ntiles) with
  | none => none
  | some (key, p) =>
    let at_ := nextTileFor s key p c chan
    layerAfter p c chan (unfilledRows r chan) at_.2 (p.layers.drop at_.1)

/-- What is wrong with a FETCH at decode: a status, or a CODE. -/
inductive FetchFault where
  | status (st : BitVec 16)
  | code (n : Nat)
deriving DecidableEq, Repr

def fetchFaults (s : State) (c : Nat) (r : Run) (f : FetchOp) : List FetchFault :=
  let k := s.core c
  let rows := rowsOf f.dst 1 1 f.rows
  let src := 64 * f.src
  let n := 64 * f.rows
  let denied := rows.any fun x => match k.region (x / 64) with
    | .resident o => o ≠ r.owner
    | _ => false
  (if denied then [.status St.accessDenied] else []) ++
  (if f.kind = 0 then (if maySram s r.owner src n then [] else [.status St.accessDenied])
   else if f.kind = 1 then
     match entryOf s src n with
     | none => [.status St.accessDenied]
     | some e =>
       (if mayReadDram s r.owner src n then [] else [.status St.accessDenied]) ++
       (if (s.region e).comp && (src % 2048 != 0 || n % 2048 != 0) then [.code 0x04] else [])
   else if f.kind = 2 then
     match layerOn s c r f.src with
     | none => []
     | some l => if n % tileBytes l.tfmt = 0 then [] else [.code 0x05]
   else
     let from_ := f.src % 64
     if !coreExists s from_ then [.status St.noSuchUnit]
     else if coreFenced s from_ then [.status St.unitFenced] else [])

/-- The regions a FETCH must claim: those of its rows outside the working set and the owner's residency (R158). -/
def streamTargets (k : Core) (r : Run) (f : FetchOp) : List Nat :=
  (regionsOf (rowsOf f.dst 1 1 f.rows)).filter fun x => match k.region x with
    | .work => false
    | .resident o => o ≠ r.owner
    | _ => true

/-- Rows that a queued operation has still to read: its own operands, and the tile, scale vector and delta list of a
matrix instruction whose plane load has not read them (R96). -/
def QOp.toRead (q : QOp) : List Nat :=
  q.op.reads ++ match q.op with
    | .matmul m => if q.load = .waiting then m.loadRows else []
    | _ => []

/-- The FETCH can proceed: a transfer is free, every target region is FREE, and earlier operations have read the
working-set rows it replaces (R96, R98). -/
def fetchReady (k : Core) (r : Run) (f : FetchOp) : Bool :=
  let targets := streamTargets k r f
  let held := (rowsOf f.dst 1 1 f.rows).filter fun x => !targets.contains (x / 64)
  decide (r.transfers.length < 32) && targets.all (fun x => k.region x = .free) &&
  r.queue.all fun q => disjoint held q.toRead

/-- One source row as it stands. -/
def sourceRow (s : State) (f : FetchOp) (i : Nat) : RowData :=
  if f.kind = 0 then sramRow s (64 * (f.src + i))
  else if f.kind = 1 then dramRow s (64 * (f.src + i))
  else
    let c := f.src % 64
    let row := f.src / 64 + i
    { data := rowBytes s c row, poison := (s.core c).poison.getLsbD row }

/-- Claims the credits and issues the transfer. Each row of shared SRAM or DRAM is read at an instant between here and its
landing that is not fixed (R100): some rows are read now, by free bits. -/
def issueFetch (c : Nat) (r : Run) (f : FetchOp) (s : State) : State :=
  let k := s.core c
  let targets := streamTargets k r f
  let rows := (List.range f.rows).map fun i =>
    if f.kind ≤ 1 ∧ s.fbit i then some (sourceRow s f i) else none
  let x : Transfer := {
    num := r.nextXfer
    f := f
    landed := 0
    rows := rows
    streaming := !targets.isEmpty }
  let s := updCore s c fun k => (k.setRegions targets .stream).clearPresence
    (targets.flatMap rowsOfRegion ++ rowsOf f.dst 1 1 f.rows)
  let s := setRun c (fun r => advance { r with transfers := r.transfers ++ [x], nextXfer := r.nextXfer + 1 }) s
  conserve 0x01 c (s.core c).credits s.spend

def decodeFetchOp (c : Nat) (r : Run) (f : FetchOp) (s : State) : State :=
  match fetchFaults s c r f with
  | [] => if fetchReady (s.core c) r f then issueFetch c r f s else s
  | fs =>
    match s.pick 0 (.code 0x05) fs with
    | .status st => (setRun c (failDecode st 0) s).spend
    | .code n => decodeError c [n] s

def execFetch (core : CoreId) (s : State) : Out :=
  whenRunning s (coreUp s core) fun s =>
    match s.run core with
    | none => s
    | some r =>
      if !r.decodes then s else
      match nextOp s core r with
      | some (.ok (.fetch f)) => decodeFetchOp core r f s
      | some (.bad codes) => if opWord s core r.pos % 256 = 0x10 then decodeError core codes s else s
      | _ => s

/-! ## Rows land (R100, R101, R115, R116) -/

/-- What the next row of a transfer brings: nothing yet, a row, or the status with which the job ends. -/
inductive Arrival where
  | waits
  | row (r : RowData)
  | fails (st : BitVec 16)
deriving DecidableEq, Repr

def arrival (s : State) (r : Run) (x : Transfer) : Arrival :=
  if x.f.kind = 2 then
    match x.rows.getD x.landed none with
    | some d => .row d
    | none => .waits
  else if x.f.kind = 3 then
    let from_ := x.f.src % 64
    if coreFenced s from_ then .fails St.unitFenced
    else if !coreUp s from_ || (s.core from_).owner ≠ r.owner then .fails St.accessDenied
    else .row (sourceRow s x.f x.landed)
  else match x.rows.getD x.landed none with
    | some d => .row d
    | none =>
      if x.f.kind = 1 ∧ (s.dom (groupDom s (64 * (x.f.src + x.landed)))).state = .retain then .waits
      else .row (sourceRow s x.f x.landed)

/-- The scratchpad's check of the landed row (R115, R118). -/
def rowFinding (c row : Nat) (f : Finding) (s : State) : State :=
  match f with
  | .clean => s
  | .corrected => updCore s c fun k => { k with ceCount := satUp k.ceCount 1, ceBank := BitVec.ofNat 4 (row % 16) }
  | .uncorrectable => updCore s c fun k => { k with
      ueCount := satUp k.ueCount 1
      ueRows := insertSorted row k.ueRows
      fault := { k.fault with bank := BitVec.ofNat 4 (row % 16) } }

/-- Blocks of a compressed region that a FETCH brings pass an Expander or bypass it (R212, R238): counted with the
block's first row. -/
def countFetched (x : Transfer) (s : State) : State :=
  let a := 64 * (x.f.src + x.landed)
  if x.f.kind ≠ 1 ∨ a % 2048 ≠ 0 then s else
  match entryOf s a 64 with
  | none => s
  | some e => if (s.region e).comp then { s with gdl := countBlock s.gdl (readBlock s e a).2 } else s

/-- A transfer after a row: it leaves the list with its last row. -/
def putTransfer (x : Transfer) (l : List Transfer) : List Transfer :=
  if x.landed = x.f.rows then l.filter fun y => y.num ≠ x.num else l.map fun y => if y.num = x.num then x else y

def setTransfer (c : Nat) (x : Transfer) (s : State) : State :=
  setRun c (fun r => { r with transfers := putTransfer x r.transfers }) s

/-- One row lands, or is discarded when the job is ending. -/
def landRow (c : Nat) (r : Run) (x : Transfer) (d : RowData) (f : Finding) (s : State) : State :=
  let row := x.f.dst + x.landed
  let s := countFetched x s
  let s := if r.cancelling then s else
    rowFinding c row f (putRow c row d.data (d.poison || f = .uncorrectable) s)
  settleSuspend c (setTransfer c { x with landed := x.landed + 1 } s)

def execFetchRowLand (core : CoreId) (xfer : Nat) (f : Finding) (s : State) : Out :=
  whenRunning s (coreUp s core) fun s =>
    match s.run core with
    | none => s
    | some r =>
      match r.transfers.find? fun x => x.num = xfer with
      | none => s
      | some x =>
        match arrival s r x with
        | .waits => if r.cancelling ∧ x.f.kind = 2 then setTransfer core { x with landed := x.f.rows } s else s
        | .row d => (landRow core r x d f s).spend
        | .fails st =>
          settleSuspend core (setTransfer core { x with landed := x.f.rows } (setRun core (failRun st 0) s))

/-! ## FWAIT, LOOP, SETI (R172, R175) -/

def Core.counter (k : Core) (i : Nat) : BitVec 16 := Tab.get 0 k.sync i
def Core.setCounter (k : Core) (i : Nat) (v : BitVec 16) : Core := { k with sync := Tab.set 0 k.sync i v }

/-- Subtracts THRESH from a counter that has reached it. -/
def Core.consume (k : Core) (i n : Nat) : Core := k.setCounter i (BitVec.ofNat 16 ((k.counter i).toNat - n))

/-- The decode of an operation that the fetch engine runs itself. -/
def decodeOwn (c opc : Nat) (f : Op → Run → State → State) (s : State) : State :=
  match s.run c with
  | none => s
  | some r =>
    if !r.decodes then s else
    match nextOp s c r with
    | some (.ok op) => f op r s
    | some (.bad codes) => if opWord s c r.pos % 256 = opc then decodeError c codes s else s
    | none => s

def execFwait (core : CoreId) (s : State) : Out :=
  whenRunning s (coreUp s core) <| decodeOwn core 0x11 fun op _ s =>
    match op with
    | .fwait ctr thresh =>
      if thresh ≤ ((s.core core).counter ctr).toNat
      then setRun core advance (updCore s core fun k => k.consume ctr thresh)
      else s
    | _ => s

/-- LOOP, with the checks the fetch engine makes: depth and the end of the body. -/
def runLoop (c count body : Nat) (incs : List Int) (r : Run) (s : State) : State :=
  if 4 ≤ r.loops.length ∨ r.count < r.pos + 1 + body then decodeError c [0x08] s
  else if count = 0 then setRun c (fun r => settleLoops 5 { r with pos := r.pos + 1 + body }) s
  else setRun c (fun r => { r with
    loops := { start := r.pos + 1, stop := r.pos + 1 + body, left := count, incs := incs, saved := r.iregs } :: r.loops
    pos := r.pos + 1 }) s

def execLoop (core : CoreId) (s : State) : Out :=
  whenRunning s (coreUp s core) <| decodeOwn core 0x70 fun op r s =>
    match op with
    | .loop count body incs => runLoop core count body incs r s
    | _ => s

def execSeti (core : CoreId) (s : State) : Out :=
  whenRunning s (coreUp s core) <| decodeOwn core 0x71 fun op _ s =>
    match op with
    | .seti reg v => setRun core (fun r => advance { r with
        iregs := if reg = 0 then r.iregs else r.iregs.set (reg - 1) v }) s
    | _ => s

/-! ## Credit stall (R97) -/

/-- The fetch engine waits for a credit: the next operation is a FETCH whose target regions are not all FREE. -/
def waitsForCredit (s : State) (c : Nat) (r : Run) : Bool :=
  r.decodes && match nextOp s c r with
    | some (.ok (.fetch f)) => (streamTargets (s.core c) r f).any fun x => (s.core c).region x ≠ .free
    | _ => false

/-- The head of the queue cannot issue for lack of presence: its own rows, or the rows of its plane load. -/
def headLacks (k : Core) (r : Run) : Bool :=
  match r.queue with
  | [] => false
  | q :: _ => !k.allPresent q.toRead

def execCreditStall (core : CoreId) (s : State) : Out :=
  whenRunning s (coreUp s core && (s.run core).any fun r => waitsForCredit s core r && r.quiet && headLacks (s.core core) r)
    fun s =>
      let s := updCore s core fun k => { k with fault := { k.fault with creditStall := true } }
      setRun core (failRun St.creditStall 0) s

end Sys2Proof.Machine
end

