-- ==== Sys2Proof/Machine/CoreExec.lean ====
section
/-! DEFINITION. Operations of the execute engine that move data and synchronise (chapter 05): STORE, MOVE, TRANSPOSE,
WAIT, SIGNAL, FENCE, RESIDE and UNRESIDE; the fencing of a core (R117); the registers of a core window that have a row. -/

namespace Sys2Proof.Machine

open Sys2Proof Numeric

/-! ## STORE (R163) -/

def isStore : Op → Bool
  | .store _ => true
  | _ => false

/-- The destination lies in the ranges permitted to the owner (R163, R205). -/
def storeAllowed (s : State) (owner : Nat) (st : StoreOp) : Bool :=
  if st.kind = 0 then decide (st.dst + st.rows ≤ 2 ^ 20) && maySram s owner (64 * st.dst) (64 * st.rows)
  else mayWriteDram s owner (64 * st.dst) (64 * st.rows)

/-- One line of a STORE becomes visible. -/
def storeLine (kind : Nat) (s : State) (x : Nat × RowData) : State :=
  if kind = 0 then writeSram s x.1 x.2 else writeLine s x.1 x.2

/-- The rows leave the core. Which lines are visible before the acknowledgement is not fixed: some become visible now,
by free bits. -/
def runStore (c : Nat) (st : StoreOp) (s : State) : State :=
  let lines := (List.range st.rows).map fun i =>
    (64 * (st.dst + i), ({ data := rowBytes s c (st.src + i), poison := (s.core c).poison.getLsbD (st.src + i) } : RowData))
  let now := ((List.range st.rows).zip lines).filter fun x => s.fbit x.1
  let later := ((List.range st.rows).zip lines).filter fun x => !s.fbit x.1
  let s := (now.map (·.2)).foldl (storeLine st.kind) s
  setRun c (fun r => { r with stores := r.stores ++ [{ kind := st.kind, lines := later.map (·.2) }] }) s

/-- STORE at the head of the queue: presence, region check, destination check, then its rows leave. -/
def issueStore (c : Nat) (s : State) : State :=
  match headOp s c isStore with
  | none => s
  | some (r, q) =>
    match q.op with
    | .store st =>
      if (s.core c).allPresent q.op.reads && (s.core c).check r.owner q.op.reads [] = .ok && !storeAllowed s r.owner st
      then setRun c (failRun St.accessDenied 0) s
      else issueRows c isStore (fun _ => []) (fun _ _ s => runStore c st s) s
    | _ => s

def execStore (core : CoreId) (ph : Phase) (s : State) : Out :=
  whenRunning s (coreUp s core) fun s =>
    match ph with
    | .decode => decodeQueued core (· = 0x52) isStore s
    | .issue => issueStore core s

/-- The oldest STORE to each destination: acknowledgements of one destination keep the order of issue (R30). -/
def ackable (l : List StoreOut) : List StoreOut :=
  (l.filter fun x => x.kind = 0).take 1 ++ (l.filter fun x => x.kind ≠ 0).take 1

/-- Every byte of a STORE is visible, and it is acknowledged. -/
def execStoreAck (core : CoreId) (s : State) : Out :=
  whenRunning s ((s.run core).any fun r => !r.stores.isEmpty) fun s =>
    match s.run core with
    | none => s
    | some r =>
      let x := s.pick 0 { kind := 0, lines := [] } (ackable r.stores)
      let s := x.lines.foldl (storeLine x.kind) s
      settleSuspend core (setRun core (fun r => { r with stores := r.stores.erase x }) s).spend

/-! ## MOVE and TRANSPOSE (R170) -/

def isMove : Op → Bool
  | .move _ => true
  | _ => false

def isTranspose : Op → Bool
  | .transpose _ => true
  | _ => false

/-- Every source row is copied to the destination row of the same number. -/
def runMove (c : Nat) (m : MoveOp) (p : Bool) (s : State) : State :=
  let rows := (List.range m.count).map fun i => (m.dst + i * m.dstride, rowBytes s c (m.src + i * m.sstride))
  rows.foldl (fun s x => putRow c x.1 x.2 p s) s

/-- The 64 × 64 block is gathered whole and its transpose written. -/
def runTranspose (c : Nat) (m : MoveOp) (p : Bool) (s : State) : State :=
  let w := m.esize + 1
  let block := (List.range 64).map fun i => rowsBytes s c (m.src + i * m.sstride) (64 * w)
  let rows := (List.range 64).map fun j =>
    (m.dst + j * m.dstride, block.flatMap fun b => (b.drop (w * j)).take w)
  rows.foldl (fun s x => putRows c x.1 x.2 p w s) s

def execMove (core : CoreId) (ph : Phase) (s : State) : Out :=
  whenRunning s (coreUp s core) fun s =>
    match ph with
    | .decode => decodeQueued core (· = 0x50) isMove s
    | .issue => issueRows core isMove (fun _ => []) (fun q p s => match q.op with
        | .move m => runMove core m p s
        | _ => s) s

def execTranspose (core : CoreId) (ph : Phase) (s : State) : Out :=
  whenRunning s (coreUp s core) fun s =>
    match ph with
    | .decode => decodeQueued core (· = 0x51) isTranspose s
    | .issue => issueRows core isTranspose (fun _ => []) (fun q p s => match q.op with
        | .transpose m => runTranspose core m p s
        | _ => s) s

/-! ## WAIT and SIGNAL (R171, R172) -/

def isWait : Op → Bool
  | .wait _ _ => true
  | _ => false

def isSignal : Op → Bool
  | .signal _ _ _ => true
  | _ => false

def issueWait (c : Nat) (s : State) : State :=
  match headOp s c isWait with
  | some (_, { op := .wait ctr thresh, .. }) =>
    if thresh ≤ ((s.core c).counter ctr).toNat
    then popHead c (updCore s c fun k => k.consume ctr thresh)
    else s
  | _ => s

def execWait (core : CoreId) (ph : Phase) (s : State) : Out :=
  whenRunning s (coreUp s core) fun s =>
    match ph with
    | .decode => decodeQueued core (· = 0x60) isWait s
    | .issue => issueWait core s

/-- SIGNAL checks its target and sends its increment. -/
def issueSignal (c : Nat) (s : State) : State :=
  match headOp s c isSignal with
  | some (_, { op := .signal target ctr inc, .. }) =>
    if !coreExists s target then setRun c (failRun St.noSuchUnit 0) s
    else if coreFenced s target then setRun c (failRun St.unitFenced 0) s
    else setRun c (fun r => { r with
      signals := r.signals ++ [{ target := target, ctr := ctr, inc := inc, arrived := false }] }) (popHead c s)
  | _ => s

def execSignal (core : CoreId) (ph : Phase) (s : State) : Out :=
  whenRunning s (coreUp s core) fun s =>
    match ph with
    | .decode => decodeQueued core (· = 0x61) isSignal s
    | .issue => issueSignal core s

/-- The increments that may arrive next: the oldest on its way to each target (R30). -/
def arriving : List Nat → List SignalOut → List SignalOut
  | _, [] => []
  | seen, x :: r =>
    if x.arrived ∨ seen.contains x.target then arriving seen r else x :: arriving (x.target :: seen) r

/-- Marks the first signal equal to `x` as arrived. -/
def markArrived (x : SignalOut) : List SignalOut → List SignalOut
  | [] => []
  | y :: r => if y = x then { y with arrived := true } :: r else y :: markArrived x r

/-- An increment of the sending core arrives at its target: it is applied, or dropped for a changed owner or a fence, and
a drop ends the sender's job. -/
def execSignalIncrementArrive (core : CoreId) (s : State) : Out :=
  whenRunning s ((s.run core).any fun r => r.signals.any fun x => !x.arrived) fun s =>
    match s.run core with
    | none => s
    | some r =>
      let x := s.pick 0 { target := 0, ctr := 0, inc := 0, arrived := true } (arriving [] r.signals)
      let s := setRun core (fun r => { r with signals := markArrived x r.signals }) s
      let s := if coreFenced s x.target then setRun core (failRun St.unitFenced 0) s
        else if (s.core x.target).owner ≠ r.owner then setRun core (failRun St.accessDenied 0) s
        else updCore s x.target fun k => k.setCounter x.ctr (satUp (k.counter x.ctr) x.inc)
      s.spend

/-- The acknowledgement of the oldest increment that has arrived returns. -/
def execSignalAck (core : CoreId) (s : State) : Out :=
  whenRunning s ((s.run core).any fun r => r.signals.any fun x => x.arrived) fun s =>
    settleSuspend core (setRun core (fun r => { r with signals := r.signals.eraseP fun x => x.arrived }) s)

/-! ## FENCE, RESIDE, UNRESIDE (R173, R174) -/

/-- Every earlier operation has made its last write and every earlier STORE is acknowledged. -/
def fenceReady (r : Run) : Bool := r.array.isEmpty && r.stores.isEmpty

def execFence (core : CoreId) (ph : Phase) (s : State) : Out :=
  whenRunning s (coreUp s core) fun s =>
    match ph with
    | .decode => decodeQueued core (· = 0x62) (· == .fence) s
    | .issue => match headOp s core (· == .fence) with
      | some (r, _) => if fenceReady r then popHead core s else s
      | none => s

def isReside : Op → Bool
  | .reside _ _ => true
  | _ => false

def isUnreside : Op → Bool
  | .unreside _ _ => true
  | _ => false

def rangeOf (first count : Nat) : List Nat := (List.range count).map fun i => first + i

/-- The first failure over a range of regions: `work` tells whether a WORK region is accepted. -/
def rangeCheck (k : Core) (owner : Nat) (work : Bool) (rs : List Nat) : Access :=
  match (rs.map fun r => match k.region r with
    | .resident o => if o = owner then Access.ok else .denied
    | .work => if work then .ok else .bad
    | _ => .bad).find? fun a => a ≠ .ok with
  | some a => a
  | none => .ok

def issueReside (c : Nat) (s : State) : State :=
  match headOp s c isReside with
  | some (r, { op := .reside first count, pos := pos, .. }) =>
    let k := s.core c
    let rs := rangeOf first count
    let marks := (r.reside ++ rs.filter fun x => k.region x = .work).eraseDups
    match rangeCheck k r.owner true rs with
    | .denied => setRun c (failRun St.accessDenied 0) s
    | .bad => issueError c pos 0x06 s
    | .ok =>
      if 96 < residentCount k + marks.length then setRun c (failRun St.residentLimit 0) s
      else setRun c (fun r => { r with reside := marks }) (popHead c s)
  | _ => s

def execReside (core : CoreId) (ph : Phase) (s : State) : Out :=
  whenRunning s (coreUp s core) fun s =>
    match ph with
    | .decode => decodeQueued core (· = 0x63) isReside s
    | .issue => issueReside core s

/-- A region of the working set is released at the end of the job, another at once. -/
def issueUnreside (c : Nat) (s : State) : State :=
  match headOp s c isUnreside with
  | some (r, { op := .unreside first count, pos := pos, .. }) =>
    let k := s.core c
    let rs := rangeOf first count
    match rangeCheck k r.owner false rs with
    | .denied => setRun c (failRun St.accessDenied 0) s
    | .bad => issueError c pos 0x06 s
    | .ok =>
      let later := rs.filter fun x => bit r.workset x
      let now := rs.filter fun x => !bit r.workset x
      let s := releaseRegions c now (popHead c s)
      setRun c (fun r => { r with unreside := (r.unreside ++ later).eraseDups }) s
  | _ => s

def execUnreside (core : CoreId) (ph : Phase) (s : State) : Out :=
  whenRunning s (coreUp s core) fun s =>
    match ph with
    | .decode => decodeQueued core (· = 0x64) isUnreside s
    | .issue => issueUnreside core s

/-! ## Fencing a core (R41, R42, R117) -/

/-- A core leaves service: it leaves every partition, and its domain is reset and turned OFF. -/
def takeOut (c : Nat) (s : State) : State :=
  let s := resetCore c s
  let s := { s with fences := { s.fences with cores := s.fences.cores ||| BitVec.ofNat 64 (2 ^ c) } }
  let s := (List.range 16).foldl (fun s t => setTenant s t fun x => { x with cores := x.cores &&& ~~~(BitVec.ofNat 64 (2 ^ c)) }) s
  setDom s c fun d => { d with state := .off, target := .off, busy := false, pend := none, reset := false }

/-- A core is fenced: its job ends with ST_UNIT_FENCED, it leaves service, and PF0 gets the reclaim report and the notice. -/
def fenceCore (c : Nat) (s : State) : State :=
  let held := (s.core c).credits.held
  let s := takeOut c (killCore c St.unitFenced s)
  postEvent 0 (evUnitNotice 1 c) (postReclaim c [(0x01, c, held)] s)

/-- The cause of a self-fence holds, and its mark in CORE_FAULT (R117, R118). -/
def fenceCauseHolds (k : Core) : FenceCause → Bool
  | .ctrl _ => true
  | .bank b => decide (2 ≤ k.ueRows.countP fun r => r % 16 = b.toNat)
  | .rate _ => true

def markFault (cause : FenceCause) (f : CoreFault) : CoreFault :=
  match cause with
  | .ctrl b => { f with ueCtrl := true, bank := b }
  | .bank b => { f with ueBank := true, bank := b }
  | .rate _ => { f with ceRate := true }

def execCoreSelfFence (core : CoreId) (cause : FenceCause) (s : State) : Out :=
  whenRunning s (coreUp s core && fenceCauseHolds (s.core core) cause) fun s =>
    fenceCore core (updCore s core fun k => { k with fault := markFault cause k.fault })

/-! ## Registers of a core window (R82, R119, R150) -/

/-- SPM_REGION_STAT of a region (R119). -/
def regionStat (s : State) (c r : Nat) : Word :=
  let k := s.core c
  let conf := isConf s k.owner
  let rows := rowsOfRegion r
  let st := match k.region r with
    | .free => 0
    | .stream => 1
    | .work => 2
    | .resident _ => 3
  let owner := match k.region r with
    | .resident o => o
    | _ => k.owner
  BitVec.ofNat 32 (pack [(st, 0), (if conf then 0 else ofBool (k.poisoned rows), 2), (owner, 4),
    (if conf then 0 else rows.countP k.present, 8)])

/-- A write of SPM_REGION_SEL. -/
def regionSelWrite (core : Nat) (v : Word) (s : State) : State :=
  let stat := regionStat s core (bits32 v 0 7)
  updCore s core fun k => { k with regionSel := BitVec.ofNat 7 (bits32 v 0 7), regionStat := stat }

def execSpmRegionSelWrite (fn : Fn) (core : CoreId) (v : Word) (s : State) : Out :=
  regWrite s (pf0Open s fn && coreUp s core) (regionSelWrite core v)

/-- CLEAR of CORE_NUM_CLR. -/
def clearNumeric (core : Nat) (s : State) : State :=
  updCore s core fun k => { k with outSat := 0, accSat := 0, nonfinite := 0, fmtErr := 0 }

def execCoreNumClrWrite (fn : Fn) (core : CoreId) (v : Word) (s : State) : Out :=
  regWrite s (coreWindowOpen s fn core && bit32 v 0) (clearNumeric core)

/-- CLEAR of ARR_STAT_CLR. -/
def clearArray (core : Nat) (s : State) : State :=
  updCore s core fun k => { k with deltaSkip := 0, ramps := 0 }

def execArrStatClrWrite (fn : Fn) (core : CoreId) (v : Word) (s : State) : Out :=
  regWrite s (coreWindowOpen s fn core && bit32 v 0) (clearArray core)

end Sys2Proof.Machine
end

