-- ==== Sys2Proof/Machine/Bridge.lean ====
section
/-! DEFINITION. Bridges and audit (chapter 01): replay of flits, fencing of lane groups and halves, and the audit snapshot. -/

namespace Sys2Proof.Machine

open Sys2Proof

/-! ## Bridges (R22, R24, R26, R42, R45) -/

/-- Lane groups of a bridge: 0 is C0-M, 1 C1-M, 2 X-M. -/
def laneGroups (bridge : Nat) : Nat := if bridge = 2 then 4 else 8

def laneFenced (s : State) (bridge lane : Nat) : Bool :=
  match bridge with
  | 0 => s.fences.brC0.getLsbD lane
  | 1 => s.fences.brC1.getLsbD lane
  | _ => s.fences.brX.getLsbD lane

def workingLanes (s : State) (bridge : Nat) : List Nat :=
  (List.range (laneGroups bridge)).filter fun l => !laneFenced s bridge l

/-- The lane group on which a flit is sent again: a working one, which one is open; none where no group works. -/
def replayLane (s : State) (bridge i : Nat) : Option Nat :=
  match workingLanes s bridge with
  | [] => none
  | l => some (s.pick i 0 l)

def moveFlit (lane : Nat) (dest : Option Nat) : List Flit → List Flit
  | [] => []
  | f :: r => if f.lane = some lane then { lane := dest } :: r else f :: moveFlit lane dest r

/-- The flit that lane group `lane` spoiled goes again on a working one. Its credit stays held; a flit that the sender's
replay buffer does not list yet enters it with its credit. -/
def replayFlit (dir lane : Nat) (s : State) : State :=
  let dest := replayLane s (dir / 2) 0
  { s with bridges := s.bridges.modify dir fun b =>
      if b.replay.any fun f => f.lane = some lane then { b with replay := moveFlit lane dest b.replay }
      else if b.credits.free = 0 then b
      else { b with credits := b.credits.take 1, replay := b.replay ++ [{ lane := dest }] } }

def execFlitReplay (dir : Fin 6) (lane : Fin 8) (s : State) : Out :=
  whenRunning s ((workingLanes s (dir / 2)).contains lane.val) fun s => (replayFlit dir lane s).spend

/-- The receiver accepts the replayed flits of a direction intact: their credits return (R24). Time brings this about. -/
def BridgeDir.accept (b : BridgeDir) : BridgeDir :=
  let n := b.replay.countP fun f => f.lane.isSome
  { credits := b.credits.give n, replay := b.replay.filter fun f => f.lane.isNone }

def fenceLane (bridge lane : Nat) (f : Fences) : Fences :=
  match bridge with
  | 0 => { f with brC0 := f.brC0 ||| BitVec.ofNat 8 (2 ^ lane) }
  | 1 => { f with brC1 := f.brC1 ||| BitVec.ofNat 8 (2 ^ lane) }
  | _ => { f with brX := f.brX ||| BitVec.ofNat 4 (2 ^ lane) }

/-- A half is fenced as a whole: its bridge's lane groups and every core of it (R26, R45). -/
def fenceHalf (h : Nat) (s : State) : State :=
  let s := { s with fences := { s.fences with
    half := s.fences.half ||| BitVec.ofNat 2 (2 ^ h)
    brC0 := if h = 0 then 0xFF else s.fences.brC0
    brC1 := if h = 1 then 0xFF else s.fences.brC1 } }
  ((List.range 64).filter fun c => coreHalf c = h && coreExists s c && !coreFenced s c).foldl (fun s c => fenceCore c s) s

def rerouteFlit (lane : Nat) (dest : Option Nat) (f : Flit) : Flit := if f.lane = some lane then { lane := dest } else f

/-- Both directions of a bridge send the flits of a fenced lane group again on the others. -/
def rerouteFlits (bridge lane : Nat) (s : State) : State :=
  let move := fun b : BridgeDir => { b with replay := b.replay.map (rerouteFlit lane (replayLane s bridge 1)) }
  { s with bridges := (s.bridges.modify (2 * bridge) move).modify (2 * bridge + 1) move }

def execLaneGroupFence (bridge : Fin 3) (lane : Fin 8) (s : State) : Out :=
  whenRunning s ((workingLanes s bridge).contains lane.val) fun s =>
    let s := { s with fences := fenceLane bridge lane s.fences }
    let s := rerouteFlits bridge lane s
    let s := postEvent 0 (evUnitNotice 3 (Config.laneNumber bridge lane)) s
    let s := if (workingLanes s bridge).isEmpty && decide (bridge.val < 2) then fenceHalf bridge s else s
    s.spend

/-! ## The audit registers (R46, R51) -/

/-- Expander table slots that are in use: they load, hold blocks, or a build holds them. -/
def TableSlot.inUse (t : TableSlot) : Bool := t.use != 0 || t.loading || t.held

def tablePool (s : State) : Pool :=
  let n := s.gdl.slots.countP fun e => e.2.inUse
  { total := 4, free := 4 - n, held := n }

def Port.pool (p : Port) : Pool :=
  { total := p.total, free := (p.accts.map (·.free)).sum, held := (p.accts.map (·.held)).sum }

/-- The slots pool of the queue that holds a global index; an index that no queue holds reads zero. -/
def ringPool (s : State) (g : Nat) : Pool :=
  match (s.pci.funcs.flatMap fun f => f.2.queues).find? fun q => q.2.state ≠ .none && q.2.globalIdx = g with
  | some q => q.2.slots
  | none => Pool.whole 0

/-- The pool instance that a selection names (R51). -/
def poolOf (s : State) (pool inst : Nat) : Option Pool :=
  match pool with
  | 1 => if coreExists s inst then some (s.core inst).credits else none
  | 2 => if inst < 6 then some (s.bridges.getD inst (BridgeDir.init 0)).credits else none
  | 3 => if inst < 7 then some (s.ddr.ports.getD inst (Port.init inst)).pool else none
  | 4 => some (ringPool s inst)
  | 5 => if inst = 0 then some s.sfe.pool else none
  | 6 => if inst = 0 then some s.lfl.kvPool else none
  | 7 => if inst < 8 then some (tablePool s) else none
  | 8 => if 1 ≤ inst ∧ inst ≤ 15 then some (s.tenant inst).ledger else none
  | 9 => if inst = 0 then some s.pwr.energy else none
  | _ => none

/-- A write of AUD_SELECT. -/
def audSelectWrite (v : Word) (s : State) : State :=
  let found := poolOf s (bits32 v 0 8) (bits32 v 8 8)
  let p := found.getD (Pool.whole 0)
  { s with audit := { s.audit with
    pool := BitVec.ofNat 8 (bits32 v 0 8)
    inst := BitVec.ofNat 8 (bits32 v 8 8)
    total := BitVec.ofNat 64 p.total
    free := BitVec.ofNat 64 p.free
    held := BitVec.ofNat 64 p.held
    valid := true
    badSelect := found.isNone } }

def execAudSelectWrite (fn : Fn) (v : Word) (s : State) : Out := regWrite s (pf0Open s fn) (audSelectWrite v)

end Sys2Proof.Machine
end

