-- ==== Sys2Proof/Machine/Gondola.lean ====
section
/-! DEFINITION. Gondola (chapter 07): the region registers, the tile stream with its delivery buffer, the Expanders and their
table slots, deadlines and the snowplough path. -/

namespace Sys2Proof.Machine

open Sys2Proof Numeric

/-! ## Versions by handle (R298) -/

def State.version (s : State) (e : Nat) : Version := Tab.get Version.free s.lfl.versions e

def setVersion (s : State) (e : Nat) (f : Version → Version) : State :=
  { s with lfl := { s.lfl with versions := Tab.upd Version.free s.lfl.versions e f } }

/-- The entry of a handle, if it is in use and the generation is the entry's. -/
def handleEntry (s : State) (h : Nat) : Option Nat :=
  let e := h % 1024
  if e ≠ 0 ∧ (s.version e).state ≠ 0 ∧ (s.version e).gen.toNat = h / 1024 then some e else none

def versionOf (s : State) (h : Nat) : Version := s.version (h % 1024)

/-- The handle of an entry. -/
def handleOf (s : State) (e : Nat) : Nat := e + 1024 * (s.version e).gen.toNat

/-! ## The region registers (R204, R206, R207, R433, R441) -/

def inSpan (r : RegionEntry) (a : Nat) : Bool := decide (r.lo ≤ a) && decide (a < r.hi)

/-- An image address, FETCH or STORE range of a running or kept job lies in a span. -/
def runNames (r : RegionEntry) (x : Run) : Bool :=
  inSpan r x.image.toNat ||
  (x.transfers.any fun y => y.f.kind = 1 && inSpan r (64 * y.f.src)) ||
  (x.stores.any fun y => y.kind = 1 && y.lines.any fun l => inSpan r l.1)

/-- A job, pass, ingest or table build names an address under region entry `e` (R207). -/
def regionBusy (s : State) (e : Nat) : Bool :=
  let r := s.region e
  r.size != 0 &&
  ((s.cores.any fun c => (c.2.run.any (runNames r)) || (c.2.kept.any fun k => runNames r k.run) ||
      c.2.assigned.any fun a => inSpan r a.2.2.toNat) ||
    (s.lfl.jobs.any fun j => (j.2.gang.any fun g => inSpan r g.2.toNat) ||
      match j.2.kind with
      | .pass h seqs => (versionOf s h).region = e || s.lfl.requests.any fun x => seqs.any (fun q => q.req = x.1) &&
          (inSpan r ((s.tenant x.2.tenant).area.toNat * 2 ^ 21) || (versionOf s x.2.main).region = e ||
            (versionOf s x.2.draft).region = e)
      | .resideLoad _ _ a => inSpan r a
      | _ => false) ||
    (s.gdl.passes.any fun p => (versionOf s p.2.handle).region = e) ||
    (s.lfl.ingests.any fun i => i.2.dst = e || i.2.stg = e) ||
    (s.gdl.builds.any fun b => (versionOf s b.handle).region = e) ||
    (s.lfl.versions.any fun v => v.2.state ≠ 0 && v.2.region = e))

/-- What DDR_RGN_SPAN and DDR_RGN_ATTR read for an entry. -/
def regionSpan (r : RegionEntry) : Word := BitVec.ofNat 32 (pack [(r.base.toNat, 0), (r.size.toNat, 16)])
def regionAttr (r : RegionEntry) : DWord := BitVec.ofNat 64 (pack [(r.type.toNat, 0), (ofBool r.compress, 3),
  (ofBool r.prot, 4), (r.owner.toNat, 8), (r.key.toNat, 12), (r.readers.toNat, 33)])

/-- The entry that the two registers describe, with PROTECTED forced where R206 requires it. -/
def newRegion (s : State) : RegionEntry :=
  let span := s.gdl.rgnSpan
  let attr := s.gdl.rgnAttr
  let type := bits64 attr 0 3
  let owner := bits64 attr 8 4
  let force := isConf s owner && (type = 2 || type = 3 || type = 4)
  { base := BitVec.ofNat 16 (bits32 span 0 16)
    size := BitVec.ofNat 16 (bits32 span 16 16)
    type := BitVec.ofNat 3 type
    compress := bits64 attr 3 1 = 1
    prot := bits64 attr 4 1 = 1 || force
    owner := BitVec.ofNat 4 owner
    key := BitVec.ofNat 7 (bits64 attr 12 7)
    readers := BitVec.ofNat 15 (bits64 attr 33 15) }

/-- A combination of fields that R204, R206 or R433 does not allow. -/
def badRegion (s : State) (r : RegionEntry) : Bool :=
  r.type = 0 || decide (5 < r.type.toNat) || (r.owner = 0 && r.type ≠ 1) || (r.compress && (r.type ≠ 1 || r.prot)) ||
  !(keySlot s r.key.toNat).live || (keySlot s r.key.toNat).owner ≠ r.owner

def overlaps (s : State) (e : Nat) (r : RegionEntry) : Bool :=
  s.gdl.regions.any fun x => x.1 != e && x.2.size != 0 && decide (r.lo < x.2.hi) && decide (x.2.lo < r.hi)

/-- A locked tenant's region entry would change (R441). -/
def regionLocked (s : State) (e : Nat) (r : RegionEntry) : Bool :=
  tdiLocked s (s.region e).owner.toNat || tdiLocked s r.owner.toNat

def applyRefused (s : State) (e : Nat) (r : RegionEntry) : Bool :=
  regionBusy s e ||
  (if r.size = 0 then tdiLocked s (s.region e).owner.toNat
   else regionLocked s e r || badRegion s r || overlaps s e r || decide (usable s < r.base.toNat + r.size.toNat))

/-- The entry that an APPLY installs: an entry of size 0 is disabled. -/
def installed (r : RegionEntry) : RegionEntry := if r.size = 0 then RegionEntry.none else r

def setRegionEntry (e : Nat) (r : RegionEntry) (s : State) : State :=
  { s with gdl := { s.gdl with regions := Tab.set RegionEntry.none s.gdl.regions e r } }

/-- A write of DDR_RGN_SEL. -/
def regionSelect (v : Word) (s : State) : State :=
  let e := bits32 v 0 8
  let s := { s with gdl := { s.gdl with rgnSel := BitVec.ofNat 8 e } }
  if bit32 v 8 then
    let r := newRegion s
    if applyRefused s e r then { s with gdl := { s.gdl with rgnErr := true } }
    else setRegionEntry e (installed r) { s with gdl := { s.gdl with rgnErr := false } }
  else { s with gdl := { s.gdl with rgnSpan := regionSpan (s.region e), rgnAttr := regionAttr (s.region e) } }

def execRegionApply (fn : Fn) (v : Word) (s : State) : Out := regWrite s (pf0Open s fn) (regionSelect v)

/-! ## Passes and sets (R224 to R228) -/

def State.pass (s : State) (p : Nat) : GdlPass := Tab.get GdlPass.none s.gdl.passes p

def setPass (p : Nat) (f : GdlPass → GdlPass) (s : State) : State :=
  { s with gdl := { s.gdl with passes := Tab.upd GdlPass.none s.gdl.passes p f } }

def State.buf (s : State) (e : Nat) : Option BufEntry := Tab.get none s.gdl.buffer e

def setBuf (e : Nat) (b : Option BufEntry) (s : State) : State :=
  { s with gdl := { s.gdl with buffer := Tab.set none s.gdl.buffer e b } }

def LayerRec.none : LayerRec :=
  { block0 := 0, ntiles := 0, tfmt := 0, chan := 0, set0 := 0, nsets := 1, fbElig := false, dfrac := 0, fbOff := 0 }

def GdlPass.layerAt (p : GdlPass) (l : Nat) : LayerRec := p.layers.getD l LayerRec.none

/-- The cores in service of the set that a tile goes to, on one half. -/
def setCores (s : State) (p : GdlPass) (l t h : Nat) : List Nat :=
  let r := p.layerAt l
  let set := p.sets.getD (r.set0 + t % max 1 r.nsets) 0
  (List.range 64).filter fun c => bit set c && coreHalf c = h && coreUp s c

/-- The halves that hold cores of the set. -/
def setHalves (s : State) (p : GdlPass) (l t : Nat) : List Nat :=
  [0, 1].filter fun h => !(setCores s p l t h).isEmpty

/-- Blocks of a tile of the layer (R224). -/
def LayerRec.blocks (r : LayerRec) : Nat := if r.tfmt = 1 ∨ r.tfmt = 2 then 1 else 2

/-- The device address of block `i` of a tile. -/
def LayerRec.blockAddr (r : LayerRec) (t i : Nat) : Nat := 2048 * (r.block0 + t * r.blocks + i)

/-- The header lines kept: the last 64 read, most recent first (R211). -/
def keepHeader (l : Nat) (cache : List Nat) : List Nat := (l :: cache.filter fun x => x ≠ l).take 64

/-- A block as its DRAM reads leave it in the delivery buffer, and its count when it needs no Expander. -/
def fetchBlock (s : State) (a : Nat) : BlockState × Option BlockCount :=
  let raw := (List.range 32).map fun i => readLine s (a + 64 * i)
  match entryOf s a 2048 with
  | none => (.ready (poisonedBlock s a), none)
  | some e =>
    if !(s.region e).comp then (.ready raw, some .raw) else
    match blockHeader s e a with
    | none => (.ready (poisonedBlock s a), some .error)
    | some h =>
      if h.raw then (.ready raw, some .raw)
      else
        let handle := match versionIn s e with
          | some v => handleOf s v.1
          | none => 0
        (.coded handle h.table ((List.range h.len).map fun i => readLine s (a + 64 * i)) h.crc, none)

/-- The header line that a block's read uses, in a compressed region. -/
def headerLine (s : State) (a : Nat) : Option Nat :=
  match entryOf s a 2048 with
  | none => none
  | some e =>
    if (s.region e).comp then some (((s.region e).headers + 8 * ((a - (s.region e).lo) / 2048)) / 64 * 64) else none

def noteBlock (a : Nat) (c : Option BlockCount) (s : State) : State :=
  let s := match headerLine s a with
    | some l => { s with gdl := { s.gdl with headerCache := keepHeader l s.gdl.headerCache } }
    | none => s
  match c with
  | some c => { s with gdl := countBlock s.gdl c }
  | none => s

/-- The pass goes on to its next tile. -/
def nextTile (p : GdlPass) : GdlPass :=
  if p.tile + 1 < (p.layerAt p.layer).ntiles then { p with tile := p.tile + 1 }
  else { p with layer := p.layer + 1, tile := 0 }

/-- A free entry of the delivery buffer. -/
def freeEntry (s : State) : Option Nat := firstFree (fun e => (s.buf e).isSome) 128

/-- The read of the pass's next tile starts. -/
def startTile (p e : Nat) (s : State) : State :=
  let g := s.pass p
  let l := g.layerAt g.layer
  let addrs := (List.range l.blocks).map (l.blockAddr g.tile)
  let got := addrs.map fun a => (a, fetchBlock s a)
  let b : BufEntry := {
    pass := p
    layer := g.layer
    tile := g.tile
    blocks := got.map fun x => x.2.1
    complete := false
    waiting := (setHalves s g g.layer g.tile).map fun h => (h, 0)
    fallback := [] }
  let s := got.foldl (fun s x => noteBlock x.1 x.2.2 s) s
  let s := setBuf e (if b.waiting.isEmpty then none else some b) s
  setPass p nextTile s

/-- 4 KiB of an image stream enter the buffer, complete. -/
def startImages (p e : Nat) (s : State) : State :=
  let g := s.pass p
  let b : BufEntry := {
    pass := p
    layer := 0
    tile := g.tile
    blocks := [.ready (g.images.take 64)]
    complete := true
    waiting := (setHalves s g 0 g.tile).map fun h => (h, 0)
    fallback := [] }
  let s := setBuf e (if b.waiting.isEmpty then none else some b) s
  setPass p (fun g => { g with images := g.images.drop 64, tile := g.tile + 1 }) s

/-- The arbiter grants an entry to a pass that has something left to read (R36, R227). -/
def execTileReadStart (pass : Nat) (s : State) : Out :=
  whenRunning s (domUp s 0x70) fun s =>
    match freeEntry s with
    | none => s
    | some e =>
      let g := s.pass pass
      let s' := if !g.images.isEmpty then startImages pass e s
        else if g.layer < g.layers.length ∧ g.tile < (g.layerAt g.layer).ntiles then startTile pass e s else s
      if s' = s then s else ({ s' with gdl := { s'.gdl with rrPass := pass + 1 } }).spend

/-! ## Table slots and Expanders (R219 to R222) -/

def State.slot (s : State) (i : Nat) : TableSlot := Tab.get TableSlot.none s.gdl.slots i

def setSlot (i : Nat) (f : TableSlot → TableSlot) (s : State) : State :=
  { s with gdl := { s.gdl with slots := Tab.upd TableSlot.none s.gdl.slots i f } }

/-- The slot whose tag is a version's handle and a table. -/
def slotOf (s : State) (handle table : Nat) : Option Nat :=
  (List.range 4).find? fun i => (s.slot i).tag = some (handle, table)

def slotFree (t : TableSlot) : Bool := t.use = 0 && !t.loading && !t.held

/-- The least recently used of some slots. -/
def oldestSlot (s : State) (l : List Nat) : Option Nat :=
  l.foldl (fun m i => match m with
    | none => some i
    | some j => if (s.slot i).lastUse < (s.slot j).lastUse then some i else some j) none

/-- The slot that a load takes: an untagged one, else the free slot least recently used. -/
def loadSlot (s : State) : Option Nat :=
  let free := (List.range 4).filter fun i => slotFree (s.slot i)
  match free.find? fun i => (s.slot i).tag = none with
  | some i => some i
  | none => oldestSlot s free

/-- Some coded block of a pass in the delivery buffer names this table; the handle of its version. -/
def wantsTable (s : State) (pass table : Nat) : Option Nat :=
  (s.gdl.buffer.flatMap fun e => match e.2 with
    | some b => if b.pass = pass then b.blocks.filterMap fun x => match x with
        | .coded h t _ _ => if t = table then some h else none
        | _ => none
      else []
    | none => []).head?

/-- The 128 bytes of a table of a version. -/
def recordOf (s : State) (handle table : Nat) : Bytes := tableRecord s (versionOf s handle) table

def execTableSlotLoad (pass : Nat) (table : Byte) (s : State) : Out :=
  whenRunning s (domUp s 0x70) fun s =>
    match wantsTable s pass table.toNat with
    | none => s
    | some h =>
      if (slotOf s h table.toNat).isSome then s else
      match loadSlot s with
      | none => s
      | some i => (setSlot i (fun t => { t with
          tag := some (h, table.toNat)
          loading := true
          record := recordOf s h table.toNat }) s).spend

def execTableSlotLoadDone (slot : Fin 4) (s : State) : Out :=
  whenRunning s (s.slot slot).loading fun s => setSlot slot (fun t => { t with loading := false }) s

def State.expander (s : State) (i : Nat) : List ExpBlock := Tab.get [] s.gdl.expanders i

def setExpander (i : Nat) (l : List ExpBlock) (s : State) : State :=
  { s with gdl := { s.gdl with expanders := Tab.set [] s.gdl.expanders i l } }

/-- Block `blk` of an entry, if it is coded and its table's slot is loaded. -/
def queueable (s : State) (entry blk : Nat) : Option (BufEntry × ExpBlock) :=
  match s.buf entry with
  | none => none
  | some b =>
    match b.blocks.getD blk .inExpander with
    | .coded h t lines crc =>
      match slotOf s h t with
      | none => none
      | some i =>
        if (s.slot i).loading then none
        else some (b, { entry := entry, blk := blk, pass := b.pass, layer := b.layer, tile := b.tile, slot := i, lines := lines,
                        crc := crc })
    | _ => none

/-- An Expander with room takes the block, by round robin; the slot's use count rises. -/
def execExpanderBlockAccept (entry : Fin 128) (blk : Fin 2) (s : State) : Out :=
  whenRunning s (domUp s 0x70) fun s =>
    match queueable s entry blk with
    | none => s
    | some (b, x) =>
      match roundRobin 8 s.gdl.rrExp fun i => decide ((s.expander i).length < 2) with
      | none => s
      | some i =>
        let s := setExpander i (s.expander i ++ [x]) s
        let s := setSlot x.slot (fun t => { t with use := t.use + 1, lastUse := s.gdl.useClock }) s
        let s := setBuf entry (some { b with blocks := b.blocks.set blk .inExpander }) s
        { s with gdl := { s.gdl with rrExp := (i + 1) % 8, useClock := s.gdl.useClock + 1 } }

/-- What a decode delivers (R216), and what it counts. -/
def decodeBlock (s : State) (x : ExpBlock) : List RowData × BlockCount :=
  let bad := (List.range 32).map fun i => ({ data := noise s (64 * i) 64, poison := true } : RowData)
  if x.lines.any (·.poison) then (bad, .coded)
  else match Codec.expand (s.slot x.slot).record (x.lines.flatMap (·.data)) x.crc with
    | none => (bad, .error)
    | some out => (toLines 32 out, .coded)

/-- The decoded lines enter the entry that the block came from, if it is still there. -/
def putBlock (x : ExpBlock) (lines : List RowData) (s : State) : State :=
  match s.buf x.entry with
  | none => s
  | some b =>
    if b.pass = x.pass ∧ b.layer = x.layer ∧ b.tile = x.tile
    then setBuf x.entry (some { b with blocks := b.blocks.set x.blk (.ready lines) }) s else s

def execBlockDecodeDone (expander : Fin 8) (s : State) : Out :=
  whenRunning s (domUp s 0x70) fun s =>
    match s.expander expander with
    | [] => s
    | x :: rest =>
      let out := decodeBlock s x
      let s := setExpander expander rest s
      let s := setSlot x.slot (fun t => { t with use := t.use - 1 }) s
      let s := { s with gdl := countBlock s.gdl out.2 }
      (putBlock x out.1 s).spend

/-! ## Completion, deadlines, departure (R225 to R234) -/

def BlockState.isReady : BlockState → Bool
  | .ready _ => true
  | _ => false

/-- The rows of a complete tile or image chunk. -/
def BufEntry.rows (b : BufEntry) : List RowData := b.blocks.flatMap fun x => match x with
  | .ready l => l
  | _ => []

def execTileComplete (entry : Fin 128) (s : State) : Out :=
  whenRunning s (domUp s 0x70) fun s =>
    match s.buf entry with
    | none => s
    | some b => if b.blocks.all BlockState.isReady then setBuf entry (some { b with complete := true }) s else s

/-- A posted FETCH KIND 2 of a channel has rows that no delivery has filled. -/
def unfilled (x : Transfer) : Nat := x.rows.countP fun r => r.isNone

def onChannel (chan : Nat) (x : Transfer) : Bool := x.f.kind = 2 && x.f.src = chan && decide (0 < unfilled x)

/-- Rows that a core's posted fetches on a channel still take. -/
def roomFor (s : State) (c chan : Nat) : Nat :=
  match s.run c with
  | none => 0
  | some r => ((r.transfers.filter (onChannel chan)).map unfilled).sum

/-- Fills the first unfilled rows of a list. -/
def fillRows : List RowData → List (Option RowData) → List (Option RowData)
  | [], l => l
  | d, [] => d.map fun _ => none
  | d :: ds, none :: r => some d :: fillRows ds r
  | d, some x :: r => some x :: fillRows d r

/-- Gives rows to the posted fetches of a channel in order. -/
def fillTransfers (chan : Nat) : List RowData → List Transfer → List Transfer
  | _, [] => []
  | d, x :: r =>
    if onChannel chan x then
      { x with rows := fillRows (d.take (unfilled x)) x.rows } :: fillTransfers chan (d.drop (unfilled x)) r
    else x :: fillTransfers chan d r

def deliver (chan : Nat) (d : List RowData) (s : State) (c : Nat) : State :=
  setRun c (fun r => { r with transfers := fillTransfers chan d r.transfers }) s

/-- Every FETCH posted for the tile accepts a fallback tile, and every tenant with cores of the set on the half uses the
snowplough path (R161, R231). -/
def fallbackApplies (s : State) (g : GdlPass) (l t h : Nat) : Bool :=
  let cores := setCores s g l t h
  let chan := (g.layerAt l).chan
  (g.layerAt l).fbElig &&
  (cores.all fun c => g.snowEn.getLsbD ((s.core c).owner - 1)) &&
  cores.all fun c => match s.run c with
    | none => true
    | some r => match r.transfers.find? (onChannel chan) with
      | some x => x.f.fallback
      | none => true

/-- The half's set holds a core of a confidential tenant: GDL_FB_STAT does not count its deliveries (R238). -/
def confHalf (s : State) (g : GdlPass) (l t h : Nat) : Bool := (setCores s g l t h).any fun c => isConf s (s.core c).owner

def countFallback (s : State) (conf : Bool) : State :=
  if conf then s else { s with gdl := { s.gdl with fallback := wrapUp s.gdl.fallback 1 } }

def countLate (s : State) (conf : Bool) : State :=
  if conf then s else { s with gdl := { s.gdl with late := wrapUp s.gdl.late 1 } }

/-- `n` more rows of an entry have left for a half, of `total`: with the last the half is served, and with the last half
the entry is free. -/
def served (entry : Nat) (b : BufEntry) (h n total : Nat) (s : State) : State :=
  let waiting := b.waiting.filterMap fun w =>
    if w.1 ≠ h then some w else if total ≤ w.2 + n then none else some (w.1, w.2 + n)
  setBuf entry (if waiting.isEmpty then none else some { b with waiting := waiting }) s

/-- A copy leaves for a half: a fallback tile that is ready for it, or the full tile. A tile leaves whole; of an image
stream, what the posted fetches take. -/
def departCopy (entry : Nat) (b : BufEntry) (h sent : Nat) (s : State) : State :=
  let g := s.pass b.pass
  let chan := (g.layerAt b.layer).chan
  let cores := setCores s g b.layer b.tile h
  let room := cores.foldl (fun m c => min m (roomFor s c chan)) 8192
  let fb := Tab.get [] b.fallback h
  let isImage := g.layers.isEmpty || (g.layerAt b.layer).ntiles = 0
  if !fb.isEmpty then
    if fb.length ≤ room then
      let s := cores.foldl (deliver chan fb) s
      let s := countFallback s (confHalf s g b.layer b.tile h)
      served entry b h fb.length fb.length (setPass b.pass (fun g => { g with degraded := true }) s)
    else s
  else if !b.complete then s
  else
    let rows := b.rows.drop sent
    let n := min room rows.length
    if n = 0 ∨ (isImage = false ∧ n < rows.length) then s
    else
      let s := cores.foldl (deliver chan (rows.take n)) s
      let s := if g.late.contains (b.layer, b.tile, h) then countLate s (confHalf s g b.layer b.tile h) else s
      served entry b h n b.rows.length s

/-- An earlier tile of the pass and channel waits for a core that this one goes to: copies keep their order (R225). -/
def behind (s : State) (b : BufEntry) (h : Nat) : Bool :=
  let g := s.pass b.pass
  let cores := setCores s g b.layer b.tile h
  (s.gdl.buffer.filterMap fun e => e.2).any fun x =>
    x.pass = b.pass && (x.waiting.any fun w => w.1 = h) && (g.layerAt x.layer).chan = (g.layerAt b.layer).chan &&
    decide (x.layer < b.layer ∨ (x.layer = b.layer ∧ x.tile < b.tile)) &&
    (setCores s g x.layer x.tile h).any cores.contains

def execTileCopyDepart (entry : Fin 128) (half : HalfId) (s : State) : Out :=
  whenRunning s (domUp s 0x70) fun s =>
    match s.buf entry with
    | none => s
    | some b =>
      match b.waiting.find? fun w => w.1 = half.val with
      | none => s
      | some w =>
        if (setCores s (s.pass b.pass) b.layer b.tile half).isEmpty then served entry b half 0 0 s
        else if behind s b half then s
        else departCopy entry b half w.2 s

/-- The entry that holds a tile of a pass. -/
def tileEntry (s : State) (p l t : Nat) : Option (Nat × BufEntry) :=
  s.gdl.buffer.findSome? fun e => match e.2 with
    | some b => if b.pass = p ∧ b.layer = l ∧ b.tile = t then some (e.1, b) else none
    | none => none

/-- The tile has not come to the delivery buffer yet. -/
def notStarted (g : GdlPass) (l t : Nat) : Bool := decide (g.layer < l) || (g.layer = l && decide (g.tile ≤ t))

/-- The deadline of a tile of the layer, in ns (R229). -/
def tileDeadline (g : GdlPass) (l : Nat) : Nat := g.start + (g.layerAt l).dfrac * g.budget / 65536

/-- The tile is late for the half when its deadline passes (R230). -/
def execTileDeadline (pass : Nat) (layer : Nat) (tile : Nat) (half : HalfId) (s : State) : Out :=
  let g := s.pass pass
  let l := g.layerAt layer
  let open_ := match tileEntry s pass layer tile with
    | some (_, b) => !b.complete && b.waiting.any fun w => w.1 = half.val
    | none => notStarted g layer tile && (setHalves s g layer tile).contains half.val
  whenRunning s (l.fbElig && decide (tile < l.ntiles) && decide (tileDeadline g layer ≤ s.ns) && open_ &&
      !g.late.contains (layer, tile, half.val)) fun s =>
    setPass pass (fun g => { g with late := g.late ++ [(layer, tile, half.val)] }) s

/-- A fallback tile of shared SRAM expanded to the layer's format (R232); a poisoned line poisons it whole. -/
def expandFallback (s : State) (fmt a : Nat) : List RowData :=
  let lines := (List.range 20).map fun i => sramRow s (a + 64 * i)
  let bs := lines.flatMap (·.data)
  let code := fun k n : Nat => (bs.getD (16 * k + n / 4) 0).toNat / 4 ^ (n % 4) % 4
  let level := fun k n : Nat => (bs.getD (1024 + 4 * n + code k n) 0).toNat
  let out : Bytes := if fmt = 1 ∨ fmt = 2 then
      (List.range 2048).map fun i =>
        let k := i / 32
        let n := 2 * (i % 32)
        BitVec.ofNat 8 (level k n % 16 + 16 * (level k (n + 1) % 16))
    else (List.range 4096).map fun i => BitVec.ofNat 8 (level (i / 64) (i % 64))
  (toLines (out.length / 64) out).map fun r => { r with poison := lines.any (·.poison) }

/-- Where fallback tile `t` of a layer lies: the version's fallback units, the layer's area, 20 lines a tile. -/
def fallbackAddr (s : State) (g : GdlPass) (l t : Nat) : Nat :=
  4096 * (versionOf s g.handle).fbUnit + 64 * (g.layerAt l).fbOff + 1280 * t

/-- The fallback tile is read and expanded: it will go to the half in place of the full tile. -/
def execFallbackTileReady (pass : Nat) (layer : Nat) (tile : Nat) (half : HalfId) (s : State) : Out :=
  whenRunning s (domUp s 0x70) fun s =>
    let g := s.pass pass
    match tileEntry s pass layer tile with
    | none => s
    | some (e, b) =>
      if g.late.contains (layer, tile, half.val) && (b.waiting.any fun w => w.1 = half.val) &&
          fallbackApplies s g layer tile half then
        let rows := expandFallback s (g.layerAt layer).tfmt (fallbackAddr s g layer tile)
        setBuf e (some { b with fallback := Tab.set [] b.fallback half rows }) s
      else s

end Sys2Proof.Machine
end

