-- ==== Sys2Proof/Machine/Ddr.lean ====
section
/-! DEFINITION. The DRAM controller (chapter 08): accesses with their tokens and checks, refill, the slot wheel, neighbour
refresh, patrol scrub, retraining, regulator accounts and failing pairs. -/

namespace Sys2Proof.Machine

open Sys2Proof Numeric

def State.chan (s : State) (c : Nat) : Channel := Tab.get Channel.init s.ddr.chans c

def setChan (c : Nat) (f : Channel → Channel) (s : State) : State :=
  { s with ddr := { s.ddr with chans := Tab.upd Channel.init s.ddr.chans c f } }

def State.port (s : State) (p : Nat) : Port := s.ddr.ports.getD p (Port.init p)

def State.acct (s : State) (p a : Nat) : Account := (s.port p).accts.getD a (Account.init p a)

def setPort (p : Nat) (f : Port → Port) (s : State) : State :=
  { s with ddr := { s.ddr with ports := s.ddr.ports.modify p f } }

def setAcct (p a : Nat) (f : Account → Account) (s : State) : State :=
  setPort p (fun x => { x with accts := x.accts.modify a f }) s

def Port.whole (p : Port) : Pool :=
  { total := p.total, free := (p.accts.map (·.free)).sum, held := (p.accts.map (·.held)).sum }

/-- The check of R46 on a port's tokens. -/
def conservePort (p : Nat) (s : State) : State := conserve 0x03 p (s.port p).whole s

/-! ## Failing pairs (R259) -/

/-- The pair's bit is set in DDR_FAIL, and PF0 is told, once. -/
def markFailing (pair : Nat) (s : State) : State :=
  if s.ddr.fail.getLsbD pair then s
  else postEvent 0 (evUnitNotice 2 pair)
    { s with ddr := { s.ddr with fail := s.ddr.fail ||| BitVec.ofNat 16 (2 ^ pair) } }

def chanFails (k : Channel) : Bool := decide (2 ≤ k.ueRows.length) || decide (4096 ≤ k.ceTick)

def execPairFailing (pair : Fin 16) (s : State) : Out :=
  whenRunning s (chanFails (s.chan (2 * pair)) || chanFails (s.chan (2 * pair + 1))) (markFailing pair)

/-! ## Accesses (R244, R245, R250 to R255) -/

/-- The owner of the slot at a wheel position. -/
def slotOwner (k : Channel) (pos : Nat) : Option (Nat × Nat) := Tab.get none k.owners (pos % 64)

/-- An account owns slots. -/
def ownsSlots (a : Account) : Bool := a.mode = 2 && a.slots != 0

/-- One of the three slots after the present one is owned by another account: no activate of this one is issued. -/
def nearOwned (k : Channel) (port acct : Nat) : Bool :=
  [1, 2, 3].any fun i => match slotOwner k (k.wheelPos.toNat + i) with
    | some o => o != (port, acct)
    | none => false

/-- The key of a bank on a channel. -/
def bankKey (rank bank : Nat) : Nat := 16 * rank + bank

/-- The channel is withheld by a retraining. -/
def withheld (s : State) (c : Nat) : Bool :=
  match s.ddr.retrain with
  | some r => !r.suspended && r.chan = c
  | none => false

/-- The account's request is eligible at its channel now. -/
def grantable (s : State) (port acct line k : Nat) : Bool :=
  let a := s.acct port acct
  let pl := place s (64 * line)
  let ch := s.chan pl.chan
  let dom := s.dom (groupDom s (64 * line))
  let hit := Tab.get none ch.openRow (bankKey pl.rank pl.bank) = some pl.row
  let own := slotOwner ch ch.wheelPos.toNat
  decide (1 ≤ k) && decide (line % 4 + k ≤ 4) && decide (line < usable s * 2 ^ 15) &&
  a.mode != 0 && (acct = 0 || port != 6) && decide (k ≤ a.free) &&
  dom.state != .retain && !dom.reset && !withheld s pl.chan &&
  (own = none || own = some (port, acct)) &&
  (hit || (!nearOwned ch port acct && (ownsSlots a || (Tab.get [] ch.nr (bankKey pl.rank pl.bank)).isEmpty)))

/-- The activate of a row: the draw of a neighbour refresh, with probability 2^-(8 + PROB). The LFSR's polynomial is not
given: its next state and the draw are free. -/
def activate (pl : Place) (s : State) : State :=
  let drawn := s.fv 0 % 2 ^ (8 + min 6 s.ddr.prob.toNat) = 0
  let key := bankKey pl.rank pl.bank
  let next := BitVec.ofNat 32 (s.fv 1)
  setChan pl.chan (fun k =>
    let q := Tab.get [] k.nr key
    { k with
      lfsr := next
      openRow := Tab.set none k.openRow key (some pl.row)
      nr := if drawn ∧ q.length < 8 then Tab.set [] k.nr key (q ++ [pl.row]) else k.nr }) s

/-- The check lines kept by a channel: the 16 last used (R245). -/
def keepCheck (g : Nat) (l : List Nat) : List Nat := (g :: l.filter fun x => x ≠ g).take 16

def grantAccess (port acct line k : Nat) (write : Bool) (s : State) : State :=
  let pl := place s (64 * line)
  let hit := Tab.get none (s.chan pl.chan).openRow (bankKey pl.rank pl.bank) = some pl.row
  let s := setAcct port acct (fun a => { a with free := a.free - k, held := a.held + k }) s
  let s := if hit then s else (activate pl s).spend
  let s := setChan pl.chan (fun c => { c with checkCache := keepCheck pl.group c.checkCache, rrPort := (port + 1) % 7 }) s
  let s := { s with ddr := { s.ddr with
    grants := s.ddr.grants ++ [{ port := port, acct := acct, line := line, k := k, write := write }] } }
  conservePort port s

def execDramAccessGrant (port : Fin 7) (acct : Fin 16) (line : Nat) (k : Fin 5) (write : Bool) (s : State) : Out :=
  whenRunning s (grantable s port acct line k) (grantAccess port acct line k write)

/-- A corrected error: its words are counted, and toward the pair's 4,096 in one interval of 1 ms. How many of the line's
eight words were in error is open. -/
def countCe (c i : Nat) (s : State) : State :=
  let n := 1 + s.fv i % 8
  let now := s.ms
  setChan c (fun k => { k with
    ce := satUp k.ce n
    ceTick := (if k.ceTickNo = now then k.ceTick else 0) + n
    ceTickNo := now }) s

/-- An uncorrectable error of a line: it reads poisoned until it is written again. -/
def countUe (a : Nat) (s : State) : State :=
  let pl := place s a
  let s := setChan pl.chan (fun k => { k with
    ue := satUp k.ue 1
    lastUe := BitVec.ofNat 31 (a / 64)
    ueRows := if k.ueRows.contains (pl.rank, pl.bank, pl.row) then k.ueRows else k.ueRows ++ [(pl.rank, pl.bank, pl.row)] }) s
  { s with ddr := { s.ddr with tags := Tab.upd LineTag.init s.ddr.tags (a / 64) fun t => { t with ue := true } } }

/-- What the check of one line that is read finds (R244). -/
def checkLine (a i : Nat) (f : Finding) (s : State) : State :=
  let c := (place s a).chan
  let s := match f with
    | .clean => s
    | .corrected => countCe c i s
    | .uncorrectable => countUe a s
  if f = .uncorrectable || (lineTag s a).poison || !keyMismatch s a then s
  else setChan c (fun k => { k with keyMM := satUp k.keyMM 1 }) s

/-- The first grant of a port. -/
def firstGrant (port : Nat) (l : List Grant) : Option Grant := l.find? fun g => g.port = port

/-- The oldest granted access of a port completes: its lines are checked, and its tokens consumed. In a group that is OFF
or in reset it completes with poisoned data (R255, R258). -/
def completeAccess (g : Grant) (findings : List Finding) (s : State) : State :=
  let dom := s.dom (groupDom s (64 * g.line))
  let s := if g.write || dom.state = .off || dom.reset then s
    else (List.range g.k).foldl (fun s i => checkLine (64 * (g.line + i)) i (findings.getD i .clean) s) s
  let s := setAcct g.port g.acct (fun a => { a with held := a.held - g.k }) s
  let s := setPort g.port (fun p => { p with total := p.total - g.k }) s
  let s := { s with ddr := { s.ddr with grants := s.ddr.grants.erase g } }
  (conservePort g.port s).spend

def execDramAccessComplete (port : Fin 7) (findings : List Finding) (s : State) : Out :=
  whenRunning s (firstGrant port s.ddr.grants).isSome fun s =>
    match firstGrant port s.ddr.grants with
    | some g => completeAccess g findings s
    | none => s

/-! ## Refill (R252, R253, R255) -/

/-- Refill of one cycle, in 1/6,400 of a token. -/
def refillRate (a : Account) : Nat :=
  if a.mode = 0 then 0 else if ownsSlots a then 569 * a.slots.toNat else 100 * a.rate.toNat

/-- A SHARED account that has fewer free tokens than its BURST. -/
def inNeed (s : State) (i : Nat) : Bool :=
  let a := s.acct (i / 16) (i % 16)
  a.mode = 1 && decide (a.free < a.burst.toNat)

def giveToken (p a : Nat) (s : State) : State :=
  setPort p (fun x => { x with total := x.total + 1 }) (setAcct p a (fun x => { x with free := x.free + 1 }) s)

/-- Tokens that a SHARED account cannot take go, one by one, to SHARED accounts in need, in circular order. -/
def spread : Nat → State → State
  | 0, s => s
  | n + 1, s =>
    match roundRobin 112 s.ddr.rrShared (inNeed s) with
    | none => s
    | some i =>
      let s := giveToken (i / 16) (i % 16) s
      spread n { s with ddr := { s.ddr with rrShared := (i + 1) % 112 } }

/-- One account's refill of one cycle. -/
def refillOne (p a : Nat) (s : State) : State :=
  let x := s.acct p a
  let sum := x.frac + refillRate x
  let n := sum / 6400
  let room := x.burst.toNat - x.free
  let take := min n room
  let s := setAcct p a (fun x => { x with frac := sum % 6400, free := x.free + take }) s
  let s := setPort p (fun y => { y with total := y.total + take }) s
  if x.mode = 1 then spread (n - take) s else s

/-- The refill of one cycle of the memory-side fabric, for every account of every port. -/
def execTokenRefill (s : State) : Out :=
  whenRunning s (domUp s 0x70) fun s =>
    let s := (List.range 112).foldl (fun s i => refillOne (i / 16) (i % 16) s) s
    (List.range 7).foldl (fun s p => conservePort p s) s

/-! ## The slot wheel (R254) -/

/-- A channel's wheel goes on by one slot. -/
def execWheelSlot (ch : Fin 32) (s : State) : Out :=
  whenRunning s ((channels s).contains ch.val) (setChan ch fun k => { k with wheelPos := wrapUp k.wheelPos 1 })

/-- The accounts that own slots, each as often as it owns. -/
def slotOwners (s : State) : List (Nat × Nat) :=
  (List.range 112).flatMap fun i =>
    let a := s.acct (i / 16) (i % 16)
    if ownsSlots a then List.replicate a.slots.toNat (i / 16, i % 16) else []

/-- Places owned slots at positions that are a multiple of four apart; which slot of which owner lies where is open. -/
def placeOwners (pick : Nat → Nat) (off : Nat) : Nat → List (Nat × Nat) → List Nat → Tab (Option (Nat × Nat))
  | _, [], _ => []
  | i, o :: r, free =>
    let j := pick i % max 1 free.length
    Tab.set none (placeOwners pick off (i + 1) r (free.eraseIdx j)) ((free.getD j 0) * 4 + off) (some o)

/-- The wheels of every channel after a change of the accounts. -/
def replaceOwners (s : State) : State :=
  let os := slotOwners s
  (channels s).foldl (fun s c =>
    let w := placeOwners (fun i => s.fv (32 * c + i + 1)) (s.fv (32 * c) % 4) 0 os (List.range 16)
    setChan c (fun k => { k with owners := w }) s) s

/-! ## Neighbour refresh, reseeding, patrol (R246, R250) -/

/-- The oldest queued refresh of a bank is issued, in a slot that no account owns. -/
def execNeighbourRefreshIssue (ch : Fin 32) (bank : Fin 16) (s : State) : Out :=
  whenRunning s (domUp s (0x60 + ch / 4) && slotOwner (s.chan ch) (s.chan ch).wheelPos.toNat = none) fun s =>
    match [0, 1].find? fun r => !(Tab.get [] (s.chan ch).nr (bankKey r bank)).isEmpty with
    | none => s
    | some r =>
      let s := setChan ch (fun k => { k with nr := Tab.upd [] k.nr (bankKey r bank) (List.drop 1) }) s
      { s with ddr := { s.ddr with nrCount := wrapUp s.ddr.nrCount 1 } }

/-- Every 1 ms the LFSRs take new seeds from the random number generator. -/
def execLfsrReseed (seeds : List Word) (s : State) : Out :=
  whenRunning s true fun s =>
    (List.range 32).foldl (fun s c => setChan c (fun k => { k with lfsr := seeds.getD c k.lfsr }) s) s

/-- The patrol scrub's reads: the lines in which it found an error, by line number. -/
def execPatrolScrub (findings : List (Nat × Finding)) (s : State) : Out :=
  whenRunning s (s.ddr.patrolH != 0) fun s =>
    let s := (findings.zipIdx.filter fun x => domUp s (groupDom s (64 * x.1.1))).foldl
      (fun s x => checkLine (64 * x.1.1) x.2 x.1.2 s) s
    { s with ddr := { s.ddr with lastPatrol := s.ns } }.spend

/-! ## Retraining (R247 to R249, R259) -/

/-- The channels that a retraining visits: those in service whose group is ON. -/
def trainable (s : State) : List Nat := (channels s).filter fun c => domUp s (0x60 + c / 4)

/-- The highest junction temperature that the sensors gave. -/
def junction (s : State) : Int := s.pwr.temps.foldl max (s.pwr.temps.headD s.ddr.lastTemp)

/-- A retraining starts with its first channel. -/
def startRetrain (cmd : Option (Nat × Sub)) (s : State) : State :=
  { s with ddr := { s.ddr with retrain := some { chan := (trainable s).headD 32, suspended := false, cmd := cmd } } }

/-- A retraining is due: it starts, or waits for the one in work. -/
def dueRetrain (s : State) : State :=
  if s.ddr.retrain.isSome then { s with ddr := { s.ddr with retrainDue := true } } else startRetrain none s

def execRetrainPeriodExpiry (s : State) : Out :=
  whenRunning s (s.ddr.periodS != 0 && decide (s.ddr.lastTrain + s.ddr.periodS.toNat * 10 ^ 9 ≤ s.ns)) dueRetrain

def execTempDeltaRetrain (s : State) : Out :=
  whenRunning s (s.ddr.tempDelta != 0 && decide (s.ddr.tempDelta.toNat ≤ (junction s - s.ddr.lastTemp).natAbs)) dueRetrain

/-- Codes of a run from `a` to `b`. -/
def runLen (a b : BitVec 7) : Nat := b.toNat + 1 - a.toNat

/-- A lane after its sweeps: the codes in the middle of the runs; a run shorter than 24 codes keeps the codes before.
A lane in mode 1 is skipped while PF0's EXPERT_EN is 1. -/
def trainLane (exp : Bool) (w : LaneSweep) (l : LaneDelay) : LaneDelay × Bool :=
  if l.mode && exp then (l, true)
  else
    let ok := decide (24 ≤ runLen w.rdA w.rdB) && decide (24 ≤ runLen w.wrA w.wrB)
    let mid := fun a b : BitVec 7 => BitVec.ofNat 7 ((a.toNat + b.toNat) / 2)
    ({ rd := if ok then mid w.rdA w.rdB else l.rd
       wr := if ok then mid w.wrA w.wrB else l.wr
       mode := false
       rdW := BitVec.ofNat 7 (runLen w.rdA w.rdB)
       wrW := BitVec.ofNat 7 (runLen w.wrA w.wrB) }, ok)

def LaneSweep.none : LaneSweep := { rdA := 1, rdB := 0, wrA := 1, wrB := 0 }

/-- The two lanes of a channel take their sweeps' results; whether both are good. -/
def trainChannel (exp : Bool) (w0 w1 : LaneSweep) (k : Channel) : Channel × Bool :=
  let a := trainLane exp w0 k.lane0
  let b := trainLane exp w1 k.lane1
  ({ k with lane0 := a.1, lane1 := b.1 }, a.2 && b.2)

/-- The retraining that was due, or the oldest waiting command's, starts. -/
def nextRetrainStart (s : State) : State :=
  if s.ddr.retrainDue then startRetrain none { s with ddr := { s.ddr with retrainDue := false } }
  else match s.ddr.retrainQ.find? fun c => !s.longSuspended (.retrain c.1) with
    | some c => startRetrain (some c) { s with ddr := { s.ddr with retrainQ := s.ddr.retrainQ.erase c } }
    | none => s

/-- The retraining in work is over: its command completes, and what waits starts. -/
def endRetrain (st : BitVec 16) (s : State) : State :=
  let cmd := s.ddr.retrain.bind fun r => r.cmd
  let s := { s with ddr := { s.ddr with retrain := none, lastTrain := s.ns, lastTemp := junction s } }
  let s := match cmd with
    | some (n, sub) => finishLong (.retrain n) sub (plainCompletion sub st 0) s
    | none => s
  nextRetrainStart s

/-- Between channels: a CANCEL or SUSPEND that waits takes effect, else the next channel follows (R248, R421). -/
def retrainBoundary (r : Retrain) (s : State) : State :=
  let ws : List Nat := match r.cmd with
    | some c => (s.longWaiters (.retrain c.1)).map fun w => w.2
    | none => []
  match (trainable s).find? fun c => r.chan < c with
  | none => endRetrain St.ok s
  | some c =>
    if ws.contains 0x1A then endRetrain St.cancelled s
    else
      let s := { s with ddr := { s.ddr with retrain := some { r with chan := c, suspended := ws.contains 0x18 } } }
      match r.cmd with
      | some (n, _) => if ws.contains 0x18 then settleLong (.retrain n) 0x18 (markLong (.retrain n) true s) else s
      | none => s

/-- The channel in work has been retrained. -/
def execRetrainChannelDone (sweeps : List LaneSweep) (s : State) : Out :=
  whenRunning s (s.ddr.retrain.any fun r => !r.suspended) fun s =>
    match s.ddr.retrain with
    | none => s
    | some r =>
      let out := trainChannel (expert s 0) (sweeps.getD 0 LaneSweep.none) (sweeps.getD 1 LaneSweep.none) (s.chan r.chan)
      let inWork := (channels s).contains r.chan
      let s := if inWork then setChan r.chan (fun _ => out.1) s else s
      let s := if inWork && !out.2 then markFailing (r.chan / 2) s else s
      retrainBoundary r s

def execDdrRetrain (sub : Sub) (s : State) : Out :=
  pf0Command 0x28 sub (fun s =>
    let n := s.ddr.nextRetrain
    let s := { s with ddr := { s.ddr with nextRetrain := n + 1 } }
    let s := addLong { fn := sub.fn, jobId := sub.jobId, kind := .retrain n, suspended := false, waiting := [] } s
    if s.ddr.retrain.isSome then { s with ddr := { s.ddr with retrainQ := s.ddr.retrainQ ++ [(n, sub)] } }
    else startRetrain (some (n, sub)) s) s

/-! ## Regulator accounts (R256) -/

/-- What DDR_REG_CFG reads for an account. -/
def acctConfig (a : Account) : DWord :=
  BitVec.ofNat 64 (pack [(a.rate.toNat, 0), (a.mode.toNat, 10), (a.slots.toNat, 16), (a.burst.toNat, 32)])

/-- The slots of all RESERVED accounts but one. -/
def otherSlots (s : State) (p a : Nat) : Nat :=
  ((List.range 112).map fun i =>
    if i = 16 * p + a then 0
    else
      let x := s.acct (i / 16) (i % 16)
      if x.mode = 2 then x.slots.toNat else 0).sum

/-- The account that an APPLY would make. -/
def newAcct (s : State) (p a : Nat) : Account :=
  let v := s.ddr.regCfg
  let old := s.acct p a
  { old with
    rate := BitVec.ofNat 10 (bits64 v 0 10)
    mode := BitVec.ofNat 2 (bits64 v 10 2)
    slots := BitVec.ofNat 5 (bits64 v 16 5)
    burst := BitVec.ofNat 16 (bits64 v 32 16) }

def acctRefused (s : State) (p a : Nat) (x : Account) : Bool :=
  decide (6 < p) ||
  (x.slots != 0 && (a = 0 || p = 6)) ||
  (p = 6 && a != 0 && x.mode != 0) ||
  (x.mode = 2 && decide (16 < otherSlots s p a + x.slots.toNat)) ||
  decide (x.burst.toNat < 16) ||
  x.mode = 3 || (a = 0 && x.mode = 0) ||
  (a != 0 && tdiLocked s a)

/-- Installs an account; one that is disabled passes its free tokens to account 0 of the port (R255). -/
def installAcct (p a : Nat) (x : Account) (s : State) : State :=
  let s := setAcct p a (fun _ => x) s
  let s := if x.mode = 0 then
      setAcct p 0 (fun y => { y with free := y.free + x.free }) (setAcct p a (fun y => { y with free := 0, frac := 0 }) s)
    else s
  conservePort p (replaceOwners s).spend

/-- A write of DDR_REG_SEL. -/
def accountSelect (v : Word) (s : State) : State :=
  let p := bits32 v 0 3
  let a := bits32 v 4 4
  let s := { s with ddr := { s.ddr with regPort := BitVec.ofNat 3 p, regAcct := BitVec.ofNat 4 a } }
  if bit32 v 8 then
    let x := newAcct s p a
    if acctRefused s p a x then { s with ddr := { s.ddr with regErr := true } }
    else installAcct p a x { s with ddr := { s.ddr with regErr := false } }
  else { s with ddr := { s.ddr with regCfg := acctConfig (s.acct p a) } }

def execAccountApply (fn : Fn) (v : Word) (s : State) : Out := regWrite s (pf0Open s fn) (accountSelect v)

end Sys2Proof.Machine
end

