-- ==== Sys2Proof/Machine/Flash.lean ====
section
/-! DEFINITION. The flash tier (chapter 09): blocks and their states, the journal, programs, erases and page reads, the host
commands, and the bring-up. -/

namespace Sys2Proof.Machine

open Sys2Proof Numeric

/-! ## Addresses and pages (R262, R263) -/

/-- A block address by channel, LUN and block (R262). -/
def blockAt (ch lun blk : Nat) : Nat := ch + 8 * lun + 64 * blk

def blockCh (b : Nat) : Nat := b % 8
def blockLun (b : Nat) : Nat := b / 8 % 8
def blockNo (b : Nat) : Nat := b / 64

def blockExists (s : State) (b : Nat) : Bool :=
  decide (blockCh b < s.flt.channels.toNat) && decide (blockLun b < s.flt.luns.toNat) && decide (blockNo b < s.flt.blocks.toNat)

def allBlocks (s : State) : List Nat :=
  (List.range s.flt.blocks.toNat).flatMap fun k => (List.range s.flt.luns.toNat).flatMap fun l =>
    (List.range s.flt.channels.toNat).map fun c => blockAt c l k

/-- Byte address of a page in the model's NAND array: 18,432 bytes a page. -/
def pageAddr (b p : Nat) : Nat := 18432 * (4096 * b + p)

/-- The metadata of a codeword (R263). -/
def pageMeta (b p c kind : Nat) : Bytes :=
  toLE 4 b ++ toLE 2 p ++ [BitVec.ofNat 8 c, BitVec.ofNat 8 kind] ++ zeros 8

/-- A page's four codewords. The parity of the LDPC code is open. -/
def pageBytes (s : State) (b p kind : Nat) (data : Bytes) : Bytes :=
  (List.range 4).flatMap fun c => padTo 4096 (data.drop (4096 * c)) ++ pageMeta b p c kind ++ s.fbytes (512 * c) 496

def writePage (b p kind : Nat) (data : Bytes) (s : State) : State :=
  (setMems s fun m => m.wrNand (pageAddr b p) (pageBytes s b p kind data)).spend

/-- The data bytes of a page. -/
def pageData (s : State) (b p : Nat) : Bytes := (List.range 4).flatMap fun c => s.mem.rdNand (pageAddr b p + 4608 * c) 4096

def eraseBlock (b : Nat) (s : State) : State := setMems s fun m => m.clrNand (pageAddr b 0) (18432 * 4096)

/-! ## Blocks, LUNs, commands -/

def State.block (s : State) (b : Nat) : FltBlock := Tab.get FltBlock.unlisted s.flt.table b

def setBlock (b : Nat) (f : FltBlock → FltBlock) (s : State) : State :=
  { s with flt := { s.flt with table := Tab.upd FltBlock.unlisted s.flt.table b f } }

def State.journal (s : State) (c : Nat) : Journal := Tab.get Journal.init s.flt.journals c

def setJournal (c : Nat) (f : Journal → Journal) (s : State) : State :=
  { s with flt := { s.flt with journals := Tab.upd Journal.init s.flt.journals c f } }

def lunKey (b : Nat) : Nat := b % 64

def State.lun (s : State) (k : Nat) : Lun := Tab.get Lun.idle s.flt.units k

def setLun (k : Nat) (f : Lun → Lun) (s : State) : State :=
  { s with flt := { s.flt with units := Tab.upd Lun.idle s.flt.units k f } }

def State.flashCmd (s : State) (n : Nat) : Option FlashCmd := s.flt.cmds.find? fun c => c.num = n

def setCmd (n : Nat) (f : FlashCmd → FlashCmd) (s : State) : State :=
  { s with flt := { s.flt with cmds := s.flt.cmds.map fun c => if c.num = n then f c else c } }

/-- Block states by code (R266). -/
def bsFree : BitVec 4 := 0
def bsOpen : BitVec 4 := 1
def bsValid : BitVec 4 := 2
def bsInvalid : BitVec 4 := 3
def bsErasing : BitVec 4 := 4
def bsBad : BitVec 4 := 5
def bsSystem : BitVec 4 := 6

def isLong (kind : Nat) : Bool := kind = 0x20 || kind = 0x23 || kind = 0x25

/-- A flash command is complete. -/
def finishFlash (n : Nat) (st : BitVec 16) (detail : Nat) (s : State) : State :=
  match s.flashCmd n with
  | none => s
  | some c =>
    let s := { s with flt := { s.flt with cmds := s.flt.cmds.filter fun x => x.num ≠ n } }
    let cpl := plainCompletion c.sub st (BitVec.ofNat 32 detail)
    if isLong c.kind then finishLong (.flash n) c.sub cpl s else complete c.sub cpl s

/-! ## The journal (R276, R277) -/

/-- Parts of a checkpoint of a channel's block table. -/
def ckptParts (s : State) : Nat := max 1 (ceilDiv (s.flt.luns.toNat * s.flt.blocks.toNat) 32696)

/-- A page starts to program when none does and something is queued. -/
def kickJournal (ch : Nat) (s : State) : State :=
  let j := s.journal ch
  if j.ckpt ≠ 0 ∨ j.programming.isSome ∨ j.queue.isEmpty then s
  else setJournal ch (fun j => { j with programming := some (j.queue.take 1000), queue := j.queue.drop 1000 }) s

/-- A record joins its channel's journal. -/
def queueRec (type b : Nat) (cmd : Option Nat) (s : State) : State :=
  let ch := blockCh b
  kickJournal ch (setJournal ch (fun j => { j with
    queue := j.queue ++ [{ type := type, addr := b, seq := j.seq, cmd := cmd }]
    seq := j.seq + 1 }) s)

def recBytes (r : JRec) : Bytes := [BitVec.ofNat 8 r.type] ++ toLE 3 r.addr ++ zeros 4 ++ toLE 8 r.seq

/-- A journal page: the header, the records or checkpoint part, and the CRC-32. What fills the page beyond the records, and
how a checkpoint orders its blocks, is open. -/
def journalPage (s : State) (kind count pseq : Nat) (body : Bytes) : Bytes :=
  let head := [BitVec.ofNat 8 kind, 0] ++ toLE 2 count ++ zeros 4 ++ toLE 8 pseq ++ zeros 16
  let bs := (head ++ body ++ s.fbytes 4096 16348).take 16380
  bs ++ toLE 4 (Crypto.crc32 bs).toNat

/-- The state a record gives its block. -/
def recState (type : Nat) : BitVec 4 :=
  match type with
  | 1 => bsOpen
  | 2 => bsValid
  | 3 => bsInvalid
  | 4 => bsErasing
  | 5 => bsFree
  | _ => bsBad

/-- The erase queue or the read queue of a LUN gets the device when it is free. Reads of an ingest are checked against the
block table as they are issued (R269); `fail` is what becomes of a read that the check stops. -/
def pumpLun (fail : PageRead → State → State) (k : Nat) : Nat → State → State
  | 0, s => s
  | n + 1, s =>
    let l := s.lun k
    let frozen := match l.erase with
      | some e => e.byCtrl || e.byHost
      | none => true
    if l.reading.isSome || !frozen then s else
    match l.reads, l.eraseQ with
    | [], [] => s
    | [], e :: r =>
      if l.erase.isSome then s
      else setLun k (fun l => { l with
        eraseQ := r
        readTurn := true
        erase := some { block := e.1, cmd := e.2, since := s.timer, byCtrl := false, byHost := false, served := 0 } }) s
    | x :: xs, [] =>
      let s := setLun k (fun l => { l with reads := xs, readTurn := false }) s
      if (s.block x.block).state = bsValid || (match x.who with | .direct _ => true | _ => false)
      then setLun k (fun l => { l with reading := some x }) s
      else pumpLun fail k n (fail x s)
    | x :: xs, e :: r =>
      if l.erase.isNone && !l.readTurn then
        setLun k (fun l => { l with
          eraseQ := r
          readTurn := true
          erase := some { block := e.1, cmd := e.2, since := s.timer, byCtrl := false, byHost := false, served := 0 } }) s
      else
        let s := setLun k (fun l => { l with reads := xs, readTurn := false }) s
        if (s.block x.block).state = bsValid || (match x.who with | .direct _ => true | _ => false)
        then setLun k (fun l => { l with reading := some x }) s
        else pumpLun fail k n (fail x s)

/-! ## Ingest reads -/

def Ingest.none : Ingest := {
  sub := { fn := 0, qid := 0, jobId := 0, noirq := false }
  src := 0
  dst := 0
  stg := 0
  timeoutMs := 0
  report := 0
  nshards := 0
  imageLen := 0
  nonce := 0
  tags := []
  tmap := []
  key := []
  locs := []
  handle := 0
  shards := []
  active := []
  nextFetch := 0
  refetch := []
  since := 0
  suspended := false
  building := false }

def State.ingest (s : State) (n : Nat) : Ingest := Tab.get Ingest.none s.lfl.ingests n

def setIngest (n : Nat) (f : Ingest → Ingest) (s : State) : State :=
  { s with lfl := { s.lfl with ingests := Tab.upd Ingest.none s.lfl.ingests n f } }

/-- A read of a shard has failed, or its block was not VALID when it was issued: the rest of the shard is not read (R269). -/
def failRead (x : PageRead) (s : State) : State :=
  match x.who with
  | .ingest job shard =>
    let s := setLun (lunKey x.block) (fun l => { l with reads := l.reads.filter fun y => y.who ≠ x.who }) s
    setIngest job (fun i => { i with active := i.active.map fun y => if y.shard = shard then { y with failed := true } else y }) s
  | .direct _ => s

def pump (k : Nat) (s : State) : State := pumpLun failRead k ((s.lun k).reads.length + 1) s

/-! ## Programs and erases (R266 to R274) -/

/-- A block that an erase may take. -/
def erasable (s : State) (b : Nat) : Bool := [bsFree, bsOpen, bsValid, bsInvalid].contains (s.block b).state

/-- The next block of a FLASH_ERASE is taken: it is ERASING at once, and ERASE_OPEN is queued (R271). -/
def takeNext (n : Nat) (s : State) : State :=
  match s.flashCmd n with
  | none => s
  | some c =>
    match c.blocks with
    | [] => finishFlash n St.ok 0 s
    | b :: _ =>
      if c.cancelled then finishFlash n St.cancelled 0 s
      else if c.suspended then s
      else if !erasable s b then finishFlash n St.blockState 0 s
      else if (s.block b).pins ≠ 0 then finishFlash n St.blockBusy 0 s
      else queueRec 4 b (some n) (setBlock b (fun x => { x with state := bsErasing }) s)

/-- The bring-up is over once no block is left OPEN or ERASING and every checkpoint is written (R278). -/
def settleTier (s : State) : State :=
  if s.flt.state = 1 ∧ s.flt.channels ≠ 0 ∧
      !(s.flt.table.any fun e => e.2.state = bsOpen || e.2.state = bsErasing) ∧ !(s.flt.journals.any fun j => j.2.ckpt ≠ 0)
  then { s with flt := { s.flt with state := 2 } } else s

/-- The effect of a record that has become durable. -/
def applyRec (s : State) (r : JRec) : State :=
  let s := { s with flt := { s.flt with durable := Tab.set 0 s.flt.durable r.addr (recState r.type) } }
  let s := setBlock r.addr (fun x => { x with
    state := recState r.type
    wptr := if r.type = 1 ∨ r.type = 5 then 0 else x.wptr }) s
  match r.type with
  | 4 => pump (lunKey r.addr) (setLun (lunKey r.addr) (fun l => { l with eraseQ := l.eraseQ ++ [(r.addr, r.cmd)] }) s)
  | _ =>
    match r.cmd with
    | none => settleTier s
    | some n =>
      match r.type with
      | 1 => match s.flashCmd n with
        | some c => if c.cancelled then finishFlash n St.cancelled 0 s else s
        | none => s
      | 5 => takeNext n (setCmd n (fun c => { c with blocks := c.blocks.drop 1 }) s)
      | 6 => match s.flashCmd n with
        | some c => finishFlash n (if c.kind = 0x20 then St.programFail else St.eraseFail) 0 s
        | none => s
      | _ => finishFlash n St.ok 0 s

/-- A FLASH_FORMAT whose new journals are all written is complete. -/
def settleFormat (s : State) : State :=
  match s.flt.cmds.find? fun c => c.kind = 0x25 && c.blocks.isEmpty with
  | some c =>
    if s.flt.journals.any fun j => j.2.ckpt ≠ 0 then s
    else finishFlash c.num St.ok 0 { s with flt := { s.flt with state := 2 } }
  | none => s

/-- The active journal block is full: a checkpoint goes into the other one. -/
def rollJournal (ch : Nat) (s : State) : State :=
  let j := s.journal ch
  if j.page < s.flt.pages.toNat then s
  else setJournal ch (fun j => { j with active := 1 - j.active, page := 0, ckpt := ckptParts s }) s

/-- A journal page has passed its program. -/
def pagePassed (ch : Nat) (s : State) : State :=
  let j := s.journal ch
  let blk := blockAt ch 0 j.active
  let next := fun j : Journal => { j with page := j.page + 1, pseq := j.pseq + 1 }
  if j.ckpt ≠ 0 then
    let part := ckptParts s - j.ckpt
    let s := writePage blk j.page 1 (journalPage s 2 part j.pseq []) s
    let s := setJournal ch (fun j => { next j with ckpt := j.ckpt - 1 }) s
    let s := if j.ckpt = 1 then eraseBlock (blockAt ch 0 (1 - j.active)) s else s
    settleFormat (settleTier (kickJournal ch (rollJournal ch s)))
  else
    match j.programming with
    | none => s
    | some rs =>
      let s := writePage blk j.page 1 (journalPage s 1 rs.length j.pseq (rs.flatMap recBytes)) s
      let s := setJournal ch (fun j => { next j with programming := none }) s
      kickJournal ch (rollJournal ch (rs.foldl applyRec s))

/-- A journal page that does not pass makes nothing durable. -/
def execJournalPageProgrammed (ch : Fin 8) (passed : Bool) (s : State) : Out :=
  whenRunning s (passed && domUp s 0x72) (pagePassed ch)

/-- The oldest program batch of a block that is not suspended, once the block is OPEN. -/
def programOf (s : State) (b : Nat) : Option FlashCmd :=
  if (s.block b).state = bsOpen then
    s.flt.cmds.find? fun c => c.kind = 0x20 && c.blocks = [b] && !c.suspended && !c.cancelled
  else none

/-- A page of a program batch has been programmed, or its device status reports failure. -/
def execDevicePageProgramDone (block : Nat) (ok : Bool) (data : Bytes) (s : State) : Out :=
  whenRunning s (domUp s 0x72 && ((s.lun (lunKey block)).erase.isNone)) fun s =>
    match programOf s block with
    | none => s
    | some c =>
      if c.page ≠ (s.block block).wptr then finishFlash c.num St.blockState 0 s
      else if ok then
        let s := writePage block c.page 0 data s
        let s := setBlock block (fun x => { x with wptr := x.wptr + 1 }) s
        if c.left ≤ 1 then finishFlash c.num St.ok 0 s
        else setCmd c.num (fun c => { c with page := c.page + 1, left := c.left - 1 }) s
      else
        let s := { s with flt := { s.flt with badNew := satUp s.flt.badNew 1 } }
        queueRec 6 block (some c.num) (setCmd c.num (fun c => { c with cancelled := true }) s)

/-- The device erase of a block ends. -/
def execEraseDeviceDone (block : Nat) (ok : Bool) (s : State) : Out :=
  let k := lunKey block
  whenRunning s (domUp s 0x72 && ((s.lun k).erase.any fun e => e.block = block && !e.byCtrl && !e.byHost)) fun s =>
    let cmd := (s.lun k).erase.bind fun e => e.cmd
    let format : Bool := match cmd.bind s.flashCmd with
      | some c => decide (c.kind = 0x25)
      | none => false
    let s := setLun k (fun l => { l with erase := none }) s
    let s := if ok then eraseBlock block s else { s with flt := { s.flt with badNew := satUp s.flt.badNew 1 } }
    let s :=
      if format then
        let st := if (s.block block).state = bsSystem then bsSystem else if ok then bsFree else bsBad
        let s := setBlock block (fun x => { x with state := st, wptr := 0 }) s
        let s := { s with flt := { s.flt with durable := Tab.set 0 s.flt.durable block st } }
        match cmd with
        | none => s
        | some n =>
          let s := setCmd n (fun c => { c with blocks := c.blocks.drop 1 }) s
          match s.flashCmd n with
          | none => s
          | some c =>
            if c.cancelled then finishFlash n St.cancelled 0 s
            else match c.blocks with
              | b :: _ => pump (lunKey b) (setLun (lunKey b) (fun l => { l with eraseQ := l.eraseQ ++ [(b, some n)] }) s)
              | [] => (List.range s.flt.channels.toNat).foldl (fun s ch => setJournal ch (fun j =>
                  { j with queue := [], programming := none, page := 0, active := 0, ckpt := ckptParts s }) s) s
      else queueRec (if ok then 5 else 6) block cmd s
    pump k s

/-- The controller suspends an erase that has run long enough, for the reads that wait on its LUN (R272). -/
def execEraseSuspend (ch : Fin 8) (lun : Fin 8) (s : State) : Out :=
  let k := ch + 8 * lun.val
  let l := s.lun k
  let due := match l.erase with
    | some e => !e.byCtrl && !e.byHost && decide (max 100 s.flt.suspMin.toNat ≤ (s.timer - e.since) * 10 / 384)
    | none => false
  whenRunning s (domUp s 0x72 && due && !l.reads.isEmpty) fun s =>
    let s := setLun k (fun l => { l with erase := l.erase.map fun e => { e with byCtrl := true, served := 0 } }) s
    pump k { s with flt := { s.flt with suspends := wrapUp s.flt.suspends 1 } }

/-! ## Page reads (R264, R265, R269, R275) -/

/-- The outcome of the reads of a page: which codewords succeeded, and how many re-reads were made. -/
def readTries (k : Nat) (tries : List (List Bool)) : List Bool × Nat :=
  let after := fun n => (List.range 4).map fun c => (tries.take (n + 1)).any fun t => t.getD c false
  match (List.range (k + 1)).find? fun n => (after n).all id with
  | some n => (after n, n)
  | none => (after k, k)

/-- Bytes that a direct read returns for a page: of a BAD block, or of a codeword that stayed uncorrectable, open. -/
def directBytes (s : State) (r : PageRead) (raw : Bool) (good : List Bool) : Bytes :=
  let n := if raw then 4608 else 4112
  (List.range 4).flatMap fun c =>
    if (good.getD c false || raw) && (s.block r.block).state != bsBad then s.mem.rdNand (pageAddr r.block r.page + 4608 * c) n
    else s.fbytes (8192 * c) n

/-- A page of a FLASH_DIRECT goes to PF0's host memory; with the last the command completes. -/
def directPage (n : Nat) (r : PageRead) (good : List Bool) (s : State) : State :=
  match s.flashCmd n with
  | none => s
  | some c =>
    let i := r.page - c.page
    let size := if c.raw then 4 * 4608 else 4 * 4112
    let s := setMems s fun m => m.wrHost 0 (c.host + size * i) (directBytes s r c.raw good)
    let fail := if good.all id then c.failPage else match c.failPage with
      | some f => some (min f i)
      | none => some i
    if c.left ≤ 1 then
      match fail with
      | some f => finishFlash n St.uncorrectable f s
      | none => finishFlash n St.ok 0 s
    else setCmd n (fun c => { c with left := c.left - 1, failPage := fail }) s

/-- A page of a shard has been read into the ingest engine. -/
def shardPage (job shard : Nat) (ok : Bool) (r : PageRead) (s : State) : State :=
  if ok then setIngest job (fun i => { i with active := i.active.map fun x =>
    if x.shard = shard then { x with left := x.left - 1 } else x }) s
  else failRead r s

/-- Reads served in a suspension: after the last, or the eighth, the erase resumes. -/
def afterRead (k : Nat) (s : State) : State :=
  let l := s.lun k
  match l.erase with
  | none => s
  | some e =>
    if !e.byCtrl then s
    else if l.reads.isEmpty ∨ 8 ≤ e.served + 1 then
      setLun k (fun l => { l with erase := some { e with byCtrl := false, served := 0, since := s.timer } }) s
    else setLun k (fun l => { l with erase := some { e with served := e.served + 1 } }) s

def execFlashPageReadDone (ch : Fin 8) (lun : Fin 8) (tries : List (List Bool)) (s : State) : Out :=
  let k := ch + 8 * lun.val
  whenRunning s (domUp s 0x72) fun s =>
    match (s.lun k).reading with
    | none => s
    | some r =>
      let sets := min (min s.flt.sets.toNat s.flt.retryMax.toNat) 16
      let out := readTries sets tries
      let bad := out.1.countP fun b => !b
      let s := { s with flt := { s.flt with
        retries := satUp s.flt.retries out.2
        uncorr := satUp s.flt.uncorr bad } }
      let s := setLun k (fun l => { l with reading := none }) s
      let s := match r.who with
        | .direct n => directPage n r out.1 s
        | .ingest job shard => shardPage job shard (bad = 0) r s
      (pump k (afterRead k s)).spend

/-! ## Commands (R267, R275) -/

/-- Flash commands run only on a tier that is READY and powered. -/
def tierReady (s : State) : Bool := s.flt.state = 2 && domUp s 0x72

def addCmd (c : FlashCmd) (s : State) : State :=
  let s := { s with flt := { s.flt with cmds := s.flt.cmds ++ [c], nextCmd := s.flt.nextCmd + 1 } }
  if isLong c.kind then
    addLong { fn := c.sub.fn, jobId := c.sub.jobId, kind := .flash c.num, suspended := false, waiting := [] } s
  else s

def newCmd (s : State) (sub : Sub) (kind : Nat) (blocks : List Nat) (page left host : Nat) (raw : Bool) : FlashCmd :=
  { num := s.flt.nextCmd, sub := sub, kind := kind, blocks := blocks, page := page, left := left, host := host, raw := raw,
    suspended := false, cancelled := false, failPage := none }

def execFlashProgram (sub : Sub) (block : Nat) (first : Nat) (pages : Nat) (host : DWord) (s : State) : Out :=
  pf0Command 0x20 sub (fun s =>
    let b := s.block block
    if !tierReady s then endWith sub St.flashNotReady s
    else if !blockExists s block || pages = 0 || decide (s.flt.pages.toNat < first + pages) then endWith sub St.badCommand s
    else if !((b.state = bsFree && first = 0) || b.state = bsOpen) || first ≠ b.wptr then endWith sub St.blockState s
    else
      let n := s.flt.nextCmd
      let s := addCmd (newCmd s sub 0x20 [block] first pages host.toNat false) s
      if b.state = bsFree then queueRec 1 block (some n) s else s) s

def execFlashSeal (sub : Sub) (block : Nat) (s : State) : Out :=
  pf0Command 0x21 sub (fun s =>
    if !tierReady s then endWith sub St.flashNotReady s
    else if !blockExists s block then endWith sub St.badCommand s
    else if (s.block block).state ≠ bsOpen then endWith sub St.blockState s
    else queueRec 2 block (some s.flt.nextCmd) (addCmd (newCmd s sub 0x21 [block] 0 0 0 false) s)) s

def execFlashRetire (sub : Sub) (block : Nat) (s : State) : Out :=
  pf0Command 0x22 sub (fun s =>
    if !tierReady s then endWith sub St.flashNotReady s
    else if !blockExists s block then endWith sub St.badCommand s
    else if (s.block block).state ≠ bsValid ∧ (s.block block).state ≠ bsOpen then endWith sub St.blockState s
    else if (s.block block).pins ≠ 0 then endWith sub St.blockBusy s
    else queueRec 3 block (some s.flt.nextCmd) (addCmd (newCmd s sub 0x22 [block] 0 0 0 false) s)) s

def execFlashErase (sub : Sub) (blocks : List Nat) (s : State) : Out :=
  pf0Command 0x23 sub (fun s =>
    if !tierReady s then endWith sub St.flashNotReady s
    else if blocks.isEmpty || decide (256 < blocks.length) || !blocks.all (blockExists s) then endWith sub St.badCommand s
    else if !blocks.all (erasable s) then endWith sub St.blockState s
    else if blocks.any fun b => (s.block b).pins ≠ 0 then endWith sub St.blockBusy s
    else takeNext s.flt.nextCmd (addCmd (newCmd s sub 0x23 blocks 0 0 0 false) s)) s

/-- FLASH_DIRECT checks the block table as it is taken (R275). -/
def execFlashDirect (sub : Sub) (block : Nat) (first : Nat) (pages : Nat) (host : DWord) (raw : Bool) (s : State) : Out :=
  pf0Command 0x24 sub (fun s =>
    if !expert s 0 then endWith sub St.accessDenied s
    else if !tierReady s then endWith sub St.flashNotReady s
    else if !blockExists s block || pages = 0 || decide (64 < pages) || decide (s.flt.pages.toNat < first + pages)
    then endWith sub St.badCommand s
    else if (s.block block).state = bsErasing then endWith sub St.blockInErase s
    else
      let n := s.flt.nextCmd
      let s := addCmd (newCmd s sub 0x24 [block] first pages host.toNat raw) s
      let reads := (List.range pages).map fun i => ({ block := block, page := first + i, who := .direct n } : PageRead)
      pump (lunKey block) (setLun (lunKey block) (fun l => { l with reads := l.reads ++ reads }) s)) s

/-- FLASH_FORMAT erases every block that is not BAD, one after the other, then writes new journals. -/
def execFlashFormat (sub : Sub) (confirm : BitVec 16) (s : State) : Out :=
  pf0Command 0x25 sub (fun s =>
    if !tierReady s && !(s.flt.state = 3 && domUp s 0x72) then endWith sub St.flashNotReady s
    else if confirm ≠ 0xF0F0 then endWith sub St.badCommand s
    else
      let n := s.flt.nextCmd
      let blocks := (allBlocks s).filter fun b => (s.block b).state ≠ bsBad
      let s := addCmd (newCmd s sub 0x25 blocks 0 0 0 false) s
      match blocks with
      | b :: _ => pump (lunKey b) (setLun (lunKey b) (fun l => { l with eraseQ := l.eraseQ ++ [(b, some n)] }) s)
      | [] => (List.range s.flt.channels.toNat).foldl (fun s ch => setJournal ch (fun j =>
          { j with queue := [], programming := none, page := 0, active := 0, ckpt := ckptParts s }) s) s) s

/-- The LUN whose device erase belongs to a command. -/
def eraseLunOf (s : State) (n : Nat) : Option Nat :=
  (List.range 64).find? fun k => (s.lun k).erase.any fun e => e.cmd = some n

/-- SUSPEND of a flash command: between pages, or by suspending the device erase in progress (R273). -/
def suspendFlash (n : Nat) (s : State) : State :=
  let s := setCmd n (fun c => { c with suspended := true }) s
  let s := match eraseLunOf s n with
    | some k => setLun k (fun l => { l with erase := l.erase.map fun e => { e with byHost := true } }) s
    | none => s
  settleLong (.flash n) 0x18 (markLong (.flash n) true s)

def unfreeze (n : Nat) (s : State) : State :=
  match eraseLunOf s n with
  | some k => setLun k (fun l => { l with erase := l.erase.map fun e => { e with byHost := false, since := s.timer } }) s
  | none => s

/-- Has the command's first block been taken and not finished? -/
def blockTaken (s : State) (c : FlashCmd) : Bool :=
  match c.blocks with
  | b :: _ => (s.block b).state = bsErasing || (eraseLunOf s c.num).isSome || ((s.lun (lunKey b)).eraseQ.any fun e => e.2 = some c.num)
  | [] => false

def resumeFlash (n : Nat) (s : State) : State :=
  let s := unfreeze n (setCmd n (fun c => { c with suspended := false }) s)
  let s := settleLong (.flash n) 0x19 (markLong (.flash n) false s)
  match s.flashCmd n with
  | some c => if c.kind = 0x23 ∧ !blockTaken s c then takeNext n s else s
  | none => s

/-- CANCEL of a flash command: a program batch stops between pages; an erase already issued completes first (R273). -/
def cancelFlash (n : Nat) (s : State) : State :=
  match s.flashCmd n with
  | none => s
  | some c =>
    let s := unfreeze n (setCmd n (fun c => { c with suspended := false, cancelled := true }) s)
    let waits := if c.kind = 0x20 then c.blocks.any fun b => (s.block b).state = bsFree else blockTaken s c
    if waits then s else finishFlash n St.cancelled 0 s

/-! ## Bring-up (R260, R278) -/

/-- The journal blocks of a tier. -/
def systemBlocks (s : State) : List Nat :=
  (List.range s.flt.channels.toNat).flatMap fun c => [blockAt c 0 0, blockAt c 0 1]

/-- A blank tier: factory marks, the journal blocks, the rest FREE, and first checkpoints. -/
def bringUpBlank (badMarks : List Nat) (s : State) : State :=
  let sys := systemBlocks s
  let states := (badMarks.map fun b => (b, bsBad)) ++ sys.map fun b => (b, bsSystem)
  let s := states.foldl (fun s x => setBlock x.1 (fun y => { y with state := x.2 })
    { s with flt := { s.flt with durable := Tab.set 0 s.flt.durable x.1 x.2 } }) s
  let s := { s with flt := { s.flt with blank := false } }
  (List.range s.flt.channels.toNat).foldl (fun s ch => setJournal ch (fun j => { j with ckpt := ckptParts s }) s) s

/-- The replay of the journals: an OPEN block is retired, an ERASING one erased again. The write pointer of a block that is
neither FREE nor OPEN is not in the journal: it is free. -/
def replayJournals (s : State) : State :=
  let entries := s.flt.durable
  let s := { s with flt := { s.flt with table := [] } }
  let s := entries.foldl (fun s e =>
    let w := s.fv e.1 % 4097
    setBlock e.1 (fun x => { x with state := e.2, wptr := w }) s) s
  let s := (entries.filter fun e => e.2 = bsOpen).foldl (fun s e => queueRec 3 e.1 none s) s
  let s := (entries.filter fun e => e.2 = bsErasing).foldl (fun s e =>
    pump (lunKey e.1) (setLun (lunKey e.1) (fun l => { l with eraseQ := l.eraseQ ++ [(e.1, none)] }) s)) s
  s.spend

def setGeometry (rep : FlashReport) (s : State) : State :=
  { s with flt := { s.flt with
    channels := rep.channels
    luns := rep.luns
    rate := rep.rate
    pages := rep.pages
    blocks := rep.blocks
    sets := rep.sets } }

def execFlashTierBringup (rep : FlashReport) (s : State) : Out :=
  whenever s (s.flt.state = 1 && domUp s 0x72 && !s.boot.fatal) fun s =>
    if !rep.answers then { s with flt := { s.flt with state := 0 } }
    else if !rep.usable then { s with flt := { s.flt with state := 4 } }
    else
      let s := setGeometry rep s
      if s.flt.blank then settleTier (bringUpBlank rep.badMarks s)
      else if !rep.checkpointOk then { s with flt := { s.flt with state := 3 } }
      else settleTier (replayJournals s)

/-! ## Registers (R282) -/

/-- FLT_BLK_STAT of a block. -/
def blockStat (s : State) (b : Nat) : Word :=
  let x := s.block b
  let susp := (s.lun (lunKey b)).erase.any fun e => e.block = b && (e.byCtrl || e.byHost)
  BitVec.ofNat 32 (pack [(x.state.toNat, 0), (ofBool susp, 4), (ofBool (x.pins ≠ 0), 5), (x.wptr, 8)])

/-- A write of FLT_BLK_SEL. -/
def blockSelect (v : Word) (s : State) : State :=
  { s with flt := { s.flt with blkSel := BitVec.ofNat 22 (bits32 v 0 22), blkStat := blockStat s (bits32 v 0 22) } }

def execFltBlkSelWrite (fn : Fn) (v : Word) (s : State) : Out := regWrite s (pf0Open s fn) (blockSelect v)

end Sys2Proof.Machine
end

