-- ==== Sys2Proof/Machine/Array.lean ====
section
/-! DEFINITION. The matrix array (chapter 04): plane loads with sparse deltas, matrix instructions, row slots, the activity
ramp, and the accumulation of chapter 02. -/

namespace Sys2Proof.Machine

open Sys2Proof Numeric

/-! ## Loading a plane (R124 to R129) -/

/-- The code of element (k, n) of a tile stored as R56 lays it out. -/
def tileCode (fmt : Nat) (bs : Bytes) (k n : Nat) : Nat :=
  if fmt = 1 ∨ fmt = 2 then (bs.getD (32 * k + n / 2) 0).toNat / 16 ^ (n % 2) % 16
  else if fmt = 5 then leNat ((bs.drop (128 * k + 2 * n)).take 2)
  else (bs.getD (64 * k + n) 0).toNat

def tileCodes (fmt : Nat) (bs : Bytes) : List Nat := (List.range 4096).map fun i => tileCode fmt bs (i / 64) (i % 64)

/-- The entries of one row of a delta list as index and replacement byte (R235). -/
def deltaRow (row : Bytes) : List (Nat × Nat) :=
  let w := leNat row
  (List.range (min 25 (bits w 500 6))).map fun e => (bits w (20 * e) 12, bits w (20 * e + 12) 8)

/-- Applies entries in list order (R128): `pos` is the list position, from 1, and `last` the last index applied. The codes
and the count of skipped entries result. -/
def applyDelta (fmt : Nat) : Nat → Option Nat → List (Nat × Nat) → List Nat → List Nat × Nat
  | _, _, [], codes => (codes, 0)
  | pos, last, (i, b) :: r, codes =>
    if decide (164 ≤ pos) || last.any fun l => decide (i ≤ l) then
      let out := applyDelta fmt (pos + 1) last r codes
      (out.1, out.2 + 1)
    else applyDelta fmt (pos + 1) (some i) r (codes.set i (if fmt = 1 ∨ fmt = 2 then b % 16 else b))

def Core.plane (k : Core) (p : Nat) : Plane := if p = 0 then k.plane0 else k.plane1
def Core.setPlane (k : Core) (p : Nat) (x : Plane) : Core := if p = 0 then { k with plane0 := x } else { k with plane1 := x }

/-- The plane holds the tile of no instruction that still needs it. -/
def Run.planeFree (r : Run) (p : Nat) : Bool :=
  !(r.queue.any fun q => q.load = .loaded p) && !(r.array.any fun a => a.plane = p)

/-- Scratchpad rows that a queued operation writes: UNRESIDE's scrub is a write too. -/
def QOp.writes (q : QOp) : List Nat :=
  match q.op with
  | .unreside first count => (rangeOf first count).flatMap rowsOfRegion
  | _ => q.op.writes

/-- The feeder's target: the position in the queue of the oldest matrix instruction whose tile is in no plane, with the
operations ahead of it. -/
def loadTarget : Nat → List QOp → List QOp → Option (Nat × MatOp × List QOp)
  | _, _, [] => none
  | i, ahead, q :: r =>
    match q.op, q.load with
    | .matmul m, .waiting => some (i, m, ahead)
    | _, _ => loadTarget (i + 1) (ahead ++ [q]) r

def setLoad (c i : Nat) (l : LoadState) (s : State) : State :=
  setRun c (fun r => { r with queue := r.queue.modify i fun q => { q with load := l } }) s

/-- The plane that a load fills, and the entries that it skips. -/
def loadedPlane (s : State) (c : Nat) (m : MatOp) : Plane × Nat :=
  let base := tileCodes m.tfmt (rowsBytes s c m.tile (64 * tileRows m.tfmt))
  let entries := (List.range m.drows).flatMap fun i => deltaRow (rowBytes s c (m.delta + i))
  let out := applyDelta m.tfmt 1 none entries base
  let scales := if m.tfmt = 5 then [] else (rowBytes s c m.scale).map fun b => b.toNat
  ({ fmt := m.tfmt, elems := out.1, scales := scales }, out.2)

/-- The load of the instruction at index `i` of the queue into plane `p`. The reads are checked as the instruction's own
(R158). -/
def runLoad (c i p owner : Nat) (m : MatOp) (s : State) : State :=
  let k := s.core c
  match k.check owner m.loadRows [] with
  | .denied => setLoad c i .denied s
  | .bad => setLoad c i .badRegion s
  | .ok =>
    let pl := loadedPlane s c m
    let poison := k.poisoned m.loadRows
    let s := updCore s c fun k => { k.setPlane p pl.1 with deltaSkip := satUp k.deltaSkip pl.2 }
    let s := setRun c (fun r => { r with nextPlane := 1 - p }) (setLoad c i (.loaded p) s)
    let s := returnLast c m.lastLoad s
    if poison then raisePoison c (i + 1) s else s

def execPlaneLoad (core : CoreId) (s : State) : Out :=
  whenRunning s (coreUp s core) fun s =>
    match s.run core with
    | none => s
    | some r =>
      match loadTarget 0 [] r.queue with
      | none => s
      | some (i, m, ahead) =>
        if r.issues && r.planeFree r.nextPlane && (s.core core).allPresent m.loadRows &&
            disjoint m.loadRows (ahead.flatMap QOp.writes)
        then runLoad core i r.nextPlane r.owner m s
        else s

/-! ## MATMUL (R120, R131, R164) -/

def isMatmul : Op → Bool
  | .matmul _ => true
  | _ => false

def matAcc : Op → List Nat
  | .matmul m => m.accRows
  | _ => []

/-- A tile or an activation row of the floating-point path holds a NaN or an infinity (R60). -/
def hasNonfinite (m : MatOp) (pl : Plane) (acts : List Bytes) : Bool :=
  decide (3 ≤ m.tfmt) &&
  ((pl.elems.any fun x => !isFin (fpElem m.tfmt x)) ||
    acts.any fun a => (List.range 64).any fun k => !isFin (fpElem m.afmt (if m.afmt = 5 then field a (2 * k) 2 else field a k 1)))

/-- A matrix instruction whose plane is loaded issues: its activation rows are read, its events counted once, and its
slots wait for the array. -/
def runMatmul (c : Nat) (q : QOp) (s : State) : State :=
  match q.op, q.load with
  | .matmul m, .loaded p =>
    let acts := (List.range m.n).map fun i => rowsBytes s c (m.actRow i) (if m.afmt = 5 then 128 else 64)
    let pl := (s.core c).plane p
    let nf := hasNonfinite m pl acts
    let fe := decide (m.tfmt ≠ 5) && pl.scales.any fun x => x = 0
    let s := updCore s c fun k => { k with
      nonfinite := satUp k.nonfinite (ofBool nf)
      fmtErr := satUp k.fmtErr (ofBool fe) }
    setRun c (fun r => { r with array := r.array ++ [{ m := m, plane := p, slot := 0, acts := acts }] }) s
  | _, _ => s

def issueMatmul (c : Nat) (s : State) : State :=
  match headOp s c isMatmul with
  | none => s
  | some (r, q) =>
    match q.load with
    | .waiting => (headCheck c r q s).getD s
    | .denied => setRun c (failRun St.accessDenied 0) s
    | .badRegion => issueError c q.pos 0x06 s
    | .loaded _ => issueRows c isMatmul matAcc (fun q _ s => runMatmul c q s) s

def execMatmul (core : CoreId) (ph : Phase) (s : State) : Out :=
  whenRunning s (coreUp s core) fun s =>
    match ph with
    | .decode => decodeQueued core (· = 0x20) isMatmul s
    | .issue => issueMatmul core s

/-! ## Sums (R65 to R71, R138 to R140) -/

/-- The code of element `k` of an activation row. -/
def actCode (fmt : Nat) (a : Bytes) (k : Nat) : Nat := if fmt = 5 then field a (2 * k) 2 else field a k 1

/-- A sum in FP32 in an order that is not fixed: two of the terms, by free values, are replaced by their rounded sum until
one is left. -/
def sumAny (pick : Nat → Nat) : Nat → List FVal → FVal
  | _, [] => .fin false 0 0
  | 0, x :: _ => x
  | _ + 1, [x] => x
  | n + 1, l =>
    let i := pick (2 * n) % l.length
    let x := l.getD i .nan
    let r := l.eraseIdx i
    let j := pick (2 * n + 1) % r.length
    sumAny pick n (rnd32 (addExact x (r.getD j .nan)) :: r.eraseIdx j)

/-- The plane element that multiplies element `t` of the activation row for output column `col`: (t, col), or in
transposed mode (col, t). -/
def planeElem (m : MatOp) (pl : Plane) (t col : Nat) : Nat := pl.elems.getD (if m.trans then 64 * col + t else 64 * t + col) 0

/-- The scale mantissa that applies to a term. -/
def termScale (m : MatOp) (pl : Plane) (t col : Nat) : Nat := pl.scales.getD (if m.trans then t else col) 0

/-- The product of a slice on the integer path, with its mantissas: exact. -/
def intSlice (m : MatOp) (pl : Plane) (a : Bytes) (col : Nat) : Int :=
  (List.range 64).foldl (fun acc t =>
    acc + signed 8 (actCode m.afmt a t) * intElem m.tfmt (planeElem m pl t col) * (termScale m pl t col : Int)) 0

/-- The product of a slice on the floating-point path. -/
def fpSlice (pick : Nat → Nat) (m : MatOp) (pl : Plane) (a : Bytes) (col : Nat) : FVal :=
  let terms := (List.range 64).map fun t =>
    let x := fpElem m.afmt (actCode m.afmt a t)
    let w := fpElem m.tfmt (planeElem m pl t col)
    if m.tfmt = 5 ∨ !m.trans then rnd32 (mulExact x w)
    else if termScale m pl t col = 0 then .fin false 0 0
    else rnd32 (mulExact (rnd32 (mulExact x (.fin false (termScale m pl t col) 0))) w)
  let sum := sumAny pick 64 terms
  if m.tfmt = 5 then sum
  else if m.trans then rnd32 (mulExact sum (.fin false 1 m.texp))
  else if termScale m pl 0 col = 0 then .fin false 0 0
  else rnd32 (mulExact sum (.fin false (termScale m pl 0 col) m.texp))

/-- The wide entry of two accumulator rows: bits 47:32 lie in the low half of the second (R67). -/
def Core.wideAt (k : Core) (row col : Nat) : Int :=
  signed 48 ((k.accAt row col).toNat + (k.accAt (row + 128) col).toNat % 2 ^ 16 * 2 ^ 32)

/-- One result enters the accumulator file: row `row`, column `col`. -/
def accumulate (pick : Nat → Nat) (m : MatOp) (pl : Plane) (a : Bytes) (row : Nat) (k : Core) (col : Nat) : Core :=
  if 3 ≤ m.tfmt then
    let v := fpSlice (fun i => pick (256 * col + i)) m pl a col
    let v := if m.acc then rnd32 (addExact (val32 (k.accAt row col).toNat) v) else v
    k.setAcc row col (BitVec.ofNat 32 (Numeric.bits32 (pick (256 * col + 255)) v))
  else
    let v := intSlice m pl a col
    if m.wide then
      let r := satInt 48 (if m.acc then k.wideAt row col + v else v)
      let k := { k with accSat := satUp k.accSat (ofBool r.2) }
      (k.setAcc row col (BitVec.ofInt 32 r.1)).setAcc (row + 128) col (BitVec.ofInt 32 (r.1 / 2 ^ 32))
    else
      let r := satInt 32 (if m.acc then (k.accAt row col).toInt + v else v)
      { k with accSat := satUp k.accSat (ofBool r.2) }.setAcc row col (BitVec.ofInt 32 r.1)

/-- The activation rows whose results slot `n` completes (R122). -/
def slotRows (m : MatOp) (n : Nat) : List Nat :=
  if m.tfmt = 5 then (if n % 4 = 3 then [n / 4] else [])
  else if m.dbl then [2 * n, 2 * n + 1].filter fun i => decide (i < m.n)
  else [n]

/-! ## The ramp (R135, R136) -/

/-- Cycles with a pending slot until the account reaches 64: E rises by 2, then A by E. -/
def rampUp : Nat → Nat × Nat → Nat × Nat
  | 0, x => x
  | n + 1, (e, a) =>
    let e := min 64 (e + 2)
    if 64 ≤ a + e then (e, a + e - 64) else rampUp n (e, a + e)

/-- The array admits one slot of the oldest instruction in it: its results are written. -/
def admitSlot (c : Nat) (a : ArrayOp) (s : State) : State :=
  let pl := (s.core c).plane a.plane
  let rows := slotRows a.m a.slot
  let s := updCore s c fun k => rows.foldl (fun k i =>
    (List.range 64).foldl (accumulate (fun j => s.fv (16384 * i + j)) a.m pl (a.acts.getD i []) (a.m.d + i)) k) k
  let last := decide (a.m.slots ≤ a.slot + 1)
  let s := setRun c (fun r => { r with
    array := if last then r.array.drop 1 else { a with slot := a.slot + 1 } :: r.array.drop 1 }) s
  settleSuspend c s

/-- `idle` is the number of cycles without a pending slot since the last admission, of those before a fall of E. -/
def execRowSlotAdmit (core : CoreId) (idle : Nat) (s : State) : Out :=
  whenRunning s (coreUp s core) fun s =>
    match s.run core with
    | none => s
    | some r =>
      match r.array with
      | [] => s
      | a :: _ =>
        let k := s.core core
        let acct := min 64 (k.slotAcct + idle * k.columns)
        let ea := rampUp 64 (k.columns, if idle = 0 then k.slotAcct else acct)
        let s := updCore s core fun k => { k with
          columns := ea.1
          slotAcct := ea.2
          ramps := wrapUp k.ramps (ofBool (k.columns = 0)) }
        (admitSlot core a s).spend

/-- No slot is pending: E falls for `cycles` cycles, and the account goes with the last column. -/
def execRampFall (core : CoreId) (cycles : Nat) (s : State) : Out :=
  whenRunning s (coreUp s core && !((s.run core).any fun r => !r.array.isEmpty)) fun s =>
    updCore s core fun k =>
      let e := k.columns - 2 * cycles
      { k with columns := e, slotAcct := if e = 0 then 0 else if k.columns = 0 then k.slotAcct else 64 }

end Sys2Proof.Machine
end

