-- ==== Sys2Proof/Machine/KvOps.lean ====
section
/-! DEFINITION. The KV manager's operations (chapter 11): geometry, blocks and frames, the prefix index, appends, scores and
attention images. -/

namespace Sys2Proof.Machine

open Sys2Proof Numeric

/-! ## Geometry (R325, R326) -/

structure Geom where
  heads : Nat
  d : Nat
  bell : Bool
  ke : Int
  ve : Int
  topk : Nat
  win : Nat
  chan : Nat
  set : Nat
deriving DecidableEq, Repr

/-- The 16 bytes of the geometry record of a version. -/
def geomBytes (s : State) (v : Version) : Bytes := (readDram s v.geomAt 16).1

def parseGeom (bs : Bytes) : Geom := {
  heads := field bs 0 1
  d := if field bs 1 1 = 0 then 64 else 128
  bell := field bs 2 1 = 2
  ke := signed 8 (field bs 3 1)
  ve := signed 8 (field bs 4 1)
  topk := field bs 5 1
  win := field bs 6 2
  chan := field bs 8 1 % 16
  set := field bs 9 1 }

def geomOf (s : State) (v : Version) : Geom := parseGeom (geomBytes s v)

/-- A record that breaks R325. -/
def badGeom (bs : Bytes) (nkv : Nat) : Bool :=
  let g := parseGeom bs
  g.heads = 0 || decide (8 < g.heads) || decide (1 < field bs 1 1) || !(field bs 2 1 = 0 || field bs 2 1 = 2) ||
  decide (64 < g.topk) || g.win % 16 ≠ 0 || decide (g.win < 16) || decide (4096 < g.win) || decide (15 < field bs 8 1) ||
  decide (63 < g.set) || (bs.drop 10).any (· ≠ 0) || (g.topk ≠ 0 && decide (49152 < nkv * (64 + g.heads * g.d)))

/-- Elements of one position in one layer, over all heads. -/
def Geom.hd (g : Geom) : Nat := g.heads * g.d

/-- Bytes that `n` values occupy. -/
def Geom.vbytes (g : Geom) (n : Nat) : Nat := if g.bell then n / 2 else n

def Geom.keysAt (_ : Geom) : Nat := 64
def Geom.valsAt (g : Geom) : Nat := 64 + 16 * g.hd
def Geom.sumAt (g : Geom) : Nat := 64 + 16 * g.hd + g.vbytes (16 * g.hd)
def Geom.page (g : Geom) : Nat := g.sumAt + g.hd

/-- A layer's record in the append area (R329). -/
def Geom.append (g : Geom) : Nat := 128 + 5 * g.hd

/-- A layer's retrieval record in the query store (R327). -/
def Geom.query (g : Geom) : Nat := 64 + g.hd

/-! ## Frames and blocks (R327, R328) -/

def KvBlock.none : KvBlock :=
  { frames := [], tenant := 0, handle := 0, refs := 0, committed := 0, prov := 0, entry := Option.none, lastRef := 0, alloc := 0 }

def State.kv (s : State) (head : Nat) : KvBlock := Tab.get KvBlock.none s.lfl.blocks head

def setKv (head : Nat) (f : KvBlock → KvBlock) (s : State) : State :=
  { s with lfl := { s.lfl with blocks := Tab.upd KvBlock.none s.lfl.blocks head f } }

def setKvPool (f : Pool → Pool) (s : State) : State :=
  let p := f s.lfl.kvPool
  conserve 0x06 0 p { s with lfl := { s.lfl with kvPool := p } }

/-- The device address of a frame of a tenant. -/
def frameAddr (s : State) (t f : Nat) : Nat :=
  let x := s.tenant t
  x.area.toNat * 2 ^ 21 + (f - x.fbase.toNat) * x.frameKib.toNat * 1024

/-- The map slot of a request context, for its main or draft sequence. -/
def mapSlot (s : State) (t slotNo : Nat) (draft : Bool) : Nat :=
  let x := s.tenant t
  x.area.toNat * 2 ^ 21 + x.kvQuota.toNat * x.frameKib.toNat * 1024 + 131072 * slotNo + (if draft then 65536 else 0)

/-- The frames of a tenant that belong to no block. -/
def blankFrames (s : State) (t : Nat) : List Nat :=
  let used := s.lfl.blocks.flatMap fun b => b.2.frames
  ((List.range (s.tenant t).kvQuota.toNat).map fun i => (s.tenant t).fbase.toNat + i).filter fun f => !used.contains f

/-- A CACHED block becomes BLANK: it leaves the index. -/
def blankBlock (head : Nat) (s : State) : State := setKv head (fun _ => KvBlock.none) s

/-- The CACHED block of a tenant least recently referenced. -/
def oldestCached (s : State) (p : KvBlock → Bool) : Option Nat :=
  (s.lfl.blocks.foldl (fun (m : Option (Nat × Nat)) b =>
    if b.2.refs = 0 && p b.2 then match m with
      | none => some (b.1, b.2.lastRef)
      | some x => if b.2.lastRef < x.2 then some (b.1, b.2.lastRef) else m
    else m) none).map (·.1)

/-- CACHED blocks of the tenant are dropped until `n` frames are BLANK. -/
def makeBlank (t n : Nat) : Nat → State → State
  | 0, s => s
  | fuel + 1, s =>
    if n ≤ (blankFrames s t).length then s else
    match oldestCached s fun b => b.tenant = t with
    | none => s
    | some h => makeBlank t n fuel (blankBlock h s)

/-- A block of `n` frames for a sequence of request `req`, with one reference. -/
def allocBlock (t handle n req : Nat) (s : State) : Nat × State :=
  let s := makeBlank t n (s.lfl.blocks.length + 1) s
  let fs := (blankFrames s t).take n
  let head := fs.headD 0
  let clock := s.lfl.refClock
  let s := setKvPool (fun p => p.take n) (setKv head (fun b => { b with
    frames := fs
    tenant := t
    handle := handle
    refs := 1
    lastRef := clock
    alloc := req }) s)
  (head, { s with lfl := { s.lfl with refClock := s.lfl.refClock + 1 } })

/-- A sequence gains a reference to a block; a CACHED one becomes HELD. -/
def addRef (head : Nat) (s : State) : State :=
  let b := s.kv head
  let s := if b.refs = 0 then setKvPool (fun p => p.take b.frames.length) s else s
  let clock := s.lfl.refClock
  let s := setKv head (fun b => { b with refs := b.refs + 1, lastRef := clock }) s
  { s with lfl := { s.lfl with refClock := s.lfl.refClock + 1 } }

/-- A sequence's reference goes; with the last, the block is CACHED if the index holds it, else BLANK. -/
def dropRef (s : State) (head : Nat) : State :=
  let b := s.kv head
  if b.refs ≤ 1 then
    let s := setKvPool (fun p => p.give b.frames.length) s
    if b.entry.isSome then setKv head (fun b => { b with refs := 0, prov := 0 }) s else blankBlock head s
  else setKv head (fun b => { b with refs := b.refs - 1 }) s

def dropRefs (l : List Nat) (s : State) : State := l.foldl dropRef s

/-- Pages of carried blocks that lie in a tenant's frames. -/
def carriedPages (s : State) (t : Nat) : Nat :=
  ((s.lfl.blocks.filter fun b => b.2.tenant = t && b.2.refs ≠ 0 && !(s.lfl.requests.any fun r => r.1 = b.2.alloc)).map
    fun b => b.2.frames.length).sum

/-- The pages that the tenant's admitted requests have reserved. -/
def reservedPages (s : State) (t : Nat) : Nat := ((s.lfl.requests.filter fun r => r.2.tenant = t).map fun r => r.2.reserved).sum

/-- KV_QUOTA less reservations and carried pages (R328). -/
def freeQuota (s : State) (t : Nat) : Nat := (s.tenant t).kvQuota.toNat - reservedPages s t - carriedPages s t

/-! ## The prefix index (R333 to R338) -/

/-- The token IDs of a block as the hash takes them. -/
def blockTokens (toks : List Word) (j : Nat) : Bytes := ((List.range 16).map fun i => toLE 4 (toks.getD (16 * j + i) 0).toNat).flatten

/-- The number of the prefix key that a tenant uses: its sharing group's, or its own (R333). -/
def keyNo (s : State) (t : Nat) : Nat :=
  let g := (s.tenant t).group.toNat
  let draw := fun n : Nat => if n = 0 then s.lfl.keyBase else n
  if g = 0 || isConf s t then 32 * draw (s.tenant t).prefixKey + t else 32 * draw (Tab.get 0 s.lfl.groupKeys g) + 16 + g

/-- P_j of a sequence (R334). -/
def blockHash (draw handle : Nat) (toks : List Word) : Nat → Nat
  | 0 => (Crypto.sipHash (Config.prefixKey draw) (toLE 8 handle ++ blockTokens toks 0)).toNat
  | j + 1 => (Crypto.sipHash (Config.prefixKey draw) (toLE 8 (blockHash draw handle toks j) ++ blockTokens toks (j + 1))).toNat

/-- The block that an index entry with this key and hash holds. -/
def indexed (s : State) (draw hash : Nat) : Option Nat := (s.lfl.blocks.find? fun b => b.2.entry = some (draw, hash)).map (·.1)

/-- Entries in the set of a hash. -/
def indexSet (s : State) (hash : Nat) : Nat :=
  s.lfl.blocks.countP fun b => match b.2.entry with
    | some e => e.2 % 4096 = hash % 4096
    | none => false

/-- A full block enters the index, if its set has room (R335). -/
def insertIndex (head draw hash : Nat) (s : State) : State :=
  if (indexed s draw hash).isSome then s
  else if indexSet s hash < 16 then setKv head (fun b => { b with entry := some (draw, hash) }) s
  else match oldestCached s fun b => match b.entry with
      | some e => e.2 % 4096 = hash % 4096
      | none => false with
    | some old => setKv head (fun b => { b with entry := some (draw, hash) }) (blankBlock old s)
    | none => if isConf s (s.kv head).tenant then s else { s with lfl := { s.lfl with idxSkip := wrapUp s.lfl.idxSkip 1 } }

/-- Leading blocks of a prompt that the index holds, from block `j` on. -/
def matchBlocks (s : State) (draw handle : Nat) (toks : List Word) : Nat → Nat → List Nat
  | 0, _ => []
  | fuel + 1, j => match indexed s draw (blockHash draw handle toks j) with
    | none => []
    | some h => h :: matchBlocks s draw handle toks fuel (j + 1)

/-- Index entries of a version go when it becomes FREE, and its CACHED blocks become BLANK (R335, R349). -/
def dropVersionBlocks (handle : Nat) (s : State) : State :=
  (s.lfl.blocks.filter fun b => b.2.handle = handle).foldl (fun s b =>
    if b.2.refs = 0 then blankBlock b.1 s else setKv b.1 (fun b => { b with entry := none }) s) s

/-! ## Appends (R329 to R332) -/

/-- The scale mantissa for a max-abs statistic (R331). -/
def kvScale (a : FVal) (e : Int) : Nat :=
  match a with
  | .fin _ m x => let nd := scale2 (2 * m) 127 (x - e); min 255 (max 1 (ceilDiv nd.1 nd.2))
  | _ => 255

/-- A code of an INT8 element and whether it saturated. -/
def kvInt (sc : Nat) (e : Int) (x : FVal) : Byte × Bool :=
  match x with
  | .nan => (0, true)
  | .inf n => (if n then 0x81 else 0x7F, true)
  | .fin n m k =>
    let nd := scale2 m sc (k - e)
    let r := rneDiv nd.1 nd.2
    let q : Int := if n then -((min r 127 : Nat) : Int) else ((min r 127 : Nat) : Int)
    (BitVec.ofInt 8 q, decide (127 < r))

/-- The code whose level is nearest to ± n/d; a tie goes to the smaller magnitude. -/
def nearestBell (neg : Bool) (n d : Nat) : Nat :=
  let x : Int := if neg then -(n : Int) else n
  let dist := fun c : Nat => (x - bell4 c * d).natAbs
  (List.range 16).foldl (fun b c =>
    if dist c < dist b ∨ (dist c = dist b ∧ (bell4 c).natAbs < (bell4 b).natAbs) then c else b) 0

/-- A BELL4 code and whether the element saturated. -/
def kvBell (sc : Nat) (e : Int) (x : FVal) : Nat × Bool :=
  match x with
  | .nan => (7, true)
  | .inf n => (if n then 0 else 15, true)
  | .fin n m k =>
    let nd := scale2 m sc (k - e)
    if 127 * nd.2 < nd.1 then (if n then 0 else 15, true) else (nearestBell n nd.1 nd.2, false)

/-- Pairs of 4-bit codes as bytes, the even element in bits 3:0. -/
def packNibbles : List Nat → Bytes
  | a :: b :: r => BitVec.ofNat 8 (a % 16 + 16 * (b % 16)) :: packNibbles r
  | [a] => [BitVec.ofNat 8 (a % 16)]
  | [] => []

/-- The append area of a row of a tenant, counted in bytes of the shared SRAM. `base` is where the rows of the version
begin in the area. -/
def appendRow (s : State) (t base nkv r : Nat) (g : Geom) : Nat :=
  4096 * ((s.tenant t).base.toNat + (s.tenant t).append.toNat) + base + r * (64 + nkv * g.append)

/-- TOKEN and STOP of a row line. -/
def rowToken (s : State) (at' : Nat) : Word × Bool :=
  (BitVec.ofNat 32 (leNat (s.mem.rdSram at' 4)), leNat (s.mem.rdSram (at' + 4) 1) % 2 = 1)

/-- One layer's page of the entry at position `i` of a block; the number of saturated elements. -/
def writeEntry (g : Geom) (page rec i : Nat) (s : State) : State × Nat :=
  let src := s.mem.rdSram rec g.append
  let hdr := if i = 0 then
      (padTo 8 ((List.range g.heads).map fun h => BitVec.ofNat 8 (kvScale (val32 (field src (4 * h) 4)) g.ke))) ++
      padTo 56 ((List.range g.heads).map fun h => BitVec.ofNat 8 (kvScale (val32 (field src (32 + 4 * h) 4)) g.ve))
    else (readDram s page 64).1
  let elem := fun (off h k : Nat) => bf16.decode (field src (off + 2 * (h * g.d + k)) 2)
  let ks := (List.range g.heads).map fun h => (List.range g.d).map fun k => kvInt (field hdr h 1) g.ke (elem 128 h k)
  let vi := (List.range g.heads).map fun h =>
    (List.range g.d).map fun k => kvInt (field hdr (8 + h) 1) g.ve (elem (128 + 2 * g.hd) h k)
  let vb := (List.range g.heads).map fun h =>
    (List.range g.d).map fun k => kvBell (field hdr (8 + h) 1) g.ve (elem (128 + 2 * g.hd) h k)
  let vals : List (Bytes × Nat) := if g.bell then vb.map fun l => (packNibbles (l.map (·.1)), l.countP (·.2))
    else vi.map fun l => (l.map (·.1), l.countP (·.2))
  let sat := (ks.map fun l => l.countP (·.2)).sum + (vals.map (·.2)).sum
  let s := if i = 0 then writeLines s page (toLines (g.page / 64) (hdr ++ s.fbytes (page + 64) (g.page - 64))) else s
  let s := (List.range g.heads).foldl (fun s h =>
    let s := patchDram s (page + g.keysAt + (16 * h + i) * g.d) ((ks.getD h []).map (·.1))
    patchDram s (page + g.valsAt + g.vbytes ((16 * h + i) * g.d)) (vals.getD h ([], 0)).1) s
  (s, sat)

/-- The summary key of a full page (R332). -/
def writeSummary (g : Geom) (page : Nat) (s : State) : State :=
  let keys := (readDram s (page + g.keysAt) (16 * g.hd)).1
  let code := fun h i k => signed 8 (field keys ((16 * h + i) * g.d + k) 1)
  let mean := fun h k =>
    let t := ((List.range 16).map fun i => code h i k).sum
    let r := rneDiv t.natAbs 16
    BitVec.ofInt 8 (if t < 0 then -(r : Int) else r)
  patchDram s (page + g.sumAt) ((List.range g.heads).flatMap fun h => (List.range g.d).map fun k => mean h k)

/-- The first frames of a sequence's blocks are written into its map slot. -/
def writeMap (ms : Nat) (blocks : List Nat) (s : State) : State :=
  writeLines s ms (toLines ((blocks.length + 15) / 16) (blocks.flatMap fun b => toLE 4 b))

/-- The page of a layer of a block. -/
def pageAddr' (s : State) (head l : Nat) : Nat := frameAddr s (s.kv head).tenant ((s.kv head).frames.getD l 0)

/-- Copy on write: a new block takes the old one's place (R338). -/
def copyBlock (t handle n req old committed : Nat) (g : Geom) (s : State) : Nat × State :=
  let src := (List.range n).map fun l => pageAddr' s old l
  let new := allocBlock t handle n req s
  let s := (List.range n).foldl (fun s l =>
    writeLines s (pageAddr' s new.1 l) ((List.range (g.page / 64)).map fun i => dramRow s (src.getD l 0 + 64 * i))) new.2
  let s := setKv new.1 (fun b => { b with committed := committed }) (dropRef s old)
  (new.1, if isConf s t then s else { s with lfl := { s.lfl with cow := wrapUp s.lfl.cow 1 } })

/-- The block of a sequence that position `p` lies in, ready to be written: allocated, or copied where it is shared. -/
def writableBlock (t n req p : Nat) (g : Geom) (q : Sequence) (s : State) : Sequence × State :=
  let j := p / 16
  if q.blocks.length ≤ j then
    let r := allocBlock t q.handle n req s
    ({ q with blocks := q.blocks ++ [r.1] }, r.2)
  else
    let old := q.blocks.getD j 0
    if 1 < (s.kv old).refs ∨ (s.kv old).entry.isSome then
      let r := copyBlock t q.handle n req old (p % 16) g s
      ({ q with blocks := q.blocks.set j r.1 }, r.2)
    else (q, s)

/-- One row's entries in every layer, provisional; the saturations so far. -/
def appendOne (t n req p rowAt : Nat) (g : Geom) (acc : Sequence × State × Nat) : Sequence × State × Nat :=
  let w := writableBlock t n req p g acc.1 acc.2.1
  let head := w.1.blocks.getD (p / 16) 0
  let r := (List.range n).foldl (fun (x : State × Nat) l =>
    let y := writeEntry g (pageAddr' x.1 head l) (rowAt + 64 + l * g.append) (p % 16) x.1
    (y.1, x.2 + y.2)) (w.2, acc.2.2)
  (w.1, setKv head (fun b => { b with prov := b.prov + 1 }) r.1, r.2)

/-- The entries of a sequence up to length `len` are committed, those up to `held` stay provisional and the rest are
discarded: full blocks get their summaries and enter the index, blocks without an entry are released (R330, R332, R336,
R344). -/
def commitSeq (t n len held slotNo : Nat) (draft : Bool) (g : Geom) (toks : List Word) (q : Sequence) (s : State) : Sequence × State :=
  let keep := (held + 15) / 16
  let s := dropRefs (q.blocks.drop keep) s
  let blocks := q.blocks.take keep
  let s := ((List.range keep).zip blocks).foldl (fun s x =>
    let c := min 16 (len - 16 * x.1)
    let p := min 16 (held - 16 * x.1) - c
    let old := s.kv x.2
    if old.committed ≥ c ∧ old.prov = p then s else
    let s := setKv x.2 (fun b => { b with committed := c, prov := p }) s
    if c = 16 ∧ old.committed < 16 then
      let s := (List.range n).foldl (fun s l => writeSummary g (pageAddr' s x.2 l) s) s
      insertIndex x.2 (keyNo s t) (blockHash (keyNo s t) q.handle toks x.1) s
    else s) s
  let s := writeMap (mapSlot s t slotNo draft) blocks s
  ({ q with lkv := len, blocks := blocks, prov := held - len }, s)

/-- The retrieval records of a row go to the query store (R330). -/
def storeQuery (ms n rowAt : Nat) (g : Geom) (s : State) : State :=
  (List.range n).foldl (fun s l =>
    let rec' := rowAt + 64 + l * g.append
    writeLines s (ms + 16384 + l * g.query)
      (toLines (g.query / 64) (s.mem.rdSram (rec' + 64) 64 ++ s.mem.rdSram (rec' + 128 + 4 * g.hd) g.hd))) s

/-! ## Attention sets and images (R339 to R342) -/

def intVal (x : Int) : FVal := .fin (decide (x < 0)) x.natAbs 0

/-- The score of a block for a layer; the order of its FP32 operations is open. -/
def scoreOf (s : State) (g : Geom) (query page : Nat) : FVal :=
  let q := (readDram s query g.query).1
  let m := (readDram s page 64).1
  let sm := (readDram s (page + g.sumAt) g.hd).1
  let term := fun h =>
    let inner := ((List.range g.d).map fun i => signed 8 (field q (64 + h * g.d + i) 1) * signed 8 (field sm (h * g.d + i) 1)).sum
    let rho := val32 (field q (4 * h) 4)
    let ks := intVal (field m h 1)
    if s.fbit (page + h) then rnd32 (mulExact (rnd32 (mulExact rho ks)) (intVal inner))
    else rnd32 (mulExact rho (rnd32 (mulExact ks (intVal inner))))
  sumAny (fun i => s.fv (page + 8 + i)) g.heads ((List.range g.heads).map term)

/-- Does a block with the first score rank above one with the second? A NaN ranks below every number, a tie goes to the
higher block. -/
def ranksAbove (a b : FVal × Nat) : Bool :=
  match isNan a.1, isNan b.1 with
  | true, true => decide (b.2 < a.2)
  | true, false => false
  | false, true => true
  | false, false => ltVal b.1 a.1 || (!(ltVal a.1 b.1) && decide (b.2 < a.2))

def insertRanked (x : FVal × Nat) : List (FVal × Nat) → List (FVal × Nat)
  | [] => [x]
  | y :: r => if ranksAbove x y then x :: y :: r else y :: insertRanked x r

/-- The logical blocks of the attention set of a layer, ascending. -/
def attentionSet (s : State) (g : Geom) (q : Sequence) (query l : Nat) : List Nat :=
  let nb := (q.lkv + 15) / 16
  let first := nb - g.win / 16
  if g.topk = 0 ∨ first ≤ g.topk then List.range nb
  else
    let scored := (List.range first).map fun j => (scoreOf s g query (pageAddr' s (q.blocks.getD j 0) l), j)
    let best := ((scored.foldl (fun a x => insertRanked x a) []).take g.topk).map (·.2)
    (List.range nb).filter fun j => first ≤ j || best.contains j

/-- Slots of an attention image (R341). -/
def imageSlots (g : Geom) (ctxMax : Nat) : Nat := if g.topk = 0 then (ctxMax + 15) / 16 else g.win / 16 + g.topk

/-- Rows of 64 bytes from bytes, all with one poison mark. -/
def marked (n : Nat) (bs : Bytes) (p : Bool) : List RowData := (toLines n bs).map fun r => { r with poison := p }

/-- Rows that are formed from the meta lines of `per` slots each: a poisoned line poisons the rows it enters. -/
def fromMetas (n per : Nat) (bs : Bytes) (metas : List (Option RowData)) : List RowData :=
  ((List.range n).zip (toLines n bs)).map fun x =>
    { x.2 with poison := ((metas.drop (per * x.1)).take per).any fun m => m.any fun r => r.poison }

/-- The attention image of a layer of a sequence. -/
def attentionImage (s : State) (g : Geom) (ctxMax : Nat) (q : Sequence) (query l : Nat) : List RowData :=
  let p := imageSlots g ctxMax
  let set := attentionSet s g q query l
  let page := fun i => (set[i]?).map fun j => pageAddr' s (q.blocks.getD j 0) l
  let metas := (List.range p).map fun i => (page i).map fun a => dramRow s a
  let valid := fun i k => match set[i]? with
    | some j => decide (16 * j + k < q.lkv)
    | none => false
  let quarter := (p + 3) / 4
  let half := (p + 1) / 2
  let keyScales := (List.range g.heads).flatMap fun h =>
    marked 1 [BitVec.ofInt 8 g.ke] false ++
    fromMetas quarter 4 (metas.flatMap fun m => List.replicate 16 (match m with
      | some r => r.data.getD h 0
      | none => 1)) metas
  let bias := marked half ((List.range p).flatMap fun i => (List.range 16).flatMap fun k =>
    toLE 2 (if valid i k then 0 else 0xFF80)) false
  let valScales := (List.range g.heads).flatMap fun h =>
    fromMetas half 2 (((List.range p).zip metas).flatMap fun x => (List.range 16).flatMap fun k =>
      toLE 2 (match x.2 with
        | some r => if valid x.1 k then (bf16.conv (.fin false (r.data.getD (8 + h) 0).toNat g.ve)).bits else 0
        | none => 0)) metas
  let part := fun (off bytes : Nat) => (List.range g.heads).flatMap fun h => (List.range p).flatMap fun i =>
    match page i with
    | some a => (List.range (bytes / 64)).map fun r => dramRow s (a + off + h * bytes + 64 * r)
    | none => marked (bytes / 64) [] false
  keyScales ++ bias ++ valScales ++ part g.keysAt (16 * g.d) ++ part g.valsAt (g.vbytes (16 * g.d))

end Sys2Proof.Machine
end

