-- ==== Sys2Proof/Machine/VersionOps.lean ====
section
/-! DEFINITION. Model versions (chapter 10): headers and their records, activation checks, reference counts, slots, the cores
of a partition, and the release of a version. -/

namespace Sys2Proof.Machine

open Sys2Proof Numeric

/-! ## Headers and records (R179, R224, R296, R297) -/

/-- The fields that a version takes from its 128-byte header. -/
def withHeader (v : Version) (h : Bytes) : Version :=
  let at' := fun off => v.addr + 64 * field h off 4
  { v with
    kind := field h 2 1
    delta := bit (field h 3 1) 0
    spec := bit (field h 3 1) 1
    nlayers := field h 4 2
    nrec := field h 6 1
    nroles := field h 7 1
    ctxMax := field h 8 2
    baseHandle := field h 10 2
    nkv := field h 12 2
    ntables := field h 14 2
    lsrAt := at' 16
    recAt := at' 20
    tablesAt := at' 24
    fbAt := at' 28
    progAt := at' 36
    deltasAt := at' 40
    geomAt := at' 44
    cPf := field h 48 4
    cDec := field h 52 4
    cFix := field h 56 4 }

def headerBad (h : Bytes) : Bool :=
  field h 0 2 ≠ 1 || field h 2 1 = 0 || decide (4 < field h 2 1) || decide (3 < field h 3 1) || decide (1024 < field h 4 2) ||
  decide (16 < field h 6 1) || field h 7 1 = 0 || decide (64 < field h 7 1) || decide (255 < field h 14 2) ||
  (h.drop 60).any (· ≠ 0)

/-- A recurrent record (R179). -/
structure RecRec where
  lcode : Nat
  bmax : Nat
  off : Nat
  len : Nat
  bwin : Nat
  opidx : Nat
  stage : Nat
  bad : Bool
deriving DecidableEq, Repr

def parseRec (bs : Bytes) : RecRec :=
  let w := leNat bs
  let off := 64 * bits w 8 10
  let len := 64 * (bits w 18 10 + 1)
  { lcode := bits w 0 3
    bmax := bits w 3 5
    off := off
    len := len
    bwin := bits w 32 16
    opidx := bits w 48 16
    stage := bits w 64 32
    bad := decide (4 < bits w 0 3) || bits w 3 5 = 0 || decide (24 < bits w 3 5) || bits w 28 4 ≠ 0 ||
      decide (20000 < bits w 32 16) || decide (15 < bits w 48 16) || bits w 96 32 ≠ 0 || decide (65536 < off + len) }

/-- L of a record. -/
def RecRec.steps (r : RecRec) : Nat := 4 * 2 ^ r.lcode

def insertRec (r : RecRec) : List RecRec → List RecRec
  | [] => [r]
  | x :: l => if r.opidx < x.opidx then r :: x :: l else x :: insertRec r l

/-- The recurrent operators of a version in the model's order. -/
def recsOf (s : State) (v : Version) : List RecRec :=
  ((List.range v.nrec).map fun i => parseRec (readDram s (v.recAt + 16 * i) 16).1).foldl (fun l r => insertRec r l) []

def parseLayer (b : Bytes) : LayerRec := {
  block0 := field b 0 4
  ntiles := field b 4 3
  tfmt := field b 7 1 % 16
  chan := field b 7 1 / 16
  set0 := field b 8 1
  nsets := field b 9 1
  fbElig := bit (field b 10 1) 0
  dfrac := field b 12 2
  fbOff := field b 16 4 }

/-- The version whose layer stream records and tables a version uses: its base for a variant (R300). -/
def streamVersion (s : State) (h : Nat) : Version :=
  let v := versionOf s h
  if v.delta then versionOf s v.baseHandle else v

/-- The handle of the version that a pass of `h` streams. -/
def passHandle (s : State) (h : Nat) : Nat := if (versionOf s h).delta then (versionOf s h).baseHandle else h

def layersOf (s : State) (h : Nat) : List LayerRec :=
  let v := streamVersion s h
  (List.range v.nlayers).map fun i => parseLayer (readDram s (v.lsrAt + 32 * i) 32).1

/-- Entries of a program table up to the first that is all zero. -/
def programEntries (s : State) (v : Version) : Nat → Nat → List Bytes
  | 0, _ => []
  | n + 1, i =>
    let e := (readDram s (v.progAt + 16 * i) 16).1
    if e.all (· = 0) then [] else e :: programEntries s v n (i + 1)

/-- The image address for a pass kind and role. -/
def imageOf (s : State) (v : Version) (kind role : Nat) : Option DWord :=
  ((programEntries s v (6 * v.nroles) 0).find? fun e => field e 0 1 = kind && field e 1 1 = role).map fun e =>
    BitVec.ofNat 64 (field e 8 8)

/-- The pass kinds that a version's KIND and FLAGS use (R297). -/
def passKinds (v : Version) : List Nat :=
  match v.kind with
  | 1 => if v.spec then [0, 1, 2] else [0, 1]
  | 2 => [0, 3]
  | 3 => [5]
  | _ => [4]

/-! ## Activation (R299) -/

/-- The plain-text span of the version's region. -/
def imageEnd (r : RegionEntry) : Nat := if r.comp then r.headers else r.hi

def inImage (s : State) (v : Version) (a n : Nat) : Bool :=
  decide ((s.region v.region).lo ≤ a) && decide (a + n ≤ imageEnd (s.region v.region))

def layerBad (s : State) (v : Version) (l : LayerRec) : Bool :=
  decide (4 < l.tfmt) || l.ntiles = 0 || l.nsets = 0 || decide (64 < l.nsets) ||
  !inImage s v (2048 * l.block0) (2048 * l.ntiles * l.blocks)

/-- The version's own owner, or any reader for OWNER 0, may read a program image there (R152, R297). -/
def imagePermitted (s : State) (owner : Nat) (p : Place2) (n : Nat) : Bool :=
  if owner = 0 then match p with
    | .dram a => match entryOf s a n with
      | some e => (s.region e).type = 1 && (s.region e).owner = 0 && decide (a + n ≤ imageEnd (s.region e))
      | none => false
    | .sram _ => false
  else mayReadPlace s owner p n

/-- A program image is missing or fails R151 or R152. -/
def imageBad (s : State) (owner : Nat) (img : Option DWord) : Bool :=
  match img with
  | none => true
  | some a => match imagePlace s owner a with
    | none => true
    | some p =>
      !imagePermitted s owner p 64 ||
      match parseHeader ((placeRows s p 1).flatMap (·.data)) with
      | none => true
      | some h => !imagePermitted s owner p (imageBytes h.count)

/-- 4 KiB units of the shared SRAM in which a version of this owner may keep its fallback image: the owner's partition
without its state and append areas, or the common area. -/
def fallbackUnits (s : State) (owner : Nat) : List Nat :=
  if owner = 0 then (List.range s.lfl.commonSize.toNat).map fun i => s.lfl.commonBase.toNat + i
  else
    let t := s.tenant owner
    ((List.range t.size.toNat).filter fun i =>
      t.stateUnits.toNat ≤ i && !(decide (t.append.toNat ≤ i) && decide (i < t.append.toNat + t.appUnits.toNat))).map
      fun i => t.base.toNat + i

/-- The first run of `n` units that no version's fallback image holds. -/
def findUnits (s : State) (owner n : Nat) : Option Nat :=
  let free := (fallbackUnits s owner).filter fun u => !(s.lfl.versions.any fun v =>
    v.2.state ≠ 0 && decide (v.2.fbUnit ≤ u) && decide (u < v.2.fbUnit + v.2.fbUnits))
  free.find? fun u => (List.range n).all fun i => free.contains (u + i)

/-- The FAIL code of an activation, 0 when it may go on, the first of R299's order. -/
def activationFail (s : State) (v : Version) (h : Bytes) (fbLen : Nat) (poison : Bool) : Nat :=
  let recs := (List.range v.nrec).map fun i => parseRec (readDram s (v.recAt + 16 * i) 16).1
  let layers := (List.range v.nlayers).map fun i => parseLayer (readDram s (v.lsrAt + 32 * i) 32).1
  let base := handleEntry s v.baseHandle
  if poison || headerBad h ||
      ((v.kind = 1 || v.kind = 2) && (!inImage s v v.geomAt 16 || badGeom (geomBytes s v) v.nkv)) then 1
  else if !inImage s v v.recAt (16 * v.nrec) || recs.any (·.bad) then 2
  else if !v.delta && (!inImage s v v.tablesAt (128 * (v.ntables + 1)) ||
      (List.range v.ntables).any (fun k => !Codec.validLens (Codec.recordLens (tableRecord s v (k + 1))))) then 3
  else if !v.delta && (!inImage s v v.lsrAt (32 * v.nlayers) || layers.any (layerBad s v)) then 4
  else if !inImage s v v.progAt 16 || (passKinds v).any (fun k => (List.range v.nroles).any fun r =>
      imageBad s v.owner.toNat (imageOf s v k r)) then 5
  else if !inImage s v v.fbAt (64 * fbLen) || (fbLen ≠ 0 && (findUnits s v.owner.toNat ((64 * fbLen + 4095) / 4096)).isNone) then 6
  else if v.delta && (match base with
    | some e => (s.version e).state ≠ 3
    | none => true) then 7
  else 0

/-- Activation of the READY version at entry `e`: its FAIL code, and the state after it. -/
def activateVersion (e : Nat) (s : State) : Nat × State :=
  let head := readDram s (s.version e).addr 128
  let v := withHeader (s.version e) head.1
  let fbLen := field head.1 32 4
  let fail := activationFail s v head.1 fbLen head.2
  if fail ≠ 0 then (fail, setVersion s e fun x => { x with state := 5, fail := BitVec.ofNat 3 fail })
  else
    let units := (64 * fbLen + 4095) / 4096
    let unit := (findUnits s v.owner.toNat units).getD 0
    let rows := (List.range fbLen).map fun i => (4096 * unit + 64 * i, dramRow s (v.fbAt + 64 * i))
    let s := if fbLen = 0 then s else rows.foldl (fun s x => writeSram s x.1 x.2) s
    let s := setVersion s e fun _ => { v with state := 3, fail := 0, fbUnit := unit, fbUnits := units }
    (0, if v.delta then setVersion s (v.baseHandle % 1024) fun b => { b with refs := satUp b.refs 1 } else s)

/-! ## Reference counts (R300 to R302) -/

def refVersion (h : Nat) (s : State) : State := setVersion s (h % 1024) fun v => { v with refs := satUp v.refs 1 }

/-- A count of the version goes, and a RETIRING version without any becomes FREE: its fallback units and its blocks in the
prefix index are released, and a variant's base loses a count. `fuel` bounds the chain of bases. -/
def unrefVersion : Nat → Nat → State → State
  | 0, _, s => s
  | n + 1, h, s =>
    let e := h % 1024
    let s := setVersion s e fun v => { v with refs := v.refs - 1 }
    let v := s.version e
    if v.state = 4 ∧ v.refs = 0 then
      let s := dropVersionBlocks h s
      let s := setVersion s e fun v => { Version.free with gen := v.gen + 1 }
      if v.delta then unrefVersion n v.baseHandle s else s
    else s

/-- Drops one count of the version with this handle. -/
def unref (h : Nat) (s : State) : State := if h = 0 then s else unrefVersion 4 h s

/-- Some slot of some tenant is bound to the handle. -/
def slotBound (s : State) (h : Nat) : Bool := s.lfl.tenants.any fun t => t.2.slots.any fun x => x.2 = h

/-- A slot loses its binding: with the last one the version retires. -/
def unbindSlot (t slot : Nat) (s : State) : State :=
  let h := Tab.get 0 (s.tenant t).slots slot
  if h = 0 then s else
  let s := setTenant s t fun x => { x with slots := Tab.set 0 x.slots slot 0 }
  let s := if slotBound s h then s else setVersion s (h % 1024) fun v => { v with state := 4 }
  unref h s

def bindSlot (t slot h : Nat) (s : State) : State :=
  let old := Tab.get 0 (s.tenant t).slots slot
  let s := refVersion h (setTenant s t fun x => { x with slots := Tab.set 0 x.slots slot h })
  if old = 0 then s else
  let s := if slotBound s old then s else setVersion s (old % 1024) fun v => { v with state := 4 }
  unref old s

/-- A READY or FAILED version is discarded. -/
def discardVersion (e : Nat) (s : State) : State :=
  let h := handleOf s e
  setVersion (dropVersionBlocks h s) e fun v => { Version.free with gen := v.gen + 1 }

/-- The version is the tenant's own or, with OWNER 0, open to it by READERS of its region (R204). -/
def openTo (s : State) (t : Nat) (v : Version) : Bool :=
  v.owner.toNat = t || (v.owner = 0 && (s.region v.region).reader t)

/-! ## Cores of a partition (R293, R297, R313, R471) -/

/-- A core that may take roles: it exists, is not fenced or in reset, and is ON or wakes by itself. -/
def inService (s : State) (c : Nat) : Bool :=
  coreExists s c && !coreFenced s c && !(s.dom c).reset && ((s.dom c).state = .on || (s.dom c).auto)

def partitionCores (s : State) (t : Nat) : List Nat :=
  (List.range 64).filter fun c => (s.tenant t).cores.getLsbD c && inService s c

/-- A core that a job of tenant `t` may be dispatched to: nothing runs or waits on it, a suspended job on it has the same
owner, and no request to leave ON waits. -/
def coreIdle (s : State) (t c : Nat) : Bool :=
  let k := s.core c
  inService s c && k.run.isNone && k.assigned.isNone && (k.kept.all fun x => x.run.owner = t) &&
  !(((s.dom c).state = .on || (s.dom c).busy) && (s.dom c).target ≠ .on)

/-- The gang of tenant `t` for a version and a pass kind: roles in ascending core number. -/
def roleGang (s : State) (t : Nat) (v : Version) (kind : Nat) : List (Nat × DWord) :=
  ((partitionCores s t).take v.nroles).zipIdx.map fun x => (x.1, (imageOf s v kind x.2).getD 0)

end Sys2Proof.Machine
end

