-- ==== Sys2Proof/Machine/Ingest.lean ====
section
/-! DEFINITION. Model ingest (chapter 14: R422 to R427; chapter 07: R217, R218; chapter 15: R431): manifests, shards, the
ingest windows, and the table build. -/

namespace Sys2Proof.Machine

open Sys2Proof Numeric

def shardBytes : Nat := 2 ^ 22

/-! ## The manifest (R422, R423) -/

structure Manifest where
  nshards : Nat
  imageLen : Nat
  nonce : Nat
  wrapped : Bytes
  tags : List Bytes
  tmap : List (Nat × Nat × Nat)
  head : Bytes
  mtag : Bytes
deriving DecidableEq, Repr

def manifestLen (nshards ntmap : Nat) : Nat := 192 + 16 * nshards + 12 * ntmap + 16

/-- The manifest in the bytes read, or none where they break R422. -/
def parseManifest (b : Bytes) : Option Manifest :=
  let n := field b 4 4
  let t := field b 24 2
  let total := manifestLen n t
  let len := field b 8 8
  let entry := fun i => 192 + 16 * n + 12 * i
  let m : Manifest := {
    nshards := n
    imageLen := len
    nonce := field b 16 8
    wrapped := (b.drop 32).take 128
    tags := (List.range n).map fun i => (b.drop (192 + 16 * i)).take 16
    tmap := (List.range t).map fun i => (field b (entry i) 1, field b (entry i + 4) 4, field b (entry i + 8) 4)
    head := b.take (total - 16)
    mtag := (b.drop (total - 16)).take 16 }
  let ok := decide (total ≤ b.length) && field b 0 2 = 1 && decide (1 ≤ n) && decide (n ≤ 65536) && decide (t ≤ 4096) &&
    decide (shardBytes * (n - 1) < len) && decide (len ≤ shardBytes * n) && field b 2 2 = 0 && field b 26 6 = 0 &&
    field b 160 32 = 0 && (m.tmap.all fun e => e.1 ≠ 0) && ((List.range t).all fun i => field b (entry i + 1) 3 = 0)
  if ok then some m else none

/-- The key that a wrapped key holds, where the key store does not refuse it for this purpose and function (R431). -/
def unwrapFor (purpose fn : Nat) (w : Bytes) (key : Option Bytes) : Option Bytes :=
  let ok := field w 104 1 = purpose && (field w 105 1 = 0 || field w 105 1 = fn) && field w 106 22 = 0 &&
    (purpose = 1 || field w 88 16 = 0)
  if ok then key else none

def manifestIv (nonce : Nat) : Bytes := toLE 8 nonce ++ [0xFF, 0xFF, 0xFF, 0xFF]
def shardIv (nonce i : Nat) : Bytes := toLE 8 nonce ++ toBE 4 i
def shardAad (len i : Nat) : Bytes := toLE 8 len ++ toLE 4 i

/-- Bytes of shard `i` of an image. -/
def shardLen (len i : Nat) : Nat := min shardBytes (len - shardBytes * i)

/-! ## Flash locations (R423, R269) -/

def locBlock (l : DWord) : Nat := bits64 l 0 22
def locPage (l : DWord) : Nat := bits64 l 32 12

/-- The bytes of a manifest in the flash tier: the header tells how many pages hold it. -/
def flashManifest (s : State) (at' : DWord) : Option Bytes :=
  let b := locBlock at'
  let page := fun i => pageData s b (locPage at' + i)
  let head := page 0
  let total := manifestLen (field head 4 4) (field head 24 2)
  let n := (total + 16383) / 16384
  if blockExists s b && (s.block b).state = bsValid && decide (locPage at' + n ≤ s.flt.pages.toNat) && decide (n ≤ 68)
  then some ((List.range n).flatMap page) else none

def pinBlock (b : Nat) (s : State) : State := if blockExists s b then setBlock b (fun x => { x with pins := x.pins + 1 }) s else s
def unpinBlock (b : Nat) (s : State) : State := setBlock b (fun x => { x with pins := x.pins - 1 }) s

/-! ## Moving shards (R424) -/

def stagingLo (s : State) (i : Ingest) : Nat := (s.region i.stg).lo

/-- Fetches that have begun. -/
def fetching (i : Ingest) : List ShardJob := i.active.filter fun x => x.begun && !(match x.src with | .window _ _ => true | _ => false)

/-- The reads of a shard's pages on its LUN. -/
def queuePages (n shard : Nat) (loc : DWord) (len : Nat) (s : State) : State :=
  let b := locBlock loc
  let pages := (len + 16383) / 16384
  if !blockExists s b || decide (s.flt.pages.toNat < locPage loc + pages) then
    setIngest n (fun i => { i with active := i.active.map fun y => if y.shard = shard then { y with failed := true } else y }) s
  else
    let s := setIngest n (fun i => { i with active := i.active.map fun y => if y.shard = shard then { y with left := pages } else y }) s
    let reads := (List.range pages).map fun p => ({ block := b, page := locPage loc + p, who := .ingest n shard } : PageRead)
    pump (lunKey b) (setLun (lunKey b) (fun l => { l with reads := l.reads ++ reads }) s)

/-- A fetch of a shard begins, into the first of the two places at the start of STG that no other fetch uses. -/
def beginFetch (n shard : Nat) (src : ShardSrc) (waiters : List Sub) (s : State) : State :=
  let i := s.ingest n
  let lo := stagingLo s i
  let place := if (fetching i).any fun x => x.at' = lo then lo + shardBytes else lo
  let job : ShardJob := { shard := shard, src := src, at' := place, waiters := waiters, begun := true, left := 0, failed := false }
  let s := setIngest n (fun i => { i with
    active := (i.active.filter fun x => x.shard ≠ shard) ++ [job]
    shards := Tab.set .absent i.shards shard .staging }) s
  match src with
  | .flash loc => queuePages n shard loc (shardLen i.imageLen shard) s
  | _ => s

/-- The next shard to fetch: one that INGEST_SHARD named and that waits, else the next of an ingest that fetches its own, past
those that have failed. -/
def nextShard (i : Ingest) : Option (Nat × ShardSrc × List Sub × Bool) :=
  match i.active.find? fun x => !x.begun with
  | some x => some (x.shard, x.src, x.waiters, false)
  | none =>
    if i.src = 1 then none else
    match (List.range (i.nshards - i.nextFetch)).find? fun k =>
        Tab.get ShardState.absent i.shards (i.nextFetch + k) = .absent && !(i.active.any fun x => x.shard = i.nextFetch + k) &&
          !i.refetch.contains (i.nextFetch + k) with
    | some k =>
      let n := i.nextFetch + k
      some (n, if i.src = 2 then .flash (i.locs.getD n 0) else .host, [], true)
    | none => none

/-- Shards begin to move, two at a time, while the ingest is not suspended. -/
def startShards (n : Nat) : Nat → State → State
  | 0, s => s
  | fuel + 1, s =>
    let i := s.ingest n
    if i.suspended || i.building || decide (2 ≤ (fetching i).length) then s else
    match nextShard i with
    | none => s
    | some (shard, src, ws, own) =>
      let s := beginFetch n shard src ws s
      startShards n fuel (if own then setIngest n (fun i => { i with nextFetch := shard + 1 }) s else s)

/-- A SUSPEND is reached once no shard moves (R421); the timeout has stopped. -/
def settleIngest (n : Nat) (s : State) : State :=
  let i := s.ingest n
  let reached := s.longSuspended (.ingest n)
  if i.suspended && !reached && !(i.active.any fun x => x.begun) then
    settleLong (.ingest n) 0x18 (markLong (.ingest n) true (setIngest n (fun i => { i with since := s.ms - i.since }) s))
  else s

/-- What waits for a shard ends; the reading of its window ends with it. -/
def endShard (n shard : Nat) (st : BitVec 16) (s : State) : State :=
  let i := s.ingest n
  match i.active.find? fun x => x.shard = shard with
  | none => s
  | some x =>
    let s := setIngest n (fun i => { i with active := i.active.filter fun y => y.shard ≠ shard }) s
    x.waiters.foldl (fun s sub => endWith sub st s) s

/-! ## Ingest windows (R425, R426) -/

def State.window (s : State) (f w : Nat) : Window := Tab.get Window.closed (s.func f).windows w

def setWindow (f w : Nat) (g : Window → Window) (s : State) : State :=
  setFunc s f fun x => { x with windows := Tab.upd Window.closed x.windows w g }

def Window.isOpen (w : Window) : Bool := w.gen.getLsbD 0

/-- The device address of a window's span. -/
def windowAt (s : State) (w : Window) : Nat := (s.region w.stg.toNat).lo + shardBytes * w.offset.toNat

/-- A function may use this span of a STAGING region. -/
def stagingSpan (s : State) (f stg offset : Nat) : Bool :=
  let r := s.region stg
  r.size ≠ 0 && r.type = 5 && r.owner.toNat = f && decide (shardBytes * (offset + 1) ≤ r.len)

/-- Another open window of the function covers the span. -/
def spanCovered (s : State) (f stg offset : Nat) : Bool :=
  (List.range 16).any fun w => (s.window f w).isOpen && (s.window f w).stg.toNat = stg && (s.window f w).offset.toNat = offset

/-- Opens a window, or refuses. -/
def openWindow (sub : Sub) (w : Nat) (stg : Byte) (offset : Word) (s : State) : State :=
  let f := sub.fn.val
  if !(s.func f).winEn then endWith sub St.accessDenied s
  else if (s.window f w).isOpen then endWith sub St.badCommand s
  else if !((s.region stg.toNat).size ≠ 0 && (s.region stg.toNat).type = 5 && (s.region stg.toNat).owner.toNat = f) then
    endWith sub St.accessDenied s
  else if !stagingSpan s f stg.toNat offset.toNat || spanCovered s f stg.toNat offset.toNat then endWith sub St.badCommand s
  else
    let s := setWindow f w (fun x => { x with
      gen := wrapUp x.gen 1
      stg := stg
      offset := offset.setWidth 16 }) s
    reply sub St.ok (s.window f w).gen.toNat s

/-- Closes an open window. -/
def closeWindow (f w : Nat) (s : State) : State :=
  if (s.window f w).isOpen then
    setWindow f w (fun x => { x with gen := wrapUp x.gen 1, droppedSince := 0, hasClosed := true }) s
  else s

/-- An INGEST_SHARD no longer reads the window's span: the WIN_OPENs that waited for it go on. -/
def endReading (f w : Nat) (s : State) : State :=
  let s := setWindow f w (fun x => { x with reading := x.reading - 1 }) s
  let x := s.window f w
  if x.reading ≠ 0 then s
  else x.opens.foldl (fun s o => openWindow o.1 w o.2.1 o.2.2 s) (setWindow f w (fun x => { x with opens := [] }) s)

/-- The part of `endShard` that concerns a window. -/
def endShardWindow (n shard : Nat) (s : State) : State :=
  let i := s.ingest n
  match i.active.find? fun x => x.shard = shard with
  | some x => match x.src with
    | .window w _ => endReading i.sub.fn w s
    | _ => s
  | none => s

/-! ## The end of an ingest -/

/-- What an ingest still holds goes: waiting INGEST_SHARDs, its queued flash reads, its pins, the table slot it holds. -/
def clearIngest (n : Nat) (s : State) : State :=
  let i := s.ingest n
  let s := i.active.foldl (fun s x => endShard n x.shard St.noSuchJob (endShardWindow n x.shard s)) s
  let s := { s with flt := { s.flt with units := s.flt.units.map fun u => (u.1, { u.2 with reads := u.2.reads.filter fun r =>
    match r.who with
    | .ingest job _ => job ≠ n
    | .direct _ => true }) } }
  let s := if i.src = 2 then i.locs.foldl (fun s l => unpinBlock (locBlock l) s) s else s
  let s := (List.range 4).foldl (fun s k =>
    if (s.slot k).held && (match (s.slot k).tag with | some t => t.1 = i.handle | none => false)
    then setSlot k (fun t => { t with held := false }) s else s) s
  { s with
    gdl := { s.gdl with builds := s.gdl.builds.filter fun b => b.ingest ≠ n }
    lfl := { s.lfl with ingests := Tab.set Ingest.none s.lfl.ingests n Ingest.none } }

/-- The ingest has failed or is cancelled: its version is FAILED. -/
def failIngest (n : Nat) (s : State) : State :=
  let h := (s.ingest n).handle
  clearIngest n (setVersion s (h % 1024) fun v => { v with state := 5 })

/-- CANCEL of an ingest. -/
def cancelIngest (n : Nat) (s : State) : State :=
  let sub := (s.ingest n).sub
  finishLong (.ingest n) sub (plainCompletion sub St.cancelled 0) (failIngest n s)

def suspendIngest (n : Nat) (s : State) : State := settleIngest n (setIngest n (fun i => { i with suspended := true }) s)

def resumeIngest (n : Nat) (s : State) : State :=
  let reached := s.longSuspended (.ingest n)
  let s := setIngest n (fun i => { i with suspended := false, since := if reached then s.ms - i.since else i.since }) s
  startShards n 4 (settleLong (.ingest n) 0x19 (markLong (.ingest n) false s))

/-! ## INGEST -/

/-- The image fits its region and every TMAP entry lies in it. -/
def imageFits (r : RegionEntry) (m : Manifest) : Bool :=
  decide (m.imageLen ≤ if r.comp then 255 * r.len / 256 else r.len) &&
  m.tmap.all fun e => decide (e.2.1 + e.2.2 ≤ (m.imageLen + 2047) / 2048)

def ingestTimeout (req : IngestReq) : Nat := if req.timeoutMs = 0 then 60000 else req.timeoutMs.toNat

/-- The version entry an ingest takes: the lowest that is FREE. An ACTIVE version never changes (R299), so a region that
holds one, or one that retires and is still referenced, has no place for an image. -/
def newVersion (s : State) (dst : Nat) : Option Nat :=
  if s.lfl.versions.any fun v => (v.2.state = 3 || v.2.state = 4) && v.2.region = dst then none
  else (firstFree (fun k => (s.version (k + 1)).state ≠ 0) 1023).map fun k => k + 1

def startIngest (sub : Sub) (req : IngestReq) (m : Manifest) (key : Bytes) (e : Nat) (s : State) : State :=
  let r := s.region req.dst.toNat
  let s := setVersion s e fun v => { Version.free with
    state := 1
    gen := v.gen
    owner := r.owner
    region := req.dst.toNat
    addr := r.lo }
  let n := s.lfl.nextJob
  let i : Ingest := {
    sub := sub
    src := req.src.toNat
    dst := req.dst.toNat
    stg := req.stg.toNat
    timeoutMs := ingestTimeout req
    report := req.report.toNat
    nshards := m.nshards
    imageLen := m.imageLen
    nonce := m.nonce
    tags := m.tags
    tmap := m.tmap
    key := key
    locs := req.locs
    handle := handleOf s e
    shards := []
    active := []
    nextFetch := 0
    refetch := []
    since := s.ms
    suspended := false
    building := false }
  let i := if i.src = 2 then { i with locs := req.locs.take m.nshards ++ [req.manifestAt] } else i
  let s := { s with lfl := { s.lfl with nextJob := n + 1, ingests := Tab.set Ingest.none s.lfl.ingests n i } }
  let s := if i.src = 2 then i.locs.foldl (fun s l => pinBlock (locBlock l) s) s else s
  let s := addLong { fn := sub.fn, jobId := sub.jobId, kind := .ingest n, suspended := false, waiting := [] } s
  startShards n 4 s

def execIngest (sub : Sub) (req : IngestReq) (s : State) : Out :=
  hostCommand 0x10 sub (fun s =>
    let f := sub.fn.val
    let dst := s.region req.dst.toNat
    let stg := s.region req.stg.toNat
    let mine := fun (r : RegionEntry) (t : BitVec 3) => r.size ≠ 0 && r.type = t && r.owner.toNat = f
    if decide (2 < req.src.toNat) then endWith sub St.badCommand s
    else if req.src = 2 ∧ f ≠ 0 then endWith sub St.accessDenied s
    else if !mine dst 1 || !mine stg 5 then endWith sub St.accessDenied s
    else if stg.len < 2 * shardBytes then endWith sub St.badCommand s
    else if req.src = 2 ∧ !tierReady s then endWith sub St.flashNotReady s
    else
      match (if req.src = 2 then flashManifest s req.manifestAt else some req.manifest).bind parseManifest with
      | none => endWith sub St.ingestAuth s
      | some m =>
        match unwrapFor 1 f m.wrapped req.key with
        | none => endWith sub St.ingestAuth s
        | some key =>
          if Crypto.gcmTag key (manifestIv m.nonce) m.head [] ≠ m.mtag then endWith sub St.ingestAuth s
          else if !imageFits dst m then endWith sub St.ingestSpace s
          else match newVersion s req.dst.toNat with
            | none => endWith sub St.ingestSpace s
            | some e => startIngest sub req m key e s) s

/-! ## INGEST_SHARD -/

/-- The first ingest of the function that carries this job ID. -/
def targetIngest (s : State) (f : Nat) (target : Word) : Option Nat :=
  s.lfl.longOps.findSome? fun l => if l.fn = f ∧ l.jobId = target then (match l.kind with | .ingest n => some n | _ => none) else none

/-- One more command waits for a shard that is on its way already. -/
def joinShard (n shard : Nat) (sub : Sub) (s : State) : State :=
  setIngest n (fun i => { i with active := i.active.map fun x =>
    if x.shard = shard then { x with waiters := x.waiters ++ [sub] } else x }) s

/-- An ingest from windows takes its shards from windows only (R424); with which status it turns another source away is the
model's choice (DESIGN CHOICE). -/
def execIngestShard (sub : Sub) (req : ShardReq) (s : State) : Out :=
  hostCommand 0x11 sub (fun s =>
    let f := sub.fn.val
    let shard := req.shard.toNat
    match targetIngest s f req.target with
    | none => endWith sub St.noSuchJob s
    | some n =>
      let i := s.ingest n
      let st := Tab.get ShardState.absent i.shards shard
      let known := i.active.any fun x => x.shard = shard
      let waiting := fun (begun : Bool) (at' : Nat) =>
        ({ shard := shard, src := req.src, at' := at', waiters := [sub], begun := begun, left := 0, failed := false } : ShardJob)
      if i.nshards ≤ shard ∨ st = .verified then endWith sub St.shardState s
      else match req.src with
        | .window w gen =>
          let x := s.window f w.val
          if x.gen ≠ gen || !stagingSpan s f x.stg.toNat x.offset.toNat then endWith sub St.windowStale s
          else
            let s := closeWindow f w.val s
            if known then joinShard n shard sub s
            else
              let s := setWindow f w.val (fun x => { x with reading := x.reading + 1 }) s
              let at' := windowAt s (s.window f w.val)
              setIngest n (fun i => { i with
                active := i.active ++ [waiting true at']
                shards := Tab.set .absent i.shards shard .staged }) s
        | .flash loc =>
          if i.src = 1 then endWith sub St.badCommand s
          else if f ≠ 0 then endWith sub St.accessDenied s
          else if !tierReady s then endWith sub St.flashNotReady s
          else if known then joinShard n shard sub s
          else
            let s := if i.src = 2 then pinBlock (locBlock loc) (setIngest n (fun i => { i with locs := i.locs ++ [loc] }) s) else s
            startShards n 4 (setIngest n (fun i => { i with active := i.active ++ [waiting false 0] }) s)
        | .host =>
          if i.src = 1 then endWith sub St.badCommand s
          else if known then joinShard n shard sub s
          else startShards n 4 (setIngest n (fun i => { i with active := i.active ++ [waiting false 0] }) s)) s

/-! ## Staging and verifying -/

/-- A shard fails: it is ABSENT again, SHARD_FAIL is posted with its cause, and what waits for it ends. -/
def failShard (n shard cause : Nat) (s : State) : State :=
  let i := s.ingest n
  let s := endShard n shard St.ingestAuth (endShardWindow n shard s)
  let s := setIngest n (fun i => { i with
    shards := Tab.set .absent i.shards shard .absent
    refetch := shard :: i.refetch }) s
  let s := postEvent i.sub.fn (evShardFail i.sub.jobId shard cause) s
  settleIngest n (startShards n 4 s)

/-- A fetched shard has arrived in staging, or its source read has failed. -/
def execShardStaged (job : Nat) (shard : Nat) (data : Option Bytes) (s : State) : Out :=
  let i := s.ingest job
  let entry := i.active.find? fun x => x.shard = shard && x.begun
  whenRunning s (Tab.get ShardState.absent i.shards shard = .staging && entry.any fun x => x.left = 0 || x.failed) fun s =>
    match entry with
    | none => s
    | some x =>
      let len := shardLen i.imageLen shard
      let put := fun bs => setIngest job (fun i => { i with shards := Tab.set .absent i.shards shard .staged })
        (writeLines s x.at' (toLines ((len + 63) / 64) (padTo len bs)))
      match x.src with
      | .flash loc =>
        if x.failed then failShard job shard 2 s
        else put ((List.range ((len + 16383) / 16384)).flatMap fun p => pageData s (locBlock loc) (locPage loc + p))
      | .host => match data with
        | some bs => put bs
        | none => failShard job shard 3 s
      | .window _ _ => s

/-- Raw headers for the blocks of a verified shard (R210, R217), in whole header lines. -/
def writeRawHeaders (s : State) (r : RegionEntry) (shard blocks : Nat) : State :=
  writeLines s (r.headers + 8 * (2048 * shard))
    (List.replicate ((blocks + 7) / 8) { data := (List.replicate 8 (toLE 8 Codec.rawHeader)).flatten, poison := false })

/-- Every shard is VERIFIED: the table build begins, with a table slot if it has tables to build and one is free (R221). -/
def beginBuild (n : Nat) (s : State) : State :=
  let i := s.ingest n
  let s := setIngest n (fun i => { i with building := true }) s
  if !(s.region i.dst).comp || i.tmap.isEmpty then s
  else match loadSlot s with
    | some k =>
      let s := setSlot k (fun t => { t with tag := some (i.handle, (i.tmap.headD (0, 0, 0)).1), held := true, record := [] }) s
      { s with gdl := { s.gdl with builds := s.gdl.builds ++ [{ ingest := n, handle := i.handle, waiting := false }] } }
    | none => { s with gdl := { s.gdl with builds := s.gdl.builds ++ [{ ingest := n, handle := i.handle, waiting := true }] } }

/-- The tag of a staged shard is verified over its ciphertext; a good one is decrypted into DST as raw blocks. The rest of
its last block is free. -/
def execShardVerifyDone (job : Nat) (shard : Nat) (s : State) : Out :=
  let i := s.ingest job
  whenRunning s (Tab.get ShardState.absent i.shards shard = .staged) fun s =>
    match i.active.find? fun x => x.shard = shard with
    | none => s
    | some x =>
      let len := shardLen i.imageLen shard
      let cipher := readDram s x.at' len
      let iv := shardIv i.nonce shard
      if cipher.2 || Crypto.gcmTag i.key iv (shardAad i.imageLen shard) cipher.1 ≠ i.tags.getD shard [] then failShard job shard 1 s
      else
        let r := s.region i.dst
        let blocks := (len + 2047) / 2048
        let data := Crypto.gcmCrypt i.key iv cipher.1 ++ s.fbytes 0 (2048 * blocks - len)
        let s := (writeLines s (r.lo + shardBytes * shard) (toLines (32 * blocks) data)).spend
        let s := if r.comp then writeRawHeaders s r shard blocks else s
        let s := endShard job shard St.ok (endShardWindow job shard s)
        let s := setIngest job (fun i => { i with
          shards := Tab.set .absent i.shards shard .verified
          since := s.ms }) s
        let s := settleIngest job (startShards job 4 s)
        if (List.range i.nshards).all fun k => Tab.get ShardState.absent (s.ingest job).shards k = .verified
        then beginBuild job s else s

/-! ## The table build (R217, R218) -/

/-- The plain text of the block at an address, none where a line of it is poisoned. -/
def plainBlock (s : State) (e a : Nat) : Option Bytes :=
  let ls := (readBlock s e a).1
  if ls.any (·.poison) then none else some (ls.flatMap (·.data))

/-- A coded block takes its place, then its header. One of more than 30 lines keeps its raw form (R212). -/
def codeBlock (e table : Nat) (rec : Bytes) (s : State) (a : Nat) : State :=
  let r := s.region e
  match plainBlock s e a with
  | none => s
  | some plain =>
    let c := Codec.compress rec plain
    if 30 < c.2 then s
    else
      let s := writeLines s a (toLines c.2 c.1)
      patchDram s (r.headers + 8 * ((a - r.lo) / 2048)) (toLE 8 (Codec.codedHeader table c.2 (Codec.crc16 plain)))

/-- One table of a build over the blocks that TMAP gives it: its counts, its record, then its blocks. -/
def buildTable (e tablesAt table : Nat) (blocks : List Nat) (s : State) : State :=
  let r := s.region e
  let addrs := blocks.map fun b => r.lo + 2048 * b
  let counts := Codec.countSyms (addrs.filterMap (plainBlock s e))
  let want := (List.range 256).map fun k => s.fv (256 * table + k) % 13
  let rec' := Codec.lensRecord (Codec.builtLens counts want)
  let at' := tablesAt + 128 * table
  if at' < r.lo ∨ r.headers < at' + 128 then s
  else addrs.foldl (codeBlock e table rec') (writeLines s at' (toLines 2 rec'))

/-- The blocks of each table that TMAP names, by rising first mention. -/
def tableBlocks (tmap : List (Nat × Nat × Nat)) : List (Nat × List Nat) :=
  let names := tmap.foldl (fun l e => if l.contains e.1 then l else l ++ [e.1]) []
  names.map fun k => (k, (tmap.filter fun e => e.1 = k).flatMap fun e => (List.range e.2.2).map fun i => e.2.1 + i)

/-- The build over the whole image. The header names the table area (R297). -/
def runBuild (i : Ingest) (s : State) : State :=
  let r := s.region i.dst
  let tablesAt := r.lo + 64 * field (readDram s r.lo 64).1 24 4
  let s := setVersion s (i.handle % 1024) fun v => { v with tablesAt := tablesAt }
  ((tableBlocks i.tmap).foldl (fun s t => buildTable i.dst tablesAt t.1 t.2 s) s).spend

/-- The table build ends: the version is READY and the ingest completes with its handle. A build that still waits for a table
slot takes one that has become free. -/
def execTableBuildComplete (job : Nat) (s : State) : Out :=
  let i := s.ingest job
  let waits := s.gdl.builds.any fun b => b.ingest = job && b.waiting
  whenRunning s (i.building && !i.suspended && domUp s 0x70 && (!waits || (loadSlot s).isSome)) fun s =>
    let s := if (s.region i.dst).comp then runBuild i s else s
    let s := setVersion s (i.handle % 1024) fun v => { v with state := 2 }
    let s := clearIngest job s
    finishLong (.ingest job) i.sub (plainCompletion i.sub St.ok (BitVec.ofNat 32 i.handle)) s

/-! ## The timeout (R427) -/

/-- The bitmap of shards that are not VERIFIED. -/
def shardBitmap (i : Ingest) : Bytes :=
  (List.range ((i.nshards + 7) / 8)).map fun k => BitVec.ofNat 8 ((List.range 8).foldl (fun a b =>
    a + if 8 * k + b < i.nshards ∧ Tab.get ShardState.absent i.shards (8 * k + b) ≠ .verified then 2 ^ b else 0) 0)

def missingShards (i : Ingest) : Nat :=
  (List.range i.nshards).countP fun k => Tab.get ShardState.absent i.shards k ≠ .verified

def execIngestTimeout (job : Nat) (s : State) : Out :=
  let i := s.ingest job
  let live := s.lfl.longOps.any fun l => l.kind = .ingest job && !l.suspended
  whenRunning s (live && !i.building && decide (i.timeoutMs ≤ s.ms - i.since)) fun s =>
    let s := setMems s fun m => m.wrHost i.sub.fn i.report (shardBitmap i)
    finishLong (.ingest job) i.sub (plainCompletion i.sub St.ingestIncomplete (BitVec.ofNat 32 (missingShards i))) (failIngest job s)

/-! ## WIN_OPEN, WIN_CLOSE and the writes -/

def execWinOpen (sub : Sub) (window : Byte) (stg : Byte) (offset : Word) (s : State) : Out :=
  hostCommand 0x12 sub (fun s =>
    if decide (15 < window.toNat) then endWith sub St.badCommand s
    else if (s.func sub.fn).winEn && (s.window sub.fn window.toNat).reading ≠ 0 && !(s.window sub.fn window.toNat).isOpen then
      setWindow sub.fn window.toNat (fun x => { x with opens := x.opens ++ [(sub, stg, offset)] }) s
    else openWindow sub window.toNat stg offset s) s

def execWinClose (sub : Sub) (window : Byte) (s : State) : Out :=
  hostCommand 0x13 sub (fun s =>
    if decide (15 < window.toNat) then endWith sub St.badCommand s
    else endWith sub St.ok (closeWindow sub.fn window.toNat s)) s

/-- A write that finds its window closed is dropped and counted; the first after a close is told (R426). -/
def dropWrite (f w : Nat) (s : State) : State :=
  let x := s.window f w
  let s := setWindow f w (fun x => { x with dropped := satUp x.dropped 1, droppedSince := x.droppedSince + 1 }) s
  if x.hasClosed && x.droppedSince = 0 then postEvent f (evWinDrop w (x.gen - 1).toNat x.gen.toNat 1) s else s

def execWindowWrite (fn : Fn) (offset : BitVec 26) (data : Bytes) (s : State) : Out :=
  let w := offset.toNat / shardBytes
  let at' := offset.toNat % shardBytes
  whenRunning s (!(s.func fn).flr) fun s =>
    let x := s.window fn w
    if !x.isOpen then dropWrite fn w s
    else if stagingSpan s fn x.stg.toNat x.offset.toNat then
      patchDram s (windowAt s x + at') (data.take (shardBytes - at'))
    else s

end Sys2Proof.Machine
end

