-- ==== Sys2Proof/Machine/Gfn.lean ====
section
/-! DEFINITION. The element functions of the gate unit (R145, R146). The tables' values are not published: a result lies
anywhere within the bound around the true function, which is computed here in fixed point, by a value that each part fixes
and the spec leaves open. -/

namespace Sys2Proof.Machine.Gfn

open Sys2Proof Numeric

/-- The scale of the fixed point: 2^128. -/
def one : Nat := 2 ^ 128

/-- ln 2 × 2^128. -/
def ln2 : Nat := 0xB17217F7D1CF79ABC9E3B39803F2F6AF

/-- Σ r^n ÷ n! for n from `i` on, where `t` is the term r^(i-1) ÷ (i-1)!. -/
def expTerms (r : Nat) : Nat → Nat → Nat → Nat
  | 0, _, _ => 0
  | fuel + 1, i, t => let u := t * r / one / i; u + expTerms r fuel (i + 1) u

/-- e^(x ÷ 2^128) as a mantissa (in 1/2^128, from 1 to 2) and a power of two. -/
def expFix (x : Int) : Nat × Int :=
  let k := x / (ln2 : Int)
  let r := (x - k * ln2).toNat
  (one + expTerms r 40 1 one, k)

/-- A finite value as an integer in 1/2^128; what lies below is dropped. -/
def toFix (neg : Bool) (m : Nat) (e : Int) : Int :=
  let v : Int := if 0 ≤ e + 128 then ((m * 2 ^ (e + 128).toNat : Nat) : Int) else ((m / 2 ^ (-(e + 128)).toNat : Nat) : Int)
  if neg then -v else v

/-- m × 2^k for a natural m, rounded down. -/
def shl (m : Nat) (k : Int) : Nat := if 0 ≤ k then m * 2 ^ k.toNat else m / 2 ^ (-k).toNat

/-- σ(x) in 1/2^128. -/
def sigmoid (x : Int) : Nat :=
  let e := expFix (-x)
  one * one / (one + shl e.1 e.2)

/-- tanh x in 1/2^128. -/
def tanh (x : Int) : Int := 2 * (sigmoid (2 * x) : Int) - one

/-- 1 ÷ √(2π) × 2^128. -/
def invSqrt2Pi : Nat := 135753023439836232162591007175785461951

/-- Σ (-1)^k x^(2k+1) ÷ (2^k k! (2k+1)), where `t` is the term without its last divisor. -/
def phiTerms (x2 : Int) : Nat → Nat → Int → Int
  | 0, _, _ => 0
  | fuel + 1, k, t => t / (2 * k + 1) + phiTerms x2 fuel (k + 1) (-(t * x2 / one / (2 * (k + 1))))

/-- Φ(x) in 1/2^128, for |x| at most 4. -/
def phi (x : Int) : Int := one / 2 + (invSqrt2Pi : Int) * phiTerms (x * x / one) 90 0 x / one

/-- A value within `b` of `f`, both in 1/2^128, by the open pick. -/
def within (f : Int) (b : Nat) (pick : Nat) : FVal :=
  let v := f - b + ((2 * b * (pick % 4294967296) / 4294967295 : Nat) : Int)
  .fin (decide (v < 0)) v.natAbs (-128)

/-- A value within the relative bound num ÷ den of m × 2^e, by the open pick. -/
def withinRel (neg : Bool) (m : Nat) (e : Int) (num den pick : Nat) : FVal :=
  let b := m * num / den
  .fin neg (m - b + 2 * b * (pick % 4294967296) / 4294967295) e

/-- Parts of 10^7 in 1/2^128. -/
def tenMillionth (n : Nat) : Nat := n * one / 10000000

/-- x < n for an integer n. -/
def below (neg : Bool) (m : Nat) (e : Int) (n : Int) : Bool := ltVal (.fin neg m e) (.fin (decide (n < 0)) n.natAbs 0)

def fzero : FVal := .fin false 0 0
def fone : FVal := .fin false 1 0

/-- √(m × 2^e)^-1 as a mantissa with exponent -200 - ⌊(e + parity)/2⌋. -/
def rsqrtVal (m : Nat) (e : Int) (pick : Nat) : FVal :=
  let odd : Bool := e % 2 ≠ 0
  let m' := if odd then 2 * m else m
  let e' := if odd then e - 1 else e
  -- 1 ÷ √m' in 1/2^200: the integer square root of 2^400 ÷ m'
  let r := Nat.sqrt (2 ^ 400 / m')
  withinRel false r (-200 - e' / 2) 37 100000 pick

/-- The value that GFN rounds once to BF16 (R145, R146). `x` is the input's encoding, which fixes the pick. -/
def value (fn x : Nat) (v : FVal) : FVal :=
  let pick := Config.gfnPick fn x
  match v with
  | .nan => .nan
  | .inf neg =>
    match fn with
    | 0 => if neg then fzero else fone
    | 1 => .fin neg 1 0
    | 2 => if neg then fzero else .inf false
    | 3 => if neg then fzero else .inf false
    | 4 => if neg then fzero else .inf false
    | 5 => .fin neg 0 0
    | _ => if neg then .nan else fzero
  | .fin neg m e =>
    if m = 0 then
      match fn with
      | 0 => .fin false 1 (-1)
      | 1 => .fin neg 0 0
      | 2 => fzero
      | 3 => fzero
      | 4 => fone
      | 5 => .inf neg
      | _ => .inf neg
    else
      let f := toFix neg m e
      match fn with
      | 0 =>
        if below neg m e (-8) then fzero else if !below neg m e 8 then fone
        else within (sigmoid f) (tenMillionth 31000) pick
      | 1 =>
        if below neg m e (-4) then .fin true 1 0 else if !below neg m e 4 then fone
        else within (tanh f) (tenMillionth 61000) pick
      | 2 =>
        if below neg m e (-8) then fzero else if !below neg m e 8 then v
        else within (f * (sigmoid f : Int) / one) (tenMillionth 160000) pick
      | 3 =>
        if below neg m e (-4) then fzero else if !below neg m e 4 then v
        else within (f * phi f / one) (tenMillionth 63000) pick
      | 4 =>
        -- below -87.34: +0; above 88.72: past every format's range, so that the conversion saturates
        if ltVal (mulExact v (.fin false 100 0)) (.fin true 8734 0) then fzero
        else if ltVal (.fin false 8872 0) (mulExact v (.fin false 100 0)) then .fin false 1 200
        else let y := expFix f; withinRel false y.1 (y.2 - 128) 6 100000 pick
      | 5 => withinRel neg (2 ^ 200 / m) (-200 - e) 25 100000 pick
      | _ => if neg then .nan else rsqrtVal m e pick

end Sys2Proof.Machine.Gfn
end

