-- ==== Sys2Proof/Machine/Media.lean ====
section
/-! DEFINITION. The numbers of the stream front end (chapter 12): the image pipeline, exact and with the tolerance of R361,
and the log-mel features of R364, computed in fixed point with the tolerance the rule gives. -/

namespace Sys2Proof.Machine.Media

open Sys2Proof Numeric

/-! ## Images (R361) -/

/-- A value clamped to 0 to 255, in 1/10,000. -/
def clamp255 (x : Int) : Nat := (min 2550000 (max 0 x)).toNat

/-- R, G and B of a YUV pixel in 1/10,000. -/
def yuvRgb (y u v : Nat) : List Nat :=
  let y' : Int := 11644 * ((y : Int) - 16)
  let u' : Int := (u : Int) - 128
  let v' : Int := (v : Int) - 128
  [clamp255 (y' + 17927 * v'), clamp255 (y' - 2132 * u' - 5329 * v'), clamp255 (y' + 21124 * u')]

/-- R, G and B of pixel `x` of a source line, in 1/10,000. The byte order within a pair or pixel is the one the CSI-2 data
types have: U Y V Y, and B G R. -/
def pixel (dt : Nat) (line : Bytes) (x : Nat) : List Nat :=
  let at' := fun i => (line.getD i 0).toNat
  if dt = 0x1E then yuvRgb (at' (4 * (x / 2) + 1 + 2 * (x % 2))) (at' (4 * (x / 2))) (at' (4 * (x / 2) + 2))
  else [10000 * at' (3 * x + 2), 10000 * at' (3 * x + 1), 10000 * at' (3 * x)]

/-- The value of plane `p` in 1/10^8: R, G, B, or luma. -/
def planeVal (luma : Bool) (p : Nat) (rgb : List Nat) : Nat :=
  if luma then 2126 * rgb.getD 0 0 + 7152 * rgb.getD 1 0 + 722 * rgb.getD 2 0 else 10000 * rgb.getD p 0

/-- A source coordinate of output index `j`, in 1/(2 × out), clamped to the crop window. -/
def coord (x0 w out j : Nat) : Nat :=
  let x : Int := 2 * out * x0 + (2 * j + 1) * w - out
  (min (2 * out * (x0 + w - 1) : Int) (max (2 * out * x0 : Int) x)).toNat

/-- Bilinear interpolation of plane `p` at output pixel (i, j): numerator over 4 × ow × oh × 10^8. -/
def sample (dt : Nat) (luma : Bool) (p : Nat) (lines : List Bytes) (x0 y0 w h ow oh i j : Nat) : Nat :=
  let x := coord x0 w ow j
  let y := coord y0 h oh i
  let xi := x / (2 * ow)
  let yi := y / (2 * oh)
  let fx := x % (2 * ow)
  let fy := y % (2 * oh)
  let at' := fun yy xx => planeVal luma p (pixel dt (lines.getD (min yy (y0 + h - 1)) []) (min xx (x0 + w - 1)))
  (2 * oh - fy) * ((2 * ow - fx) * at' yi xi + fx * at' yi (xi + 1)) +
    fy * ((2 * ow - fx) * at' (yi + 1) xi + fx * at' (yi + 1) (xi + 1))

/-- The INT8 output for an exact value n ÷ d before the subtraction of 128: any code within one step, by an open pick. -/
def outCode (n d pick : Nat) : Byte :=
  let lo : Int := max (-128) (((n + d - 1) / d : Nat) - 129 : Int)
  let hi : Int := min 127 ((n / d : Nat) - 127 : Int)
  BitVec.ofInt 8 (lo + ((pick % ((hi - lo).toNat + 1) : Nat) : Int))

/-- The planes of an image frame (R362). -/
def imageBytes (dt : Nat) (luma : Bool) (lines : List Bytes) (x0 y0 w h ow oh : Nat) (pick : Nat → Nat) : Bytes :=
  (List.range (if luma then 1 else 3)).flatMap fun p => (List.range oh).flatMap fun i => (List.range ow).map fun j =>
    outCode (sample dt luma p lines x0 y0 w h ow oh i j) (4 * ow * oh * 100000000) (pick ((p * oh + i) * ow + j))

/-! ## Audio features (R364) -/

/-- The scale of the fixed point of sines and powers: 2^64, and π in it. -/
def unit : Nat := 2 ^ 64
def piFix : Nat := 57952155664616982739

/-- Σ (-1)^k θ^(2k) ÷ (2k)! from term `k` on, for θ² in 1/2^64. -/
def cosTerms (t2 : Nat) : Nat → Nat → Int → Int
  | 0, _, _ => 0
  | fuel + 1, k, t => t + cosTerms t2 fuel (k + 1) (-(t * t2 / unit / ((2 * k + 1) * (2 * k + 2))))

/-- cos of an angle from 0 to π/2, in 1/2^64. -/
def cosQuad (theta : Nat) : Int := cosTerms (theta * theta / unit) 16 0 unit

/-- cos (2πk ÷ n) in 1/2^64. -/
def cosOf (n k : Nat) : Int :=
  let k := k % n
  let k := if n < 2 * k then n - k else k
  if n < 4 * k then -cosQuad ((n - 2 * k) * piFix / n) else cosQuad (2 * k * piFix / n)

/-- sin (2πk ÷ n) for n a multiple of 4. -/
def sinOf (n k : Nat) : Int := cosOf n (k + 3 * (n / 4))

/-- ln (n ÷ d) in 1/2^128 for n ÷ d from 1 to 2: 2 artanh z. -/
def lnTerms (z2 : Nat) : Nat → Nat → Nat → Nat
  | 0, _, _ => 0
  | fuel + 1, k, t => t / (2 * k + 1) + lnTerms z2 fuel (k + 1) (t * z2 / Gfn.one)

/-- ln of a positive ratio, in 1/2^128. -/
def lnFix (n d : Nat) : Int :=
  let k := ilog2 n d
  let nd := scale2 n d (-k)
  let z := (nd.1 - nd.2) * Gfn.one / (nd.1 + nd.2)
  k * Gfn.ln2 + 2 * (lnTerms (z * z / Gfn.one) 45 0 z : Nat)

/-- Edge frequency `j` of the filters in Hz × 2^64: equally spaced in mel from 20 Hz to `top`. -/
def edge (top j : Nat) : Nat :=
  let x := ((81 - j : Nat) * lnFix 720 700 + (j : Int) * lnFix (700 + top) 700) / 81
  let e := Gfn.expFix x
  700 * (Gfn.shl e.1 (e.2 - 64) - unit)

/-- The power of FFT bin `b` in 1/2^64: 1,200 windowed samples in units of 2^-23, padded to 2,048 points. -/
def binPower (xs : List Int) (b : Nat) : Nat :=
  let sw := xs.zipIdx.map fun x => (x.1 * (unit - cosOf 1200 x.2) / 2 / 2 ^ 23, x.2)
  let re := (sw.map fun x => x.1 * cosOf 2048 (x.2 * b) / unit).sum
  let im := (sw.map fun x => x.1 * sinOf 2048 (x.2 * b) / unit).sum
  ((re * re + im * im) / unit).toNat

/-- The weight of a triangular filter at a frequency, in 1/2^64. -/
def weight (lo mid hi f : Nat) : Nat :=
  if f ≤ lo ∨ hi ≤ f then 0 else if f ≤ mid then (f - lo) * unit / (mid - lo) else (hi - f) * unit / (hi - mid)

/-- The energy of a band in 1/2^64. -/
def bandEnergy (top : Nat) (power : List Nat) (i : Nat) : Nat :=
  let lo := edge top i
  let mid := edge top (i + 1)
  let hi := edge top (i + 2)
  (power.zipIdx.map fun p => p.1 * weight lo mid hi (p.2 * 48000 * unit / 2048) / unit).sum

/-- The 80 bands of a frame as BF16 encodings: ln of the energy, at least 2^-32, within 0.004 by an open pick and rounded. -/
def bands (top : Nat) (xs : List Int) (pick : Nat → Nat) : List Nat :=
  let power := (List.range 1025).map (binPower xs)
  (List.range 80).map fun i =>
    let e := max (bandEnergy top power i) (2 ^ 32)
    (bf16.conv (Gfn.within (lnFix e unit) (Gfn.tenMillionth 40000) (pick i))).bits

end Sys2Proof.Machine.Media
end

