-- ==== Sys2Proof/Machine/StreamOps.lean ====
section
/-! DEFINITION. Stream contexts (chapters 06 and 12): frames and their slots, chunks made ready, state slots and swaps, reset
marks, and closing. -/

namespace Sys2Proof.Machine

open Sys2Proof Numeric

/-! ## Operator instances and chunks in flight (R179 to R181) -/

def OpInst.none : OpInst := {
  tenant := 0
  handle := 0
  lsteps := 0
  bmax := 0
  stateOff := 0
  stateLen := 0
  bwin := 0
  pos := 0
  opidx := 0
  stage := 0 }

def State.inst (s : State) (n : Nat) : OpInst := Tab.get OpInst.none s.lfl.insts n

def Context.owner (c : Context) : Nat := c.cfgOwner.toNat

/-- Image kinds: CAMERA and HOST_IMAGE. -/
def Context.isImage (c : Context) : Bool := c.kind = 1 || c.kind = 4

/-- The context's operators, as instance numbers with their records. -/
def opsOf (s : State) (c : Nat) : List (Nat × OpInst) :=
  s.lfl.insts.filter fun i => i.2.tenant = (s.ctx c).owner && i.2.handle = (s.ctx c).handle

def opAt (s : State) (c p : Nat) : Option OpInst := ((opsOf s c).find? fun i => i.2.pos = p).map (·.2)

/-- Members of chunk jobs that have not committed, with their jobs. -/
def flights (s : State) : List (Nat × Member × Nat) := s.lfl.jobs.flatMap fun j => match j.2.kind with
  | .chunk i ms => (ms.drop j.2.committed).map fun m => (j.1, m, i)
  | _ => []

/-- A chunk of the context is in flight. -/
def ctxInFlight (s : State) (c : Nat) : Bool := (flights s).any fun f => f.2.1.ctx = c

/-- A chunk of the context for the operator at position `p` is in flight. -/
def opInFlight (s : State) (c p : Nat) : Bool := (flights s).any fun f => f.2.1.ctx = c && f.2.1.op = p

/-- The hop of a context in ns (R178, R355). -/
def Context.hop (c : Context) : Nat := if c.isImage then 1000 * c.params.hopUs else 10000000

/-! ## State slots (R186 to R190) -/

/-- Units that the context's state slot needs. -/
def slotNeed (s : State) (c : Nat) : Nat := (opsOf s c).foldl (fun m i => max m ((i.2.stateOff + i.2.stateLen + 4095) / 4096)) 0

def tenantCtxs (s : State) (t : Nat) : List Nat :=
  (List.range 24).filter fun c => (s.ctx c).life ≠ .closed && (s.ctx c).owner = t

/-- Units of the tenant's state area in no slot. -/
def freeUnits (s : State) (t : Nat) : List Nat :=
  let used := (tenantCtxs s t).flatMap fun c => (s.ctx c).units
  ((List.range (s.tenant t).stateUnits.toNat).map fun i => (s.tenant t).base.toNat + i).filter fun u => !used.contains u

def zeroUnits (us : List Nat) (s : State) : State := us.foldl (fun s u => clearSram s (4096 * u) 4096) s

/-- Where byte `o` of a state slot lies in the shared SRAM. -/
def slotByte (us : List Nat) (o : Nat) : Nat := 4096 * us.getD (o / 4096) 0 + o % 4096

/-- The context's ready chunks wait for their state no longer; their window counts from now. -/
def wakeChunks (c : Nat) (s : State) : State :=
  let now := s.ns
  setCtx s c fun x => { x with ready := x.ready.map fun r => if r.waitState then { r with waitState := false, since := now } else r }

/-- A swap-out starts. -/
def startSwapOut (c : Nat) (s : State) : State :=
  setCtx s c fun x => { x with
    loc := .swapOut
    swapWant := false
    ready := x.ready.map fun r => { r with waitState := true } }

/-- The PRESENT context of a tenant that R189 evicts next, other than `c`. -/
def evictCandidate (s : State) (t c : Nat) : Option Nat :=
  let cs := (tenantCtxs s t).filter fun x => x ≠ c && (s.ctx x).loc = .present && !ctxInFlight s x
  let oldest := fun l : List Nat => l.foldl (fun (m : Option Nat) x => match m with
    | none => some x
    | some y => if (s.ctx x).lastCommit < (s.ctx y).lastCommit then some x else m) none
  match oldest (cs.filter fun x => (s.ctx x).ready.isEmpty) with
  | some x => some x
  | none => oldest cs

/-- A context in NONE or ABSENT takes a slot if the units suffice: zero-filled, or by a swap-in. If they do not, an eviction
starts, unless one of the tenant's contexts is being swapped out already. -/
def tryGrant (s : State) (c : Nat) : State :=
  let x := s.ctx c
  let t := x.owner
  let n := slotNeed s c
  let free := freeUnits s t
  if n ≤ free.length then
    let us := free.take n
    if x.loc = .none ∨ x.zeroPend then
      wakeChunks c (setCtx (zeroUnits us s) c fun x => { x with
        loc := .present
        units := us
        zeroPend := false
        needSlot := false })
    else setCtx s c fun x => { x with loc := .swapIn, units := us, needSlot := false }
  else
    let s := setCtx s c fun x => { x with needSlot := true }
    if (tenantCtxs s t).any fun y => (s.ctx y).loc = .swapOut then s
    else match evictCandidate s t c with
      | some y => startSwapOut y s
      | none => s

/-- Needs that wait are evaluated again (R189). -/
def evalNeeds (t : Nat) (s : State) : State :=
  ((tenantCtxs s t).filter fun c => (s.ctx c).needSlot).foldl (fun s c =>
    if (s.ctx c).loc = .none ∨ (s.ctx c).loc = .absent then tryGrant s c else s) s

/-- A chunk of the context is ready while its state is not present. -/
def requestState (c : Nat) (s : State) : State :=
  match (s.ctx c).loc with
  | .present => s
  | .swapIn => s
  | .swapOut => setCtx s c fun x => { x with needSlot := true }
  | _ => tryGrant s c

/-- A swap-out that was asked for starts once no chunk is in flight. -/
def settleSwap (c : Nat) (s : State) : State :=
  if (s.ctx c).swapWant ∧ (s.ctx c).loc = .present ∧ !ctxInFlight s c then startSwapOut c s else s

/-! ## Chunks made ready (R180, R197) -/

/-- The frames that no chunk in flight holds. -/
def Context.loose (c : Context) : List Frame := c.frames.filter fun f => !f.inChunk

/-- A chunk for the operator at position 0 from the frames at hand, if there are enough or the close flushes them. -/
def firstChunk (x : Context) (l : Nat) : Option ReadyChunk :=
  let fs := x.loose
  let flush := x.life = .closing && x.flush
  if l ≤ fs.length ∨ (flush ∧ fs ≠ []) then
    let fs := fs.take l
    let f := fs.getD 0 { idx := 0, row := [], slot := none, inChunk := false, gap := false, firstOfSegment := false }
    some {
      op := 0
      seq := Tab.get 0 x.nextSeq 0
      firstFrame := f.idx
      steps := fs.length
      since := 0
      deadline := 0
      waitState := false
      reset := fs.any (·.firstOfSegment)
      gap := fs.any (·.gap)
      padded := decide (fs.length < l) }
  else none

/-- The next chunk for the operator at position `p`, if its conditions hold. -/
def nextChunk (s : State) (c p : Nat) (o : OpInst) : Option ReadyChunk :=
  let x := s.ctx c
  if (x.ready.any fun r => r.op = p) || opInFlight s c p then none
  else if p = 0 then firstChunk x o.lsteps
  else x.passed.find? fun r => r.op = p && (r.padded || decide (Tab.get 0 x.taken p + o.lsteps ≤ x.arrived))

def takeReady (c p : Nat) (o : OpInst) (s : State) : State :=
  match nextChunk s c p o with
  | none => s
  | some r =>
    let now := s.ns
    let r := { r with since := now, deadline := now + o.lsteps * (s.ctx c).hop, waitState := (s.ctx c).loc != .present }
    let s := setCtx s c fun x => { x with
      ready := x.ready ++ [r]
      passed := x.passed.filter fun y => !(y.op = p && y.seq = r.seq)
      nextSeq := Tab.set 0 x.nextSeq p (r.seq + 1)
      taken := Tab.upd 0 x.taken p (· + o.lsteps) }
    requestState c s

/-- Every operator of the context that can have a chunk ready has it. -/
def makeReady (c : Nat) (s : State) : State :=
  ((List.range 16).filterMap fun p => (opAt s c p).map fun o => (p, o)).foldl (fun s x => takeReady c x.1 x.2 s) s

/-! ## Slots of the stream buffers (R356, R357) -/

def setStreamPool (f : Pool → Pool) (s : State) : State :=
  let p := f s.sfe.pool
  conserve 0x05 0 p { s with sfe := { s.sfe with pool := p } }

/-- A row of slot `k` of the context is released; a slot whose rows are all released returns. -/
def releaseRow (c : Nat) (s : State) (k : Nat) : State :=
  let x := s.ctx c
  match x.slots.find? fun y => y.1 = k with
  | none => s
  | some y =>
    if y.2 ≤ 1 then
      setStreamPool (fun p => p.give 1) (setCtx s c fun x => { x with
        slots := x.slots.filter fun z => z.1 ≠ k
        curRows := if k + 1 = x.slotCtr then 0 else x.curRows })
    else setCtx s c fun x => { x with slots := x.slots.map fun z => if z.1 = k then (z.1, z.2 - 1) else z }

def releaseFrames (c : Nat) (fs : List Frame) (s : State) : State := (fs.filterMap (·.slot)).foldl (releaseRow c) s

/-! ## Reset marks (R193) -/

/-- The members of the context in flight are discarded when they commit. -/
def discardFlights (c : Nat) (s : State) : State :=
  { s with lfl := { s.lfl with jobs := s.lfl.jobs.map fun j => match j.2.kind with
    | .chunk i ms => (j.1, { j.2 with kind := .chunk i (ms.zipIdx.map fun m =>
        if m.1.ctx = c ∧ j.2.committed ≤ m.2 then { m.1 with discard := true } else m.1) })
    | _ => j } }

/-- Frames that no chunk in flight holds are dropped with their chunks, and the context starts again. -/
def dropLoose (c : Nat) (s : State) : State :=
  let x := s.ctx c
  let n0 := Tab.get 0 x.nextSeq 0 - (if x.ready.any fun r => r.op = 0 then 1 else 0)
  let s := releaseFrames c x.loose s
  setCtx s c fun x => { x with
    frames := x.frames.filter (·.inChunk)
    ready := []
    passed := []
    needSlot := false
    discards := satUp x.discards x.ready.length
    nextSeq := (List.range 16).foldl (fun t p => Tab.set 0 t p n0) []
    arrived := 0
    taken := []
    curRows := 0
    window := []
    newSamples := [] }

/-- A reset mark reaches the context. -/
def resetMark (c : Nat) (s : State) : State :=
  let s := setCtx s c fun x => { x with marks := satUp x.marks 1 }
  if (s.ctx c).zeroPend then s
  else
    let s := dropLoose c (discardFlights c s)
    setCtx s c fun x => { x with zeroPend := true, segment := true }

/-! ## Frames (R357, R366, R368) -/

/-- A frame was lost: `source` tells a loss at the source from one under R357. -/
def loseFrame (c : Nat) (source : Bool) (s : State) : State :=
  setCtx s c fun x => { x with
    frameIdx := (x.frameIdx + 1) % 2 ^ 32
    lostSince := true
    lost := if source then satUp x.lost 1 else x.lost
    overrun := if source then x.overrun else satUp x.overrun 1 }

/-- The frame is lost under R357: no slot for a feature row, or its ring entry is still held. -/
def noRoom (x : Context) : Bool :=
  if x.isImage then x.frames.any fun f => f.idx % max 1 x.params.nfr = x.frameIdx % max 1 x.params.nfr
  else x.curRows = 0 && decide (x.rsv.toNat ≤ x.slots.length)

/-- The 256 bytes of a feature row or frame record (R366); a pushed row keeps its bytes 176 to 255 (R367). -/
def frameRow (head : Bytes) (idx : Nat) (gap : Bool) (ts : Nat) : Bytes :=
  padTo 160 head ++ toLE 4 idx ++ [BitVec.ofNat 8 (ofBool gap)] ++ zeros 3 ++ toLE 8 ts ++ padTo 80 (head.drop 176)

/-- A feature row is written into the context's slots. -/
def placeRow (c : Nat) (s : State) : State × Option Nat :=
  let x := s.ctx c
  if x.isImage then (s, none)
  else if x.curRows = 0 then
    let s := setStreamPool (fun p => p.take 1) s
    (setCtx s c fun x => { x with slots := x.slots ++ [(x.slotCtr, 1)], slotCtr := x.slotCtr + 1, curRows := 1 }, some x.slotCtr)
  else
    let k := x.slotCtr - 1
    (setCtx s c fun x => { x with
      slots := x.slots.map fun y => if y.1 = k then (y.1, y.2 + 1) else y
      curRows := (x.curRows + 1) % 16 }, some k)

/-- A frame arrives at its context: it may carry GAP, raise a reset mark, and make chunks ready. `head` gives bytes 0 to 159
for the frame's index. -/
def frameArrives (c : Nat) (head : Bytes) (ts : Nat) (jump : Bool) (s : State) : State :=
  let gap := (s.ctx c).lostSince || jump
  let s := if gap && (s.ctx c).params.resetOnGap then resetMark c s else s
  let idx := (s.ctx c).frameIdx
  let placed := placeRow c s
  let f : Frame := {
    idx := idx
    row := frameRow head idx gap ts
    slot := placed.2
    inChunk := false
    gap := gap
    firstOfSegment := (s.ctx c).segment }
  let now := s.ms
  makeReady c (setCtx placed.1 c fun x => { x with
    life := if x.life = .idle then .running else x.life
    swapWant := if x.life = .idle then !x.swapSubs.isEmpty else x.swapWant
    lastFrame := now
    frameIdx := (x.frameIdx + 1) % 2 ^ 32
    lostSince := false
    segment := false
    arrived := x.arrived + 1
    delivered := wrapUp x.delivered 1
    frames := x.frames ++ [f] })

/-- A context takes frames while it is open and no close has been asked for. -/
def takesFrames (x : Context) : Bool := x.life = .running || x.life = .idle

/-! ## Images (R357, R361, R362) -/

/-- Bytes of an image frame in the frame ring. -/
def StreamParams.frameBytes (p : StreamParams) : Nat := (p.ow * p.oh * (if p.ofmt = 0 then 3 else 1) + 4095) / 4096 * 4096

/-- The image is converted into its ring entry and delivered, or lost. -/
def deliverImage (c : Nat) (im : ImageIn) (s : State) : State :=
  let x := s.ctx c
  if noRoom x then loseFrame c false s
  else
    let p := x.params
    let a := p.ring + p.frameBytes * (x.frameIdx % max 1 p.nfr)
    let bytes := Media.imageBytes im.dt (p.ofmt ≠ 0) im.lines p.x0 p.y0 p.w p.h p.ow p.oh s.fv
    let s := writeLines s a (toLines (bytes.length / 64) bytes)
    (frameArrives c (toLE 8 a) im.timestamp im.jump s).spend

/-- Frames lost at the source take their index when the images before them have been delivered. -/
def settleLost (c : Nat) : Nat → State → State
  | 0, s => s
  | n + 1, s => match (s.ctx c).images with
    | none :: r => settleLost c n (loseFrame c true (setCtx s c fun x => { x with images := r }))
    | _ => s

/-- A source frame of an image context, after decimation: an image, or a loss. -/
def queueImage (c : Nat) (im : Option ImageIn) (s : State) : State :=
  settleLost c 1 (setCtx s c fun x => { x with images := x.images ++ [im] })

/-! ## Audio (R364, R365) -/

/-- One frame from 480 new samples: computed, or lost when one of them is invalid or no slot is free. -/
def audioFrame (c : Nat) (s : State) : State :=
  let x := s.ctx c
  let new := x.newSamples.take 480
  let vals := new.map fun v => v.getD 0
  let win := ((vals.reverse ++ x.window) ++ List.replicate 1200 0).take 1200
  let s := setCtx s c fun x => { x with newSamples := x.newSamples.drop 480, window := win }
  if new.any (·.isNone) then loseFrame c true s
  else if noRoom (s.ctx c) then loseFrame c false s
  else
    let b := Media.bands (if x.params.fmax16 then 16000 else 8000) win.reverse s.fv
    let ts := s.timer
    (frameArrives c (b.flatMap fun v => toLE 2 v) ts false s).spend

/-! ## Closing (R196, R197) -/

/-- The close of an open context: without FLUSH its buffered frames are dropped. -/
def startClose (c : Nat) (flush : Bool) (sub : Option Sub) (s : State) : State :=
  let s := if flush && !(opsOf s c).isEmpty then s else dropLoose c s
  let s := setCtx s c fun x => { x with life := .closing, flush := flush, closeSub := sub, swapWant := false, images := [] }
  makeReady c s

/-- Nothing of the context is left to run or to move. -/
def closeReady (s : State) (c : Nat) : Bool :=
  let x := s.ctx c
  x.life = .closing && !ctxInFlight s c && x.ready.isEmpty && x.passed.isEmpty && x.frames.isEmpty &&
  x.loc ≠ .swapOut && x.loc ≠ .swapIn

/-- The operator instances that no open context is bound to go. -/
def dropInsts (t h : Nat) (s : State) : State :=
  if (List.range 24).any fun c => (s.ctx c).life ≠ .closed && (s.ctx c).owner = t && (s.ctx c).handle = h then s
  else { s with lfl := { s.lfl with insts := s.lfl.insts.filter fun i => !(i.2.tenant = t && i.2.handle = h) } }

/-- A context is CLOSED: its slot and backing area are zeroed, its stream-buffer slots return, its version loses a count. -/
def closeContext (c : Nat) (s : State) : State :=
  let x := s.ctx c
  let s := zeroUnits x.units s
  let s := writeLines s x.params.backing (toLines 1024 [])
  let s := setStreamPool (fun p => p.give x.slots.length) s
  let s := setCtx s c fun y => { Context.init with
    cfgOwner := y.cfgOwner
    kind := y.kind
    src := y.src
    rsv := y.rsv
    marks := y.marks
    late := y.late
    discards := y.discards
    delivered := y.delivered
    lost := y.lost
    overrun := y.overrun
    record := y.record }
  let s := unref x.handle (dropInsts x.owner x.handle s)
  let s := x.swapSubs.foldl (fun s b => endWith b St.streamState s) s
  let s := match x.closeSub with
    | some b => endWith b St.ok s
    | none => s
  evalNeeds x.owner s

end Sys2Proof.Machine
end

