-- ==== Sys2Proof/Machine/Launch.lean ====
section
/-! DEFINITION. What Liftline may dispatch and how a job starts (chapter 10): the passes, chunk jobs and host jobs that are
ready, their classes and gangs, and the start of a job with its Gondola passes. -/

namespace Sys2Proof.Machine

open Sys2Proof Numeric

/-! ## Requests -/

def Sequence.empty : Sequence := { handle := 0, lkv := 0, blocks := [], prov := 0 }

def Request.none : Request := {
  sub := { fn := 0, qid := 0, jobId := 0, noirq := false }
  tenant := 0
  main := 0
  draft := 0
  k := 0
  plen := 0
  maxOut := 0
  prompt := []
  outAddr := 0
  deadline := Option.none
  progress := false
  state := .plain
  seq := Sequence.empty
  dseq := Sequence.empty
  dtoks := []
  out := []
  stopped := false
  reserved := 0
  accepted := 0
  kvSat := 0
  history := []
  specOff := false
  degSteps := 0
  suspended := false
  ending := Option.none
  admittedAt := 0
  slotNo := 0
  energy := 0 }

def State.req (s : State) (n : Nat) : Request := Tab.get Request.none s.lfl.requests n

def setReq (n : Nat) (f : Request → Request) (s : State) : State :=
  { s with lfl := { s.lfl with requests := Tab.upd Request.none s.lfl.requests n f } }

/-- The output is complete: STOP was committed, or MAX_OUT tokens. -/
def Request.finished (r : Request) : Bool := r.stopped || decide (r.maxOut ≤ r.out.length)

/-- The sequence is in a pass that has not been resolved. -/
def busySeq (s : State) (n : Nat) (draft : Bool) : Bool :=
  s.lfl.jobs.any fun j => match j.2.kind with
    | .pass _ seqs => seqs.any fun q => q.req = n && q.isDraft = draft
    | _ => false

def busyReq (s : State) (n : Nat) : Bool := busySeq s n false || busySeq s n true

/-- No entry of the request is provisional. -/
def Request.settled (r : Request) : Bool := r.seq.prov = 0 && r.dseq.prov = 0

/-- A SUSPEND or CANCEL waits for the request and may take effect now (R349). -/
def heldBack (s : State) (n : Nat) : Bool := (s.req n).settled && !(s.longWaiters (.request n)).isEmpty

/-! ## The rows of a pass (R314) -/

/-- A sequence that may join a pass: its rows, or for prefill the rows it has left. -/
def seqRows (r : Request) (draft : Bool) : Option (RowKind × Nat) :=
  if draft then
    match r.state with
    | .prefill => if r.dseq.lkv < r.plen then some (.prefill, r.plen - r.dseq.lkv) else none
    | .draft i => some (.draft, r.seq.lkv + i + 1 - (r.dseq.lkv + r.dseq.prov))
    | _ => none
  else if r.seq.lkv < r.plen then some (.prefill, r.plen - r.seq.lkv)
  else match r.state with
    | .plain => some (.decode, 1)
    | .verify => some (.verify, r.k + 1)
    | _ => none

structure Candidate where
  req : Nat
  tenant : Nat
  handle : Nat
  draft : Bool
  kind : RowKind
  rows : Nat
deriving DecidableEq, Repr

/-- The sequences of version `h` that are ready for a pass, in admission order. -/
def candidates (s : State) (h : Nat) : List Candidate :=
  s.lfl.requests.flatMap fun r => [false, true].filterMap fun d =>
    let hd := if d then r.2.draft else r.2.main
    if hd ≠ 0 && passHandle s hd = h && (r.2.dseq.handle ≠ 0 || !d) && !busySeq s r.1 d && !r.2.suspended && r.2.ending.isNone &&
        !r.2.finished && !heldBack s r.1 && decide ((versionOf s hd).nroles ≤ (partitionCores s r.2.tenant).length) then
      (seqRows r.2 d).map fun k =>
        { req := r.1, tenant := r.2.tenant, handle := hd, draft := d, kind := k.1, rows := k.2 }
    else none

/-- A confidential tenant that shares no set with others (R228). -/
def unshared (s : State) (t : Nat) : Bool := isConf s t && !(s.gdl.share.getLsbD (t - 1))

/-- Rows of a tenant that the append area and the pass have room for (R314, R329). -/
def rowLimit (s : State) (t h : Nat) : Nat :=
  let v := versionOf s h
  min 256 ((s.tenant t).appUnits.toNat * 4096 / (64 + v.nkv * (geomOf s v).append))

/-- One more sequence joins the pass if it fits: prefill rows up to the limit, other rows whole. -/
def joinPass (s : State) (acc : List (Candidate × Nat)) (c : Candidate) : List (Candidate × Nat) :=
  let used := ((acc.filter fun x => x.1.tenant = c.tenant).map (·.2)).sum
  let room := rowLimit s c.tenant c.handle - used
  let other := acc.any fun x => x.1.tenant = c.tenant && x.1.handle ≠ c.handle
  if other || decide (256 ≤ acc.length) || room = 0 then acc
  else if c.kind = .prefill then acc ++ [(c, min room c.rows)]
  else if c.rows ≤ room then acc ++ [(c, c.rows)] else acc

/-- The pass of version `h` that would be dispatched now: decode, verify and draft rows first, then prefill. Tenants whose
sets must be their own do not share it. -/
def formPass (s : State) (h : Nat) : List (Candidate × Nat) :=
  let cs := candidates s h
  match cs with
  | [] => []
  | c :: _ =>
    let cs := cs.filter fun x => if unshared s c.tenant then x.tenant = c.tenant else !unshared s x.tenant
    let cs := cs.filter (fun x => x.kind ≠ .prefill) ++ cs.filter fun x => x.kind = .prefill
    cs.foldl (joinPass s) []

/-- The pass kind of R297. -/
def passKindOf (v : Version) (p : List (Candidate × Nat)) : Nat :=
  if v.kind = 2 then (if p.all fun x => x.1.kind = .prefill then 0 else 3)
  else if p.any fun x => x.1.kind = .verify then 2 else if p.any fun x => x.1.kind = .decode then 1 else 0

/-- Core, owner and image of every member of a gang. -/
abbrev Gang := List (Nat × Nat × DWord)

def tenantsOf (p : List (Candidate × Nat)) : List (Nat × Nat) := (p.map fun x => (x.1.tenant, x.1.handle)).eraseDups

def passGang (s : State) (tenants : List (Nat × Nat)) (kind : Nat) : Gang :=
  tenants.flatMap fun t => (roleGang s t.1 (versionOf s t.2) kind).map fun g => (g.1, t.1, g.2)

/-- The set table: set i holds the core with role i of each tenant. -/
def roleSets (s : State) (tenants : List (Nat × Nat)) : List Nat :=
  let n := tenants.foldl (fun m t => max m (versionOf s t.2).nroles) 0
  (List.range n).map fun i => (tenants.map fun t => match (partitionCores s t.1)[i]? with
    | some c => if i < (versionOf s t.2).nroles then 2 ^ c else 0
    | none => 0).sum

/-! ## What is ready, by class (R313) -/

structure Ready where
  cls : Nat
  /-- The version entry or operator instance of R36; host jobs go by their number. -/
  key : Nat
  age : Nat
  gang : Gang
deriving DecidableEq, Repr

/-- The handles whose passes requests may ask for. -/
def passHandles (s : State) : List Nat :=
  (s.lfl.requests.flatMap fun r => [r.2.main, r.2.draft].filter (· ≠ 0)).map (passHandle s) |>.eraseDups

def readyPass (s : State) (h : Nat) : Option Ready :=
  match formPass s h with
  | [] => none
  | c :: r =>
    let k := passKindOf (versionOf s h) (c :: r)
    some { cls := if k = 0 then 2 else 1, key := h % 1024, age := c.1.req, gang := passGang s (tenantsOf (c :: r)) k }

/-- The chunks of an instance that a job may take, by context (R181). -/
def takable (s : State) (i : Nat) : List (Nat × ReadyChunk) :=
  (tenantCtxs s (s.inst i).tenant).filterMap fun c =>
    if (s.ctx c).handle = (s.inst i).handle && (s.ctx c).loc = .present then
      ((s.ctx c).ready.find? fun r => r.op = (s.inst i).pos && !r.waitState).map fun r => (c, r)
    else none

def instBusy (s : State) (i : Nat) : Bool := s.lfl.jobs.any fun j => match j.2.kind with
  | .chunk k _ => k = i
  | _ => false

def batchFull (s : State) (i : Nat) : Bool := decide ((s.inst i).bmax ≤ (takable s i).length) && !(takable s i).isEmpty

/-- The oldest chunk has waited BWIN. -/
def windowOver (s : State) (i : Nat) : Bool :=
  (takable s i).any fun x => decide (x.2.since + 1000 * (s.inst i).bwin ≤ s.ns)

/-- The gang of a chunk job. -/
def chunkGang (s : State) (t h : Nat) : Gang := passGang s [(t, h)] 4

def readyChunks (s : State) : List Ready :=
  s.lfl.insts.filterMap fun i =>
    if !instBusy s i.1 && (batchFull s i.1 || windowOver s i.1) then
      some { cls := 0, key := i.1, age := (takable s i.1).foldl (fun m x => min m x.2.since) s.ns,
             gang := chunkGang s i.2.tenant i.2.handle }
    else none

/-- The core that an ANYCORE job takes: an idle one of the partition, or a lent one (R294). -/
def anyCore (s : State) (t : Nat) : Option Nat :=
  match (partitionCores s t).find? (coreIdle s t) with
  | some c => some c
  | none =>
    if (s.tenant t).borrow && !isConf s t then
      (List.range 64).find? fun c => coreIdle s t c && (List.range 16).any fun l => l ≠ t && l ≠ 0 && !isConf s l &&
        (s.tenant l).lend && (s.tenant l).cores.getLsbD c
    else none

/-- The gang that a waiting job would take now. -/
def jobGang (s : State) (j : Job) : Gang :=
  match j.kind with
  | .pass h seqs =>
    let ts := (seqs.map fun q => (s.req q.req).tenant).eraseDups
    let hs := ts.map fun t => (t, match seqs.find? fun q => (s.req q.req).tenant = t with
      | some q => if q.isDraft then (s.req q.req).draft else (s.req q.req).main
      | none => h)
    let k := if (versionOf s h).kind = 2 then (if seqs.all fun q => q.rowKind = .prefill then 0 else 3)
      else if seqs.any fun q => q.rowKind = .verify then 2 else if seqs.any fun q => q.rowKind = .decode then 1 else 0
    passGang s hs k
  | .chunk i _ => chunkGang s j.tenant (s.inst i).handle
  | _ =>
    if j.anycore then match anyCore s j.tenant, j.gang with
      | some c, g :: _ => [(c, j.tenant, g.2)]
      | _, _ => j.gang.map fun g => (g.1, j.tenant, g.2)
    else j.gang.map fun g => (g.1, j.tenant, g.2)

def jobClass (j : Job) : Nat :=
  match j.kind with
  | .chunk _ _ => 0
  | .pass _ seqs => if seqs.all fun q => q.rowKind = .prefill then 2 else 1
  | _ => 3

def readyJobs (s : State) : List (Nat × Ready) :=
  (s.lfl.jobs.filter fun j => j.2.state = .ready).map fun j =>
    (j.1, { cls := jobClass j.2, key := match j.2.kind with
      | .pass h _ => h % 1024
      | .chunk i _ => i
      | _ => j.1, age := j.1, gang := jobGang s j.2 })

def readyAll (s : State) : List Ready :=
  readyChunks s ++ (passHandles s).filterMap (readyPass s) ++ (readyJobs s).map (·.2)

/-- Every core of the gang is idle. -/
def startable (s : State) (r : Ready) : Bool := !r.gang.isEmpty && r.gang.all fun g => coreIdle s g.2.1 g.1

/-- The oldest ready work of the highest class present. -/
def headOfLine (all : List Ready) : Option Ready :=
  all.foldl (fun m r => match m with
    | none => some r
    | some x => if r.cls < x.cls ∨ (r.cls = x.cls ∧ r.age < x.age) then some r else m) none

def sharesCore (a b : Gang) : Bool := a.any fun g => b.any fun h => g.1 = h.1

/-- Class order and round robin (R36, R313): no work of a higher class could start, the work that waits for cores at the
head keeps its gang, and within the class the pointer decides. -/
def mayStart (s : State) (r : Ready) : Bool :=
  let all := readyAll s
  startable s r &&
  (all.all fun x => !(decide (x.cls < r.cls) && startable s x)) &&
  (match headOfLine all with
    | some h => h = r || startable s h || !sharesCore h.gang r.gang
    | none => true) &&
  (let ptr := Tab.get 0 s.lfl.rrClass r.cls
   let rank := fun x : Ready => if r.cls = 3 then x.key else (x.key + 4096 - ptr) % 4096
   all.all fun x => !(x.cls = r.cls && startable s x && decide (rank x < rank r)))

def advanceClass (r : Ready) (s : State) : State :=
  { s with lfl := { s.lfl with rrClass := Tab.set 0 s.lfl.rrClass r.cls ((r.key + 1) % 4096) } }

/-! ## Starting a job -/

/-- The cores of a gang get the job in one cycle. -/
def assignGang (n : Nat) (gang : Gang) (s : State) : State :=
  gang.foldl (fun s g => updCore s g.1 fun k => { k with assigned := some (n, g.2.1, g.2.2) }) s

/-- The weight stream of a job is Gondola pass 32n, the images for tenant t are pass 32n + t. -/
def weightPass (n : Nat) : Nat := 32 * n
def imagePass (n t : Nat) : Nat := 32 * n + t

def startStream (n h budget : Nat) (sets : List Nat) (s : State) : State :=
  let ls := layersOf s h
  let now := s.ns
  if ls.isEmpty then s
  else setPass (weightPass n) (fun g => { g with
    job := n
    handle := h
    sets := sets
    start := now
    budget := budget
    layers := ls
    snowEn := s.gdl.snowEn }) s

/-- The images of the tenant's sequences, layer by layer and in pass order (R342). -/
def startImageStream (n t : Nat) (seqs : List PassSeq) (sets : List Nat) (s : State) : State :=
  let mine := seqs.filter fun q => (s.req q.req).tenant = t
  match mine.head? with
  | none => s
  | some q0 =>
    let h := if q0.isDraft then (s.req q0.req).draft else (s.req q0.req).main
    let v := versionOf s h
    let g := geomOf s v
    let rows := (List.range v.nkv).flatMap fun l => mine.flatMap fun q =>
      let r := s.req q.req
      let sq := if q.isDraft then r.dseq else r.seq
      attentionImage s g v.ctxMax sq (mapSlot s t r.slotNo q.isDraft + 16384 + l * g.query) l
    let own := sets.map fun m => (((List.range 64).filter fun c => bit m c && (s.tenant t).cores.getLsbD c).map (2 ^ ·)).sum
    if rows.isEmpty then s
    else (setPass (imagePass n t) (fun p => { p with
      job := n
      handle := h
      sets := own
      layers := [{ LayerRec.none with chan := g.chan, set0 := g.set, nsets := 1 }]
      images := rows }) s).spend

/-- The Gondola passes of a job end. -/
def endStreams (n : Nat) (s : State) : State :=
  { s with gdl := { s.gdl with
    passes := s.gdl.passes.filter fun p => p.2.job ≠ n || p.1 / 32 ≠ n
    buffer := s.gdl.buffer.filter fun e => match e.2 with
      | some b => b.pass / 32 ≠ n
      | none => false } }

/-- Job `n` starts on a gang. -/
def startOn (n : Nat) (gang : Gang) (limit budget : Nat) (s : State) : State :=
  let now := s.ns
  let s := setJob s n fun j => { j with
    gang := gang.map fun g => (g.1, g.2.2)
    left := gang.map (·.1)
    start := now
    limit := limit
    budget := budget
    result := 0
    detail := 0
    state := .running }
  assignGang n gang s

end Sys2Proof.Machine
end

