-- ==== Sys2Proof/Machine/Partition.lean ====
section
/-! DEFINITION. The registers that configure serving (chapters 10 and 11): partitions, the version view, the KV pool and the
KV settings of a tenant. -/

namespace Sys2Proof.Machine

open Sys2Proof Numeric

/-! ## Partitions (R291 to R295, R320, R327) -/

/-- MAXREQ, where 0 counts as 2,048. -/
def Tenant.contexts (t : Tenant) : Nat := if t.maxReq = 0 then 2048 else t.maxReq.toNat

/-- The partition registers as a tenant's values give them. -/
def partSramOf (t : Tenant) : DWord :=
  BitVec.ofNat 64 (pack [(t.base.toNat, 0), (t.size.toNat, 16), (t.stateUnits.toNat, 32)])
def partCfgOf (t : Tenant) : DWord :=
  BitVec.ofNat 64 (pack [(t.kvQuota.toNat, 0), (t.maxReq.toNat, 20), (ofBool t.lend, 32), (ofBool t.borrow, 33)])
def budgetCfgOf (t : Tenant) : DWord := BitVec.ofNat 64 (pack [(t.rate.toNat, 0), (t.burst.toNat, 32)])

/-- The tenant with the values that the four partition registers hold. -/
def withPartition (s : State) (t : Tenant) : Tenant :=
  { t with
    cores := s.lfl.partCores
    base := BitVec.ofNat 14 (bits64 s.lfl.partSram 0 14)
    size := BitVec.ofNat 14 (bits64 s.lfl.partSram 16 14)
    stateUnits := BitVec.ofNat 14 (bits64 s.lfl.partSram 32 14)
    kvQuota := BitVec.ofNat 20 (bits64 s.lfl.partCfg 0 20)
    maxReq := BitVec.ofNat 11 (bits64 s.lfl.partCfg 20 11)
    lend := bits64 s.lfl.partCfg 32 1 = 1
    borrow := bits64 s.lfl.partCfg 33 1 = 1
    rate := BitVec.ofNat 24 (bits64 s.lfl.budgetCfg 0 24)
    burst := BitVec.ofNat 24 (bits64 s.lfl.budgetCfg 32 24) }

def overlap (a n b m : Nat) : Bool := n ≠ 0 && m ≠ 0 && decide (a < b + m) && decide (b < a + n)

/-- A job of the tenant is in flight. -/
def jobInFlight (s : State) (t : Nat) : Bool :=
  s.lfl.jobs.any fun j => (j.2.state = .running || j.2.state = .suspended || j.2.state = .copying || j.2.rerun ||
      (j.2.state = .done && !j.2.isHost)) &&
    match j.2.kind with
    | .pass _ seqs => seqs.any fun q => (s.req q.req).tenant = t
    | _ => j.2.tenant = t

/-- Pages of the tenant that are HELD. -/
def pagesHeld (s : State) (t : Nat) : Nat :=
  ((s.lfl.blocks.filter fun b => b.2.tenant = t && b.2.refs ≠ 0).map fun b => b.2.frames.length).sum

def admitted (s : State) (t : Nat) : Nat := s.lfl.requests.countP fun r => r.2.tenant = t

/-- A core that a job of another tenant has still to leave (R293). -/
def leaving (s : State) (t c : Nat) : Bool :=
  let k := s.core c
  !(s.lfl.tenants.any fun x => x.2.cores.getLsbD c) &&
  (k.run.any (fun r => r.owner ≠ t) || k.kept.any (fun x => x.run.owner ≠ t) || k.assigned.any fun a => a.2.1 ≠ t)

/-- R292, R327 and R441 for tenant `t` with new values `y`. -/
def partitionRefused (s : State) (t : Nat) (y : Tenant) : Bool :=
  let x := s.tenant t
  let others := (List.range 16).filter fun o => o ≠ t && o ≠ 0
  let ranges := (0, s.lfl.sysUnits.toNat) :: (s.lfl.commonBase.toNat, s.lfl.commonSize.toNat) ::
    others.map fun o => ((s.tenant o).base.toNat, (s.tenant o).size.toNat)
  let quota := y.kvQuota ≠ x.kvQuota
  t = 0 ||
  ((List.range 64).any fun c => y.cores.getLsbD c && (!coreExists s c || coreFenced s c || leaving s t c ||
    others.any fun o => (s.tenant o).cores.getLsbD c)) ||
  decide (16384 < y.base.toNat + y.size.toNat) ||
  (ranges.any fun r => overlap y.base.toNat y.size.toNat r.1 r.2) ||
  decide (y.size.toNat < y.stateUnits.toNat) ||
  decide (s.lfl.kvPages.toNat < y.kvQuota.toNat + (others.map fun o => (s.tenant o).kvQuota.toNat).sum) ||
  (partSramOf x != partSramOf y && (jobInFlight s t || (tenantCtxs s t).any fun c =>
    (s.ctx c).loc = .present || (s.ctx c).loc = .swapOut || (s.ctx c).loc = .swapIn)) ||
  (quota && (admitted s t ≠ 0 || pagesHeld s t ≠ 0)) ||
  (x != y && tdiLocked s t)

/-- The CACHED blocks of a tenant become BLANK. -/
def blankCached (t : Nat) (s : State) : State :=
  (s.lfl.blocks.filter fun b => b.2.tenant = t && b.2.refs = 0).foldl (fun s b => blankBlock b.1 s) s

/-- PF0 writes LFL_PART_SEL. -/
def partitionWrite (v : Word) (s : State) : State :=
  let t := bits32 v 0 4
  let s := { s with lfl := { s.lfl with partSel := BitVec.ofNat 4 t } }
  let x := s.tenant t
  if bit32 v 4 then
    let y := withPartition s x
    if partitionRefused s t y then { s with lfl := { s.lfl with partErr := true } }
    else
      let quota := y.kvQuota != x.kvQuota
      let s := { s with lfl := { s.lfl with partErr := false } }
      let s := setTenant s t fun _ => { y with quotaStale := x.quotaStale || quota }
      let s := if quota then blankCached t s else s
      (List.range 64).foldl (fun s c => if x.cores.getLsbD c && !y.cores.getLsbD c then leavePartition c s else s) s
  else { s with lfl := { s.lfl with
      partCores := if t = 0 then 0 else x.cores
      partSram := if t = 0 then 0 else partSramOf x
      partCfg := if t = 0 then 0 else partCfgOf x
      budgetCfg := if t = 0 then 0 else budgetCfgOf x } }

def execPartitionApply (fn : Fn) (v : Word) (s : State) : Out := regWrite s (pf0Open s fn) (partitionWrite v)

/-! ## The version view (R323) -/

/-- The mean of a version's last pass durations. -/
def meanStep (v : Version) : Nat := v.steps.sum / max 1 v.steps.length

def verStat (s : State) (e : Nat) : DWord :=
  let v := s.version e
  let step := if isConf s v.owner.toNat then 0 else min (meanStep v) (2 ^ 32 - 1)
  BitVec.ofNat 64 (pack [(v.state.toNat, 0), (v.fail.toNat, 3), (v.gen.toNat, 6), (v.owner.toNat, 12), (v.refs.toNat, 16),
    (step, 32)])

/-- A write of LFL_VER_SEL by a function, in its own copy. -/
def versionSelect (fn : Nat) (v : Word) (s : State) : State :=
  let e := bits32 v 0 10
  let sees := e ≠ 0 && (fn = 0 || ((s.version e).state ≠ 0 && openTo s fn (s.version e)))
  let stat := if sees then verStat s e else 0
  setFunc s fn fun f => { f with verSel := BitVec.ofNat 10 e, verStat := stat }

def execLflVerSelWrite (fn : Fn) (v : Word) (s : State) : Out := regWrite s (bar0Open s fn) (versionSelect fn v)

/-! ## The KV pool and the tenants' KV settings (R350, R351) -/

/-- A write of KVM_POOL_CFG. -/
def kvPoolWrite (v : DWord) (s : State) : State :=
  let pages := bits64 v 0 19
  let quotas := ((List.range 16).map fun t => (s.tenant t).kvQuota.toNat).sum
  if s.lfl.kvPool.held ≠ 0 ∨ pages < quotas ∨ 262144 < pages then s
  else
    let s := { s with lfl := { s.lfl with
      kvPages := BitVec.ofNat 19 pages
      descBase := BitVec.ofNat 16 (bits64 v 32 16)
      descKey := BitVec.ofNat 7 (bits64 v 48 7) } }
    setKvPool (fun _ => Pool.whole pages) s

def execKvmPoolCfgWrite (fn : Fn) (v : DWord) (s : State) : Out := regWrite s (pf0Open s fn) (kvPoolWrite v)

def tenCfgOf (t : Tenant) : DWord := BitVec.ofNat 64 (pack [(t.area.toNat, 0), (t.fbase.toNat, 16), (t.frameKib.toNat, 40)])
def tenAppOf (t : Tenant) : DWord := BitVec.ofNat 64 (pack [(t.append.toNat, 0), (t.appUnits.toNat, 16), (t.group.toNat, 32)])

def withKv (s : State) (t : Tenant) : Tenant :=
  { t with
    area := BitVec.ofNat 16 (bits64 s.lfl.tenCfg 0 16)
    fbase := BitVec.ofNat 18 (bits64 s.lfl.tenCfg 16 18)
    frameKib := BitVec.ofNat 7 (bits64 s.lfl.tenCfg 40 7)
    append := BitVec.ofNat 14 (bits64 s.lfl.tenApp 0 14)
    appUnits := BitVec.ofNat 14 (bits64 s.lfl.tenApp 16 14)
    group := BitVec.ofNat 3 (bits64 s.lfl.tenApp 32 3) }

/-- The frames and map slots of the tenant lie in one KV region that it owns. -/
def inKvRegion (s : State) (t : Nat) (y : Tenant) : Bool :=
  match entryOf s (y.area.toNat * 2 ^ 21) (y.kvQuota.toNat * y.frameKib.toNat * 1024 + 131072 * y.contexts) with
  | some e => (s.region e).type = 3 && (s.region e).owner.toNat = t
  | none => false

/-- R351 and R441 for tenant `t` with new values `y`. -/
def kvRefused (s : State) (t : Nat) (y : Tenant) : Bool :=
  let x := s.tenant t
  t = 0 || admitted s t ≠ 0 || pagesHeld s t ≠ 0 ||
  ((List.range 16).any fun o => o ≠ t && (s.tenant o).frameKib ≠ 0 &&
    overlap y.fbase.toNat y.kvQuota.toNat (s.tenant o).fbase.toNat (s.tenant o).kvQuota.toNat) ||
  decide (s.lfl.kvPages.toNat < y.fbase.toNat + y.kvQuota.toNat) || !inKvRegion s t y ||
  decide (y.frameKib.toNat < 4) || decide (64 < y.frameKib.toNat) ||
  (y.appUnits ≠ 0 && (decide (y.append.toNat < y.stateUnits.toNat) ||
    decide (y.size.toNat < y.append.toNat + y.appUnits.toNat))) ||
  (y.group ≠ 0 && isConf s t) || (x != y && tdiLocked s t)

/-- A new prefix key for the tenant itself (R333). -/
def drawTenantKey (t : Nat) (s : State) : State :=
  let n := s.lfl.keyDraw + 1
  let s := { s with lfl := { s.lfl with keyDraw := n } }
  setTenant s t fun x => { x with prefixKey := n }

/-- A new key for a sharing group. -/
def drawGroupKey (g : Nat) (s : State) : State :=
  if g = 0 then s else
  let n := s.lfl.keyDraw + 1
  { s with lfl := { s.lfl with keyDraw := n, groupKeys := Tab.set 0 s.lfl.groupKeys g n } }

/-- PF0 writes KVM_TEN_SEL. -/
def kvTenantWrite (v : Word) (s : State) : State :=
  let t := bits32 v 0 4
  let s := { s with lfl := { s.lfl with tenSel := BitVec.ofNat 4 t } }
  let x := s.tenant t
  if bit32 v 4 then
    let y := withKv s x
    if kvRefused s t y then { s with lfl := { s.lfl with tenErr := true } }
    else
      let moved := tenCfgOf x != tenCfgOf y
      let regroup := x.group != y.group
      let s := { s with lfl := { s.lfl with tenErr := false } }
      let s := setTenant s t fun _ => { y with quotaStale := false }
      let s := if moved || regroup then drawTenantKey t (blankCached t s) else s
      if regroup then drawGroupKey y.group.toNat (drawGroupKey x.group.toNat s) else s
  else { s with lfl := { s.lfl with
      tenCfg := if t = 0 then 0 else tenCfgOf x
      tenApp := if t = 0 then 0 else tenAppOf x } }

def execKvTenantApply (fn : Fn) (v : Word) (s : State) : Out := regWrite s (pf0Open s fn) (kvTenantWrite v)

end Sys2Proof.Machine
end

