-- ==== Sys2Proof/Machine/Admit.lean ====
section
/-! DEFINITION. Admission of GENERATE requests and the token ledger (chapters 10 and 11). -/

namespace Sys2Proof.Machine

open Sys2Proof Numeric

/-! ## Costs (R308, R322) -/

/-- T_step of a version in ns as a fraction, with the tenant's scaling where it is expert. -/
def stepCost (s : State) (t h : Nat) : Nat × Nat :=
  let c := (versionOf s h).cDec
  let ds := (versionOf s (passHandle s h)).steps
  let x := s.tenant t
  let ex := expert s t
  let base := if (ex && x.noMeas) || decide (ds.sum ≤ c * ds.length) then (c, 1) else (ds.sum, ds.length)
  (base.1 * (if ex then x.stepScale.toNat else 256), base.2 * 256)

/-- Prompt tokens of the version's admitted requests that are not prefilled (R307). -/
def unprefilled (s : State) (h : Nat) : Nat :=
  ((s.lfl.requests.filter fun r => r.2.main = h).map fun r => r.2.plen - r.2.seq.lkv).sum

/-- The projected completion of a request lies at or before its deadline in µs after now (R307). -/
def meetsDeadline (s : State) (t h : Nat) (spec : Bool) (req : GenReq) : Bool :=
  let v := versionOf s h
  let ex := expert s t
  let pf := if ex then (s.tenant t).pfScale.toNat else 256
  let gain := if ex && spec then (s.tenant t).specGain.toNat else 0
  let ts := stepCost s t h
  let tn := ts.1 * 16
  let td := ts.2 * (16 + gain)
  decide ((v.cFix * 256 + v.cPf * pf * (req.plen.toNat + unprefilled s h)) * td + 256 * req.maxOut.toNat * tn ≤
    256 * td * (1000 * req.deadline.toNat))

/-! ## Hints (R306) -/

def hintMax : Nat := 2 ^ 32 - 1

/-- The projected end of the tenant's earliest-admitted running request, in µs. -/
def releaseHint (s : State) (t : Nat) : Nat :=
  match s.lfl.requests.find? fun r => r.2.tenant = t && !r.2.suspended with
  | none => 1000000
  | some r =>
    let ts := stepCost s t r.2.main
    min hintMax (ceilDiv ((r.2.maxOut - r.2.out.length) * ts.1) (1000 * ts.2))

def budgetHint (s : State) (t maxOut : Nat) : Nat :=
  let x := s.tenant t
  if maxOut + x.ledger.held ≤ x.burst.toNat then
    (if x.rate = 0 then hintMax else min hintMax (ceilDiv ((maxOut - x.ledger.free) * 1000000) x.rate.toNat))
  else releaseHint s t

/-! ## The decision (R303 to R305, R327) -/

/-- What Liftline decides of a request. -/
inductive Admission where
  | refuse (reason : Nat)
  | defer (hint : Nat)
  | takeIn (main draft : Nat)
deriving DecidableEq, Repr

/-- The DEVSRC prompt lies in an ACTIVATION region of the tenant. -/
def promptPermitted (s : State) (t a n : Nat) : Bool :=
  match entryOf s a n with
  | some e => (s.region e).type = 2 && (s.region e).owner.toNat = t
  | none => false

/-- Step 1: fields in range. -/
def malformed (s : State) (t : Nat) (q : GenReq) : Bool :=
  q.maxOut = 0 || decide (16384 < q.maxOut.toNat) || q.plen = 0 || (decide (63 < q.dslot.toNat) && q.dslot ≠ 0xFF) ||
  decide (8 < q.k.toNat) || q.prompt.toNat % 4 ≠ 0 || decide (q.outlen.toNat < 4 * q.maxOut.toNat) ||
  (q.devsrc && !promptPermitted s t q.prompt.toNat (4 * q.plen.toNat))

/-- Step 2: the main version, or the reason for a refusal. -/
def resolveMain (s : State) (t : Nat) (q : GenReq) : Nat ⊕ Nat :=
  let h := if q.pin then q.handle.toNat else Tab.get 0 (s.tenant t).slots q.slot.toNat
  match handleEntry s h with
  | none => .inr 1
  | some e =>
    let v := s.version e
    if !openTo s t v then .inr 1
    else if v.state = 4 then .inr 2
    else if v.state ≠ 3 ∨ v.kind ≠ 1 then .inr 1
    else .inl h

/-- The KV need of a request in one version (R305). -/
def kvNeed (s : State) (h tokens : Nat) : Nat := (versionOf s h).nkv * ((tokens + 15) / 16)

/-- A page of the version is larger than the tenant's frames. -/
def pageTooLarge (s : State) (t h : Nat) : Bool :=
  decide ((s.tenant t).frameKib.toNat * 1024 < (geomOf s (versionOf s h)).page)

/-- Speculation applies to the request. -/
def speculates (q : GenReq) : Bool := q.k ≠ 0 && !q.nospec

/-- The pages that a request reserves. -/
def requestNeed (s : State) (main draft : Nat) (q : GenReq) : Nat :=
  let tokens := q.plen.toNat + q.maxOut.toNat + (if draft = 0 then 0 else q.k.toNat)
  kvNeed s main tokens + (if draft = 0 then 0 else kvNeed s draft tokens)

/-- Steps 4 to 8, for versions that are resolved: the reason of the first that fails. -/
def refuseReason (s : State) (t main draft : Nat) (q : GenReq) : Option Nat :=
  let v := versionOf s main
  let cores := (partitionCores s t).length
  let x := s.tenant t
  if v.ctxMax < q.plen.toNat + q.maxOut.toNat + q.k.toNat then some 3
  else if cores < v.nroles ∨ (draft ≠ 0 ∧ cores < (versionOf s draft).nroles) then some 9
  else if x.quotaStale || pageTooLarge s t main || (draft ≠ 0 && pageTooLarge s t draft) ||
      decide (x.kvQuota.toNat < requestNeed s main draft q) then some 4
  else if x.burst.toNat < q.maxOut.toNat then some 5
  else if q.deadline ≠ 0 && !meetsDeadline s t main (draft ≠ 0) q then some 6
  else none

/-- Steps 9 to 11: the hints of the DEFER conditions that hold. -/
def deferHints (s : State) (t main draft : Nat) (q : GenReq) : List Nat :=
  let x := s.tenant t
  (if admitted s t < x.contexts then [] else [releaseHint s t]) ++
  (if requestNeed s main draft q ≤ freeQuota s t then [] else [releaseHint s t]) ++
  (if q.maxOut.toNat ≤ x.ledger.free then [] else [budgetHint s t q.maxOut.toNat])

/-- The decision on a request in the order of R304. -/
def decideRequest (s : State) (t : Nat) (q : GenReq) : Admission :=
  if malformed s t q then .refuse 7
  else match resolveMain s t q with
  | .inr r => .refuse r
  | .inl main =>
    let d := if speculates q then Tab.get 0 (s.tenant t).slots q.dslot.toNat else 0
    if speculates q && (d = 0 || q.dslot = 0xFF || (versionOf s d).kind ≠ 2 || !(versionOf s main).spec) then .refuse 8
    else match refuseReason s t main d q with
    | some r => .refuse r
    | none => match deferHints s t main d q with
      | [] => .takeIn main d
      | h :: hs => .defer (hs.foldl max h)

/-! ## Admission (R305, R311, R337) -/

/-- The lowest request context number of the tenant that is free. -/
def freeContext (s : State) (t : Nat) : Nat :=
  (firstFree (fun k => s.lfl.requests.any fun r => r.2.tenant = t && r.2.slotNo = k) 2048).getD 0

/-- The prompt is looked up in the prefix index for one version: the sequence, and the pages that return to the quota. -/
def lookupPrompt (t h plen slotNo : Nat) (draft : Bool) (toks : List Word) (s : State) : Sequence × Nat × State :=
  let m := matchBlocks s (keyNo s t) h toks (plen / 16) 0
  let n := (versionOf s h).nkv
  let low := plen - 1 < 16 * m.length
  let s := writeMap (mapSlot s t slotNo draft) m (m.foldl (fun s b => addRef b s) s)
  ({ handle := h, lkv := min (16 * m.length) (plen - 1), blocks := m, prov := 0 },
    n * (m.length - (if low then 1 else 0)), s)

/-- The token IDs of the prompt. -/
def promptTokens (s : State) (q : GenReq) : List Word :=
  if q.devsrc then
    let b := (readDram s q.prompt.toNat (4 * q.plen.toNat)).1
    (List.range q.plen.toNat).map fun i => BitVec.ofNat 32 (field b (4 * i) 4)
  else (List.range q.plen.toNat).map fun i => q.tokens.getD i 0

def setLedger (t : Nat) (f : Pool → Pool) (s : State) : State :=
  let p := f (s.tenant t).ledger
  conserve 0x08 t p (setTenant s t fun x => { x with ledger := p })

/-- The request enters service. -/
def admitRequest (sub : Sub) (main draft : Nat) (q : GenReq) (s : State) : State :=
  let t := sub.fn.val
  let toks := promptTokens s q
  let slotNo := freeContext s t
  let need := requestNeed s main draft q
  let now := s.ns
  let s := setLedger t (fun p => p.take q.maxOut.toNat) s
  let s := refVersion main s
  let s := if draft = 0 then s else refVersion draft s
  let a := lookupPrompt t main q.plen.toNat slotNo false toks s
  let b := if draft = 0 then (Sequence.empty, 0, a.2.2) else lookupPrompt t draft q.plen.toNat slotNo true toks a.2.2
  let s := b.2.2
  let n := s.lfl.nextReq
  let s := addLong { fn := sub.fn, jobId := sub.jobId, kind := .request n, suspended := false, waiting := [] } s
  let s := setReq n (fun r => { r with
    sub := sub
    tenant := t
    main := main
    draft := draft
    k := q.k.toNat
    plen := q.plen.toNat
    maxOut := q.maxOut.toNat
    prompt := toks
    outAddr := q.out.toNat
    deadline := if q.deadline = 0 then none else some (now + 1000 * q.deadline.toNat)
    progress := q.progress
    state := if draft = 0 then .plain else .prefill
    seq := a.1
    dseq := b.1
    reserved := need - a.2.1 - b.2.1
    admittedAt := now
    slotNo := slotNo }) s
  { s with lfl := { s.lfl with nextReq := n + 1 } }.spend

def execGenerate (sub : Sub) (req : GenReq) (s : State) : Out :=
  tenantCommand 0x01 sub (fun s =>
    match decideRequest s sub.fn req with
    | .refuse r => reply sub St.refuse r s
    | .defer h => reply sub St.defer h s
    | .takeIn main draft => admitRequest sub main draft req s) s

/-! ## The ledger's refill (R310) -/

/-- One 1 ms tick of a tenant's ledger. -/
def refillLedger (s : State) (t : Nat) : State :=
  let x := s.tenant t
  let m := x.milli + x.rate.toNat
  let n := min (m / 1000) (x.burst.toNat - x.ledger.total)
  let s := setLedger t (fun p => p.refill n) s
  setTenant s t fun y => { y with milli := if x.burst.toNat ≤ x.ledger.total + n then 0 else m % 1000 }

def execLedgerRefill (s : State) : Out :=
  whenRunning s true fun s => ((List.range 16).filter (· ≠ 0)).foldl refillLedger s

end Sys2Proof.Machine
end

