-- ==== Sys2Proof/Machine/Models.lean ====
section
/-! DEFINITION. The host commands on model slots, versions and cores (chapters 10 and 14): BIND, REPLACE, UNBIND, ACTIVATE,
DISCARD, RUN, RESIDE_LOAD and RESIDE_RELEASE. -/

namespace Sys2Proof.Machine

open Sys2Proof Numeric

/-! ## Slots (R301, R302) -/

/-- The version that BIND or REPLACE names: the status that refuses it, or none. -/
def bindStatus (s : State) (t h : Nat) : Option (BitVec 16) :=
  match handleEntry s h with
  | none => some St.noSuchModel
  | some e =>
    if (s.version e).state ≠ 3 then some St.modelState
    else if !openTo s t (s.version e) then some St.accessDenied else none

def execBind (sub : Sub) (slot : Byte) (handle : BitVec 16) (s : State) : Out :=
  tenantCommand 0x08 sub (fun s =>
    if 64 ≤ slot.toNat then endWith sub St.badCommand s
    else match bindStatus s sub.fn handle.toNat with
    | some st => endWith sub st s
    | none =>
      if Tab.get 0 (s.tenant sub.fn).slots slot.toNat ≠ 0 then endWith sub St.modelState s
      else endWith sub St.ok (bindSlot sub.fn slot.toNat handle.toNat s)) s

def execReplace (sub : Sub) (slot : Byte) (handle : BitVec 16) (s : State) : Out :=
  tenantCommand 0x09 sub (fun s =>
    if 64 ≤ slot.toNat then endWith sub St.badCommand s
    else match bindStatus s sub.fn handle.toNat with
    | some st => endWith sub st s
    | none => endWith sub St.ok (bindSlot sub.fn slot.toNat handle.toNat s)) s

def execUnbind (sub : Sub) (slot : Byte) (s : State) : Out :=
  tenantCommand 0x0A sub (fun s =>
    if 64 ≤ slot.toNat then endWith sub St.badCommand s
    else if Tab.get 0 (s.tenant sub.fn).slots slot.toNat = 0 then endWith sub St.noSuchModel s
    else endWith sub St.ok (unbindSlot sub.fn slot.toNat s)) s

/-! ## Versions (R298, R299) -/

/-- The entry that a command of the version's owner or of PF0 names. -/
def ownVersion (op : Nat) (sub : Sub) (h : Nat) (f : Nat → State → State) (s : State) : Out :=
  hostCommand op sub (fun s => match handleEntry s h with
    | none => endWith sub St.noSuchModel s
    | some e => if sub.fn = 0 ∨ (s.version e).owner.toNat = sub.fn then f e s else endWith sub St.accessDenied s) s

def execActivate (sub : Sub) (handle : BitVec 16) (s : State) : Out :=
  ownVersion 0x0B sub handle.toNat (fun e s =>
    if (s.version e).state ≠ 2 then endWith sub St.modelState s
    else
      let r := activateVersion e s
      if r.1 = 0 then endWith sub St.ok r.2 else reply sub St.modelState r.1 r.2) s

def execDiscard (sub : Sub) (handle : BitVec 16) (s : State) : Out :=
  ownVersion 0x0C sub handle.toNat (fun e s =>
    let v := s.version e
    if (v.state = 2 ∨ v.state = 5) ∧ v.refs = 0 then endWith sub St.ok (discardVersion e s)
    else endWith sub St.modelState s) s

/-! ## Jobs of the host (R313, R316, R418, R533) -/

/-- The status of a command that names core `c`, or none when the tenant may use it (R2, R42, R43, R418). -/
def coreStatus (s : State) (t c : Nat) : Option (BitVec 16) :=
  if !coreExists s c then some St.noSuchUnit
  else if coreFenced s c then some St.unitFenced
  else if !(s.tenant t).cores.getLsbD c then some St.accessDenied else none

/-- The first failure over several cores. -/
def coresStatus (s : State) (t : Nat) (cs : List Nat) : Option (BitVec 16) := cs.findSome? (coreStatus s t)

/-- A RUN job is queued with the images that its table names. -/
def queueRun (sub : Sub) (req : RunReq) (cs : List Nat) (s : State) : State :=
  let n := s.lfl.nextJob
  let images := (List.range cs.length).map fun i => BitVec.ofNat 64 (dramField s (req.ptable.toNat + 8 * i) 8)
  let s := addJob { Job.none with
    kind := .run req.adapt
    tenant := sub.fn
    sub := some sub
    gang := cs.zip images
    anycore := req.anycore
    limit := if req.limit = 0 then 100000000 else 1000 * req.limit.toNat
    state := .ready } s
  if req.adapt then addLong { fn := sub.fn, jobId := sub.jobId, kind := .job n, suspended := false, waiting := [] } s.spend
  else s.spend

def execRun (sub : Sub) (req : RunReq) (s : State) : Out :=
  tenantCommand 0x02 sub (fun s =>
    let cs := (List.range 64).filter fun c => req.cores.getLsbD c
    if cs.isEmpty || (req.anycore && decide (1 < cs.length)) then endWith sub St.badCommand s
    else match coresStatus s sub.fn cs with
    | some st => endWith sub st s
    | none =>
      if !mayReadDram s sub.fn req.ptable.toNat (8 * cs.length) then endWith sub St.accessDenied s
      else queueRun sub req cs s) s

def execResideLoad (sub : Sub) (core : Byte) (first : Byte) (countM1 : Byte) (addr : DWord) (s : State) : Out :=
  tenantCommand 0x0D sub (fun s =>
    let count := countM1.toNat + 1
    if 128 < first.toNat + count ∨ addr.toNat % 4096 ≠ 0 then endWith sub St.badCommand s
    else match coreStatus s sub.fn core.toNat with
    | some st => endWith sub st s
    | none =>
      if !mayReadDram s sub.fn addr.toNat (4096 * count) then endWith sub St.accessDenied s
      else addJob { Job.none with
        kind := .resideLoad first.toNat count addr.toNat
        tenant := sub.fn
        sub := some sub
        gang := [(core.toNat, 0)]
        limit := 100000000
        state := .ready } s) s

def execResideRelease (sub : Sub) (core : Byte) (first : Byte) (countM1 : Byte) (s : State) : Out :=
  tenantCommand 0x0E sub (fun s =>
    let count := countM1.toNat + 1
    let rs := (List.range count).map fun i => first.toNat + i
    if 128 < first.toNat + count then endWith sub St.badCommand s
    else if !coreExists s core.toNat then endWith sub St.noSuchUnit s
    else if coreFenced s core.toNat then endWith sub St.unitFenced s
    else if rs.any fun r => (s.core core.toNat).region r ≠ .resident sub.fn then endWith sub St.accessDenied s
    else endWith sub St.ok (releaseRegions core.toNat rs s)) s

end Sys2Proof.Machine
end

