-- ==== Sys2Proof/Machine/Recur.lean ====
section
/-! DEFINITION. Recurrent operators (chapter 06): chunk jobs, commits, idle contexts, swaps, reset marks, closes, and the
context registers. -/

namespace Sys2Proof.Machine

open Sys2Proof Numeric

/-! ## The start of a chunk job (R181, R183, R369) -/

/-- Rows of 64 bytes copied within the shared SRAM, from and to places given by offset. -/
def copySram (n : Nat) (src dst : Nat → Nat) (s : State) : State :=
  ((List.range n).map fun i => (dst (64 * i), sramRow s (src (64 * i)))).foldl (fun s x => writeSram s x.1 x.2) s

/-- Staging record `i` of an instance (R183). -/
def stagingAt (s : State) (o : OpInst) (i : Nat) : Nat := 4096 * (s.tenant o.tenant).base.toNat + 64 * o.stage + i * o.stateLen

/-- A member's state goes into its staging record; a slot that waits for its zeroing is zeroed first. -/
def gatherState (o : OpInst) (i c : Nat) (s : State) : State :=
  let s := if (s.ctx c).zeroPend then setCtx (zeroUnits (s.ctx c).units s) c fun x => { x with zeroPend := false } else s
  let us := (s.ctx c).units
  let at' := stagingAt s o i
  copySram (o.stateLen / 64) (fun k => slotByte us (o.stateOff + k)) (fun k => at' + k) s

/-- The frames of a member go into its input area: rows or records, and zeros beyond the real ones. -/
def gatherFrames (o : OpInst) (c : Nat) (rows : List Bytes) (s : State) : State :=
  let at' := 4096 * (s.tenant o.tenant).base.toNat + 64 * (s.ctx c).params.input
  let bytes := (rows ++ List.replicate (o.lsteps - rows.length) (zeros 256)).flatten
  (toLines (4 * o.lsteps) bytes).zipIdx.foldl (fun s x => writeSram s (at' + 64 * x.2) x.1) s

/-- The first `n` loose frames are held by the chunk in flight. -/
def holdFrames : Nat → List Frame → List Frame
  | 0, fs => fs
  | _, [] => []
  | n + 1, f :: r => if f.inChunk then f :: holdFrames (n + 1) r else { f with inChunk := true } :: holdFrames n r

def memberOf (c : Nat) (r : ReadyChunk) : Member :=
  { ctx := c, op := r.op, seq := r.seq, firstFrame := r.firstFrame, steps := r.steps, deadline := r.deadline,
    discard := false, reset := r.reset, gap := r.gap, padded := r.padded }

/-- One context's chunk joins the job at batch position `i`. -/
def takeMember (o : OpInst) (s : State) (x : (Nat × ReadyChunk) × Nat) : State :=
  let c := x.1.1
  let r := x.1.2
  let s := gatherState o x.2 c s
  let s := if o.pos = 0 then gatherFrames o c (((s.ctx c).loose.take r.steps).map (·.row)) s else s
  setCtx s c fun y => { y with
    ready := y.ready.filter fun z => z.op ≠ r.op
    frames := if o.pos = 0 then holdFrames r.steps y.frames else y.frames }

/-- The chunk job of instance `i` starts with the chunks at hand. -/
def startChunkJob (i : Nat) (s : State) : State :=
  let o := s.inst i
  let gang := chunkGang s o.tenant o.handle
  let r : Ready := { cls := 0, key := i, age := (takable s i).foldl (fun m x => min m x.2.since) s.ns, gang := gang }
  if !mayStart s r then s else
  let take := (takable s i).take o.bmax
  let ms := take.map fun x => memberOf x.1 x.2
  let n := s.lfl.nextJob
  let hop := take.foldl (fun m x => max m (s.ctx x.1).hop) 0
  let budget := ms.foldl (fun m x => min m (x.deadline - s.ns)) (o.lsteps * hop)
  let s := take.zipIdx.foldl (takeMember o) s
  let s := addJob { Job.none with kind := .chunk i ms, tenant := o.tenant } s
  let s := startOn n gang (4 * o.lsteps * hop) budget s
  advanceClass r (startStream n o.handle budget (roleSets s [(o.tenant, o.handle)]) s)

def execChunkJobDispatch (inst : Nat) (s : State) : Out :=
  whenRunning s (!instBusy s inst && batchFull s inst) (startChunkJob inst)

def execBatchWindowExpiry (inst : Nat) (s : State) : Out :=
  whenRunning s (!instBusy s inst && windowOver s inst) (startChunkJob inst)

/-! ## Completion and commit (R184, R194, R195, R198) -/

/-- The chunk record of a member (R198). -/
def chunkRecord (o : OpInst) (m : Member) (discarded late : Bool) (deg : Nat) : Bytes :=
  [BitVec.ofNat 8 m.ctx, BitVec.ofNat 8 o.opidx, BitVec.ofNat 8 m.steps,
   BitVec.ofNat 8 (pack [(ofBool discarded, 0), (ofBool (deg ≠ 0), 1), (ofBool m.reset, 2), (ofBool m.padded, 3),
     (ofBool late, 4), (ofBool m.gap, 5)])] ++
  toLE 4 m.seq ++ toLE 4 m.firstFrame ++ toLE 2 (min deg 65535) ++ zeros 2

/-- Operators of the context after position `p`, whose chunks a discarded one takes with it (R180). -/
def laterOps (s : State) (c p : Nat) : Nat := (opsOf s c).countP fun i => decide (p < i.2.pos)

/-- The record of a member is written, and what its commit counts. -/
def writeRecord (o : OpInst) (m : Member) (discarded : Bool) (deg : Nat) (s : State) : State :=
  let late := decide (m.deadline < s.ns)
  let later := laterOps s m.ctx m.op
  setCtx s m.ctx fun x => { x with
    record := chunkRecord o m discarded late deg
    late := if late then satUp x.late 1 else x.late
    discards := if discarded then satUp x.discards (1 + later) else x.discards }

/-- The frames that the chunk held are released. -/
def releaseChunk (m : Member) (s : State) : State :=
  if m.op ≠ 0 then s else
  let fs := ((s.ctx m.ctx).frames.filter (·.inChunk)).take m.steps
  let s := releaseFrames m.ctx fs s
  setCtx s m.ctx fun x => { x with frames := x.frames.filter fun f => !fs.contains f }

/-- After a commit: a slot whose zeroing waits for the last chunk is zeroed, a swap-out may start, chunks become ready. -/
def settleCtx (c : Nat) (s : State) : State :=
  let x := s.ctx c
  let s := if x.zeroPend ∧ x.loc = .present ∧ !ctxInFlight s c
    then setCtx (zeroUnits x.units s) c fun x => { x with zeroPend := false } else s
  evalNeeds x.owner (makeReady c (settleSwap c s))

/-- A chunk that committed passes to the context's next operator. -/
def passOn (m : Member) (s : State) : State :=
  let x := s.ctx m.ctx
  if (opAt s m.ctx (m.op + 1)).isNone ∨ (x.life = .closing ∧ !x.flush) then s
  else setCtx s m.ctx fun x => { x with passed := x.passed ++ [{
    op := m.op + 1
    seq := m.seq
    firstFrame := m.firstFrame
    steps := m.steps
    since := 0
    deadline := 0
    waitState := false
    reset := m.reset
    gap := m.gap
    padded := m.padded }] }

/-- The degraded steps of a chunk job's members: L when a fallback tile was used (R233). -/
def chunkDegraded (s : State) (n : Nat) (o : OpInst) : Nat := if (s.pass (weightPass n)).degraded then o.lsteps else 0

/-- A chunk job fails for good: every member's outputs carry DISCARDED, and each is reset (R195). -/
def failChunkJob (n : Nat) (o : OpInst) (ms : List Member) (s : State) : State :=
  let deg := chunkDegraded s n o
  let s := endStreams n (retireJob s n)
  ms.foldl (fun s m => settleCtx m.ctx (resetMark m.ctx (releaseChunk m (writeRecord o m true deg s)))) s

/-- The statuses after which a chunk job or a pass runs once more. -/
def rerunStatus (st : BitVec 16) : Bool := st = St.unitFenced || st = St.domainReset

/-- A chunk job has ended on every core. -/
def execChunkJobComplete (job : Nat) (s : State) : Out :=
  let j := s.job job
  whenRunning s (j.state = .done) fun s =>
    match j.kind with
    | .chunk i ms =>
      let o := s.inst i
      if j.result = St.ok then
        let deg := chunkDegraded s job o
        endStreams job (setJob s job fun j => { j with state := .copying, degSteps := deg })
      else if rerunStatus j.result ∧ !j.rerun ∧ (versionOf s o.handle).nroles ≤ (partitionCores s o.tenant).length then
        endStreams job (setJob s job fun j => { j with state := .ready, rerun := true, left := [], gang := [] })
      else failChunkJob job o ms s
    | _ => s

/-- The next member of a chunk job commits. -/
def execMemberCommit (job : Nat) (s : State) : Out :=
  let j := s.job job
  whenRunning s (j.state = .copying) fun s =>
    match j.kind with
    | .chunk i ms =>
      match ms[j.committed]? with
      | none => s
      | some m =>
        let o := s.inst i
        let us := (s.ctx m.ctx).units
        let at' := stagingAt s o j.committed
        let s := if m.discard then s
          else copySram (o.stateLen / 64) (fun k => at' + k) (fun k => slotByte us (o.stateOff + k)) s
        let s := if ms.length ≤ j.committed + 1 then retireJob s job else setJob s job fun j => { j with committed := j.committed + 1 }
        let now := s.ns
        let s := setCtx s m.ctx fun x => { x with lastCommit := now }
        let s := releaseChunk m (writeRecord o m m.discard j.degSteps s)
        settleCtx m.ctx (if m.discard then s else passOn m s)
    | _ => s

/-- The chunks of a job that runs once more are gathered again, from the same frames and states. -/
def regather (o : OpInst) (ms : List Member) (s : State) : State :=
  ms.zipIdx.foldl (fun s x =>
    let m := x.1
    let us := (s.ctx m.ctx).units
    let at' := stagingAt s o x.2
    let s := copySram (o.stateLen / 64) (fun k => slotByte us (o.stateOff + k)) (fun k => at' + k) s
    if o.pos = 0 then gatherFrames o m.ctx ((((s.ctx m.ctx).frames.filter (·.inChunk)).take m.steps).map (·.row)) s else s) s

/-! ## Idle contexts, swaps, marks and closes (R187 to R193, R196) -/

/-- No frame has arrived for IDLE_MS. -/
def execIdleTimeout (ctx : CtxId) (s : State) : Out :=
  let x := s.ctx ctx
  whenRunning s (s.lfl.idleMs ≠ 0 && x.life = .running && decide (x.lastFrame + s.lfl.idleMs.toNat ≤ s.ms)) fun s =>
    settleSwap ctx (setCtx s ctx fun x => { x with life := .idle, swapWant := x.loc = .present || x.swapWant })

/-- The state has left for the backing area: its slot is free. -/
def execSwapOutComplete (ctx : CtxId) (s : State) : Out :=
  let x := s.ctx ctx
  whenRunning s (x.loc = .swapOut && domUp s 0x70) fun s =>
    let rows := (List.range (64 * x.units.length)).map fun i => sramRow s (slotByte x.units (64 * i))
    let s := writeLines s x.params.backing rows
    let s := setCtx s ctx fun x => { x with loc := .absent, units := [], swapSubs := [] }
    let s := x.swapSubs.foldl (fun s b => endWith b St.ok s) s
    let s := if x.needSlot || !x.ready.isEmpty then tryGrant s ctx else s
    evalNeeds x.owner s

/-- The state is back in its slot. -/
def execSwapInComplete (ctx : CtxId) (s : State) : Out :=
  let x := s.ctx ctx
  whenRunning s (x.loc = .swapIn && domUp s 0x70) fun s =>
    let rows := (List.range (64 * x.units.length)).map fun i => (slotByte x.units (64 * i), readLine s (x.params.backing + 64 * i))
    let s := rows.foldl (fun s r => writeSram s r.1 r.2) s
    let s := wakeChunks ctx (setCtx s ctx fun x => { x with loc := .present })
    (evalNeeds x.owner (settleSwap ctx s)).spend

/-- A mark that STREAM_MARK sent reaches its context. -/
def execResetMark (ctx : CtxId) (s : State) : Out :=
  whenRunning s ((s.ctx ctx).marksSent ≠ 0) fun s =>
    let s := setCtx s ctx fun x => { x with marksSent := x.marksSent - 1, lostSince := false }
    if (s.ctx ctx).life = .closed then s else resetMark ctx s

def execContextCloseDone (ctx : CtxId) (s : State) : Out := whenRunning s (closeReady s ctx) (closeContext ctx)

/-! ## Host commands (R188, R192, R196, R197) -/

/-- The context of a command of its owner: another function is denied, and a context that is not open refuses. -/
def ownContext (sub : Sub) (ctx : Byte) (f : Nat → State → State) (s : State) : State :=
  if 24 ≤ ctx.toNat then endWith sub St.badCommand s
  else if (s.ctx ctx.toNat).owner ≠ sub.fn then endWith sub St.accessDenied s
  else f ctx.toNat s

def openContext (sub : Sub) (ctx : Byte) (f : Nat → State → State) (s : State) : State :=
  ownContext sub ctx (fun c s => if takesFrames (s.ctx c) then f c s else endWith sub St.streamState s) s

def execStateSwap (sub : Sub) (ctx : Byte) (s : State) : Out :=
  tenantCommand 0x03 sub (openContext sub ctx fun c s =>
    let x := s.ctx c
    if x.loc = .none ∨ x.loc = .absent then endWith sub St.ok s
    else
      let s := setCtx s c fun x => { x with swapSubs := x.swapSubs ++ [sub], swapWant := x.loc != .swapOut || x.swapWant }
      settleSwap c s) s

def execStreamMark (sub : Sub) (ctx : Byte) (s : State) : Out :=
  tenantCommand 0x07 sub (openContext sub ctx fun c s =>
    endWith sub St.ok (setCtx s c fun x => { x with marksSent := x.marksSent + 1 })) s

def execStreamClose (sub : Sub) (ctx : Byte) (flush : Bool) (s : State) : Out :=
  tenantCommand 0x05 sub (openContext sub ctx fun c s => startClose c flush (some sub) s) s

/-! ## Registers (R200) -/

def lifeCode : Life → Nat
  | .closed => 0
  | .running => 1
  | .idle => 2
  | .closing => 3

def locCode : Loc → Nat
  | .none => 0
  | .present => 1
  | .swapOut => 2
  | .absent => 3
  | .swapIn => 4

/-- LFL_CTX_STAT of a context. -/
def ctxStat (s : State) (c : Nat) : Word :=
  let x := s.ctx c
  let conf := x.life ≠ .closed && isConf s x.owner
  BitVec.ofNat 32 (pack ([(lifeCode x.life, 0), (if x.life = .closed then 0 else x.owner, 8), (ofBool conf, 12)] ++
    (if conf then [] else [(locCode x.loc, 2), (ofBool x.zeroPend, 5), (ofBool (x.ready.any (·.waitState)), 6),
      (min 255 x.loose.length, 16)])))

/-- LFL_CTX_CNT of a context. -/
def ctxCnt (s : State) (c : Nat) : Word :=
  let x := s.ctx c
  if x.life ≠ .closed && isConf s x.owner then 0
  else BitVec.ofNat 32 (pack [(x.marks.toNat, 0), (x.late.toNat, 8), (x.discards.toNat, 16)])

/-- A write of LFL_CTX_SEL. -/
def ctxSelWrite (v : Word) (s : State) : State :=
  let c := bits32 v 0 5
  { s with lfl := { s.lfl with
    ctxSel := BitVec.ofNat 5 c
    ctxStat := if c < 24 then ctxStat s c else 0
    ctxCnt := if c < 24 then ctxCnt s c else 0 } }

def execLflCtxSelWrite (fn : Fn) (v : Word) (s : State) : Out := regWrite s (pf0Open s fn) (ctxSelWrite v)

end Sys2Proof.Machine
end

