-- ==== Sys2Proof/Machine/Passes.lean ====
section
/-! DEFINITION. Dispatch, passes and the end of requests (chapters 10 and 11): GANG_DISPATCH, PASS_COMPLETE, JOB_TIMEOUT and
REQUEST_COMPLETE. -/

namespace Sys2Proof.Machine

open Sys2Proof Numeric

/-! ## Budgets and limits (R315, R316) -/

/-- T_step × SLACK ÷ 16 of a version, in ns. -/
def slackBudget (s : State) (h : Nat) : Nat :=
  let v := versionOf s h
  let slack := max 16 s.lfl.slack.toNat
  if v.steps.sum ≤ v.cDec * v.steps.length then v.cDec * slack / 16 else v.steps.sum * slack / (16 * v.steps.length)

/-- The time left for each token of a request that has a deadline not yet passed. -/
def timePerToken (s : State) (r : Request) : Option Nat :=
  match r.deadline with
  | none => none
  | some d => if d ≤ s.ns then none else some ((d - s.ns) / max 1 (r.maxOut - r.out.length))

/-- The budget of a pass: A_min enters it unless the pass is prefill only. -/
def passBudget (s : State) (h : Nat) (seqs : List PassSeq) : Nat :=
  let b := slackBudget s h
  if seqs.all fun q => q.rowKind = .prefill then b
  else (seqs.filterMap fun q => timePerToken s (s.req q.req)).foldl min b

def passLimit (budget : Nat) : Nat := min 1000000000 (max 1000000 (8 * budget))

/-! ## Dispatch (R313, R314, R342) -/

def passSeqs (p : List (Candidate × Nat)) : List PassSeq :=
  p.map fun x => { req := x.1.req, rowKind := x.1.kind, isDraft := x.1.draft, rows := x.2, degraded := false }

/-- The tenants of a pass with the handle that each one's rows run. -/
def seqTenants (s : State) (seqs : List PassSeq) : List (Nat × Nat) :=
  (seqs.map fun q => let r := s.req q.req; (r.tenant, if q.isDraft then r.draft else r.main)).eraseDups

/-- The streams of a pass: the weights to its sets, and each tenant's attention images. -/
def startPassStreams (n h budget : Nat) (seqs : List PassSeq) (s : State) : State :=
  let ts := seqTenants s seqs
  let sets := roleSets s ts
  let s := startStream n h budget sets s
  ts.foldl (fun s t => startImageStream n t.1 seqs sets s) s

/-- A pass of version `h` is formed and starts on its gang. -/
def startPass (h : Nat) (s : State) : State :=
  match readyPass s h with
  | none => s
  | some r =>
    if !mayStart s r then s else
    let seqs := passSeqs (formPass s h)
    let n := s.lfl.nextJob
    let budget := passBudget s h seqs
    let s := addJob { Job.none with
      kind := .pass h seqs
      tenant := (seqTenants s seqs).headD (0, 0) |>.1
      shares := seqs.map fun q => (q.req, q.rows) } s
    advanceClass r (startPassStreams n h budget seqs (startOn n r.gang (passLimit budget) budget s))

/-- A RUN or RESIDE_LOAD whose core was fenced or has left the partition ends with the status that a command naming the core
now would get. -/
def jobStatusNow (s : State) (j : Job) : Option (BitVec 16) :=
  if j.isHost then coresStatus s j.tenant (j.gang.map (·.1)) else none

/-- A waiting host job ends before it has run. -/
def endWaiting (n : Nat) (st : BitVec 16) (s : State) : State :=
  finishHostJob n (setJob s n fun j => { j with result := st, state := .done, left := [] })

/-- A job that waits starts on its gang: a host job, or a chunk job or pass that runs once more. -/
def startWaiting (n : Nat) (s : State) : State :=
  let j := s.job n
  match jobStatusNow s j with
  | some st => endWaiting n st s
  | none =>
    match (readyJobs s).find? fun x => x.1 = n with
    | none => s
    | some x =>
      if !mayStart s x.2 then s else
      let s := advanceClass x.2 s
      match j.kind with
      | .chunk i ms =>
        let o := s.inst i
        let s := startOn n x.2.gang j.limit j.budget (regather o ms s)
        startStream n o.handle j.budget (roleSets s [(o.tenant, o.handle)]) s
      | .pass h seqs => startPassStreams n h j.budget seqs (startOn n x.2.gang j.limit j.budget s)
      | _ => startOn n x.2.gang j.limit j.budget s

/-- A core gets back what a suspended job kept (R112). -/
def restoreRun (c : Nat) (s : State) : State :=
  match (s.core c).kept with
  | none => s
  | some x =>
    let s := setMems s fun m => m.wrProg c 0 x.prog
    updCore s c fun k => { k with run := some x.run, kept := none, acc := x.acc, plane0 := x.plane0, plane1 := x.plane1 }

/-- A suspended job goes on once every core of its gang is idle; one that was suspended before its dispatch waits for it
again (R112, R421). -/
def resumeJob (n : Nat) (s : State) : State :=
  let j := s.job n
  let cs := (j.gang.map (·.1)).filter fun c => (s.core c).keeps n
  let goOn := fun s => settleLong (.job n) 0x19 (markLong (.job n) false s)
  if j.state ≠ .suspended then s
  else if cs.isEmpty then goOn (setJob s n fun j => { j with state := .ready })
  else if cs.all fun c => coreUp s c && (s.core c).run.isNone && (s.core c).assigned.isNone then
    goOn (setJob (cs.foldl (fun s c => restoreRun c s) s) n fun j => { j with state := .running, start := s.ns })
  else s

/-- Work is dispatched: a pass, a waiting job, or a suspended one that a RESUME has named. -/
def execGangDispatch (w : Work) (s : State) : Out :=
  match w with
  | .pass h => whenRunning s true (startPass h.toNat)
  | .job n =>
    let resumes := (s.job n).state = .suspended && (s.longWaiters (.job n)).any fun w => w.2 = 0x19
    whenRunning s ((s.job n).state = .ready || resumes) fun s => if resumes then resumeJob n s else startWaiting n s

/-! ## Resolution (R330, R343 to R347) -/

/-- Positions of a request's tokens: the prompt, then the output. -/
def Request.tokens (r : Request) : List Word := r.prompt ++ r.out

/-- Tokens are committed to a request: they are written to its output in order, up to MAX_OUT and STOP (R318, R344). -/
def commitTokens (n : Nat) (toks : List (Word × Bool)) (s : State) : State :=
  let r := s.req n
  let bytes := toks.flatMap fun t => toLE 4 t.1.toNat
  let s := setMems s fun m => m.wrHost r.tenant (r.outAddr + 4 * r.out.length) bytes
  let s := setReq n (fun r => { r with out := r.out ++ toks.map (·.1), stopped := r.stopped || toks.any (·.2) }) s
  if r.progress ∧ toks ≠ [] then postEvent r.tenant (evProgress r.sub.jobId (s.req n).out.length) s else s

/-- The tokens up to the first that carries STOP. -/
def untilStop : List (Word × Bool) → List (Word × Bool)
  | [] => []
  | t :: r => if t.2 then [t] else t :: untilStop r

/-- The count of draft tokens that the main model's tokens confirm. -/
def accept : List Word → List (Word × Bool) → Nat
  | d :: ds, t :: ts => if d = t.1 then accept ds ts + 1 else 0
  | _, _ => 0

/-- What a sequence needs to be appended and committed. -/
structure SeqAt where
  n : Nat
  draft : Bool
  t : Nat
  nkv : Nat
  g : Geom
deriving DecidableEq, Repr

def seqAt (s : State) (q : PassSeq) : SeqAt :=
  let r := s.req q.req
  let v := versionOf s (if q.isDraft then r.draft else r.main)
  { n := q.req, draft := q.isDraft, t := r.tenant, nkv := v.nkv, g := geomOf s v }

def seqOf (s : State) (a : SeqAt) : Sequence := if a.draft then (s.req a.n).dseq else (s.req a.n).seq

def setSeq (a : SeqAt) (q : Sequence) (s : State) : State :=
  setReq a.n (fun r => if a.draft then { r with dseq := q } else { r with seq := q }) s

/-- Every row's key and value is written as a provisional entry (R330 step 1). -/
def appendRows (a : SeqAt) (row0 rows : Nat) (s : State) : State :=
  let q := seqOf s a
  let r := (List.range rows).foldl (fun acc i =>
    appendOne a.t a.nkv a.n (q.lkv + q.prov + i) (appendRow s a.t 0 a.nkv (row0 + i) a.g) a.g acc) (q, s, 0)
  let s := setSeq a { r.1 with prov := q.prov + rows } r.2.1
  let s := setReq a.n (fun x => { x with kvSat := satUp x.kvSat r.2.2 }) s
  if isConf s a.t then s else { s with lfl := { s.lfl with kvSat := satUp s.lfl.kvSat r.2.2 } }

/-- Entries up to `len` are committed and those up to `held` kept (R330 step 3). -/
def commitTo (a : SeqAt) (len held : Nat) (s : State) : State :=
  let r := commitSeq a.t a.nkv len held (s.req a.n).slotNo a.draft a.g (s.req a.n).tokens (seqOf s a) s
  setSeq a r.1 r.2

/-- The retrieval record of the last committed row is kept (R330 step 4). -/
def keepQuery (a : SeqAt) (row : Nat) (s : State) : State :=
  if a.g.topk ≠ 0 ∨ a.nkv * a.g.query ≤ 49152 then
    storeQuery (mapSlot s a.t (s.req a.n).slotNo a.draft) a.nkv (appendRow s a.t 0 a.nkv row a.g) a.g s
  else s

/-- Both prompts of a speculating request are prefilled: drafting begins. -/
def leavePrefill (n : Nat) (s : State) : State :=
  setReq n (fun r => if r.state = .prefill ∧ r.plen ≤ r.seq.lkv ∧ r.plen ≤ r.dseq.lkv then { r with state := .draft 0 } else r) s

def resolvePrefill (a : SeqAt) (row0 rows : Nat) (s : State) : State :=
  let len := (seqOf s a).lkv + rows
  let tok := rowToken s (appendRow s a.t 0 a.nkv (row0 + rows - 1) a.g)
  let s := keepQuery a (row0 + rows - 1) (commitTo a len len s)
  let s := if !a.draft && decide ((s.req a.n).plen ≤ len) then commitTokens a.n [tok] s else s
  leavePrefill a.n s

def resolveDecode (a : SeqAt) (row0 : Nat) (s : State) : State :=
  let len := (seqOf s a).lkv + 1
  let tok := rowToken s (appendRow s a.t 0 a.nkv row0 a.g)
  commitTokens a.n [tok] (keepQuery a row0 (commitTo a len len s))

/-- A draft pass: the entries from the main sequence's length on stay provisional. -/
def resolveDraft (a : SeqAt) (row0 rows i : Nat) (s : State) : State :=
  let q := seqOf s a
  let held := q.lkv + q.prov
  let len := max q.lkv (min held (s.req a.n).seq.lkv)
  let tok := rowToken s (appendRow s a.t 0 a.nkv (row0 + rows - 1) a.g)
  let s := keepQuery a (row0 + rows - 1) (commitTo a len held s)
  setReq a.n (fun r => { r with
    dtoks := r.dtoks ++ [tok.1]
    state := if i + 1 = r.k then .verify else .draft (i + 1) }) s

/-- Speculation is suspended: the draft sequence's references go (R346). -/
def suspendSpeculation (n : Nat) (s : State) : State :=
  let r := s.req n
  let s := dropRefs r.dseq.blocks s
  let s := setReq n (fun r => { r with state := .plain, specOff := true, dseq := Sequence.empty }) s
  if isConf s r.tenant then s else { s with lfl := { s.lfl with specOff := satUp s.lfl.specOff 1 } }

def tooFewAccepted (h : List (Nat × Nat)) : Bool :=
  decide (16 ≤ h.length) && decide (10 * (h.map (·.1)).sum < (h.map (·.2)).sum)

def resolveVerify (a : SeqAt) (row0 rows : Nat) (degraded : Bool) (s : State) : State :=
  let r := s.req a.n
  let l := r.seq.lkv
  let toks := (List.range rows).map fun i => rowToken s (appendRow s a.t 0 a.nkv (row0 + i) a.g)
  let acc := if degraded then 0 else accept r.dtoks toks
  let commit := (untilStop (toks.take (acc + 1))).take (r.maxOut - r.out.length)
  let c := commit.length
  let s := commitTokens a.n commit s
  let s := keepQuery a (row0 + c - 1) (commitTo a (l + c) (l + c) s)
  let d : SeqAt :=
    { a with draft := true, nkv := (versionOf s r.draft).nkv, g := geomOf s (versionOf s r.draft) }
  let dlen := min (l + c) (r.dseq.lkv + r.dseq.prov)
  let s := commitTo d dlen dlen s
  let s := setReq a.n (fun r => { r with
    dtoks := []
    accepted := satUp r.accepted acc
    history := ((acc, r.k) :: r.history).take 16
    state := .draft 0 }) s
  if tooFewAccepted (s.req a.n).history then suspendSpeculation a.n s else s

/-- A suspend or a cancel that waits takes effect when the request is between passes with no provisional entry (R349). -/
def settleRequest (n : Nat) (s : State) : State :=
  let r := s.req n
  let ws := s.longWaiters (.request n)
  if busyReq s n || !r.settled || r.finished then s
  else if ws.any fun w => w.2 = 0x1A then
    setReq n (fun r => { r with ending := if r.ending.isSome then r.ending else some St.cancelled }) s
  else if ws.any fun w => w.2 = 0x18 then
    settleLong (.request n) 0x18 (markLong (.request n) true (setReq n (fun r => { r with suspended := true }) s))
  else s

/-- The first row of each sequence among its tenant's rows of the pass. -/
def rowStart (s : State) (seqs : List PassSeq) (i : Nat) : Nat :=
  let t := fun q : PassSeq => (s.req q.req).tenant
  match seqs[i]? with
  | none => 0
  | some q => (((seqs.take i).filter fun x => t x = t q).map (·.rows)).sum

/-- One sequence of a pass that completed with ST_OK. -/
def resolveSeq (degraded : Bool) (seqs : List PassSeq) (s : State) (i : Nat) : State :=
  match seqs[i]? with
  | none => s
  | some q =>
    let a := seqAt s q
    let row0 := rowStart s seqs i
    let s := if degraded then setReq a.n (fun r => { r with degSteps := r.degSteps + 1 }) s else s
    let s := appendRows a row0 q.rows s
    match q.rowKind, (s.req a.n).state with
    | .prefill, _ => resolvePrefill a row0 q.rows s
    | .decode, _ => resolveDecode a row0 s
    | .verify, _ => resolveVerify a row0 q.rows degraded s
    | .draft, .draft k => resolveDraft a row0 q.rows k s
    | .draft, _ => s

/-- The duration of a decode, verify or draft pass enters its version's history (R308). -/
def recordStep (h d : Nat) (s : State) : State :=
  setVersion s (h % 1024) fun v => { v with steps := (d :: v.steps).take 16 }

/-- A pass is over: only its energy is still to be attributed. -/
def retirePass (n : Nat) (s : State) : State :=
  endStreams n (retireJob s n)

/-- Every sequence of a pass that failed for good ends with the pass's status (R317). -/
def failPass (n : Nat) (seqs : List PassSeq) (st : BitVec 16) (s : State) : State :=
  seqs.foldl (fun s q => setReq q.req (fun r => { r with ending := if r.ending.isSome then r.ending else some st }) s)
    (retirePass n s)

/-- Cores still in service suffice for every tenant of the pass. -/
def enoughCores (s : State) (seqs : List PassSeq) : Bool :=
  (seqTenants s seqs).all fun t => decide ((versionOf s t.2).nroles ≤ (partitionCores s t.1).length)

def completePass (n h : Nat) (seqs : List PassSeq) (s : State) : State :=
  let j := s.job n
  if j.result = St.ok then
    let degraded := (s.pass (weightPass n)).degraded
    let spent := s.ns - j.start
    let s := (List.range seqs.length).foldl (resolveSeq degraded seqs) s
    let s := if seqs.all fun q => q.rowKind = .prefill then s else recordStep h spent s
    seqs.foldl (fun s q => settleRequest q.req s) (retirePass n s).spend
  else if rerunStatus j.result ∧ !j.rerun ∧ enoughCores s seqs then
    endStreams n (setJob s n fun j => { j with state := .ready, rerun := true, left := [], gang := [] })
  else failPass n seqs j.result s

def execPassComplete (job : Nat) (s : State) : Out :=
  whenRunning s ((s.job job).state = .done) fun s =>
    match (s.job job).kind with
    | .pass h seqs => completePass job h seqs s
    | _ => s

/-! ## Time limits (R316) -/

/-- The time that a job has run: for an adaptation run, without its suspensions. -/
def timeRun (s : State) (j : Job) : Nat := (if j.isAdapt then j.ran else 0) + (s.ns - j.start)

def execJobTimeout (job : Nat) (s : State) : Out :=
  let j := s.job job
  whenRunning s (j.state = .running && decide (j.limit ≤ timeRun s j)) (cancelCores job St.timeout)

/-! ## The end of a request (R311, R312, R315, R318, R346) -/

/-- The energy of passes that has still to be attributed to a request: its rows of all rows. -/
def energyOwed (s : State) (n : Nat) : List (Nat × Nat × Nat) :=
  (s.lfl.jobs.filter fun j => j.2.state = .ended && j.2.shares.any fun x => x.1 = n).map fun j =>
    (j.1, ((j.2.shares.filter fun x => x.1 = n).map (·.2)).sum, (j.2.shares.map (·.2)).sum)

/-- The detail word of a GENERATE completion. -/
def requestDetail (r : Request) : Word :=
  BitVec.ofNat 32 (pack [(r.accepted.toNat, 0), (r.kvSat.toNat, 16), (ofBool r.specOff, 31)])

/-- The status of a request that ends. -/
def requestStatus (s : State) (r : Request) : BitVec 16 :=
  match r.ending with
  | some st => st
  | none => match r.deadline with
    | some d => if d < s.ns then St.late else St.ok
    | none => St.ok

/-- The request leaves service: its blocks, its reservation, its counts and its tokens return, and it completes. -/
def endRequest (n : Nat) (s : State) : State :=
  let r := s.req n
  let c : Completion :=
    { jobId := r.sub.jobId
      status := requestStatus s r
      detail := requestDetail r
      degSteps := r.degSteps
      energy := r.energy
      tokens := BitVec.ofNat 16 r.out.length
      noirq := r.sub.noirq
      jobs := energyOwed s n
      after := [] }
  let s := dropRefs (r.seq.blocks ++ r.dseq.blocks) s
  let s := setReq n (fun _ => Request.none) s
  let s := setLedger r.tenant (fun p => (p.settle r.out.length).give (r.maxOut - r.out.length)) s
  let s := unref r.draft (unref r.main s)
  finishLong (.request n) r.sub c s

def execRequestComplete (req : Nat) (s : State) : Out :=
  let r := s.req req
  whenRunning s (r.maxOut ≠ 0 && !busyReq s req && (r.finished || r.ending.isSome) && !(s.dom 0x70).reset) (endRequest req)

end Sys2Proof.Machine
end

