-- ==== Sys2Proof/Machine/Control.lean ====
section
/-! DEFINITION. SUSPEND, RESUME and CANCEL of long operations (R421). -/

namespace Sys2Proof.Machine

open Sys2Proof

/-- The outstanding long operation of a function with this job ID that was taken first. -/
def longTarget (s : State) (f : Nat) (target : Word) : Option LongOp :=
  s.lfl.longOps.find? fun l => l.fn = f && l.jobId = target

/-! ## An adaptation run (R112, R113) -/

def suspendJob (n : Nat) (s : State) : State :=
  match (s.job n).state with
  | .ready => settleLong (.job n) 0x18 (markLong (.job n) true (setJob s n fun j => { j with state := .suspended }))
  | .running => ((s.job n).gang.map (·.1)).foldl (fun s c =>
      if (s.run c).any fun r => r.job = n && r.ending.isNone && !r.ended then
        settleSuspend c (setRun c (fun r => { r with suspending := true }) s)
      else s) s
  | _ => s

/-- A job that holds no core ends at once, another one as its cores report. -/
def cancelJob (n : Nat) (s : State) : State :=
  let onCore := (List.range 64).any fun c => (s.core c).runs n || (s.core c).keeps n || (s.core c).awaits n
  if onCore then cancelCores n St.cancelled s
  else if (s.job n).state = .ready || (s.job n).state = .suspended then endWaiting n St.cancelled s
  else s

/-! ## A retraining (R248) -/

/-- The retraining in work is that of command `n`. -/
def retrainIs (s : State) (n : Nat) : Bool := s.ddr.retrain.any fun r => r.cmd.any fun c => c.1 = n

/-- One that has not begun is suspended at once, another between its channels. -/
def suspendRetrain (n : Nat) (s : State) : State :=
  if retrainIs s n then s else settleLong (.retrain n) 0x18 (markLong (.retrain n) true s)

def resumeRetrain (n : Nat) (s : State) : State :=
  let s := if retrainIs s n then { s with ddr := { s.ddr with retrain := s.ddr.retrain.map fun r => { r with suspended := false } } } else s
  let s := settleLong (.retrain n) 0x19 (markLong (.retrain n) false s)
  if s.ddr.retrain.isNone then nextRetrainStart s else s

def cancelRetrain (n : Nat) (s : State) : State :=
  match s.ddr.retrainQ.find? fun c => c.1 = n with
  | some c =>
    finishLong (.retrain n) c.2 (plainCompletion c.2 St.cancelled 0) { s with ddr := { s.ddr with retrainQ := s.ddr.retrainQ.erase c } }
  | none => if retrainIs s n && s.longSuspended (.retrain n) then endRetrain St.cancelled s else s

/-! ## Any long operation -/

/-- Its holdings stay; it stops at its suspension point, at once or later. -/
def suspendLong (k : LongKind) (s : State) : State :=
  match k with
  | .request n => settleRequest n s
  | .job n => suspendJob n s
  | .ingest n => suspendIngest n s
  | .flash n => suspendFlash n s
  | .retrain n => suspendRetrain n s

def resumeLong (k : LongKind) (s : State) : State :=
  match k with
  | .request n => settleLong k 0x19 (markLong k false (setReq n (fun r => { r with suspended := false }) s))
  | .job n => resumeJob n s
  | .ingest n => resumeIngest n s
  | .flash n => resumeFlash n s
  | .retrain n => resumeRetrain n s

def cancelLong (k : LongKind) (s : State) : State :=
  match k with
  | .request n => settleRequest n s
  | .job n => cancelJob n s
  | .ingest n => cancelIngest n s
  | .flash n => cancelFlash n s
  | .retrain n => cancelRetrain n s

/-- The function that TARGET belongs to: the submitter, or the one that PF0 names. -/
def targetFn (sub : Sub) (fn : Byte) : Nat := if sub.fn = 0 then fn.toNat else sub.fn

/-- SUSPEND and RESUME: PF0 only of its own operations. -/
def onOwnTarget (op : Nat) (sub : Sub) (target : Word) (fn : Byte) (f : LongOp → State → State) (s : State) : Out :=
  hostCommand op sub (fun s =>
    if decide (15 < fn.toNat) then endWith sub St.badCommand s
    else if targetFn sub fn ≠ sub.fn then endWith sub St.accessDenied s
    else match longTarget s (targetFn sub fn) target with
      | none => endWith sub St.noSuchJob s
      | some l => f l s) s

def execSuspend (sub : Sub) (target : Word) (fn : Byte) (s : State) : Out :=
  onOwnTarget 0x18 sub target fn (fun l s =>
    if l.suspended then endWith sub St.ok s else suspendLong l.kind (waitLong l.kind sub 0x18 s)) s

def execResume (sub : Sub) (target : Word) (fn : Byte) (s : State) : Out :=
  onOwnTarget 0x19 sub target fn (fun l s =>
    if l.suspended then resumeLong l.kind (waitLong l.kind sub 0x19 s) else endWith sub St.ok s) s

def execCancel (sub : Sub) (target : Word) (fn : Byte) (s : State) : Out :=
  hostCommand 0x1A sub (fun s =>
    if decide (15 < fn.toNat) then endWith sub St.badCommand s
    else match longTarget s (targetFn sub fn) target with
      | none => endWith sub St.noSuchJob s
      | some l => cancelLong l.kind (waitLong l.kind sub 0x1A s)) s

end Sys2Proof.Machine
end

