-- ==== Sys2Proof/Machine/Sfe.lean ====
section
/-! DEFINITION. The stream front end (chapter 12): context grants, camera packets, frames, and the commands that open and feed
a context. -/

namespace Sys2Proof.Machine

open Sys2Proof Numeric

/-! ## Grants (R353, R354, R371) -/

/-- SFE_CTX_CFG as a context's values give it. -/
def ctxCfgWord (x : Context) : Word :=
  BitVec.ofNat 32 (pack [(x.cfgOwner.toNat, 0), (x.kind.toNat, 4), (x.src.toNat, 8), (x.rsv.toNat, 16)])

/-- The port and virtual channel index of a CAMERA context, as 2 × port + index. -/
def Context.cam (x : Context) : Nat := x.src.toNat % 8

/-- Two contexts with the same source. -/
def sameSource (x y : Context) : Bool :=
  x.kind = y.kind && ((x.kind = 1 && x.cam = y.cam) || (x.kind = 2 && x.src = y.src))

/-- The APPLY of a grant to context `c` that would give it the values of `y` is refused. -/
def grantRefused (s : State) (c : Nat) (y : Context) : Bool :=
  let x := s.ctx c
  let others := ((List.range 24).filter (· ≠ c)).map s.ctx
  decide (24 ≤ c) || x.life ≠ .closed || decide (6 ≤ y.kind.toNat) || others.any (sameSource y) ||
  (y.kind = 1 && decide (8 ≤ others.countP fun z => z.kind = 1)) ||
  (y.kind = 2 && decide (16 ≤ others.countP fun z => z.kind = 2)) ||
  (y.isImage && decide (y.rsv.toNat < 2)) ||
  decide (512 < y.rsv.toNat + (others.map fun z => z.rsv.toNat).sum) ||
  (ctxCfgWord x != ctxCfgWord y && (tdiLocked s x.owner || tdiLocked s y.owner))

/-- PF0 writes SFE_CTX_SEL. -/
def grantWrite (v : Word) (s : State) : State :=
  let c := bits32 v 0 5
  if bit32 v 5 then
    let w := s.sfe.ctxCfg
    let y : Context := { s.ctx c with
      cfgOwner := BitVec.ofNat 4 (bits32 w 0 4)
      kind := BitVec.ofNat 3 (bits32 w 4 3)
      src := BitVec.ofNat 5 (bits32 w 8 5)
      rsv := BitVec.ofNat 7 (bits32 w 16 7) }
    let bad := grantRefused s c y
    let s := setFunc s 0 fun f => { f with sfeSel := BitVec.ofNat 5 c, sfeErr := bad }
    if bad then s else setCtx s c fun _ => y
  else
    let s := setFunc s 0 fun f => { f with sfeSel := BitVec.ofNat 5 c }
    { s with sfe := { s.sfe with ctxCfg := ctxCfgWord (s.ctx c) } }

/-- A write of SFE_CTX_SEL by a function, in its own copy. -/
def ctxSelectWrite (fn : Nat) (v : Word) (s : State) : State :=
  if fn = 0 then grantWrite v s else setFunc s fn fun f => { f with sfeSel := BitVec.ofNat 5 (bits32 v 0 5) }

def execContextGrantApply (fn : Fn) (v : Word) (s : State) : Out := regWrite s (bar0Open s fn) (ctxSelectWrite fn v)

/-! ## Camera packets (R359, R360, R373) -/

def State.csiPort (s : State) (p : Nat) : CsiPort := Tab.get CsiPort.init s.sfe.ports p

def setCsiPort (p : Nat) (f : CsiPort → CsiPort) (s : State) : State :=
  { s with sfe := { s.sfe with ports := Tab.upd CsiPort.init s.sfe.ports p f } }

def State.csiFrame (s : State) (i : Nat) : CsiFrame := Tab.get CsiFrame.none s.sfe.frames i

def setCsiFrame (i : Nat) (f : CsiFrame → CsiFrame) (s : State) : State :=
  { s with sfe := { s.sfe with frames := Tab.upd CsiFrame.none s.sfe.frames i f } }

/-- The configuration in force of a virtual channel index. -/
def State.csiVc (s : State) (i : Nat) : CsiVc := Tab.get CsiVc.init s.sfe.vcsNow i

/-- The open context that a virtual channel index feeds. -/
def camCtx (s : State) (i : Nat) : Option Nat :=
  (List.range 24).find? fun c => (s.ctx c).kind = 1 && (s.ctx c).cam = i && takesFrames (s.ctx c)

/-- A source frame of a virtual channel index has ended: the image that came whole, or none where the frame is lost. -/
def sourceFrame (i : Nat) (jump : Bool) (im : Option ImageIn) (s : State) : State :=
  let s := if im.isNone then setCsiPort (i / 2) (fun p => { p with lost := satUp p.lost 1 }) s else s
  match camCtx s i with
  | none => s
  | some c =>
    let k := Tab.get 0 s.sfe.decim i
    let gap := Tab.get false s.sfe.gapNext i
    let s := { s with sfe := { s.sfe with decim := Tab.set 0 s.sfe.decim i (k + 1) } }
    if k % max 1 (s.ctx c).params.decim = 0 then
      let s := { s with sfe := { s.sfe with gapNext := Tab.set false s.sfe.gapNext i false } }
      queueImage c (im.map fun m => { m with jump := jump || gap }) s
    else
      let s := { s with sfe := { s.sfe with gapNext := Tab.set false s.sfe.gapNext i (gap || jump || im.isNone) } }
      if im.isNone then setCtx s c fun x => { x with lost := satUp x.lost 1 } else s

/-- The frame in progress of an index is lost. -/
def loseCsi (i : Nat) (s : State) : State :=
  let f := s.csiFrame i
  sourceFrame i f.jump none (setCsiFrame i (fun _ => CsiFrame.none) s)

/-- A Frame Start: the written configuration of the port comes into force. -/
def csiConfigure (p : Nat) (s : State) : State :=
  let on := (s.csiPort p).en
  let s := setCsiPort p (fun x => { x with on := on }) s
  let s := { s with sfe := { s.sfe with
    vcsNow := [2 * p, 2 * p + 1].foldl (fun t i => Tab.set CsiVc.init t i (Tab.get CsiVc.init s.sfe.vcs i)) s.sfe.vcsNow } }
  if on then s else setCsiFrame (2 * p) (fun _ => CsiFrame.none) (setCsiFrame (2 * p + 1) (fun _ => CsiFrame.none) s)

/-- A Frame Start on an index. -/
def csiStart (i num : Nat) (s : State) : State :=
  let s := if (s.csiFrame i).active then loseCsi i s else s
  let last := Tab.get 0 s.sfe.lastNum i
  let jump := num ≠ 0 && last ≠ 0 && num ≠ (last + 1) % 65536
  let s := if num = 0 then s else { s with sfe := { s.sfe with lastNum := Tab.set 0 s.sfe.lastNum i num } }
  let now := s.timer
  setCsiFrame i (fun _ => { active := true, lines := [], lost := false, jump := jump, start := now }) s

/-- A Frame End on an index: the frame is delivered to the pipeline if it is whole. -/
def csiEnd (i : Nat) (s : State) : State :=
  let f := s.csiFrame i
  let v := s.csiVc i
  if f.active && !f.lost && f.lines.length = v.height.toNat then
    sourceFrame i f.jump (some { lines := f.lines, dt := v.dt.toNat, timestamp := f.start, jump := f.jump })
      (setCsiFrame i (fun _ => CsiFrame.none) s)
  else loseCsi i s

/-- Bytes of a pixel of a data type. -/
def pixelBytes (dt : Nat) : Nat := if dt = 0x1E then 2 else 3

/-- A line of the frame in progress. -/
def csiLine (i : Nat) (payload : Bytes) (crcOk overflow : Bool) (s : State) : State :=
  let v := s.csiVc i
  let s := if crcOk then s else setCsiPort (i / 2) (fun p => { p with crc := satUp p.crc 1 }) s
  if !(s.csiFrame i).active then s
  else setCsiFrame i (fun f => { f with
    lines := f.lines ++ [payload]
    lost := f.lost || !crcOk || overflow || payload.length ≠ v.width.toNat * pixelBytes v.dt.toNat }) s

/-- A packet whose header is sound. -/
def csiBody (p : Nat) (k : CsiPacket) (s : State) : State :=
  let s := match k.body with
    | .frameStart _ => csiConfigure p s
    | _ => s
  if !(s.csiPort p).on then s else
  let mine := [2 * p, 2 * p + 1].filter fun i => (s.csiVc i).en && (s.csiVc i).vcid.toNat = k.vcid.val &&
    (match k.body with
      | .line _ _ _ => (s.csiVc i).dt = k.dt
      | _ => true)
  if mine.isEmpty then setCsiPort p (fun x => { x with ignored := wrapUp x.ignored 1 }) s
  else mine.foldl (fun s i => match k.body with
    | .frameStart n => csiStart i n.toNat s
    | .frameEnd => csiEnd i s
    | .line b ok full => csiLine i b ok full s) s

def execCsiPacket (port : Fin 4) (p : CsiPacket) (s : State) : Out :=
  whenRunning s (domUp s 0x71 && !s.fences.csi.getLsbD port && ((s.csiPort port).on || (s.csiPort port).en)) fun s =>
    match p.hdr with
    | .uncorrectable =>
      if (s.csiPort port).on then
        let s := setCsiPort port (fun x => { x with eccUe := satUp x.eccUe 1 }) s
        [2 * port.val, 2 * port.val + 1].foldl (fun s i =>
          if (s.csiFrame i).active then setCsiFrame i (fun f => { f with lost := true }) s else s) s
      else s
    | .corrected => csiBody port p (setCsiPort port (fun x => { x with eccCorr := satUp x.eccCorr 1 }) s)
    | .clean => csiBody port p s

/-! ## Frames (R361 to R365) -/

/-- The oldest image of the context is converted and becomes visible in the frame ring. -/
def execImageFrameDelivered (ctx : CtxId) (s : State) : Out :=
  whenRunning s (domUp s 0x71 && takesFrames (s.ctx ctx)) fun s =>
    match (s.ctx ctx).images with
    | some im :: r =>
      let s := deliverImage ctx im (setCtx s ctx fun x => { x with images := r })
      settleLost ctx r.length s
    | _ => s

/-- A hop of a RING context has its 480 samples. -/
def execAudioFrame (ctx : CtxId) (s : State) : Out :=
  let x := s.ctx ctx
  whenRunning s (domUp s 0x71 && x.kind = 2 && takesFrames x && decide (480 ≤ x.newSamples.length)) (audioFrame ctx)

/-! ## Opening (R196, R354 to R356) -/

def parseStream (r : Bytes) : StreamParams := {
  resetOnGap := bit (field r 0 1) 0
  fmax16 := bit (field r 0 1) 1
  ofmt := field r 1 1
  decim := field r 2 1
  nfr := field r 3 1
  x0 := field r 4 2
  y0 := field r 6 2
  w := field r 8 2
  h := field r 10 2
  ow := field r 12 2
  oh := field r 14 2
  hopUs := field r 16 4
  input := field r 20 4
  ring := field r 24 8
  backing := field r 32 8
  sw := field r 40 2
  sh := field r 42 2
  sdt := field r 44 1 }

/-- A range lies wholly within a STREAM region of the tenant. -/
def inStream (s : State) (t a n : Nat) : Bool :=
  match entryOf s a n with
  | some e => (s.region e).type = 4 && (s.region e).owner.toNat = t
  | none => false

/-- The size of the source frames of an image context. -/
def sourceSize (s : State) (x : Context) (p : StreamParams) : Nat × Nat :=
  if x.kind = 1 then
    let v := Tab.get CsiVc.init s.sfe.vcs x.cam
    (v.width.toNat, v.height.toNat)
  else (p.sw, p.sh)

/-- The image fields break R355. -/
def badImage (s : State) (t : Nat) (x : Context) (p : StreamParams) : Bool :=
  let src := sourceSize s x p
  decide (1 < p.ofmt) || p.decim = 0 || decide (8 < p.decim) || decide (p.nfr < 2) || decide (64 < p.nfr) ||
  [p.x0, p.y0, p.w, p.h, p.oh].any (fun v => v % 2 ≠ 0) || p.w = 0 || p.h = 0 || decide (src.1 < p.x0 + p.w) ||
  decide (src.2 < p.y0 + p.h) || p.ow % 64 ≠ 0 || decide (p.ow < (p.w + 7) / 8) || decide (min p.w 1920 < p.ow) ||
  decide (p.oh < (p.h + 7) / 8) || decide (min p.h 1088 < p.oh) || decide (p.hopUs < 1000) || decide (1000000 < p.hopUs) ||
  p.ring % 4096 ≠ 0 || !inStream s t p.ring (p.frameBytes * p.nfr) || (x.kind = 4 && p.sdt ≠ 0x1E && p.sdt ≠ 0x24)

/-- The record of an open breaks R355, or the context has no kind (R353). -/
def badStream (s : State) (t : Nat) (x : Context) (r : Bytes) : Bool :=
  let p := parseStream r
  let z := s.tenant t
  x.kind = 0 || r.length ≠ 64 || decide (3 < field r 0 1) || (r.drop 45).any (· ≠ 0) || (x.isImage && badImage s t x p) ||
  p.backing % 64 ≠ 0 || !inStream s t p.backing 65536 ||
  decide (64 * p.input < 4096 * z.stateUnits.toNat) || decide (4096 * z.size.toNat < 64 * p.input + 16384)

/-- An operator instance for the record at position `pos`, unless the tenant has it already. -/
def addInst (t h : Nat) (s : State) (x : RecRec × Nat) : State :=
  let r := x.1
  if s.lfl.insts.any fun i => i.2.tenant = t && i.2.handle = h && i.2.pos = x.2 then s
  else
    let n := (firstFree (fun k => s.lfl.insts.any fun i => i.1 = k) (s.lfl.insts.length + 1)).getD 0
    let o : OpInst := {
      tenant := t
      handle := h
      lsteps := r.steps
      bmax := r.bmax
      stateOff := r.off
      stateLen := r.len
      bwin := r.bwin
      pos := x.2
      opidx := r.opidx
      stage := r.stage }
    { s with lfl := { s.lfl with insts := Tab.set OpInst.none s.lfl.insts n o } }

/-- The context opens for its owner, bound to a version. -/
def openStream (c h : Nat) (r : Bytes) (s : State) : State :=
  let x := s.ctx c
  let now := s.ms
  let at' := s.ns
  let s := setCtx s c fun x => { Context.init with
    cfgOwner := x.cfgOwner
    kind := x.kind
    src := x.src
    rsv := x.rsv
    life := .running
    params := parseStream r
    handle := h
    lastFrame := now
    lastCommit := at'
    slots := if x.isImage then [(0, 1), (1, 1)] else []
    slotCtr := if x.isImage then 2 else 0 }
  let s := if x.isImage then setStreamPool (fun p => p.take 2) s else s
  let s := if x.kind = 1 then { s with sfe := { s.sfe with
      decim := Tab.set 0 s.sfe.decim x.cam 0
      gapNext := Tab.set false s.sfe.gapNext x.cam false } } else s
  (recsOf s (versionOf s h)).zipIdx.foldl (addInst x.owner h) (refVersion h s)

def execStreamOpen (sub : Sub) (ctx : Byte) (handle : BitVec 16) (record : Bytes) (s : State) : Out :=
  tenantCommand 0x04 sub (ownContext sub ctx fun c s =>
    let x := s.ctx c
    if x.life ≠ .closed then endWith sub St.streamState s
    else match handleEntry s handle.toNat with
    | none => endWith sub St.noSuchModel s
    | some e =>
      if (s.version e).state ≠ 3 then endWith sub St.modelState s
      else if !openTo s sub.fn (s.version e) then endWith sub St.accessDenied s
      else if badStream s sub.fn x record then endWith sub St.streamParam s
      else endWith sub St.ok (openStream c handle.toNat record s)) s

/-! ## Pushes (R367) -/

/-- Feature rows that the context has room for. -/
def rowRoom (x : Context) : Nat := (if x.curRows = 0 then 0 else 16 - x.curRows) + 16 * (x.rsv.toNat - x.slots.length)

/-- `n` frames from pushed samples or rows, one after the other. -/
def repeatFrames (f : State → State) : Nat → State → State
  | 0, s => s
  | n + 1, s => repeatFrames f n (f s)

/-- The signed 16-bit samples of a push. -/
def pcmSamples (n : Nat) (bs : Bytes) : List (Option Int) :=
  (List.range n).map fun i => some (signed 16 (field bs (2 * i) 2) * 256)

/-- The rows of an image that was pushed. -/
def imageRows (w n : Nat) (bs : Bytes) : List Bytes := (List.range n).map fun i => (bs.drop (i * w)).take w

def pushRow (c : Nat) (data : Bytes) (s : State) (i : Nat) : State :=
  let now := s.timer
  frameArrives c ((data.drop (256 * i)).take 256) now false s

def pushData (sub : Sub) (c : Nat) (data : Bytes) (s : State) : State :=
  let x := s.ctx c
  let n := data.length
  match x.kind.toNat with
  | 3 =>
    if n = 0 ∨ n % 960 ≠ 0 then endWith sub St.streamParam s
    else if rowRoom x < n / 960 then endWith sub St.streamFull s
    else
      let s := setCtx s c fun x => { x with newSamples := x.newSamples ++ pcmSamples (n / 2) data }
      endWith sub St.ok (repeatFrames (audioFrame c) (n / 960) s)
  | 4 =>
    let w := x.params.sw * pixelBytes x.params.sdt
    if n ≠ w * x.params.sh then endWith sub St.streamParam s
    else if noRoom x then endWith sub St.streamFull s
    else
      let now := s.timer
      endWith sub St.ok (deliverImage c
        { lines := imageRows w x.params.sh data, dt := x.params.sdt, timestamp := now, jump := false } s)
  | 5 =>
    if n = 0 ∨ n % 256 ≠ 0 then endWith sub St.streamParam s
    else if rowRoom x < n / 256 then endWith sub St.streamFull s
    else endWith sub St.ok ((List.range (n / 256)).foldl (pushRow c data) s)
  | _ => endWith sub St.streamParam s

def execStreamPush (sub : Sub) (ctx : Byte) (data : Bytes) (s : State) : Out :=
  tenantCommand 0x06 sub (openContext sub ctx fun c s => pushData sub c data s) s

end Sys2Proof.Machine
end

