-- ==== Sys2Proof/Machine/PowerOps.lean ====
section
/-! DEFINITION. Power domains (chapter 16: R457, R469 to R473, R475, R477): which exist, when they may change state, and what
a change does to what they hold. -/

namespace Sys2Proof.Machine

open Sys2Proof Numeric

def coreDom (d : Nat) : Bool := decide (d < 64)
def fabricDom (d : Nat) : Bool := d = 0x40 || d = 0x41
def sramDom (d : Nat) : Bool := decide (0x50 ≤ d) && decide (d < 0x60)
def dramDom (d : Nat) : Bool := decide (0x60 ≤ d) && decide (d < 0x68)

/-- The code names a domain (R469). -/
def isDomain (s : State) (d : Nat) : Bool :=
  (coreDom d && coreExists s d) || fabricDom d || sramDom d || dramDom d || [0x70, 0x71, 0x72, 0x73, 0x74, 0x7F].contains d

/-- The domain has this state. -/
def hasState (d : Nat) (t : DomState) : Bool :=
  match t with
  | .on => true
  | .retain => d ≠ 0x70 && d ≠ 0x7F
  | .off => d ≠ 0x70 && d ≠ 0x7F && d ≠ 0x74

/-- Domains whose pads latch when they leave ON (R473). -/
def padDom (d : Nat) : Bool := dramDom d || d = 0x72 || d = 0x73

/-- The quad of a bank group holds units of the system area (R295, R470). -/
def quadSystem (s : State) (d : Nat) : Bool := decide (4096 * ((d - 0x50) / 4) < s.lfl.sysUnits.toNat)

/-- The cores of a half. -/
def halfCores (s : State) (h : Nat) : List Nat := (List.range 32).map (fun i => 32 * h + i) |>.filter (coreExists s)

/-- Every domain but the memory side, the always-on and the control domain is RETAIN or OFF. -/
def othersAsleep (s : State) : Bool :=
  (List.range 0x74).all fun d => d = 0x70 || !isDomain s d || (s.dom d).state ≠ .on

/-- The entry of a domain into RETAIN or OFF is refused (R471). -/
def entryRefused (s : State) (d : Nat) (t : DomState) : Bool :=
  if t = .on then false
  else if fabricDom d then (halfCores s (d - 0x40)).any fun c => (s.dom c).state = .on
  else if sramDom d then t = .off && quadSystem s d
  else if d = 0x71 then (List.range 24).any fun c => (s.ctx c).life ≠ .closed
  else if d = 0x73 then t = .retain && !s.pci.link.l1
  else if d = 0x74 then !othersAsleep s || s.trg.mode ≠ 0
  else false

/-- A device operation of the flash tier is in progress, or an erase is suspended (R279). -/
def flashActive (s : State) : Bool :=
  (s.flt.units.any fun u => u.2.reading.isSome || u.2.erase.isSome) ||
  (s.flt.journals.any fun j => j.2.programming.isSome || j.2.ckpt ≠ 0) ||
  s.flt.cmds.any fun c => c.kind = 0x20 && !c.suspended

/-- A domain that is asked to leave ON may do so now; otherwise the request waits. -/
def mayLeave (s : State) (d : Nat) (t : DomState) : Bool :=
  if coreDom d then
    let k := s.core d
    k.run.isNone && k.assigned.isNone && (t = .retain || k.kept.isNone)
  else if dramDom d then !(s.ddr.retrain.any fun r => !r.suspended && r.chan / 4 = d - 0x60)
  else if d = 0x72 then !flashActive s
  else true

/-- A waking domain may come to ON now: a core needs its fabric. -/
def mayWake (s : State) (d : Nat) : Bool := !coreDom d || (s.dom (0x40 + coreHalf d)).state = .on

/-! ## What a change does to the domain's contents -/

def dramLineIn (s : State) (d line : Nat) : Bool := groupDom s (64 * line) = d

/-- The lines of a group that go poisoned: all, or those of segments that RETAIN does not refresh (R257, R258). -/
def poisonGroup (d : Nat) (all : Bool) (s : State) : State :=
  let lost := fun line =>
    let p := place s (64 * line)
    dramLineIn s d line && (all || !(if p.rank = 0 then s.ddr.keepR0 else s.ddr.keepR1).getLsbD p.segment)
  { s with ddr := { s.ddr with tags := Tab.drop lost s.ddr.tags } }

/-- Delay codes after a training whose sweeps no command shows: free. -/
def freeSweep (s : State) (i : Nat) : LaneSweep :=
  { rdA := BitVec.ofNat 7 (s.fv i % 64), rdB := BitVec.ofNat 7 (s.fv (i + 1) % 128),
    wrA := BitVec.ofNat 7 (s.fv (i + 2) % 64), wrB := BitVec.ofNat 7 (s.fv (i + 3) % 128) }

/-- A channel trains as at start-up; a lane with too short a run marks its pair failing. -/
def trainOne (w0 w1 : LaneSweep) (c : Nat) (s : State) : State :=
  if !(channels s).contains c then s else
  let out := trainChannel (expert s 0) w0 w1 (s.chan c)
  let s := setChan c (fun _ => out.1) s
  if out.2 then s else markFailing (c / 2) s

def trainGroup (d : Nat) (s : State) : State :=
  ((List.range 4).foldl (fun s i => trainOne (freeSweep s (8 * i)) (freeSweep s (8 * i + 4)) (4 * (d - 0x60) + i) s) s).spend

/-- The check-line caches of a group are written back. -/
def flushChecks (d : Nat) (s : State) : State :=
  (List.range 4).foldl (fun s i => setChan (4 * (d - 0x60) + i) (fun k => { k with checkCache := [] }) s) s

/-- The bridge directions of a half start again with their credits. -/
def freshBridges (h : Nat) (s : State) : State :=
  { s with bridges := s.bridges.zipIdx.map fun b => if b.2 / 2 = h then BridgeDir.init (bridgeCredits b.2) else b.1 }

/-- Zeroes a bank group with valid check bits. -/
def zeroGroup (d : Nat) (s : State) : State :=
  let mine := fun line => line % 4 = (d - 0x50) % 4 && line / 2 ^ 18 = (d - 0x50) / 4
  { s with
    mem := s.mem.dropSram fun a => mine (a / 64)
    gdl := { s.gdl with sramPoison := s.gdl.sramPoison.filter fun l => !mine l } }

/-- The stream front end loses its contexts' configuration. -/
def forgetContexts (s : State) : State := { s with sfe := { s.sfe with ctxs := [] } }

/-- What a domain does as it enters RETAIN or OFF. -/
def enterSleep (d : Nat) (t : DomState) (s : State) : State :=
  if t = .off then
    if coreDom d then resetCore d s
    else if fabricDom d then freshBridges (d - 0x40) s
    else if sramDom d then zeroGroup d s
    else if dramDom d then poisonGroup d true s
    else if d = 0x71 then forgetContexts s
    else s
  else if dramDom d then flushChecks d s
  else s

/-- What a domain does as it comes back to ON from state `t`. -/
def enterOn (d : Nat) (t : DomState) (s : State) : State :=
  if coreDom d then updCore s d fun k => { k with step := k.target }
  else if sramDom d ∧ t = .off then zeroGroup d s
  else if dramDom d then
    if t = .off then trainGroup d s else poisonGroup d false s
  else s

/-- The domain changes its state; pads latch as it leaves ON. The way from OFF to RETAIN leads over ON. -/
def changeState (d : Nat) (t : DomState) (s : State) : State :=
  let old := (s.dom d).state
  let now := s.ns
  let s := if t = .on ∨ (t = .retain ∧ old = .off) then enterOn d old s else s
  let s := if t = .on then s else enterSleep d t s
  setDom s d fun x => { x with
    state := t
    hold := x.hold || (padDom d && old = .on && t ≠ .on)
    since := now }

/-- A transition of a domain ends, and a request that came meanwhile begins. -/
def endTransition (d : Nat) (s : State) : State :=
  let s := changeState d (s.dom d).target s
  setDom s d fun x => match x.pend with
    | some t => { x with target := t, pend := none, busy := t ≠ x.state }
    | none => { x with busy := false }

/-- A new target: it begins a transition, or waits for the one in work. -/
def askDom (d : Nat) (t : DomState) (s : State) : State :=
  setDom s d fun x => if x.busy then { x with pend := some t } else { x with target := t, busy := t ≠ x.state }

/-- A wake on use: the domain, and with a core its fabric (R471). -/
def wakeDom (d : Nat) (s : State) : State :=
  let s := if (s.dom d).state = .on ∧ !(s.dom d).busy then s else askDom d .on s
  let f := 0x40 + coreHalf d
  if coreDom d && (s.dom f).auto && (s.dom f).state ≠ .on && !(s.dom f).busy then askDom f .on s else s

end Sys2Proof.Machine
end

