-- ==== Sys2Proof/Machine/Queue.lean ====
section
/-! DEFINITION. Queues, doorbells, completions, interrupts and event queues (chapter 14). -/

namespace Sys2Proof.Machine

open Sys2Proof Numeric

/-! ## Doorbells (R411) -/

/-- A function's doorbells, BAR4 and DOE are taken: start-up is complete, no Function Level Reset of the function runs, and
its TDI is not in ERROR (R405, R442). -/
def doorOpen (s : State) (f : Nat) : Bool := bar0Open s f

def setSlots (f q : Nat) (g : Pool → Pool) (s : State) : State :=
  let x := s.queue f q
  let p := g x.slots
  conserve 0x04 x.globalIdx p (setQueue s f q fun x => { x with slots := p })

/-- SQ_TAIL. -/
def submitEntries (f q : Nat) (v : Word) (s : State) : State :=
  let x := s.queue f q
  let new := bits32 v 0 12
  let n := (new + x.size - x.tail) % x.size
  if x.size ≤ new then queueError f q 1 s
  else if x.size < x.slots.held + n then queueError f q 2 s
  else setSlots f q (fun p => p.take n) (setQueue s f q fun x => { x with tail := new, untaken := x.untaken + n })

def execSqTail (fn : Fn) (q : Fin 64) (v : Word) (s : State) : Out :=
  regWrite s (doorOpen s fn && (s.queue fn q).state = .active) (submitEntries fn q v)

/-- CQ_HEAD. -/
def passCompletions (f q : Nat) (v : Word) (s : State) : State :=
  let x := s.queue f q
  let new := bits32 v 0 12
  let n := (new + x.size - x.cqHead) % x.size
  let err := fun c => if x.state = .active then queueError f q c s else s
  if x.size ≤ new then err 1
  else if x.cqUsed < n then err 3
  else setQueue s f q fun x => { x with cqHead := new, cqUsed := x.cqUsed - n }

def execCqHead (fn : Fn) (q : Fin 64) (v : Word) (s : State) : Out :=
  regWrite s (doorOpen s fn && (s.queue fn q).state ≠ .none) (passCompletions fn q v)

/-- EV_HEAD: an index out of range, or past the last event, is ignored. -/
def passEvents (f : Nat) (v : Word) (s : State) : State :=
  let e := (s.func f).evq
  let new := bits32 v 0 12
  let n := (new + e.size - e.head) % e.size
  if e.size ≤ new ∨ e.used < n then s
  else setFunc s f fun x => { x with evq := { x.evq with head := new, used := x.evq.used - n } }

def execEvHead (fn : Fn) (v : Word) (s : State) : Out :=
  regWrite s (doorOpen s fn && (s.func fn).evq.en) (passEvents fn v)

/-! ## Taking entries (R412, R417, R418) -/

/-- A run of bytes that a command uses, with the bits it uses of each. -/
structure Used where
  lo : Nat
  hi : Nat
  mask : Nat
deriving DecidableEq, Repr

def usedRun (lo hi : Nat) : Used := { lo := lo, hi := hi, mask := 255 }
def usedBits (b mask : Nat) : Used := { lo := b, hi := b, mask := mask }

/-- The bytes from 8 on that the command with this opcode uses, none for a reserved opcode. -/
def usedBytes (entry : Bytes) (fn : Nat) : Option (List Used) :=
  let at' := fun i => field entry i 1
  match at' 0 with
  | 0x01 => some [usedBits 8 0x7F, usedBits 9 7, usedRun 10 17, usedRun 20 43]
  | 0x02 => some [usedRun 8 27, usedBits 28 3]
  | 0x03 => some [usedRun 8 8]
  | 0x04 => some [usedRun 8 8, usedRun 10 11, usedRun 16 23]
  | 0x05 => some [usedRun 8 8, usedBits 9 1]
  | 0x06 => some [usedRun 8 8, usedRun 12 23]
  | 0x07 => some [usedRun 8 8]
  | 0x08 => some [usedRun 8 8, usedRun 10 11]
  | 0x09 => some [usedRun 8 8, usedRun 10 11]
  | 0x0A => some [usedRun 8 8]
  | 0x0B => some [usedRun 10 11]
  | 0x0C => some [usedRun 10 11]
  | 0x0D => some [usedRun 8 10, usedRun 16 23]
  | 0x0E => some [usedRun 8 10]
  | 0x10 => some ([usedRun 8 10, usedRun 12 23, usedRun 32 39] ++ if at' 8 = 1 then [] else [usedRun 24 31])
  | 0x11 => some ([usedRun 8 16] ++ if at' 16 = 1 then [usedRun 17 19] else [usedRun 24 31])
  | 0x12 => some [usedRun 8 9, usedRun 12 15]
  | 0x13 => some [usedRun 8 8]
  | 0x18 => some ([usedRun 8 11] ++ if fn = 0 then [usedRun 12 12] else [])
  | 0x19 => some ([usedRun 8 11] ++ if fn = 0 then [usedRun 12 12] else [])
  | 0x1A => some ([usedRun 8 11] ++ if fn = 0 then [usedRun 12 12] else [])
  | 0x20 => some [usedRun 8 23]
  | 0x21 => some [usedRun 8 11]
  | 0x22 => some [usedRun 8 11]
  | 0x23 => some [usedRun 8 9, usedRun 16 23]
  | 0x24 => some [usedRun 8 23, usedBits 24 1]
  | 0x25 => some [usedRun 8 9]
  | 0x28 => some []
  | 0x29 => some [usedRun 8 8, usedRun 10 11, usedRun 16 23]
  | _ => none

/-- The bits of byte `i` of an entry that its command uses. -/
def usedMask (us : List Used) (i : Nat) : Nat :=
  if i = 0 then 255 else if i = 1 then 1 else if i < 4 then 0 else if i < 8 then 255
  else match us.find? fun u => decide (u.lo ≤ i) && decide (i ≤ u.hi) with
    | some u => u.mask
    | none => 0

/-- The entry has a reserved opcode or a non-zero bit that its command does not use. -/
def badEntry (entry : Bytes) (fn : Nat) : Bool :=
  match usedBytes entry fn with
  | none => true
  | some us => ((List.range 64).any fun i => (field entry i 1).land (255 - usedMask us i) ≠ 0) ||
    (field entry 0 1 = 0x11 && decide (2 < field entry 16 1))

/-- The functions and queues with untaken entries, in the order of the arbiters (R36, R39). -/
def queueAsks (s : State) (f q : Nat) : Bool := (s.queue f q).state = .active && (s.queue f q).untaken ≠ 0

def nextQueue (s : State) : Option (Nat × Nat) :=
  match roundRobin 16 s.pci.rrFn fun f => (List.range 64).any (queueAsks s f) with
  | none => none
  | some f => (roundRobin 64 (s.func f).rrQueue (queueAsks s f)).map fun q => (f, q)

def subOf (f q : Nat) (entry : Bytes) : Sub :=
  { fn := Fin.ofNat 16 f, qid := Fin.ofNat 64 q, jobId := BitVec.ofNat 32 (field entry 4 4),
    noirq := bit (field entry 1 1) 0 }

/-- The next entry is taken from its queue. -/
def takeEntry (f q : Nat) (entry : Bytes) (s : State) : State :=
  let s := { s with pci := { s.pci with rrFn := (f + 1) % 16 } }
  let s := setFunc s f fun x => { x with rrQueue := (q + 1) % 64 }
  let s := setQueue s f q fun x => { x with untaken := x.untaken - 1, sqHead := (x.sqHead + 1) % x.size }
  if badEntry entry f then endWith (subOf f q entry) St.badCommand s
  else { s with pci := { s.pci with taken := s.pci.taken ++ [{ fn := f, qid := q, entry := padTo 64 entry }] } }

def execCommandTake (entry : Bytes) (s : State) : Out :=
  whenRunning s true fun s => match nextQueue s with
    | none => s
    | some x => takeEntry x.1 x.2 (padTo 64 entry) s

/-! ## Completions (R413, R468) -/

/-- The oldest completion that waits for no energy goes into the completion ring. -/
def writeCompletion (f q : Nat) (c : Completion) (s : State) : State :=
  let x := s.queue f q
  let now := s.timer
  let s := setMems s fun m => m.wrHost f (x.cqBase.toNat + 32 * x.cqWrite) (completionBytes c x.sqHead x.phase)
  let s := setQueue s f q fun x => { x with
    waiting := x.waiting.erase c
    cqWrite := (x.cqWrite + 1) % x.size
    phase := if x.cqWrite + 1 = x.size then !x.phase else x.phase
    cqUsed := x.cqUsed + 1
    unsignalled := if c.noirq then x.unsignalled else x.unsignalled + 1
    oldest := if c.noirq then x.oldest else some (x.oldest.getD now) }
  c.after.foldl (fun s w => endWith w.1 w.2 s) (setSlots f q (fun p => p.give 1) s)

def execCompletionPost (fn : Fn) (q : Fin 64) (s : State) : Out :=
  let x := s.queue fn q
  whenRunning s (x.state ≠ .none && decide (x.cqUsed < x.size)) fun s =>
    match x.waiting.find? fun c => c.jobs.isEmpty with
    | none => s
    | some c => writeCompletion fn q c s

/-! ## Interrupts (R414) -/

/-- A queue, or the event queue as number 64, signals its vector when R414 says so. -/
def execInterruptSignal (fn : Fn) (q : Fin 65) (s : State) : Out :=
  whenRunning s true fun s =>
    if q.val = 64 then
      let e := (s.func fn).evq
      if e.unsignalled ≠ 0 && signalDue e.unsignalled e.oldest e.ithresh e.itime s.timer then
        setFunc (signalVector fn e.vector.toNat s) fn fun x => { x with evq := { x.evq with unsignalled := 0, oldest := none } }
      else s
    else
      let x := s.queue fn q
      if x.unsignalled ≠ 0 && signalDue x.unsignalled x.oldest x.ithresh x.itime s.timer then
        setQueue (signalVector fn x.vector.toNat s) fn q fun x => { x with unsignalled := 0, oldest := none }
      else s

/-! ## Events (R415, R416) -/

def setEvq (f : Nat) (g : EventQueue → EventQueue) (s : State) : State := setFunc s f fun x => { x with evq := g x.evq }

/-- Events that were lost are told of first, once the ring has room. -/
def writeLost (f : Nat) (s : State) : State :=
  let e := (s.func f).evq
  if e.lost ≠ 0 ∧ e.used < e.size then setEvq f (fun e => { e with lost := 0 }) (writeEvent f (evLost e.lost.toNat) s) else s

/-- The oldest event on its way reaches the ring, or is kept or lost. -/
def placeEvent (f : Nat) (s : State) : State :=
  let e := (s.func f).evq
  let s := if e.en then writeLost f s else s
  match e.posted with
  | [] => s
  | ev :: r =>
    let s := setEvq f (fun e => { e with posted := r }) s
    let e := (s.func f).evq
    if e.en then
      if e.used < e.size then writeEvent f ev s else setEvq f (fun e => { e with lost := satUp e.lost 1 }) s
    else if e.kept.length < 64 then setEvq f (fun e => { e with kept := e.kept ++ [ev] }) s
    else setEvq f (fun e => { e with lost := satUp e.lost 1 }) s

/-- Events are posted while the fabric runs: a stopped part tells of nothing (R503). -/
def execEventPost (fn : Fn) (s : State) : Out := whenRunning s true (placeEvent fn)

/-! ## Creating and deleting queues (R409, R410) -/

/-- The lowest global index that no queue has. -/
def freeGlobal (s : State) : Option Nat :=
  firstFree (fun g => s.pci.funcs.any fun f => f.2.queues.any fun q => q.2.state ≠ .none && q.2.globalIdx = g) 256

def Func.queueCount (f : Func) : Nat := f.queues.countP fun q => q.2.state ≠ .none

/-- DEPTH and VECTOR of a configuration word are in range. -/
def cfgInRange (v : Word) : Bool :=
  decide (4 ≤ bits32 v 0 4) && decide (bits32 v 0 4 ≤ 12) && decide (bits32 v 4 7 ≤ 64)

/-- A create is refused (R410). -/
def createRefused (s : State) (f q : Nat) : Bool :=
  let x := s.func f
  (s.queue f q).state ≠ .none || decide (min 64 x.qmax.toNat ≤ x.queueCount) || (freeGlobal s).isNone ||
  x.sqBase.toNat % 4096 ≠ 0 || x.cqBase.toNat % 4096 ≠ 0 || !cfgInRange x.qcfg

/-- Queue `q` of function `f` is created with global index `g`. -/
def createQueue (f q g : Nat) (s : State) : State :=
  let x := s.func f
  let d := 2 ^ bits32 x.qcfg 0 4
  let p := Pool.whole d
  conserve 0x04 g p (setQueue s f q fun _ => { HostQueue.none with
    state := .active
    sqBase := x.sqBase
    cqBase := x.cqBase
    depth := BitVec.ofNat 4 (bits32 x.qcfg 0 4)
    vector := BitVec.ofNat 7 (bits32 x.qcfg 4 7)
    ithresh := BitVec.ofNat 8 (bits32 x.qcfg 16 8)
    itime := BitVec.ofNat 8 (bits32 x.qcfg 24 8)
    globalIdx := g
    slots := p })

/-- PCI_Q_CFG as a queue's values give it. -/
def queueCfg (q : HostQueue) : Word :=
  BitVec.ofNat 32 (pack [(q.depth.toNat, 0), (q.vector.toNat, 4), (q.ithresh.toNat, 16), (q.itime.toNat, 24)])

/-- A write of PCI_Q_SEL in the set-up block of function `f`. -/
def queueSelect (f : Nat) (v : Word) (s : State) : State :=
  let q := bits32 v 0 6
  let x := s.queue f q
  match bits32 v 8 2 with
  | 0 => setFunc s f fun y => { y with
      qsel := BitVec.ofNat 6 q
      sqBase := x.sqBase
      cqBase := x.cqBase
      qcfg := queueCfg x }
  | 1 =>
    let bad := createRefused s f q
    let g := (freeGlobal s).getD 0
    let s := setFunc s f fun y => { y with qsel := BitVec.ofNat 6 q, qerr := bad }
    if bad then s else createQueue f q g s
  | 2 =>
    let bad := x.state = .none || x.slots.held ≠ 0
    let s := setFunc s f fun y => { y with qsel := BitVec.ofNat 6 q, qerr := bad }
    if bad then s else setQueue s f q fun _ => HostQueue.none
  | _ => setFunc s f fun y => { y with qsel := BitVec.ofNat 6 q }

def execQueueCreate (fn : Fn) (v : Word) (s : State) : Out :=
  regWrite s (bar0Open s fn && bits32 v 8 2 = 1) (queueSelect (setupFn s fn) v)

def execQueueDelete (fn : Fn) (v : Word) (s : State) : Out :=
  regWrite s (bar0Open s fn && bits32 v 8 2 = 2) (queueSelect (setupFn s fn) v)

/-! ## The event queue's configuration (R416) -/

def evqFields (v : Word) (e : EventQueue) : EventQueue :=
  { e with
    vector := BitVec.ofNat 7 (bits32 v 4 7)
    ithresh := BitVec.ofNat 8 (bits32 v 16 8)
    itime := BitVec.ofNat 8 (bits32 v 24 8) }

/-- A write of PCI_EVQ_CFG in the set-up block of function `f`. -/
def eventConfigure (f : Nat) (v : Word) (s : State) : State :=
  let e := (s.func f).evq
  if bit32 v 15 then
    if e.en then (if bits32 v 4 7 ≤ 64 then setEvq f (evqFields v) s else s)
    else if e.base = 0 ∨ e.base.toNat % 4096 ≠ 0 ∨ !cfgInRange v then setEvq f (fun e => { e with err := true }) s
    else setEvq f (fun e => { evqFields v e with
      en := true
      depth := BitVec.ofNat 4 (bits32 v 0 4)
      head := 0
      writePos := 0
      used := 0
      phase := true
      posted := e.kept ++ e.posted
      kept := []
      unsignalled := 0
      oldest := none
      err := false }) s
  else setEvq f (fun e => { evqFields v e with en := false, depth := BitVec.ofNat 4 (bits32 v 0 4) }) s

def execEventQueueEnable (fn : Fn) (v : Word) (s : State) : Out :=
  regWrite s (bar0Open s fn && bit32 v 15) (eventConfigure (setupFn s fn) v)

def execEventQueueDisable (fn : Fn) (v : Word) (s : State) : Out :=
  regWrite s (bar0Open s fn && !bit32 v 15) (eventConfigure (setupFn s fn) v)

end Sys2Proof.Machine
end

