-- ==== Sys2Proof/Machine/Links.lean ====
section
/-! DEFINITION. Resets from the link and of a function, the tenant scrub, and the link itself (chapter 14: R403, R405;
chapter 15: R442; chapter 16: R475). -/

namespace Sys2Proof.Machine

open Sys2Proof

/-! ## Holdings of a function (R48, R405) -/

/-- Regions of a core that jobs of tenant `t` of its own hold. -/
def jobRegions (s : State) (t c : Nat) : Nat :=
  let k := s.core c
  let own := fun (r : Run) => r.owner = t && (match (s.job r.job).kind with | .pass _ _ => false | _ => true)
  (if k.run.any own then k.heldRegions.length else 0) +
  match k.kept with
  | some x => if own x.run then x.regions.length else 0
  | none => 0

/-- Frames of blocks that only requests of tenant `t` refer to. -/
def requestPages (s : State) (t : Nat) : Nat :=
  let mine := (s.lfl.requests.filter fun r => r.2.tenant = t).flatMap fun r => r.2.seq.blocks ++ r.2.dseq.blocks
  ((s.lfl.blocks.filter fun b => b.2.refs ≠ 0 && b.2.refs = mine.count b.1).map fun b => b.2.frames.length).sum

/-- A table build of an ingest of function `f` holds a table slot. -/
def buildHolds (s : State) (f : Nat) : Bool :=
  s.gdl.builds.any fun b => !b.waiting && (s.ingest b.ingest).sub.fn.val = f

/-- What a function holds, as entries of its reclaim report: pool, instance, count. -/
def holdings (s : State) (f : Nat) : List (Nat × Nat × Nat) :=
  let cores := if f = 0 then [] else (List.range 64).map fun c => (0x01, c, jobRegions s f c)
  let rings := (s.func f).queues.filterMap fun q => if q.2.state = .none then none else some (0x04, q.2.globalIdx, q.2.slots.held)
  let slots := if f = 0 then [] else [(0x05, 0, ((tenantCtxs s f).map fun c => (s.ctx c).slots.length).sum)]
  let pages := if f = 0 then [] else [(0x06, 0, requestPages s f)]
  let tables := if buildHolds s f then (List.range 8).map fun i => (0x07, i, 1) else []
  let tokens := if f = 0 then [] else [(0x08, f, (s.tenant f).ledger.held)]
  cores ++ rings ++ slots ++ pages ++ tables ++ tokens

/-! ## Function Level Reset (R405) -/

/-- The queues and the event queue of a function are deleted; entries taken and not begun go with them. -/
def deleteQueues (f : Nat) (s : State) : State :=
  let after := (s.func f).queues.flatMap fun q => q.2.waiting.flatMap fun c => c.after
  let s := { s with pci := { s.pci with taken := s.pci.taken.filter fun t => t.fn ≠ f } }
  let s := setFunc s f fun x => { x with queues := [], evq := EventQueue.off }
  after.foldl (fun s w => endWith w.1 w.2 s) s

/-- The stand-in submitter of a cancel that no completion follows. -/
def resetSub (f : Nat) : Sub := { fn := Fin.ofNat 16 f, qid := 0, jobId := 0, noirq := false }

/-- Every long operation and job of the function is cancelled as CANCEL would. -/
def cancelAll (f : Nat) (s : State) : State :=
  let longs := (s.lfl.longOps.filter fun l => l.fn = f).map (·.kind)
  let s := longs.foldl (fun s k => cancelLong k (waitLong k (resetSub f) 0x1A s)) s
  let jobs := (s.lfl.jobs.filter fun j => j.2.isHost && j.2.state ≠ .done && j.2.state ≠ .ended && j.2.sub.any fun b => b.fn.val = f).map (·.1)
  jobs.foldl (fun s n => cancelJob n s) s

/-- The windows of the function close. -/
def closeWindows (f : Nat) (s : State) : State :=
  (List.range 16).foldl (fun s w => setWindow f w (fun x => { x with dropped := 0, opens := [] }) (closeWindow f w s)) s

/-- The set-up block returns to its reset values, except what PF0 writes. -/
def resetSetup (f : Nat) (s : State) : State :=
  setFunc s f fun x => { x with
    qsel := 0
    qerr := false
    sqBase := 0
    cqBase := 0
    qcfg := Func.init.qcfg
    winSel := 0
    rrQueue := 0
    latch := none }

/-- Open contexts close without FLUSH. -/
def closeStreams (t : Nat) (s : State) : State :=
  ((tenantCtxs s t).filter fun c => (s.ctx c).life = .running || (s.ctx c).life = .idle || (s.ctx c).life = .closing).foldl
    (fun s c => startClose c false none s) s

def dropBindings (t : Nat) (s : State) : State := (List.range 64).foldl (fun s k => unbindSlot t k s) s

/-! ## The tenant scrub (R442) -/

/-- The tenant's sequences leave every pass. -/
def leavePasses (t : Nat) (s : State) : State :=
  { s with lfl := { s.lfl with jobs := s.lfl.jobs.map fun j => match j.2.kind with
    | .pass h seqs => (j.1, { j.2 with
        kind := .pass h (seqs.filter fun q => (s.req q.req).tenant ≠ t)
        shares := j.2.shares.filter fun x => (s.req x.1).tenant ≠ t })
    | _ => j } }

/-- A request goes without a completion. -/
def dropRequest (n : Nat) (s : State) : State :=
  let r := s.req n
  let s := dropRefs (r.seq.blocks ++ r.dseq.blocks) s
  let s := setReq n (fun _ => Request.none) s
  let s := setLedger r.tenant (fun p => (p.settle r.out.length).give (r.maxOut - r.out.length)) s
  dropLong (.request n) (unref r.draft (unref r.main s))

/-- Jobs, requests, contexts and ingests of a tenant end at once, without completions. -/
def dropWork (t : Nat) (s : State) : State :=
  let reqs := (s.lfl.requests.filter fun r => r.2.tenant = t).map (·.1)
  let jobs := (s.lfl.jobs.filter fun j => j.2.tenant = t && (match j.2.kind with | .pass _ _ => false | _ => true)).map (·.1)
  let s := leavePasses t s
  let s := jobs.foldl (fun s n => setJob s n fun j => { j with sub := none }) s
  let s := (List.range 64).foldl (fun s c =>
    let k := s.core c
    if k.run.any (fun r => r.owner = t) || k.kept.any (fun x => x.run.owner = t) || k.assigned.any fun a => a.2.1 = t
    then killCore c St.domainReset s else s) s
  let s := jobs.foldl (fun s n => dropLong (.job n) (endStreams n (dropJob s n))) s
  let empty := (s.lfl.jobs.filter fun j => match j.2.kind with | .pass _ seqs => seqs.isEmpty | _ => false).map (·.1)
  let s := empty.foldl (fun s n => endStreams n (retireJob (cancelCores n St.cancelled s) n)) s
  let s := reqs.foldl (fun s n => dropRequest n s) s
  let s := ((tenantCtxs s t).filter fun c => (s.ctx c).life ≠ .closed).foldl (fun s c =>
    closeContext c (setCtx s c fun x => { x with closeSub := none, swapSubs := [] })) s
  let ings := (s.lfl.ingests.filter fun i => i.2.sub.fn.val = t).map (·.1)
  ings.foldl (fun s n => dropLong (.ingest n) (failIngest n s)) s

/-- The tenant's cores: RESIDENT regions are zeroed, and a core whose owner it is is scrubbed and has no owner. -/
def scrubCores (t : Nat) (s : State) : State :=
  (List.range 64).foldl (fun s c =>
    let k := s.core c
    if k.owner = t then
      let s := releaseRegions c ((List.range 128).filter fun r => !isResident (k.region r) || k.region r = .resident t) s
      scrubCore c 0 s
    else releaseRegions c (residentOf k t) s) s

/-- The tenant's frames are BLANK and in no index entry. -/
def blankFramesOf (t : Nat) (s : State) : State :=
  (s.lfl.blocks.filter fun b => b.2.tenant = t).foldl (fun s b =>
    let s := if b.2.refs ≠ 0 then setKvPool (fun p => p.give b.2.frames.length) s else s
    blankBlock b.1 s) s

/-- Its region entries are disabled and its key slots destroyed. -/
def destroyMemory (t : Nat) (s : State) : State :=
  { s with
    gdl := { s.gdl with regions := s.gdl.regions.filter fun e => e.2.owner.toNat ≠ t }
    sec := { s.sec with kslots := s.sec.kslots.map fun k => if k.2.live ∧ k.2.owner.toNat = t then (k.1, { k.2 with live := false, owner := 0 }) else k } }

/-- Units held, by pool instance, of the pools that a scrub returns to. -/
def poolsHeld (s : State) : List (Nat × Nat × Nat) :=
  ((List.range 64).map fun c => (0x01, c, (s.core c).credits.held)) ++ [(0x05, 0, s.sfe.pool.held), (0x06, 0, s.lfl.kvPool.held)] ++
  ((List.range 8).map fun i => (0x07, i, (tablePool s).held)) ++ ((List.range 15).map fun i => (0x08, i + 1, (s.tenant (i + 1)).ledger.held))

/-- What returned between two states. -/
def returned (before after : List (Nat × Nat × Nat)) : List (Nat × Nat × Nat) :=
  (before.zip after).map fun x => (x.1.1, x.1.2.1, x.1.2.2 - x.2.2.2)

/-- Everything of tenant `t` is scrubbed or destroyed. -/
def scrubTenant (t : Nat) (s : State) : State :=
  let s := scrubCores t (dropWork t s)
  let s := clearSram s (4096 * (s.tenant t).base.toNat) (4096 * (s.tenant t).size.toNat)
  drawTenantKey t (destroyMemory t (blankFramesOf t s))

/-- A tenant scrub with its reclaim report. -/
def tenantScrub (t : Nat) (s : State) : State :=
  let before := poolsHeld s
  let s := scrubTenant t s
  postReclaim 0x73 (returned before (poolsHeld s)) s

/-! ## The resets -/

/-- A Function Level Reset begins. -/
def startFlr (f : Nat) (s : State) : State :=
  if (s.func f).flr then s else
  let held := holdings s f
  let before := poolsHeld s
  let s := setFunc s f fun x => { x with flr := true }
  let s := cancelAll f (deleteQueues f s)
  let s := resetSetup f (closeWindows f s)
  let s := { s with sec := { s.sec with spdm := Tab.upd Spdm.init s.sec.spdm f fun x => { x with sessions := [] } } }
  let s := if f = 0 then s else dropBindings f (closeStreams f s)
  if f ≠ 0 ∧ (s.tsec f).tdi ≠ .unlocked then
    let s := scrubTenant f s
    let s := setTsec s f fun x => { x with tdi := .unlocked }
    setFunc s f fun x => { x with reclaim := (held.filter fun e => e.1 = 0x04) ++ returned before (poolsHeld s) }
  else setFunc s f fun x => { x with reclaim := held }

def execFunctionLevelReset (fn : Fn) (s : State) : Out := whenRunning s true (startFlr fn)

/-- Nothing that the function submitted is left. -/
def flrDone (s : State) (f : Nat) : Bool :=
  !(s.lfl.longOps.any fun l => l.fn = f) && !(s.flt.cmds.any fun c => c.sub.fn.val = f) &&
  !(s.lfl.jobs.any fun j => j.2.state ≠ .done && j.2.state ≠ .ended && j.2.sub.any fun b => b.fn.val = f) &&
  !(s.lfl.requests.any fun r => r.2.sub.fn.val = f) && (f = 0 || (tenantCtxs s f).all fun c => (s.ctx c).life = .closed)

def execFunctionLevelResetComplete (fn : Fn) (s : State) : Out :=
  whenRunning s ((s.func fn).flr && flrDone s fn) fun s =>
    let es := (s.func fn).reclaim
    postReclaim 0x73 es (setFunc s fn fun x => { x with flr := false, reclaim := [] })

/-- Hot reset and link down: every function is reset, from VF15 down to PF0. -/
def linkDown (s : State) : State :=
  let s := { s with pci := { s.pci with link := { width := 0, l1 := false } } }
  (List.range 16).foldl (fun s i => startFlr (15 - i) s) s

def execHotReset (s : State) : Out :=
  .next (if s.running then linkDown s else { s with pci := { s.pci with link := { width := 0, l1 := false } } })

/-! ## The link (R403, R475, R494) -/

/-- A lane group of the link works (R45). -/
def laneGroupUp (s : State) (g : Nat) : Bool := !s.fences.pci.getLsbD g

/-- A width qualifies by the lane groups its lanes lie in. -/
def widthFits (s : State) (w : Nat) : Bool :=
  match w with
  | 8 => [0, 1, 2, 3].all (laneGroupUp s)
  | 4 => (laneGroupUp s 0 && laneGroupUp s 1) || (laneGroupUp s 3 && laneGroupUp s 2)
  | _ => laneGroupUp s 0 || laneGroupUp s 3

/-- The widest width that both sides have, 0 when none qualifies. In nursery mode it is x1. -/
def trainedWidth (s : State) (partner : Nat) : Nat :=
  let most := if s.boot.nursery then 1 else 2 ^ partner
  ([8, 4, 2, 1].find? fun w => decide (w ≤ most) && widthFits s w).getD 0

/-- The link trains: `partner` tells the partner's widest width, x1, x2, x4 or x8. -/
def execLinkTrain (partner : Fin 4) (s : State) : Out :=
  whenever s (domUp s 0x73) fun s => { s with pci := { s.pci with link := { width := trainedWidth s partner, l1 := false } } }

def execLinkL1Entry (s : State) : Out :=
  whenever s (domUp s 0x73 && s.pci.link.width != 0) fun s => { s with pci := { s.pci with link := { s.pci.link with l1 := true } } }

/-- L1 exit by either side wakes a PCI Express domain in RETAIN and the control domain. -/
def execLinkL1Exit (s : State) : Out :=
  whenever s s.pci.link.l1 fun s =>
    let s := { s with pci := { s.pci with link := { s.pci.link with l1 := false } } }
    let s := if (s.dom 0x73).state = .retain then askDom 0x73 .on s else s
    if (s.dom 0x74).state = .retain then askDom 0x74 .on s else s

end Sys2Proof.Machine
end

