-- ==== Sys2Proof/Machine/DomReset.lean ====
section
/-! DEFINITION. Resets of single domains (chapter 17: R500 to R502): what each ends and returns, and the end of the held phase. -/

namespace Sys2Proof.Machine

open Sys2Proof Numeric

/-! ## Who has something in the domain (R501) -/

/-- Lines that a transfer still has to bring from its source. -/
def Transfer.open (x : Transfer) : List Nat := (List.range x.f.rows).map fun i => 64 * (x.f.src + i)

/-- A run has an access in flight to an address of shared SRAM or DRAM that satisfies `p`. -/
def Run.reaches (r : Run) (sram : Bool) (p : Nat → Bool) : Bool :=
  (r.transfers.any fun x => x.f.kind = (if sram then 0 else 1) && x.open.any p) ||
  (r.stores.any fun x => (x.kind = 0) = sram && x.lines.any fun l => p l.1)

/-- A run on core `c` has an access in flight to domain `d`. -/
def runTouches (s : State) (d c : Nat) (r : Run) : Bool :=
  if fabricDom d then
    coreHalf c = d - 0x40 && (!r.transfers.isEmpty || !r.stores.isEmpty || !r.signals.isEmpty || r.phase = .loading)
  else if sramDom d then r.reaches true fun a => 0x50 + (a / 64 % 4 + 4 * (a / 2 ^ 24)) = d
  else if dramDom d then (r.reaches false fun a => groupDom s a = d) || (r.phase = .loading && groupDom s r.image.toNat = d)
  else if d = 0x70 then r.reaches true (fun _ => true) || r.reaches false (fun _ => true) || r.phase = .loading
  else false

/-- A job's kind without the sequences of some requests. -/
def dropSeqs (ns : List Nat) (k : JobKind) : JobKind :=
  match k with
  | .pass h seqs => .pass h (seqs.filter fun q => !ns.contains q.req)
  | k => k

/-- A pass that has no sequence left. -/
def emptyPass (k : JobKind) : Bool :=
  match k with
  | .pass _ seqs => seqs.isEmpty
  | _ => false

def isChunk (k : JobKind) : Bool :=
  match k with
  | .chunk _ _ => true
  | _ => false

/-- The jobs that a reset of domain `d` ends. -/
def jobsTouching (s : State) (d : Nat) : List Nat :=
  let live := s.lfl.jobs.filter fun j => j.2.state ≠ .done && j.2.state ≠ .ended
  (live.filter fun j =>
    if coreDom d then (s.core d).runs j.1 || (s.core d).keeps j.1 || (s.core d).awaits j.1
    else
      ((List.range 64).any fun c => (s.run c).any fun r => r.job = j.1 && runTouches s d c r) ||
      ((dramDom d || d = 0x70) && s.gdl.passes.any fun p => p.2.job = j.1) ||
      (d = 0x71 && isChunk j.2.kind)).map (·.1)

/-- The report that a job waits for until the held phase ends: of the core that is reset, or under number 64. -/
def waitMark (d : Nat) : Nat := if coreDom d then d else 64

/-- A job ends with the reset. Its last report comes when the held phase ends. -/
def endWithDomain (d : Nat) (s : State) (n : Nat) : State :=
  let m := waitMark d
  let s := if m = 64 then setJob s n fun j => { j with left := j.left ++ [64] } else
    updCore s d fun k => { k with
      run := if k.runs n then none else k.run
      kept := if k.keeps n then none else k.kept
      assigned := if k.awaits n then none else k.assigned }
  cancelCores n St.domainReset s

/-! ## What the domains lose -/

/-- Requests that hold KV pages end; their sequences leave the passes (R349). -/
def loseKvPages (s : State) : State :=
  let ns := (s.lfl.requests.filter fun r => !(r.2.seq.blocks.isEmpty && r.2.dseq.blocks.isEmpty)).map (·.1)
  let s : State := { s with lfl := { s.lfl with jobs := s.lfl.jobs.map fun j => (j.1, { j.2 with kind := dropSeqs ns j.2.kind }) } }
  let empty := (s.lfl.jobs.filter fun j => emptyPass j.2.kind).map (·.1)
  let s := empty.foldl (fun s n => endStreams n (retireJob (cancelCores n St.domainReset s) n)) s
  ns.foldl (fun s n => setReq n (fun r => { r with
    seq := { r.seq with blocks := [], prov := 0 }
    dseq := { r.dseq with blocks := [], prov := 0 }
    ending := if r.ending.isSome then r.ending else some St.domainReset }) s) s

/-- An ingest ends with the reset. -/
def endIngestWithDomain (s : State) (n : Nat) : State :=
  let sub := (s.ingest n).sub
  finishLong (.ingest n) sub (plainCompletion sub St.domainReset 0) (failIngest n s)

/-- Ingests with a shard on its way that satisfies `p`, or with a table build where `builds`. -/
def ingestsWith (s : State) (p : ShardJob → Bool) (builds : Bool) : List Nat :=
  (s.lfl.ingests.filter fun i => i.2.active.any (fun x => x.begun && p x) || (builds && i.2.building)).map (·.1)

/-- Tokens that accesses hold return to their accounts. -/
def freshTokens (s : State) : State :=
  { s with ddr := { s.ddr with
    grants := []
    ports := s.ddr.ports.map fun p => { p with accts := p.accts.map fun a => { a with free := a.free + a.held, held := 0 } } } }

/-- The memory-side domain: its engines, pools 0x03, 0x06 and 0x07, the prefix index, EXP_STAT and KVM_STAT. -/
def resetMemorySide (s : State) : State :=
  let s := (ingestsWith s (fun _ => true) true).foldl endIngestWithDomain s
  let s := freshTokens (loseKvPages s)
  { s with
    gdl := { s.gdl with slots := [], expanders := [], passes := [], buffer := [], headerCache := [], coded := 0, raw := 0, decErr := 0 }
    lfl := { s.lfl with
      blocks := []
      kvPool := Pool.whole s.lfl.kvPages.toNat
      kvSat := 0
      cow := 0
      idxSkip := 0
      specOff := 0 } }

/-- A context closes with the reset of the stream front end. -/
def closeWithDomain (s : State) (c : Nat) : State :=
  let x := s.ctx c
  if x.life = .closed then s
  else
    let s := setCtx s c fun y => { y with closeSub := none, swapSubs := [] }
    let waits := x.swapSubs ++ x.closeSub.toList
    closeContext c (waits.foldl (fun s b => endWith b St.domainReset s) s)

/-- The stream front end: every context is closed, pool 0x05 is whole, CSI_STAT is cleared. -/
def resetStreamFront (s : State) : State :=
  let chunks := (s.lfl.jobs.filter fun j => isChunk j.2.kind).map (·.1)
  let s := chunks.foldl (fun s n => endStreams n (retireJob s n)) s
  let s := (List.range 24).foldl closeWithDomain s
  { s with sfe := { s.sfe with
    pool := Pool.whole 512
    frames := []
    lastNum := []
    decim := []
    gapNext := []
    ports := s.sfe.ports.map fun p => (p.1, { p.2 with eccCorr := 0, eccUe := 0, crc := 0, lost := 0, ignored := 0 }) } }

/-- The flash tier: its commands and the ingests that read it end, what its controller holds is lost, FLT_STAT is cleared. -/
def resetFlash (s : State) : State :=
  let s := (ingestsWith s (fun x => match x.src with | .flash _ => true | _ => false) false).foldl endIngestWithDomain s
  let s := (s.flt.cmds.map (·.num)).foldl (fun s n => finishFlash n St.domainReset 0 s) s
  { s with flt := { s.flt with
    state := 1
    table := []
    journals := []
    units := []
    retries := 0
    uncorr := 0
    suspends := 0
    badNew := 0 } }

/-- A DRAM channel group: every line goes poisoned, a retraining at one of its channels ends, shards on their way to it end. -/
def resetDramGroup (d : Nat) (s : State) : State :=
  let s := (ingestsWith s (fun _ => true) true).foldl endIngestWithDomain s
  let s := if s.ddr.retrain.any fun r => r.chan / 4 = d - 0x60 then endRetrain St.domainReset s else s
  let s := (List.range 4).foldl (fun s i =>
    setChan (4 * (d - 0x60) + i) (fun k => { k with ce := 0, ue := 0, keyMM := 0, lastUe := 0, checkCache := [], nr := [], openRow := [] }) s) s
  poisonGroup d true { s with ddr := { s.ddr with grants := s.ddr.grants.filter fun g => groupDom s (64 * g.line) ≠ d } }

/-- What the reset of a domain does to its contents. -/
def resetContents (d : Nat) (s : State) : State :=
  if coreDom d then resetCore d s
  else if fabricDom d then freshBridges (d - 0x40) s
  else if sramDom d then zeroGroup d s
  else if dramDom d then resetDramGroup d s
  else if d = 0x70 then resetMemorySide s
  else if d = 0x71 then resetStreamFront s
  else if d = 0x72 then resetFlash s
  else s

/-! ## GO (R500, R502) -/

/-- Units held, by pool instance, of every pool that a domain reset can return to. -/
def allHeld (s : State) : List (Nat × Nat × Nat) :=
  poolsHeld s ++ (s.bridges.zipIdx.map fun b => (0x02, b.2, b.1.credits.held)) ++
  (s.ddr.ports.zipIdx.map fun p => (0x03, p.2, p.1.whole.held))

/-- The write is refused. -/
def goRefused (s : State) (d : Nat) : Bool :=
  s.boot.held.isSome || s.boot.nursery || !isDomain s d || [0x73, 0x74, 0x7F].contains d || (coreDom d && coreFenced s d) ||
  (sramDom d && quadSystem s d)

/-- The reset begins: what the domain holds returns, jobs in it end, the domain is in reset. -/
def beginReset (d : Nat) (s : State) : State :=
  let before := allHeld s
  let jobs := jobsTouching s d
  let s := jobs.foldl (endWithDomain d) s
  let s := resetContents d s
  let s := setDom s d fun x => { x with reset := true, target := .on, busy := false, pend := none }
  let phase : HeldPhase :=
    { dom := BitVec.ofNat 8 d, reclaim := some (returned before (allHeld s)), jobs := jobs.map fun n => (n, waitMark d) }
  { s with boot := { s.boot with held := some phase } }

def domResetWrite (v : Word) (s : State) : State :=
  let d := bits32 v 0 8
  let s := { s with boot := { s.boot with domSel := BitVec.ofNat 8 d } }
  if !bit32 v 8 then s
  else if goRefused s d then { s with boot := { s.boot with domErr := true } }
  else beginReset d { s with boot := { s.boot with domErr := false } }

def execDomainReset (fn : Fn) (v : Word) (s : State) : Out := regWrite s (bootOpen s fn && fn = 0) (domResetWrite v)

/-- The reclaim phase ends with its report. Time brings this about (notes/assumptions/1.md). -/
def endReclaim (s : State) : State :=
  match s.boot.held with
  | some h => match h.reclaim with
    | some es => postReclaim h.dom.toNat es { s with boot := { s.boot with held := some { h with reclaim := none } } }
    | none => s
  | none => s

/-! ## The end of the held phase -/

/-- The lane groups of a half's bridge that failed their test are fenced; with the last one the half. -/
def fenceLanes (h : Nat) (bad : Byte) (s : State) : State :=
  let ls := (List.range 8).filter fun l => bad.getLsbD l && !laneFenced s h l
  let s := ls.foldl (fun s l =>
    postEvent 0 (evUnitNotice 3 (Config.laneNumber h l)) { s with fences := fenceLane h l s.fences }) s
  if (workingLanes s h).isEmpty && !s.fences.half.getLsbD h then fenceHalf h s else s

def fencePorts (bad : BitVec 4) (s : State) : State :=
  let ps := (List.range 4).filter fun p => bad.getLsbD p && !s.fences.csi.getLsbD p
  let s := { s with fences := { s.fences with csi := s.fences.csi ||| bad } }
  ps.foldl (fun s p => postEvent 0 (evUnitNotice 4 p) s) s

/-- What the held phase of a domain finds takes effect. -/
def settleHeld (d : Nat) (rep : HeldReport) (s : State) : State :=
  if coreDom d then (if rep.ok then s else postEvent 0 (evUnitNotice 1 d) (takeOut d s))
  else if fabricDom d then fenceLanes (d - 0x40) rep.badLanes s
  else if dramDom d then
    (List.range 4).foldl (fun s i =>
      trainOne (rep.lanes.getD (2 * i) LaneSweep.none) (rep.lanes.getD (2 * i + 1) LaneSweep.none) (4 * (d - 0x60) + i) s) s
  else if d = 0x71 then fencePorts rep.badPorts s
  else if (sramDom d || d = 0x70) && !rep.ok then fatalStop s
  else s

/-- The jobs that the reset ended report: ST_UNIT_FENCED where the core was fenced, else ST_DOMAIN_RESET. -/
def reportHeld (h : HeldPhase) (s : State) : State :=
  let st := if coreDom h.dom.toNat && coreFenced s h.dom.toNat then St.unitFenced else St.domainReset
  h.jobs.foldl (fun s x =>
    let s := setJob s x.1 fun j => { j with result := if j.result = St.domainReset then st else j.result }
    coreReport x.1 x.2 st 0 s) s

/-- The held phase ends: the domain is ON, and BUSY clears. -/
def execHeldPhaseEnd (rep : HeldReport) (s : State) : Out :=
  whenRunning s (s.boot.held.any fun h => h.reclaim.isNone) fun s =>
    match s.boot.held with
    | none => s
    | some h =>
      let d := h.dom.toNat
      let now := s.ns
      let s := setDom s d fun x => { x with reset := false, state := .on, target := .on, since := now }
      let s := settleHeld d rep { s with boot := { s.boot with held := none } }
      reportHeld h s

end Sys2Proof.Machine
end

