-- ==== Sys2Proof/Machine/Clock.lean ====
section
/-! DEFINITION. What the passing of time brings about without a command (notes/assumptions/1.md). -/

namespace Sys2Proof.Machine

open Sys2Proof

/-- A fatal condition within 10 s after DONE is a failed start (R490, R503). -/
def failsStart (s : State) : Bool := s.boot.fatal && s.boot.done && decide (s.boot.fatalAt < s.boot.doneAt + 10 ^ 10)

/-- One cycle of the always-on clock: the timer counts, bridges accept the flits replayed to them, a reclaim phase ends, and a
start that failed is tried again. -/
def tick (s : State) : State :=
  let s := { s with timer := s.timer + 1, bridges := s.bridges.map BridgeDir.accept }
  if failsStart s then failedStart 20 s
  else if s.boot.fatal then s
  else endReclaim s

end Sys2Proof.Machine
end

