-- ==== Sys2Proof/Machine/Power.lean ====
section
/-! DEFINITION. The power controller, the energy accounts, the power domains' commands, the management port and wake
(chapter 16). -/

namespace Sys2Proof.Machine

open Sys2Proof Numeric

/-! ## Steps (R457 to R459) -/

/-- Frequency of a step in 100 MHz and its default voltage in mV. -/
def stepFreq (c : Nat) : Nat := c + 6
def stepVolt (c : Nat) : Nat := [550, 570, 590, 610, 630, 655, 680, 705, 735, 765, 800, 845, 900].getD c 900

/-- What dynamic power scales by: f × V². -/
def stepScale (c : Nat) : Nat := stepFreq c * stepVolt c * stepVolt c

/-- The requested step of a core: 12, or MAXSTEP at the expert level. -/
def requestedStep (s : State) (c : Nat) : Nat :=
  if expert s 0 then min 12 (Tab.get Vf.init s.pwr.vfs c).maxStep.toNat else 12

/-- Every core aims at the smaller of its requested step and the ceiling. -/
def retarget (s : State) : State :=
  (List.range 64).foldl (fun s c =>
    if coreExists s c then updCore s c fun k => { k with target := min (requestedStep s c) s.pwr.ceiling.toNat } else s) s

/-- The limit in force, in W (R462). -/
def limitInForce (s : State) : Nat := min s.pwr.limit.toNat s.pwr.boardMax.toNat

/-- A limit is clamped to 40 to 150 W. -/
def clampLimit (x : Nat) : BitVec 8 := BitVec.ofNat 8 (max 40 (min 150 x))

/-! ## The estimator (R460, R461, R465, R466) -/

/-- A window's energy with each core's dynamic part rescaled to step `c`, in pJ. -/
def rescaled (s : State) (rep : WindowReport) (c : Nat) : Nat :=
  let cores := (List.range 64).map fun n => rep.dynamic.getD n 0 * stepScale c / stepScale (s.core n).step
  cores.sum + (rep.dynamic.drop 64).sum + rep.leakage.sum

/-- Energy of 10 µs in pJ as calibrated power in mW. -/
def calibratedMw (p : Pwr) (e : Nat) : Nat := e * p.kNum / (p.kDen * 10000)

/-- The ceiling is active: an ON core is below its requested step, or an array is throttled (R465). -/
def ceilingActive (s : State) : Bool :=
  s.pwr.throttle != 0 || (List.range 64).any fun c => coreUp s c && decide (s.pwr.ceiling.toNat < requestedStep s c)

/-- The report is one that the window can give: what jobs drew is part of the energy, and each of them is a job. -/
def windowSound (s : State) (rep : WindowReport) : Bool :=
  decide ((rep.served.map (·.2)).sum ≤ rep.dynamic.sum + rep.leakage.sum) &&
  rep.served.all fun x => s.lfl.jobs.any fun j => j.1 = x.1

def serveJob (s : State) (x : Nat × Nat) : State :=
  if (s.job x.1).state = .suspended then s else setJob s x.1 fun j => { j with tick := j.tick + x.2 }

/-- The sensors and the input are read, whatever state the rest of the part is in. -/
def readSensors (rep : WindowReport) (s : State) : State :=
  { s with pwr := { s.pwr with
    hotBefore := s.pwr.temps.any fun t => decide (110 ≤ t)
    temps := rep.temps
    vinMv := rep.vinMv
    iinMa := rep.iinMa
    vinSince := if rep.vinMv.toNat < 10800 ∨ 13200 < rep.vinMv.toNat then s.ns else s.pwr.vinSince } }

def estimate (rep : WindowReport) (s : State) : State :=
  let e := rep.dynamic.sum + rep.leakage.sum
  let w : PowerWindow :=
    { est := calibratedMw s.pwr e, above := calibratedMw s.pwr (rescaled s rep (min 12 (s.pwr.ceiling.toNat + 1))), amps := rep.iinMa.toNat }
  let active := ceilingActive s
  let s := { s with pwr := { s.pwr with
    windows := (w :: s.pwr.windows).take 10
    tickEnergy := s.pwr.tickEnergy + e
    capWindow := s.pwr.capWindow || active } }
  let s := if expert s 0 then s else { s with pwr := { s.pwr with vfs := [] } }
  retarget (rep.served.foldl serveJob s)

/-- A 10 µs window ends. -/
def execEstimatorWindow (rep : WindowReport) (s : State) : Out :=
  whenever s (windowSound s rep) fun s =>
    let s := readSensors rep s
    if s.running then estimate rep s else s

/-! ## Decisions (R463, R464) -/

/-- The decision asks for less power. -/
def mustLower (s : State) : Bool :=
  let ws := s.pwr.windows
  decide (10000 * limitInForce s < (ws.map (·.est)).sum) || decide (140000 < (ws.map (·.amps)).sum) ||
  s.pwr.temps.any fun t => decide ((s.pwr.tThrot.toNat : Int) ≤ t)

/-- The decision allows more. -/
def mayRaise (s : State) : Bool :=
  let ws := s.pwr.windows
  decide ((ws.map (·.above)).sum + 20000 ≤ 10000 * limitInForce s) && decide ((ws.map (·.amps)).sum ≤ 130000) &&
  s.pwr.temps.all fun t => decide (t < (s.pwr.tThrot.toNat : Int) - 3)

/-- One step down: the ceiling, then the arrays; at throttle level 2 the limit is not met. -/
def lowerOne (p : Pwr) : Pwr :=
  if p.ceiling ≠ 0 then { p with ceiling := p.ceiling - 1 }
  else if p.throttle.toNat < 2 then { p with throttle := p.throttle + 1 }
  else { p with unmet := true }

/-- One step up: the arrays first. -/
def raiseOne (p : Pwr) : Pwr :=
  if p.throttle ≠ 0 then { p with throttle := p.throttle - 1 }
  else if p.ceiling.toNat < 12 then { p with ceiling := p.ceiling + 1 }
  else p

/-- What a decision makes of the controller. -/
def decision (lower raise : Bool) (p : Pwr) : Pwr :=
  if lower then { lowerOne p with passes := 0, windows := [] }
  else if raise then
    if p.passes = 9 then { raiseOne p with passes := 0, unmet := false, windows := [] }
    else { p with passes := p.passes + 1, unmet := false, windows := [] }
  else { p with passes := 0, unmet := false, windows := [] }

def execCapDecision (s : State) : Out :=
  whenRunning s (s.pwr.windows.length = 10) fun s =>
    retarget { s with pwr := decision (mustLower s) (mayRaise s) s.pwr }

/-- The core's clock has come to its step (R458). -/
def execCoreStepSettle (core : CoreId) (s : State) : Out :=
  whenRunning s (coreUp s core) fun s => updCore s core fun k => { k with step := k.target }

/-! ## The tick (R461, R465, R467, R468, R476) -/

/-- The calibration factor of a tick as a fraction, and whether it was clamped at the low and at the high end. Without an
estimate the ratio has no value: it is free within its range. -/
def tickFactor (s : State) (measured : Nat) : Nat × Nat × Bool × Bool :=
  let est := s.pwr.tickEnergy
  if est = 0 ∧ measured = 0 then (80 + s.fv 0 % 46, 100, false, false)
  else if 5 * measured < 4 * est then (4, 5, true, false)
  else if 5 * est < 4 * measured then (5, 4, false, true)
  else (measured, est, false, false)

/-- What each job is attributed in the tick, in pJ. -/
def attributions (s : State) (measured : Nat) : List (Nat × Nat) :=
  let k := tickFactor s measured
  let raw := s.lfl.jobs.map fun j => (j.1, j.2.tick * k.1 / k.2.1)
  let total := (raw.map (·.2)).sum
  if k.2.2.1 && decide (measured < total) then raw.map fun x => (x.1, x.2 * measured / total) else raw

def attributedTo (at' : List (Nat × Nat)) (n : Nat) : Nat := ((at'.filter fun x => x.1 = n).map (·.2)).sum

/-- A completion that waited for the tick takes its share of its jobs' energy and is ready. -/
def settleCompletion (at' : List (Nat × Nat)) (c : Completion) : Completion :=
  { c with
    energy := c.energy + (c.jobs.map fun x => attributedTo at' x.1 * x.2.1 / max 1 x.2.2).sum
    jobs := [] }

def settleQueues (at' : List (Nat × Nat)) (s : State) : State :=
  { s with pci := { s.pci with funcs := s.pci.funcs.map fun f =>
    (f.1, { f.2 with queues := f.2.queues.map fun q => (q.1, { q.2 with waiting := q.2.waiting.map (settleCompletion at') }) }) } }

/-- A job's attribution: its own account, its requests' shares, and whole µJ of pool 0x09. -/
def attributeJob (s : State) (x : Nat × Nat) : State :=
  let j := s.job x.1
  let rows := (j.shares.map (·.2)).sum
  let units := (j.energy + x.2) / 10 ^ 6 - j.energy / 10 ^ 6
  let s := { s with pwr := { s.pwr with energy := s.pwr.energy.take units } }
  let s := setJob s x.1 fun j => { j with energy := j.energy + x.2, tick := 0 }
  j.shares.foldl (fun s q =>
    if (s.req q.1).maxOut = 0 then s else setReq q.1 (fun r => { r with energy := r.energy + x.2 * q.2 / rows }) s) s

/-- Jobs that are over leave the table. -/
def dropEnded (s : State) : State :=
  { s with lfl := { s.lfl with jobs := s.lfl.jobs.filter fun j => !(j.2.state = .ended || (j.2.state = .done && j.2.isHost)) } }

/-- PWR_STAT as the tick captures it. -/
def captureStat (s : State) (measured : Nat) : PwrStat :=
  let k := tickFactor s measured
  { pkg := BitVec.ofNat 16 (min 65535 (measured / 10 ^ 7))
    ceil := s.pwr.ceiling
    thr := s.pwr.throttle
    unmet := s.pwr.unmet
    calf := k.2.2.1 || k.2.2.2
    tmax := BitVec.ofNat 8 (max 0 (min 255 (s.pwr.temps.foldl max (s.pwr.temps.headD 0)))).toNat
    vin := s.pwr.vinMv
    iin := s.pwr.iinMa
    cap := s.pwr.capWindow }

/-- A 1 ms tick ends: `measured` is what each regulator's current sense gives, in pJ. -/
def execPowerTick (measured : List Nat) (s : State) : Out :=
  whenRunning s true fun s =>
    let m := measured.sum
    let k := tickFactor s m
    let at' := attributions s m
    let whole := (s.pwr.rest + m) / 10 ^ 6
    let s := { s with pwr := { s.pwr with
      stat := captureStat s m
      capWindow := false
      kNum := k.1
      kDen := k.2.1
      tickEnergy := 0
      rest := (s.pwr.rest + m) % 10 ^ 6
      energy := s.pwr.energy.refill whole } }
    let s := settleQueues at' (at'.foldl attributeJob s)
    (dropEnded (conserve 0x09 0 s.pwr.energy s)).spend

/-! ## Protection (R455, R466) -/

/-- VIN left its range. -/
def execVinFault (s : State) : Out :=
  let s := if startWindow s then countFailure 18 s else s
  .next (packageReset 5 { s with pwr := { s.pwr with vinSince := s.ns } })

/-- Two readings in a row at 110 °C or more. -/
def execThermalTrip (s : State) : Out :=
  whenever s (s.pwr.hotBefore && s.pwr.temps.any fun t => decide (110 ≤ t)) fun s =>
    let s := if startWindow s then countFailure 18 s else s
    packageReset 4 { s with
      pwr := { s.pwr with tripped := true, thermtrip := true }
      pins := { s.pins with thermtripN := false } }

/-! ## Power domains (R469 to R473, R477) -/

/-- PWR_DOM_CTRL.TARGET, none for 3. -/
def targetOf (v : BitVec 2) : Option DomState :=
  match v.toNat with
  | 0 => some .on
  | 1 => some .retain
  | 2 => some .off
  | _ => none

/-- An APPLY is refused. -/
def domRefused (s : State) (d : Nat) (t : DomState) : Bool :=
  !isDomain s d || !hasState d t || (coreDom d && coreFenced s d) || entryRefused s d t || (d = 0x74 && t = .retain && s.pwr.smbMatched)

def domSelWrite (v : Word) (s : State) : State :=
  let d := bits32 v 0 8
  let s := { s with pwr := { s.pwr with domSel := BitVec.ofNat 8 d } }
  if !bit32 v 8 then s
  else match targetOf s.pwr.domTarget with
    | none => { s with pwr := { s.pwr with domErr := true } }
    | some t =>
      if domRefused s d t then { s with pwr := { s.pwr with domErr := true } }
      else
        let s := { s with pwr := { s.pwr with domErr := false } }
        askDom d t (setDom s d fun x => { x with auto := s.pwr.domAuto })

def execDomainStateApply (fn : Fn) (v : Word) (s : State) : Out := regWrite s (pf0Open s fn) (domSelWrite v)

/-- A transition in work may end now. -/
def transitionReady (s : State) (d : Nat) : Bool :=
  let x := s.dom d
  let up := x.target = .on || (x.target = .retain && x.state = .off)
  x.busy && !x.reset && (!up || mayWake s d) && (x.target = .on || mayLeave s d x.target)

def execDomainTransitionDone (dom : Byte) (s : State) : Out :=
  whenever s (s.boot.done && !s.boot.fatal && transitionReady s dom.toNat) fun s =>
    let d := dom.toNat
    let s := endTransition d s
    if d = 0x73 ∧ (s.dom d).state = .off then linkDown s else s

/-- The domain wakes on use: a core for a dispatched job, a fabric with a core, a bank group for an access. -/
def wakesFor (s : State) (d : Nat) : Bool :=
  if coreDom d then (s.core d).assigned.isSome
  else if fabricDom d then (halfCores s (d - 0x40)).any fun c => (s.dom c).busy && (s.dom c).target = .on
  else sramDom d

def execAutoWake (dom : Byte) (s : State) : Out :=
  let x := s.dom dom.toNat
  whenRunning s (isDomain s dom.toNat && x.auto && x.state ≠ .on && !x.busy && wakesFor s dom.toNat) (wakeDom dom.toNat)

/-- The pads of a domain let go, if the domain is ON (R473). What waited for that follows. -/
def releasePads (d : Nat) (s : State) : State :=
  if !((s.dom d).hold && (s.dom d).state = .on) then s
  else
    let s := setDom s d fun x => { x with hold := false }
    if dramDom d then
      if s.ddr.tempDelta != 0 && decide (s.ddr.tempDelta.toNat ≤ (junction s - s.ddr.lastTemp).natAbs) then dueRetrain s else s
    else if d = 0x72 then { s with flt := { s.flt with state := if s.flt.state = 0 then 0 else 1 } }
    else s

/-- A write of PWR_PAD_RELEASE. -/
def padsWrite (v : Word) (s : State) : State :=
  let ds := ((List.range 8).filter fun g => bit32 v g).map (0x60 + ·) ++ (if bit32 v 8 then [0x72] else []) ++ if bit32 v 9 then [0x73] else []
  ds.foldl (fun s d => releasePads d s) s

def execPadRelease (fn : Fn) (v : Word) (s : State) : Out := regWrite s (pf0Open s fn) (padsWrite v)

/-! ## The management port (R474, R475) -/

/-- The address matcher: a match in RETAIN brings the control domain to ON. In package reset it answers nothing. -/
def execSmbusAddressMatch (addr : BitVec 7) (s : State) : Out :=
  whenever s (s.pwr.smbEn && addr = s.pwr.smbAddr && portAnswers s) fun s =>
    let s := { s with pwr := { s.pwr with smbMatched := true } }
    if (s.dom 0x74).state = .retain then askDom 0x74 .on s else s

/-- The port answers the transaction whose address matched, once the control domain is ON. -/
def smbCommand (s : State) (f : State → State) : Out :=
  whenever s (s.pwr.smbMatched && (s.dom 0x74).state = .on) fun s => f { s with pwr := { s.pwr with smbMatched := false } }

def smbAnswer (bs : Bytes) (s : State) : State := { s with pwr := { s.pwr with smbReply := bs } }

def execSmbStatus (s : State) : Out :=
  smbCommand s fun s => smbAnswer [BitVec.ofNat 8 (pack [(ofBool s.boot.done, 0), (ofBool s.boot.nursery, 1), (ofBool s.pwr.stat.cap, 2),
    (ofBool s.pwr.tripped, 3), (ofBool s.pwr.stat.unmet, 4)])] s

/-- The highest sensor reading, saturating at 0 and 255. -/
def execSmbTemp (s : State) : Out :=
  smbCommand s fun s => smbAnswer [BitVec.ofNat 8 (max 0 (min 255 (s.pwr.temps.foldl max (s.pwr.temps.headD 0)))).toNat] s

/-- Measured power of the last tick in 0.1 W. -/
def execSmbPower (s : State) : Out :=
  smbCommand s fun s => smbAnswer (toLE 2 (s.pwr.stat.pkg.toNat / 10)) s

def execSmbLimitRead (s : State) : Out := smbCommand s fun s => smbAnswer (toLE 2 s.pwr.limit.toNat) s

def execSmbLimitWrite (v : BitVec 16) (s : State) : Out :=
  smbCommand s fun s => { s with pwr := { s.pwr with limit := clampLimit v.toNat } }

def execSmbNursery (s : State) : Out := smbCommand s fun s => smbAnswer [s.boot.nrc] s

def execSmbWake (v : Byte) (s : State) : Out :=
  smbCommand s fun s =>
    let s := if v.getLsbD 0 then askDom 0x74 .on s else s
    if v.getLsbD 1 then askDom 0x73 .on s else s

def execSmbReset (v : Byte) (s : State) : Out := smbCommand s fun s => if v = 0xA5 then packageReset 2 s else s

/-- The wake timer runs out while the control domain is in RETAIN (R479). -/
def execWakeTimerExpiry (s : State) : Out :=
  let x := s.dom 0x74
  whenever s (x.state = .retain && s.pwr.wakeTimer != 0 && decide (x.since + s.pwr.wakeTimer.toNat * 10 ^ 6 ≤ s.ns)) (askDom 0x74 .on)

end Sys2Proof.Machine
end

