-- ==== Sys2Proof/Machine/Ring.lean ====
section
/-! DEFINITION. The Traverse Ring (chapter 13): frames received and forwarded, frames that the master emits, the slot map,
slot encryption, keys and modes. -/

namespace Sys2Proof.Machine

open Sys2Proof Numeric

def setTrg (f : Trg → Trg) (s : State) : State := { s with trg := f s.trg }

/-! ## Keys (R393, R448) -/

def Trg.key (r : Trg) (n : Nat) : Option (BitVec 128) := Tab.get none r.keys n

/-- The node holds ring keys. -/
def Trg.keysHeld (r : Trg) : Bool := !r.keys.isEmpty

/-- All ring keys are discarded, and the security firmware writes those it holds again. -/
def discardKeys (s : State) : State :=
  let held := s.sec.ringKeys
  setTrg (fun r => { r with
    keys := []
    pendingKeys := held
    rx := r.rx.map fun e => (e.1, { e.2 with key := none })
    rxPrev := r.rxPrev.map fun e => (e.1, { e.2 with key := none })
    txSeal := r.txSeal.map fun e => (e.1, { e.2 with key := none }) }) s

/-- Keys that were installed take effect. -/
def takeKeys (r : Trg) : Trg :=
  { r with
    keys := r.pendingKeys.foldl (fun t k => Tab.set none t k.1 k.2) r.keys
    pendingKeys := [] }

/-- A ring key is written into TRG_KEYn. -/
def installKey (n : Nat) (k : BitVec 128) (r : Trg) : Trg := { r with pendingKeys := Tab.set none r.pendingKeys n (some k) }

/-- TRG_KEYn is cleared. -/
def removeKey (n : Nat) (r : Trg) : Trg :=
  { r with keys := Tab.set none r.keys n none, pendingKeys := Tab.set none r.pendingKeys n none }

def execTrgKeyWrite (key : Fin 4) (word : Fin 4) (v : Word) (s : State) : Out :=
  whenever s (!s.boot.fatal) fun s =>
    let s := setTrg (fun r => { r with keyWords := Tab.set 0 r.keyWords (4 * key.val + word.val) v }) s
    if word.val = 3 then
      let at' := fun i => (Tab.get 0 s.trg.keyWords (4 * key.val + i)).toNat
      let k := BitVec.ofNat 128 (pack [(at' 0, 0), (at' 1, 32), (at' 2, 64), (at' 3, 96)])
      setTrg (installKey key.val k) s
    else s

/-! ## Slot encryption (R391, R392) -/

def sealIv (counter slot : Nat) : Bytes := toBE 6 counter ++ [BitVec.ofNat 8 slot] ++ zeros 5

/-- The 48-bit value whose bit f is VALID of frame f. -/
def validBits (vs : List Bool) : Nat := (vs.zipIdx.map fun v => ofBool v.1 * 2 ^ v.2).sum

def sealAad (slot : Nat) (vs : List Bool) : Bytes := [BitVec.ofNat 8 slot] ++ toBE 6 (validBits vs) ++ [0]

def keyBytes (k : BitVec 128) : Bytes := toLE 16 k.toNat

/-- Bits 31:24, 23:16 and 15:8 of a word. -/
def sampleBytes (w : Word) : Bytes := toBE 3 (w.toNat / 256)

def sampleValue (bs : Bytes) : Int := signed 24 (Crypto.beNat bs)

/-! ## Writing slots (R384 to R386, R391) -/

/-- The next word of a slot's buffer, and its VALID bit. -/
def nextWord (r : Trg) (slot : Nat) : Word × Bool × Trg :=
  match Tab.get [] r.txBuf slot with
  | [] => (0, false, r)
  | w :: ws => (BitVec.ofNat 32 (w.toNat / 256 * 256), true, { r with txBuf := Tab.set [] r.txBuf slot ws })

/-- A new superframe of a slot that the node writes: the tag of the last one is kept if it still applies. -/
def startSeal (e : MapEntry) (slot : Nat) (r : Trg) : Trg :=
  let o := Tab.get TxSeal.none r.txSeal slot
  let same := e.en && e.enc && o.entry.en && o.entry.enc && e.key = o.entry.key
  let tag := match o.key with
    | some k => if same && o.cipher.length = 144 then
        Crypto.gcmTag (keyBytes k) (sealIv o.counter slot) (sealAad slot o.valids) o.cipher else []
    | none => []
  let n : TxSeal :=
    { entry := e, key := if e.enc then r.key e.key.toNat else none, counter := r.counter, cipher := [], valids := [], tag := tag }
  { r with txSeal := Tab.set TxSeal.none r.txSeal slot n }

/-- The word and VALID bit that the node writes into slot `slot` in frame `f`. -/
def writeSlot (e : MapEntry) (slot f : Nat) (r : Trg) : Word × Bool × Trg :=
  let r := if f = 0 then startSeal e slot r else r
  let x := Tab.get TxSeal.none r.txSeal slot
  let tail := if f < 16 then (x.tag.getD f 0).toNat else 0
  let put := fun (w : Word) => BitVec.ofNat 32 (w.toNat / 256 * 256 + tail)
  if e.enc then
    match x.key with
    | none => (put 0, false, r)
    | some k =>
      let n := nextWord r slot
      let stream := ((Crypto.gcmCrypt (keyBytes k) (sealIv x.counter slot) (zeros 144)).drop (3 * f)).take 3
      let c := Crypto.xorBytes (sampleBytes n.1) stream
      let y : TxSeal := { x with cipher := x.cipher ++ c, valids := x.valids ++ [n.2.1] }
      let r := { n.2.2 with txSeal := Tab.set TxSeal.none n.2.2.txSeal slot y }
      (put (BitVec.ofNat 32 (256 * Crypto.beNat c)), n.2.1, r)
  else
    let n := nextWord r slot
    (put n.1, n.2.1, n.2.2)

/-! ## Reading slots (R386, R390, R392) -/

/-- The open RING context that reads a slot. -/
def ringCtx (s : State) (slot : Nat) : Option Nat :=
  (List.range 24).find? fun c => (s.ctx c).kind = 2 && (s.ctx c).src.toNat = slot && takesFrames (s.ctx c)

/-- Samples of a slot arrive at the feature path, none for an invalid one. -/
def samplesArrive (slot : Nat) (vs : List (Option Int)) (s : State) : State :=
  match ringCtx s slot with
  | none => s
  | some c => setCtx s c fun x => { x with newSamples := x.newSamples ++ vs }

/-- A superframe of a slot whose tag bytes are complete. -/
def verifyTag (slot : Nat) (x : RxSlot) (tagged : Bool) (s : State) : State :=
  let bad := List.replicate x.words.length (none : Option Int)
  match x.key with
  | none => samplesArrive slot bad s
  | some k =>
    if !tagged then samplesArrive slot bad s
    else
      let iv := sealIv x.counter slot
      let cipher := x.words.flatMap fun w => sampleBytes w.1
      let plain := Crypto.gcmCrypt (keyBytes k) iv cipher
      if x.words.length = 48 ∧ Crypto.gcmTag (keyBytes k) iv (sealAad slot (x.words.map fun w => w.2.1)) cipher = x.tag then
        samplesArrive slot (x.words.zipIdx.map fun w =>
          if w.1.2.1 && w.1.2.2 then some (sampleValue ((plain.drop (3 * w.2)).take 3)) else none) s
      else samplesArrive slot bad (setTrg (fun r => { r with tagFail := satUp r.tagFail 1 }) s)

/-- One received word joins its superframe. -/
def pushWord (slot : Nat) (w : Word) (valid intact : Bool) (s : State) : State :=
  let x := Tab.get RxSlot.none s.trg.rx slot
  let p := Tab.get RxSlot.none s.trg.rxPrev slot
  let i := x.words.length
  let x' : RxSlot := { x with words := x.words ++ [(w, valid, intact)] }
  let p' : RxSlot := if i < 16 then { p with tag := p.tag ++ [BitVec.ofNat 8 w.toNat] } else p
  let s := setTrg (fun r => { r with
    rx := Tab.set RxSlot.none r.rx slot x'
    rxPrev := Tab.set RxSlot.none r.rxPrev slot p' }) s
  let s := if x.entry.en && x.entry.enc then s
    else
      let conf := match ringCtx s slot with
        | some c => isConf s (s.ctx c).owner
        | none => false
      samplesArrive slot [if x.entry.en && valid && intact && !conf then some (sampleValue (sampleBytes w)) else none] s
  if i = 15 && p.entry.en && p.entry.enc then
    let tagged := x.entry.en && x.entry.enc && x.entry.key = p.entry.key
    setTrg (fun r => { r with rxPrev := Tab.set RxSlot.none r.rxPrev slot RxSlot.none }) (verifyTag slot p' tagged s)
  else s

/-- A superframe of a slot begins under the map applied now. -/
def startRx (slot : Nat) (r : Trg) : Trg :=
  let e := Tab.get MapEntry.zero r.applied slot
  let late := !r.master && match r.addr with
    | some a => decide (a.val < e.waddr.toNat)
    | none => false
  let n : RxSlot :=
    { entry := e, shift := late, key := if e.enc then r.key e.key.toNat else none, counter := r.counter, words := [], tag := [] }
  { r with
    rxPrev := Tab.set RxSlot.none r.rxPrev slot (Tab.get RxSlot.none r.rx slot)
    rx := Tab.set RxSlot.none r.rx slot n }

/-- The word of a slot in received frame `f`; `last` is how the slot was read in the superframe before. -/
def readSlot (f slot : Nat) (w : Word) (valid intact : Bool) (s : State) : State :=
  if f = 0 then
    let s := if (Tab.get RxSlot.none s.trg.rx slot).shift then pushWord slot w valid intact s else s
    let s := setTrg (startRx slot) s
    if (Tab.get RxSlot.none s.trg.rx slot).shift then s else pushWord slot w valid intact s
  else pushWord slot w valid intact s

/-! ## Received frames (R382, R383) -/

def isSync : RingSym → Bool
  | .k281 => true
  | .k285 => true
  | _ => false

/-- The byte that a symbol stands for, 0 where it cannot be decoded. -/
def symByte : RingSym → Byte
  | .data b => b
  | _ => 0

def isData : RingSym → Bool
  | .data _ => true
  | _ => false

inductive FrameKind where
  | intact
  | marked
  | damaged
deriving DecidableEq, Repr

/-- Bytes `lo` to `lo + 3` of a frame as a word. -/
def frameWord (bs : Bytes) (lo : Nat) : Word := BitVec.ofNat 32 (field bs lo 4)

/-- How a frame was received, with `expect` the number after its predecessor's. -/
def frameKind (syms : List RingSym) (bs : Bytes) (expect : Nat) : FrameKind :=
  let good := Crypto.crc32 ((bs.drop 1).take 139)
  let crc := frameWord bs 140
  if (syms.drop 1).all isData && (bs.getD 1 0).toNat % 64 = expect && crc = good then .intact
  else if crc = ~~~good then .marked else .damaged

/-- The frame with its CRC recomputed: correct, or complemented. -/
def withCrc (bs : Bytes) (good : Bool) : Bytes :=
  let c := Crypto.crc32 ((bs.drop 1).take 139)
  splice bs 140 (toLE 4 (if good then c else ~~~c).toNat)

/-- The symbols of a frame. -/
def frameSyms (bs : Bytes) (f : Nat) : List RingSym :=
  (if f = 0 then RingSym.k281 else RingSym.k285) :: (bs.drop 1).map RingSym.data

/-- The node's message word (R380). -/
def ownMessage (r : Trg) : Word :=
  BitVec.ofNat 32 (pack [(r.nodeId.toNat, 0), (r.heart.toNat, 16), (ofBool r.keysHeld, 24), (ofBool r.lastDamageSeen, 25)])

/-! ## Superframes -/

/-- The map entry of a slot in a map word. -/
def mapEntry (w : Word) (odd : Bool) : MapEntry :=
  let h := bits32 w (if odd then 16 else 0) 16
  { waddr := BitVec.ofNat 5 h, en := bit h 5, enc := bit h 6, key := BitVec.ofNat 2 (h / 128) }

/-- The map that 16 map words carry. -/
def mapOf (w : Nat → Word) : Tab MapEntry :=
  (List.range 32).foldl (fun t i => Tab.set MapEntry.zero t i (mapEntry (w (i / 2)) (i % 2 = 1))) []

/-- What every node does at frame 0: keys take effect, the counter goes on, HEART rises. -/
def frameZero (r : Trg) : Trg :=
  let r := takeKeys r
  { r with
    counter := r.counter + 1
    heart := r.heart + 1
    lastDamageSeen := r.damageSeen
    damageSeen := false
    ctrBytes := [] }

/-- A tap latches its address and applies the map of the superframe before, or an empty one (R374, R387). -/
def tapFrameZero (hop : Nat) (r : Trg) : Trg :=
  let words := (List.range 16).map fun i => Tab.get none r.mapRx i
  let ok := r.lockedAll && r.hopSame && words.all (·.isSome)
  { frameZero r with
    addr := if h : hop + 1 < 32 then some ⟨hop + 1, h⟩ else none
    applied := if ok then mapOf fun i => (words.getD i none).getD 0 else []
    mapRx := []
    hop := some hop
    hopSame := true
    lockedAll := true }

/-- The counter that frames 0 to 5 carry has been read (R393). -/
def counterRead (s : State) : State :=
  let r := s.trg
  if r.ctrBytes.length = 6 ∧ r.ctrBytes.all (·.isSome) then
    let v := leNat (r.ctrBytes.map fun b => b.getD 0)
    let stale := match r.lastCounter with
      | some l => decide (v ≤ l)
      | none => false
    let s := if stale then discardKeys s else s
    setTrg (fun r => { r with
      counter := v
      lastCounter := some v
      rx := r.rx.map fun e => (e.1, { e.2 with counter := v }) }) s
  else s

/-! ## A tap's frame (R384, R387) -/

/-- A slot that the applied map gives to the node's address. -/
def ownsSlot (r : Trg) (slot : Nat) : Bool :=
  let e := Tab.get MapEntry.zero r.applied slot
  r.mode = 2 && e.en && match r.addr with
    | some a => a.val = e.waddr.toNat
    | none => false

/-- The node's word and VALID bit go into a frame that passes. -/
def putSlot (f : Nat) (acc : Bytes × Trg) (slot : Nat) : Bytes × Trg :=
  if !ownsSlot acc.2 slot then acc
  else
    let w := writeSlot (Tab.get MapEntry.zero acc.2.applied slot) slot f acc.2
    let v := field acc.1 132 4
    let v' := if bit v slot = w.2.1 then v else if w.2.1 then v + 2 ^ slot else v - 2 ^ slot
    (splice (splice acc.1 (4 + 4 * slot) (toLE 4 w.1.toNat)) 132 (toLE 4 v'), w.2.2)

/-- A locked tap takes frame `f` and forwards it. -/
def tapFrame (sync : RingSym) (bs : Bytes) (f : Nat) (k : FrameKind) (s : State) : State :=
  let hop := (bs.getD 2 0).toNat
  let ok := k = .intact
  let s := setTrg (fun r =>
    if f = 0 then tapFrameZero hop r
    else { r with hopSame := r.hopSame && r.hop = some hop, hop := some hop }) s
  let s := setTrg (fun r => { r with
    damageSeen := r.damageSeen || k = .damaged
    ctrBytes := if f < 6 then r.ctrBytes ++ [if ok then bs[3]? else none] else r.ctrBytes
    mapRx := if 32 ≤ f then Tab.set none r.mapRx (f - 32) (if ok then some (frameWord bs 136) else none) else r.mapRx }) s
  let s := if f = 5 then counterRead s else s
  let s := if s.trg.mode = 2 then
      (List.range 32).foldl (fun s i => readSlot f i (frameWord bs (4 + 4 * i)) (bit (field bs 132 4) i) ok s) s
    else s
  let out := (List.range 32).foldl (putSlot f) (splice bs 2 [BitVec.ofNat 8 (min 255 (hop + 1))], s.trg)
  let mine := s.trg.mode = 2 && match s.trg.addr with
    | some a => a.val = f
    | none => false
  let b := if mine then splice out.1 136 (toLE 4 (ownMessage out.2).toNat) else out.1
  setTrg (fun _ => { out.2 with sent := sync :: ((withCrc b ok).drop 1).map RingSym.data }) s

/-! ## The master's return (R385, R388, R389) -/

/-- The returned HOP: a new value in two consecutive frames is a topology change. -/
def masterHop (hop : Nat) (r : Trg) : Trg :=
  match r.hop with
  | none => { r with hop := some hop, nodes := BitVec.ofNat 8 (hop + 1) }
  | some h =>
    if hop = h then { r with hopPend := false }
    else if r.hopPend then { r with hop := some hop, hopPend := false, topoChange := true, nodes := BitVec.ofNat 8 (hop + 1) }
    else { r with hopPend := true }

def masterFrame (bs : Bytes) (f : Nat) (k : FrameKind) (lat : Nat) (s : State) : State :=
  let ok := k = .intact
  let s := setTrg (fun r =>
    let r := if k = .damaged then r else masterHop (bs.getD 2 0).toNat r
    { r with
      damageSeen := r.damageSeen || k = .damaged
      lat := BitVec.ofNat 8 (min 255 lat)
      long := decide (120 < lat)
      lastMsgs := if f = 0 then r.msgs else r.lastMsgs
      msgs := if f = 0 then [] else if f < 32 then
          Tab.set none r.msgs f (if k = .damaged then none else some (frameWord bs 136)) else r.msgs
      returned := (List.range 32).foldl (fun t i =>
        Tab.set (0, false) t i (frameWord bs (4 + 4 * i), bit (field bs 132 4) i)) []
      returnedF := some f }) s
  (List.range 32).foldl (fun s i => readSlot f i (frameWord bs (4 + 4 * i)) (bit (field bs 132 4) i) ok s) s

/-! ## RING_FRAME_RECEIVE and EXPECTED_SYNC_MISSED (R383) -/

/-- Loss of lock. -/
def loseLock (r : Trg) : Trg :=
  { r with
    lock := false
    lockLoss := satUp r.lockLoss 1
    missed := 0
    syncs := 0
    lockedAll := false
    ctrBytes := []
    rx := []
    rxPrev := []
    returnedF := none
    applied := if r.master then r.applied else []
    topoChange := r.topoChange || r.master
    sent := if r.master then r.sent else [] }

/-- A locked node takes a frame. -/
def takeFrame (syms : List RingSym) (lat : Nat) (s : State) : State :=
  let bs := syms.map symByte
  let expect := (s.trg.fnum + 1) % 48
  let k := frameKind syms bs expect
  let f := if k = .damaged then expect else (bs.getD 1 0).toNat % 64 % 48
  let s := setTrg (fun r => { r with
    fnum := f
    missed := 0
    damaged := if k = .damaged then satUp r.damaged 1 else r.damaged
    marked := if k = .marked then satUp r.marked 1 else r.marked }) s
  if s.trg.master then masterFrame bs f k lat s
  else tapFrame (syms.getD 0 .k285) bs f k s

/-- The sync symbol that stands where `fnum` does. -/
def syncFits (syms : List RingSym) : Bool :=
  match syms with
  | .k281 :: .data b :: _ => b.toNat = 0
  | .k285 :: .data b :: _ => b.toNat ≠ 0 && decide (b.toNat < 48)
  | _ => false

/-- An expected sync position without a sync symbol. -/
def missSync (r : Trg) : Trg := if 1 ≤ r.missed then loseLock r else { r with missed := 1 }

/-- A node that is not locked: two sync symbols 144 symbols apart give lock. -/
def acquire (syms : List RingSym) (lat : Nat) (s : State) : State :=
  let n := ((syms.getD 1 .violation) |> symByte).toNat
  if !syncFits syms then setTrg (fun r => { r with syncs := 0 }) s
  else if s.trg.syncs = 0 then setTrg (fun r => { r with syncs := 1, fnum := n }) s
  else takeFrame syms lat (setTrg (fun r => { r with lock := true, missed := 0, lockedAll := false, hopSame := false }) s)

def execRingFrameReceive (syms : List RingSym) (lat : Nat) (s : State) : Out :=
  whenRunning s (s.trg.mode ≠ 0 && syms.length = 144) fun s =>
    let bad := syms.countP fun x => x = .violation
    let s := setTrg (fun r => { r with code := satUp r.code bad }) s
    if !s.trg.lock then acquire syms lat s
    else if 8 ≤ bad then setTrg loseLock s
    else if isSync (syms.getD 0 .violation) then takeFrame syms lat s
    else
      let s := setTrg missSync s
      if s.trg.lock then
        let m := s.trg.missed
        setTrg (fun r => { r with missed := m }) (takeFrame syms lat s)
      else s

def execExpectedSyncMissed (s : State) : Out :=
  whenRunning s (s.trg.mode ≠ 0 && s.trg.lock) fun s => setTrg missSync s

/-! ## RING_FRAME_TRANSMIT (R385, R388, R389) -/

/-- The message word with this identity in a superframe's words. -/
def findId (t : Tab (Option Word)) (id : Nat) : Option Word :=
  (t.find? fun m => m.2.any fun w => bits32 w 0 16 = id).bind (·.2)

/-- The frames of the present superframe whose message word has this identity; for a damaged frame the word before counts. -/
def placesOf (r : Trg) (id : Nat) : List Nat :=
  if id = 0 ∨ id = 0xFFFF then []
  else (if id = r.nodeId.toNat then [0] else []) ++ ((List.range 32).filter fun f => f ≠ 0 &&
    ((Tab.get none r.msgs f).orElse fun _ => Tab.get none r.lastMsgs f).any fun w => bits32 w 0 16 = id)

/-- The identity's HEART did not change between the last two superframes. -/
def heartStuck (r : Trg) (id : Nat) : Bool :=
  match findId r.msgs id, findId r.lastMsgs id with
  | some a, some b => bits32 a 16 8 = bits32 b 16 8
  | _, _ => false

/-- The map entry of a slot as the master builds it, and whether its identity appeared twice. -/
def buildEntry (r : Trg) (slot : Nat) : Nat × Bool :=
  let c := Tab.get MapCfg.zero r.sampled slot
  let ps := placesOf r c.node.toNat
  let dup := decide (1 < ps.length)
  let en := c.en && ps ≠ [] && !dup && (c.node = r.nodeId || !heartStuck r c.node.toNat) && !r.topoChange
  (pack [(ps.headD 0, 0), (ofBool en, 5), (ofBool c.enc, 6), (c.key.toNat, 7)], dup)

/-- The master's map word of frame 32 + i. -/
def buildMap (i : Nat) (r : Trg) : Word × Trg :=
  let r := if i = 0 then { r with sampled := r.mapCfg, dup := false } else r
  let a := buildEntry r (2 * i)
  let b := buildEntry r (2 * i + 1)
  let w := BitVec.ofNat 32 (a.1 + b.1 * 65536)
  (w, { r with dup := r.dup || a.2 || b.2, mapTx := Tab.set 0 r.mapTx i w })

/-- The master's frame 0: it applies the map it has sent, or an empty one after a topology change. -/
def masterFrameZero (first : Bool) (r : Trg) : Trg :=
  let c := r.counter
  let r := frameZero r
  { r with
    counter := if first then 0 else c + 1
    applied := if r.topoChange || first then [] else mapOf fun i => Tab.get 0 r.mapTx i
    mapTx := []
    topoChange := false }

/-- The word and VALID bit that the master sends in a slot. -/
def masterSlot (f : Nat) (acc : Bytes × Nat × Trg) (slot : Nat) : Bytes × Nat × Trg :=
  let r := acc.2.2
  let e := Tab.get MapEntry.zero r.applied slot
  let w : Word × Bool × Trg :=
    if !e.en then (0, false, r)
    else if e.waddr = 0 then writeSlot e slot f r
    else if !r.long && r.returnedF = some ((f + 47) % 48) then
      let x := Tab.get (0, false) r.returned slot
      (x.1, x.2, r)
    else (0, false, r)
  (acc.1 ++ toLE 4 w.1.toNat, acc.2.1 + ofBool w.2.1 * 2 ^ slot, w.2.2)

/-- Whether the master's next frame is the first of the epoch. -/
def epochStart (r : Trg) : Bool := r.sent.isEmpty

def emitFrame (r : Trg) : Trg :=
  let f := r.txFrame
  let r := if f = 0 then masterFrameZero (epochStart r) r else r
  let head : Bytes := [0, BitVec.ofNat 8 f, 0, if f < 6 then BitVec.ofNat 8 (r.counter / 256 ^ f) else 0]
  let body := (List.range 32).foldl (masterSlot f) ([], 0, r)
  let r := body.2.2
  let msg : Word × Trg := if f = 0 then (ownMessage r, r) else if f < 32 then (0, r) else buildMap (f - 32) r
  let bs := withCrc (head ++ body.1 ++ toLE 4 body.2.1 ++ toLE 4 msg.1.toNat ++ zeros 4) true
  { msg.2 with txFrame := (f + 1) % 48, sent := frameSyms bs f }

def execRingFrameTransmit (s : State) : Out :=
  whenRunning s (s.trg.mode = 2 && s.trg.master) (setTrg emitFrame)

/-! ## TRG_CFG (R394, R395, R399) -/

/-- What a change of mode leaves of the node. -/
def enterMode (m : Nat) (r : Trg) : Trg :=
  if m = 0 then { r with
      mode := 0
      master := false
      lock := false
      addr := none
      applied := []
      syncs := 0
      missed := 0
      lockedAll := false
      rx := []
      rxPrev := []
      txSeal := []
      sent := [] }
  else if m = 1 then { r with
      mode := 1
      master := false
      applied := []
      lockedAll := false
      rx := []
      rxPrev := []
      txSeal := []
      sent := if r.master then [] else r.sent }
  else { r with
      mode := 2
      master := r.role
      applied := []
      lockedAll := false
      rx := []
      rxPrev := []
      txSeal := []
      txFrame := 0
      counter := if r.role then 0 else r.counter
      hop := none
      hopPend := false
      topoChange := false
      msgs := []
      lastMsgs := []
      mapTx := []
      returnedF := none
      sent := if r.role then [] else r.sent }

/-- A write of TRG_CFG. -/
def trgWrite (v : Word) (s : State) : State :=
  let m := if bits32 v 0 2 = 3 then 1 else bits32 v 0 2
  let old := s.trg.mode.toNat
  let s := setTrg (fun r => { r with role := bit32 v 2, nodeId := BitVec.ofNat 16 (bits32 v 16 16) }) s
  let s := if m = old then s else setTrg (enterMode m) s
  let s := if m = 2 && old ≠ 2 && s.trg.master then discardKeys s else s
  { s with pins := { s.pins with ringBypOpen := decide (m ≠ 0) } }

def execTrgModeWrite (fn : Fn) (v : Word) (s : State) : Out := regWrite s (pf0Open s fn) (trgWrite v)

/-! ## RING_WRITE (R386) -/

def execRingWrite (sub : Sub) (slot : Fin 32) (words : List Word) (s : State) : Out :=
  pf0Command 0x29 sub (fun s =>
    let b := Tab.get [] s.trg.txBuf slot.val
    if words.isEmpty || decide (960 < words.length) then endWith sub St.badCommand s
    else if 960 < b.length + words.length then endWith sub St.streamFull s
    else endWith sub St.ok (setTrg (fun r => { r with txBuf := Tab.set [] r.txBuf slot.val (b ++ words) }) s)) s

end Sys2Proof.Machine
end

