-- ==== Sys2Proof/Machine/Security.lean ====
section
/-! DEFINITION. Trust, isolation and attestation (chapter 15): the SPDM responder, link protection, TDISP, confidential mode, key
slots, ring keys and the debug port. -/

namespace Sys2Proof.Machine

open Sys2Proof Numeric

/-! ## Messages

The spec names the standards; where a message's bytes follow DSP0274, IDE_KM or TDISP, the layout is PRESUMED
(notes/assumptions/105.md). -/

def State.responder (s : State) (f : Nat) : Spdm := Tab.get Spdm.init s.sec.spdm f

def setResponder (f : Nat) (g : Spdm → Spdm) (s : State) : State :=
  { s with sec := { s.sec with spdm := Tab.upd Spdm.init s.sec.spdm f g } }

/-- The mailbox answers. -/
def answerDoe (f : Nat) (bs : Bytes) (s : State) : State := setResponder f (fun r => { r with response := bs }) s

def spdmMsg (code p1 p2 : Nat) (rest : Bytes) : Bytes :=
  [0x12, BitVec.ofNat 8 code, BitVec.ofNat 8 p1, BitVec.ofNat 8 p2] ++ rest

def spdmError (f code : Nat) (data : Bytes) (s : State) : State := answerDoe f (spdmMsg 0x7F code 0 data) s

def errInvalidRequest : Nat := 0x01
def errInvalidSession : Nat := 0x02
def errUnexpected : Nat := 0x04
def errDecrypt : Nat := 0x06
def errSessionLimit : Nat := 0x0A
def errNotReady : Nat := 0x42

/-- The mailbox of a function takes requests: the part runs and no Function Level Reset of the function does (R405). -/
def doeCommand (f : Nat) (s : State) (g : State → State) : Out := whenRunning s (!(s.func f).flr) g

/-! ## Transitions (R436) -/

/-- A domain reset is in its reclaim phase. -/
def reclaiming (s : State) : Bool := s.boot.held.any fun h => h.reclaim.isSome

/-- An activation is under way. -/
def activating (s : State) : Bool := s.boot.fwOp = 2

def inTransition (s : State) : Bool := reclaiming s || activating s

/-- ERROR ResponseNotReady: RDTExponent, the request code, a token, RDTM 8. -/
def notReady (f : Nat) (code token : Byte) (s : State) : State :=
  spdmError f errNotReady [if activating s then 17 else 10, code, token, 8] s

/-! ## Keys, certificates and measurements (R428 to R435) -/

/-- H_set and SVN of the running set. -/
def hSet (s : State) : Bytes := Crypto.sha256 (slotManifest s s.boot.slotB)

def chain (s : State) (slot : Nat) : Bytes := Config.certificate slot (hSet s) s.boot.svnRunning.toNat

/-- The hash of image `i` of the running set. -/
def imageHash (s : State) (i : Nat) : Bytes := (imageEntry (slotManifest s s.boot.slotB) i).hash

def fenceUnits (s : State) : Nat :=
  pack [(s.fences.pairs.toNat, 0), (s.fences.csi.toNat, 16), (s.fences.pci.toNat, 20), (s.fences.brC0.toNat, 24),
    (s.fences.brC1.toNat, 32), (s.fences.brX.toNat, 40), (s.fences.half.toNat, 62)]

def tdiCode : Tdi → Nat
  | .unlocked => 0
  | .locked => 1
  | .run => 2
  | .error => 3

/-- The entry of a tenant in measurement index 11. -/
def tenantEntry (s : State) (t : Nat) : Bytes :=
  let x := s.tenant t
  [BitVec.ofNat 8 t,
   BitVec.ofNat 8 (pack [(ofBool (isConf s t), 0), (ofBool (s.gdl.share.getLsbD (t - 1)), 1), (ofBool (s.gdl.snowEn.getLsbD (t - 1)), 2),
     (ofBool (x.lend || x.borrow), 3)]),
   BitVec.ofNat 8 (tdiCode (s.tsec t).tdi), BitVec.ofNat 8 x.group.toNat]

/-- The domains in reset, ascending. -/
def domainsInReset (s : State) : List Nat := (List.range 128).filter fun d => (s.dom d).reset

/-- The identifier of ring key `n`: zero where no key is installed. -/
def ringKeyId (s : State) (n : Nat) : Bytes :=
  match Tab.get none s.sec.ringKeys n with
  | some k => (Crypto.sha256 ("VSK7200-RKID".toList.map (fun c => BitVec.ofNat 8 c.toNat) ++ toLE 16 k.toNat)).take 8
  | none => zeros 8

/-- Type and content of a measurement block as function `f` sees it. -/
def measurement (s : State) (f index : Nat) : Nat × Bytes :=
  match index with
  | 1 => (0x00, Config.measurement 1)
  | 2 => (0x82, [BitVec.ofNat 8 s.fuses.stepping.toNat, BitVec.ofNat 8 s.fuses.variant.toNat] ++ toLE 8 s.fuses.cores.toNat ++
      toLE 8 s.fences.cores.toNat ++ toLE 8 (fenceUnits s))
  | 3 => (0x01, imageHash s 0)
  | 4 => (0x01, imageHash s 1)
  | 5 => (0x01, imageHash s 2)
  | 6 => (0x04, hSet s)
  | 7 => (0x87, toBE 4 s.boot.svnRunning.toNat)
  | 8 => (0x03, Config.measurement 8)
  | 9 => (0x03, Crypto.sha256 s.boot.calBytes)
  | 10 => (0x85, [BitVec.ofNat 8 (ofBool s.sec.dbgOpened)])
  | 11 => (0x83, if f = 0 then (List.range 15).flatMap fun i => tenantEntry s (i + 1) else tenantEntry s f)
  | 12 =>
    let ds := domainsInReset s
    (0x83, [BitVec.ofNat 8 (pack [(ofBool (!ds.isEmpty), 0), (ofBool (activating s), 1)]), BitVec.ofNat 8 ds.length] ++
      ds.map (BitVec.ofNat 8))
  | _ => (0x83, (List.range 4).flatMap (ringKeyId s))

def measurementBlock (s : State) (f index : Nat) : Bytes :=
  let m := measurement s f index
  [BitVec.ofNat 8 index, 1] ++ toLE 2 (m.2.length + 3) ++ [BitVec.ofNat 8 m.1] ++ toLE 2 m.2.length ++ m.2

/-- The blocks that a request for an index returns, all from the present state; none for an index that names nothing. -/
def measurementRecord (s : State) (f index : Nat) : Option (List Bytes) :=
  if index = 0 then some []
  else if index = 0xFF then some ((List.range 13).map fun i => measurementBlock s f (i + 1))
  else if index ≤ 13 then some [measurementBlock s f index]
  else none

/-! ## Requests without a signature (R402, R434) -/

/-- DOE discovery: the mailbox's protocols in order. In nursery mode there is only discovery (R494). -/
def doeProtocols (s : State) : Nat := if s.boot.nursery then 1 else 3

def execDoeDiscovery (fn : Fn) (index : Byte) (s : State) : Out :=
  whenever s ((s.running && !(s.func fn).flr) || (s.boot.nursery && !s.boot.fatal && fn = 0)) fun s =>
    let i := index.toNat
    let n := doeProtocols s
    answerDoe fn (if i < n then toLE 2 1 ++ [BitVec.ofNat 8 i, BitVec.ofNat 8 ((i + 1) % n)] else toLE 2 0xFFFF ++ [0, 0]) s

/-- GET_VERSION offers version 1.2 only, and the connection begins again. -/
def execGetVersion (fn : Fn) (s : State) : Out :=
  doeCommand fn s fun s =>
    answerDoe fn ([0x10, 0x04, 0, 0, 0, 1] ++ toLE 2 0x1200) (setResponder fn (fun r => { r with conn := .version }) s)

/-- CERT, CHAL, MEAS with signature, MEAS_FRESH, ENCRYPT, MAC, KEY_EX, HBEAT, KEY_UPD. -/
def capabilityFlags : Nat := pack [(1, 1), (1, 2), (2, 3), (1, 5), (1, 6), (1, 7), (1, 9), (1, 13), (1, 14)]

def execGetCapabilities (fn : Fn) (_flags : Word) (s : State) : Out :=
  doeCommand fn s fun s =>
    if (s.responder fn).conn ≠ .version then spdmError fn errUnexpected [] s
    else answerDoe fn (spdmMsg 0x61 0 0 (zeros 4 ++ toLE 4 capabilityFlags)) (setResponder fn (fun r => { r with conn := .capabilities }) s)

/-- The algorithms are fixed when the requester offers each that the part supports: ECDSA P-256, SHA-256, secp256r1,
AES-256-GCM, the SPDM key schedule. -/
def execNegotiateAlgorithms (fn : Fn) (offersAll : Bool) (s : State) : Out :=
  doeCommand fn s fun s =>
    if (s.responder fn).conn ≠ .capabilities then spdmError fn errUnexpected [] s
    else if !offersAll then spdmError fn errInvalidRequest [] s
    else answerDoe fn (spdmMsg 0x63 3 0 (toLE 4 2 ++ toLE 4 0x10 ++ toLE 4 1 ++ toLE 2 8 ++ toLE 2 2 ++ toLE 2 1))
      (setResponder fn (fun r => { r with conn := .algorithms }) s)

/-- A request that needs a negotiated connection. -/
def connected (f : Nat) (g : State → State) (s : State) : State :=
  if (s.responder f).conn = .algorithms then g s else spdmError f errUnexpected [] s

def execGetDigests (fn : Fn) (s : State) : Out :=
  doeCommand fn s (connected fn fun s =>
    answerDoe fn (spdmMsg 0x01 0 3 (Crypto.sha256 (chain s 0) ++ Crypto.sha256 (chain s 1))) s)

/-- A part of a certificate chain from slot 0 or 1. -/
def execGetCertificate (fn : Fn) (slot : Byte) (off : BitVec 16) (len : BitVec 16) (s : State) : Out :=
  doeCommand fn s (connected fn fun s =>
    let c := chain s slot.toNat
    if 1 < slot.toNat ∨ c.length < off.toNat then spdmError fn errInvalidRequest [] s
    else
      let n := min len.toNat (c.length - off.toNat)
      answerDoe fn (spdmMsg 0x02 slot.toNat 0 (toLE 2 n ++ toLE 2 (c.length - off.toNat - n) ++ (c.drop off.toNat).take n)) s)

/-! ## TDISP (R439 to R442) -/

/-- An established session on PF0's mailbox. -/
def securedSession (s : State) (id : Word) : Bool := (s.responder 0).sessions.any fun x => x.id = id && x.established

/-- A vendor-defined response that carries a protocol of PCI-SIG. -/
def vendorAnswer (protocol : Nat) (bs : Bytes) (s : State) : State :=
  answerDoe 0 (spdmMsg 0x7E 0 0 (toLE 2 3 ++ [2] ++ toLE 2 1 ++ toLE 2 (bs.length + 1) ++ [BitVec.ofNat 8 protocol] ++ bs)) s

def tdispMsg (code t : Nat) (rest : Bytes) : Bytes := [0x10, BitVec.ofNat 8 code, 0, 0] ++ toLE 4 t ++ zeros 8 ++ rest

def tdispAnswer (code t : Nat) (rest : Bytes) (s : State) : State := vendorAnswer 1 (tdispMsg code t rest) s

def tdispError (t code : Nat) (s : State) : State := tdispAnswer 0x7F t (toLE 4 code ++ toLE 4 0) s

def tdispInvalidState : Nat := 0x0004
def tdispInvalidInterface : Nat := 0x0101
def tdispInvalidNonce : Nat := 0x0102
def tdispInvalidConfig : Nat := 0x0104

def State.stream (s : State) (i : Nat) : IdeStream := Tab.get IdeStream.insecure s.sec.ide i

/-- A TDI enters ERROR: the tenant scrub runs, and it stays there until STOP_INTERFACE_REQUEST (R442). -/
def tdiFails (t : Nat) (s : State) : State := setTsec (tenantScrub t s) t fun x => { x with tdi := .error }

/-- Every TDI that is CONFIG_LOCKED or RUN and satisfies `p` enters ERROR. -/
def tdisFail (p : TenantSec → Bool) (s : State) : State :=
  (List.range 15).foldl (fun s i => if tdiLocked s (i + 1) && p (s.tsec (i + 1)) then tdiFails (i + 1) s else s) s

/-- The request to lock: a TDISP error, or none. -/
def lockRefused (s : State) (t stream : Nat) : Option Nat :=
  if (s.tsec t).tdi ≠ .unlocked then some tdispInvalidState
  else if stream = 0 ∨ 8 < stream ∨ !(s.stream stream).secure then some tdispInvalidConfig
  else if !isConf s t ∨ s.sec.dbgOpened then some tdispInvalidConfig
  else none

/-- The ranges of the interface report: BAR0, BAR2 and BAR4 in 4 KiB pages, BAR4 marked as taking requests without the TEE
bit (R440). -/
def interfaceReport : Bytes :=
  let range := fun (bar pages attr : Nat) => toLE 8 0 ++ toLE 4 pages ++ toLE 4 (attr + 2 ^ 16 * bar)
  toLE 2 0 ++ toLE 2 0 ++ toLE 4 0 ++ toLE 4 3 ++ range 0 8192 0 ++ range 2 128 0 ++ range 4 16384 4

def lockTdi (t stream : Nat) (s : State) : State :=
  let nonce := s.fbytes 0 32
  let s := setTsec s t fun x => { x with tdi := .locked, stream := stream, nonce := nonce }
  (tdispAnswer 0x03 t nonce s).spend

def stopTdi (t : Nat) (s : State) : State :=
  let s := if (s.tsec t).tdi = .unlocked then s else tenantScrub t s
  tdispAnswer 0x07 t [] (setTsec s t fun x => { x with tdi := .unlocked, stream := 0, nonce := [] })

/-- A TDISP request is carried out. VF t is TDI t. -/
def runTdisp (req : TdispReq) (s : State) : State :=
  let known := fun (t : Nat) (g : State → State) => if t = 0 ∨ 15 < t then tdispError t tdispInvalidInterface s else g s
  match req with
  | .version => tdispAnswer 0x01 0 [1, 0x10] s
  | .capabilities => tdispAnswer 0x02 0 (toLE 4 0 ++ (List.range 16).map (fun i => if i = 0 then 0xFE else 0) ++ zeros 3 ++ [0, 0, 48, 0, 0]) s
  | .lock t stream => known t fun s =>
      match lockRefused s t stream with
      | some e => tdispError t e s
      | none => lockTdi t stream s
  | .report t => known t fun s =>
      if tdiLocked s t then tdispAnswer 0x04 t (toLE 2 interfaceReport.length ++ toLE 2 0 ++ interfaceReport) s
      else tdispError t tdispInvalidState s
  | .state t => known t fun s => tdispAnswer 0x05 t [BitVec.ofNat 8 (tdiCode (s.tsec t).tdi)] s
  | .start t nonce => known t fun s =>
      if (s.tsec t).tdi ≠ .locked then tdispError t tdispInvalidState s
      else if nonce ≠ (s.tsec t).nonce then tdispError t tdispInvalidNonce s
      else tdispAnswer 0x06 t [] (setTsec s t fun x => { x with tdi := .run })
  | .stop t => known t fun s => stopTdi t s

/-! ## Requests that wait during a transition (R430, R434 to R436) -/

/-- CHALLENGE on slot 0, signed with the Alias key. -/
def runChallenge (f slot : Nat) (nonce : Bytes) (s : State) : State :=
  if slot ≠ 0 then spdmError f errInvalidRequest [] s
  else
    let body := spdmMsg 0x03 0 1 (Crypto.sha256 (chain s 0) ++ s.fbytes 0 32 ++ zeros 2)
    (answerDoe f (body ++ Config.signature (nonce ++ body)) s).spend

def runMeasurements (f index : Nat) (signed : Bool) (nonce : Bytes) (s : State) : State :=
  match measurementRecord s f index with
  | none => spdmError f errInvalidRequest [] s
  | some bs =>
    let count := if index = 0 then 13 else 0
    let body := spdmMsg 0x60 count 0 ([BitVec.ofNat 8 bs.length] ++ toLE 3 bs.flatten.length ++ bs.flatten ++ s.fbytes 0 32 ++ zeros 2)
    (answerDoe f (body ++ if signed then Config.signature (nonce ++ body) else []) s).spend

/-- KEY_EXCHANGE opens a session, of which a function has at most two. -/
def runKeyExchange (f slot reqSession : Nat) (exchange : Bytes) (s : State) : State :=
  if slot ≠ 0 then spdmError f errInvalidRequest [] s
  else if 2 ≤ (s.responder f).sessions.length then spdmError f errSessionLimit [] s
  else
    let n := (s.responder f).nextSession % 2 ^ 16
    let id := BitVec.ofNat 32 (reqSession + 2 ^ 16 * n)
    let body := spdmMsg 0x64 60 0 (toLE 2 n ++ [0, 0] ++ s.fbytes 0 96 ++ zeros 2)
    let s := setResponder f (fun r => { r with
      nextSession := r.nextSession + 1
      sessions := r.sessions ++ [{ id := id, established := false, since := s.ns, heartbeat := true, reqKeys := 0, rspKeys := 0 }] }) s
    (answerDoe f (body ++ Config.signature (exchange ++ body) ++ s.fbytes 96 32) s).spend

/-- Such a request is carried out. -/
def runSigned (f : Nat) (req : SignedReq) (s : State) : State :=
  match req with
  | .challenge slot nonce => connected f (runChallenge f slot nonce) s
  | .measurements i signed nonce => connected f (runMeasurements f i signed nonce) s
  | .keyExchange slot q x => connected f (runKeyExchange f slot q x) s
  | .tdisp session q => if securedSession s session then runTdisp q s else spdmError 0 errInvalidSession [] s

/-- It is carried out, or told to wait. -/
def signedRequest (f : Nat) (code : Byte) (req : SignedReq) (s : State) : State :=
  if inTransition s then
    let token := (s.responder f).token + 1
    notReady f code token (setResponder f (fun r => { r with token := token, deferred := some (code, token, req) }) s)
  else runSigned f req s

def execChallenge (fn : Fn) (slot : Byte) (nonce : Bytes) (s : State) : Out :=
  doeCommand fn s (signedRequest fn 0x83 (.challenge slot.toNat nonce))

def execGetMeasurements (fn : Fn) (index : Byte) (signed : Bool) (nonce : Bytes) (s : State) : Out :=
  doeCommand fn s (signedRequest fn 0xE0 (.measurements index.toNat signed nonce))

def execKeyExchange (fn : Fn) (slot : Byte) (reqSession : BitVec 16) (exchange : Bytes) (s : State) : Out :=
  doeCommand fn s (signedRequest fn 0xE4 (.keyExchange slot.toNat reqSession.toNat exchange))

def execRespondIfReady (fn : Fn) (code : Byte) (token : Byte) (s : State) : Out :=
  doeCommand fn s fun s =>
    match (s.responder fn).deferred with
    | some (c, t, req) =>
      if c = code ∧ t = token then
        if inTransition s then notReady fn code token s
        else runSigned fn req (setResponder fn (fun r => { r with deferred := none }) s)
      else spdmError fn errInvalidRequest [] s
    | none => spdmError fn errInvalidRequest [] s

/-! ## Sessions (R434) -/

def updSession (f : Nat) (id : Word) (g : Session → Session) (s : State) : State :=
  setResponder f (fun r => { r with sessions := r.sessions.map fun x => if x.id = id then g x else x }) s

def dropSession (f : Nat) (id : Word) (s : State) : State :=
  setResponder f (fun r => { r with sessions := r.sessions.filter fun x => x.id ≠ id }) s

def hasSession (s : State) (f : Nat) (id : Word) (established : Bool) : Bool :=
  (s.responder f).sessions.any fun x => x.id = id && x.established = established

def execFinish (fn : Fn) (session : Word) (hmacOk : Bool) (s : State) : Out :=
  doeCommand fn s fun s =>
    if !hasSession s fn session false then spdmError fn errInvalidSession [] s
    else if !hmacOk then spdmError fn errDecrypt [] (dropSession fn session s)
    else answerDoe fn (spdmMsg 0x65 0 0 []) (updSession fn session (fun x => { x with established := true, since := s.ns }) s)

/-- A request within an established session. -/
def inSession (f : Nat) (id : Word) (g : State → State) (s : State) : State :=
  if hasSession s f id true then g s else spdmError f errInvalidSession [] s

def execHeartbeat (fn : Fn) (session : Word) (s : State) : Out :=
  doeCommand fn s (inSession fn session fun s =>
    answerDoe fn (spdmMsg 0x68 0 0 []) (updSession fn session (fun x => { x with since := s.ns }) s))

/-- KEY_UPDATE: operation 1 the requester's key, 2 both, 3 a check of the new key. -/
def execKeyUpdate (fn : Fn) (session : Word) (op : Byte) (s : State) : Out :=
  doeCommand fn s (inSession fn session fun s =>
    let ack := answerDoe fn (spdmMsg 0x69 op.toNat 0 [])
    match op.toNat with
    | 1 => ack (updSession fn session (fun x => { x with reqKeys := x.reqKeys + 1 }) s)
    | 2 => ack (updSession fn session (fun x => { x with reqKeys := x.reqKeys + 1, rspKeys := x.rspKeys + 1 }) s)
    | 3 => ack s
    | _ => spdmError fn errInvalidRequest [] s)

def execEndSession (fn : Fn) (session : Word) (s : State) : Out :=
  doeCommand fn s (inSession fn session fun s => answerDoe fn (spdmMsg 0x6C 0 0 []) (dropSession fn session s))

/-! ## Link protection (R438) -/

def setStream (i : Nat) (f : IdeStream → IdeStream) (s : State) : State :=
  { s with sec := { s.sec with ide := Tab.upd IdeStream.insecure s.sec.ide i f } }

def IdeStream.sub (x : IdeStream) (i : Nat) : SubStream := Tab.get SubStream.none x.subs i

def IdeStream.setSub (x : IdeStream) (i : Nat) (f : SubStream → SubStream) : IdeStream :=
  { x with subs := Tab.upd SubStream.none x.subs i f }

/-- An IDE_KM request, within a secured session on PF0's mailbox. -/
def ideCommand (session : Word) (s : State) (g : State → State) : Out :=
  doeCommand 0 s fun s => if securedSession s session then g s else spdmError 0 errInvalidSession [] s

def execIdeKmQuery (session : Word) (port : Byte) (s : State) : Out :=
  ideCommand session s fun s =>
    let status := fun i => BitVec.ofNat 8 (pack [(ofBool (s.stream i).secure, 0), (ofBool (s.stream i).failed, 1)])
    vendorAnswer 0 ([0x01, 0, port] ++ zeros 4 ++ (List.range 9).map status) s

def kmAck (code status : Nat) (stream : Nat) (info : Nat) (s : State) : State :=
  vendorAnswer 0 ([BitVec.ofNat 8 code, 0, 0, BitVec.ofNat 8 stream, BitVec.ofNat 8 status, BitVec.ofNat 8 info, 0]) s

/-- Key set, direction and sub-stream as one byte. -/
def keyInfo (keySet sub : Nat) : Nat := keySet + 16 * sub

/-- A key enters a key set of a sub-stream: 32 bytes. -/
def execKeyProg (session : Word) (stream : Fin 9) (keySet : Fin 2) (sub : Fin 3) (key : Bytes) (s : State) : Out :=
  ideCommand session s fun s =>
    if key.length ≠ 32 then kmAck 0x03 1 stream (keyInfo keySet sub) s
    else kmAck 0x03 0 stream (keyInfo keySet sub)
      (setStream stream (fun x => x.setSub sub fun y => { y with keys := Tab.set none y.keys keySet (some key) }) s)

/-- A stream is secure once every sub-stream has a key set in use. -/
def settleStream (x : IdeStream) : IdeStream :=
  if [0, 1, 2].all fun i => (x.sub i).active.isSome then { x with secure := true, failed := false } else x

/-- The sub-stream switches to a key set that holds a key. -/
def execKSetGo (session : Word) (stream : Fin 9) (keySet : Fin 2) (sub : Fin 3) (s : State) : Out :=
  ideCommand session s fun s =>
    if (Tab.get none ((s.stream stream).sub sub).keys keySet).isNone then kmAck 0x06 1 stream (keyInfo keySet sub) s
    else kmAck 0x06 0 stream (keyInfo keySet sub)
      (setStream stream (fun x => settleStream (x.setSub sub fun y => { y with active := some keySet.val })) s)

/-- A stream that is not secure any more: its TDIs enter ERROR. -/
def loseStream (stream : Nat) (s : State) : State := tdisFail (fun x => x.stream = stream) s

/-- A key set is stopped; a stream whose set in use stops is not secure. -/
def execKSetStop (session : Word) (stream : Fin 9) (keySet : Fin 2) (sub : Fin 3) (s : State) : Out :=
  ideCommand session s fun s =>
    let used := ((s.stream stream).sub sub).active = some keySet.val
    let was := (s.stream stream).secure
    let s := setStream stream (fun x =>
      let x := x.setSub sub fun y => { y with
        keys := Tab.set none y.keys keySet none
        active := if used then none else y.active }
      if used then { x with secure := false } else x) s
    let s := if used && was then loseStream stream s else s
    kmAck 0x06 0 stream (keyInfo keySet sub) s

/-- An integrity failure makes the stream insecure. -/
def execIdeIntegrityFail (stream : Fin 9) (s : State) : Out :=
  whenRunning s (s.stream stream).secure fun s =>
    loseStream stream (setStream stream (fun x => { x with secure := false, failed := true }) s)

/-! ## TDISP requests -/

def tdispRequest (session : Word) (req : TdispReq) (s : State) : Out := doeCommand 0 s (signedRequest 0 0xFE (.tdisp session req))

def execGetTdispVersion (session : Word) (s : State) : Out := tdispRequest session .version s
def execGetTdispCapabilities (session : Word) (s : State) : Out := tdispRequest session .capabilities s
def execLockInterfaceRequest (session : Word) (tdi : Fn) (stream : Byte) (s : State) : Out := tdispRequest session (.lock tdi stream.toNat) s
def execGetDeviceInterfaceReport (session : Word) (tdi : Fn) (s : State) : Out := tdispRequest session (.report tdi) s
def execGetDeviceInterfaceState (session : Word) (tdi : Fn) (s : State) : Out := tdispRequest session (.state tdi) s
def execStartInterfaceRequest (session : Word) (tdi : Fn) (nonce : Bytes) (s : State) : Out := tdispRequest session (.start tdi nonce) s
def execStopInterfaceRequest (session : Word) (tdi : Fn) (s : State) : Out := tdispRequest session (.stop tdi) s

/-! ## Confidential mode (R443, R256, R333, R450) -/

/-- The tenant holds nothing (R443). -/
def holdsNothing (s : State) (t : Nat) : Bool :=
  ((s.func t).queues.all fun q => q.2.state = .none) &&
  ((tenantCtxs s t).all fun c => (s.ctx c).life = .closed) &&
  !(s.lfl.requests.any fun r => r.2.tenant = t) &&
  ((List.range 64).all fun c => (residentOf (s.core c) t).isEmpty) &&
  !(s.lfl.blocks.any fun b => b.2.tenant = t && b.2.refs ≠ 0) &&
  !(s.sec.kslots.any fun k => k.2.live && k.2.owner.toNat = t) &&
  !(s.gdl.regions.any fun e => e.2.size ≠ 0 && e.2.owner.toNat = t)

/-- The RESERVED account of a tenant on a port: a slot where R256 gives one and one is left, else the whole bandwidth's rate. -/
def confAccount (t p : Nat) (s : State) : State :=
  let wants := p = 2 || p = 4 || (decide (p < 2) && (halfCores s p).any fun c => (s.tenant t).cores.getLsbD c)
  let slots := if wants && decide (otherSlots s p t < 16) then 1 else 0
  installAcct p t { s.acct p t with rate := 364, mode := 2, slots := slots } s

def tenSelWrite (v : Word) (s : State) : State :=
  let t := bits32 v 0 4
  let s := { s with sec := { s.sec with tenSel := BitVec.ofNat 4 t } }
  if !bit32 v 4 then { s with sec := { s.sec with tenConf := t ≠ 0 && isConf s t } }
  else if t = 0 || !holdsNothing s t || (tdiLocked s t && s.sec.tenConf != isConf s t) then
    { s with sec := { s.sec with tenErr := true } }
  else
    let s := { s with sec := { s.sec with tenErr := false } }
    let s := setTsec s t fun x => { x with conf := s.sec.tenConf }
    let s := if s.sec.tenConf then (List.range 6).foldl (fun s p => confAccount t p s) s else s
    drawTenantKey t s

def execTenantConfApply (fn : Fn) (v : Word) (s : State) : Out := regWrite s (pf0Open s fn) (tenSelWrite v)

/-! ## Memory key slots (R432, R433, R450) -/

def slotNamed (s : State) (k : Nat) : Bool :=
  (s.gdl.regions.any fun e => e.2.size ≠ 0 && e.2.key.toNat = k) || s.lfl.descKey.toNat = k

def setKeySlot (k : Nat) (f : KeySlot → KeySlot) (s : State) : State :=
  { s with sec := { s.sec with kslots := Tab.upd KeySlot.dead s.sec.kslots k f } }

/-- A write of SEC_KSLOT_SEL. -/
def kslotWrite (v : Word) (s : State) : State :=
  let k := bits32 v 0 7
  let owner := bits32 v 12 4
  let s := { s with sec := { s.sec with kslot := BitVec.ofNat 7 k, kowner := BitVec.ofNat 4 owner } }
  let x := keySlot s k
  let done := fun bad (f : KeySlot → KeySlot) =>
    if bad then { s with sec := { s.sec with kErr := true } }
    else setKeySlot k f { s with sec := { s.sec with kErr := false } }
  match bits32 v 8 2 with
  | 1 => done (x.live || slotNamed s k || tdiLocked s owner) fun y => { live := true, owner := BitVec.ofNat 4 owner, epoch := y.epoch + 1 }
  | 2 => done (k = 0 || slotNamed s k || tdiLocked s x.owner.toNat) fun y => { y with live := false, owner := 0 }
  | _ => s

def execKeySlotGenerate (fn : Fn) (v : Word) (s : State) : Out := regWrite s (pf0Open s fn && bits32 v 8 2 = 1) (kslotWrite v)
def execKeySlotDestroy (fn : Fn) (v : Word) (s : State) : Out := regWrite s (pf0Open s fn && bits32 v 8 2 = 2) (kslotWrite v)

/-! ## Ring keys (R448, R452) -/

def rkeyOpen (s : State) (f : Nat) : Bool := pf0Open s f && !s.sec.rkeyBusy

/-- A write of SEC_RKEY_CMD: install starts the unwrap, remove clears TRG_KEYn and forgets the key. -/
def rkeyWrite (v : Word) (s : State) : State :=
  let n := bits32 v 0 2
  let s := { s with sec := { s.sec with rkeyKey := BitVec.ofNat 2 n } }
  match bits32 v 2 2 with
  | 1 => { s with sec := { s.sec with rkeyBusy := true, rkeyWork := s.sec.rkeyBuf } }
  | 2 => setTrg (removeKey n) { s with sec := { s.sec with ringKeys := Tab.set none s.sec.ringKeys n none } }
  | _ => s

def execRingKeyInstall (fn : Fn) (v : Word) (s : State) : Out := regWrite s (rkeyOpen s fn && bits32 v 2 2 = 1) (rkeyWrite v)
def execRingKeyRemove (fn : Fn) (v : Word) (s : State) : Out := regWrite s (rkeyOpen s fn && bits32 v 2 2 = 2) (rkeyWrite v)

/-- The wrapped key that SEC_RKEY_BUF held when the install began. -/
def rkeyBlob (s : State) : Bytes := (List.range 16).flatMap fun w => toLE 8 (Tab.get 0 s.sec.rkeyWork w).toNat

def execRingKeyUnwrapped (key : Option Bytes) (s : State) : Out :=
  whenRunning s s.sec.rkeyBusy fun s =>
    let n := s.sec.rkeyKey.toNat
    let s' := { s with sec := { s.sec with rkeyBusy := false, rkeyWork := [] } }
    match unwrapFor 2 0 (rkeyBlob s) key with
    | some k =>
      if k.length ≠ 16 then { s' with sec := { s'.sec with rkeyErr := true } }
      else
        let x := BitVec.ofNat 128 (leNat k)
        setTrg (installKey n x) { s' with sec := { s'.sec with rkeyErr := false, ringKeys := Tab.set none s'.sec.ringKeys n (some x) } }
    | none => { s' with sec := { s'.sec with rkeyErr := true } }

/-! ## The debug port (R446, R447) -/

def tokenGood (t : DebugToken) : Bool := t.keyMatches && t.reserved && t.signatureOk && decide (t.scope.toNat < 8)

def execDebugToken (tok : DebugToken) (s : State) : Out :=
  whenRunning s true fun s =>
    if tokenGood tok then { s with sec := { s.sec with dbgOpened := true, dbgScope := BitVec.ofNat 3 tok.scope.toNat } }
    else { s with sec := { s.sec with dbgRejects := satUp s.sec.dbgRejects 1 } }

/-- The unit belongs to a tenant in confidential mode. -/
def debugHidden (s : State) : DebugTarget → Bool
  | .coreRow c r =>
    let k := s.core c
    isConf s k.owner || (match k.region (r / 64) with
      | .resident t => isConf s t
      | _ => false)
  | .dram a => match entryOf s (a / 64 * 64) 64 with
    | some e => isConf s (s.region e).owner.toNat
    | none => false
  | .sram o => (List.range 16).any fun t => isConf s t && decide (4096 * (s.tenant t).base.toNat ≤ o) &&
      decide (o < 4096 * ((s.tenant t).base.toNat + (s.tenant t).size.toNat))

/-- The scope of the token covers the access: cores, or memory read. -/
def debugAllowed (s : State) (target : DebugTarget) (write : Bool) : Bool :=
  match target with
  | .coreRow c r => s.sec.dbgScope.getLsbD 1 && coreUp s c && decide (r < 8192)
  | .dram _ => s.sec.dbgScope.getLsbD 2 && !write
  | .sram o => s.sec.dbgScope.getLsbD 2 && !write && decide (o < 2 ^ 26)

def debugRead (s : State) (target : DebugTarget) : Bytes :=
  match target with
  | .coreRow c r => rowBytes s c r
  | .dram a => (dramRow s (a / 64 * 64)).data
  | .sram o => (sramRow s (o / 64 * 64)).data

def execDebugAccess (target : DebugTarget) (write : Option Bytes) (s : State) : Out :=
  whenRunning s (s.sec.dbgOpened && debugAllowed s target write.isSome) fun s =>
    match write with
    | none => ({ s with sec := { s.sec with dbgData := if debugHidden s target then zeros 64 else debugRead s target } } : State).spend
    | some bs =>
      if debugHidden s target then s
      else match target with
        | .coreRow c r => setMems s fun m => m.wrSpm c (64 * r) (padTo 64 bs)
        | _ => s

end Sys2Proof.Machine
end

