-- ==== Sys2Proof/Machine/Boot.lean ====
section
/-! DEFINITION. Package reset, the start sequence, firmware operations and calibration commands (chapter 17). -/

namespace Sys2Proof.Machine

open Sys2Proof Numeric

/-! ## Package reset (R480, R522) -/

/-- Causes in the order in which R522 records them. -/
def causeOrder : List Nat := [0, 5, 4, 1, 2, 3, 7, 6]

/-- VIN has not yet been in range for 10 ms since it came or returned (R455, R482). -/
def vinHolds (s : State) : Bool := decide (s.ns < s.pwr.vinSince + 10 ^ 7)

/-- A cause that still holds the part in reset: the trip, or VIN. -/
def standingCause (s : State) : Option Nat :=
  if s.boot.done || s.boot.nursery then none
  else if s.pwr.thermtrip then some 4
  else if vinHolds s && (s.boot.fail.cause = 0 || s.boot.fail.cause = 5) then some s.boot.fail.cause.toNat
  else none

/-- Causes that arrive with this command: power-on, PERST#, the SMBus command, PF0's write, activation. VIN, the trip and a failed
start have commands of their own. -/
def causeArrives (s : State) (causes : Byte) (c : Nat) : Bool :=
  causes.getLsbD c && (c = 0 || c = 1 || (c = 2 && s.pwr.smbMatched) || (c = 3 && bootOpen s 0) || (c = 7 && activating s))

/-- The cause that is recorded: the first in order of those that arrive and that stand. -/
def firstCause (s : State) (causes : Byte) : Option Nat :=
  causeOrder.find? fun c => causeArrives s causes c || standingCause s = some c

def execPackageReset (causes : Byte) (s : State) : Out :=
  whenever s (causeOrder.any (causeArrives s causes)) fun s =>
    let c := firstCause s causes
    let s' : State := { s with pins := { s.pins with perstN := s.pins.perstN && !causes.getLsbD 1 } }
    match c with
    | none => s
    | some c => if standingCause s = some c then s' else packageReset c s'

/-- PF0 writes BOOT_CTRL with RESET 0xA5; FORCE_NURSERY of the same write counts. -/
def bootCtrlWrite (v : Word) (s : State) : State :=
  let s : State := { s with boot := { s.boot with forceNursery := bit32 v 8 } }
  if bits32 v 0 8 = 0xA5 then packageReset 3 s else s

def execBootResetRequest (fn : Fn) (v : Word) (s : State) : Out :=
  regWrite s (bootOpen s fn && fn = 0 && bits32 v 0 8 = 0xA5) (bootCtrlWrite v)

/-! ## The start sequence (R482 to R487) -/

/-- The slots' check results, slot A's and slot B's, 0 for one not checked, and the slot that is used. -/
def chooseSlot (s : State) (sigA sigB : Bool) : Nat × Nat × Option Bool :=
  let check := fun b => slotCheck s b (if b then sigB else sigA)
  let first := s.boot.tryB
  let one := check first
  if one = 0 then (0, 0, some first)
  else
    let two := check (!first)
    let codes := if first then (two, one) else (one, two)
    (codes.1, codes.2, if two = 0 then some !first else none)

/-- Sweeps of the two lanes of a channel in the report. -/
def startSweep (rep : StartReport) (c lane : Nat) : LaneSweep := rep.lanes.getD (2 * c + lane) LaneSweep.none

/-- A pair that training fences: one of its lanes has too short a run. -/
def pairFails (rep : StartReport) (p : Nat) : Bool :=
  [2 * p, 2 * p + 1].any fun c => !(trainChannel false (startSweep rep c 0) (startSweep rep c 1) Channel.init).2

/-- Pairs out of service: those marked failing before, those that self-test or training fails (R42, R44, R247). -/
def pairFences (s : State) (rep : StartReport) : BitVec 16 :=
  s.ddr.fail ||| rep.badPairs ||| BitVec.ofNat 16 (((List.range 16).filter (pairFails rep)).map (2 ^ ·)).sum

/-- Halves fenced as a whole: their fabric fails, or no lane group of their bridge works (R26). -/
def halfFences (rep : StartReport) : BitVec 2 :=
  rep.badHalf ||| BitVec.ofNat 2 (ofBool (rep.badC0 = 0xFF) + 2 * ofBool (rep.badC1 = 0xFF))

/-- Self-test decides every fence afresh (R45, R484). -/
def startFences (s : State) (rep : StartReport) : Fences :=
  let half := halfFences rep
  let cores := ((List.range 64).filter fun c => coreExists s c && (rep.badCores.getLsbD c || half.getLsbD (coreHalf c))).map (2 ^ ·)
  { cores := BitVec.ofNat 64 cores.sum
    pairs := pairFences s rep
    csi := rep.badCsi
    pci := rep.badPci
    brC0 := if half.getLsbD 0 then 0xFF else rep.badC0
    brC1 := if half.getLsbD 1 then 0xFF else rep.badC1
    brX := rep.badX
    half := half }

/-- The failure of stage 7, lowest code first: its code, and whether it is counted. -/
def stage7Failure (s : State) (rep : StartReport) (f : Fences) : Option (Nat × Bool) :=
  if !rep.dramSupported then some (11, false)
  else if f.pairs = 0xFFFF then some (12, true)
  else if !rep.sramOk then some (13, true)
  else if (List.range 64).all fun c => !coreExists s c || f.cores.getLsbD c then some (14, true)
  else if !rep.memOk then some (15, true)
  else if f.brX = 0xF then some (16, true)
  else none

/-- The DRAM configuration that DDR_INFO reports (R239, R242), and the trained channels. -/
def startDram (rep : StartReport) (s : State) : State :=
  let g := segLines s.fuses.dens.toNat / 5
  let n := (channels s).length
  let ranks := if s.fuses.ranks then 2 else 1
  let s : State := { s with ddr := { s.ddr with
    dens := s.fuses.dens
    ranks := s.fuses.ranks
    nch := BitVec.ofNat 6 n
    gseg := BitVec.ofNat 24 g
    cap := BitVec.ofNat 16 (n * ranks * 8 * g * 256 / 2 ^ 21)
    fail := 0
    lastTrain := s.ns
    lastTemp := junction s } }
  (channels s).foldl (fun s c => setChan c (fun k => (trainChannel false (startSweep rep c 0) (startSweep rep c 1) k).1) s) s

/-- Fenced cores leave service: their domains are OFF. -/
def coresOff (s : State) : State :=
  ((List.range 64).filter fun c => s.fences.cores.getLsbD c).foldl (fun s c => setDom s c fun d => { d with state := .off, target := .off }) s

/-- Stage 8: key slot 0, the pools, DONE. The flash tier's bring-up begins. -/
def finishStart (rep : StartReport) (slot : Bool) (s : State) : State :=
  let s := startDram rep (coresOff { s with fences := startFences s rep })
  { s with
    sec := { s.sec with kslots := Tab.set KeySlot.dead s.sec.kslots 0 { live := true, owner := 0, epoch := 1 } }
    flt := { s.flt with state := 1 }
    boot := { s.boot with
      done := true
      slotB := slot
      svnRunning := BitVec.ofNat 32 (manifestSvn (slotManifest s slot))
      doneAt := s.ns }
    pins := { s.pins with ringBypOpen := true } }

/-- Stages 5 to 8. -/
def runStages (rep : StartReport) (slot : Bool) (s : State) : State :=
  if rep.railsFault then failedStart 17 s
  else if !rep.powerReady then failedStart 21 s
  else if !rep.securityReady then failedStart 22 s
  else match stage7Failure s rep (startFences s rep) with
    | some (code, true) => failedStart code s
    | some (code, false) => enterNursery code s
    | none => if rep.controlOk then finishStart rep slot s else failedStart 20 s

def execStartSequence (rep : StartReport) (s : State) : Out :=
  whenever s (startReady s) fun s =>
    let s : State := { s with
      pwr := { s.pwr with thermtrip := false }
      pins := { s.pins with thermtripN := true, perstN := true } }
    if !rep.fusesOk then enterNursery 10 s
    else if !rep.factoryOk then enterNursery 9 s
    else
      let s := loadOverlay s
      let c := chooseSlot s rep.sigA rep.sigB
      let s : State := { s with boot := { s.boot with
        tryB := false
        fail := { s.boot.fail with aCode := BitVec.ofNat 8 c.1, bCode := BitVec.ofNat 8 c.2.1 } } }
      match c.2.2 with
      | none => enterNursery (max c.1 c.2.1) s
      | some slot => runStages rep slot s

/-- DONE is not set 900 ms after the reset was released (R482). -/
def execStartTimeout (s : State) : Out :=
  whenever s (startReady s && decide (max s.boot.resetAt (s.pwr.vinSince + 10 ^ 7) + 900 * 10 ^ 6 ≤ s.ns)) (failedStart 19)

/-- DONE has been set for 10 s: COUNT returns to 0, unless a fatal condition arose meanwhile (R490, R491). -/
def execDoneHoldExpiry (s : State) : Out :=
  whenever s (s.boot.done && decide (s.boot.doneAt + 10 ^ 10 ≤ s.ns)) fun s =>
    if failsStart s then failedStart 20 s else { s with boot := { s.boot with fail := { s.boot.fail with count := 0 } } }

/-- The control firmware's watchdog expires: a fatal condition, and within 10 s after DONE a failed start (R503). -/
def execWatchdogExpiry (s : State) : Out :=
  whenRunning s true fun s =>
    let s := fatalStop s
    if failsStart s then failedStart 20 s else s

/-! ## Firmware sets (R488, R489, R495) -/

def fwResult (code : Nat) (s : State) : State := { s with boot := { s.boot with fwResult := BitVec.ofNat 8 code } }

/-- A write of BOOT_FW_CMD with this OP; one that runs refuses it. -/
def fwCommand (op : Nat) (fn : Fn) (v : Word) (s : State) (f : State → State) : Out :=
  regWrite s (bootOpen s fn && fn = 0 && bits32 v 0 3 = op) fun s => if fwBusy s then fwResult 0xF0 s else f s

/-- STAGE reads the image and applies checks 1 to 7; the slot is then erased and programmed. -/
def execStage (fn : Fn) (v : Word) (rep : StageReport) (s : State) : Out :=
  fwCommand 1 fn v s fun s =>
    match rep.image with
    | none => fwResult 0xF1 s
    | some img =>
      let c := firstChecks s (img.take 512) rep.sigOk
      if c ≠ 0 then fwResult c s
      else { s with boot := { s.boot with fwOp := 1, fwImage := img.take slotSize, fwSecond := false, staged := false } }

/-- The activation begins: sessions end, and locked TDIs enter ERROR (R437). -/
def beginActivation (s : State) : State :=
  let s : State := { s with sec := { s.sec with spdm := s.sec.spdm.map fun r => (r.1, { r.2 with sessions := [] }) } }
  tdisFail (fun _ => true) { s with boot := { s.boot with fwOp := 2, tryB := s.boot.tryB || s.boot.stagedB } }

/-- ACTIVATE_NOW needs a set staged and passing since the last package reset. -/
def activateNow (s : State) : State :=
  if s.boot.nursery || !s.boot.staged then fwResult 0xF0 s else beginActivation (fwResult 0 s)

def execActivateNow (fn : Fn) (v : Word) (s : State) : Out := fwCommand 2 fn v s activateNow

/-- ACTIVATE_AT_RESET sets TRY_B when the staged set is in slot B. -/
def activateAtReset (s : State) : State :=
  if s.boot.nursery || !s.boot.staged then fwResult 0xF0 s
  else fwResult 0 { s with boot := { s.boot with tryB := s.boot.tryB || s.boot.stagedB } }

def execActivateAtReset (fn : Fn) (v : Word) (s : State) : Out := fwCommand 3 fn v s activateAtReset

/-- A slot holds a set that passes, with an SVN at least as high as the running set's. -/
def slotHolds (s : State) (b sig : Bool) : Bool :=
  slotCheck s b sig = 0 && decide (s.boot.svnRunning.toNat ≤ manifestSvn (slotManifest s b))

/-- COMMIT_SVN raises SVN_MIN to the running set's SVN. -/
def execCommitSvn (fn : Fn) (v : Word) (sigA : Bool) (sigB : Bool) (s : State) : Out :=
  fwCommand 4 fn v s fun s =>
    if s.boot.nursery then fwResult 0xF0 s
    else if slotHolds s false sigA && slotHolds s true sigB then
      fwResult 0 { s with fuses := { s.fuses with svnMin := BitVec.ofNat 7 (max s.fuses.svnMin.toNat (min 64 s.boot.svnRunning.toNat)) } }
    else fwResult 0xF3 s

/-- A slot is erased, and then holds an image. Its bank's lines leave the prefetch buffer and the branch cache. -/
def flashSlot (b : Bool) (img : Bytes) (s : State) : State :=
  let bank := if b then 1 else 0
  { s with
    mem := (s.mem.clrEfl (slotBase b) slotSize).wrEfl (slotBase b) img
    efl := { s.efl with
      prefetch := s.efl.prefetch.filter fun l => eflBank l ≠ bank
      branch := s.efl.branch.filter fun l => eflBank l ≠ bank } }

def fwIdle (s : State) : State := { s with boot := { s.boot with fwOp := 0, fwImage := [], fwSecond := false } }

/-- The slot that a STAGE writes: in nursery mode A and then B, else the one not in use. -/
def stageSlot (s : State) : Bool := if s.boot.nursery then s.boot.fwSecond else !s.boot.slotB

/-- A STAGE has programmed its slot: check 8 on the flash contents. -/
def finishStage (flashOk : Bool) (s : State) : State :=
  let b := stageSlot s
  let img := s.boot.fwImage
  let s' := flashSlot b img s
  if !flashOk then fwResult 0xF2 (fwIdle (flashSlot b [] s))
  else if !hashesHold s' b (slotManifest s' b) then fwResult 8 (fwIdle (flashSlot b [] s))
  else if s.boot.nursery then
    if s.boot.fwSecond then fwResult 0 (fwIdle { s' with boot := { s'.boot with fail := { s'.boot.fail with count := 0 } } })
    else { s' with boot := { s'.boot with fwSecond := true } }
  else fwResult 0 (fwIdle { s' with boot := { s'.boot with staged := true, stagedB := b } })

/-- The flash work of a STAGE or of a COPY is done. -/
def execFirmwareOpComplete (flashOk : Bool) (s : State) : Out :=
  whenever s ((s.running || (s.boot.nursery && !s.boot.fatal)) && (s.boot.fwOp = 1 || s.boot.fwOp = 5)) fun s =>
    if s.boot.fwOp = 1 then finishStage flashOk s
    else fwIdle (flashSlot false (if flashOk then s.mem.rdEfl (slotBase true) slotSize else []) s)

/-- The copy of slot B into slot A begins, when a start has run from slot B for 10 s and the slots differ or A fails. -/
def execFirmwareCopy (sigA : Bool) (s : State) : Out :=
  whenRunning s (s.boot.slotB && !fwBusy s && decide (s.boot.doneAt + 10 ^ 10 ≤ s.ns) &&
      (s.mem.rdEfl 0 slotSize ≠ s.mem.rdEfl (slotBase true) slotSize || slotCheck s false sigA ≠ 0)) fun s =>
    { s with boot := { s.boot with fwOp := 5 } }

/-! ## Calibration commands (R499) -/

def calCommand (op : Nat) (fn : Fn) (v : Word) (s : State) (f : State → State) : Out :=
  regWrite s (pf0Open s fn && bits32 v 0 2 = op) f

/-- COMMIT starts the write of an overlay copy; it is refused while BOOT_FW_CMD.BUSY is 1. -/
def startCommit (s : State) : State :=
  if fwBusy s || s.boot.calBusy then { s with boot := { s.boot with calErr := true } }
  else { s with boot := { s.boot with calBusy := true, calErr := false } }

def execCalCommit (fn : Fn) (v : Word) (s : State) : Out := calCommand 1 fn v s startCommit

/-- DISCARD: the pending offsets return to the committed ones. -/
def discardPending (s : State) : State :=
  { s with boot := { s.boot with
    cal := (s.boot.cal.map fun c => (c.1, { c.2 with pending := c.2.committed })).filter fun c => c.2 ≠ CalField.none } }

def execCalDiscard (fn : Fn) (v : Word) (s : State) : Out := calCommand 2 fn v s discardPending

/-- The copy that a COMMIT writes, and its SEQ: the invalid one or that with the lower SEQ. -/
def commitCopy (s : State) : Nat × Nat :=
  match overlayCopy s 0, overlayCopy s 1 with
  | some a, some b => if a.seq < b.seq then (0, b.seq + 1) else (1, a.seq + 1)
  | some a, none => (1, a.seq + 1)
  | none, some b => (0, b.seq + 1)
  | none, none => (0, 1)

/-- The pending offsets come into force, clamped. -/
def commitFields (t : Tab CalField) : Tab CalField :=
  (t.map fun c => (c.1, { c.2 with committed := BitVec.ofInt 16 (clampUser c.1 c.2.pending.toInt) })).filter fun c => c.2 ≠ CalField.none

/-- The write of a COMMIT ends. When it fails, the sector's contents are undefined and the other copy stays in force. -/
def execCalCommitDone (ok : Bool) (s : State) : Out :=
  whenever s (s.boot.calBusy && !s.boot.fatal) fun s =>
    let c := commitCopy s
    let bs := overlayBytes c.2 s.boot.cal
    let a := overlayAt c.1
    if ok then
      let s := setMems s fun m => (m.clrEfl a 8192).wrEfl a bs
      { s with boot := { s.boot with
        calBusy := false
        calErr := false
        calDefault := false
        calBytes := bs
        cal := commitFields s.boot.cal } }
    else
      let s := setMems s fun m => (m.wrEfl a (s.fbytes 0 8192)).wrEfl a [0xFF, 0xFF]
      ({ s with boot := { s.boot with calBusy := false, calErr := true } } : State).spend

end Sys2Proof.Machine
end

