-- ==== Sys2Proof/Machine/Gate.lean ====
section
/-! DEFINITION. The drain path (chapters 02, 04 and 05): DRAIN with its rescale and the compatibility pipe, the operations of
the gate unit, and the statistics both record. -/

namespace Sys2Proof.Machine

open Sys2Proof Numeric

/-! ## What an operation writes -/

/-- A result row, and what the row adds to the counters: saturated elements, whether a NaN or an infinity was met, a format
error, and the magnitudes that the statistics see (R76). -/
structure ResRow where
  bytes : Bytes
  sats : Nat
  nonfin : Bool
  fmtErr : Bool
  mags : List FVal
deriving DecidableEq, Repr

def fzero : FVal := .fin false 0 0

def maxMags (l : List FVal) : FVal := l.foldl statMax fzero

/-- The entries of a statistics buffer for the rows of an output: ROW, COL or TENSOR (R76). -/
def statValues (smode : Nat) (vec : Bool) (rows : List ResRow) : List FVal :=
  if smode = 1 then rows.map fun r => maxMags r.mags
  else if smode = 2 ∧ vec = false then (List.range 64).map fun n => maxMags (rows.map fun r => r.mags.getD n fzero)
  else [maxMags (rows.map fun r => maxMags r.mags)]

/-- An FP32 entry of a vector in the scratchpad. -/
def fpEntry (s : State) (c row i : Nat) : FVal := val32 (leNat (s.mem.rdSpm c (64 * row + 4 * i) 4))

/-- The entries as they are written: merged with the old ones or not (R77). -/
def statEntriesOf (s : State) (c smode : Nat) (merge vec : Bool) (srow : Nat) (rows : List ResRow) : List FVal :=
  let vs := statValues smode vec rows
  if merge then vs.zipIdx.map fun x => maxVal (fpEntry s c srow x.2) x.1 else vs

/-- Some old statistic is a NaN or an infinity. -/
def statOldNonfin (s : State) (c smode : Nat) (vec : Bool) (srow n : Nat) : Bool :=
  (List.range (statEntries smode n vec)).any fun i => !isFin (fpEntry s c srow i)

/-- Writes the result rows from row `dst`, `step` rows apart, the statistics, and the counts (R75, R82). -/
def writeResults (c dst step w : Nat) (rows : List ResRow) (stats : Option (Nat × List FVal)) (nonfin : Bool) (p : Bool)
    (s : State) : State :=
  let s := rows.zipIdx.foldl (fun s x => putRows c (dst + x.2 * step) x.1.bytes p w s) s
  let s := match stats with
    | some (srow, vs) => putPart c (64 * srow) (vs.flatMap fun v => toLE 4 (statBits v)) p s
    | none => s
  let sats := rows.foldl (fun n r => n + r.sats) 0
  updCore s c fun k => { k with
    outSat := satUp k.outSat sats
    nonfinite := satUp k.nonfinite (ofBool nonfin)
    fmtErr := satUp k.fmtErr (ofBool (rows.any (·.fmtErr))) }

def statsOut (s : State) (c smode : Nat) (merge vec : Bool) (srow : Nat) (rows : List ResRow) : Option (Nat × List FVal) :=
  if smode = 0 then none else some (srow, statEntriesOf s c smode merge vec srow rows)

/-! ## DRAIN (R72 to R75, R147 to R149, R166 to R168) -/

def isDrain : Op → Bool
  | .drain _ => true
  | _ => false

def drainAcc : Op → List Nat
  | .drain d => d.accRows
  | _ => []

/-- Entry `n` of a per-column vector: M, S, and the bits that must be zero. -/
def paramEntry (s : State) (c row n : Nat) : Int × Nat × Nat :=
  let w := leNat (s.mem.rdSpm c (64 * row + 8 * n) 8)
  (signed 32 w, bits w 32 6, bits w 38 26)

/-- The CODEs of a per-column vector's errors, found at issue (R166). -/
def paramErrors (s : State) (c : Nat) (d : DrainOp) : List Nat :=
  if !d.mvec then [] else
  (List.range 64).flatMap fun n =>
    let e := paramEntry s c d.param n
    failIf (decide (47 < e.2.1)) 5 ++ failIf (e.2.2 != 0) 1

/-- M and S of a column, with the exponent of the scale record under EADJ, and whether S left its range (R168). -/
def columnScale (s : State) (c : Nat) (d : DrainOp) (n : Nat) : Int × Nat × Bool :=
  let ms : Int × Nat := if d.mvec then ((paramEntry s c d.param n).1, (paramEntry s c d.param n).2.1) else (d.m, d.s)
  if d.eadj then
    let e := signed 8 (leNat (s.mem.rdSpm c (64 * d.qrec) 1))
    let x := (ms.2 : Int) - e
    if x < 0 then (ms.1, 0, true) else if 47 < x then (ms.1, 47, true) else (ms.1, x.toNat, false)
  else (ms.1, ms.2, false)

/-- The mantissa of entry `i` of a scale record (R167). -/
def recordMant (s : State) (c row i : Nat) : Nat := leNat (s.mem.rdSpm c (64 * (row + 1) + i) 1)

/-- One element of a drain: its bits, whether it saturated, met a non-finite value, and its magnitude. -/
structure Elem where
  bits : Nat
  sat : Bool
  nonfin : Bool
  mag : FVal
deriving DecidableEq, Repr

/-- An element of the integer path. -/
def intElement (d : DrainOp) (a q : Int) (ms : Int × Nat) : Elem :=
  if d.compat then
    let r := rescaleInt 16 a q ms.1 ms.2
    let y := compatY d.cfn (compatClamp r.1)
    let v : FVal := .fin (decide (y < 0)) y.natAbs (-14)
    { bits := if d.ofmt = 0 then unsigned 8 ((127 * y + 8192) / 16384) else (bf16.conv v).bits
      sat := r.2
      nonfin := false
      mag := upVal v }
  else
    let v := rescaleVal a q ms.1 ms.2
    if d.ofmt = 0 ∨ d.ofmt = 7 then
      let w := if d.ofmt = 0 then 8 else 32
      let r := rescaleInt w a q ms.1 ms.2
      { bits := unsigned w r.1, sat := r.2, nonfin := false, mag := upVal v }
    else
      let o := convOut d.ofmt v
      { bits := o.bits, sat := o.sat, nonfin := false, mag := upVal v }

/-- An element of the floating-point path. -/
def fpElement (d : DrainOp) (a : Nat) : Elem :=
  let v := val32 a
  let o := convOut d.ofmt v
  { bits := o.bits, sat := o.sat, nonfin := o.nonfin, mag := upVal v }

def zeroElem : Elem := { bits := 0, sat := false, nonfin := false, mag := fzero }

/-- Result row `i` of a drain. -/
def drainRow (s : State) (c : Nat) (d : DrainOp) (cols : List (Int × Nat × Bool)) (i : Nat) : ResRow :=
  let k := s.core c
  let q := if d.rowq then recordMant s c d.qrec i else 1
  let elems := (List.range 64).map fun n =>
    if d.fp then fpElement d (k.accAt (d.accr + i) n).toNat
    else if q = 0 then zeroElem
    else
      let a : Int := if d.wide then k.wideAt (d.accr + i) n else (k.accAt (d.accr + i) n).toInt
      let ms := cols.getD n (0, 0, false)
      intElement d a q (ms.1, ms.2.1)
  { bytes := elems.flatMap fun e => toLE (elemBytes d.ofmt) e.bits
    sats := elems.countP (·.sat)
    nonfin := (elems.any (·.nonfin)) || (d.smode != 0 && elems.any fun e => !isFin e.mag && isNan e.mag)
    fmtErr := !d.fp && (decide (q = 0) || cols.any (·.2.2))
    mags := elems.map (·.mag) }

def runDrain (c : Nat) (d : DrainOp) (p : Bool) (s : State) : State :=
  let cols := if d.fp then [] else (List.range 64).map (columnScale s c d)
  let rows := (List.range d.n).map (drainRow s c d cols)
  writeResults c d.dst (resultRows d.ofmt) (resultRows d.ofmt) rows (statsOut s c d.smode d.smerge false d.srow rows)
    (rows.any (·.nonfin)) p s

/-- A drain at the head of the queue whose operands are there and permitted checks its per-column vector as it issues. -/
def issueDrain (c : Nat) (s : State) : State :=
  match headOp s c isDrain with
  | some (r, { op := .drain d, pos := pos, .. }) =>
    let k := s.core c
    let errs := paramErrors s c d
    if k.allPresent d.reads && disjoint d.accRows r.pendingAcc && k.check r.owner d.reads d.writes = .ok && !errs.isEmpty
    then (issueError c pos (s.pick 0 1 errs) s).spend
    else issueRows c isDrain drainAcc (fun _ p s => runDrain c d p s) s
  | _ => s

def execDrain (core : CoreId) (ph : Phase) (s : State) : Out :=
  whenRunning s (coreUp s core) fun s =>
    match ph with
    | .decode => decodeQueued core (· = 0x30) isDrain s
    | .issue => issueDrain core s

/-! ## The gate unit (R143 to R146, R78, R532) -/

def isGate (k : GateKind) : Op → Bool
  | .gate g => g.kind = k
  | _ => false

/-- Element `n` of a BF16 row. -/
def bfElem (row : Bytes) (n : Nat) : FVal := bf16.decode (field row (2 * n) 2)

/-- The BF16 row that starts at a scratchpad row. -/
def bfRow (s : State) (c r : Nat) : Bytes := rowsBytes s c r 128

def gateA (s : State) (c : Nat) (g : GateOp) (i : Nat) : Bytes := bfRow s c (g.a + i * g.astride)

/-- Element `n` of the second operand of row `i` (R169). -/
def gateB (s : State) (c : Nat) (g : GateOp) (i n : Nat) : FVal :=
  if g.bmode = 0 then bfElem (bfRow s c (g.b + i * g.astride)) n
  else if g.bmode = 1 then bfElem (bfRow s c g.b) n
  else fpEntry s c g.b i

/-- The maximum. Of two zeros of unlike sign either may result. -/
def maxFree (pick : Nat) (a b : FVal) : FVal :=
  match a, b with
  | .fin n1 0 _, .fin n2 0 _ => if n1 = n2 then a else .fin (pick % 2 = 1) 0 0
  | _, _ => maxVal a b

/-- The exact result of a two-operand element. -/
def gateOp2 (k : GateKind) (pick : Nat) (a b : FVal) : FVal :=
  match k with
  | .gadd => addExact a b
  | .gsub => addExact a (neg b)
  | .gmul => mulExact a b
  | _ => maxFree pick a b

/-- A BF16 result row from the values rounded once (R144, R145). -/
def bfResult (vals : List FVal) (nonfin : Bool) : ResRow :=
  let outs := vals.map bf16.conv
  { bytes := outs.flatMap fun o => toLE 2 o.bits
    sats := outs.countP (·.sat)
    nonfin := nonfin
    fmtErr := false
    mags := vals.map upVal }

/-- Writes a gate operation's rows with its statistics. -/
def writeGate (c : Nat) (g : GateOp) (step w : Nat) (rows : List ResRow) (p : Bool) (s : State) : State :=
  let nf := (rows.any (·.nonfin)) ||
    (g.smode != 0 && rows.any fun r => r.mags.any isNan) ||
    (g.smerge && statOldNonfin s c g.smode g.vec g.srow g.n)
  writeResults c g.dst step w rows (statsOut s c g.smode g.smerge g.vec g.srow rows) nf p s

def runGfn (c : Nat) (g : GateOp) (p : Bool) (s : State) : State :=
  let rows := (List.range g.n).map fun i =>
    let a := gateA s c g i
    let xs := (List.range 64).map fun n => field a (2 * n) 2
    bfResult (xs.map fun x => Gfn.value g.fn x (bf16.decode x)) (xs.any fun x => !isFin (bf16.decode x))
  writeGate c g 2 2 rows p s

def runGate2 (c : Nat) (g : GateOp) (p : Bool) (s : State) : State :=
  let rows := (List.range g.n).map fun i =>
    let a := gateA s c g i
    let xs := (List.range 64).map fun n => (n, bfElem a n, gateB s c g i n)
    bfResult (xs.map fun x => gateOp2 g.kind (s.fv (64 * i + x.1)) x.2.1 x.2.2)
      (xs.any fun x => !isFin x.2.1 || !isFin x.2.2)
  writeGate c g 2 2 rows p s

/-- The sum or maximum of a row, merged with the old entry or not. -/
def reduceRow (s : State) (c : Nat) (g : GateOp) (i : Nat) : FVal × Bool :=
  let a := gateA s c g i
  let xs := (List.range 64).map (bfElem a)
  let old := fpEntry s c g.dst i
  let new := if g.kind = .grsum then sumAny (fun j => s.fv (256 * i + j)) 64 xs
    else xs.zipIdx.foldl (fun m x => maxFree (s.fv (256 * i + x.2)) m x.1) (xs.headD .nan)
  let v := if !g.merge then new
    else if g.kind = .grsum then rnd32 (addExact old new) else maxFree (s.fv (256 * i + 255)) old new
  (v, (xs.any fun x => !isFin x) || (g.merge && !isFin old))

/-- GRSUM and GRMAX write an FP32 vector. -/
def runReduce (c : Nat) (g : GateOp) (p : Bool) (s : State) : State :=
  let vs := (List.range g.n).map (reduceRow s c g)
  let rows : List ResRow := vs.map fun v => { bytes := [], sats := 0, nonfin := v.2, fmtErr := false, mags := [upVal v.1] }
  let s := writeGate c g 0 0 rows p s
  putPart c (64 * g.dst) (vs.flatMap fun v => toLE 4 (fp32.conv v.1).bits) p s

def runGquant (c : Nat) (g : GateOp) (p : Bool) (s : State) : State :=
  let e := signed 8 (leNat (s.mem.rdSpm c (64 * g.b) 1))
  let rows := (List.range g.n).map fun i =>
    let xs := (List.range 64).map (bfElem (gateA s c g i))
    let q := recordMant s c g.b i
    let nf := xs.any fun x => !isFin x
    if q = 0 then ({ bytes := zeros 64, sats := 0, nonfin := nf, fmtErr := true, mags := xs.map fun _ => fzero } : ResRow)
    else
      let outs := xs.map (quantOne g.qfmt q e)
      { bytes := outs.map fun o => BitVec.ofNat 8 o.bits
        sats := outs.countP (·.sat)
        nonfin := nf
        fmtErr := false
        mags := xs.map (quantMag q e) }
  writeGate c g 1 1 rows p s

/-- A negative entry needs no scale: it counts as zero. -/
def atLeastZero : FVal → FVal
  | .fin true _ _ => fzero
  | v => v

/-- GSCALE: the exponent and the mantissas of a scale record (R78). -/
def scaleRecord (qfmt : Nat) (vs : List FVal) : Int × List Nat × Bool :=
  if vs.all isFin then
    let q := targetQ qfmt
    let top := vs.foldl maxVal fzero
    let ratio := match top with
      | .fin _ m x => roundUp32 m q x
      | v => v
    let e := scaleExp ratio
    (e, vs.map fun v => scaleMant q e (atLeastZero v), false)
  else (127, vs.map fun _ => 255, true)

def runGscale (c : Nat) (g : GateOp) (p : Bool) (s : State) : State :=
  let r := scaleRecord g.qfmt ((List.range g.n).map (fpEntry s c g.a))
  let s := putRow c g.dst [BitVec.ofInt 8 r.1] p s
  let s := putPart c (64 * (g.dst + 1)) (r.2.1.map fun q => BitVec.ofNat 8 q) p s
  updCore s c fun k => { k with nonfinite := satUp k.nonfinite (ofBool r.2.2) }

/-- A gate operation of one kind: decoded into the queue, or issued at its head. -/
def gateCommand (c : CoreId) (ph : Phase) (kind : GateKind) (opc : Nat) (f : GateOp → Bool → State → State) (s : State) : Out :=
  whenRunning s (coreUp s c) fun s =>
    match ph with
    | .decode => decodeQueued c (· = opc) (isGate kind) s
    | .issue => issueRows c (isGate kind) (fun _ => []) (fun q p s => match q.op with
        | .gate g => f g p s
        | _ => s) s

def execGfn (core : CoreId) (ph : Phase) (s : State) : Out := gateCommand core ph .gfn 0x40 (runGfn core) s
def execGadd (core : CoreId) (ph : Phase) (s : State) : Out := gateCommand core ph .gadd 0x41 (runGate2 core) s
def execGsub (core : CoreId) (ph : Phase) (s : State) : Out := gateCommand core ph .gsub 0x42 (runGate2 core) s
def execGmul (core : CoreId) (ph : Phase) (s : State) : Out := gateCommand core ph .gmul 0x43 (runGate2 core) s
def execGmax (core : CoreId) (ph : Phase) (s : State) : Out := gateCommand core ph .gmax 0x44 (runGate2 core) s
def execGrsum (core : CoreId) (ph : Phase) (s : State) : Out := gateCommand core ph .grsum 0x45 (runReduce core) s
def execGrmax (core : CoreId) (ph : Phase) (s : State) : Out := gateCommand core ph .grmax 0x46 (runReduce core) s
def execGquant (core : CoreId) (ph : Phase) (s : State) : Out := gateCommand core ph .gquant 0x47 (runGquant core) s
def execGscale (core : CoreId) (ph : Phase) (s : State) : Out := gateCommand core ph .gscale 0x48 (runGscale core) s

end Sys2Proof.Machine
end

