-- ==== Sys2Proof/Machine/Jtag.lean ====
section
/-! DEFINITION. The debug access port's IEEE 1149.1 instructions (R524). -/

namespace Sys2Proof.Machine

open Sys2Proof

def shiftOut (v : Word) (s : State) : State := { s with pins := { s.pins with jtag := v } }

/-- IDCODE selects the identification register: 32 bits that the spec does not give, bit 0 being 1 as IEEE 1149.1 has it. -/
def execIdcode (s : State) : Out := .next (shiftOut (BitVec.ofNat 32 (2 * Config.idcode + 1)) s)

/-- BYPASS selects the one-bit bypass register, which captures 0. -/
def execBypass (s : State) : Out := .next (shiftOut 0 s)

/-- The part is held in package reset by PERST_N. -/
def heldByPerst (s : State) : Bool := !s.pins.perstN && !s.boot.done && !s.boot.nursery

/-- A boundary-scan instruction is accepted while PERST_N holds the part in reset. A port that has not been opened returns zeros
on DBG_TDO; an opened one would shift out the captured pins. -/
def execBoundaryScan (s : State) : Out :=
  .next (if heldByPerst s && s.sec.dbgOpened then shiftOut (BitVec.ofNat 32 (s.fv 0)) s.spend else shiftOut 0 s)

end Sys2Proof.Machine
end

