-- ==== Sys2Proof/Machine/RegRead.lean ====
section
/-! DEFINITION. What a read of BAR0 returns (chapter 18): each register's fields, who may read them, and the latch of R506. -/

namespace Sys2Proof.Machine

open Sys2Proof Numeric

/-! ## Windows 0 to 3 -/

/-- BOOT_ registers and calibration (R45, R504). -/
def bootRegs (s : State) (f o : Nat) : Nat :=
  let b := s.boot
  match o with
  | 0x008 => pack [(s.fuses.stepping.toNat, 0), (s.fuses.variant.toNat, 8), (s.fuses.svnMin.toNat, 16)]
  | 0x010 => s.fuses.cores.toNat
  | 0x018 => s.fences.cores.toNat
  | 0x020 => fenceUnits s
  | _ =>
    if f ≠ 0 then 0 else
    match o with
    | 0x000 => pack [(ofBool b.done, 0), (ofBool b.nursery, 1), (ofBool (s.fences ≠ Fences.reset), 2), (ofBool b.fatal, 3),
        (ofBool b.calDefault, 4), (ofBool b.slotB, 5), (ofBool b.tryB, 6)]
    | 0x028 => b.nrc.toNat
    | 0x030 => pack [(b.fail.count.toNat, 0), (b.fail.lastNrc.toNat, 8), (b.fail.aCode.toNat, 16), (b.fail.bCode.toNat, 24),
        (b.fail.cause.toNat, 32)]
    | 0x038 => ofBool b.forceNursery * 2 ^ 8
    | 0x040 => b.fwSrc.toNat
    | 0x048 => pack [(ofBool (fwBusy s), 4), (ofBool (b.fwResult ≠ 0), 5), (b.fwResult.toNat, 8), (b.fwOp.toNat, 16)]
    | 0x050 => pack [(b.domSel.toNat, 0), (ofBool b.domErr, 9), (ofBool b.held.isSome, 10),
        (ofBool (b.held.any fun h => h.reclaim.isNone), 11)]
    | 0x080 => b.calSel.toNat
    | 0x088 =>
      let id := b.calSel.toNat
      if (calBounds id).isNone then 0
      else pack [((BitVec.ofInt 32 (Config.calFactory id)).toNat, 0), ((BitVec.ofInt 32 (effective s id)).toNat, 32)]
    | 0x090 =>
      let c := s.calField b.calSel.toNat
      if (calBounds b.calSel.toNat).isNone then 0 else pack [(c.pending.toNat, 0), (c.committed.toNat, 16)]
    | 0x098 => pack [(ofBool b.calBusy, 2), (ofBool b.calErr, 3)]
    | _ => 0

/-- AUD_ registers (R51). -/
def auditRegs (s : State) (o : Nat) : Nat :=
  let a := s.audit
  match o with
  | 0x000 => pack [(a.pool.toNat, 0), (a.inst.toNat, 8)]
  | 0x008 => pack [(ofBool a.valid, 0), (ofBool a.badSelect, 1), (ofBool a.fault, 2), (a.faultPool.toNat, 8), (a.faultInst.toNat, 16)]
  | 0x010 => a.total.toNat
  | 0x018 => a.free.toNat
  | 0x020 => a.held.toNat
  | _ => 0

def domCode : DomState → Nat
  | .on => 0
  | .retain => 1
  | .off => 2

/-- PWR_STAT (R476). -/
def pwrStat (s : State) : Nat :=
  let p := s.pwr.stat
  pack [(p.pkg.toNat, 0), (p.ceil.toNat, 16), (p.thr.toNat, 20), (ofBool p.unmet, 22), (ofBool p.calf, 23), (p.tmax.toNat, 24),
    (p.vin.toNat, 32), (p.iin.toNat, 48), (ofBool s.pwr.tripped, 63)]

/-- A domain code whose island has a PWR_VF_CFG (R478). -/
def isIsland (s : State) (d : Nat) : Bool := (coreDom d && coreExists s d) || fabricDom d || sramDom d || d = 0x70

/-- PWR_ registers (R476 to R479). -/
def powerRegs (s : State) (o : Nat) : Nat :=
  let p := s.pwr
  match o with
  | 0x000 => pack [(p.limit.toNat, 0), (p.boardMax.toNat, 8), (p.tThrot.toNat, 16)]
  | 0x008 => pwrStat s
  | 0x010 => pack [(p.domSel.toNat, 0), (ofBool p.domErr, 9)]
  | 0x018 => pack [(p.domTarget.toNat, 0), (ofBool p.domAuto, 2)]
  | 0x020 =>
    let x := s.dom p.domSel.toNat
    if isDomain s p.domSel.toNat then pack [(domCode x.state, 0), (ofBool (x.busy || x.pend.isSome), 2), (ofBool x.hold, 3)] else 0
  | 0x030 => p.vfSel.toNat
  | 0x038 =>
    let x := Tab.get Vf.init p.vfs p.vfSel.toNat
    if isIsland s p.vfSel.toNat then pack [(x.voff.toNat, 0), (x.maxStep.toNat, 8)] else 0
  | 0x040 => pack [(p.smbAddr.toNat, 0), (ofBool p.smbEn, 7)]
  | 0x048 => p.wakeTimer.toNat
  | _ => 0

/-- REFS of a key slot: the enabled entries that name it, and DESC_KEY. -/
def slotRefs (s : State) (k : Nat) : Nat :=
  min 255 ((s.gdl.regions.countP fun e => e.2.size ≠ 0 && e.2.key.toNat = k) + ofBool (s.lfl.descKey.toNat = k))

/-- SEC_ registers (R450 to R453). -/
def secRegs (s : State) (f o : Nat) : Nat :=
  let x := s.sec
  if o = 0x020 then
    pack [(ofBool s.pwr.stat.cap, 0), (ofBool (f ≠ 0 && isConf s f), 1), (if f = 0 then 0 else tdiCode (s.tsec f).tdi, 2)]
  else if f ≠ 0 then 0
  else match o with
  | 0x000 => pack [(x.tenSel.toNat, 0), (ofBool x.tenErr, 5)]
  | 0x008 =>
    let t := s.tsec x.tenSel.toNat
    if x.tenSel = 0 then 0
    else pack [(ofBool x.tenConf, 0), (tdiCode t.tdi, 8), (if t.tdi = .unlocked then 0 else t.stream, 16)]
  | 0x010 => pack [(x.kslot.toNat, 0), (x.kowner.toNat, 12), (ofBool x.kErr, 16)]
  | 0x018 =>
    let k := keySlot s x.kslot.toNat
    pack [(ofBool k.live, 0), (if k.live then k.owner.toNat else 0, 4), (slotRefs s x.kslot.toNat, 8)]
  | 0x028 => pack [(x.rkeyKey.toNat, 0), (ofBool x.rkeyBusy, 4), (ofBool x.rkeyErr, 5)]
  | 0x030 => pack [(ofBool x.dbgOpened, 0), (x.dbgScope.toNat, 1), (x.dbgRejects.toNat, 16)]
  | _ => 0

/-! ## Window 4: the set-up block of function `g` (R407 to R416, R425) -/

def qStateCode : QState → Nat
  | .none => 0
  | .active => 1
  | .error => 2

def setupRegs (s : State) (g o : Nat) : Nat :=
  let x := s.func g
  match o with
  | 0x008 => pack [(ofBool x.expertEn, 0), (x.qmax.toNat, 8), (ofBool x.winEn, 16)]
  | 0x010 => pack [(x.qsel.toNat, 0), (ofBool x.qerr, 10)]
  | 0x018 => x.sqBase.toNat
  | 0x020 => x.cqBase.toNat
  | 0x028 => x.qcfg.toNat
  | 0x030 =>
    let q := s.queue g x.qsel.toNat
    pack [(qStateCode q.state, 0), (q.globalIdx, 8), (q.slots.held, 16)]
  | 0x038 => x.evq.base.toNat
  | 0x040 => pack [(x.evq.depth.toNat, 0), (x.evq.vector.toNat, 4), (ofBool x.evq.en, 15), (x.evq.ithresh.toNat, 16),
      (x.evq.itime.toNat, 24)]
  | 0x048 => pack [(x.evq.lost.toNat, 0), (ofBool x.evq.err, 16)]
  | 0x050 => x.winSel.toNat
  | 0x058 =>
    let w := s.window g x.winSel.toNat
    pack [(w.gen.toNat, 0), (ofBool w.isOpen, 16), (w.stg.toNat, 24), (w.offset.toNat, 32), (w.dropped.toNat, 48)]
  | _ => 0

/-! ## Windows 5 to 7 -/

/-- The tenant whose LFL_COST a function reaches, 0 for none (R322). -/
def costTenant (s : State) (f : Nat) : Nat := if f = 0 then s.lfl.partSel.toNat else f

def costOf (t : Tenant) : Nat :=
  pack [(t.pfScale.toNat, 0), (t.stepScale.toNat, 16), (ofBool t.noMeas, 28), (t.specGain.toNat, 32)]

/-- LFL_ registers (R199, R200, R320 to R323). -/
def liftlineRegs (s : State) (f o : Nat) : Nat :=
  let l := s.lfl
  match o with
  | 0x050 => if costTenant s f = 0 then 0 else costOf (s.tenant (costTenant s f))
  | 0x058 => (s.func f).verSel.toNat
  | 0x060 => (s.func f).verStat.toNat
  | _ =>
    if f ≠ 0 then 0 else
    match o with
    | 0x000 => l.idleMs.toNat
    | 0x008 => l.ctxSel.toNat
    | 0x010 => l.ctxStat.toNat
    | 0x018 => l.ctxCnt.toNat
    | 0x020 => pack [(l.partSel.toNat, 0), (ofBool l.partErr, 5)]
    | 0x028 => if l.partSel = 0 then 0 else l.partCores.toNat
    | 0x030 => if l.partSel = 0 then 0 else l.partSram.toNat
    | 0x038 => if l.partSel = 0 then 0 else l.partCfg.toNat
    | 0x040 => if l.partSel = 0 then 0 else l.budgetCfg.toNat
    | 0x048 => pack [(l.slack.toNat, 0), (l.commonBase.toNat, 16), (l.commonSize.toNat, 32), (l.sysUnits.toNat, 48)]
    | _ => 0

/-- KVM_ registers (R350 to R352). KVM_STAT lies in the memory-side domain. -/
def kvRegs (s : State) (o : Nat) : Nat :=
  let l := s.lfl
  match o with
  | 0x000 => pack [(l.kvPages.toNat, 0), (l.descBase.toNat, 32), (l.descKey.toNat, 48)]
  | 0x008 => pack [(l.tenSel.toNat, 0), (ofBool l.tenErr, 5)]
  | 0x010 => if l.tenSel = 0 then 0 else l.tenCfg.toNat
  | 0x018 => if l.tenSel = 0 then 0 else l.tenApp.toNat
  | 0x020 => if domUp s 0x70 then pack [(l.kvSat.toNat, 0), (l.cow.toNat, 16), (l.idxSkip.toNat, 32), (l.specOff.toNat, 48)] else 0
  | _ => 0

/-- GDL_ and EXP_ registers (R237, R238). EXP_STAT lies in the memory-side domain. -/
def gondolaRegs (s : State) (o : Nat) : Nat :=
  let g := s.gdl
  match o with
  | 0x000 => pack [(g.snowEn.toNat, 1), (g.share.toNat, 17)]
  | 0x008 => pack [(g.fallback.toNat, 0), (g.late.toNat, 32)]
  | 0x010 => if domUp s 0x70 then pack [(g.coded.toNat, 0), (g.raw.toNat, 32), (g.decErr.toNat, 56)] else 0
  | _ => 0

/-! ## Windows 8 to 11 -/

def chosenLane (s : State) : LaneDelay :=
  let k := s.chan s.ddr.chSel.toNat
  if s.ddr.laneSel then k.lane1 else k.lane0

/-- DDR_ registers (R203, R242, R248 to R259). DDR_CH_ERR lies in the domain of the selected channel's group. -/
def dramRegs (s : State) (o : Nat) : Nat :=
  let d := s.ddr
  match o with
  | 0x000 => pack [(d.dens.toNat, 0), (ofBool d.ranks, 4), (d.nch.toNat, 5), (d.gseg.toNat, 16), (d.cap.toNat, 40)]
  | 0x008 => pack [(s.gdl.rgnSel.toNat, 0), (ofBool s.gdl.rgnErr, 9)]
  | 0x010 => s.gdl.rgnSpan.toNat
  | 0x018 => s.gdl.rgnAttr.toNat
  | 0x020 => pack [(d.periodS.toNat, 0), (d.tempDelta.toNat, 16), (ofBool d.retrain.isSome, 24)]
  | 0x028 => pack [(d.chSel.toNat, 0), (ofBool d.laneSel, 5)]
  | 0x030 =>
    let x := chosenLane s
    pack [(x.rd.toNat, 0), (x.wr.toNat, 8), (ofBool x.mode, 15), (x.rdW.toNat, 16), (x.wrW.toNat, 23)]
  | 0x038 =>
    let k := s.chan d.chSel.toNat
    if domUp s (0x60 + d.chSel.toNat / 4) then pack [(k.ce.toNat, 0), (k.ue.toNat, 16), (k.keyMM.toNat, 24), (k.lastUe.toNat, 32)]
    else 0
  | 0x040 => pack [(d.prob.toNat, 0), (d.patrolH.toNat, 8)]
  | 0x048 => d.nrCount.toNat
  | 0x050 => pack [(d.regPort.toNat, 0), (d.regAcct.toNat, 4), (ofBool d.regErr, 9)]
  | 0x058 => d.regCfg.toNat
  | 0x060 => pack [(d.keepR0.toNat, 0), (d.keepR1.toNat, 8)]
  | 0x068 => d.fail.toNat
  | _ => 0

/-- FLT_ and EFL_ registers (R280 to R283, R289). FLT_STAT lies in the flash tier's domain. -/
def flashRegs (s : State) (o : Nat) : Nat :=
  let t := s.flt
  let e := s.efl
  match o with
  | 0x000 => pack [(t.state.toNat, 0), (t.channels.toNat, 3), (t.luns.toNat, 7), (t.rate.toNat, 11), (t.pages.toNat, 16),
      (t.blocks.toNat, 32), (t.sets.toNat, 49)]
  | 0x008 => pack [(t.suspMin.toNat, 0), (t.retryMax.toNat, 16)]
  | 0x010 => t.blkSel.toNat
  | 0x018 => t.blkStat.toNat
  | 0x020 => if domUp s 0x72 then pack [(t.retries.toNat, 0), (t.uncorr.toNat, 24), (t.suspends.toNat, 32), (t.badNew.toNat, 48)] else 0
  | 0x080 => pack [(ofBool (eflBusy s 0).isSome, 0), (ofBool (eflBusy s 1).isSome, 1), (ofBool e.fail, 2), (ofBool e.reprog, 3), (ofBool e.lock, 4),
      (ofBool e.busyErr, 5), (e.pulses.toNat, 8), (e.ceCount.toNat, 16)]
  | 0x088 => pack [(e.faultAddr.toNat, 0), (ofBool e.faultCause, 19), (e.faultSrc.toNat, 20), (e.faultCount.toNat, 24)]
  | _ => 0

/-- SFE_CTX_STAT of the context that the function has selected (R372, R509). -/
def ctxCounters (s : State) (f : Nat) : Nat :=
  let c := (s.func f).sfeSel.toNat
  let x := s.ctx c
  if 24 ≤ c ∨ !domUp s 0x71 ∨ (f ≠ 0 ∧ x.owner ≠ f) ∨ (x.owner ≠ 0 ∧ isConf s x.owner) then 0
  else pack [(x.delivered.toNat, 0), (x.lost.toNat, 32), (x.overrun.toNat, 48)]

def chosenVc (s : State) : Nat := 2 * s.sfe.csiPort.toNat + ofBool s.sfe.csiVc

/-- SFE_ and CSI_ registers (R371 to R373). -/
def streamRegs (s : State) (f o : Nat) : Nat :=
  match o with
  | 0x000 => pack [((s.func f).sfeSel.toNat, 0), (if f = 0 then ofBool (s.func f).sfeErr else 0, 6)]
  | 0x010 => ctxCounters s f
  | _ =>
    if f ≠ 0 then 0 else
    let p := s.csiPort s.sfe.csiPort.toNat
    match o with
    | 0x008 => s.sfe.ctxCfg.toNat
    | 0x080 => pack [(s.sfe.csiPort.toNat, 0), (ofBool s.sfe.csiVc, 2)]
    | 0x088 => pack [(ofBool p.en, 0), (p.lanes.toNat, 1), (p.rate.toNat, 4)]
    | 0x090 =>
      let v := Tab.get CsiVc.init s.sfe.vcs (chosenVc s)
      pack [(ofBool v.en, 0), (v.vcid.toNat, 1), (v.dt.toNat, 3), (v.width.toNat, 9), (v.height.toNat, 21)]
    | 0x098 =>
      if domUp s 0x71 then
        pack [(p.eccCorr.toNat, 0), (p.eccUe.toNat, 16), (p.crc.toNat, 24), (p.lost.toNat, 32), (p.ignored.toNat, 48)]
      else 0
    | _ => 0

/-- TRG_ registers (R399, R400). -/
def ringRegs (s : State) (o : Nat) : Nat :=
  let r := s.trg
  match o with
  | 0x000 => pack [(r.mode.toNat, 0), (ofBool r.role, 2), (r.nodeId.toNat, 16)]
  | 0x008 => r.mapSel.toNat
  | 0x010 =>
    let m := Tab.get MapCfg.zero r.mapCfg r.mapSel.toNat
    pack [(m.node.toNat, 0), (ofBool m.en, 16), (ofBool m.enc, 17), (m.key.toNat, 18)]
  | 0x018 => pack [(ofBool r.lock, 0), (ofBool (r.master && r.lock), 1), (ofBool r.long, 2), (ofBool r.dup, 3), (ofBool r.keysHeld, 4),
      ((r.addr.map (·.val)).getD 0, 8), (if r.master then r.nodes.toNat else 0, 16), (if r.master then r.lat.toNat else 0, 32)]
  | 0x020 => pack [(r.code.toNat, 0), (r.damaged.toNat, 16), (r.marked.toNat, 32), (r.lockLoss.toNat, 48), (r.tagFail.toNat, 56)]
  | _ => 0

/-! ## Core windows (R82, R83, R118, R119, R150, R160, R510) -/

/-- CORE_STATUS.STATE. -/
def coreStateCode (s : State) (n : Nat) : Nat :=
  let k := s.core n
  if coreFenced s n then 4
  else match (s.dom n).state with
    | .off => 6
    | .retain => 5
    | .on => if k.run.isSome then 1 else if k.kept.isSome then 2 else 0

/-- CORE_STATUS: STATE and OWNER always read; the other fields only while the core's domain is up. -/
def coreStatusReg (s : State) (n : Nat) : Nat :=
  let k := s.core n
  let conf := k.owner ≠ 0 && isConf s k.owner
  let queue := (k.run.map fun r => r.queue.length).getD 0
  pack ([(coreStateCode s n, 0), (k.owner, 8)] ++
    (if coreUp s n then (ofBool conf, 12) :: (if conf then [] else [(queue, 16), (k.credits.free, 24)]) else []))

def faultWord (f : CoreFault) : Nat :=
  pack [(ofBool f.ueCtrl, 0), (ofBool f.ueBank, 1), (ofBool f.ceRate, 2), (ofBool f.creditStall, 3), (ofBool f.poison, 4),
    (f.bank.toNat, 16)]

def coreRegs (s : State) (f n o : Nat) : Nat :=
  let k := s.core n
  let conf := k.owner ≠ 0 && isConf s k.owner
  if !coreExists s n then 0
  else if f = 0 && o = 0x000 then coreStatusReg s n
  else if f = 0 && o = 0x008 then faultWord k.fault
  else if !coreUp s n then 0
  else if (o = 0x010 || o = 0x018 || o = 0x020 || o = 0x030) && (f = 0 || k.owner = f) && !conf then
    match o with
    | 0x010 => pack [(k.errIndex.toNat, 0), (k.errCode.toNat, 16), (ofBool k.errValid, 31)]
    | 0x018 => k.outSat.toNat
    | 0x020 => pack [(k.accSat.toNat, 0), (k.nonfinite.toNat, 16), (k.fmtErr.toNat, 24)]
    | _ => pack [(k.deltaSkip.toNat, 0), (k.ramps.toNat, 16)]
  else if f ≠ 0 then 0
  else match o with
    | 0x040 => pack [(k.ceCount.toNat, 0), (k.ueCount.toNat, 16), (k.ceBank.toNat, 24)]
    | 0x048 => k.regionSel.toNat
    | 0x050 => k.regionStat.toNat
    | _ => 0

/-! ## The whole map (R507, R512) -/

/-- What the register at offset `off`, a multiple of 8, reads as to function `f` (R508, R509). -/
def registerValue (s : State) (f off : Nat) : Nat :=
  let o := off % 0x1000
  let pf0 := fun n => if f = 0 then n else 0
  if 0x100000 ≤ off ∧ off < 0x140000 then coreRegs s f (off / 0x1000 - 0x100) o
  else match off / 0x1000 with
  | 0 => bootRegs s f o
  | 1 => pf0 (auditRegs s o)
  | 2 => pf0 (powerRegs s o)
  | 3 => secRegs s f o
  | 4 => if o = 0 then pf0 s.pci.fnSel.toNat else setupRegs s (setupFn s f) o
  | 5 => liftlineRegs s f o
  | 6 => pf0 (kvRegs s o)
  | 7 => pf0 (gondolaRegs s o)
  | 8 => pf0 (dramRegs s o)
  | 9 => pf0 (flashRegs s o)
  | 10 => streamRegs s f o
  | 11 => pf0 (ringRegs s o)
  | _ => 0

/-- The register that starts at an offset: its width in bits, none where no register starts. -/
def registerWidth (off : Nat) : Option Nat :=
  let o := off % 0x1000
  let of' := fun (w32 w64 : List Nat) => if w32.contains o then some 32 else if w64.contains o then some 64 else none
  if 0x100000 ≤ off ∧ off < 0x140000 then of' [0x000, 0x008, 0x010, 0x018, 0x020, 0x028, 0x030, 0x038, 0x040, 0x048, 0x050] []
  else match off / 0x1000 with
  | 0 => of' [0x000, 0x008, 0x028, 0x038, 0x048, 0x050, 0x080, 0x090, 0x098] [0x010, 0x018, 0x020, 0x030, 0x040, 0x088]
  | 1 => of' [0x000, 0x008] [0x010, 0x018, 0x020]
  | 2 => of' [0x000, 0x010, 0x018, 0x020, 0x028, 0x030, 0x038, 0x040, 0x048] [0x008]
  | 3 => of' [0x000, 0x008, 0x010, 0x018, 0x020, 0x028, 0x030] ((List.range 16).map fun w => 0x080 + 8 * w)
  | 4 => of' [0x000, 0x008, 0x010, 0x028, 0x030, 0x040, 0x048, 0x050] [0x018, 0x020, 0x038, 0x058]
  | 5 => of' [0x000, 0x008, 0x010, 0x018, 0x020, 0x058] [0x028, 0x030, 0x038, 0x040, 0x048, 0x050, 0x060]
  | 6 => of' [0x008] [0x000, 0x010, 0x018, 0x020]
  | 7 => of' [0x000] [0x008, 0x010]
  | 8 => of' [0x008, 0x010, 0x020, 0x028, 0x030, 0x040, 0x048, 0x050, 0x060, 0x068] [0x000, 0x018, 0x038, 0x058]
  | 9 => of' [0x008, 0x010, 0x018, 0x080, 0x088, 0x090] ([0x000, 0x020] ++ (List.range 4).map fun w => 0x0A0 + 8 * w)
  | 10 => of' [0x000, 0x008, 0x080, 0x088] [0x010, 0x090, 0x098]
  | 11 => of' [0x000, 0x008, 0x010] [0x018, 0x020]
  | _ => none

/-- BAR0 accepts the function's reads (R505): start-up is complete, or the part is in nursery mode. -/
def readOpen (s : State) : Bool := (s.boot.done || s.boot.nursery) && (s.dom 0x74).state = .on

/-- In nursery mode only the BOOT_ registers and PWR_STAT respond; a function in a Function Level Reset reads zero. -/
def readsZero (s : State) (f off : Nat) : Bool :=
  (s.func f).flr || (s.boot.nursery && !(decide (off < 0x080) || off = 0x2008))

/-- What a read at a register's offset returns. -/
def barRead (s : State) (f off : Nat) : Nat := if readsZero s f off then 0 else registerValue s f off

/-- A 32-bit read by function `f` (R506): of a 64-bit register's lower half it latches the upper half; a read of an upper half
takes the latch, and a read of any other register discards it. -/
def lowRead (f off : Nat) (s : State) : State :=
  let base := off - off % 8
  let v := barRead s f base
  let put := fun (latch : Option (Nat × Word)) (d : Nat) =>
    setFunc s f fun x => { x with latch := latch, readData := BitVec.ofNat 32 d }
  let held := (s.func f).latch
  match registerWidth base with
  | some 64 =>
    if off % 8 = 0 then put (some (base, BitVec.ofNat 32 (v / 2 ^ 32))) v
    else if off % 8 = 4 then
      match held with
      | some (r, w) => put none (if r = base then w.toNat else v / 2 ^ 32)
      | none => put none (v / 2 ^ 32)
    else put held 0
  | some _ => if off % 8 = 0 then put none v else put held 0
  | none => put held 0

def execLowHalfRead (fn : Fn) (offset : BitVec 25) (s : State) : Out := whenever s (readOpen s) (lowRead fn offset.toNat)

end Sys2Proof.Machine
end

