-- ==== Sys2Proof/Machine/Registers.lean ====
section
/-! DEFINITION. Writes of registers (chapter 18): every register's fields by their access types (R10), for the functions that
R508 and R509 name, with the gates of R513, the locks of R441 and the sizes of R506. -/

namespace Sys2Proof.Machine

open Sys2Proof Numeric

/-- The bits of the named fields, each given as lowest bit and width; reserved bits read zero (R11). -/
def keepBits (v : DWord) (fields : List (Nat × Nat)) : Nat := pack (fields.map fun f => (bits64 v f.1 f.2, f.1))

def bit64 (v : DWord) (i : Nat) : Bool := bits64 v i 1 = 1

def low (v : DWord) : Word := BitVec.ofNat 32 (bits64 v 0 32)

/-! ## Windows 0, 2 and 3 -/

/-- BOOT_FW_CMD: ACTIVATE_NOW and ACTIVATE_AT_RESET. STAGE and COMMIT_SVN take what they read from their own rows. -/
def fwCmdWrite (op : Nat) (s : State) : State :=
  if op ≠ 2 ∧ op ≠ 3 then s
  else if fwBusy s then fwResult 0xF0 s
  else if op = 2 then activateNow s else activateAtReset s

def bootStore (o : Nat) (v : DWord) (s : State) : State :=
  match o with
  | 0x038 => bootCtrlWrite (low v) s
  | 0x040 => { s with boot := { s.boot with fwSrc := v } }
  | 0x048 => fwCmdWrite (bits64 v 0 3) s
  | 0x050 => domResetWrite (low v) s
  | 0x080 => { s with boot := { s.boot with calSel := BitVec.ofNat 16 (bits64 v 0 16) } }
  | 0x090 =>
    let id := s.boot.calSel.toNat
    if (calBounds id).isNone then s else setCal id (fun c => { c with pending := BitVec.ofNat 16 (bits64 v 0 16) }) s
  | 0x098 => if bits64 v 0 2 = 1 then startCommit s else if bits64 v 0 2 = 2 then discardPending s else s
  | _ => s

/-- PWR_LIMIT: the first write after a package reset sets BOARD_MAX and locks it (R462). -/
def limitWrite (v : DWord) (s : State) : State :=
  { s with pwr := { s.pwr with
    limit := clampLimit (bits64 v 0 8)
    boardMax := if s.pwr.boardLocked then s.pwr.boardMax else clampLimit (bits64 v 8 8)
    boardLocked := true
    tThrot := BitVec.ofNat 7 (max 85 (min 105 (bits64 v 16 7))) } }

/-- PWR_VF_CFG of the selected island, at PF0's expert level (R459). -/
def vfWrite (v : DWord) (s : State) : State :=
  let d := s.pwr.vfSel.toNat
  if !expert s 0 || !isIsland s d then s
  else { s with pwr := { s.pwr with vfs := Tab.upd Vf.init s.pwr.vfs d fun x => { x with
    voff := BitVec.ofNat 5 (bits64 v 0 5)
    maxStep := if coreDom d then BitVec.ofNat 4 (bits64 v 8 4) else x.maxStep } } }

def powerStore (o : Nat) (v : DWord) (s : State) : State :=
  match o with
  | 0x000 => limitWrite v s
  | 0x008 => { s with pwr := { s.pwr with tripped := s.pwr.tripped && !bit64 v 63 } }
  | 0x010 => domSelWrite (low v) s
  | 0x018 => { s with pwr := { s.pwr with domTarget := BitVec.ofNat 2 (bits64 v 0 2), domAuto := bit64 v 2 } }
  | 0x028 => padsWrite (low v) s
  | 0x030 => { s with pwr := { s.pwr with vfSel := BitVec.ofNat 8 (bits64 v 0 8) } }
  | 0x038 => vfWrite v s
  | 0x040 => { s with pwr := { s.pwr with smbAddr := BitVec.ofNat 7 (bits64 v 0 7), smbEn := bit64 v 7 } }
  | 0x048 => { s with pwr := { s.pwr with wakeTimer := low v } }
  | _ => s

def secStore (o : Nat) (v : DWord) (s : State) : State :=
  match o with
  | 0x000 => tenSelWrite (low v) s
  | 0x008 => { s with sec := { s.sec with tenConf := bit64 v 0 } }
  | 0x010 => kslotWrite (low v) s
  | 0x028 => if s.sec.rkeyBusy then s else rkeyWrite (low v) s
  | _ =>
    if 0x080 ≤ o ∧ o < 0x100 then { s with sec := { s.sec with rkeyBuf := Tab.set 0 s.sec.rkeyBuf ((o - 0x080) / 8) v } } else s

/-! ## Window 4 -/

/-- PCI_FN_CTRL of function `g`, by PF0: ignored in full where it would change a locked TDI's (R441, R513). -/
def fnCtrlWrite (g : Nat) (v : DWord) (s : State) : State :=
  let x := s.func g
  let y := { x with
    expertEn := bit64 v 0
    qmax := BitVec.ofNat 7 (bits64 v 8 7)
    winEn := bit64 v 16 }
  if tdiLocked s g && y != x then s else setFunc s g fun _ => y

/-- A write by function `f` in the set-up block of function `g` (R407, R509). -/
def setupStore (f g o : Nat) (v : DWord) (s : State) : State :=
  match o with
  | 0x008 => if f = 0 then fnCtrlWrite g v s else s
  | 0x010 => queueSelect g (low v) s
  | 0x018 => setFunc s g fun x => { x with sqBase := v }
  | 0x020 => setFunc s g fun x => { x with cqBase := v }
  | 0x028 => setFunc s g fun x => { x with qcfg := BitVec.ofNat 32 (keepBits v [(0, 4), (4, 7), (16, 8), (24, 8)]) }
  | 0x038 => if (s.func g).evq.en then s else setEvq g (fun e => { e with base := v }) s
  | 0x040 => eventConfigure g (low v) s
  | 0x050 => setFunc s g fun x => { x with winSel := BitVec.ofNat 4 (bits64 v 0 4) }
  | _ => s

/-! ## Windows 5 to 8 -/

/-- LFL_COST of the tenant that the function reaches, while that tenant's EXPERT_EN is 1 (R322). -/
def costWrite (f : Nat) (v : DWord) (s : State) : State :=
  let t := costTenant s f
  if t = 0 ∨ !expert s t then s
  else setTenant s t fun x => { x with
    pfScale := BitVec.ofNat 12 (bits64 v 0 12)
    stepScale := BitVec.ofNat 12 (bits64 v 16 12)
    noMeas := bit64 v 28
    specGain := BitVec.ofNat 4 (bits64 v 32 4) }

def liftlineStore (f o : Nat) (v : DWord) (s : State) : State :=
  if o = 0x050 then costWrite f v s
  else if o = 0x058 then versionSelect f (low v) s
  else if f ≠ 0 then s
  else match o with
  | 0x000 => { s with lfl := { s.lfl with idleMs := BitVec.ofNat 16 (bits64 v 0 16) } }
  | 0x008 => ctxSelWrite (low v) s
  | 0x020 => partitionWrite (low v) s
  | 0x028 => if s.lfl.partSel = 0 then s else { s with lfl := { s.lfl with partCores := v } }
  | 0x030 => if s.lfl.partSel = 0 then s
    else { s with lfl := { s.lfl with partSram := BitVec.ofNat 64 (keepBits v [(0, 14), (16, 14), (32, 14)]) } }
  | 0x038 => if s.lfl.partSel = 0 then s
    else { s with lfl := { s.lfl with partCfg := BitVec.ofNat 64 (keepBits v [(0, 20), (20, 11), (32, 1), (33, 1)]) } }
  | 0x040 => if s.lfl.partSel = 0 then s
    else { s with lfl := { s.lfl with budgetCfg := BitVec.ofNat 64 (keepBits v [(0, 24), (32, 24)]) } }
  | 0x048 => { s with lfl := { s.lfl with
      slack := BitVec.ofNat 6 (bits64 v 0 6)
      commonBase := BitVec.ofNat 14 (bits64 v 16 14)
      commonSize := BitVec.ofNat 14 (bits64 v 32 14) } }
  | _ => s

def kvStore (o : Nat) (v : DWord) (s : State) : State :=
  match o with
  | 0x000 => kvPoolWrite v s
  | 0x008 => kvTenantWrite (low v) s
  | 0x010 => { s with lfl := { s.lfl with tenCfg := BitVec.ofNat 64 (keepBits v [(0, 16), (16, 18), (40, 7)]) } }
  | 0x018 => { s with lfl := { s.lfl with tenApp := BitVec.ofNat 64 (keepBits v [(0, 14), (16, 14), (32, 3)]) } }
  | _ => s

/-- GDL_TENANT_CFG: ignored in full where it would change a locked tenant's bits (R441, R513). -/
def tenantCfgWrite (v : DWord) (s : State) : State :=
  let snow := BitVec.ofNat 15 (bits64 v 1 15)
  let share := BitVec.ofNat 15 (bits64 v 17 15)
  let changes := fun i => snow.getLsbD i != s.gdl.snowEn.getLsbD i || share.getLsbD i != s.gdl.share.getLsbD i
  if (List.range 15).any fun i => changes i && tdiLocked s (i + 1) then s
  else { s with gdl := { s.gdl with snowEn := snow, share := share } }

/-- DDR_LANE_DLY of the selected lane, at PF0's expert level (R249). -/
def laneWrite (v : DWord) (s : State) : State :=
  if !expert s 0 then s
  else
    let g := fun (x : LaneDelay) => { x with
      rd := BitVec.ofNat 7 (bits64 v 0 7)
      wr := BitVec.ofNat 7 (bits64 v 8 7)
      mode := bit64 v 15 }
    setChan s.ddr.chSel.toNat (fun k =>
      if s.ddr.laneSel then { k with lane1 := g k.lane1 } else { k with lane0 := g k.lane0 }) s

def dramStore (o : Nat) (v : DWord) (s : State) : State :=
  match o with
  | 0x008 => regionSelect (low v) s
  | 0x010 => { s with gdl := { s.gdl with rgnSpan := low v } }
  | 0x018 => { s with gdl := { s.gdl with
      rgnAttr := BitVec.ofNat 64 (keepBits v [(0, 3), (3, 1), (4, 1), (8, 4), (12, 7), (33, 15)]) } }
  | 0x020 => { s with ddr := { s.ddr with periodS := BitVec.ofNat 16 (bits64 v 0 16), tempDelta := BitVec.ofNat 8 (bits64 v 16 8) } }
  | 0x028 => { s with ddr := { s.ddr with chSel := BitVec.ofNat 5 (bits64 v 0 5), laneSel := bit64 v 5 } }
  | 0x030 => laneWrite v s
  | 0x040 => { s with ddr := { s.ddr with prob := BitVec.ofNat 3 (bits64 v 0 3), patrolH := BitVec.ofNat 8 (bits64 v 8 8) } }
  | 0x050 => accountSelect (low v) s
  | 0x058 => { s with ddr := { s.ddr with regCfg := BitVec.ofNat 64 (keepBits v [(0, 10), (10, 2), (16, 5), (32, 16)]) } }
  | 0x060 => { s with ddr := { s.ddr with keepR0 := BitVec.ofNat 8 (bits64 v 0 8), keepR1 := BitVec.ofNat 8 (bits64 v 8 8) } }
  | _ => s

/-! ## Windows 9 to 11 and the cores -/

def flashStore (o : Nat) (v : DWord) (s : State) : State :=
  match o with
  | 0x008 => { s with flt := { s.flt with suspMin := BitVec.ofNat 16 (bits64 v 0 16), retryMax := BitVec.ofNat 5 (bits64 v 16 5) } }
  | 0x010 => blockSelect (low v) s
  | 0x080 => { s with efl := { s.efl with
      fail := s.efl.fail && !bit64 v 2
      reprog := s.efl.reprog && !bit64 v 3
      lock := s.efl.lock && !bit64 v 4
      busyErr := s.efl.busyErr && !bit64 v 5 } }
  | _ => s

def streamStore (f o : Nat) (v : DWord) (s : State) : State :=
  if o = 0 then ctxSelectWrite f (low v) s
  else if f ≠ 0 then s
  else match o with
  | 0x008 => { s with sfe := { s.sfe with ctxCfg := BitVec.ofNat 32 (keepBits v [(0, 4), (4, 3), (8, 5), (16, 7)]) } }
  | 0x080 => { s with sfe := { s.sfe with csiPort := BitVec.ofNat 2 (bits64 v 0 2), csiVc := bit64 v 2 } }
  | 0x088 => setCsiPort s.sfe.csiPort.toNat (fun p => { p with
      en := bit64 v 0
      lanes := BitVec.ofNat 2 (bits64 v 1 2)
      rate := BitVec.ofNat 12 (bits64 v 4 12) }) s
  | 0x090 => { s with sfe := { s.sfe with vcs := Tab.set CsiVc.init s.sfe.vcs (chosenVc s) {
      en := bit64 v 0
      vcid := BitVec.ofNat 2 (bits64 v 1 2)
      dt := BitVec.ofNat 6 (bits64 v 3 6)
      width := BitVec.ofNat 12 (bits64 v 9 12)
      height := BitVec.ofNat 12 (bits64 v 21 12) } } }
  | _ => s

def ringStore (o : Nat) (v : DWord) (s : State) : State :=
  match o with
  | 0x000 => trgWrite (low v) s
  | 0x008 => setTrg (fun r => { r with mapSel := BitVec.ofNat 5 (bits64 v 0 5) }) s
  | 0x010 => setTrg (fun r => { r with mapCfg := Tab.set MapCfg.zero r.mapCfg r.mapSel.toNat {
      node := BitVec.ofNat 16 (bits64 v 0 16)
      en := bit64 v 16
      enc := bit64 v 17
      key := BitVec.ofNat 2 (bits64 v 18 2) } }) s
  | _ => s

/-- CORE_FAULT's marks are cleared by writing 1. -/
def clearFaults (v : DWord) (f : CoreFault) : CoreFault :=
  { f with
    ueCtrl := f.ueCtrl && !bit64 v 0
    ueBank := f.ueBank && !bit64 v 1
    ceRate := f.ceRate && !bit64 v 2
    creditStall := f.creditStall && !bit64 v 3
    poison := f.poison && !bit64 v 4 }

def coreStore (f n o : Nat) (v : DWord) (s : State) : State :=
  let own := coreUp s n && (f = 0 || (s.core n).owner = f)
  if !coreExists s n then s
  else match o with
  | 0x008 => if f = 0 then updCore s n fun k => { k with fault := clearFaults v k.fault } else s
  | 0x028 => if own && bit64 v 0 then clearNumeric n s else s
  | 0x038 => if own && bit64 v 0 then clearArray n s else s
  | 0x048 => if f = 0 && coreUp s n then regionSelWrite n (low v) s else s
  | _ => s

/-! ## The whole map -/

/-- A write of all of the register at offset `off`, a multiple of 8. -/
def registerStore (f off : Nat) (v : DWord) (s : State) : State :=
  let o := off % 0x1000
  let pf0 := fun (g : State → State) => if f = 0 then g s else s
  if 0x100000 ≤ off ∧ off < 0x140000 then coreStore f (off / 0x1000 - 0x100) o v s
  else match off / 0x1000 with
  | 0 => pf0 (bootStore o v)
  | 1 => if o = 0 then pf0 (audSelectWrite (low v)) else s
  | 2 => pf0 (powerStore o v)
  | 3 => pf0 (secStore o v)
  | 4 => if o = 0 then pf0 fun s => { s with pci := { s.pci with fnSel := BitVec.ofNat 4 (bits64 v 0 4) } }
    else setupStore f (setupFn s f) o v s
  | 5 => liftlineStore f o v s
  | 6 => pf0 (kvStore o v)
  | 7 => if o = 0 then pf0 (tenantCfgWrite v) else s
  | 8 => pf0 (dramStore o v)
  | 9 => pf0 (flashStore o v)
  | 10 => streamStore f o v s
  | 11 => pf0 (ringStore o v)
  | _ => s

/-- BAR0 accepts the function's write at an offset (R505). -/
def writeOpen (s : State) (f off : Nat) : Bool := if off < 0x080 then bootOpen s f else bar0Open s f

/-- What a 32-bit write of one half leaves in the other: the register's value, zero where bits clear by writing 1, and the stored
bytes where the register reads zero. -/
def otherHalf (s : State) (f off : Nat) : Nat :=
  if off = 0x2008 then 0
  else if 0x3080 ≤ off ∧ off < 0x3100 then (Tab.get 0 s.sec.rkeyBuf ((off - 0x3080) / 8)).toNat
  else registerValue s f off

/-- What a write of `size` bytes makes of the register it meets: its offset and the whole new value (R506). -/
def wholeWrite (s : State) (f off size : Nat) (v : DWord) : Option (Nat × DWord) :=
  let base := off - off % 8
  let old := otherHalf s f base
  match registerWidth base with
  | none => none
  | some w =>
    if size = 8 ∧ off % 8 = 0 then some (base, v)
    else if size = 4 ∧ off % 8 = 0 then
      some (base, BitVec.ofNat 64 (if w = 64 then old / 2 ^ 32 * 2 ^ 32 + bits64 v 0 32 else bits64 v 0 32))
    else if size = 4 ∧ off % 8 = 4 ∧ w = 64 then some (base, BitVec.ofNat 64 (bits64 v 0 32 * 2 ^ 32 + old % 2 ^ 32))
    else none

def execRegisterWrite (fn : Fn) (offset : BitVec 25) (size : Byte) (v : DWord) (s : State) : Out :=
  regWrite s (writeOpen s fn offset.toNat) fun s =>
    match wholeWrite s fn offset.toNat size.toNat v with
    | some w => registerStore fn w.1 w.2 s
    | none => s

end Sys2Proof.Machine
end

