-- ==== Sys2Proof/Machine/Dispatch.lean ====
section
/-! DEFINITION. The meaning of every command: one arm per constructor of `Instr`. -/

namespace Sys2Proof.Machine

open Sys2Proof

def exec (i : Instr) (s : State) : Host.Outcome State Fault Refusal :=
  match i with
  | .flitReplay dir lane => Sys2Proof.Machine.execFlitReplay dir lane s
  | .laneGroupFence bridge lane => Sys2Proof.Machine.execLaneGroupFence bridge lane s
  | .audSelectWrite fn v => Sys2Proof.Machine.execAudSelectWrite fn v s
  | .jobStart core => Sys2Proof.Machine.execJobStart core s
  | .programLoadLand core => Sys2Proof.Machine.execProgramLoadLand core s
  | .jobFirstDecode core => Sys2Proof.Machine.execJobFirstDecode core s
  | .endOp core ph => Sys2Proof.Machine.execEndOp core ph s
  | .jobComplete core => Sys2Proof.Machine.execJobComplete core s
  | .nop core ph => Sys2Proof.Machine.execNop core ph s
  | .fetch core => Sys2Proof.Machine.execFetch core s
  | .fetchRowLand core xfer f => Sys2Proof.Machine.execFetchRowLand core xfer f s
  | .fwait core => Sys2Proof.Machine.execFwait core s
  | .matmul core ph => Sys2Proof.Machine.execMatmul core ph s
  | .planeLoad core => Sys2Proof.Machine.execPlaneLoad core s
  | .rowSlotAdmit core idle => Sys2Proof.Machine.execRowSlotAdmit core idle s
  | .rampFall core cycles => Sys2Proof.Machine.execRampFall core cycles s
  | .drain core ph => Sys2Proof.Machine.execDrain core ph s
  | .gfn core ph => Sys2Proof.Machine.execGfn core ph s
  | .gadd core ph => Sys2Proof.Machine.execGadd core ph s
  | .gsub core ph => Sys2Proof.Machine.execGsub core ph s
  | .gmul core ph => Sys2Proof.Machine.execGmul core ph s
  | .gmax core ph => Sys2Proof.Machine.execGmax core ph s
  | .grsum core ph => Sys2Proof.Machine.execGrsum core ph s
  | .grmax core ph => Sys2Proof.Machine.execGrmax core ph s
  | .gquant core ph => Sys2Proof.Machine.execGquant core ph s
  | .gscale core ph => Sys2Proof.Machine.execGscale core ph s
  | .move core ph => Sys2Proof.Machine.execMove core ph s
  | .transpose core ph => Sys2Proof.Machine.execTranspose core ph s
  | .store core ph => Sys2Proof.Machine.execStore core ph s
  | .storeAck core => Sys2Proof.Machine.execStoreAck core s
  | .wait core ph => Sys2Proof.Machine.execWait core ph s
  | .signal core ph => Sys2Proof.Machine.execSignal core ph s
  | .signalIncrementArrive core => Sys2Proof.Machine.execSignalIncrementArrive core s
  | .signalAck core => Sys2Proof.Machine.execSignalAck core s
  | .fence core ph => Sys2Proof.Machine.execFence core ph s
  | .reside core ph => Sys2Proof.Machine.execReside core ph s
  | .unreside core ph => Sys2Proof.Machine.execUnreside core ph s
  | .loop core => Sys2Proof.Machine.execLoop core s
  | .seti core => Sys2Proof.Machine.execSeti core s
  | .creditStall core => Sys2Proof.Machine.execCreditStall core s
  | .coreSelfFence core cause => Sys2Proof.Machine.execCoreSelfFence core cause s
  | .spmRegionSelWrite fn core v => Sys2Proof.Machine.execSpmRegionSelWrite fn core v s
  | .coreNumClrWrite fn core v => Sys2Proof.Machine.execCoreNumClrWrite fn core v s
  | .arrStatClrWrite fn core v => Sys2Proof.Machine.execArrStatClrWrite fn core v s
  | .chunkJobDispatch inst => Sys2Proof.Machine.execChunkJobDispatch inst s
  | .batchWindowExpiry inst => Sys2Proof.Machine.execBatchWindowExpiry inst s
  | .chunkJobComplete job => Sys2Proof.Machine.execChunkJobComplete job s
  | .memberCommit job => Sys2Proof.Machine.execMemberCommit job s
  | .idleTimeout ctx => Sys2Proof.Machine.execIdleTimeout ctx s
  | .swapOutComplete ctx => Sys2Proof.Machine.execSwapOutComplete ctx s
  | .swapInComplete ctx => Sys2Proof.Machine.execSwapInComplete ctx s
  | .resetMark ctx => Sys2Proof.Machine.execResetMark ctx s
  | .contextCloseDone ctx => Sys2Proof.Machine.execContextCloseDone ctx s
  | .lflCtxSelWrite fn v => Sys2Proof.Machine.execLflCtxSelWrite fn v s
  | .regionApply fn v => Sys2Proof.Machine.execRegionApply fn v s
  | .tileReadStart pass => Sys2Proof.Machine.execTileReadStart pass s
  | .tableSlotLoad pass table => Sys2Proof.Machine.execTableSlotLoad pass table s
  | .tableSlotLoadDone slot => Sys2Proof.Machine.execTableSlotLoadDone slot s
  | .expanderBlockAccept entry blk => Sys2Proof.Machine.execExpanderBlockAccept entry blk s
  | .blockDecodeDone expander => Sys2Proof.Machine.execBlockDecodeDone expander s
  | .tileComplete entry => Sys2Proof.Machine.execTileComplete entry s
  | .tileCopyDepart entry half => Sys2Proof.Machine.execTileCopyDepart entry half s
  | .tileDeadline pass layer tile half => Sys2Proof.Machine.execTileDeadline pass layer tile half s
  | .fallbackTileReady pass layer tile half => Sys2Proof.Machine.execFallbackTileReady pass layer tile half s
  | .tableBuildComplete job => Sys2Proof.Machine.execTableBuildComplete job s
  | .dramAccessGrant port acct line k write => Sys2Proof.Machine.execDramAccessGrant port acct line k write s
  | .dramAccessComplete port findings => Sys2Proof.Machine.execDramAccessComplete port findings s
  | .tokenRefill => Sys2Proof.Machine.execTokenRefill s
  | .wheelSlot ch => Sys2Proof.Machine.execWheelSlot ch s
  | .patrolScrub findings => Sys2Proof.Machine.execPatrolScrub findings s
  | .neighbourRefreshIssue ch bank => Sys2Proof.Machine.execNeighbourRefreshIssue ch bank s
  | .lfsrReseed seeds => Sys2Proof.Machine.execLfsrReseed seeds s
  | .retrainPeriodExpiry => Sys2Proof.Machine.execRetrainPeriodExpiry s
  | .tempDeltaRetrain => Sys2Proof.Machine.execTempDeltaRetrain s
  | .retrainChannelDone sweeps => Sys2Proof.Machine.execRetrainChannelDone sweeps s
  | .accountApply fn v => Sys2Proof.Machine.execAccountApply fn v s
  | .pairFailing pair => Sys2Proof.Machine.execPairFailing pair s
  | .flashProgram sub block first pages host => Sys2Proof.Machine.execFlashProgram sub block first pages host s
  | .flashSeal sub block => Sys2Proof.Machine.execFlashSeal sub block s
  | .flashRetire sub block => Sys2Proof.Machine.execFlashRetire sub block s
  | .flashErase sub blocks => Sys2Proof.Machine.execFlashErase sub blocks s
  | .flashDirect sub block first pages host raw => Sys2Proof.Machine.execFlashDirect sub block first pages host raw s
  | .flashFormat sub confirm => Sys2Proof.Machine.execFlashFormat sub confirm s
  | .journalPageProgrammed ch passed => Sys2Proof.Machine.execJournalPageProgrammed ch passed s
  | .eraseDeviceDone block ok => Sys2Proof.Machine.execEraseDeviceDone block ok s
  | .eraseSuspend ch lun => Sys2Proof.Machine.execEraseSuspend ch lun s
  | .flashPageReadDone ch lun tries => Sys2Proof.Machine.execFlashPageReadDone ch lun tries s
  | .flashTierBringup rep => Sys2Proof.Machine.execFlashTierBringup rep s
  | .fltBlkSelWrite fn v => Sys2Proof.Machine.execFltBlkSelWrite fn v s
  | .eflProgram v data => Sys2Proof.Machine.execEflProgram v data s
  | .eflErase v => Sys2Proof.Machine.execEflErase v s
  | .eflOpDone bank pulses passed => Sys2Proof.Machine.execEflOpDone bank pulses passed s
  | .eflRead src line f => Sys2Proof.Machine.execEflRead src line f s
  | .partitionApply fn v => Sys2Proof.Machine.execPartitionApply fn v s
  | .generate sub req => Sys2Proof.Machine.execGenerate sub req s
  | .gangDispatch w => Sys2Proof.Machine.execGangDispatch w s
  | .passComplete job => Sys2Proof.Machine.execPassComplete job s
  | .jobTimeout job => Sys2Proof.Machine.execJobTimeout job s
  | .requestComplete req => Sys2Proof.Machine.execRequestComplete req s
  | .ledgerRefill => Sys2Proof.Machine.execLedgerRefill s
  | .lflVerSelWrite fn v => Sys2Proof.Machine.execLflVerSelWrite fn v s
  | .kvmPoolCfgWrite fn v => Sys2Proof.Machine.execKvmPoolCfgWrite fn v s
  | .kvTenantApply fn v => Sys2Proof.Machine.execKvTenantApply fn v s
  | .contextGrantApply fn v => Sys2Proof.Machine.execContextGrantApply fn v s
  | .csiPacket port p => Sys2Proof.Machine.execCsiPacket port p s
  | .imageFrameDelivered ctx => Sys2Proof.Machine.execImageFrameDelivered ctx s
  | .audioFrame ctx => Sys2Proof.Machine.execAudioFrame ctx s
  | .ringFrameReceive syms lat => Sys2Proof.Machine.execRingFrameReceive syms lat s
  | .ringFrameTransmit => Sys2Proof.Machine.execRingFrameTransmit s
  | .trgModeWrite fn v => Sys2Proof.Machine.execTrgModeWrite fn v s
  | .ringWrite sub slot words => Sys2Proof.Machine.execRingWrite sub slot words s
  | .trgKeyWrite key word v => Sys2Proof.Machine.execTrgKeyWrite key word v s
  | .sqTail fn q v => Sys2Proof.Machine.execSqTail fn q v s
  | .cqHead fn q v => Sys2Proof.Machine.execCqHead fn q v s
  | .evHead fn v => Sys2Proof.Machine.execEvHead fn v s
  | .commandTake entry => Sys2Proof.Machine.execCommandTake entry s
  | .completionPost fn q => Sys2Proof.Machine.execCompletionPost fn q s
  | .interruptSignal fn q => Sys2Proof.Machine.execInterruptSignal fn q s
  | .eventPost fn => Sys2Proof.Machine.execEventPost fn s
  | .queueCreate fn v => Sys2Proof.Machine.execQueueCreate fn v s
  | .queueDelete fn v => Sys2Proof.Machine.execQueueDelete fn v s
  | .eventQueueEnable fn v => Sys2Proof.Machine.execEventQueueEnable fn v s
  | .eventQueueDisable fn v => Sys2Proof.Machine.execEventQueueDisable fn v s
  | .functionLevelReset fn => Sys2Proof.Machine.execFunctionLevelReset fn s
  | .hotReset => Sys2Proof.Machine.execHotReset s
  | .linkTrain partner => Sys2Proof.Machine.execLinkTrain partner s
  | .linkL1Exit => Sys2Proof.Machine.execLinkL1Exit s
  | .run sub req => Sys2Proof.Machine.execRun sub req s
  | .stateSwap sub ctx => Sys2Proof.Machine.execStateSwap sub ctx s
  | .streamOpen sub ctx handle record => Sys2Proof.Machine.execStreamOpen sub ctx handle record s
  | .streamClose sub ctx flush => Sys2Proof.Machine.execStreamClose sub ctx flush s
  | .streamPush sub ctx data => Sys2Proof.Machine.execStreamPush sub ctx data s
  | .streamMark sub ctx => Sys2Proof.Machine.execStreamMark sub ctx s
  | .bind sub slot handle => Sys2Proof.Machine.execBind sub slot handle s
  | .replace sub slot handle => Sys2Proof.Machine.execReplace sub slot handle s
  | .unbind sub slot => Sys2Proof.Machine.execUnbind sub slot s
  | .activate sub handle => Sys2Proof.Machine.execActivate sub handle s
  | .discard sub handle => Sys2Proof.Machine.execDiscard sub handle s
  | .resideLoad sub core first countM1 addr => Sys2Proof.Machine.execResideLoad sub core first countM1 addr s
  | .resideRelease sub core first countM1 => Sys2Proof.Machine.execResideRelease sub core first countM1 s
  | .ingest sub req => Sys2Proof.Machine.execIngest sub req s
  | .ingestShard sub req => Sys2Proof.Machine.execIngestShard sub req s
  | .shardStaged job shard data => Sys2Proof.Machine.execShardStaged job shard data s
  | .shardVerifyDone job shard => Sys2Proof.Machine.execShardVerifyDone job shard s
  | .ingestTimeout job => Sys2Proof.Machine.execIngestTimeout job s
  | .winOpen sub window stg offset => Sys2Proof.Machine.execWinOpen sub window stg offset s
  | .winClose sub window => Sys2Proof.Machine.execWinClose sub window s
  | .windowWrite fn offset data => Sys2Proof.Machine.execWindowWrite fn offset data s
  | .suspend sub target fn => Sys2Proof.Machine.execSuspend sub target fn s
  | .resume sub target fn => Sys2Proof.Machine.execResume sub target fn s
  | .cancel sub target fn => Sys2Proof.Machine.execCancel sub target fn s
  | .ddrRetrain sub => Sys2Proof.Machine.execDdrRetrain sub s
  | .doeDiscovery fn index => Sys2Proof.Machine.execDoeDiscovery fn index s
  | .getVersion fn => Sys2Proof.Machine.execGetVersion fn s
  | .getCapabilities fn flags => Sys2Proof.Machine.execGetCapabilities fn flags s
  | .negotiateAlgorithms fn offersAll => Sys2Proof.Machine.execNegotiateAlgorithms fn offersAll s
  | .getDigests fn => Sys2Proof.Machine.execGetDigests fn s
  | .getCertificate fn slot off len => Sys2Proof.Machine.execGetCertificate fn slot off len s
  | .challenge fn slot nonce => Sys2Proof.Machine.execChallenge fn slot nonce s
  | .getMeasurements fn index signed nonce => Sys2Proof.Machine.execGetMeasurements fn index signed nonce s
  | .keyExchange fn slot reqSession exchange => Sys2Proof.Machine.execKeyExchange fn slot reqSession exchange s
  | .finish fn session hmacOk => Sys2Proof.Machine.execFinish fn session hmacOk s
  | .heartbeat fn session => Sys2Proof.Machine.execHeartbeat fn session s
  | .keyUpdate fn session op => Sys2Proof.Machine.execKeyUpdate fn session op s
  | .endSession fn session => Sys2Proof.Machine.execEndSession fn session s
  | .respondIfReady fn code token => Sys2Proof.Machine.execRespondIfReady fn code token s
  | .ideKmQuery session port => Sys2Proof.Machine.execIdeKmQuery session port s
  | .keyProg session stream keySet sub key => Sys2Proof.Machine.execKeyProg session stream keySet sub key s
  | .kSetGo session stream keySet sub => Sys2Proof.Machine.execKSetGo session stream keySet sub s
  | .kSetStop session stream keySet sub => Sys2Proof.Machine.execKSetStop session stream keySet sub s
  | .ideIntegrityFail stream => Sys2Proof.Machine.execIdeIntegrityFail stream s
  | .getTdispVersion session => Sys2Proof.Machine.execGetTdispVersion session s
  | .getTdispCapabilities session => Sys2Proof.Machine.execGetTdispCapabilities session s
  | .lockInterfaceRequest session tdi stream => Sys2Proof.Machine.execLockInterfaceRequest session tdi stream s
  | .getDeviceInterfaceReport session tdi => Sys2Proof.Machine.execGetDeviceInterfaceReport session tdi s
  | .getDeviceInterfaceState session tdi => Sys2Proof.Machine.execGetDeviceInterfaceState session tdi s
  | .startInterfaceRequest session tdi nonce => Sys2Proof.Machine.execStartInterfaceRequest session tdi nonce s
  | .stopInterfaceRequest session tdi => Sys2Proof.Machine.execStopInterfaceRequest session tdi s
  | .tenantConfApply fn v => Sys2Proof.Machine.execTenantConfApply fn v s
  | .keySlotGenerate fn v => Sys2Proof.Machine.execKeySlotGenerate fn v s
  | .keySlotDestroy fn v => Sys2Proof.Machine.execKeySlotDestroy fn v s
  | .ringKeyInstall fn v => Sys2Proof.Machine.execRingKeyInstall fn v s
  | .ringKeyUnwrapped key => Sys2Proof.Machine.execRingKeyUnwrapped key s
  | .ringKeyRemove fn v => Sys2Proof.Machine.execRingKeyRemove fn v s
  | .debugToken tok => Sys2Proof.Machine.execDebugToken tok s
  | .debugAccess target write => Sys2Proof.Machine.execDebugAccess target write s
  | .idcode => Sys2Proof.Machine.execIdcode s
  | .bypass => Sys2Proof.Machine.execBypass s
  | .boundaryScan => Sys2Proof.Machine.execBoundaryScan s
  | .estimatorWindow rep => Sys2Proof.Machine.execEstimatorWindow rep s
  | .capDecision => Sys2Proof.Machine.execCapDecision s
  | .coreStepSettle core => Sys2Proof.Machine.execCoreStepSettle core s
  | .powerTick measured => Sys2Proof.Machine.execPowerTick measured s
  | .vinFault => Sys2Proof.Machine.execVinFault s
  | .thermalTrip => Sys2Proof.Machine.execThermalTrip s
  | .domainStateApply fn v => Sys2Proof.Machine.execDomainStateApply fn v s
  | .domainTransitionDone dom => Sys2Proof.Machine.execDomainTransitionDone dom s
  | .autoWake dom => Sys2Proof.Machine.execAutoWake dom s
  | .padRelease fn v => Sys2Proof.Machine.execPadRelease fn v s
  | .smbusAddressMatch addr => Sys2Proof.Machine.execSmbusAddressMatch addr s
  | .smbStatus => Sys2Proof.Machine.execSmbStatus s
  | .smbTemp => Sys2Proof.Machine.execSmbTemp s
  | .smbPower => Sys2Proof.Machine.execSmbPower s
  | .smbLimitRead => Sys2Proof.Machine.execSmbLimitRead s
  | .smbLimitWrite v => Sys2Proof.Machine.execSmbLimitWrite v s
  | .smbNursery => Sys2Proof.Machine.execSmbNursery s
  | .smbWake v => Sys2Proof.Machine.execSmbWake v s
  | .smbReset v => Sys2Proof.Machine.execSmbReset v s
  | .wakeTimerExpiry => Sys2Proof.Machine.execWakeTimerExpiry s
  | .packageReset causes => Sys2Proof.Machine.execPackageReset causes s
  | .startSequence rep => Sys2Proof.Machine.execStartSequence rep s
  | .startTimeout => Sys2Proof.Machine.execStartTimeout s
  | .doneHoldExpiry => Sys2Proof.Machine.execDoneHoldExpiry s
  | .firmwareCopy sigA => Sys2Proof.Machine.execFirmwareCopy sigA s
  | .watchdogExpiry => Sys2Proof.Machine.execWatchdogExpiry s
  | .stage fn v rep => Sys2Proof.Machine.execStage fn v rep s
  | .activateNow fn v => Sys2Proof.Machine.execActivateNow fn v s
  | .activateAtReset fn v => Sys2Proof.Machine.execActivateAtReset fn v s
  | .commitSvn fn v sigA sigB => Sys2Proof.Machine.execCommitSvn fn v sigA sigB s
  | .firmwareOpComplete flashOk => Sys2Proof.Machine.execFirmwareOpComplete flashOk s
  | .bootResetRequest fn v => Sys2Proof.Machine.execBootResetRequest fn v s
  | .domainReset fn v => Sys2Proof.Machine.execDomainReset fn v s
  | .heldPhaseEnd rep => Sys2Proof.Machine.execHeldPhaseEnd rep s
  | .calCommit fn v => Sys2Proof.Machine.execCalCommit fn v s
  | .calDiscard fn v => Sys2Proof.Machine.execCalDiscard fn v s
  | .calCommitDone ok => Sys2Proof.Machine.execCalCommitDone ok s
  | .lowHalfRead fn offset => Sys2Proof.Machine.execLowHalfRead fn offset s
  | .registerWrite fn offset size v => Sys2Proof.Machine.execRegisterWrite fn offset size v s
  | .expectedSyncMissed => Sys2Proof.Machine.execExpectedSyncMissed s
  | .linkL1Entry => Sys2Proof.Machine.execLinkL1Entry s
  | .devicePageProgramDone block ok data => Sys2Proof.Machine.execDevicePageProgramDone block ok data s
  | .functionLevelResetComplete fn => Sys2Proof.Machine.execFunctionLevelResetComplete fn s

end Sys2Proof.Machine
end

