-- ==== Sys2Proof/Safety.lean ====
section
/-! DEFINITION. What counts as a safe run: memories in canonical form, fences and latched faults that stay until a package
reset, and the promises that hold from one state to a later one whatever command runs between them. -/

namespace Sys2Proof.Machine

open Sys2Proof Numeric

/-- Every byte memory of the part is in canonical form. -/
def MemOk (s : State) : Prop := Memory.wf s.mem = true

/-- Every unit that is fenced in `a` is fenced in `b` (R41, R44, R45). -/
structure Fences.Within (a b : Fences) : Prop where
  cores : ∀ i, a.cores.getLsbD i = true → b.cores.getLsbD i = true
  pairs : ∀ i, a.pairs.getLsbD i = true → b.pairs.getLsbD i = true
  csi : ∀ i, a.csi.getLsbD i = true → b.csi.getLsbD i = true
  pci : ∀ i, a.pci.getLsbD i = true → b.pci.getLsbD i = true
  brC0 : ∀ i, a.brC0.getLsbD i = true → b.brC0.getLsbD i = true
  brC1 : ∀ i, a.brC1.getLsbD i = true → b.brC1.getLsbD i = true
  brX : ∀ i, a.brX.getLsbD i = true → b.brX.getLsbD i = true
  half : ∀ i, a.half.getLsbD i = true → b.half.getLsbD i = true

/-- What holds of a later state `s` whatever ran since `o`: memories still in canonical form, the same commands waiting, the
same fuses. -/
structure Calm (o s : State) : Prop where
  mem : MemOk o → MemOk s
  pending : s.pending = o.pending
  fuses : s.fuses = o.fuses

/-- What holds besides, unless the part has been reset and has not started again (BOOT_STATUS.DONE is 0): fences stay (R44),
a fatal condition stays (R50, R503), and the first conservation fault stays as captured (R50). -/
structure Kept (o s : State) : Prop extends Calm o s where
  fences : s.boot.done = true → Fences.Within o.fences s.fences
  fatal : s.boot.done = true → o.boot.fatal = true → s.boot.fatal = true
  audit : s.boot.done = true → o.audit.fault = true →
    s.audit.fault = true ∧ s.audit.faultPool = o.audit.faultPool ∧ s.audit.faultInst = o.audit.faultInst

/-! ## The terms of the statements -/

/-- The blocks of the state. -/
inductive Block where
  | cores
  | mem
  | fences
  | bridges
  | audit
  | gdl
  | ddr
  | flt
  | efl
  | lfl
  | sfe
  | trg
  | pci
  | sec
  | pwr
  | boot
  | fuses
  | pins
  | timer
  | free
  | pending
deriving DecidableEq, Repr

/-- Only the blocks that `B` names have changed from `o` to `s`. -/
structure Confined (B : Block → Prop) (o s : State) : Prop where
  cores : B .cores ∨ s.cores = o.cores
  mem : B .mem ∨ s.mem = o.mem
  fences : B .fences ∨ s.fences = o.fences
  bridges : B .bridges ∨ s.bridges = o.bridges
  audit : B .audit ∨ s.audit = o.audit
  gdl : B .gdl ∨ s.gdl = o.gdl
  ddr : B .ddr ∨ s.ddr = o.ddr
  flt : B .flt ∨ s.flt = o.flt
  efl : B .efl ∨ s.efl = o.efl
  lfl : B .lfl ∨ s.lfl = o.lfl
  sfe : B .sfe ∨ s.sfe = o.sfe
  trg : B .trg ∨ s.trg = o.trg
  pci : B .pci ∨ s.pci = o.pci
  sec : B .sec ∨ s.sec = o.sec
  pwr : B .pwr ∨ s.pwr = o.pwr
  boot : B .boot ∨ s.boot = o.boot
  fuses : B .fuses ∨ s.fuses = o.fuses
  pins : B .pins ∨ s.pins = o.pins
  timer : B .timer ∨ s.timer = o.timer
  free : B .free ∨ s.free = o.free
  pending : B .pending ∨ s.pending = o.pending

/-- The blocks that a command may change. `free` is the model's count of the free values it has drawn. -/
def touched : Instr → List Block
  | .flitReplay .. => [.bridges, .free]
  | .laneGroupFence .. => [.cores, .mem, .fences, .bridges, .lfl, .pci, .pwr, .free]
  | .audSelectWrite .. => [.audit]
  | .jobStart .. | .jobComplete .. | .jobTimeout .. => [.cores, .mem, .lfl, .pci]
  | .programLoadLand .. | .drain .. | .gfn .. | .gadd .. | .gsub .. | .gmul .. | .gmax .. | .grsum .. | .grmax ..
  | .gquant .. | .gscale .. | .move .. | .transpose .. | .unreside .. => [.cores, .mem, .free]
  | .jobFirstDecode .. | .planeLoad .. | .rampFall .. | .creditStall .. | .spmRegionSelWrite .. | .coreNumClrWrite ..
  | .arrStatClrWrite .. | .coreStepSettle .. => [.cores]
  | .endOp .. | .nop .. | .fwait .. | .matmul .. | .wait .. | .signal .. | .signalIncrementArrive .. | .fence ..
  | .reside .. | .loop .. | .seti .. => [.cores, .free]
  | .fetch .. => [.cores, .audit, .pci, .boot, .free]
  | .fetchRowLand .. | .gangDispatch .. => [.cores, .mem, .gdl, .lfl, .pci, .free]
  | .rowSlotAdmit .. => [.cores, .lfl, .pci, .free]
  | .store .. => [.cores, .mem, .gdl, .ddr, .free]
  | .storeAck .. => [.cores, .mem, .gdl, .ddr, .lfl, .pci, .free]
  | .signalAck .. => [.cores, .lfl, .pci]
  | .coreSelfFence .. => [.cores, .mem, .fences, .lfl, .pci, .pwr]
  | .chunkJobDispatch .. | .batchWindowExpiry .. => [.cores, .mem, .gdl, .lfl, .sfe]
  | .chunkJobComplete .. | .memberCommit .. => [.mem, .audit, .gdl, .lfl, .sfe, .pci, .boot]
  | .idleTimeout .. | .csiPacket .. => [.sfe]
  | .swapOutComplete .. => [.mem, .gdl, .ddr, .sfe, .pci]
  | .swapInComplete .. => [.mem, .gdl, .sfe, .free]
  | .resetMark .. | .streamOpen .. => [.audit, .lfl, .sfe, .pci, .boot]
  | .contextCloseDone .. => [.mem, .audit, .gdl, .ddr, .lfl, .sfe, .pci, .boot]
  | .lflCtxSelWrite .. | .kvTenantApply .. => [.lfl]
  | .regionApply .. | .tableSlotLoadDone .. | .expanderBlockAccept .. | .tileComplete .. | .tileDeadline ..
  | .fallbackTileReady .. => [.gdl]
  | .eflRead .. | .vinFault .. | .thermalTrip .. | .smbReset .. | .packageReset ..
  | .startSequence .. | .startTimeout .. | .doneHoldExpiry .. | .watchdogExpiry .. | .bootResetRequest ..
  | .registerWrite .. =>
      [.cores, .mem, .fences, .bridges, .audit, .gdl, .ddr, .flt, .efl, .lfl, .sfe, .trg, .pci, .sec, .pwr, .boot, .pins,
        .timer, .free]
  | .tileReadStart .. | .tableSlotLoad .. | .blockDecodeDone .. => [.gdl, .free]
  | .tileCopyDepart .. => [.cores, .gdl]
  | .tableBuildComplete .. | .shardVerifyDone .. => [.mem, .gdl, .ddr, .flt, .lfl, .pci, .free]
  | .dramAccessGrant .. | .dramAccessComplete .. | .accountApply .. => [.audit, .ddr, .pci, .boot, .free]
  | .tokenRefill .. => [.audit, .ddr, .pci, .boot]
  | .wheelSlot .. | .neighbourRefreshIssue .. | .lfsrReseed .. | .retrainPeriodExpiry .. | .tempDeltaRetrain .. => [.ddr]
  | .patrolScrub .. => [.ddr, .free]
  | .retrainChannelDone .. | .ddrRetrain .. => [.ddr, .lfl, .pci]
  | .pairFailing .. => [.ddr, .pci]
  | .flashProgram .. | .flashSeal .. | .flashRetire .. | .flashErase .. | .flashDirect .. | .flashFormat ..
  | .ingest .. | .ingestShard .. => [.flt, .lfl, .pci]
  | .journalPageProgrammed .. | .flashPageReadDone .. | .devicePageProgramDone .. => [.mem, .flt, .lfl, .pci, .free]
  | .eraseDeviceDone .. => [.mem, .flt, .lfl, .pci]
  | .eraseSuspend .. => [.flt, .lfl]
  | .flashTierBringup .. => [.flt, .lfl, .free]
  | .fltBlkSelWrite .. => [.flt]
  | .eflProgram .. | .eflErase .. => [.efl]
  | .eflOpDone .. => [.mem, .efl, .free]
  | .partitionApply .. => [.cores, .mem, .lfl]
  | .generate .. => [.mem, .audit, .ddr, .lfl, .pci, .boot, .free]
  | .passComplete .. => [.mem, .audit, .gdl, .ddr, .lfl, .pci, .boot, .free]
  | .requestComplete .. | .ledgerRefill .. | .kvmPoolCfgWrite .. => [.audit, .lfl, .pci, .boot]
  | .lflVerSelWrite .. | .cqHead .. | .evHead .. | .commandTake .. | .interruptSignal .. | .eventQueueEnable ..
  | .eventQueueDisable .. | .linkTrain .. | .winOpen .. | .winClose .. | .lowHalfRead .. | .linkL1Entry ..
  | .functionLevelResetComplete .. => [.pci]
  | .contextGrantApply .. | .stateSwap .. | .streamMark .. => [.sfe, .pci]
  | .imageFrameDelivered .. | .streamPush .. => [.mem, .audit, .gdl, .ddr, .lfl, .sfe, .pci, .boot, .free]
  | .audioFrame .. => [.mem, .audit, .gdl, .lfl, .sfe, .pci, .boot, .free]
  | .ringFrameReceive .. => [.sfe, .trg]
  | .ringFrameTransmit .. | .trgKeyWrite .. | .expectedSyncMissed .. => [.trg]
  | .trgModeWrite .. => [.trg, .pins]
  | .ringWrite .. => [.trg, .pci]
  | .sqTail .. | .queueCreate .. | .queueDelete .. => [.audit, .pci, .boot]
  | .completionPost .. => [.mem, .audit, .pci, .boot]
  | .eventPost .. => [.mem, .pci]
  | .functionLevelReset .. | .hotReset .. | .kSetStop .. | .ideIntegrityFail .. | .activateNow .. =>
      [.cores, .mem, .audit, .gdl, .ddr, .flt, .lfl, .sfe, .pci, .sec, .boot]
  | .linkL1Exit .. => [.pci, .pwr]
  | .run .. => [.lfl, .pci, .free]
  | .streamClose .. => [.mem, .audit, .gdl, .sfe, .pci, .boot]
  | .bind .. | .replace .. | .unbind .. | .discard .. | .resideLoad .. => [.lfl, .pci]
  | .activate .. => [.mem, .gdl, .lfl, .pci]
  | .resideRelease .. => [.cores, .mem, .pci]
  | .shardStaged .. => [.mem, .ddr, .flt, .lfl, .pci]
  | .ingestTimeout .. => [.mem, .gdl, .flt, .lfl, .pci]
  | .windowWrite .. => [.mem, .ddr, .pci]
  | .suspend .. => [.cores, .flt, .lfl, .pci]
  | .resume .. => [.cores, .mem, .ddr, .flt, .lfl, .pci]
  | .cancel .. => [.cores, .mem, .gdl, .ddr, .flt, .lfl, .pci]
  | .doeDiscovery .. | .getVersion .. | .getCapabilities .. | .negotiateAlgorithms .. | .getDigests ..
  | .getCertificate .. | .finish .. | .heartbeat .. | .keyUpdate .. | .endSession .. | .ideKmQuery .. | .keyProg ..
  | .kSetGo .. | .keySlotGenerate .. | .keySlotDestroy .. | .debugToken .. => [.sec]
  | .challenge .. | .getMeasurements .. | .keyExchange .. | .respondIfReady .. | .getTdispVersion ..
  | .getTdispCapabilities .. | .lockInterfaceRequest .. | .getDeviceInterfaceReport .. | .getDeviceInterfaceState ..
  | .startInterfaceRequest .. | .stopInterfaceRequest .. =>
      [.cores, .mem, .audit, .gdl, .ddr, .flt, .lfl, .sfe, .pci, .sec, .boot, .free]
  | .tenantConfApply .. => [.audit, .ddr, .lfl, .pci, .sec, .boot, .free]
  | .ringKeyInstall .. | .ringKeyUnwrapped .. | .ringKeyRemove .. => [.trg, .sec]
  | .debugAccess .. => [.mem, .sec, .free]
  | .idcode .. | .bypass .. => [.pins]
  | .boundaryScan .. => [.pins, .free]
  | .estimatorWindow .. => [.cores, .lfl, .pwr]
  | .capDecision .. => [.cores, .pwr]
  | .powerTick .. => [.audit, .lfl, .pci, .pwr, .boot, .free]
  | .domainStateApply .. | .autoWake .. | .smbusAddressMatch .. | .smbStatus .. | .smbTemp .. | .smbPower ..
  | .smbLimitRead .. | .smbLimitWrite .. | .smbNursery .. | .smbWake .. | .wakeTimerExpiry .. => [.pwr]
  | .domainTransitionDone .. => [.cores, .mem, .bridges, .audit, .gdl, .ddr, .flt, .lfl, .sfe, .pci, .sec, .pwr, .boot, .free]
  | .padRelease .. => [.ddr, .flt, .pwr]
  | .firmwareCopy .. | .stage .. | .activateAtReset .. | .calCommit .. | .calDiscard .. => [.boot]
  | .commitSvn .. => [.boot, .fuses]
  | .firmwareOpComplete .. => [.mem, .efl, .boot]
  | .domainReset .. => [.cores, .mem, .bridges, .audit, .gdl, .ddr, .flt, .lfl, .sfe, .pci, .pwr, .boot]
  | .heldPhaseEnd .. => [.cores, .mem, .fences, .ddr, .lfl, .pci, .pwr, .boot]
  | .calCommitDone .. => [.mem, .boot, .free]

/-- The command answers a next state, of which `P` holds. -/
def Yields (i : Instr) (s : State) (P : State → Prop) : Prop := ∃ t, exec i s = .next t ∧ P t

/-- Of core `c` only the job that it runs has changed, and nothing else of the part has. -/
structure OnlyRun (c : Nat) (s t : State) : Prop where
  rest : t = { s with cores := t.cores }
  others : ∀ d, d ≠ c → t.core d = s.core d
  mine : t.core c = { s.core c with run := t.run c }

/-- Core `c`, its scratchpad and its program buffer may have changed, and the model's counter of free values; nothing else
has. -/
structure OnlyCore (c : Nat) (s t : State) : Prop where
  rest : t = { s with cores := t.cores, mem := { s.mem with spm := t.mem.spm, prog := t.mem.prog }, free := t.free }
  others : ∀ d, d ≠ c → t.core d = s.core d
  spm : ∀ d, d ≠ c → Tab.get [] t.mem.spm d = Tab.get [] s.mem.spm d
  prog : ∀ d, d ≠ c → Tab.get [] t.mem.prog d = Tab.get [] s.mem.prog d

/-- The command that decodes an operation of the execute queue; none for an operation that the fetch engine runs itself. -/
def queuedBy (c : CoreId) : Op → Option Instr
  | .nop => some (.nop c .decode)
  | .endOp => some (.endOp c .decode)
  | .fetch _ => none
  | .fwait _ _ => none
  | .matmul _ => some (.matmul c .decode)
  | .drain _ => some (.drain c .decode)
  | .gate g => match g.kind with
    | .gfn => some (.gfn c .decode)
    | .gadd => some (.gadd c .decode)
    | .gsub => some (.gsub c .decode)
    | .gmul => some (.gmul c .decode)
    | .gmax => some (.gmax c .decode)
    | .grsum => some (.grsum c .decode)
    | .grmax => some (.grmax c .decode)
    | .gquant => some (.gquant c .decode)
    | .gscale => some (.gscale c .decode)
  | .move _ => some (.move c .decode)
  | .transpose _ => some (.transpose c .decode)
  | .store _ => some (.store c .decode)
  | .wait _ _ => some (.wait c .decode)
  | .signal _ _ _ => some (.signal c .decode)
  | .fence => some (.fence c .decode)
  | .reside _ _ => some (.reside c .decode)
  | .unreside _ _ => some (.unreside c .decode)
  | .loop _ _ _ => none
  | .seti _ _ => none

/-- Core `c` is in service and runs the job `r`. -/
structure OnCore (c : Nat) (r : Run) (s : State) : Prop where
  running : s.running = true
  up : coreUp s c = true
  run : s.run c = some r

/-- The operation `q` is at the head of the execute queue of the job `r`, which issues. -/
structure AtHead (c : Nat) (r : Run) (q : QOp) (s : State) : Prop extends OnCore c r s where
  issues : r.issues = true
  head : r.queue.head? = some q

/-- The command that issues an operation that writes scratchpad rows. -/
def issuedBy (c : CoreId) : Op → Option Instr
  | .drain _ => some (.drain c .issue)
  | .gate g => match g.kind with
    | .gfn => some (.gfn c .issue)
    | .gadd => some (.gadd c .issue)
    | .gsub => some (.gsub c .issue)
    | .gmul => some (.gmul c .issue)
    | .gmax => some (.gmax c .issue)
    | .grsum => some (.grsum c .issue)
    | .grmax => some (.grmax c .issue)
    | .gquant => some (.gquant c .issue)
    | .gscale => some (.gscale c .issue)
  | .move _ => some (.move c .issue)
  | .transpose _ => some (.transpose c .issue)
  | _ => none

/-- The rows that an operation reads and writes lie in the scratchpad, and its sizes and strides are those that decoding
accepts (R155, R166, R169, R170). -/
def Op.fits (op : Op) : Bool :=
  ((op.reads ++ op.writes).all fun x => decide (x < 8192)) && match op with
    | .drain d => decide (d.smode ≤ 3) && (d.smode == 0 || decide (d.srow < 8192))
    | .gate g => decide (g.smode ≤ 3) && (g.smode == 0 || decide (g.srow < 8192)) && decide (g.dst < 8192) &&
        decide (g.n ≤ 256) && (g.kind != .gscale || g.smode == 0)
    | .move m => decide (1 ≤ m.dstride)
    | .transpose m => decide (m.esize ≤ 1) && decide (m.esize < m.dstride)
    | _ => true

/-- The operation at the head of the queue, one that writes scratchpad rows, can issue: its rows are present, access is
allowed, and a DRAIN finds its accumulator rows complete and its per-column vector without an error. -/
structure CanIssue (c : Nat) (r : Run) (q : QOp) (s : State) : Prop extends AtHead c r q s where
  fits : q.op.fits = true
  present : (s.core c).allPresent q.op.reads = true
  access : (s.core c).check r.owner q.op.reads q.op.writes = .ok
  drains : ∀ d, q.op = .drain d → disjoint d.accRows r.pendingAcc = true ∧ paramErrors s c d = []

/-- The operation `q` of the job `r` has left the queue of core `c` and has written its rows: they are present, and nothing
outside them has changed but the counters of numerical events, the streaming regions that a LAST flag frees, and, where a
row that it read carries poison, the end of the job with ST_DATA_POISON after it, every row written carrying poison. -/
structure RowsIssued (c : Nat) (r : Run) (q : QOp) (s t : State) : Prop where
  only : OnlyCore c s t
  core : t.core c = { s.core c with
    run := some (if (s.core c).poisoned q.op.reads = true
      then { r with queue := [], decodeEnded := true, ending := r.ending.or (some (St.dataPoison, 0)) }
      else { r with queue := r.queue.tail })
    fault := { (s.core c).fault with poison := (s.core c).fault.poison || (s.core c).poisoned q.op.reads }
    presence := (t.core c).presence
    poison := (t.core c).poison
    regions := (t.core c).regions
    credits := (t.core c).credits
    outSat := (t.core c).outSat
    nonfinite := (t.core c).nonfinite
    fmtErr := (t.core c).fmtErr }
  present : ∀ i, (t.core c).present i = ((s.core c).present i || decide (i ∈ q.op.writes))
  poison : ∀ i, i ∉ q.op.writes → (t.core c).poison.getLsbD i = (s.core c).poison.getLsbD i
  marked : (s.core c).poisoned q.op.reads = true → ∀ i ∈ q.op.writes, (t.core c).poison.getLsbD i = true
  bytes : ∀ a, a / 64 ∉ q.op.writes → t.mem.rdSpm c a 1 = s.mem.rdSpm c a 1
  freed : ∀ x, (t.core c).region x =
    if (s.core c).region x = .stream ∧ x ∈ q.op.lastRows.map (· / 64) then .free else (s.core c).region x

/-- A line of shared SRAM (destination 0) or of DRAM as it stands. -/
def lineBytes (kind : Nat) (s : State) (a : Nat) : Bytes := if kind = 0 then s.mem.rdSram a 64 else s.mem.rdDram a 64

/-- The destination takes a write of the line: its bank groups, or its channel group, are ON (R258, R471), and a region holds it. -/
def lineTaken (kind : Nat) (s : State) (a : Nat) : Bool :=
  if kind = 0 then !sramOff s a else (s.dom (groupDom s a)).state != .off && (entryOf s a 64).isSome

/-- Only bytes of the destination whose addresses satisfy `P` have changed in the memories, with the flags and keys of
lines, the cores, and the model's counter of free values. -/
structure LinesStored (kind : Nat) (P : Nat → Prop) (s t : State) : Prop where
  rest : t = { s with
    cores := t.cores
    mem := { s.mem with sram := t.mem.sram, dram := t.mem.dram }
    gdl := { s.gdl with sramPoison := t.gdl.sramPoison }
    ddr := { s.ddr with tags := t.ddr.tags }
    free := t.free }
  sram : ∀ a, kind ≠ 0 ∨ ¬P a → t.mem.rdSram a 1 = s.mem.rdSram a 1
  dram : ∀ a, kind = 0 ∨ ¬P a → t.mem.rdDram a 1 = s.mem.rdDram a 1

/-- The command's entry has been taken, the part runs, and its queue exists: the command begins (R412). -/
structure Begins (op : Nat) (sub : Sub) (s : State) : Prop where
  running : s.running = true
  taken : isTaken op sub s = true
  queue : (s.queue sub.fn sub.qid).state ≠ .none

/-- The command has ended: its taken entry is gone, its completion waits last in its queue, and no other queue has changed. -/
structure Ended (op : Nat) (sub : Sub) (c : Completion) (s t : State) : Prop where
  taken : t.pci.taken = s.pci.taken.eraseP (Taken.isOf op sub)
  waiting : (t.queue sub.fn sub.qid).waiting = (s.queue sub.fn sub.qid).waiting ++ [c]
  mine : t.queue sub.fn sub.qid = { s.queue sub.fn sub.qid with waiting := (t.queue sub.fn sub.qid).waiting }
  queues : ∀ f q : Nat, ¬(f = sub.fn.val ∧ q = sub.qid.val) → t.queue f q = s.queue f q

/-- The command has ended, and of the host interface nothing else has changed. -/
structure OnlyEnded (op : Nat) (sub : Sub) (c : Completion) (s t : State) : Prop extends Ended op sub c s t where
  pci : t.pci = { s.pci with
    funcs := t.pci.funcs
    taken := t.pci.taken }
  funcs : ∀ f, t.func f = { s.func f with queues := (t.func f).queues }

/-- `v` is the sum of the terms in FP32, two of them added and rounded at a time, in some order (R70, R144). -/
inductive SumOf : List FVal → FVal → Prop where
  | one (x : FVal) : SumOf [x] x
  | add {l a b : List FVal} {x y : FVal} : SumOf a x → SumOf b y → l.Perm (a ++ b) → SumOf l (rnd32 (addExact x y))

/-- Of the host interface only function `f` has changed, and nothing else of the part has. -/
structure OnlyFunc (f : Nat) (s t : State) : Prop where
  rest : t = { s with pci := { s.pci with funcs := t.pci.funcs } }
  others : ∀ g, g ≠ f → t.func g = s.func g

/-- Nothing that function `f` submitted is in progress, no stream context of its tenant is open, and its TDI is CONFIG_UNLOCKED. -/
structure FnQuiet (f : Nat) (s : State) : Prop where
  longs : ∀ l ∈ s.lfl.longOps, l.fn ≠ f
  jobs : ∀ j ∈ s.lfl.jobs, ∀ b, j.2.sub = some b → b.fn.val ≠ f
  waits : ∀ q ∈ (s.func f).queues, ∀ c ∈ q.2.waiting, c.after = []
  streams : f ≠ 0 → ∀ c, c < 24 → (s.ctx c).owner = f → (s.ctx c).life = .closed
  tdi : f ≠ 0 → (s.tsec f).tdi = .unlocked

/-- Of the part only the SPDM responder of function `f` has changed, and the model's counter of free values. -/
structure OnlySpdm (f : Nat) (s t : State) : Prop where
  rest : t = { s with
    sec := { s.sec with spdm := t.sec.spdm }
    free := t.free }
  others : ∀ g, g ≠ f → t.responder g = s.responder g

/-- A package reset with a cause other than power-on: every domain but the always-on domain is as after reset, and of the
always-on domain the registers of R481 are kept. Nursery mode follows a forced one or three failed starts (R491, R492). -/
structure PackageReset (cause : Nat) (s t : State) : Prop where
  boot : t.boot.done = false ∧ t.boot.fatal = false ∧ t.boot.fail = { s.boot.fail with cause := BitVec.ofNat 3 cause } ∧ t.boot.tryB = s.boot.tryB ∧
    t.boot.forceNursery = false ∧ t.boot.held = none ∧ t.boot.fwOp = 0 ∧ t.boot.staged = false
  nursery : t.boot.nursery = (s.boot.forceNursery || decide (s.boot.fail.count = 3)) ∧
    t.boot.nrc = if s.boot.forceNursery = true then 24 else if s.boot.fail.count = 3 then s.boot.fail.lastNrc else 0
  cores : ∀ c : Nat, c < 64 → t.core c = { Core.init with fault := (s.core c).fault }
  fences : t.fences = Fences.reset
  hosts : ∀ f, t.func f = Func.init
  work : t.lfl = { State.reset.lfl with
    keyDraw := t.lfl.keyDraw
    keyBase := t.lfl.keyBase }
  blocks : t.bridges = State.reset.bridges ∧ t.audit = State.reset.audit ∧ t.gdl = State.reset.gdl ∧ t.efl = State.reset.efl ∧ t.sfe = State.reset.sfe ∧
    t.trg = State.reset.trg ∧ t.sec = State.reset.sec
  ddr : t.ddr = { State.reset.ddr with fail := s.ddr.fail }
  power : t.pwr = { State.reset.pwr with
    tripped := s.pwr.tripped
    smbAddr := s.pwr.smbAddr
    smbEn := s.pwr.smbEn
    wakeTimer := s.pwr.wakeTimer
    thermtrip := s.pwr.thermtrip
    vinSince := s.pwr.vinSince }
  others : t.fuses = s.fuses ∧ t.timer = s.timer ∧ t.pending = s.pending

/-- The same after a counted failure with this code (R491). -/
def failed (code : Nat) (s : State) : State := { s with boot := { s.boot with fail := { s.boot.fail with
  count := satUp s.boot.fail.count 1
  lastNrc := BitVec.ofNat 8 code } } }

end Sys2Proof.Machine
end

