-- ==== Sys2Proof/Certificates/Slice0/Obligations.lean ====
section
/-! DEFINITION. The statements for the provers: what the rules of the spec, formalised, say of the model. -/

open Sys2Proof Sys2Proof.Machine Numeric

/-- A step takes the command at the front of the queue and runs it on the state with the queue's rest. -/
def Obligations.FrontCommandRuns : Prop :=
  ∀ (c : Instr) (rest : List Instr) (s : State), s.pending = c :: rest → step s = exec c { s with pending := rest }

/-- On an empty queue a step is one cycle of the always-on clock: the model's choice (notes/assumptions/1.md), no rule. -/
def Obligations.IdleStepTicks : Prop :=
  ∀ s : State, s.pending = [] → ∃ t, step s = .next t ∧ t.timer = s.timer + 1 ∧ t.pending = [] ∧
    (s.boot.fatal = false → s.boot.held = none → t = { s with timer := s.timer + 1, bridges := s.bridges.map BridgeDir.accept })

/-- The part right after power-on reset (R46's pools whole, BOOT_STATUS.DONE 0, SMBus address 0x5C). -/
def Obligations.ResetState : Prop :=
  State.reset.boot.done = false ∧ State.reset.boot.nursery = false ∧ State.reset.boot.fatal = false ∧
  State.reset.fences = Fences.reset ∧ State.reset.pending = [] ∧ MemOk State.reset ∧
  (∀ f q, (State.reset.queue f q).state = .none) ∧
  (∀ c, (State.reset.core c).credits = Pool.whole 128 ∧ State.reset.run c = none ∧ ∀ r, (State.reset.core c).region r = .free) ∧
  (∀ b ∈ State.reset.bridges, b.credits.held = 0 ∧ b.credits.balanced = true ∧ b.replay = []) ∧
  State.reset.sfe.pool = Pool.whole 512 ∧ State.reset.pwr.smbAddr = 0x5C ∧
  ∀ a, State.reset.mem.rdSram a 1 = [0] ∧ State.reset.mem.rdEfl a 1 = [0xFF]

/-- The canonical form of every byte memory is an invariant of the step. The form is the model's (it makes equal memories
equal data), not a rule's. -/
def Obligations.CanonicalMemoryKept : Prop :=
  ∀ s t : State, MemOk s → step s = .next t → MemOk t

/-- A fence applied while the part runs holds until the next package reset (R44): no step between two states in which start-up
is done takes a fence away. -/
def Obligations.FencesHoldUntilReset : Prop :=
  ∀ s t : State, s.boot.done = true → step s = .next t → t.boot.done = true → s.fences.Within t.fences

/-- Only a package reset ends a fatal condition, and only the first failure of the equality is captured (R50, R503). -/
def Obligations.FatalUntilReset : Prop :=
  ∀ s t : State, s.boot.done = true → step s = .next t → t.boot.done = true →
    (s.boot.fatal = true → t.boot.fatal = true) ∧
    (s.audit.fault = true →
      t.audit.fault = true ∧ t.audit.faultPool = s.audit.faultPool ∧ t.audit.faultInst = s.audit.faultInst)

/-- SVN_MIN never falls (R488), and no command but COMMIT_SVN changes a fuse. -/
def Obligations.SvnMinNeverFalls : Prop :=
  ∀ (i : Instr) (s t : State), exec i s = .next t →
    s.fuses.svnMin.toNat ≤ t.fuses.svnMin.toNat ∧ ((∀ fn v a b, i ≠ .commitSvn fn v a b) → t.fuses = s.fuses)

/-- No command stops the model, and none touches the queue of waiting commands (the model's own field). -/
def Obligations.CommandsNeverStop : Prop :=
  ∀ (i : Instr) (s : State), ∃ t, exec i s = .next t ∧ t.pending = s.pending

/-- The fetch engine places every operation that it does not run itself last in the execute queue; at 16 it waits (R104). -/
def Obligations.QueuedOperationDecodes : Prop :=
  ∀ (c : CoreId) (op : Op) (i : Instr) (s : State) (r : Run), queuedBy c op = some i → OnCore c r s → r.decodes = true →
    nextOp s c r = some (.ok op) →
    let queued := { r with queue := r.queue ++ [{ pos := r.pos, op := op, load := .waiting }] }
    (r.queue.length < 16 → Yields i s fun t => OnlyRun c s t ∧
      t.run c = some (if op = .endOp then { queued with decodeEnded := true } else advance queued)) ∧
    (16 ≤ r.queue.length → Yields i s fun t => t = s)

/-- The operations of the fetch engine (R172, R175): SETI, FWAIT and LOOP. -/
def Obligations.FetchEngineOperations : Prop :=
  ∀ (c : CoreId) (s : State) (r : Run), OnCore c r s → r.decodes = true →
    (∀ reg v, nextOp s c r = some (.ok (.seti reg v)) → Yields (.seti c) s fun t => OnlyRun c s t ∧
      t.run c = some (advance { r with iregs := if reg = 0 then r.iregs else r.iregs.set (reg - 1) v })) ∧
    (∀ ctr n, nextOp s c r = some (.ok (.fwait ctr n)) → Yields (.fwait c) s fun t =>
      if n ≤ ((s.core c).counter ctr).toNat then
        t = { s with cores := t.cores } ∧ (∀ d, d ≠ c.val → t.core d = s.core d) ∧
        t.core c = { s.core c with run := some (advance r), sync := (t.core c).sync } ∧
        ((t.core c).counter ctr).toNat = ((s.core c).counter ctr).toNat - n ∧
        ∀ k, k ≠ ctr → (t.core c).counter k = (s.core c).counter k
      else t = s) ∧
    (∀ count body incs, nextOp s c r = some (.ok (.loop count body incs)) → r.loops.length < 4 → r.pos + 1 + body ≤ r.count →
      Yields (.loop c) s fun t => OnlyRun c s t ∧ t.run c = some (
        if count = 0 then settleLoops 5 { r with pos := r.pos + 1 + body }
        else { r with
          pos := r.pos + 1
          loops := { start := r.pos + 1, stop := r.pos + 1 + body, left := count, incs := incs, saved := r.iregs } :: r.loops }))

/-- What happens at the end of a loop body (R175), shown on a NOP that ends it. -/
def Obligations.LoopBodyRepeats : Prop :=
  ∀ (c : CoreId) (s : State) (r : Run) (f : LoopFrame) (fs : List LoopFrame), OnCore c r s → r.decodes = true →
    r.queue.length < 16 → nextOp s c r = some (.ok .nop) → r.loops = f :: fs → f.stop = r.pos + 1 →
    let q := r.queue ++ [{ pos := r.pos, op := .nop, load := .waiting }]
    (2 ≤ f.left → f.start ≠ f.stop → Yields (.nop c .decode) s fun t => OnlyRun c s t ∧ t.run c = some { r with
      queue := q
      pos := f.start
      iregs := (List.range 7).map fun i => signed 32 (unsigned 32 (r.iregs.getD i 0 + f.incs.getD i 0))
      loops := { f with left := f.left - 1 } :: fs }) ∧
    (f.left = 1 → fs = [] → Yields (.nop c .decode) s fun t => OnlyRun c s t ∧ t.run c = some { r with
      queue := q
      pos := r.pos + 1
      iregs := f.saved
      loops := [] })

/-- The issue of the operations that touch no scratchpad row (R172, R173, R176). -/
def Obligations.ControlOperationsIssue : Prop :=
  ∀ (c : CoreId) (s : State) (r : Run) (q : QOp), AtHead c r q s →
    (q.op = .nop → Yields (.nop c .issue) s fun t => OnlyRun c s t ∧ t.run c = some { r with queue := r.queue.tail }) ∧
    (q.op = .endOp → Yields (.endOp c .issue) s fun t => OnlyRun c s t ∧
      t.run c = some { r with queue := r.queue.tail, ended := true }) ∧
    (q.op = .fence → Yields (.fence c .issue) s fun t => OnlyRun c s t ∧
      t.run c = some (if r.array = [] ∧ r.stores = [] then { r with queue := r.queue.tail } else r)) ∧
    (∀ ctr n, q.op = .wait ctr n → Yields (.wait c .issue) s fun t =>
      if n ≤ ((s.core c).counter ctr).toNat then
        t = { s with cores := t.cores } ∧ (∀ d, d ≠ c.val → t.core d = s.core d) ∧
        t.core c = { s.core c with run := some { r with queue := r.queue.tail }, sync := (t.core c).sync } ∧
        ((t.core c).counter ctr).toNat = ((s.core c).counter ctr).toNat - n ∧
        ∀ k, k ≠ ctr → (t.core c).counter k = (s.core c).counter k
      else t = s) ∧
    (∀ target ctr inc, q.op = .signal target ctr inc → Yields (.signal c .issue) s fun t => OnlyRun c s t ∧ t.run c = some (
      if coreExists s target = false then failRun St.noSuchUnit 0 r
      else if coreFenced s target = true then failRun St.unitFenced 0 r
      else { r with
        queue := r.queue.tail
        signals := r.signals ++ [{ target := target, ctr := ctr, inc := inc, arrived := false }] }))

/-- SIGNAL's increment arrives and is acknowledged (R172); increments to one target keep their order (R30). -/
def Obligations.SignalIncrementsArrive : Prop :=
  ∀ (c : CoreId) (s : State) (r : Run), s.running = true → s.run c = some r →
    ((∃ x ∈ r.signals, x.arrived = false) → Yields (.signalIncrementArrive c) s fun t =>
      t = { s with cores := t.cores, free := s.free + 1 } ∧
      ∃ pre x post, r.signals = pre ++ x :: post ∧ x.arrived = false ∧
        (∀ y ∈ pre, y.arrived = false → y.target ≠ x.target) ∧
        let marked := { r with signals := pre ++ { x with arrived := true } :: post }
        if coreFenced s x.target = true then t.run c = some (failRun St.unitFenced 0 marked) ∧
          ∀ d k, (t.core d).counter k = (s.core d).counter k
        else if (s.core x.target).owner ≠ r.owner then t.run c = some (failRun St.accessDenied 0 marked) ∧
          ∀ d k, (t.core d).counter k = (s.core d).counter k
        else t.run c = some marked ∧
          ((t.core x.target).counter x.ctr).toNat = min 65535 (((s.core x.target).counter x.ctr).toNat + x.inc) ∧
          ∀ d k, ¬(d = x.target ∧ k = x.ctr) → (t.core d).counter k = (s.core d).counter k) ∧
    ((∃ x ∈ r.signals, x.arrived = true) → r.suspending = false → Yields (.signalAck c) s fun t => OnlyRun c s t ∧
      ∃ pre x post, r.signals = pre ++ x :: post ∧ x.arrived = true ∧ (∀ y ∈ pre, y.arrived = false) ∧
        t.run c = some { r with signals := pre ++ post })

/-- The checks at decode (R155) leave no operation that would touch a row outside the scratchpad. -/
def Obligations.DecodedOperationsFit : Prop :=
  ∀ (regs : List Int) (w : Nat) (op : Op), decodeOp regs w = .ok op → op.fits = true

/-- An operation of the drain path or a data move issues (R105, R158), writes its rows whole or in part (R100), and carries poison on (R116). -/
def Obligations.RowOperationsIssue : Prop :=
  ∀ (c : CoreId) (i : Instr) (s : State) (r : Run) (q : QOp), AtHead c r q s → issuedBy c q.op = some i → q.op.fits = true →
    ((s.core c).allPresent q.op.reads = true → (s.core c).check r.owner q.op.reads q.op.writes = .ok →
      (∀ d, q.op = .drain d → disjoint d.accRows r.pendingAcc = true ∧ paramErrors s c d = []) →
      Yields i s (RowsIssued c r q s)) ∧
    ((s.core c).allPresent q.op.reads = false → (s.core c).check r.owner q.op.reads q.op.writes = .ok →
      Yields i s fun t => t = s) ∧
    ((s.core c).check r.owner q.op.reads q.op.writes = .denied → Yields i s fun t =>
      OnlyRun c s t ∧ t.run c = some (failRun St.accessDenied 0 r))

/-- RESIDE and UNRESIDE issue (R174). -/
def Obligations.ResidencyOperationsIssue : Prop :=
  ∀ (c : CoreId) (s : State) (r : Run) (q : QOp) (first count : Nat), AtHead c r q s →
    let named := (List.range count).map (first + ·)
    let k := s.core c
    (q.op = .reside first count → (∀ x ∈ named, k.region x = .work ∨ k.region x = .resident r.owner) →
      Yields (.reside c .issue) s fun t => OnlyRun c s t ∧ ∃ marks : List Nat, marks.Nodup ∧
        (∀ x, x ∈ marks ↔ x ∈ r.reside ∨ x ∈ named ∧ k.region x = .work) ∧
        t.run c = some (if residentCount k + marks.length ≤ 96 then { r with queue := r.queue.tail, reside := marks }
          else failRun St.residentLimit 0 r)) ∧
    (q.op = .unreside first count → (∀ x ∈ named, k.region x = .resident r.owner) →
      Yields (.unreside c .issue) s fun t => OnlyCore c s t ∧
        (∃ later : List Nat, (∀ x, x ∈ later ↔ x ∈ r.unreside ∨ x ∈ named ∧ bit r.workset x = true) ∧
          t.run c = some { r with queue := r.queue.tail, unreside := later }) ∧
        let gone := fun x => x ∈ named ∧ bit r.workset x = false
        (∀ x, (gone x → (t.core c).region x = .free) ∧ (¬gone x → (t.core c).region x = k.region x)) ∧
        (∀ i, (gone (i / 64) → (t.core c).present i = false) ∧ (¬gone (i / 64) → (t.core c).present i = k.present i)) ∧
        (∀ a, (gone (a / 4096) → t.mem.rdSpm c a 1 = [0]) ∧ (¬gone (a / 4096) → t.mem.rdSpm c a 1 = s.mem.rdSpm c a 1))) ∧
    ((∃ x ∈ named, ∃ o, o ≠ r.owner ∧ k.region x = .resident o) →
      (q.op = .reside first count → (∀ x ∈ named, k.region x = .work ∨ ∃ o, k.region x = .resident o) →
        Yields (.reside c .issue) s fun t => OnlyRun c s t ∧ t.run c = some (failRun St.accessDenied 0 r)) ∧
      (q.op = .unreside first count → (∀ x ∈ named, ∃ o, k.region x = .resident o) →
        Yields (.unreside c .issue) s fun t => OnlyRun c s t ∧ t.run c = some (failRun St.accessDenied 0 r)))

/-- What MOVE and TRANSPOSE write (R170). -/
def Obligations.RowsMoved : Prop :=
  ∀ (c : CoreId) (s : State) (r : Run) (q : QOp) (m : MoveOp), CanIssue c r q s →
    (q.op = .move m → Yields (.move c .issue) s fun t => ∀ i k, i < m.count → k < 64 →
      t.mem.rdSpm c (64 * (m.dst + i * m.dstride) + k) 1 = s.mem.rdSpm c (64 * (m.src + i * m.sstride) + k) 1) ∧
    (q.op = .transpose m → Yields (.transpose c .issue) s fun t => ∀ i j b, i < 64 → j < 64 → b ≤ m.esize →
      let w := m.esize + 1
      t.mem.rdSpm c (64 * (m.dst + j * m.dstride) + w * i + b) 1 = s.mem.rdSpm c (64 * (m.src + i * m.sstride) + w * j + b) 1)

/-- The element-wise results of the gate unit (R144, R145). The value of a GFN table is a free value within R145's bound. -/
def Obligations.GateResults : Prop :=
  ∀ (c : CoreId) (s : State) (r : Run) (q : QOp) (g : GateOp) (i : Instr), CanIssue c r q s → q.op = .gate g →
    issuedBy c q.op = some i → (∀ x ∈ g.outRows, x ∉ g.statRows) →
    (g.kind = .gfn ∨ g.kind = .gadd ∨ g.kind = .gsub ∨ g.kind = .gmul ∨ g.kind = .gmax) →
    Yields i s fun t => ∀ k n, k < g.n → n < 64 →
      let a := bfElem (gateA s c g k) n
      let b := gateB s c g k n
      ∃ v : FVal, leNat (t.mem.rdSpm c (64 * (g.dst + k * 2) + 2 * n) 2) = (bf16.conv v).bits ∧ match g.kind with
        | .gadd => v = addExact a b
        | .gsub => v = addExact a (neg b)
        | .gmul => v = mulExact a b
        | .gmax => v = maxVal a b ∨ ∃ x y e f z, a = .fin x 0 e ∧ b = .fin y 0 f ∧ v = .fin z 0 0
        | .gfn => v = Gfn.value g.fn (field (gateA s c g k) (2 * n) 2) a
        | _ => False

/-- The integer results of a drain (R73), with A, q, M and S as R72 and R168 give them. -/
def Obligations.DrainIntegerResults : Prop :=
  ∀ (c : CoreId) (s : State) (r : Run) (q : QOp) (d : DrainOp), CanIssue c r q s → q.op = .drain d →
    d.fp = false → d.compat = false → (d.ofmt = 0 ∨ d.ofmt = 7) → (∀ x ∈ d.outRows, x ∉ d.statRows) →
    Yields (.drain c .issue) s fun t => ∀ i n, i < d.n → n < 64 →
      let bytes := elemBytes d.ofmt
      let w := 8 * bytes
      let a : Int := if d.wide then (s.core c).wideAt (d.accr + i) n else ((s.core c).accAt (d.accr + i) n).toInt
      let mant := if d.rowq then recordMant s c d.qrec i else 1
      let m := (columnScale s c d n).1
      let sh := (columnScale s c d n).2.1
      let product := a * mant * m
      let shifted := if 1 ≤ sh then (product + 2 ^ (sh - 1)) / 2 ^ sh else product
      signed w (leNat (t.mem.rdSpm c (64 * (d.dst + i * resultRows d.ofmt) + bytes * n) bytes)) =
        if mant = 0 then 0 else max (-(2 ^ (w - 1))) (min (2 ^ (w - 1) - 1) shifted)

/-- STORE issues and is acknowledged (R163). Which lines are visible before the acknowledgement is not fixed: the model draws it free. -/
def Obligations.StoreLinesBecomeVisible : Prop :=
  ∀ (c : CoreId) (s : State) (r : Run),
    (∀ (q : QOp) (st : StoreOp), AtHead c r q s → q.op = .store st → (s.core c).allPresent q.op.reads = true →
      (s.core c).check r.owner q.op.reads [] = .ok →
      (storeAllowed s r.owner st = false → Yields (.store c .issue) s fun t =>
        OnlyRun c s t ∧ t.run c = some (failRun St.accessDenied 0 r)) ∧
      (storeAllowed s r.owner st = true → Yields (.store c .issue) s fun t =>
        LinesStored st.kind (fun a => 64 * st.dst ≤ a ∧ a < 64 * (st.dst + st.rows)) s t ∧
        ∃ later : List (Nat × RowData), (∀ x ∈ later, ∃ i, i < st.rows ∧ x.1 = 64 * (st.dst + i) ∧ x.2.data = rowBytes s c (st.src + i)) ∧
          (∀ i, i < st.rows → (∃ x ∈ later, x.1 = 64 * (st.dst + i)) ∨ (lineTaken st.kind s (64 * (st.dst + i)) = true →
            lineBytes st.kind t (64 * (st.dst + i)) = rowBytes s c (st.src + i))) ∧
          (∀ d, d ≠ c.val → t.core d = s.core d) ∧
          ((s.core c).poisoned q.op.reads = false → t.run c = some { r with
            queue := r.queue.tail
            stores := r.stores ++ [{ kind := st.kind, lines := later }] }) ∧
          ((s.core c).poisoned q.op.reads = true → t.run c = some { r with
            queue := []
            decodeEnded := true
            ending := r.ending.or (some (St.dataPoison, 0))
            stores := r.stores ++ [{ kind := st.kind, lines := later }] }))) ∧
    (s.running = true → s.run c = some r → r.stores ≠ [] → r.suspending = false → Yields (.storeAck c) s fun t =>
      ∃ pre x post, r.stores = pre ++ x :: post ∧ (∀ y ∈ pre, (y.kind = 0) ≠ (x.kind = 0)) ∧
        t.run c = some { r with stores := r.stores.erase x } ∧ (∀ d, d ≠ c.val → t.core d = s.core d) ∧
        LinesStored x.kind (fun a => ∃ l ∈ x.lines, l.1 ≤ a ∧ a < l.1 + 64) s t ∧
        ∀ l ∈ x.lines, (∀ l' ∈ x.lines, l' ≠ l → l'.1 + 64 ≤ l.1 ∨ l.1 + 64 ≤ l'.1) → lineTaken x.kind s l.1 = true →
          lineBytes x.kind t l.1 = padTo 64 l.2.data)

/-- PLANE_LOAD and MATMUL as it issues (R124, R131, R164). -/
def Obligations.MatrixInstructionsRun : Prop :=
  ∀ (c : CoreId) (s : State) (r : Run),
    (∀ (i : Nat) (m : MatOp) (ahead : List QOp), OnCore c r s → r.issues = true → loadTarget 0 [] r.queue = some (i, m, ahead) →
      r.planeFree r.nextPlane = true → (s.core c).allPresent m.loadRows = true → disjoint m.loadRows (ahead.flatMap QOp.writes) = true →
      (s.core c).check r.owner m.loadRows [] = .ok → (s.core c).poisoned m.loadRows = false →
      Yields (.planeLoad c) s fun t => OnlyCore c s t ∧ t.mem = s.mem ∧
        (t.core c).plane r.nextPlane = (loadedPlane s c m).1 ∧
        (∀ p, p ≤ 1 → r.nextPlane ≤ 1 → p ≠ r.nextPlane → (t.core c).plane p = (s.core c).plane p) ∧
        t.core c = { s.core c with
          run := some { r with nextPlane := 1 - r.nextPlane, queue := r.queue.modify i fun q => { q with load := .loaded r.nextPlane } }
          plane0 := (t.core c).plane0
          plane1 := (t.core c).plane1
          deltaSkip := satUp (s.core c).deltaSkip (loadedPlane s c m).2
          regions := (t.core c).regions
          credits := (t.core c).credits } ∧
        ∀ x, (t.core c).region x = if (s.core c).region x = .stream ∧ x ∈ (regionsOf m.lastLoad) then .free else (s.core c).region x) ∧
    (∀ (q : QOp) (m : MatOp) (p : Nat), AtHead c r q s → q.op = .matmul m → q.load = .loaded p →
      (s.core c).allPresent q.op.reads = true → (s.core c).check r.owner q.op.reads [] = .ok →
      disjoint m.accRows r.pendingAcc = true → (s.core c).poisoned q.op.reads = false →
      Yields (.matmul c .issue) s fun t => OnlyCore c s t ∧ t.mem = s.mem ∧
        t.core c = { s.core c with
          run := some { r with
            queue := r.queue.tail
            array := r.array ++ [{
              m := m
              plane := p
              slot := 0
              acts := (List.range m.n).map fun i => rowsBytes s c (m.actRow i) (if m.afmt = 5 then 128 else 64) }] }
          nonfinite := (t.core c).nonfinite
          fmtErr := (t.core c).fmtErr
          regions := (t.core c).regions
          credits := (t.core c).credits } ∧
        ∀ x, (t.core c).region x = if (s.core c).region x = .stream ∧ x ∈ (regionsOf q.op.lastRows) then .free else (s.core c).region x)

/-- One admitted slot of the integer path in narrow layout (R66, R67). -/
def Obligations.RowSlotsAccumulate : Prop :=
  ∀ (c : CoreId) (idle : Nat) (s : State) (r : Run) (a : ArrayOp) (rest : List ArrayOp), OnCore c r s → r.array = a :: rest →
    r.suspending = false → a.m.tfmt < 3 → a.m.wide = false →
    Yields (.rowSlotAdmit c idle) s fun t =>
      let k := s.core c
      let pl := k.plane a.plane
      (∀ i n, i ∈ slotRows a.m a.slot → n < 64 → ((t.core c).accAt (a.m.d + i) n).toInt =
        (satInt 32 ((if a.m.acc then (k.accAt (a.m.d + i) n).toInt else 0) + intSlice a.m pl (a.acts.getD i []) n)).1) ∧
      (∀ row n, n < 64 → (∀ i ∈ slotRows a.m a.slot, row ≠ a.m.d + i) → (t.core c).accAt row n = k.accAt row n) ∧
      OnlyCore c s t ∧ t.mem = s.mem ∧
      t.core c = { k with
        run := some { r with array := if a.m.slots ≤ a.slot + 1 then rest else { a with slot := a.slot + 1 } :: rest }
        acc := (t.core c).acc
        accSat := (t.core c).accSat
        columns := (t.core c).columns
        slotAcct := (t.core c).slotAcct
        ramps := wrapUp k.ramps (if k.columns = 0 then 1 else 0) }

/-- FETCH issues (R96, R98) and its rows land (R100). -/
def Obligations.FetchClaimsAndLands : Prop :=
  ∀ (c : CoreId) (s : State) (r : Run), OnCore c r s →
    (∀ f : FetchOp, r.decodes = true → nextOp s c r = some (.ok (.fetch f)) → fetchFaults s c r f = [] →
      let targets := streamTargets (s.core c) r f
      (fetchReady (s.core c) r f = true → ((s.core c).setRegions targets .stream).credits.balanced = true →
        Yields (.fetch c) s fun t => OnlyCore c s t ∧ t.mem = s.mem ∧
          (∀ x, (t.core c).region x = if x ∈ targets then .stream else (s.core c).region x) ∧
          (∀ i, (t.core c).present i = ((s.core c).present i && !decide (i / 64 ∈ targets ∨ i ∈ rowsOf f.dst 1 1 f.rows))) ∧
          ∃ x : Transfer, x.num = r.nextXfer ∧ x.f = f ∧ x.landed = 0 ∧ x.rows.length = f.rows ∧
            t.core c = { s.core c with
              run := some (advance { r with transfers := r.transfers ++ [x], nextXfer := r.nextXfer + 1 })
              presence := (t.core c).presence
              regions := (t.core c).regions
              credits := (t.core c).credits }) ∧
      (fetchReady (s.core c) r f = false → Yields (.fetch c) s fun t => t = s)) ∧
    (∀ (n : Nat) (fd : Finding) (x : Transfer) (d : RowData), r.transfers.find? (fun x => x.num = n) = some x → arrival s r x = .row d →
      r.cancelling = false → r.suspending = false → x.f.dst + x.landed < 8192 →
      Yields (.fetchRowLand c n fd) s fun t =>
        let row := x.f.dst + x.landed
        t = { s with
          cores := t.cores
          mem := { s.mem with spm := t.mem.spm }
          gdl := { s.gdl with coded := t.gdl.coded, raw := t.gdl.raw, decErr := t.gdl.decErr }
          free := t.free } ∧
        (∀ e, e ≠ c.val → t.core e = s.core e) ∧
        (∀ k, k < 64 → t.mem.rdSpm c (64 * row + k) 1 = [(padTo 64 d.data).getD k 0]) ∧
        (∀ a, a / 64 ≠ row → t.mem.rdSpm c a 1 = s.mem.rdSpm c a 1) ∧
        (∀ i, (t.core c).present i = ((s.core c).present i || decide (i = row))) ∧
        (∀ i, (t.core c).poison.getLsbD i = if i = row then d.poison || fd = .uncorrectable else (s.core c).poison.getLsbD i) ∧
        t.run c = some { r with transfers := putTransfer { x with landed := x.landed + 1 } r.transfers } ∧
        (∀ y, (t.core c).region y = (s.core c).region y))

/-- The start of a job on a core (R109, R152, R153). -/
def Obligations.JobsStartAndLoad : Prop :=
  ∀ (c : CoreId) (s : State), s.running = true → coreUp s c = true →
    (∀ (job owner : Nat) (image : DWord), (s.core c).assigned = some (job, owner, image) → canStart s c = true →
      (∀ w ∈ s.longWaiters (.job job), w.2 ≠ 0x18) → Yields (.jobStart c) s fun t =>
        OnlyCore c s t ∧ t.run c = some (newRun job owner image) ∧ (t.core c).assigned = none ∧ (t.core c).errValid = false ∧
        (t.core c).owner = owner ∧ (∀ x, (t.core c).region x = (s.core c).region x) ∧
        ((s.core c).owner = owner → t.mem = s.mem ∧ (t.core c).presence = (s.core c).presence ∧ (t.core c).acc = (s.core c).acc ∧
          (t.core c).sync = (s.core c).sync) ∧
        ((s.core c).owner ≠ owner → (t.core c).acc = [] ∧ (t.core c).plane0 = Plane.zero ∧ (t.core c).plane1 = Plane.zero ∧
          (t.core c).sync = [] ∧ (t.core c).outSat = 0 ∧ (t.core c).accSat = 0 ∧ (t.core c).nonfinite = 0 ∧ (t.core c).fmtErr = 0 ∧
          (t.core c).deltaSkip = 0 ∧ (t.core c).ramps = 0 ∧
          ∀ x, x < 128 →
            (isResident ((s.core c).region x) = true → ∀ i, i < 64 → (t.core c).present (64 * x + i) = (s.core c).present (64 * x + i)) ∧
            (isResident ((s.core c).region x) = true → ∀ a, a / 4096 = x → t.mem.rdSpm c a 1 = s.mem.rdSpm c a 1) ∧
            (isResident ((s.core c).region x) = false → ∀ i, i < 64 → (t.core c).present (64 * x + i) = false) ∧
            (isResident ((s.core c).region x) = false → ∀ a, a / 4096 = x → t.mem.rdSpm c a 1 = [0]))) ∧
    (∀ (r : Run) (p : Place2), s.run c = some r → r.phase = .loading → r.ending = none → r.ended = false →
      (∀ f n a, (s.job r.job).kind ≠ .resideLoad f n a) → imagePlace s r.owner r.image = some p → mayReadPlace s r.owner p 64 = true →
      let head := (placeRows s p 1).getD 0 { data := [], poison := true }
      head.poison = false →
      (∀ h : Header, parseHeader head.data = some h → mayReadPlace s r.owner p (imageBytes h.count) = true →
        (∀ x ∈ placeRows s p (imageBytes h.count / 64), x.poison = false ∧ x.data.length = 64) → worksetOk (s.core c) r.owner h.workset = true →
        Yields (.programLoadLand c) s fun t => OnlyCore c s t ∧
          t.core c = { s.core c with run := some { r with phase := .loaded, count := h.count, workset := h.workset, init := h.init } } ∧
          t.mem.rdProg c 0 (imageBytes h.count) = (placeRows s p (imageBytes h.count / 64)).flatMap (·.data) ∧
          t.mem.spm = s.mem.spm) ∧
      (parseHeader head.data = none → (s.core c).errValid = false → Yields (.programLoadLand c) s fun t => OnlyCore c s t ∧ t.mem = s.mem ∧
        t.core c = { s.core c with
          run := some (failRun St.programError (progDetail c 0x3FF 0x0B) r)
          errIndex := 0x3FF
          errCode := 0x0B
          errValid := true })) ∧
    (∀ r : Run, s.run c = some r → r.phase = .loaded → r.ending = none → Yields (.jobFirstDecode c) s fun t =>
      OnlyCore c s t ∧ t.mem = s.mem ∧
      t.core c = { s.core c with
        run := some { r with phase := .running, iregs := r.init, loops := [], nextPlane := 0, pos := 0 }
        regions := (t.core c).regions
        credits := (t.core c).credits } ∧
      ∀ x, x < 128 → (t.core c).region x = if bit r.workset x = true ∧ (s.core c).region x = .free then .work else (s.core c).region x)

/-- The end of a job on a core (R113, R174, R176) and the credit stall (R97). -/
def Obligations.JobsEnd : Prop :=
  ∀ (c : CoreId) (s : State) (r : Run), OnCore c r s →
    let k := s.core c
    let j := s.job r.job
    let left := j.left.filter fun x => x ≠ c.val
    let ended : Job := { j with left := left, detail := if j.result = St.ok then 0 else j.detail }
    ((∃ p ∈ s.lfl.tenants, p.2.cores.getLsbD c = true) → r.ends = true → r.ending = none → Yields (.jobComplete c) s fun t =>
      let stays := fun x => x ∈ k.heldRegions ∧ x ∈ r.reside ∧ k.region x = .work
      let gone := fun x => x ∈ r.unreside ∧ (stays x ∨ x ∉ k.heldRegions ∧ k.region x = .resident r.owner)
      t.run c = none ∧ (∀ d, d ≠ c.val → t.core d = s.core d) ∧
      (∀ x, (gone x → (t.core c).region x = .free) ∧ (¬gone x → stays x → (t.core c).region x = .resident r.owner) ∧
        (¬stays x → x ∈ k.heldRegions → (t.core c).region x = .free) ∧
        (¬gone x → x ∉ k.heldRegions → (t.core c).region x = k.region x)) ∧
      (∀ a, (gone (a / 4096) → t.mem.rdSpm c a 1 = [0]) ∧ (¬gone (a / 4096) → t.mem.rdSpm c a 1 = s.mem.rdSpm c a 1)) ∧
      (left ≠ [] → t.job r.job = ended ∧ t.pci = s.pci) ∧
      (left = [] → j.kind = .run false → ∀ sub, j.sub = some sub → (s.queue sub.fn sub.qid).state ≠ .none →
        t.job r.job = { ended with state := .done } ∧
        (t.queue sub.fn sub.qid).waiting = (s.queue sub.fn sub.qid).waiting ++ [jobCompletion r.job { ended with state := .done } sub])) ∧
    (∀ st detail, (∃ p ∈ s.lfl.tenants, p.2.cores.getLsbD c = true) → r.ends = true → r.ending = some (st, detail) → st ≠ St.ok → r.unreside = [] → k.kept = none → k.assigned = none →
      (∀ d, d ≠ c.val → (s.core d).runs r.job = false ∧ (s.core d).keeps r.job = false ∧ (s.core d).awaits r.job = false) →
      Yields (.jobComplete c) s fun t => t.run c = none ∧ (∀ d, d ≠ c.val → t.core d = s.core d) ∧
        (∀ x, (t.core c).region x = if x ∈ k.heldRegions then .free else k.region x) ∧
        (∀ i, (t.core c).present i = (k.present i && !decide (i / 64 ∈ k.heldRegions))) ∧
        (t.job r.job).result = if j.result = St.ok then st else j.result) ∧
    (waitsForCredit s c r = true → r.quiet = true → headLacks k r = true → Yields (.creditStall c) s fun t =>
      OnlyCore c s t ∧ t.mem = s.mem ∧ t.core c = { k with
        run := some (failRun St.creditStall 0 r)
        fault := { k.fault with creditStall := true } })

/-- A core fences itself (R117). -/
def Obligations.CoreFencesItself : Prop :=
  ∀ (c : CoreId) (cause : FenceCause) (s : State), s.running = true → coreUp s c = true → (s.core c).run = none →
    (s.core c).kept = none → (s.core c).assigned = none → fenceCauseHolds (s.core c) cause = true →
    Yields (.coreSelfFence c cause) s fun t =>
      t.core c = { Core.init with
        fault := markFault cause (s.core c).fault
        step := (s.core c).step
        target := (s.core c).target } ∧
      (∀ d, d ≠ c.val → t.core d = s.core d) ∧
      (∀ i, t.fences.cores.getLsbD i = (s.fences.cores.getLsbD i || decide (i = c.val))) ∧
      t.fences = { s.fences with cores := t.fences.cores } ∧
      (∀ p, p < 16 → ∀ i, (t.tenant p).cores.getLsbD i = ((s.tenant p).cores.getLsbD i && !decide (i = c.val))) ∧
      (t.dom c).state = .off ∧ (∀ d, d ≠ c.val → t.dom d = s.dom d) ∧
      (∀ a, t.mem.rdSpm c a 1 = [0] ∧ t.mem.rdProg c a 1 = [0]) ∧
      (t.func 0).evq.posted = (s.func 0).evq.posted ++ [
        padTo 31 (evReclaim true c s.pci.reportNo.toNat (if (s.core c).credits.held = 0 then [] else [(0x01, c.val, (s.core c).credits.held)])),
        padTo 31 (evUnitNotice 1 c)]

/-- The registers of a core window that have a row of their own (R82, R119, R150), and the fall of the ramp (R135). -/
def Obligations.CoreRegistersWritten : Prop :=
  ∀ (fn : Fn) (c : CoreId) (v : Word) (s : State), s.running = true →
    (pf0Open s fn = true → coreUp s c = true → Yields (.spmRegionSelWrite fn c v) s fun t => OnlyCore c s t ∧ t.mem = s.mem ∧
      t.core c = { s.core c with regionSel := v.truncate 7, regionStat := regionStat s c (v.toNat % 128) }) ∧
    (coreWindowOpen s fn c = true → v.getLsbD 0 = true →
      (Yields (.coreNumClrWrite fn c v) s fun t => OnlyCore c s t ∧ t.mem = s.mem ∧
        t.core c = { s.core c with outSat := 0, accSat := 0, nonfinite := 0, fmtErr := 0 }) ∧
      (Yields (.arrStatClrWrite fn c v) s fun t => OnlyCore c s t ∧ t.mem = s.mem ∧
        t.core c = { s.core c with deltaSkip := 0, ramps := 0 })) ∧
    (v.getLsbD 0 = false → (Yields (.coreNumClrWrite fn c v) s fun t => t = s) ∧ Yields (.arrStatClrWrite fn c v) s fun t => t = s) ∧
    (∀ cycles, coreUp s c = true → (∀ r, s.run c = some r → r.array = []) → Yields (.rampFall c cycles) s fun t =>
      OnlyCore c s t ∧ t.mem = s.mem ∧ t.core c = { s.core c with columns := (s.core c).columns - 2 * cycles, slotAcct := (t.core c).slotAcct } ∧
      ((t.core c).columns = 0 → (t.core c).slotAcct = 0))

/-- The frame of every command, block by block. -/
def Obligations.CommandsKeepToTheirBlocks : Prop :=
  ∀ (i : Instr) (s t : State), exec i s = .next t → Confined (· ∈ touched i) s t

/-- Stream contexts move between their places and lives (R187 to R193, R196, R200). -/
def Obligations.ContextsMove : Prop :=
  ∀ (c : CtxId) (s : State), s.running = true →
    let x := s.ctx c
    let calm := ∀ d, d ∈ tenantCtxs s x.owner → (s.ctx d).needSlot = false
    let others := fun t : State => ∀ d, d ≠ c.val → t.ctx d = s.ctx d
    (s.lfl.idleMs ≠ 0 → x.life = .running → x.lastFrame + s.lfl.idleMs.toNat ≤ s.ms → Yields (.idleTimeout c) s fun t =>
      others t ∧ t.ctx c = if x.loc = .present ∧ ctxInFlight s c = false
        then { x with
          life := .idle
          loc := .swapOut
          swapWant := false
          ready := x.ready.map fun r => { r with waitState := true } }
        else { x with
          life := .idle
          swapWant := x.loc = .present || x.swapWant }) ∧
    (x.loc = .swapOut → domUp s 0x70 = true → x.ready = [] → x.needSlot = false → calm → Yields (.swapOutComplete c) s fun t =>
      others t ∧ t.ctx c = { x with loc := .absent, units := [], swapSubs := [] } ∧
      t.mem = { s.mem with dram := t.mem.dram } ∧
      (∀ a, a < x.params.backing ∨ x.params.backing + 4096 * x.units.length ≤ a → t.mem.rdDram a 1 = s.mem.rdDram a 1) ∧
      ∀ i, i < 64 * x.units.length → lineTaken 1 s (x.params.backing + 64 * i) = true →
        t.mem.rdDram (x.params.backing + 64 * i) 64 = padTo 64 (sramRow s (slotByte x.units (64 * i))).data) ∧
    (x.loc = .swapIn → domUp s 0x70 = true → x.swapWant = false → x.needSlot = false → calm → Yields (.swapInComplete c) s fun t =>
      others t ∧ t.ctx c = { x with
        loc := .present
        ready := x.ready.map fun r => if r.waitState then { r with waitState := false, since := s.ns } else r } ∧
      t.mem = { s.mem with sram := t.mem.sram } ∧ (∀ a, a / 4096 ∉ x.units → t.mem.rdSram a 1 = s.mem.rdSram a 1) ∧
      (x.units.Nodup → ∀ i, i < 64 * x.units.length → sramOff s (slotByte x.units (64 * i)) = false →
        t.mem.rdSram (slotByte x.units (64 * i)) 64 = padTo 64 (readLine s (x.params.backing + 64 * i)).data)) ∧
    (x.marksSent ≠ 0 → x.life ≠ .closed → Yields (.resetMark c) s fun t =>
      others t ∧ (x.zeroPend = true → t.ctx c = { x with
        marksSent := x.marksSent - 1
        lostSince := false
        marks := satUp x.marks 1 }) ∧
      (x.zeroPend = false → t.ctx c = { x with
        marksSent := x.marksSent - 1
        lostSince := false
        marks := satUp x.marks 1
        zeroPend := true
        segment := true
        frames := x.frames.filter (·.inChunk)
        ready := []
        passed := []
        needSlot := false
        discards := satUp x.discards x.ready.length
        nextSeq := (t.ctx c).nextSeq
        slots := (t.ctx c).slots
        arrived := 0
        taken := []
        curRows := 0
        window := []
        newSamples := [] })) ∧
    (closeReady s c = true → calm → Yields (.contextCloseDone c) s fun t =>
      others t ∧ t.ctx c = { Context.init with
        cfgOwner := x.cfgOwner
        kind := x.kind
        src := x.src
        rsv := x.rsv
        marks := x.marks
        late := x.late
        discards := x.discards
        delivered := x.delivered
        lost := x.lost
        overrun := x.overrun
        record := x.record } ∧
      t.sfe.pool = s.sfe.pool.give x.slots.length ∧
      (∀ a, t.mem.rdSram a 1 = if a / 4096 ∈ x.units then [0] else s.mem.rdSram a 1) ∧
      (∀ a, a < x.params.backing ∨ x.params.backing + 65536 ≤ a → t.mem.rdDram a 1 = s.mem.rdDram a 1)) ∧
    ∀ (fn : Fn) v, pf0Open s fn = true → Yields (.lflCtxSelWrite fn v) s fun t =>
      t.lfl = { s.lfl with
        ctxSel := BitVec.ofNat 5 v.toNat
        ctxStat := if v.toNat % 32 < 24 then ctxStat s (v.toNat % 32) else 0
        ctxCnt := if v.toNat % 32 < 24 then ctxCnt s (v.toNat % 32) else 0 } ∧ t = { s with lfl := t.lfl }

/-- Chunk jobs from dispatch to commit (R181 to R184, R194, R195, R198). -/
def Obligations.ChunkJobsRun : Prop :=
  ∀ s : State, s.running = true →
    (∀ i, instBusy s i = false →
      let o := s.inst i
      let gang := chunkGang s o.tenant o.handle
      let take := (takable s i).take o.bmax
      mayStart s { cls := 0, key := i, age := (takable s i).foldl (fun m x => min m x.2.since) s.ns, gang := gang } = true →
      let starts := fun t : State =>
        t.lfl.nextJob = s.lfl.nextJob + 1 ∧ (t.job s.lfl.nextJob).kind = .chunk i (take.map fun x => memberOf x.1 x.2) ∧
        (t.job s.lfl.nextJob).state = .running ∧ (t.job s.lfl.nextJob).left = gang.map (·.1) ∧
        (∀ j, j ≠ s.lfl.nextJob → t.job j = s.job j) ∧
        (∀ c, c ∉ gang.map (·.1) → t.core c = s.core c) ∧
        (∀ c, c ∈ gang.map (·.1) → ∃ g ∈ gang, g.1 = c ∧ t.core c = { s.core c with assigned := some (s.lfl.nextJob, g.2.1, g.2.2) }) ∧
        (∀ d, (t.ctx d).ready = if d ∈ take.map (·.1) then (s.ctx d).ready.filter (fun z => z.op ≠ o.pos) else (s.ctx d).ready)
      (batchFull s i = true → Yields (.chunkJobDispatch i) s starts) ∧
      (windowOver s i = true → Yields (.batchWindowExpiry i) s starts)) ∧
    ∀ (n i : Nat) (ms : List Member), (s.job n).kind = .chunk i ms →
      let o := s.inst i
      let j := s.job n
      (j.state = .done → j.result = St.ok → Yields (.chunkJobComplete n) s fun t =>
        t.job n = { j with
          state := .copying
          degSteps := chunkDegraded s n o } ∧ (∀ k, k ≠ n → t.job k = s.job k) ∧ t.sfe = s.sfe ∧ t.mem = s.mem) ∧
      (j.state = .done → rerunStatus j.result = true → j.rerun = false →
        (versionOf s o.handle).nroles ≤ (partitionCores s o.tenant).length → Yields (.chunkJobComplete n) s fun t =>
        t.job n = { j with
          state := .ready
          rerun := true
          left := []
          gang := [] } ∧ (∀ k, k ≠ n → t.job k = s.job k) ∧ t.sfe = s.sfe ∧ t.mem = s.mem) ∧
      ∀ m : Member, j.state = .copying → ms[j.committed]? = some m → Yields (.memberCommit n) s fun t =>
        let x := s.ctx m.ctx
        (ms.length ≤ j.committed + 1 → (t.job n).state = .ended) ∧
        (j.committed + 1 < ms.length → (t.job n).state = .copying ∧ (t.job n).committed = j.committed + 1) ∧
        (t.ctx m.ctx).record = chunkRecord o m m.discard (decide (m.deadline < s.ns)) j.degSteps ∧
        (t.ctx m.ctx).lastCommit = s.ns ∧
        (m.discard = false → x.loc = .present → x.zeroPend = false → x.swapWant = false →
          (∀ d, d ∈ tenantCtxs s x.owner → (s.ctx d).needSlot = false) → x.needSlot = false → o.stateOff % 64 = 0 →
          o.stateOff + o.stateLen ≤ 4096 * x.units.length → x.units.Nodup →
          (∀ a, a / 4096 ∉ x.units → t.mem.rdSram a 1 = s.mem.rdSram a 1) ∧
          ∀ k, k < o.stateLen / 64 → sramOff s (slotByte x.units (o.stateOff + 64 * k)) = false →
            t.mem.rdSram (slotByte x.units (o.stateOff + 64 * k)) 64 =
              padTo 64 (sramRow s (stagingAt s o j.committed + 64 * k)).data)

/-- Bridge replay and fencing (R24, R26, R42, R45), and the audit snapshot (R51). -/
def Obligations.BridgesReplayAndFence : Prop :=
  ∀ s : State, s.running = true →
    (∀ (d : Fin 6) (l : Fin 8) (b : BridgeDir), l.val ∈ workingLanes s (d / 2) → s.bridges[d.val]? = some b →
      Yields (.flitReplay d l) s fun t =>
        t = { s with bridges := t.bridges, free := s.free + 1 } ∧ (∀ k, k ≠ d.val → t.bridges[k]? = s.bridges[k]?) ∧
        ∃ w ∈ workingLanes s (d / 2),
          (∀ pre post : List Flit, b.replay = pre ++ { lane := some l.val } :: post → (∀ f ∈ pre, f.lane ≠ some l.val) →
            t.bridges[d.val]? = some { b with replay := pre ++ { lane := some w } :: post }) ∧
          ((∀ f ∈ b.replay, f.lane ≠ some l.val) → b.credits.free ≠ 0 → t.bridges[d.val]? =
            some { credits := { b.credits with free := b.credits.free - 1, held := b.credits.held + 1 }, replay := b.replay ++ [{ lane := some w }] })) ∧
    (∀ (b : Fin 3) (l : Fin 8), l.val ∈ workingLanes s b → Yields (.laneGroupFence b l) s fun t =>
      laneFenced t b l = true ∧ (∀ (x : Fin 3) i, laneFenced s x i = true → laneFenced t x i = true) ∧
      (workingLanes s b ≠ [l.val] →
        t = { s with fences := t.fences, bridges := t.bridges, pci := t.pci, free := s.free + 1 } ∧
        t.fences = { s.fences with brC0 := t.fences.brC0, brC1 := t.fences.brC1, brX := t.fences.brX } ∧
        (∀ (x : Fin 3) i, laneFenced t x i = (laneFenced s x i || decide (x = b ∧ i = l.val))) ∧
        (∃ w ∈ workingLanes s b, w ≠ l.val ∧ ∀ (d : Nat) q, s.bridges[d]? = some q → t.bridges[d]? = some (if d / 2 = b.val then
          { q with replay := q.replay.map fun f => if f.lane = some l.val then { lane := some w } else f } else q)) ∧
        (t.func 0).evq.posted = (s.func 0).evq.posted ++ [padTo 31 (evUnitNotice 3 (Config.laneNumber b l))] ∧
        (∀ f, f ≠ 0 → t.func f = s.func f)) ∧
      (workingLanes s b = [l.val] → b.val < 2 → t.fences.half.getLsbD b = true ∧ (∀ i, i < 8 → laneFenced t b i = true) ∧
        ∀ c, coreExists s c = true → coreHalf c = b.val → coreFenced t c = true)) ∧
    ∀ (fn : Fn) (v : Word), pf0Open s fn = true → Yields (.audSelectWrite fn v) s fun t =>
      t = { s with audit := t.audit } ∧ t.audit.pool = v.extractLsb' 0 8 ∧ t.audit.inst = v.extractLsb' 8 8 ∧ t.audit.valid = true ∧
      t.audit.fault = s.audit.fault ∧ t.audit.faultPool = s.audit.faultPool ∧ t.audit.faultInst = s.audit.faultInst ∧
      match poolOf s (v.extractLsb' 0 8).toNat (v.extractLsb' 8 8).toNat with
      | some p => t.audit.badSelect = false ∧ t.audit.total = BitVec.ofNat 64 p.total ∧ t.audit.free = BitVec.ofNat 64 p.free ∧ t.audit.held = BitVec.ofNat 64 p.held
      | none => t.audit.badSelect = true ∧ t.audit.total = 0 ∧ t.audit.free = 0 ∧ t.audit.held = 0

/-- The region registers (R207 with R204, R206, R433, R441). -/
def Obligations.RegionEntriesApplied : Prop :=
  ∀ (s : State) (fn : Fn) (v : Word), pf0Open s fn = true →
    let e := (v.extractLsb' 0 8).toNat
    let r := newRegion s
    (v.getLsbD 8 = false → Yields (.regionApply fn v) s fun t =>
      t = { s with gdl := { s.gdl with
        rgnSel := v.extractLsb' 0 8
        rgnSpan := t.gdl.rgnSpan
        rgnAttr := t.gdl.rgnAttr } } ∧
      t.gdl.rgnSpan.toNat = (s.region e).base.toNat + 65536 * (s.region e).size.toNat ∧
      t.gdl.rgnAttr.toNat = (s.region e).type.toNat + 8 * ofBool (s.region e).compress + 16 * ofBool (s.region e).prot +
        256 * (s.region e).owner.toNat + 4096 * (s.region e).key.toNat + 8589934592 * (s.region e).readers.toNat) ∧
    (v.getLsbD 8 = true → Yields (.regionApply fn v) s fun t =>
      t = { s with gdl := { s.gdl with
        rgnSel := v.extractLsb' 0 8
        rgnErr := t.gdl.rgnErr
        regions := t.gdl.regions } } ∧
      (t.gdl.rgnErr = false ↔ regionBusy s e = false ∧ tdiLocked s (s.region e).owner.toNat = false ∧
        (r.size ≠ 0 → tdiLocked s r.owner.toNat = false ∧ 1 ≤ r.type.toNat ∧ r.type.toNat ≤ 5 ∧ (r.owner = 0 → r.type = 1) ∧
          (r.compress = true → r.type = 1 ∧ r.prot = false) ∧
          (keySlot s r.key.toNat).live = true ∧ (keySlot s r.key.toNat).owner = r.owner ∧
          r.base.toNat + r.size.toNat ≤ usable s ∧
          ∀ x ∈ s.gdl.regions, x.1 ≠ e → x.2.size ≠ 0 → x.2.hi ≤ r.lo ∨ r.hi ≤ x.2.lo)) ∧
      (t.gdl.rgnErr = true → t.gdl.regions = s.gdl.regions) ∧
      (t.gdl.rgnErr = false → ∀ x, t.region x = if x = e then (if r.size = 0 then RegionEntry.none else r) else s.region x)) ∧
    r.base = s.gdl.rgnSpan.extractLsb' 0 16 ∧ r.size = s.gdl.rgnSpan.extractLsb' 16 16 ∧ r.type = s.gdl.rgnAttr.extractLsb' 0 3 ∧
    r.compress = s.gdl.rgnAttr.getLsbD 3 ∧ r.owner = s.gdl.rgnAttr.extractLsb' 8 4 ∧ r.key = s.gdl.rgnAttr.extractLsb' 12 7 ∧
    r.readers = s.gdl.rgnAttr.extractLsb' 33 15 ∧
    (r.prot = true ↔ s.gdl.rgnAttr.getLsbD 4 = true ∨ isConf s r.owner.toNat = true ∧ (r.type = 2 ∨ r.type = 3 ∨ r.type = 4))

/-- The tile stream (R219 to R227). -/
def Obligations.TileStreamDelivers : Prop :=
  ∀ s : State, s.running = true →
    (∀ slot : Fin 4, (s.slot slot).loading = true → Yields (.tableSlotLoadDone slot) s fun t =>
      t = { s with gdl := { s.gdl with slots := t.gdl.slots } } ∧
      ∀ i, t.slot i = if i = slot.val then { s.slot slot with loading := false } else s.slot i) ∧
    (domUp s 0x70 = true →
      (∀ p e : Nat, freeEntry s = some e →
        let g := s.pass p
        let halves := fun l k => (setHalves s g l k).map fun h => (h, 0)
        let moves := fun (t : State) (b : BufEntry) (g' : GdlPass) =>
          t = { s with
            gdl := { s.gdl with
              buffer := t.gdl.buffer
              passes := t.gdl.passes
              headerCache := t.gdl.headerCache
              coded := t.gdl.coded
              raw := t.gdl.raw
              decErr := t.gdl.decErr
              rrPass := p + 1 }
            free := s.free + 1 } ∧
          (∀ x, t.buf x = if x = e then (if b.waiting = [] then none else some b) else s.buf x) ∧
          ∀ q, t.pass q = if q = p then g' else s.pass q
        (g.images = [] → g.layer < g.layers.length → g.tile < (g.layerAt g.layer).ntiles → Yields (.tileReadStart p) s fun t =>
          moves t {
            pass := p
            layer := g.layer
            tile := g.tile
            blocks := (List.range (g.layerAt g.layer).blocks).map fun i => (fetchBlock s ((g.layerAt g.layer).blockAddr g.tile i)).1
            complete := false
            waiting := halves g.layer g.tile
            fallback := [] }
            (if g.tile + 1 < (g.layerAt g.layer).ntiles then { g with tile := g.tile + 1 } else { g with layer := g.layer + 1, tile := 0 })) ∧
        (g.images ≠ [] → Yields (.tileReadStart p) s fun t =>
          moves t {
            pass := p
            layer := 0
            tile := g.tile
            blocks := [.ready (g.images.take 64)]
            complete := true
            waiting := halves 0 g.tile
            fallback := [] }
            { g with images := g.images.drop 64, tile := g.tile + 1 })) ∧
      (∀ (p : Nat) (k : Byte) (h : Nat), wantsTable s p k.toNat = some h → (∀ i, i < 4 → (s.slot i).tag ≠ some (h, k.toNat)) →
        (∃ i, i < 4 ∧ slotFree (s.slot i) = true) → Yields (.tableSlotLoad p k) s fun t =>
        t = { s with gdl := { s.gdl with slots := t.gdl.slots }, free := s.free + 1 } ∧
        ∃ i, i < 4 ∧ (s.slot i).use = 0 ∧ (s.slot i).loading = false ∧ (s.slot i).held = false ∧
          ((s.slot i).tag ≠ none → ∀ j, j < 4 → slotFree (s.slot j) = true →
            (s.slot j).tag ≠ none ∧ (s.slot i).lastUse ≤ (s.slot j).lastUse) ∧
          ∀ x, t.slot x = if x = i then { s.slot i with
            tag := some (h, k.toNat)
            loading := true
            record := recordOf s h k.toNat } else s.slot x) ∧
      (∀ (e : Fin 128) (k : Fin 2) (b : BufEntry) (h tab : Nat) (lines : List RowData) (crc i : Nat), s.buf e = some b →
        b.blocks[k.val]? = some (.coded h tab lines crc) → slotOf s h tab = some i → (s.slot i).loading = false →
        (∃ x, x < 8 ∧ (s.expander x).length < 2) → Yields (.expanderBlockAccept e k) s fun t =>
        ∃ x, x < 8 ∧ (s.expander x).length < 2 ∧
          (∀ y, t.expander y = if y = x then s.expander x ++ [{
            entry := e
            blk := k
            pass := b.pass
            layer := b.layer
            tile := b.tile
            slot := i
            lines := lines
            crc := crc }] else s.expander y) ∧
          (∀ y, t.slot y = if y = i then { s.slot i with use := (s.slot i).use + 1, lastUse := s.gdl.useClock } else s.slot y) ∧
          (∀ y, t.buf y = if y = e.val then some { b with blocks := b.blocks.set k .inExpander } else s.buf y) ∧
          t = { s with gdl := { s.gdl with
            expanders := t.gdl.expanders
            slots := t.gdl.slots
            buffer := t.gdl.buffer
            rrExp := (x + 1) % 8
            useClock := s.gdl.useClock + 1 } }) ∧
      (∀ (n : Fin 8) (x : ExpBlock) (rest : List ExpBlock), s.expander n = x :: rest → Yields (.blockDecodeDone n) s fun t =>
        let out := Codec.expand (s.slot x.slot).record (x.lines.flatMap (·.data)) x.crc
        let poisoned := x.lines.any (·.poison) || out.isNone
        (∀ y, t.expander y = if y = n.val then rest else s.expander y) ∧
        (∀ y, t.slot y = if y = x.slot then { s.slot y with use := (s.slot y).use - 1 } else s.slot y) ∧
        (∃ ls : List RowData, (∀ y, t.buf y = if y = x.entry then (s.buf y).map (fun b =>
              if b.pass = x.pass ∧ b.layer = x.layer ∧ b.tile = x.tile then { b with blocks := b.blocks.set x.blk (.ready ls) } else b) else s.buf y) ∧
            ls.length = 32 ∧ (poisoned = true → ∀ l ∈ ls, l.poison = true) ∧
            (poisoned = false → ∀ o, out = some o → ls = toLines 32 o)) ∧
        (x.lines.any (·.poison) = false → out.isNone = true → t.gdl.decErr = satUp s.gdl.decErr 1 ∧ t.gdl.coded = s.gdl.coded) ∧
        (x.lines.any (·.poison) = true ∨ out.isNone = false → t.gdl.coded = s.gdl.coded + 1 ∧ t.gdl.decErr = s.gdl.decErr) ∧
        t = { s with
          gdl := { s.gdl with
            expanders := t.gdl.expanders
            slots := t.gdl.slots
            buffer := t.gdl.buffer
            coded := t.gdl.coded
            decErr := t.gdl.decErr }
          free := s.free + 1 }) ∧
      (∀ (e : Fin 128) (b : BufEntry), s.buf e = some b → (∀ x ∈ b.blocks, ∃ ls, x = .ready ls) → Yields (.tileComplete e) s fun t =>
        t = { s with gdl := { s.gdl with buffer := t.gdl.buffer } } ∧
        ∀ x, t.buf x = if x = e.val then some { b with complete := true } else s.buf x) ∧
      ∀ (e : Fin 128) (h : HalfId) (b : BufEntry) (l : LayerRec), s.buf e = some b → b.complete = true →
        (s.pass b.pass).layers[b.layer]? = some l → 0 < l.ntiles → b.waiting.find? (fun w => w.1 = h.val) = some (h.val, 0) →
        Tab.get [] b.fallback h = [] → b.rows ≠ [] → behind s b h = false →
        let cores := setCores s (s.pass b.pass) b.layer b.tile h
        cores ≠ [] → (∀ c ∈ cores, b.rows.length ≤ roomFor s c l.chan) → b.rows.length ≤ 8192 →
        Yields (.tileCopyDepart e h) s fun t =>
          (∀ c, c ∉ cores → t.core c = s.core c) ∧
          (∀ c ∈ cores, t.core c = { s.core c with run := (s.run c).map fun r =>
            { r with transfers := fillTransfers l.chan b.rows r.transfers } }) ∧
          (∀ x, t.buf x = if x = e.val then (if ∀ w ∈ b.waiting, w.1 = h.val then none
            else some { b with waiting := b.waiting.filter fun w => w.1 ≠ h.val }) else s.buf x) ∧
          t = { s with
            cores := t.cores
            gdl := { s.gdl with
              buffer := t.gdl.buffer
              late := if (s.pass b.pass).late.contains (b.layer, b.tile, h.val) &&
                !(cores.any fun c => isConf s (s.core c).owner) then s.gdl.late + 1 else s.gdl.late } })

/-- Deadlines and the snowplough path (R229 to R233, R238). -/
def Obligations.LateTilesFallBack : Prop :=
  ∀ s : State, s.running = true → ∀ (p l k : Nat) (h : HalfId) (r : LayerRec), (s.pass p).layers[l]? = some r →
    let g := s.pass p
    (r.fbElig = true → k < r.ntiles → g.start + r.dfrac * g.budget / 65536 ≤ s.ns → (l, k, h.val) ∉ g.late →
      ((∃ e b, tileEntry s p l k = some (e, b) ∧ b.complete = false ∧ ∃ w ∈ b.waiting, w.1 = h.val) ∨
        (tileEntry s p l k = none ∧ (g.layer < l ∨ g.layer = l ∧ g.tile ≤ k) ∧ setCores s g l k h ≠ []) →
        Yields (.tileDeadline p l k h) s fun t => t = { s with gdl := { s.gdl with passes := t.gdl.passes } } ∧
          ∀ q, t.pass q = if q = p then { g with late := g.late ++ [(l, k, h.val)] } else s.pass q) ∧
      ((∃ e b, tileEntry s p l k = some (e, b) ∧ b.complete = true) → Yields (.tileDeadline p l k h) s (· = s))) ∧
    (domUp s 0x70 = true → ∀ (e : Fin 128) (b : BufEntry),
      let lines := (List.range 20).map fun i => sramRow s (fallbackAddr s g l k + 64 * i)
      let bytes := lines.flatMap (·.data)
      (tileEntry s p l k = some (e.val, b) → (l, k, h.val) ∈ g.late → (∃ w ∈ b.waiting, w.1 = h.val) → fallbackApplies s g l k h = true →
        Yields (.fallbackTileReady p l k h) s fun t => t = { s with gdl := { s.gdl with buffer := t.gdl.buffer } } ∧
          ∃ rows : List RowData, (∀ x, t.buf x = if x = e.val then some { b with fallback := Tab.set [] b.fallback h rows } else s.buf x) ∧
            (∀ x ∈ rows, x.poison = lines.any (·.poison)) ∧
            (r.tfmt ≠ 1 → r.tfmt ≠ 2 → rows.length = 64 ∧ ∀ i j x, rows[i]? = some x → j < 64 →
              x.data[j]? = some (bytes.getD (1024 + 4 * j + (bytes.getD (16 * i + j / 4) 0).toNat / 4 ^ (j % 4) % 4) 0))) ∧
      (s.buf e = some b → b.pass = p → b.layer = l → b.tile = k → (∃ sent, b.waiting.find? (fun w => w.1 = h.val) = some (h.val, sent)) →
        let rows := Tab.get [] b.fallback h
        let cores := setCores s g l k h
        rows ≠ [] → behind s b h = false → cores ≠ [] → (∀ c ∈ cores, rows.length ≤ roomFor s c r.chan) → rows.length ≤ 8192 →
        Yields (.tileCopyDepart e h) s fun t =>
          (∀ c, c ∉ cores → t.core c = s.core c) ∧
          (∀ c ∈ cores, t.core c = { s.core c with run := (s.run c).map fun x =>
            { x with transfers := fillTransfers r.chan rows x.transfers } }) ∧
          (∀ x, t.buf x = if x = e.val then (if ∀ w ∈ b.waiting, w.1 = h.val then none
            else some { b with waiting := b.waiting.filter fun w => w.1 ≠ h.val }) else s.buf x) ∧
          (∀ q, t.pass q = if q = p then { g with degraded := true } else s.pass q) ∧
          t = { s with
            cores := t.cores
            gdl := { s.gdl with
              buffer := t.gdl.buffer
              passes := t.gdl.passes
              fallback := if cores.any fun c => isConf s (s.core c).owner then s.gdl.fallback else s.gdl.fallback + 1 } }))

/-- Tokens, checks, refill, the wheel and neighbour refresh (R244, R246, R250 to R255, R258). -/
def Obligations.DramTokensMove : Prop :=
  ∀ s : State, s.running = true →
    (∀ (p : Fin 7) (a : Fin 16) (x : Port) (y : Account), s.ddr.ports[p.val]? = some x → x.accts[a.val]? = some y →
      (∀ (line : Nat) (k : Fin 5) (write : Bool), grantable s p a line k = true →
        let pl := place s (64 * line)
        let bank := bankKey pl.rank pl.bank
        let old := s.chan pl.chan
        let open_ := Tab.get none old.openRow bank = some pl.row
        Yields (.dramAccessGrant p a line k write) s fun t =>
          t.acct p a = { y with free := y.free - k, held := y.held + k } ∧
          (∀ q b, (q, b) ≠ (p.val, a.val) → t.acct q b = s.acct q b) ∧ (∀ q, (t.port q).total = (s.port q).total) ∧
          t.ddr.grants = s.ddr.grants ++ [{
            port := p
            acct := a
            line := line
            k := k
            write := write }] ∧
          Tab.get none (t.chan pl.chan).openRow bank = some pl.row ∧
          (open_ → t.chan pl.chan = { old with checkCache := (t.chan pl.chan).checkCache, rrPort := (p + 1) % 7 }) ∧
          ((t.chan pl.chan).nr = old.nr ∨ ¬ open_ ∧ (Tab.get [] old.nr bank).length < 8 ∧
            (t.chan pl.chan).nr = Tab.set [] old.nr bank (Tab.get [] old.nr bank ++ [pl.row])) ∧
          (∀ c, c ≠ pl.chan → t.chan c = s.chan c) ∧
          (x.whole.balanced = true → (t.port p).whole.balanced = true ∧ t = { s with
            ddr := { s.ddr with
              ports := t.ddr.ports
              chans := t.ddr.chans
              grants := t.ddr.grants }
            free := t.free })) ∧
      (∀ (g : Grant) (fs : List Finding), firstGrant p s.ddr.grants = some g → g.acct = a → g.k ≤ y.held →
        let off := (s.dom (groupDom s (64 * g.line))).state = .off ∨ (s.dom (groupDom s (64 * g.line))).reset = true
        let spent := fun t : State =>
          t.acct p a = { y with held := y.held - g.k } ∧ (∀ q b, (q, b) ≠ (p.val, a.val) → t.acct q b = s.acct q b) ∧
          (t.port p).total = x.total - g.k ∧ (∀ q, q ≠ p.val → t.port q = s.port q) ∧ t.ddr.grants = s.ddr.grants.erase g
        (g.write = true ∨ off ∨ (∀ i, i < g.k → fs.getD i .clean = .clean ∧
            ((lineTag s (64 * (g.line + i))).poison = true ∨ keyMismatch s (64 * (g.line + i)) = false)) →
          Yields (.dramAccessComplete p fs) s fun t => spent t ∧ (x.whole.balanced = true → (t.port p).whole.balanced = true ∧
            t = { s with
              ddr := { s.ddr with
                ports := t.ddr.ports
                grants := t.ddr.grants }
              free := s.free + 1 })) ∧
        (g.write = false → ¬ off → g.k = 1 → keyMismatch s (64 * g.line) = false →
          let c := (place s (64 * g.line)).chan
          (fs = [.corrected] → Yields (.dramAccessComplete p fs) s fun t => spent t ∧
            (∃ n, 1 ≤ n ∧ n ≤ 8 ∧ (t.chan c).ce = satUp (s.chan c).ce n) ∧ (t.chan c).ue = (s.chan c).ue ∧ t.ddr.tags = s.ddr.tags) ∧
          (fs = [.uncorrectable] → Yields (.dramAccessComplete p fs) s fun t => spent t ∧
            (t.chan c).ue = satUp (s.chan c).ue 1 ∧ (t.chan c).ce = (s.chan c).ce ∧
            (t.chan c).lastUe = BitVec.ofNat 31 g.line ∧
            (readLine t (64 * g.line)).poison = true ∧ ∀ l, l ≠ g.line → lineTag t (64 * l) = lineTag s (64 * l)))) ∧
      (domUp s 0x70 = true →
        (y.mode = 2 → Yields .tokenRefill s fun t =>
          let sum := y.frac + (if y.slots = 0 then 100 * y.rate.toNat else 569 * y.slots.toNat)
          t.acct p a = { y with frac := sum % 6400, free := y.free + min (sum / 6400) (y.burst.toNat - y.free) }) ∧
        (y.mode = 0 → Yields .tokenRefill s fun t =>
          t.acct p a = { y with frac := y.frac % 6400, free := y.free + min (y.frac / 6400) (y.burst.toNat - y.free) }))) ∧
    (∀ c : Fin 32, c.val ∈ channels s → Yields (.wheelSlot c) s fun t => t = { s with ddr := { s.ddr with chans := t.ddr.chans } } ∧
      ∀ d, t.chan d = if d = c.val then { s.chan d with wheelPos := (s.chan d).wheelPos + 1 } else s.chan d) ∧
    (∀ seeds : List Word, seeds.length = 32 → Yields (.lfsrReseed seeds) s fun t => t = { s with ddr := { s.ddr with chans := t.ddr.chans } } ∧
      ∀ d, t.chan d = { s.chan d with lfsr := seeds.getD d (s.chan d).lfsr }) ∧
    (∀ (c : Fin 32) (b : Fin 16) (r row : Nat) (rest : List Nat), domUp s (0x60 + c / 4) = true →
      slotOwner (s.chan c) (s.chan c).wheelPos.toNat = none → r < 2 → Tab.get [] (s.chan c).nr (bankKey r b) = row :: rest →
      (r = 1 → Tab.get [] (s.chan c).nr (bankKey 0 b) = []) → Yields (.neighbourRefreshIssue c b) s fun t =>
        t = { s with ddr := { s.ddr with chans := t.ddr.chans, nrCount := s.ddr.nrCount + 1 } } ∧
        (∀ d, d ≠ c.val → t.chan d = s.chan d) ∧ t.chan c = { s.chan c with nr := (t.chan c).nr } ∧
        ∀ k, Tab.get [] (t.chan c).nr k = if k = bankKey r b then rest else Tab.get [] (s.chan c).nr k) ∧
    (s.ddr.patrolH ≠ 0 →
      Yields (.patrolScrub []) s (fun t => t = { s with ddr := { s.ddr with lastPatrol := s.ns }, free := s.free + 1 }) ∧
      ∀ l, domUp s (groupDom s (64 * l)) = true → Yields (.patrolScrub [(l, .uncorrectable)]) s fun t =>
        (t.chan (place s (64 * l)).chan).ue = satUp (s.chan (place s (64 * l)).chan).ue 1 ∧
        (readLine t (64 * l)).poison = true ∧ t.ddr.ports = s.ddr.ports)

/-- Accounts, failing pairs and retraining (R247 to R249, R253 to R256, R259). -/
def Obligations.AccountsAppliedAndChannelsRetrained : Prop :=
  ∀ s : State, s.running = true →
    (∀ (fn : Fn) (v : Word), pf0Open s fn = true → v.getLsbD 8 = true →
      let p := (v.extractLsb' 0 3).toNat
      let a := (v.extractLsb' 4 4).toNat
      let x : Account := { s.acct p a with
        rate := s.ddr.regCfg.extractLsb' 0 10
        mode := s.ddr.regCfg.extractLsb' 10 2
        slots := s.ddr.regCfg.extractLsb' 16 5
        burst := s.ddr.regCfg.extractLsb' 32 16 }
      Yields (.accountApply fn v) s fun t =>
        (t.ddr.regErr = false ↔ p ≤ 6 ∧ (x.slots ≠ 0 → a ≠ 0 ∧ p ≠ 6) ∧ (p = 6 → a ≠ 0 → x.mode = 0) ∧
          (x.mode = 2 → otherSlots s p a + x.slots.toNat ≤ 16) ∧ 16 ≤ x.burst.toNat ∧ x.mode ≠ 3 ∧ (a = 0 → x.mode ≠ 0) ∧
          (a ≠ 0 → tdiLocked s a = false)) ∧
        (t.ddr.regErr = true → t.ddr.ports = s.ddr.ports ∧ t.ddr.chans = s.ddr.chans ∧ t.audit = s.audit ∧ t.boot = s.boot) ∧
        (t.ddr.regErr = false →
          (∀ (y : Port) (z : Account), s.ddr.ports[p]? = some y → y.accts[a]? = some z →
            t.acct p a = (if x.mode = 0 then { x with free := 0, frac := 0 } else x) ∧
            (∀ w, a ≠ 0 → y.accts[0]? = some w → t.acct p 0 = { w with free := w.free + (if x.mode = 0 then z.free else 0) })) ∧
          (∀ q b, ¬ (q = p ∧ (b = a ∨ b = 0)) → t.acct q b = s.acct q b) ∧ (∀ q, (t.port q).total = (s.port q).total) ∧
          ∀ c ∈ channels s, ∀ i j : Nat, i < j → j < 64 → Tab.get none (t.chan c).owners i ≠ none → Tab.get none (t.chan c).owners j ≠ none →
            i + 4 ≤ j ∧ j + 4 ≤ i + 64)) ∧
    (∀ k : Fin 16, (∃ c, c / 2 = k.val ∧ (2 ≤ (s.chan c).ueRows.length ∨ 4096 ≤ (s.chan c).ceTick)) → Yields (.pairFailing k) s fun t =>
      (∀ i, t.ddr.fail.getLsbD i = (s.ddr.fail.getLsbD i || decide (i = k.val))) ∧
      (s.ddr.fail.getLsbD k = true → t = s) ∧
      (s.ddr.fail.getLsbD k = false → t = { s with
          ddr := { s.ddr with fail := t.ddr.fail }
          pci := t.pci } ∧
        (t.func 0).evq.posted = (s.func 0).evq.posted ++ [padTo 31 (evUnitNotice 2 k)])) ∧
    (let first := ((channels s).filter fun c => domUp s (0x60 + c / 4)).headD 32
     let due := fun t : State => t = { s with ddr := { s.ddr with
        retrain := if s.ddr.retrain.isSome then s.ddr.retrain else some {
          chan := first
          suspended := false
          cmd := none }
        retrainDue := s.ddr.retrain.isSome || s.ddr.retrainDue } }
     (s.ddr.periodS ≠ 0 → s.ddr.lastTrain + s.ddr.periodS.toNat * 10 ^ 9 ≤ s.ns → Yields .retrainPeriodExpiry s due) ∧
     (s.ddr.tempDelta ≠ 0 → s.ddr.tempDelta.toNat ≤ (junction s - s.ddr.lastTemp).natAbs → Yields .tempDeltaRetrain s due) ∧
     (∀ sub : Sub, Begins 0x28 sub s → sub.fn = 0 → Yields (.ddrRetrain sub) s fun t =>
        t.ddr = { s.ddr with
          nextRetrain := s.ddr.nextRetrain + 1
          retrain := if s.ddr.retrain.isSome then s.ddr.retrain else some {
            chan := first
            suspended := false
            cmd := some (s.ddr.nextRetrain, sub) }
          retrainQ := if s.ddr.retrain.isSome then s.ddr.retrainQ ++ [(s.ddr.nextRetrain, sub)] else s.ddr.retrainQ } ∧
        (∃ l, t.lfl.longOps = s.lfl.longOps ++ [l] ∧ l.kind = .retrain s.ddr.nextRetrain ∧ l.jobId = sub.jobId ∧ l.suspended = false) ∧
        t.pci = { s.pci with taken := s.pci.taken.eraseP (Taken.isOf 0x28 sub) })) ∧
    ∀ (r : Retrain) (w0 w1 : LaneSweep), s.ddr.retrain = some r → r.suspended = false → r.chan ∈ channels s →
      let trained := fun (w : LaneSweep) (l l' : LaneDelay) (good : Bool) =>
        if l.mode = true ∧ expert s 0 = true then l' = l ∧ good = true
        else l'.mode = false ∧ l'.rdW = BitVec.ofNat 7 (runLen w.rdA w.rdB) ∧ l'.wrW = BitVec.ofNat 7 (runLen w.wrA w.wrB) ∧
          (24 ≤ runLen w.rdA w.rdB → 24 ≤ runLen w.wrA w.wrB → good = true ∧
            l'.rd.toNat = (w.rdA.toNat + w.rdB.toNat) / 2 ∧ l'.wr.toNat = (w.wrA.toNat + w.wrB.toNat) / 2) ∧
          (runLen w.rdA w.rdB < 24 ∨ runLen w.wrA w.wrB < 24 → good = false ∧ l'.rd = l.rd ∧ l'.wr = l.wr)
      let takes := fun t : State => ∃ g0 g1,
        trained w0 (s.chan r.chan).lane0 (t.chan r.chan).lane0 g0 ∧ trained w1 (s.chan r.chan).lane1 (t.chan r.chan).lane1 g1 ∧
        (∀ c, c ≠ r.chan → t.chan c = s.chan c) ∧
        (∀ i, t.ddr.fail.getLsbD i = (s.ddr.fail.getLsbD i || (decide (i = r.chan / 2) && !(g0 && g1))))
      let next := (trainable s).find? fun c => r.chan < c
      (r.chan < 32 → ((∀ n sub, r.cmd = some (n, sub) → s.longWaiters (.retrain n) = []) →
        (∀ c, next = some c → Yields (.retrainChannelDone [w0, w1]) s fun t => takes t ∧
          t.ddr.retrain = some { r with chan := c, suspended := false }) ∧
        (next = none → s.ddr.retrainDue = false → s.ddr.retrainQ = [] → Yields (.retrainChannelDone [w0, w1]) s fun t => takes t ∧
          t.ddr.retrain = none ∧ t.ddr.lastTrain = s.ns ∧ t.ddr.lastTemp = junction s ∧
          ∀ n sub, r.cmd = some (n, sub) → (s.queue sub.fn sub.qid).state ≠ .none →
            (t.queue sub.fn sub.qid).waiting = (s.queue sub.fn sub.qid).waiting ++ [plainCompletion sub St.ok 0])))

/-- Grants, opens, marks, swaps and closes of stream contexts (R188, R192, R196, R353 to R356, R371). -/
def Obligations.StreamContextCommands : Prop :=
  ∀ s : State, s.running = true →
    (∀ (fn : Fn) (v : Word), bar0Open s fn = true →
      let c := (v.extractLsb' 0 5).toNat
      (fn ≠ 0 → Yields (.contextGrantApply fn v) s fun t => t.sfe = s.sfe ∧
        ∀ f, t.func f = if f = fn.val then { s.func f with sfeSel := v.extractLsb' 0 5 } else s.func f) ∧
      (fn = 0 → v.getLsbD 5 = false → Yields (.contextGrantApply fn v) s fun t =>
        t.sfe = { s.sfe with ctxCfg := ctxCfgWord (s.ctx c) } ∧ (t.func 0).sfeSel = v.extractLsb' 0 5 ∧ (t.func 0).sfeErr = (s.func 0).sfeErr) ∧
      (fn = 0 → v.getLsbD 5 = true →
        let w := s.sfe.ctxCfg
        let x := s.ctx c
        let y : Context := { x with
          cfgOwner := w.extractLsb' 0 4
          kind := w.extractLsb' 4 3
          src := w.extractLsb' 8 5
          rsv := w.extractLsb' 16 7 }
        let others := (List.range 24).filter (· ≠ c)
        Yields (.contextGrantApply fn v) s fun t =>
          ((t.func 0).sfeErr = false ↔ c < 24 ∧ x.life = .closed ∧ y.kind.toNat ≤ 5 ∧
            (∀ d ∈ others, (s.ctx d).kind = y.kind → (y.kind = 1 → (s.ctx d).src.toNat % 8 ≠ y.src.toNat % 8) ∧ (y.kind = 2 → (s.ctx d).src ≠ y.src)) ∧
            (y.kind = 1 → others.countP (fun d => (s.ctx d).kind = 1) < 8) ∧ (y.kind = 2 → others.countP (fun d => (s.ctx d).kind = 2) < 16) ∧
            (y.kind = 1 ∨ y.kind = 4 → 2 ≤ y.rsv.toNat) ∧ y.rsv.toNat + (others.map fun d => (s.ctx d).rsv.toNat).sum ≤ 512 ∧
            (ctxCfgWord x ≠ ctxCfgWord y → tdiLocked s x.owner = false ∧ tdiLocked s y.owner = false)) ∧
          (∀ d, t.ctx d = if d = c ∧ (t.func 0).sfeErr = false then y else s.ctx d) ∧ t.sfe = { s.sfe with ctxs := t.sfe.ctxs })) ∧
    ∀ (sub : Sub) (b : Byte), sub.fn ≠ 0 →
      let c := b.toNat
      let x := s.ctx c
      let others := fun t : State => ∀ d, d ≠ c → t.ctx d = s.ctx d
      let ended := fun (op : Nat) (st : BitVec 16) (t : State) => OnlyEnded op sub (plainCompletion sub st 0) s t
      let waits := fun (op : Nat) (t : State) => t.pci = { s.pci with taken := s.pci.taken.eraseP (Taken.isOf op sub) }
      let cmds : List (Nat × Instr × Bool) := [(0x03, .stateSwap sub b, true), (0x05, .streamClose sub b true, true), (0x05, .streamClose sub b false, true), (0x07, .streamMark sub b, true)]
      (∀ q ∈ cmds, Begins q.1 sub s → (24 ≤ c → Yields q.2.1 s fun t => ended q.1 St.badCommand t ∧ t.sfe = s.sfe) ∧
        (c < 24 → x.owner ≠ sub.fn.val → Yields q.2.1 s fun t => ended q.1 St.accessDenied t ∧ t.sfe = s.sfe) ∧
        (c < 24 → x.owner = sub.fn.val → x.life = .closed ∨ x.life = .closing → Yields q.2.1 s fun t => ended q.1 St.streamState t ∧ t.sfe = s.sfe)) ∧
      (c < 24 → ∀ (h : BitVec 16) (record : Bytes), Begins 0x04 sub s →
        (x.owner ≠ sub.fn.val → Yields (.streamOpen sub b h record) s fun t => ended 0x04 St.accessDenied t ∧ t.sfe = s.sfe) ∧
        (x.owner = sub.fn.val → x.life ≠ .closed → Yields (.streamOpen sub b h record) s fun t => ended 0x04 St.streamState t ∧ t.sfe = s.sfe) ∧
        (∀ e, x.owner = sub.fn.val → x.life = .closed → handleEntry s h.toNat = some e → (s.version e).state = 3 → openTo s sub.fn (s.version e) = true →
          badStream s sub.fn x record = false → s.sfe.pool.balanced = true → 2 ≤ s.sfe.pool.free → Yields (.streamOpen sub b h record) s fun t =>
            ended 0x04 St.ok t ∧ others t ∧
            t.ctx c = { Context.init with
              cfgOwner := x.cfgOwner
              kind := x.kind
              src := x.src
              rsv := x.rsv
              life := .running
              params := parseStream record
              handle := h.toNat
              lastFrame := s.ms
              lastCommit := s.ns
              slots := if x.kind = 1 ∨ x.kind = 4 then [(0, 1), (1, 1)] else []
              slotCtr := if x.kind = 1 ∨ x.kind = 4 then 2 else 0 } ∧
            t.sfe.pool = (if x.kind = 1 ∨ x.kind = 4 then s.sfe.pool.take 2 else s.sfe.pool) ∧
            (t.version (h.toNat % 1024)).refs = satUp (s.version (h.toNat % 1024)).refs 1 ∧
            ∀ i r, (recsOf (popTaken 0x04 sub s) (versionOf (popTaken 0x04 sub s) h.toNat))[i]? = some r →
              ∃ n o, (n, o) ∈ t.lfl.insts ∧ o.tenant = x.owner ∧ o.handle = h.toNat ∧ o.pos = i)) ∧
      (c < 24 → x.owner = sub.fn.val → x.life = .running ∨ x.life = .idle →
        (Begins 0x07 sub s → Yields (.streamMark sub b) s fun t => ended 0x07 St.ok t ∧ others t ∧ t.ctx c = { x with marksSent := x.marksSent + 1 }) ∧
        (Begins 0x03 sub s →
          (x.loc = .none ∨ x.loc = .absent → Yields (.stateSwap sub b) s fun t => ended 0x03 St.ok t ∧ t.sfe = s.sfe) ∧
          (x.loc = .present → ctxInFlight s c = false → Yields (.stateSwap sub b) s fun t => waits 0x03 t ∧ others t ∧ t.ctx c = { x with
            loc := .swapOut
            swapWant := false
            swapSubs := x.swapSubs ++ [sub]
            ready := x.ready.map fun r => { r with waitState := true } }) ∧
          (x.loc = .swapOut → x.swapWant = false → Yields (.stateSwap sub b) s fun t => waits 0x03 t ∧ others t ∧
            t.ctx c = { x with swapSubs := x.swapSubs ++ [sub] })) ∧
        (Begins 0x05 sub s → ∀ flush : Bool, Yields (.streamClose sub b flush) s fun t =>
          (t.ctx c).life = .closing ∧ (t.ctx c).closeSub = some sub ∧ (t.ctx c).flush = flush ∧ (t.ctx c).images = [] ∧
          (flush = false → (t.ctx c).frames = x.frames.filter (·.inChunk)) ∧
          ∀ d, (t.ctx d).frames.length ≤ (s.ctx d).frames.length ∧ (d ≠ c → (t.ctx d).life = (s.ctx d).life)))

/-- Frames from cameras, audio hops and pushes (R357, R360, R361, R364 to R368). -/
def Obligations.FramesReachTheirContexts : Prop :=
  ∀ s : State, s.running = true →
    let arrives := fun (c : Nat) (head : Bytes) (ts : Nat) (jump : Bool) (t : State) =>
      (t.ctx c).delivered = wrapUp (s.ctx c).delivered 1 ∧ (t.ctx c).frameIdx = ((s.ctx c).frameIdx + 1) % 2 ^ 32 ∧ (t.ctx c).lostSince = false ∧
      (∃ f, (t.ctx c).frames.getLast? = some f ∧ f.idx = (s.ctx c).frameIdx ∧ f.row = frameRow head (s.ctx c).frameIdx ((s.ctx c).lostSince || jump) ts) ∧
      ∀ d, d ≠ c → (t.ctx d).frames = (s.ctx d).frames
    (∀ (port : Fin 4) (p : CsiPacket), domUp s 0x71 = true → s.fences.csi.getLsbD port = false → (s.csiPort port).on = true →
      let mine := [2 * port.val, 2 * port.val + 1].filter fun i => (s.csiVc i).en && (s.csiVc i).vcid.toNat = p.vcid.val && (match p.body with
        | .line _ _ _ => (s.csiVc i).dt = p.dt
        | _ => true)
      (p.hdr = .uncorrectable → Yields (.csiPacket port p) s fun t => (t.csiPort port).eccUe = satUp (s.csiPort port).eccUe 1 ∧
        (∀ i, (t.csiFrame i).lost = ((s.csiFrame i).lost || (decide (i / 2 = port.val) && (s.csiFrame i).active))) ∧ ∀ d, t.ctx d = s.ctx d) ∧
      (p.hdr = .clean → ∀ b ok full, p.body = .line b ok full →
        (mine = [] → Yields (.csiPacket port p) s fun t => (t.csiPort port) = { s.csiPort port with ignored := wrapUp (s.csiPort port).ignored 1 } ∧ t.sfe = { s.sfe with ports := t.sfe.ports }) ∧
        (∀ i, mine = [i] → (s.csiFrame i).active = true → Yields (.csiPacket port p) s fun t => t.csiFrame i = { s.csiFrame i with
            lines := (s.csiFrame i).lines ++ [b]
            lost := (s.csiFrame i).lost || !ok || full || decide (b.length ≠ (s.csiVc i).width.toNat * pixelBytes (s.csiVc i).dt.toNat) } ∧
          ((t.csiPort (i / 2)).crc = if ok then (s.csiPort (i / 2)).crc else satUp (s.csiPort (i / 2)).crc 1) ∧ ∀ d, t.ctx d = s.ctx d)) ∧
      (p.hdr = .clean → p.body = .frameEnd → ∀ i c, mine = [i] → camCtx s i = some c → (s.csiFrame i).active = true → (s.csiFrame i).lost = false →
        (s.csiFrame i).lines.length = (s.csiVc i).height.toNat → Tab.get 0 s.sfe.decim i % max 1 (s.ctx c).params.decim = 0 →
        (s.ctx c).images.head? ≠ some none → Yields (.csiPacket port p) s fun t => t.csiFrame i = CsiFrame.none ∧ Tab.get 0 t.sfe.decim i = Tab.get 0 s.sfe.decim i + 1 ∧
          t.ctx c = { s.ctx c with images := (s.ctx c).images ++ [some {
            lines := (s.csiFrame i).lines
            dt := (s.csiVc i).dt.toNat
            timestamp := (s.csiFrame i).start
            jump := (s.csiFrame i).jump || Tab.get false s.sfe.gapNext i }] })) ∧
    (∀ (c : CtxId), domUp s 0x71 = true → takesFrames (s.ctx c) = true →
      (∀ im r, (s.ctx c).images = some im :: r → r.head? ≠ some none →
        let p := (s.ctx c).params
        let a := p.ring + p.frameBytes * ((s.ctx c).frameIdx % max 1 p.nfr)
        let bytes := Media.imageBytes im.dt (p.ofmt ≠ 0) im.lines p.x0 p.y0 p.w p.h p.ow p.oh s.fv
        Yields (.imageFrameDelivered c) s fun t => (t.ctx c).images = r ∧
          (noRoom (s.ctx c) = true → (t.ctx c).overrun = satUp (s.ctx c).overrun 1 ∧ (t.ctx c).delivered = (s.ctx c).delivered ∧
            (t.ctx c).frameIdx = ((s.ctx c).frameIdx + 1) % 2 ^ 32 ∧ (t.ctx c).lostSince = true ∧ t.mem = s.mem) ∧
          (noRoom (s.ctx c) = false → arrives c (toLE 8 a) im.timestamp im.jump t ∧ (t.ctx c).overrun = (s.ctx c).overrun ∧
            ∀ i < bytes.length / 64, lineTaken 1 s (a + 64 * i) = true → lineBytes 1 t (a + 64 * i) = padTo 64 ((bytes.drop (64 * i)).take 64))) ∧
      ((s.ctx c).kind = 2 → 480 ≤ (s.ctx c).newSamples.length →
        let new := (s.ctx c).newSamples.take 480
        let win := (((new.map fun v : Option Int => v.getD 0).reverse ++ (s.ctx c).window) ++ List.replicate 1200 0).take 1200
        Yields (.audioFrame c) s fun t => (t.ctx c).frameIdx = ((s.ctx c).frameIdx + 1) % 2 ^ 32 ∧
          (new.any (·.isNone) = true → (t.ctx c).lost = satUp (s.ctx c).lost 1 ∧ (t.ctx c).overrun = (s.ctx c).overrun ∧ (t.ctx c).window = win ∧
            (t.ctx c).newSamples = (s.ctx c).newSamples.drop 480) ∧
          (new.any (·.isNone) = false → noRoom (s.ctx c) = true → (t.ctx c).overrun = satUp (s.ctx c).overrun 1 ∧ (t.ctx c).lost = (s.ctx c).lost) ∧
          (new.any (·.isNone) = false → noRoom (s.ctx c) = false → (t.ctx c).lost = (s.ctx c).lost ∧ (t.ctx c).overrun = (s.ctx c).overrun ∧
            arrives c ((Media.bands (if (s.ctx c).params.fmax16 then 16000 else 8000) win.reverse s.fv).flatMap fun v => toLE 2 v) s.timer false t))) ∧
    ∀ (sub : Sub) (b : Byte) (data : Bytes), sub.fn ≠ 0 → b.toNat < 24 → Begins 0x06 sub s →
      let c := b.toNat
      let x := s.ctx c
      let n := data.length
      let k := if x.kind = 3 then n / 960 else if x.kind = 5 then n / 256 else 1
      let fits := (x.kind = 3 ∧ 0 < n ∧ n % 960 = 0) ∨ (x.kind = 4 ∧ n = x.params.sw * pixelBytes x.params.sdt * x.params.sh) ∨ (x.kind = 5 ∧ 0 < n ∧ n % 256 = 0)
      let room := if x.kind = 4 then noRoom x = false else k ≤ rowRoom x
      let ended := fun (st : BitVec 16) (t : State) => Ended 0x06 sub (plainCompletion sub st 0) s t
      (x.owner ≠ sub.fn.val → Yields (.streamPush sub b data) s fun t => ended St.accessDenied t ∧ t.sfe = s.sfe) ∧
      (x.owner = sub.fn.val → takesFrames x = false → Yields (.streamPush sub b data) s fun t => ended St.streamState t ∧ t.sfe = s.sfe) ∧
      (x.owner = sub.fn.val → takesFrames x = true →
        (¬fits → Yields (.streamPush sub b data) s fun t => ended St.streamParam t ∧ t.sfe = s.sfe) ∧
        (fits → ¬room → Yields (.streamPush sub b data) s fun t => ended St.streamFull t ∧ t.sfe = s.sfe) ∧
        (fits → room → Yields (.streamPush sub b data) s fun t => ended St.ok t ∧ (t.ctx c).frameIdx = (x.frameIdx + k) % 2 ^ 32))

/-- What the flash commands check, and what follows when no check stops them (R266 to R269, R271, R275 to R278). -/
def Obligations.FlashCommandsChecked : Prop :=
  ∀ (s : State) (sub : Sub) (b : Nat) (first pages : Nat) (host : DWord) (bs : List Nat) (raw : Bool) (confirm : BitVec 16),
    s.running = true → sub.fn = 0 →
    let ready := s.flt.state = 2 ∧ domUp s 0x72 = true
    let there := fun b : Nat => b % 8 < s.flt.channels.toNat ∧ b / 8 % 8 < s.flt.luns.toNat ∧ b / 64 < s.flt.blocks.toNat
    let st := fun b : Nat => (s.block b).state.toNat
    let n := s.flt.nextCmd
    let cmd := fun (kind : Nat) (bs : List Nat) (page left host : Nat) (raw : Bool) => ({
      num := n
      sub := sub
      kind := kind
      blocks := bs
      page := page
      left := left
      host := host
      raw := raw
      suspended := false
      cancelled := false
      failPage := none } : FlashCmd)
    let underWay := fun (op : Nat) (c : FlashCmd) (t : State) =>
      t.flt.cmds = s.flt.cmds ++ [c] ∧ t.flt.nextCmd = n + 1 ∧ t.mem = s.mem ∧ t.pci = { s.pci with taken := s.pci.taken.eraseP (Taken.isOf op sub) } ∧
      t.lfl.longOps = (if op = 0x20 ∨ op = 0x23 ∨ op = 0x25 then s.lfl.longOps ++ [{ fn := sub.fn, jobId := sub.jobId, kind := .flash n, suspended := false, waiting := [] }] else s.lfl.longOps)
    let recorded := fun (type b : Nat) (t : State) => ∃ r : JRec, r ∈ ((t.journal (b % 8)).programming.getD []) ++ (t.journal (b % 8)).queue ∧
      r.type = type ∧ r.addr = b ∧ r.cmd = some n ∧ r.seq = (s.journal (b % 8)).seq ∧ (t.journal (b % 8)).seq = r.seq + 1
    let checked := fun (op : Nat) (i : Instr) (checks : List (Prop × BitVec 16)) (goes : State → Prop) =>
      Begins op sub s → (∀ (k : Nat) (p : Prop) (e : BitVec 16), checks[k]? = some (p, e) → p → (∀ (j : Nat) (q : Prop) (f : BitVec 16), j < k → checks[j]? = some (q, f) → ¬q) →
          Yields i s fun t => OnlyEnded op sub (plainCompletion sub e 0) s t ∧ t = { s with pci := t.pci }) ∧
        ((∀ (k : Nat) (p : Prop) (e : BitVec 16), checks[k]? = some (p, e) → ¬p) → Yields i s goes)
    checked 0x20 (.flashProgram sub b first pages host)
      [(¬ready, St.flashNotReady), (¬there b ∨ pages = 0 ∨ s.flt.pages.toNat < first + pages, St.badCommand),
        (¬(st b = 0 ∧ first = 0 ∨ st b = 1) ∨ first ≠ (s.block b).wptr, St.blockState)]
      (fun t => underWay 0x20 (cmd 0x20 [b] first pages host.toNat false) t ∧ t.flt.table = s.flt.table ∧ t.flt.units = s.flt.units ∧ (st b = 0 → recorded 1 b t) ∧ (st b = 1 → t.flt.journals = s.flt.journals)) ∧
    checked 0x21 (.flashSeal sub b) [(¬ready, St.flashNotReady), (¬there b, St.badCommand), (st b ≠ 1, St.blockState)]
      (fun t => underWay 0x21 (cmd 0x21 [b] 0 0 0 false) t ∧ t.flt.table = s.flt.table ∧ t.flt.units = s.flt.units ∧ recorded 2 b t) ∧
    checked 0x22 (.flashRetire sub b)
      [(¬ready, St.flashNotReady), (¬there b, St.badCommand), (st b ≠ 1 ∧ st b ≠ 2, St.blockState), ((s.block b).pins ≠ 0, St.blockBusy)]
      (fun t => underWay 0x22 (cmd 0x22 [b] 0 0 0 false) t ∧ t.flt.table = s.flt.table ∧ t.flt.units = s.flt.units ∧ recorded 3 b t) ∧
    checked 0x23 (.flashErase sub bs)
      [(¬ready, St.flashNotReady), (bs = [] ∨ 256 < bs.length ∨ ∃ b ∈ bs, ¬there b, St.badCommand), (∃ b ∈ bs, 3 < st b, St.blockState),
        (∃ b ∈ bs, (s.block b).pins ≠ 0, St.blockBusy)]
      (fun t => (s.flashCmd n = none → underWay 0x23 (cmd 0x23 bs 0 0 0 false) t ∧ (∀ d, t.block d = if some d = bs.head? then { s.block d with state := 4 } else s.block d) ∧
        t.flt.units = s.flt.units ∧ ∀ d, some d = bs.head? → recorded 4 d t)) ∧
    checked 0x24 (.flashDirect sub b first pages host raw)
      [(expert s 0 = false, St.accessDenied), (¬ready, St.flashNotReady), (¬there b ∨ pages = 0 ∨ 64 < pages ∨ s.flt.pages.toNat < first + pages, St.badCommand),
        (st b = 4, St.blockInErase)]
      (fun t => (s.lun (b % 64)).reads = [] → underWay 0x24 (cmd 0x24 [b] first pages host.toNat raw) t ∧ t.flt.table = s.flt.table ∧
        (t.lun (b % 64)).reading.toList ++ (t.lun (b % 64)).reads = (s.lun (b % 64)).reading.toList ++ (List.range pages).map fun i => { block := b, page := first + i, who := .direct n }) ∧
    checked 0x25 (.flashFormat sub confirm)
      [(¬(ready ∨ s.flt.state = 3 ∧ domUp s 0x72 = true), St.flashNotReady), (confirm ≠ 0xF0F0, St.badCommand)]
      (fun t => t.flt.cmds = s.flt.cmds ++ [cmd 0x25 ((allBlocks s).filter fun b => st b ≠ 5) 0 0 0 false] ∧ t.flt.nextCmd = n + 1 ∧ t.flt.table = s.flt.table)

/-- What the end of the devices' work does (R260, R264 to R268, R271, R272, R275 to R278, R282). -/
def Obligations.FlashWorkCompletes : Prop :=
  ∀ (s : State),
    let recorded := fun (type b : Nat) (n : Option Nat) (t : State) => ∃ r : JRec, r ∈ ((t.journal (b % 8)).programming.getD []) ++ (t.journal (b % 8)).queue ∧
      r.type = type ∧ r.addr = b ∧ r.cmd = n ∧ r.seq = (s.journal (b % 8)).seq
    let ended := fun (c : FlashCmd) (st : BitVec 16) (detail : Nat) (t : State) =>
      t.flt.cmds = s.flt.cmds.filter (fun x => x.num ≠ c.num) ∧
      ((s.queue c.sub.fn c.sub.qid).state ≠ .none → (t.queue c.sub.fn c.sub.qid).waiting.getLast?.map (fun x => (x.jobId, x.status, x.detail)) =
        some (c.sub.jobId, st, BitVec.ofNat 32 detail))
    (s.running = true → domUp s 0x72 = true →
      (∀ ch : Fin 8, Yields (.journalPageProgrammed ch false) s (· = s)) ∧
      (∀ (ch : Fin 8) (r : JRec), (s.journal ch).ckpt = 0 → (s.journal ch).programming = some [r] → Yields (.journalPageProgrammed ch true) s fun t =>
        let new : BitVec 4 := if r.type = 1 then 1 else if r.type = 2 then 2 else if r.type = 3 then 3 else if r.type = 4 then 4 else if r.type = 5 then 0 else 5
        Tab.get 0 t.flt.durable r.addr = new ∧ (r.type ≠ 5 → t.block r.addr = { s.block r.addr with state := new, wptr := if r.type = 1 then 0 else (s.block r.addr).wptr }) ∧
        (∀ n c, r.cmd = some n → s.flashCmd n = some c → r.type = 2 ∨ r.type = 3 → ended c St.ok 0 t)) ∧
      (∀ (b : Nat) (ok : Bool) (data : Bytes) (c : FlashCmd), (s.lun (b % 64)).erase = none → programOf s b = some c → s.flashCmd c.num = some c →
        (c.page ≠ (s.block b).wptr → Yields (.devicePageProgramDone b ok data) s (ended c St.blockState 0)) ∧
        (c.page = (s.block b).wptr → Yields (.devicePageProgramDone b ok data) s fun t =>
          (ok = true → t.block b = { s.block b with wptr := (s.block b).wptr + 1 } ∧ t.mem = (writePage b c.page 0 data s).mem ∧
            (c.left ≤ 1 → ended c St.ok 0 t) ∧ (1 < c.left → t.flashCmd c.num = some { c with page := c.page + 1, left := c.left - 1 } ∧ t.pci = s.pci)) ∧
          (ok = false → t.flt.badNew = satUp s.flt.badNew 1 ∧ t.block b = s.block b ∧ t.flashCmd c.num = some { c with cancelled := true } ∧ recorded 6 b (some c.num) t))) ∧
      (∀ (b : Nat) (ok : Bool) (e : LunErase), (s.lun (b % 64)).erase = some e → e.block = b → e.byCtrl = false → e.byHost = false →
        (∀ n c, e.cmd = some n → s.flashCmd n = some c → c.kind ≠ 0x25) → Yields (.eraseDeviceDone b ok) s fun t =>
          recorded (if ok then 5 else 6) b e.cmd t ∧ t.flt.table = s.flt.table ∧ t.flt.badNew = (if ok then s.flt.badNew else satUp s.flt.badNew 1) ∧
          ∀ a, t.mem.rdNand a 1 = if ok = true ∧ pageAddr b 0 ≤ a ∧ a < pageAddr b 0 + 18432 * 4096 then [0xFF] else s.mem.rdNand a 1) ∧
      (∀ (ch lun : Fin 8) (e : LunErase), (s.lun (ch + 8 * lun.val)).erase = some e → e.byCtrl = false → e.byHost = false → (s.lun (ch + 8 * lun.val)).reads ≠ [] →
        max 100 s.flt.suspMin.toNat ≤ (s.timer - e.since) * 10 / 384 → Yields (.eraseSuspend ch lun) s fun t =>
          (t.lun (ch + 8 * lun.val)).erase = some { e with byCtrl := true, served := 0 } ∧ t.flt.suspends = wrapUp s.flt.suspends 1 ∧ t.flt.table = s.flt.table) ∧
      (∀ (ch lun : Fin 8) (tries : List (List Bool)) (r : PageRead), (s.lun (ch + 8 * lun.val)).reading = some r →
        let out := readTries (min (min s.flt.sets.toNat s.flt.retryMax.toNat) 16) tries
        Yields (.flashPageReadDone ch lun tries) s fun t => t.flt.retries = satUp s.flt.retries out.2 ∧ t.flt.uncorr = satUp s.flt.uncorr (out.1.countP fun b => !b) ∧ t.flt.table = s.flt.table ∧
          ∀ n c, r.who = .direct n → s.flashCmd n = some c →
            t.mem.host = (s.mem.wrHost 0 (c.host + (if c.raw then 4 * 4608 else 4 * 4112) * (r.page - c.page)) (directBytes s r c.raw out.1)).host ∧
            (1 < c.left → (t.flashCmd n).map (·.left) = some (c.left - 1)) ∧
            (c.left ≤ 1 → out.1.all id = true → c.failPage = none → ended c St.ok 0 t))) ∧
    (∀ rep : FlashReport, s.flt.state = 1 → domUp s 0x72 = true → s.boot.fatal = false → Yields (.flashTierBringup rep) s fun t =>
      (rep.answers = false → t = { s with flt := { s.flt with state := 0 } }) ∧
      (rep.answers = true → rep.usable = false → t = { s with flt := { s.flt with state := 4 } }) ∧
      (rep.answers = true → rep.usable = true → t.flt.channels = rep.channels ∧ t.flt.luns = rep.luns ∧ t.flt.pages = rep.pages ∧ t.flt.blocks = rep.blocks ∧ t.flt.sets = rep.sets ∧
        (s.flt.blank = false → rep.checkpointOk = false → t.flt.state = 3) ∧
        (s.flt.blank = true → 0 < rep.channels.toNat → t.flt.state = 1 ∧ t.flt.blank = false ∧ (∀ ch < rep.channels.toNat, 0 < (t.journal ch).ckpt) ∧
          ∀ b, (t.block b).state = if b / 64 < 2 ∧ b % 64 < rep.channels.toNat then 6 else if b ∈ rep.badMarks then 5 else (s.block b).state))) ∧
    ∀ (v : Word), bar0Open s 0 = true → Yields (.fltBlkSelWrite 0 v) s fun t => t = { s with flt := { s.flt with blkSel := v.extractLsb' 0 22, blkStat := t.flt.blkStat } } ∧
      t.flt.blkStat.extractLsb' 0 4 = (s.block (v.extractLsb' 0 22).toNat).state

/-- Programs, erases and reads of the embedded flash (R284 to R289). -/
def Obligations.EmbeddedFlashOperations : Prop :=
  ∀ s : State, s.boot.fatal = false →
    let bank := fun l : Nat => l / 2 ^ 18
    let busy := fun l : Nat => eflBusy s (bank l) ≠ none
    let starts := fun (i : Instr) (erase : Bool) (l : Nat) (e : Efl) =>
      (0xFF0000 / 32 ≤ l → Yields i s fun t => t = { s with efl := { e with lock := true } }) ∧
      (l < 0xFF0000 / 32 → busy l → Yields i s fun t => t = { s with efl := { e with busyErr := true } }) ∧
      (l < 0xFF0000 / 32 → ¬busy l → erase = false → (∃ b ∈ s.mem.rdEfl (32 * l) 32, b ≠ 0xFF) → Yields i s fun t => t = { s with efl := { e with reprog := true } }) ∧
      (l < 0xFF0000 / 32 → ¬busy l → (erase = true ∨ ∀ b ∈ s.mem.rdEfl (32 * l) 32, b = 0xFF) → Yields i s fun t =>
        t = { s with efl := { e with busy := t.efl.busy } } ∧ eflBusy t (bank l) = some { erase := erase, line := l, data := eflData e } ∧
        ∀ b, b ≠ bank l → b < 2 → eflBusy t b = eflBusy s b)
    (∀ (v : Word) (data : List DWord),
      let l := (v.extractLsb' 5 19).toNat
      let e := { s.efl with wdata := (List.range 4).foldl (fun t w => Tab.set 0 t w (data.getD w (Tab.get 0 t w))) s.efl.wdata }
      (v.extractLsb' 0 2 = 1 → starts (.eflProgram v data) false l e) ∧ (v.extractLsb' 0 2 ≠ 1 → Yields (.eflProgram v data) s (· = s)) ∧
      (v.extractLsb' 0 2 = 2 → starts (.eflErase v) true l s.efl) ∧ (v.extractLsb' 0 2 ≠ 2 → Yields (.eflErase v) s (· = s))) ∧
    (∀ (b : Fin 2) (n : Fin 11) (passed : Bool) (o : EflOp), eflBusy s b = some o → (passed = true ∧ 1 ≤ n.val ∨ passed = false ∧ n.val = 10) → (o.erase = true ∨ o.data.length = 32) →
      let lo := if o.erase then o.line / 256 * 8192 else 32 * o.line
      let len := if o.erase then 8192 else 32
      Yields (.eflOpDone b n passed) s fun t =>
        (passed = true → t.mem.rdEfl lo len = if o.erase then List.replicate 8192 0xFF else o.data) ∧
        (∀ a k, a + k ≤ lo ∨ lo + len ≤ a → t.mem.rdEfl a k = s.mem.rdEfl a k) ∧
        eflBusy t b = none ∧ (∀ c : Fin 2, c ≠ b → eflBusy t c = eflBusy s c) ∧ t.efl.fail = (s.efl.fail || !passed) ∧ t.efl.pulses.toNat = n.val ∧
        (∀ l, (l ∈ t.efl.prefetch ↔ l ∈ s.efl.prefetch ∧ bank l ≠ b.val) ∧ (l ∈ t.efl.branch ↔ l ∈ s.efl.branch ∧ bank l ≠ b.val))) ∧
    ∀ (src : EflSrc) (line : BitVec 19) (f : Finding),
      let l := line.toNat
      let hit := l ∈ s.efl.prefetch ∨ l ∈ s.efl.branch
      let code : BitVec 2 := match src with
        | .control => 0
        | .security => 1
        | .rom => 2
      let faulted := fun (cause : Bool) (t : State) => t.efl = { s.efl with faultAddr := line, faultCause := cause, faultSrc := code, faultCount := satUp s.efl.faultCount 1 }
      (busy l → Yields (.eflRead src line f) s (faulted false)) ∧
      (¬busy l → ¬hit → f = .uncorrectable → s.boot.done = false ∨ src = .rom → Yields (.eflRead src line f) s (faulted true)) ∧
      (¬busy l → hit ∨ f ≠ .uncorrectable → Yields (.eflRead src line f) s fun t => t = { s with efl := t.efl } ∧ t.efl.faultCount = s.efl.faultCount ∧ t.efl.lastDemand = l ∧
        (s.efl.prefetch.length ≤ 4 → t.efl.prefetch.length ≤ 4) ∧ (∀ k ∈ t.efl.prefetch, k ∈ s.efl.prefetch ∨ l < k ∧ k ≤ l + 3 ∧ k < 2 ^ 19 ∧ ¬busy k) ∧
        (¬hit → f = .corrected → t.efl.ceCount = satUp s.efl.ceCount 1) ∧ (hit ∨ f = .clean → t.efl.ceCount = s.efl.ceCount) ∧
        (¬hit → l ≠ s.efl.lastDemand + 1 → t.efl.branch = (l :: s.efl.branch).take 64) ∧
        (l ∈ s.efl.branch → l ∈ t.efl.branch.head?))

/-- The registers that configure serving (R291 to R293, R320, R323, R327, R350, R351, R441). -/
def Obligations.ServingRegistersApplied : Prop :=
  ∀ s : State, bar0Open s 0 = true →
    let apart := fun (a n b m : Nat) => n = 0 ∨ m = 0 ∨ a + n ≤ b ∨ b + m ≤ a
    (∀ (fn : Fn) (v : Word) (w : DWord), fn ≠ 0 → exec (.partitionApply fn v) s = .next s ∧ exec (.kvTenantApply fn v) s = .next s ∧
      exec (.kvmPoolCfgWrite fn w) s = .next s) ∧
    (∀ v : Word,
      let t := (v.extractLsb' 0 4).toNat
      let x := s.tenant t
      let others := (List.range 16).filter fun o => o ≠ t && o ≠ 0
      (v.getLsbD 4 = false →
        Yields (.partitionApply 0 v) s (fun u => u = { s with lfl := { s.lfl with
            partSel := v.extractLsb' 0 4
            partCores := u.lfl.partCores
            partSram := u.lfl.partSram
            partCfg := u.lfl.partCfg
            budgetCfg := u.lfl.budgetCfg } } ∧
          (t = 0 → u.lfl.partCores = 0 ∧ u.lfl.partSram = 0 ∧ u.lfl.partCfg = 0 ∧ u.lfl.budgetCfg = 0) ∧
          (t ≠ 0 → u.lfl.partCores = x.cores ∧ u.lfl.partSram.extractLsb' 0 14 = x.base ∧ u.lfl.partSram.extractLsb' 16 14 = x.size ∧
            u.lfl.partSram.extractLsb' 32 14 = x.stateUnits ∧ u.lfl.partCfg.extractLsb' 0 20 = x.kvQuota ∧ u.lfl.partCfg.extractLsb' 20 11 = x.maxReq ∧
            u.lfl.partCfg.getLsbD 32 = x.lend ∧ u.lfl.partCfg.getLsbD 33 = x.borrow)) ∧
        Yields (.kvTenantApply 0 v) s (fun u => u = { s with lfl := { s.lfl with
            tenSel := v.extractLsb' 0 4
            tenCfg := u.lfl.tenCfg
            tenApp := u.lfl.tenApp } } ∧
          (t = 0 → u.lfl.tenCfg = 0 ∧ u.lfl.tenApp = 0) ∧
          (t ≠ 0 → u.lfl.tenCfg.extractLsb' 0 16 = x.area ∧ u.lfl.tenCfg.extractLsb' 16 18 = x.fbase ∧ u.lfl.tenCfg.extractLsb' 40 7 = x.frameKib ∧
            u.lfl.tenApp.extractLsb' 0 14 = x.append ∧ u.lfl.tenApp.extractLsb' 16 14 = x.appUnits ∧ u.lfl.tenApp.extractLsb' 32 3 = x.group))) ∧
      (v.getLsbD 4 = true →
        (∀ y : Tenant, y = { x with
            cores := s.lfl.partCores
            base := s.lfl.partSram.extractLsb' 0 14
            size := s.lfl.partSram.extractLsb' 16 14
            stateUnits := s.lfl.partSram.extractLsb' 32 14
            kvQuota := s.lfl.partCfg.extractLsb' 0 20
            maxReq := s.lfl.partCfg.extractLsb' 20 11
            lend := s.lfl.partCfg.getLsbD 32
            borrow := s.lfl.partCfg.getLsbD 33
            rate := s.lfl.budgetCfg.extractLsb' 0 24
            burst := s.lfl.budgetCfg.extractLsb' 32 24 } →
          Yields (.partitionApply 0 v) s fun u =>
            (u.lfl.partErr = false ↔ t ≠ 0 ∧
              (∀ c : Nat, c < 64 → y.cores.getLsbD c = true → coreExists s c = true ∧ s.fences.cores.getLsbD c = false ∧ leaving s t c = false ∧
                ∀ o ∈ others, (s.tenant o).cores.getLsbD c = false) ∧
              y.base.toNat + y.size.toNat ≤ 16384 ∧
              apart y.base.toNat y.size.toNat 0 s.lfl.sysUnits.toNat ∧ apart y.base.toNat y.size.toNat s.lfl.commonBase.toNat s.lfl.commonSize.toNat ∧
              (∀ o ∈ others, apart y.base.toNat y.size.toNat (s.tenant o).base.toNat (s.tenant o).size.toNat) ∧
              y.stateUnits.toNat ≤ y.size.toNat ∧ y.kvQuota.toNat + (others.map fun o => (s.tenant o).kvQuota.toNat).sum ≤ s.lfl.kvPages.toNat ∧
              (x.base ≠ y.base ∨ x.size ≠ y.size ∨ x.stateUnits ≠ y.stateUnits → jobInFlight s t = false ∧
                ∀ c ∈ tenantCtxs s t, (s.ctx c).loc = .none ∨ (s.ctx c).loc = .absent) ∧
              (y.kvQuota ≠ x.kvQuota → admitted s t = 0 ∧ pagesHeld s t = 0) ∧ (x ≠ y → tdiLocked s t = false)) ∧
            (u.lfl.partErr = true → u = { s with lfl := { s.lfl with
              partSel := v.extractLsb' 0 4
              partErr := true } }) ∧
            (u.lfl.partErr = false → ∀ o : Nat, u.tenant o = if o = t then { y with quotaStale := x.quotaStale || y.kvQuota != x.kvQuota } else s.tenant o)) ∧
        ∀ y : Tenant, y = { x with
            area := s.lfl.tenCfg.extractLsb' 0 16
            fbase := s.lfl.tenCfg.extractLsb' 16 18
            frameKib := s.lfl.tenCfg.extractLsb' 40 7
            append := s.lfl.tenApp.extractLsb' 0 14
            appUnits := s.lfl.tenApp.extractLsb' 16 14
            group := s.lfl.tenApp.extractLsb' 32 3 } →
          Yields (.kvTenantApply 0 v) s fun u =>
            (u.lfl.tenErr = false ↔ t ≠ 0 ∧ admitted s t = 0 ∧ pagesHeld s t = 0 ∧
              (∀ o : Nat, o < 16 → o ≠ t → (s.tenant o).frameKib ≠ 0 →
                apart y.fbase.toNat y.kvQuota.toNat (s.tenant o).fbase.toNat (s.tenant o).kvQuota.toNat) ∧
              y.fbase.toNat + y.kvQuota.toNat ≤ s.lfl.kvPages.toNat ∧ inKvRegion s t y = true ∧ 4 ≤ y.frameKib.toNat ∧ y.frameKib.toNat ≤ 64 ∧
              (y.appUnits ≠ 0 → y.stateUnits.toNat ≤ y.append.toNat ∧ y.append.toNat + y.appUnits.toNat ≤ y.size.toNat) ∧
              (y.group ≠ 0 → isConf s t = false) ∧ (x ≠ y → tdiLocked s t = false)) ∧
            (u.lfl.tenErr = true → u = { s with lfl := { s.lfl with
              tenSel := v.extractLsb' 0 4
              tenErr := true } }) ∧
            (u.lfl.tenErr = false → u = { s with lfl := u.lfl } ∧ (∀ o : Nat, o ≠ t → u.tenant o = s.tenant o) ∧
              u.tenant t = { y with
                quotaStale := false
                prefixKey := (u.tenant t).prefixKey } ∧
              (x.area ≠ y.area ∨ x.fbase ≠ y.fbase ∨ x.frameKib ≠ y.frameKib ∨ x.group ≠ y.group →
                ∀ b ∈ u.lfl.blocks, b.2.tenant = t → b.2.refs ≠ 0)))) ∧
    (∀ v : DWord,
      let n := (v.extractLsb' 0 19).toNat
      (s.lfl.kvPool.held ≠ 0 ∨ n < ((List.range 16).map fun o => (s.tenant o).kvQuota.toNat).sum ∨ 262144 < n → exec (.kvmPoolCfgWrite 0 v) s = .next s) ∧
      (s.lfl.kvPool.held = 0 → ((List.range 16).map fun o => (s.tenant o).kvQuota.toNat).sum ≤ n → n ≤ 262144 →
        exec (.kvmPoolCfgWrite 0 v) s = .next { s with lfl := { s.lfl with
          kvPages := v.extractLsb' 0 19
          descBase := v.extractLsb' 32 16
          descKey := v.extractLsb' 48 7
          kvPool := { total := n, free := n, held := 0 } } })) ∧
    ∀ (fn : Fn) (v : Word), bar0Open s fn = true →
      let e := (v.extractLsb' 0 10).toNat
      let x := s.version e
      Yields (.lflVerSelWrite fn v) s fun u => u = { s with pci := { s.pci with funcs := u.pci.funcs } } ∧
        (∀ f : Nat, u.func f = if f = fn.val then { s.func f with
          verSel := v.extractLsb' 0 10
          verStat := (u.func fn).verStat } else s.func f) ∧
        (e = 0 ∨ (fn ≠ 0 ∧ (x.state = 0 ∨ openTo s fn x = false)) → (u.func fn).verStat = 0) ∧
        (e ≠ 0 → fn = 0 ∨ (x.state ≠ 0 ∧ openTo s fn x = true) →
          let z := (u.func fn).verStat
          z.extractLsb' 0 3 = x.state ∧ z.extractLsb' 3 3 = x.fail ∧ z.extractLsb' 6 6 = x.gen ∧ z.extractLsb' 12 4 = x.owner ∧ z.extractLsb' 16 16 = x.refs ∧
          (isConf s x.owner.toNat = true → z.extractLsb' 32 32 = 0))

/-- Admission, refill and settlement (R303 to R306, R309 to R311, R318). -/
def Obligations.RequestsAdmittedAndSettled : Prop :=
  (∀ (s : State) (sub : Sub) (q : GenReq), Begins 0x01 sub s →
    (sub.fn = 0 → Yields (.generate sub q) s fun t => OnlyEnded 0x01 sub (plainCompletion sub St.accessDenied 0) s t ∧ t = { s with pci := t.pci }) ∧
    (sub.fn ≠ 0 →
      let n : Nat := sub.fn.val
      let x := s.tenant n
      let h := if q.pin = true then q.handle.toNat else Tab.get 0 x.slots q.slot.toNat
      let e := h % 1024
      let v := s.version e
      let named := e ≠ 0 ∧ v.state ≠ 0 ∧ v.gen.toNat = h / 1024 ∧ openTo s n v = true
      let spec := q.k ≠ 0 ∧ q.nospec = false
      ∀ d : Nat, (d = if q.k ≠ 0 ∧ q.nospec = false then Tab.get 0 x.slots q.dslot.toNat else 0) →
      let w := versionOf s d
      let pages := fun (u : Version) (k : Nat) => u.nkv * ((q.plen.toNat + q.maxOut.toNat + k + 15) / 16)
      let need := pages v (if d = 0 then 0 else q.k.toNat) + (if d = 0 then 0 else pages w q.k.toNat)
      let cores := (partitionCores s n).length
      let refuse : List (Prop × Nat) := [
        (q.maxOut = 0 ∨ 16384 < q.maxOut.toNat ∨ q.plen = 0 ∨ (63 < q.dslot.toNat ∧ q.dslot ≠ 0xFF) ∨ 8 < q.k.toNat ∨ q.prompt.toNat % 4 ≠ 0 ∨
          q.outlen.toNat < 4 * q.maxOut.toNat ∨ (q.devsrc = true ∧ promptPermitted s n q.prompt.toNat (4 * q.plen.toNat) = false), 7),
        (¬named, 1), (v.state = 4, 2), (v.state ≠ 3 ∨ v.kind ≠ 1, 1),
        (spec ∧ (d = 0 ∨ q.dslot = 0xFF ∨ w.kind ≠ 2 ∨ v.spec = false), 8),
        (v.ctxMax < q.plen.toNat + q.maxOut.toNat + q.k.toNat, 3),
        (cores < v.nroles ∨ (d ≠ 0 ∧ cores < w.nroles), 9),
        (x.quotaStale = true ∨ x.frameKib.toNat * 1024 < (geomOf s v).page ∨ (d ≠ 0 ∧ x.frameKib.toNat * 1024 < (geomOf s w).page) ∨ x.kvQuota.toNat < need, 4),
        (x.burst.toNat < q.maxOut.toNat, 5),
        (q.deadline ≠ 0 ∧ meetsDeadline s n h (d ≠ 0) q = false, 6)]
      let defer : List (Prop × Nat) := [
        (x.contexts ≤ admitted s n, releaseHint s n),
        (freeQuota s n < need, releaseHint s n),
        (x.ledger.free < q.maxOut.toNat, budgetHint s n q.maxOut.toNat)]
      (∀ (k : Nat) (p : Prop) (r : Nat), refuse[k]? = some (p, r) → p → (∀ (j : Nat) (p' : Prop) (r' : Nat), j < k → refuse[j]? = some (p', r') → ¬p') →
        Yields (.generate sub q) s fun t => OnlyEnded 0x01 sub (plainCompletion sub St.refuse (BitVec.ofNat 32 r)) s t ∧ t = { s with pci := t.pci }) ∧
      ((∀ (k : Nat) (p : Prop) (r : Nat), refuse[k]? = some (p, r) → ¬p) →
        ((∃ (k : Nat) (p : Prop) (a : Nat), defer[k]? = some (p, a) ∧ p) → Yields (.generate sub q) s fun t => ∃ hint,
          OnlyEnded 0x01 sub (plainCompletion sub St.defer (BitVec.ofNat 32 hint)) s t ∧ t = { s with pci := t.pci } ∧
          (∃ (k : Nat) (p : Prop), defer[k]? = some (p, hint) ∧ p) ∧ ∀ (k : Nat) (p : Prop) (a : Nat), defer[k]? = some (p, a) → p → a ≤ hint) ∧
        ((∀ (k : Nat) (p : Prop) (a : Nat), defer[k]? = some (p, a) → ¬p) → Yields (.generate sub q) s fun t =>
          let m := s.lfl.nextReq
          let r := t.req m
          t.pci.taken = s.pci.taken.eraseP (Taken.isOf 0x01 sub) ∧ t.pci.funcs = s.pci.funcs ∧ t.lfl.nextReq = m + 1 ∧ (∀ i, i ≠ m → t.req i = s.req i) ∧
          t.lfl.longOps = s.lfl.longOps ++ [{ fn := sub.fn, jobId := sub.jobId, kind := .request m, suspended := false, waiting := [] }] ∧
          (∀ o : Nat, t.tenant o = if o = n then { x with ledger := x.ledger.take q.maxOut.toNat } else s.tenant o) ∧
          (∀ i, (t.version i).refs = if i = e ∧ d ≠ 0 ∧ i = d % 1024 then satUp (satUp (s.version i).refs 1) 1
            else if i = e ∨ (d ≠ 0 ∧ i = d % 1024) then satUp (s.version i).refs 1 else (s.version i).refs) ∧
          r.sub = sub ∧ r.tenant = n ∧ r.main = h ∧ r.draft = d ∧ r.k = q.k.toNat ∧ r.plen = q.plen.toNat ∧ r.maxOut = q.maxOut.toNat ∧
          r.outAddr = q.out.toNat ∧ r.progress = q.progress ∧ r.slotNo = freeContext s n ∧ r.reserved ≤ need ∧ r.seq.handle = h ∧ r.seq.lkv < q.plen.toNat ∧
          r.seq.prov = 0 ∧ (d ≠ 0 → r.dseq.handle = d ∧ r.dseq.lkv < q.plen.toNat ∧ r.dseq.prov = 0) ∧
          r.deadline = if q.deadline = 0 then none else some (s.ns + 1000 * q.deadline.toNat))))) ∧
  (∀ s : State, s.running = true → Yields .ledgerRefill s fun t => ∀ o : Nat,
    let x := s.tenant o
    let m := x.milli + x.rate.toNat
    let n := min (m / 1000) (x.burst.toNat - x.ledger.total)
    t.tenant o = if 1 ≤ o ∧ o < 16 then { x with
      ledger := { x.ledger with
        total := x.ledger.total + n
        free := x.ledger.free + n }
      milli := if x.burst.toNat ≤ x.ledger.total + n then 0 else m % 1000 } else x) ∧
  ∀ (s : State) (n : Nat), let r := s.req n
    s.running = true → r.maxOut ≠ 0 → busyReq s n = false → r.stopped = true ∨ r.maxOut ≤ r.out.length ∨ r.ending ≠ none → (s.dom 0x70).reset = false →
    Yields (.requestComplete n) s fun t =>
      let p := (s.tenant r.tenant).ledger
      (∀ i, t.req i = if i = n then Request.none else s.req i) ∧
      t.lfl.longOps = s.lfl.longOps.filter (fun l => l.kind ≠ .request n) ∧
      (∀ o : Nat, t.tenant o = if o = r.tenant then { s.tenant o with ledger := {
        total := p.total - r.out.length
        free := p.free + (r.maxOut - r.out.length)
        held := p.held - r.out.length - (r.maxOut - r.out.length) } } else s.tenant o) ∧
      ((s.queue r.sub.fn r.sub.qid).state ≠ .none → ∃ c, (t.queue r.sub.fn r.sub.qid).waiting.getLast? = some c ∧
        c.jobId = r.sub.jobId ∧ c.tokens = BitVec.ofNat 16 r.out.length ∧ c.degSteps = r.degSteps ∧
        c.status = match r.ending, r.deadline with
          | some st, _ => st
          | none, some d => if d < s.ns then St.late else St.ok
          | none, none => St.ok)

/-- Dispatch, time limits and the end of a pass (R112, R313, R316 to R318, R330). -/
def Obligations.WorkDispatchedAndResolved : Prop :=
  ∀ s : State, s.running = true →
    let onGang := fun (n : Nat) (g : Gang) (t : State) => (∀ c : Nat, (∀ x ∈ g, x.1 ≠ c) → t.core c = s.core c) ∧
      ∀ x ∈ g, ∃ y ∈ g, y.1 = x.1 ∧ t.core x.1 = { s.core x.1 with assigned := some (n, y.2) }
    (∀ (h : BitVec 16) (r : Ready), readyPass s h.toNat = some r →
      (mayStart s r = false → exec (.gangDispatch (.pass h)) s = .next s) ∧
      (mayStart s r = true → Yields (.gangDispatch (.pass h)) s fun t =>
        let n := s.lfl.nextJob
        let j := t.job n
        t.lfl.nextJob = n + 1 ∧ (∀ i, i ≠ n → t.job i = s.job i) ∧ onGang n r.gang t ∧ t.lfl.requests = s.lfl.requests ∧
        j.state = .running ∧ j.start = s.ns ∧ j.left = r.gang.map (·.1) ∧ j.gang = r.gang.map (fun g => (g.1, g.2.2)) ∧
        j.limit = min 1000000000 (max 1000000 (8 * j.budget)) ∧ j.kind = .pass h.toNat (passSeqs (formPass s h.toNat)))) ∧
    (∀ h : BitVec 16, readyPass s h.toNat = none → exec (.gangDispatch (.pass h)) s = .next s) ∧
    (∀ (n : Nat) (adapt : Bool), let j := s.job n
      j.kind = .run adapt → j.state = .ready →
      (∀ st, jobStatusNow s j = some st → j.sub ≠ none → Yields (.gangDispatch (.job n)) s fun t =>
        (t.job n).state = .done ∧ (t.job n).result = st ∧ t.cores = s.cores) ∧
      (∀ x : Nat × Ready, jobStatusNow s j = none → (readyJobs s).find? (fun x => x.1 = n) = some x →
        (mayStart s x.2 = false → exec (.gangDispatch (.job n)) s = .next s) ∧
        (mayStart s x.2 = true → Yields (.gangDispatch (.job n)) s fun t => onGang n x.2.gang t ∧ (∀ i, i ≠ n → t.job i = s.job i) ∧
          t.job n = { j with
            gang := x.2.gang.map fun g => (g.1, g.2.2)
            left := x.2.gang.map (·.1)
            start := s.ns
            result := 0
            detail := 0
            state := .running }))) ∧
    (∀ n : Nat, let j := s.job n
      let cs := (j.gang.map (·.1)).filter fun c => (s.core c).keeps n
      j.state = .suspended → (∃ w ∈ s.longWaiters (.job n), w.2 = 0x19) → cs ≠ [] → cs.Nodup →
      (∀ c ∈ cs, coreUp s c = true ∧ (s.core c).run = none ∧ (s.core c).assigned = none) → Yields (.gangDispatch (.job n)) s fun t =>
        (t.job n).state = .running ∧ (t.job n).start = s.ns ∧ (∀ c, c ∉ cs → t.core c = s.core c) ∧
        ∀ c ∈ cs, ∃ x, (s.core c).kept = some x ∧ t.core c = { s.core c with
          run := some x.run
          kept := none
          acc := x.acc
          plane0 := x.plane0
          plane1 := x.plane1 }) ∧
    (∀ n : Nat, let j := s.job n
      j.state = .running → j.limit ≤ timeRun s j → (∀ c : Nat, c < 64 → (s.core c).keeps n = false ∧ (s.core c).awaits n = false) →
      Yields (.jobTimeout n) s fun t => t = { s with cores := t.cores } ∧ ∀ c : Nat,
        if c < 64 ∧ (s.core c).runs n = true then ∃ r z, s.run c = some r ∧ t.core c = { s.core c with run := some z } ∧ z.job = n ∧ z.decodeEnded = true ∧
          z.queue = [] ∧ z.suspending = false ∧ z.ending = r.ending.or (some (St.timeout, 0))
        else t.core c = s.core c) ∧
    ∀ (n h : Nat) (seqs : List PassSeq), let j := s.job n
      j.state = .done → j.kind = .pass h seqs →
      (j.result = St.ok → Yields (.passComplete n) s fun t => (t.job n).state = .ended ∧
        ∀ q, seqs = [q] → q.rowKind = .decode → q.isDraft = false →
          let r := s.req q.req
          let v := versionOf s r.main
          let tok := rowToken s (appendRow s r.tenant 0 v.nkv 0 (geomOf s v))
          let z := t.req q.req
          z.out = r.out ++ [tok.1] ∧ z.stopped = (r.stopped || tok.2) ∧ z.seq.lkv = r.seq.lkv + 1 ∧ z.seq.prov = 0 ∧ z.dseq = r.dseq ∧
          t.mem.rdHost r.tenant (r.outAddr + 4 * r.out.length) 4 = toLE 4 tok.1.toNat) ∧
      (j.result ≠ St.ok → rerunStatus j.result = true → j.rerun = false → enoughCores s seqs = true → Yields (.passComplete n) s fun t =>
        t.lfl.requests = s.lfl.requests ∧ t.mem = s.mem ∧ t.job n = { j with
          state := .ready
          rerun := true
          left := []
          gang := [] }) ∧
      (j.result ≠ St.ok → rerunStatus j.result = false ∨ j.rerun = true ∨ enoughCores s seqs = false → Yields (.passComplete n) s fun t =>
        t.mem = s.mem ∧ (t.job n).state = .ended ∧ ∀ i, t.req i = if i ∈ seqs.map (·.req) then
          { s.req i with ending := (s.req i).ending.or (some j.result) } else s.req i)

/-- The ring node (R374, R376 to R378, R382, R383, R386, R393 to R395, R399). -/
def Obligations.RingNodeWorks : Prop :=
  ∀ s : State,
    (∀ (fn : Fn) (v : Word), fn ≠ 0 → exec (.trgModeWrite fn v) s = .next s) ∧
    (∀ v : Word, bar0Open s 0 = true →
      let m : BitVec 2 := if v.extractLsb' 0 2 = 3 then 1 else v.extractLsb' 0 2
      Yields (.trgModeWrite 0 v) s fun t => t = { s with
          trg := t.trg
          pins := { s.pins with ringBypOpen := m ≠ 0 } } ∧
        t.trg.mode = m ∧ t.trg.role = v.getLsbD 2 ∧ t.trg.nodeId = v.extractLsb' 16 16 ∧
        (m = s.trg.mode → t.trg = { s.trg with
          role := v.getLsbD 2
          nodeId := v.extractLsb' 16 16 }) ∧
        (m ≠ s.trg.mode → t.trg.applied = [] ∧ t.trg.master = (decide (m = 2) && v.getLsbD 2) ∧
          t.trg.keys = if m = 2 ∧ v.getLsbD 2 = true then [] else s.trg.keys)) ∧
    (∀ (k w : Fin 4) (v : Word), (s.boot.fatal = true → exec (.trgKeyWrite k w v) s = .next s) ∧
      (s.boot.fatal = false → Yields (.trgKeyWrite k w v) s fun t => t = { s with trg := { s.trg with
          keyWords := t.trg.keyWords
          pendingKeys := t.trg.pendingKeys } } ∧
        (∀ i : Nat, Tab.get 0 t.trg.keyWords i = if i = 4 * k.val + w.val then v else Tab.get 0 s.trg.keyWords i) ∧
        (w.val ≠ 3 → t.trg.pendingKeys = s.trg.pendingKeys) ∧
        (w.val = 3 → (∀ n : Nat, n ≠ k.val → Tab.get none t.trg.pendingKeys n = Tab.get none s.trg.pendingKeys n) ∧
          ∃ x, Tab.get none t.trg.pendingKeys k = some x ∧ ∀ i : Nat, i < 4 → x.extractLsb' (32 * i) 32 = Tab.get 0 t.trg.keyWords (4 * k.val + i)))) ∧
    (∀ (sub : Sub) (slot : Fin 32) (ws : List Word), Begins 0x29 sub s →
      let b := Tab.get [] s.trg.txBuf slot
      (sub.fn ≠ 0 → Yields (.ringWrite sub slot ws) s fun t => OnlyEnded 0x29 sub (plainCompletion sub St.accessDenied 0) s t ∧ t = { s with pci := t.pci }) ∧
      (sub.fn = 0 → ws = [] ∨ 960 < ws.length → Yields (.ringWrite sub slot ws) s fun t =>
        OnlyEnded 0x29 sub (plainCompletion sub St.badCommand 0) s t ∧ t = { s with pci := t.pci }) ∧
      (sub.fn = 0 → ws ≠ [] → ws.length ≤ 960 → 960 < b.length + ws.length → Yields (.ringWrite sub slot ws) s fun t =>
        OnlyEnded 0x29 sub (plainCompletion sub St.streamFull 0) s t ∧ t = { s with pci := t.pci }) ∧
      (sub.fn = 0 → ws ≠ [] → b.length + ws.length ≤ 960 → Yields (.ringWrite sub slot ws) s fun t =>
        OnlyEnded 0x29 sub (plainCompletion sub St.ok 0) s t ∧ t = { s with
          pci := t.pci
          trg := { s.trg with txBuf := t.trg.txBuf } } ∧
        ∀ i : Nat, Tab.get [] t.trg.txBuf i = if i = slot.val then b ++ ws else Tab.get [] s.trg.txBuf i)) ∧
    (s.running = true → s.trg.mode = 2 → s.trg.master = true → s.trg.txFrame < 48 → Yields .ringFrameTransmit s fun t =>
      let f := s.trg.txFrame
      let bs := t.trg.sent.map symByte
      t = { s with trg := t.trg } ∧ t.trg.txFrame = (f + 1) % 48 ∧ t.trg.sent.length = 144 ∧
      t.trg.sent[0]? = some (if f = 0 then .k281 else .k285) ∧ t.trg.sent[1]? = some (.data (BitVec.ofNat 8 f)) ∧ t.trg.sent[2]? = some (.data 0) ∧
      frameWord bs 140 = Crypto.crc32 ((bs.drop 1).take 139)) ∧
    (s.running = true → s.trg.mode ≠ 0 → s.trg.lock = true →
      (s.trg.missed = 0 → exec .expectedSyncMissed s = .next { s with trg := { s.trg with missed := 1 } }) ∧
      (1 ≤ s.trg.missed → Yields .expectedSyncMissed s fun t => t = { s with trg := t.trg } ∧ t.trg.lock = false ∧
        t.trg.lockLoss = satUp s.trg.lockLoss 1 ∧ t.trg.missed = 0 ∧ (s.trg.master = false → t.trg.applied = [] ∧ t.trg.sent = []) ∧
        (s.trg.master = true → t.trg.applied = s.trg.applied ∧ t.trg.topoChange = true))) ∧
    ∀ (syms : List RingSym) (lat : Nat), s.running = true → s.trg.mode ≠ 0 → syms.length = 144 →
      let bad := syms.countP fun x => x = .violation
      let code := satUp s.trg.code bad
      (s.trg.lock = true → 8 ≤ bad → Yields (.ringFrameReceive syms lat) s fun t => t = { s with trg := t.trg } ∧ t.trg.code = code ∧
        t.trg.lock = false ∧ t.trg.lockLoss = satUp s.trg.lockLoss 1) ∧
      (s.trg.lock = false → syncFits syms = false → exec (.ringFrameReceive syms lat) s = .next { s with trg := { s.trg with
        code := code
        syncs := 0 } }) ∧
      (s.trg.lock = false → syncFits syms = true → s.trg.syncs = 0 → exec (.ringFrameReceive syms lat) s = .next { s with trg := { s.trg with
        code := code
        syncs := 1
        fnum := (symByte (syms.getD 1 .violation)).toNat } }) ∧
      (s.trg.lock = false → syncFits syms = true → s.trg.syncs ≠ 0 → Yields (.ringFrameReceive syms lat) s fun t => t.trg.lock = true ∧ t.trg.code = code) ∧
      (s.trg.lock = true → bad < 8 → isSync (syms.getD 0 .violation) = true →
        let bs := syms.map symByte
        let expect := (s.trg.fnum + 1) % 48
        let crc := Crypto.crc32 ((bs.drop 1).take 139)
        let intact := (∀ x ∈ syms.drop 1, isData x = true) ∧ (bs.getD 1 0).toNat % 64 = expect ∧ frameWord bs 140 = crc
        let marked := ¬intact ∧ frameWord bs 140 = ~~~crc
        Yields (.ringFrameReceive syms lat) s fun t =>
          t.trg.lock = true ∧ t.trg.code = code ∧ t.trg.missed = 0 ∧
          (intact → t.trg.fnum = expect ∧ t.trg.damaged = s.trg.damaged ∧ t.trg.marked = s.trg.marked) ∧
          (marked → t.trg.damaged = s.trg.damaged ∧ t.trg.marked = satUp s.trg.marked 1) ∧
          (¬intact → ¬marked → t.trg.fnum = expect ∧ t.trg.damaged = satUp s.trg.damaged 1 ∧ t.trg.marked = s.trg.marked) ∧
          (s.trg.master = false →
            let out := t.trg.sent.map symByte
            t.trg.sent.length = 144 ∧ t.trg.sent[0]? = syms[0]? ∧ t.trg.sent[2]? = some (.data (BitVec.ofNat 8 (min 255 ((bs.getD 2 0).toNat + 1)))) ∧
            (intact → frameWord out 140 = Crypto.crc32 ((out.drop 1).take 139)) ∧
            (¬intact → frameWord out 140 = ~~~(Crypto.crc32 ((out.drop 1).take 139)))))

/-- The reductions and conversions of the gate unit: GRSUM, GRMAX, GQUANT and GSCALE (R78, R144, R167, R528). -/
def Obligations.GateReductions : Prop :=
  ∀ (c : CoreId) (s : State) (r : Run) (q : QOp) (g : GateOp) (i : Instr), CanIssue c r q s → q.op = .gate g →
    issuedBy c q.op = some i → (∀ x ∈ g.outRows, x ∉ g.statRows) →
    let row := fun k => (List.range 64).map (bfElem (gateA s c g k))
    let entry := fun (k : Nat) (t : State) => leNat (t.mem.rdSpm c (64 * g.dst + 4 * k) 4)
    let byte := fun (a : Nat) (t : State) => leNat (t.mem.rdSpm c a 1)
    (g.kind = .grsum → Yields i s fun t => ∀ k, k < g.n → ∃ v, SumOf (row k) v ∧
      entry k t = (fp32.conv (if g.merge = true then rnd32 (addExact (fpEntry s c g.dst k) v) else v)).bits) ∧
    (g.kind = .grmax → Yields i s fun t => ∀ k, k < g.n →
      let all := row k ++ if g.merge = true then [fpEntry s c g.dst k] else []
      ∃ v, entry k t = (fp32.conv v).bits ∧ (FVal.nan ∈ all → v = .nan) ∧
        (FVal.nan ∉ all → v ≠ .nan ∧ (∃ x ∈ all, ltVal x v = false ∧ ltVal v x = false) ∧ ∀ x ∈ all, ltVal v x = false)) ∧
    (g.kind = .gquant → Yields i s fun t => ∀ k n, k < g.n → n < 64 →
      let x := bfElem (gateA s c g k) n
      let mant := recordMant s c g.b k
      let e := signed 8 (leNat (s.mem.rdSpm c (64 * g.b) 1))
      let out := byte (64 * (g.dst + k) + n) t
      let float := if g.qfmt = 3 then e4m3 else e5m2
      (mant = 0 → out = 0) ∧
      (mant ≠ 0 → g.qfmt ≠ 0 → out = match x with
        | .fin neg m z => (float.convRat neg m mant (z - e)).bits
        | v => (float.conv v).bits) ∧
      (mant ≠ 0 → g.qfmt = 0 → match x with
        | .nan => out = 0
        | .inf neg => out = if neg = true then 0x80 else 0x7F
        | .fin neg m z =>
          let v : Rat := (if neg = true then -1 else 1) * m * 2 ^ (z - e) / mant
          let y := signed 8 out
          (127.5 ≤ v → y = 127) ∧ (v < -128.5 → y = -128) ∧
          (-128.5 ≤ v → v < 127.5 → v - 0.5 ≤ y ∧ y ≤ v + 0.5 ∧ ((y : Rat) = v - 0.5 ∨ (y : Rat) = v + 0.5 → y % 2 = 0)))) ∧
    (g.kind = .gscale → Yields i s fun t =>
      let a := fpEntry s c g.a
      let big := targetQ g.qfmt
      let e := signed 8 (byte (64 * g.dst) t)
      let mant := fun k => byte (64 * (g.dst + 1) + k) t
      let finite := ∀ k, k < g.n → isFin (a k) = true
      (¬finite → e = 127 ∧ (∀ k, k < g.n → mant k = 255) ∧ (t.core c).nonfinite = satUp (s.core c).nonfinite 1) ∧
      (finite → (t.core c).nonfinite = (s.core c).nonfinite ∧
        (∀ k m x, k < g.n → a k = .fin false m x → (∀ j, j < g.n → ltVal (a k) (a j) = false) → ∀ m' x', roundUp32 m big x = .fin false m' x' →
          (m' : Rat) * 2 ^ x' ≤ 255 * (2 : Rat) ^ e ∧ ∀ d : Int, -128 ≤ d → d < e → 255 * (2 : Rat) ^ d < m' * 2 ^ x') ∧
        ∀ k, k < g.n → 1 ≤ mant k ∧ mant k ≤ 255 ∧ match a k with
          | .fin false m x => (m : Rat) * 2 ^ x ≤ mant k * 2 ^ e * big ∧ ∀ z, 1 ≤ z → z < mant k → (z : Rat) * 2 ^ e * big < m * 2 ^ x
          | _ => mant k = 1))

/-- Queues are created and deleted, doorbells move them, and entries are taken (R36, R39, R408, R410 to R412, R417). -/
def Obligations.QueuesAndDoorbells : Prop :=
  (∀ (fn : Fn) (v : Word) (s : State), bar0Open s fn = true →
    let f := if fn = 0 then s.pci.fnSel.toNat else fn.val
    let q := bits32 v 0 6
    let x := s.func f
    let inUse := fun g => ∃ e ∈ s.pci.funcs, ∃ r ∈ e.2.queues, r.2.state ≠ .none ∧ r.2.globalIdx = g
    let refused := (s.queue f q).state ≠ .none ∨ min 64 x.qmax.toNat ≤ (x.queues.countP fun r => r.2.state ≠ .none) ∨
      (∀ g, g < 256 → inUse g) ∨ x.sqBase.toNat % 4096 ≠ 0 ∨ x.cqBase.toNat % 4096 ≠ 0 ∨
      bits32 x.qcfg 0 4 < 4 ∨ 12 < bits32 x.qcfg 0 4 ∨ 64 < bits32 x.qcfg 4 7
    (bits32 v 8 2 = 1 → refused → Yields (.queueCreate fn v) s fun t =>
      OnlyFunc f s t ∧ t.func f = { x with qsel := BitVec.ofNat 6 q, qerr := true }) ∧
    (bits32 v 8 2 = 1 → ¬refused → Yields (.queueCreate fn v) s fun t =>
      OnlyFunc f s t ∧ t.func f = { x with qsel := BitVec.ofNat 6 q, qerr := false, queues := (t.func f).queues } ∧
      ∃ g, g < 256 ∧ ¬inUse g ∧ (∀ h, h < g → inUse h) ∧ ∀ r, t.queue f r = if r = q then {
        state := .active
        sqBase := x.sqBase
        cqBase := x.cqBase
        depth := BitVec.ofNat 4 (bits32 x.qcfg 0 4)
        vector := BitVec.ofNat 7 (bits32 x.qcfg 4 7)
        ithresh := BitVec.ofNat 8 (bits32 x.qcfg 16 8)
        itime := BitVec.ofNat 8 (bits32 x.qcfg 24 8)
        globalIdx := g
        slots := { total := 2 ^ bits32 x.qcfg 0 4, free := 2 ^ bits32 x.qcfg 0 4, held := 0 }
        tail := 0
        sqHead := 0
        untaken := 0
        cqWrite := 0
        cqHead := 0
        cqUsed := 0
        phase := true
        waiting := []
        unsignalled := 0
        oldest := none } else s.queue f r) ∧
    (bits32 v 8 2 = 2 → (s.queue f q).state ≠ .none → (s.queue f q).slots.held = 0 → Yields (.queueDelete fn v) s fun t =>
      OnlyFunc f s t ∧ t.func f = { x with qsel := BitVec.ofNat 6 q, qerr := false, queues := (t.func f).queues } ∧
      ∀ r, (r = q → (t.queue f r).state = .none ∧ (t.queue f r).slots = { total := 0, free := 0, held := 0 }) ∧
        (r ≠ q → t.queue f r = s.queue f r)) ∧
    (bits32 v 8 2 = 2 → (s.queue f q).state = .none ∨ (s.queue f q).slots.held ≠ 0 → Yields (.queueDelete fn v) s fun t =>
      OnlyFunc f s t ∧ t.func f = { x with qsel := BitVec.ofNat 6 q, qerr := true })) ∧
  ∀ s : State,
    (∀ (fn : Fn) (q : Fin 64) (v : Word), bar0Open s fn = true →
      let f := s.func fn
      let x := s.queue fn q
      let new := bits32 v 0 12
      let more := (new + x.size - x.tail) % x.size
      let past := (new + x.size - x.cqHead) % x.size
      let become := fun (y : HostQueue) (ev : List Bytes) (t : State) => OnlyFunc fn s t ∧
        t.func fn = { f with
          queues := (t.func fn).queues
          evq := { f.evq with posted := f.evq.posted ++ ev } } ∧
        ∀ r : Nat, t.queue fn r = if r = q then y else s.queue fn r
      let failed := fun cause => become { x with
          state := .error
          slots := { x.slots with
            free := x.slots.free + x.untaken
            held := x.slots.held - x.untaken }
          untaken := 0 } [padTo 31 (evQueueError q cause)]
      (x.state = .active → (x.size ≤ new → Yields (.sqTail fn q v) s (failed 1)) ∧
        (new < x.size → x.size < x.slots.held + more → Yields (.sqTail fn q v) s (failed 2)) ∧
        (new < x.size → x.slots.held + more ≤ x.size → x.slots.total = x.size → x.slots.free + x.slots.held = x.size →
          Yields (.sqTail fn q v) s (become { x with
            tail := new
            untaken := x.untaken + more
            slots := { x.slots with
              free := x.slots.free - more
              held := x.slots.held + more } } []))) ∧
      (x.state ≠ .active → exec (.sqTail fn q v) s = .next s) ∧
      (x.state = .active → x.size ≤ new → Yields (.cqHead fn q v) s (failed 1)) ∧
      (x.state = .active → new < x.size → x.cqUsed < past → Yields (.cqHead fn q v) s (failed 3)) ∧
      (x.state ≠ .none → new < x.size → past ≤ x.cqUsed → Yields (.cqHead fn q v) s (become { x with
        cqHead := new
        cqUsed := x.cqUsed - past } []))) ∧
    (∀ (fn : Fn) (v : Word), bar0Open s fn = true →
      let e := (s.func fn).evq
      let new := bits32 v 0 12
      let past := (new + e.size - e.head) % e.size
      e.en = true → new < e.size → past ≤ e.used → Yields (.evHead fn v) s fun t => OnlyFunc fn s t ∧
        t.func fn = { s.func fn with evq := { e with
          head := new
          used := e.used - past } }) ∧
    ∀ (entry : Bytes) (f q : Nat), s.running = true → f < 16 → q < 64 →
      let asks := fun g r => (s.queue g r).state = .active ∧ (s.queue g r).untaken ≠ 0
      let p := s.pci.rrFn
      let k := (s.func f).rrQueue
      let x := s.queue f q
      let bytes := padTo 64 entry
      asks f q → (∀ d r, d < (f + 16 - p % 16) % 16 → r < 64 → ¬asks ((p + d) % 16) r) →
      (∀ d, d < (q + 64 - k % 64) % 64 → ¬asks f ((k + d) % 64)) →
      Yields (.commandTake entry) s fun t =>
        t = { s with pci := { s.pci with
          funcs := t.pci.funcs
          rrFn := (f + 1) % 16
          taken := if badEntry bytes f = true then s.pci.taken
            else s.pci.taken ++ [{ fn := f, qid := q, entry := bytes }] } } ∧
        (∀ g, g ≠ f → t.func g = s.func g) ∧
        t.func f = { s.func f with
          queues := (t.func f).queues
          rrQueue := (q + 1) % 64 } ∧
        ∀ r, t.queue f r = if r = q then { x with
          untaken := x.untaken - 1
          sqHead := (x.sqHead + 1) % x.size
          waiting := x.waiting ++ if badEntry bytes f = true then [plainCompletion (subOf f q bytes) St.badCommand 0] else [] }
          else s.queue f r

/-- Completions, interrupts and events reach host memory (R413 to R416). -/
def Obligations.CompletionsInterruptsEvents : Prop :=
  ∀ (fn : Fn) (s : State), s.running = true →
    let onlyHost := fun (a n : Nat) (t : State) => ∀ (o b : Nat), o ≠ fn.val ∨ b < a ∨ a + n ≤ b → t.mem.rdHost o b 1 = s.mem.rdHost o b 1
    let due := fun (n : Nat) (oldest : Option Nat) (thresh time : BitVec 8) => n ≠ 0 ∧
      (max 1 thresh.toNat ≤ n ∨ ∃ at', oldest = some at' ∧ time.toNat * 384 ≤ (s.timer - at') * 10)
    (∀ (q : Fin 64) (c : Completion), let x := s.queue fn q
      let a := x.cqBase.toNat + 32 * x.cqWrite
      x.state ≠ .none → x.cqUsed < x.size → x.waiting.find? (fun c => c.jobs.isEmpty) = some c → c.after = [] →
      1 ≤ x.slots.held → x.slots.total = x.slots.free + x.slots.held → Yields (.completionPost fn q) s fun t =>
        OnlyFunc fn { s with mem := t.mem } t ∧ t.mem = { s.mem with host := t.mem.host } ∧ onlyHost a 32 t ∧
        t.mem.rdHost fn a 32 = toLE 4 c.jobId.toNat ++ toLE 2 c.status.toNat ++ toLE 2 x.sqHead ++ toLE 4 c.detail.toNat ++
          toLE 4 (min c.degSteps 0xFFFFFFFF) ++ toLE 6 (min (c.energy / 1000000) (2 ^ 48 - 1)) ++ toLE 2 c.tokens.toNat ++
          List.replicate 7 0 ++ [if x.phase = true then 1 else 0] ∧
        t.func fn = { s.func fn with queues := (t.func fn).queues } ∧
        ∀ r : Nat, t.queue fn r = if r = q then { x with
          waiting := x.waiting.erase c
          cqWrite := (x.cqWrite + 1) % x.size
          phase := if x.cqWrite + 1 = x.size then !x.phase else x.phase
          cqUsed := x.cqUsed + 1
          unsignalled := if c.noirq then x.unsignalled else x.unsignalled + 1
          oldest := if c.noirq then x.oldest else some (x.oldest.getD s.timer)
          slots := { x.slots with
            free := x.slots.free + 1
            held := x.slots.held - 1 } } else s.queue fn r) ∧
    (∀ q : Fin 65, let x := s.queue fn q
      let e := (s.func fn).evq
      let sent := fun (v : Nat) (t : State) => if (s.func fn).msixMask.getLsbD v = true
        then t.pci.msix = s.pci.msix ∧ (t.func fn).msixPending = (s.func fn).msixPending ||| BitVec.ofNat 65 (2 ^ v)
        else t.pci.msix = (fn.val, v) :: s.pci.msix ∧ (t.func fn).msixPending = (s.func fn).msixPending
      (q.val ≠ 64 → due x.unsignalled x.oldest x.ithresh x.itime → Yields (.interruptSignal fn q) s fun t =>
        OnlyFunc fn { s with pci := { s.pci with msix := t.pci.msix } } t ∧ sent x.vector.toNat t ∧
        t.func fn = { s.func fn with
          queues := (t.func fn).queues
          msixPending := (t.func fn).msixPending } ∧
        ∀ r : Nat, t.queue fn r = if r = q.val then { x with
          unsignalled := 0
          oldest := none } else s.queue fn r) ∧
      (q.val ≠ 64 → ¬due x.unsignalled x.oldest x.ithresh x.itime → exec (.interruptSignal fn q) s = .next s) ∧
      (q.val = 64 → due e.unsignalled e.oldest e.ithresh e.itime → Yields (.interruptSignal fn q) s fun t =>
        OnlyFunc fn { s with pci := { s.pci with msix := t.pci.msix } } t ∧ sent e.vector.toNat t ∧
        t.func fn = { s.func fn with
          evq := { e with
            unsignalled := 0
            oldest := none }
          msixPending := (t.func fn).msixPending })) ∧
    (let e := (s.func fn).evq
      let a := e.base.toNat + 32 * e.writePos
      let written := fun (ev : Bytes) (f : EventQueue) (t : State) => OnlyFunc fn { s with mem := t.mem } t ∧
        t.mem = { s.mem with host := t.mem.host } ∧ onlyHost a 32 t ∧
        t.mem.rdHost fn a 32 = padTo 31 ev ++ [if e.phase = true then 1 else 0] ∧ t.func fn = { s.func fn with evq := { f with
          writePos := (e.writePos + 1) % e.size
          phase := if e.writePos + 1 = e.size then !e.phase else e.phase
          used := e.used + 1
          unsignalled := e.unsignalled + 1
          oldest := some (e.oldest.getD s.timer) } }
      let changed := fun (f : EventQueue) (t : State) => OnlyFunc fn s t ∧ t.func fn = { s.func fn with evq := f }
      (∀ r ev, e.posted = ev :: r →
        (e.en = true → e.used < e.size → e.lost = 0 → Yields (.eventPost fn) s (written ev { e with posted := r })) ∧
        (e.en = true → e.size ≤ e.used → Yields (.eventPost fn) s (changed { e with
          posted := r
          lost := satUp e.lost 1 })) ∧
        (e.en = false → e.kept.length < 64 → Yields (.eventPost fn) s (changed { e with
          posted := r
          kept := e.kept ++ [ev] })) ∧
        (e.en = false → 64 ≤ e.kept.length → Yields (.eventPost fn) s (changed { e with
          posted := r
          lost := satUp e.lost 1 }))) ∧
      (e.posted = [] → e.en = true → e.used < e.size → e.lost ≠ 0 →
        Yields (.eventPost fn) s (written ([0x07, 0, 0, 0] ++ toLE 4 e.lost.toNat) { e with lost := 0 }))) ∧
    ∀ v : Word, bar0Open s fn = true →
      let f := if fn = 0 then s.pci.fnSel.toNat else fn.val
      let e := (s.func f).evq
      let changed := fun (x : EventQueue) (t : State) => OnlyFunc f s t ∧ t.func f = { s.func f with evq := x }
      let refused := e.base = 0 ∨ e.base.toNat % 4096 ≠ 0 ∨ bits32 v 0 4 < 4 ∨ 12 < bits32 v 0 4 ∨ 64 < bits32 v 4 7
      let set := fun x : EventQueue => { x with
        vector := BitVec.ofNat 7 (bits32 v 4 7)
        ithresh := BitVec.ofNat 8 (bits32 v 16 8)
        itime := BitVec.ofNat 8 (bits32 v 24 8) }
      (bit32 v 15 = true → e.en = false → refused → Yields (.eventQueueEnable fn v) s (changed { e with err := true })) ∧
      (bit32 v 15 = true → e.en = false → ¬refused → Yields (.eventQueueEnable fn v) s (changed (set { e with
        en := true
        depth := BitVec.ofNat 4 (bits32 v 0 4)
        head := 0
        writePos := 0
        used := 0
        phase := true
        posted := e.kept ++ e.posted
        kept := []
        unsignalled := 0
        oldest := none
        err := false }))) ∧
      (bit32 v 15 = true → e.en = true → bits32 v 4 7 ≤ 64 → Yields (.eventQueueEnable fn v) s (changed (set e))) ∧
      (bit32 v 15 = false → Yields (.eventQueueDisable fn v) s (changed (set { e with
        en := false
        depth := BitVec.ofNat 4 (bits32 v 0 4) })))

/-- Resets of functions and the link (R403, R405, R475), a reset where the function has nothing in progress. -/
def Obligations.FunctionResetsAndLink : Prop :=
  ∀ s : State,
    (∀ fn : Fn, s.running = true → FnQuiet fn s → (s.func fn).flr = false → Yields (.functionLevelReset fn) s fun t =>
      let x := s.func fn
      t = { s with
        pci := { s.pci with
          funcs := t.pci.funcs
          taken := s.pci.taken.filter fun e => e.fn ≠ fn.val }
        sec := { s.sec with spdm := t.sec.spdm }
        lfl := { s.lfl with
          tenants := t.lfl.tenants
          versions := t.lfl.versions
          blocks := t.lfl.blocks } } ∧
      (∀ g, g ≠ fn.val → t.func g = s.func g) ∧
      t.func fn = { x with
        queues := []
        evq := EventQueue.off
        qsel := 0
        qerr := false
        sqBase := 0
        cqBase := 0
        qcfg := 4
        winSel := 0
        rrQueue := 0
        latch := none
        flr := true
        windows := (t.func fn).windows
        reclaim := (t.func fn).reclaim } ∧
      (∀ w : Nat, w < 16 → t.window fn w = if (s.window fn w).isOpen = true then { s.window fn w with
          gen := (s.window fn w).gen + 1
          dropped := 0
          droppedSince := 0
          opens := []
          hasClosed := true }
        else { s.window fn w with
          dropped := 0
          opens := [] }) ∧
      (∀ g, Tab.get Spdm.init t.sec.spdm g = if g = fn.val then { Tab.get Spdm.init s.sec.spdm g with sessions := [] } else Tab.get Spdm.init s.sec.spdm g) ∧
      (∀ q ∈ x.queues, q.2.state ≠ .none → (0x04, q.2.globalIdx, q.2.slots.held) ∈ (t.func fn).reclaim) ∧
      (fn = 0 → t.lfl = s.lfl) ∧
      (fn ≠ 0 → (∀ k, k < 64 → Tab.get 0 (t.tenant fn).slots k = 0) ∧ (0x08, fn.val, (s.tenant fn).ledger.held) ∈ (t.func fn).reclaim ∧
        t.tenant fn = { s.tenant fn with slots := (t.tenant fn).slots } ∧ ∀ o, o ≠ fn.val → t.tenant o = s.tenant o)) ∧
    (∀ fn : Fn, s.running = true → (s.func fn).flr = true → exec (.functionLevelReset fn) s = .next s) ∧
    (∀ fn : Fn, s.running = true → FnQuiet fn s → (s.func fn).flr = true → (∀ c ∈ s.flt.cmds, c.sub.fn ≠ fn) → (∀ r ∈ s.lfl.requests, r.2.sub.fn ≠ fn) →
      Yields (.functionLevelResetComplete fn) s fun t =>
        let es := (s.func fn).reclaim.filter fun e => e.2.2 ≠ 0
        let evs := reclaimEvents 0x73 s.pci.reportNo.toNat (es.length + 1) es
        let done := { s.func fn with
          flr := false
          reclaim := [] }
        let pf0 := if fn = 0 then done else s.func 0
        t = { s with pci := { s.pci with
          funcs := t.pci.funcs
          reportNo := s.pci.reportNo + 1 } } ∧
        (∀ g, t.func g = if g = 0 then { pf0 with evq := { pf0.evq with posted := pf0.evq.posted ++ evs.map (padTo 31) } }
          else if g = fn.val then done else s.func g) ∧
        (es.length ≤ 3 → evs = [[0x05, 1, 0x73, 0] ++ toLE 4 s.pci.reportNo.toNat ++
          es.flatMap fun e => [BitVec.ofNat 8 e.1, BitVec.ofNat 8 e.2.1] ++ toLE 4 (min e.2.2 0xFFFFFFFF)])) ∧
    (s.running = true → (∀ f, f < 16 → FnQuiet f s) → Yields .hotReset s fun t => t.pci.link = { width := 0, l1 := false } ∧
      ∀ f, f < 16 → (t.func f).flr = true ∧ ((s.func f).flr = false → (t.func f).queues = [] ∧ (t.func f).evq = EventQueue.off)) ∧
    (s.running = false → exec .hotReset s = .next { s with pci := { s.pci with link := { width := 0, l1 := false } } }) ∧
    (∀ p : Fin 4, domUp s 0x73 = true →
      let up := fun g => s.fences.pci.getLsbD g = false
      let fits := fun w => (w = 8 ∧ up 0 ∧ up 1 ∧ up 2 ∧ up 3) ∨ (w = 4 ∧ ((up 0 ∧ up 1) ∨ (up 3 ∧ up 2))) ∨ ((w = 2 ∨ w = 1) ∧ (up 0 ∨ up 3))
      let most := if s.boot.nursery = true then 1 else 2 ^ p.val
      Yields (.linkTrain p) s fun t => let w := t.pci.link.width
        t = { s with pci := { s.pci with link := { width := w, l1 := false } } } ∧ (w ≠ 0 → fits w ∧ w ≤ most) ∧ ∀ v, fits v → v ≤ most → v ≤ w) ∧
    (domUp s 0x73 = true → s.pci.link.width ≠ 0 → exec .linkL1Entry s = .next { s with pci := { s.pci with link := { s.pci.link with l1 := true } } }) ∧
    (s.pci.link.l1 = true → Yields .linkL1Exit s fun t =>
      t = { s with
        pci := { s.pci with link := { s.pci.link with l1 := false } }
        pwr := { s.pwr with doms := t.pwr.doms } } ∧
      ∀ d, t.dom d = if (d = 0x73 ∨ d = 0x74) ∧ (s.dom d).state = .retain then
          if (s.dom d).busy = true then { s.dom d with pend := some .on }
          else { s.dom d with
            target := .on
            busy := true }
        else s.dom d)

/-- BIND, REPLACE, UNBIND, ACTIVATE, DISCARD, RUN, RESIDE_LOAD and RESIDE_RELEASE (R108, R298, R299, R301, R302, R313, R316,
R418, R533). The limit of RESIDE_LOAD is the model's reading (notes/assumptions/65.md). -/
def Obligations.ModelsBoundAndActivated : Prop :=
  ∀ (sub : Sub) (s : State),
    let n := sub.fn.val
    let ends := fun (op : Nat) (st : BitVec 16) (d : Nat) (t : State) => OnlyEnded op sub (plainCompletion sub st (BitVec.ofNat 32 d)) s t
    let none' := fun (op : Nat) (st : BitVec 16) (t : State) => ends op st 0 t ∧ t = { s with pci := t.pci }
    let named := fun h : BitVec 16 => h.toNat % 1024 ≠ 0 ∧ (s.version (h.toNat % 1024)).state ≠ 0 ∧ (s.version (h.toNat % 1024)).gen.toNat = h.toNat / 1024
    let slotOf := fun k : Byte => Tab.get 0 (s.tenant n).slots k.toNat
    let slotted := fun (k : Byte) (h : Nat) (t : State) => (∀ o, t.tenant o = if o = n then { s.tenant n with slots := (t.tenant n).slots } else s.tenant o) ∧
      ∀ i, Tab.get 0 (t.tenant n).slots i = if i = k.toNat then h else Tab.get 0 (s.tenant n).slots i
    let left := fun (h : Nat) (t : State) => -- the version of a handle that a slot has let go of
      let v := s.version (h % 1024)
      let kept := { v with
        refs := v.refs - 1
        state := if slotBound t h = true then v.state else 4 }
      t.version (h % 1024) = if kept.state = 4 ∧ kept.refs = 0 then { Version.free with gen := v.gen + 1 } else kept
    (n ≠ 0 → ∀ (op : Nat) (k : Byte) (h : BitVec 16) (i : Instr), Begins op sub s → (op = 0x08 ∧ i = .bind sub k h) ∨ (op = 0x09 ∧ i = .replace sub k h) →
      let v := s.version (h.toNat % 1024)
      let open' := v.owner.toNat = n ∨ (v.owner = 0 ∧ (s.region v.region).readers.getLsbD (n - 1) = true)
      (64 ≤ k.toNat → Yields i s (none' op St.badCommand)) ∧
      (k.toNat < 64 → ¬named h → Yields i s (none' op St.noSuchModel)) ∧
      (k.toNat < 64 → named h → v.state ≠ 3 → Yields i s (none' op St.modelState)) ∧
      (k.toNat < 64 → named h → v.state = 3 → ¬open' → Yields i s (none' op St.accessDenied)) ∧
      (k.toNat < 64 → named h → v.state = 3 → open' → op = 0x08 → slotOf k ≠ 0 → Yields i s (none' op St.modelState)) ∧
      (k.toNat < 64 → named h → v.state = 3 → open' → slotOf k = 0 → Yields i s fun t => ends op St.ok 0 t ∧ slotted k h.toNat t ∧
        t = { s with
          pci := t.pci
          lfl := { s.lfl with
            tenants := t.lfl.tenants
            versions := t.lfl.versions } } ∧
        ∀ e, t.version e = if e = h.toNat % 1024 then { v with refs := satUp v.refs 1 } else s.version e) ∧
      (k.toNat < 64 → named h → v.state = 3 → open' → op = 0x09 → slotOf k ≠ 0 → Yields i s fun t => ends op St.ok 0 t ∧ slotted k h.toNat t ∧
        t = { s with
          pci := t.pci
          lfl := { s.lfl with
            tenants := t.lfl.tenants
            versions := t.lfl.versions
            blocks := t.lfl.blocks } } ∧
        (slotOf k % 1024 ≠ h.toNat % 1024 → (s.version (slotOf k % 1024)).delta = false → left (slotOf k) t ∧
          ∀ e, e ≠ slotOf k % 1024 → t.version e = if e = h.toNat % 1024 then { v with refs := satUp v.refs 1 } else s.version e))) ∧
    (n ≠ 0 → ∀ k : Byte, Begins 0x0A sub s →
      (64 ≤ k.toNat → Yields (.unbind sub k) s (none' 0x0A St.badCommand)) ∧
      (k.toNat < 64 → slotOf k = 0 → Yields (.unbind sub k) s (none' 0x0A St.noSuchModel)) ∧
      (k.toNat < 64 → slotOf k ≠ 0 → Yields (.unbind sub k) s fun t => ends 0x0A St.ok 0 t ∧ slotted k 0 t ∧
        t = { s with
          pci := t.pci
          lfl := { s.lfl with
            tenants := t.lfl.tenants
            versions := t.lfl.versions
            blocks := t.lfl.blocks } } ∧
        ((s.version (slotOf k % 1024)).delta = false → left (slotOf k) t ∧ ∀ e, e ≠ slotOf k % 1024 → t.version e = s.version e))) ∧
    (∀ h : BitVec 16, Begins 0x0B sub s →
      let e := h.toNat % 1024
      let x := s.version e
      let head := readDram s x.addr 128
      let v := withHeader x head.1
      let rows := field head.1 32 4
      let fail := activationFail s v head.1 rows head.2
      (¬named h → Yields (.activate sub h) s (none' 0x0B St.noSuchModel)) ∧
      (named h → n ≠ 0 → x.owner.toNat ≠ n → Yields (.activate sub h) s (none' 0x0B St.accessDenied)) ∧
      (named h → n = 0 ∨ x.owner.toNat = n → x.state ≠ 2 → Yields (.activate sub h) s (none' 0x0B St.modelState)) ∧
      (named h → n = 0 ∨ x.owner.toNat = n → x.state = 2 → fail ≠ 0 → Yields (.activate sub h) s fun t => ends 0x0B St.modelState fail t ∧
        t = { s with
          pci := t.pci
          lfl := { s.lfl with versions := t.lfl.versions } } ∧
        ∀ i, t.version i = if i = e then { x with
          state := 5
          fail := BitVec.ofNat 3 fail } else s.version i) ∧
      (named h → n = 0 ∨ x.owner.toNat = n → x.state = 2 → fail = 0 → v.delta = false ∨ v.baseHandle % 1024 ≠ e → Yields (.activate sub h) s fun t => Ended 0x0B sub (plainCompletion sub St.ok 0) s t ∧
        (∃ u, LinesStored 0 (fun a => (t.version e).fbUnit ≤ a / 4096 ∧ a / 4096 < (t.version e).fbUnit + (t.version e).fbUnits) s u ∧ t = { u with
          pci := t.pci
          lfl := { s.lfl with versions := t.lfl.versions } }) ∧
        (t.version e) = { v with
          state := 3
          fail := 0
          fbUnit := (t.version e).fbUnit
          fbUnits := (64 * rows + 4095) / 4096 } ∧
        ∀ i, i ≠ e → t.version i = if v.delta = true ∧ i = v.baseHandle % 1024 then { s.version i with refs := satUp (s.version i).refs 1 } else s.version i)) ∧
    (n ≠ 0 → ∀ core first countM1 : Byte, Begins 0x0E sub s →
      let c := core.toNat
      let count := countM1.toNat + 1
      let named := fun r => first.toNat ≤ r ∧ r < first.toNat + count
      let i := .resideRelease sub core first countM1
      (128 < first.toNat + count → Yields i s (none' 0x0E St.badCommand)) ∧
      (first.toNat + count ≤ 128 → coreExists s c = false → Yields i s (none' 0x0E St.noSuchUnit)) ∧
      (first.toNat + count ≤ 128 → coreExists s c = true → coreFenced s c = true → Yields i s (none' 0x0E St.unitFenced)) ∧
      (first.toNat + count ≤ 128 → coreExists s c = true → coreFenced s c = false → (∃ r, named r ∧ (s.core c).region r ≠ .resident n) →
        Yields i s (none' 0x0E St.accessDenied)) ∧
      (first.toNat + count ≤ 128 → coreExists s c = true → coreFenced s c = false → (∀ r, named r → (s.core c).region r = .resident n) →
        Yields i s fun t => ends 0x0E St.ok 0 t ∧ OnlyCore c { s with pci := t.pci } t ∧ t.run c = s.run c ∧
          (∀ r, (t.core c).region r = if named r then .free else (s.core c).region r) ∧
          (t.core c).credits = { (s.core c).credits with
            free := (s.core c).credits.free + count
            held := (s.core c).credits.held - count } ∧
          (∀ r, (t.core c).present r = if named (r / 64) then false else (s.core c).present r) ∧
          ∀ a, t.mem.rdSpm c a 1 = if named (a / 4096) then [0] else s.mem.rdSpm c a 1)) ∧
    (∀ h : BitVec 16, Begins 0x0C sub s →
      let e := h.toNat % 1024
      let x := s.version e
      let mine := n = 0 ∨ x.owner.toNat = n
      let ready := (x.state = 2 ∨ x.state = 5) ∧ x.refs = 0
      (¬named h → Yields (.discard sub h) s (none' 0x0C St.noSuchModel)) ∧ (named h → ¬mine → Yields (.discard sub h) s (none' 0x0C St.accessDenied)) ∧
      (named h → mine → ¬ready → Yields (.discard sub h) s (none' 0x0C St.modelState)) ∧
      (named h → mine → ready → Yields (.discard sub h) s fun t => ends 0x0C St.ok 0 t ∧ t = { s with
          pci := t.pci
          lfl := { s.lfl with
            versions := t.lfl.versions
            blocks := t.lfl.blocks } } ∧
        ∀ i, t.version i = if i = e then { Version.free with gen := x.gen + 1 } else s.version i)) ∧
    (n ≠ 0 →
      let queued := fun (op : Nat) (j : Job) (t : State) => t = { s with
          pci := { s.pci with taken := s.pci.taken.eraseP (Taken.isOf op sub) }
          lfl := { s.lfl with
            jobs := t.lfl.jobs
            nextJob := s.lfl.nextJob + 1
            longOps := t.lfl.longOps }
          free := t.free } ∧ ∀ m, t.job m = if m = s.lfl.nextJob then j else s.job m
      let usable := fun (c : Nat) => coreExists s c = true ∧ coreFenced s c = false ∧ (s.tenant n).cores.getLsbD c = true
      let turnsAway := fun (op c : Nat) (i : Instr) => (coreExists s c = false → Yields i s (none' op St.noSuchUnit)) ∧
        (coreExists s c = true → coreFenced s c = true → Yields i s (none' op St.unitFenced)) ∧
        (coreExists s c = true → coreFenced s c = false → (s.tenant n).cores.getLsbD c = false → Yields i s (none' op St.accessDenied))
      (∀ req : RunReq, Begins 0x02 sub s →
        let i := .run sub req
        let cs := (List.range 64).filter fun c => req.cores.getLsbD c
        let bad := cs = [] ∨ (req.anycore = true ∧ 1 < cs.length)
        (bad → Yields i s (none' 0x02 St.badCommand)) ∧
        (¬bad → ∀ c ∈ cs, (∀ d ∈ cs, d < c → usable d) → turnsAway 0x02 c i) ∧
        (¬bad → (∀ c ∈ cs, usable c) → mayReadDram s n req.ptable.toNat (8 * cs.length) = false → Yields i s (none' 0x02 St.accessDenied)) ∧
        (¬bad → (∀ c ∈ cs, usable c) → mayReadDram s n req.ptable.toNat (8 * cs.length) = true → Yields i s fun t => queued 0x02 { Job.none with
            kind := .run req.adapt
            tenant := n
            sub := some sub
            gang := cs.zipIdx.map fun x => (x.1, BitVec.ofNat 64 (dramField s (req.ptable.toNat + 8 * x.2) 8))
            anycore := req.anycore
            limit := if req.limit = 0 then 100000000 else 1000 * req.limit.toNat
            state := .ready } t ∧
          t.lfl.longOps = s.lfl.longOps ++ if req.adapt = true then [{
            fn := n
            jobId := sub.jobId
            kind := .job s.lfl.nextJob
            suspended := false
            waiting := [] }] else [])) ∧
      ∀ (core first countM1 : Byte) (addr : DWord), Begins 0x0D sub s →
        let i := .resideLoad sub core first countM1 addr
        let count := countM1.toNat + 1
        let bad := 128 < first.toNat + count ∨ addr.toNat % 4096 ≠ 0
        (bad → Yields i s (none' 0x0D St.badCommand)) ∧ (¬bad → turnsAway 0x0D core.toNat i) ∧
        (¬bad → usable core.toNat → mayReadDram s n addr.toNat (4096 * count) = false → Yields i s (none' 0x0D St.accessDenied)) ∧
        (¬bad → usable core.toNat → mayReadDram s n addr.toNat (4096 * count) = true → Yields i s fun t => queued 0x0D { Job.none with
            kind := .resideLoad first.toNat count addr.toNat
            tenant := n
            sub := some sub
            gang := [(core.toNat, 0)]
            limit := 100000000
            state := .ready } t ∧ t.lfl.longOps = s.lfl.longOps))

/-- INGEST, its shards, windows and end (R217, R422 to R427). -/
def Obligations.IngestAndWindows : Prop :=
  ∀ s : State,
    (∀ sub : Sub, let f := sub.fn.val
      let ends := fun (op : Nat) (st : BitVec 16) (d : Nat) => Ended op sub (plainCompletion sub st (BitVec.ofNat 32 d)) s
      let none' := fun (op : Nat) (st : BitVec 16) (t : State) => OnlyEnded op sub (plainCompletion sub st 0) s t ∧ t = { s with pci := t.pci }
      let onlyWindow := fun (op w : Nat) (x : Window) (t : State) => t = { s with pci := { s.pci with
          funcs := t.pci.funcs
          taken := s.pci.taken.eraseP (Taken.isOf op sub) } } ∧
        (∀ g, t.func g = { s.func g with
          queues := (t.func g).queues
          windows := (t.func g).windows }) ∧
        ∀ g v : Nat, t.window g v = if g = f ∧ v = w then x else s.window g v
      (∀ (w stg : Byte) (off : Word), Begins 0x12 sub s →
        let i := .winOpen sub w stg off
        let x := s.window f w.toNat
        let r := s.region stg.toNat
        let mine := r.size ≠ 0 ∧ r.type = 5 ∧ r.owner.toNat = f
        let fits := 2 ^ 22 * (off.toNat + 1) ≤ r.len ∧ ∀ v, v < 16 → ¬((s.window f v).isOpen = true ∧ (s.window f v).stg = stg ∧ (s.window f v).offset.toNat = off.toNat)
        (15 < w.toNat → Yields i s (none' 0x12 St.badCommand)) ∧
        (w.toNat ≤ 15 → (s.func f).winEn = false → Yields i s (none' 0x12 St.accessDenied)) ∧
        (w.toNat ≤ 15 → (s.func f).winEn = true → x.isOpen = true → Yields i s (none' 0x12 St.badCommand)) ∧
        (w.toNat ≤ 15 → (s.func f).winEn = true → x.isOpen = false → x.reading ≠ 0 → Yields i s
          (onlyWindow 0x12 w.toNat { x with opens := x.opens ++ [(sub, stg, off)] })) ∧
        (w.toNat ≤ 15 → (s.func f).winEn = true → x.isOpen = false → x.reading = 0 →
          (¬mine → Yields i s (none' 0x12 St.accessDenied)) ∧ (mine → ¬fits → Yields i s (none' 0x12 St.badCommand)) ∧
          (mine → fits → Yields i s fun t => ends 0x12 St.ok (x.gen + 1).toNat t ∧ onlyWindow 0x12 w.toNat { x with
            gen := x.gen + 1
            stg := stg
            offset := off.setWidth 16 } t))) ∧
      (∀ w : Byte, Begins 0x13 sub s → let x := s.window f w.toNat
        (15 < w.toNat → Yields (.winClose sub w) s (none' 0x13 St.badCommand)) ∧
        (w.toNat ≤ 15 → x.isOpen = false → Yields (.winClose sub w) s (none' 0x13 St.ok)) ∧
        (w.toNat ≤ 15 → x.isOpen = true → Yields (.winClose sub w) s fun t => ends 0x13 St.ok 0 t ∧ onlyWindow 0x13 w.toNat { x with
          gen := x.gen + 1
          droppedSince := 0
          hasClosed := true } t)) ∧
      (∀ req : IngestReq, Begins 0x10 sub s →
        let i := .ingest sub req
        let dst := s.region req.dst.toNat
        let stg := s.region req.stg.toNat
        let mine := (dst.size ≠ 0 ∧ dst.type = 1 ∧ dst.owner.toNat = f) ∧ stg.size ≠ 0 ∧ stg.type = 5 ∧ stg.owner.toNat = f
        let m := (if req.src = 2 then flashManifest s req.manifestAt else some req.manifest).bind parseManifest
        (2 < req.src.toNat → Yields i s (none' 0x10 St.badCommand)) ∧
        (req.src = 2 → f ≠ 0 → Yields i s (none' 0x10 St.accessDenied)) ∧
        (req.src.toNat ≤ 2 → req.src = 2 → f = 0 → ¬mine → Yields i s (none' 0x10 St.accessDenied)) ∧
        (req.src.toNat < 2 → ¬mine → Yields i s (none' 0x10 St.accessDenied)) ∧
        (req.src.toNat < 2 → mine → stg.len < 2 ^ 23 → Yields i s (none' 0x10 St.badCommand)) ∧
        (req.src.toNat < 2 → mine → 2 ^ 23 ≤ stg.len →
          (m = none → Yields i s (none' 0x10 St.ingestAuth)) ∧
          (∀ x, m = some x → unwrapFor 1 f x.wrapped req.key = none → Yields i s (none' 0x10 St.ingestAuth)) ∧
          ∀ x k, m = some x → unwrapFor 1 f x.wrapped req.key = some k →
            (Crypto.gcmTag k (manifestIv x.nonce) x.head [] ≠ x.mtag → Yields i s (none' 0x10 St.ingestAuth)) ∧
            (Crypto.gcmTag k (manifestIv x.nonce) x.head [] = x.mtag →
              (imageFits dst x = false → Yields i s (none' 0x10 St.ingestSpace)) ∧
              (imageFits dst x = true → newVersion s req.dst.toNat = none → Yields i s (none' 0x10 St.ingestSpace)) ∧
              ∀ e, imageFits dst x = true → newVersion s req.dst.toNat = some e → req.src = 1 → Yields i s fun t =>
                let n := s.lfl.nextJob
                t = { s with
                  pci := { s.pci with taken := s.pci.taken.eraseP (Taken.isOf 0x10 sub) }
                  lfl := { s.lfl with
                    nextJob := n + 1
                    versions := t.lfl.versions
                    ingests := t.lfl.ingests
                    longOps := s.lfl.longOps ++ [{ fn := f, jobId := sub.jobId, kind := .ingest n, suspended := false, waiting := [] }] } } ∧
                (∀ j, t.version j = if j = e then { Version.free with
                  state := 1
                  gen := (s.version e).gen
                  owner := dst.owner
                  region := req.dst.toNat
                  addr := dst.lo } else s.version j) ∧
                (∀ j, j ≠ n → t.ingest j = s.ingest j) ∧
                (t.ingest n).sub = sub ∧ (t.ingest n).handle = e + 1024 * (s.version e).gen.toNat ∧ (t.ingest n).shards = [] ∧ (t.ingest n).active = [] ∧
                (t.ingest n).nshards = x.nshards ∧ (t.ingest n).imageLen = x.imageLen ∧ (t.ingest n).key = k ∧ (t.ingest n).since = s.ms ∧
                (t.ingest n).timeoutMs = if req.timeoutMs = 0 then 60000 else req.timeoutMs.toNat))) ∧
      ∀ req : ShardReq, Begins 0x11 sub s →
        let i := .ingestShard sub req
        let sh := req.shard.toNat
        let waits := fun (src : ShardSrc) (place : Nat) (begun : Bool) => ({
          shard := sh
          src := src
          at' := place
          waiters := [sub]
          begun := begun
          left := 0
          failed := false } : ShardJob)
        (targetIngest s f req.target = none → Yields i s (none' 0x11 St.noSuchJob)) ∧
        ∀ n, targetIngest s f req.target = some n → let g := s.ingest n
          let st := Tab.get ShardState.absent g.shards sh
          (g.nshards ≤ sh ∨ st = .verified → Yields i s (none' 0x11 St.shardState)) ∧
          (sh < g.nshards → st ≠ .verified → ∀ (w : Fin 16) (gen : BitVec 16), req.src = .window w gen → let x := s.window f w
            (x.gen ≠ gen → Yields i s (none' 0x11 St.windowStale)) ∧
            (x.gen = gen → x.isOpen = true → stagingSpan s f x.stg.toNat x.offset.toNat = true → (∀ y ∈ g.active, y.shard ≠ sh) → Yields i s fun t =>
              t = { s with
                pci := t.pci
                lfl := { s.lfl with ingests := t.lfl.ingests } } ∧
              t.window f w = { x with
                gen := gen + 1
                droppedSince := 0
                hasClosed := true
                reading := x.reading + 1 } ∧
              t.ingest n = { g with
                active := g.active ++ [waits req.src ((s.region x.stg.toNat).lo + 2 ^ 22 * x.offset.toNat) true]
                shards := (t.ingest n).shards } ∧
              ∀ j, Tab.get ShardState.absent (t.ingest n).shards j = if j = sh then .staged else Tab.get ShardState.absent g.shards j)) ∧
          (sh < g.nshards → st ≠ .verified → req.src = .host → g.src ≠ 1 → g.suspended = true → (∀ y ∈ g.active, y.shard ≠ sh) → Yields i s fun t =>
            t.pci.taken = s.pci.taken.eraseP (Taken.isOf 0x11 sub) ∧ t.ingest n = { g with active := g.active ++ [waits .host 0 false] })) ∧
    (∀ (fn : Fn) (off : BitVec 26) (data : Bytes), s.running = true → (s.func fn).flr = false →
      let w := off.toNat / 2 ^ 22
      let at' := off.toNat % 2 ^ 22
      let x := s.window fn w
      (x.isOpen = false → Yields (.windowWrite fn off data) s fun t => OnlyFunc fn s t ∧ t.func fn = { s.func fn with
          windows := (t.func fn).windows
          evq := { (s.func fn).evq with posted := (s.func fn).evq.posted ++ if x.hasClosed = true ∧ x.droppedSince = 0
            then [padTo 31 ([0x02, 0, BitVec.ofNat 8 w, 0] ++ toLE 2 (x.gen - 1).toNat ++ toLE 2 x.gen.toNat ++ toLE 4 1)] else [] } } ∧
        ∀ v, t.window fn v = if v = w then { x with
          dropped := satUp x.dropped 1
          droppedSince := x.droppedSince + 1 } else s.window fn v) ∧
      (x.isOpen = true → stagingSpan s fn x.stg.toNat x.offset.toNat = true → Yields (.windowWrite fn off data) s fun t =>
        let lo := (s.region x.stg.toNat).lo + 2 ^ 22 * x.offset.toNat + at'
        let n := min data.length (2 ^ 22 - at')
        LinesStored 1 (fun a => lo / 64 * 64 ≤ a ∧ a < (lo + n + 63) / 64 * 64) s t ∧
        (∀ a, ¬(lo ≤ a ∧ a < lo + n) → readLine s (a / 64 * 64) = { data := s.mem.rdDram (a / 64 * 64) 64, poison := false } →
          t.mem.rdDram a 1 = s.mem.rdDram a 1) ∧
        ∀ a, a < n → lineTaken 1 s ((lo + a) / 64 * 64) = true → t.mem.rdDram (lo + a) 1 = [data.getD a 0])) ∧
    (∀ (n shard : Nat) (bs : Bytes), let g := s.ingest n
      s.running = true → Tab.get ShardState.absent g.shards shard = .staging →
      ∀ y, g.active.find? (fun x => x.shard = shard && x.begun) = some y → y.left = 0 → y.failed = false → y.src = .host →
      Yields (.shardStaged n shard (some bs)) s fun t =>
        let len := min (2 ^ 22) (g.imageLen - 2 ^ 22 * shard)
        (∃ u, LinesStored 1 (fun a => y.at' ≤ a ∧ a < y.at' + 64 * ((len + 63) / 64)) s u ∧ t = { u with lfl := { s.lfl with ingests := t.lfl.ingests } }) ∧
        (∀ a, a < len → lineTaken 1 s (y.at' + a / 64 * 64) = true → t.mem.rdDram (y.at' + a) 1 = [bs.getD a 0]) ∧
        (∀ j, j ≠ n → t.ingest j = s.ingest j) ∧ t.ingest n = { g with shards := (t.ingest n).shards } ∧
        ∀ j, Tab.get ShardState.absent (t.ingest n).shards j = if j = shard then .staged else Tab.get ShardState.absent g.shards j) ∧
    (∀ (n shard : Nat), let g := s.ingest n
      s.running = true → Tab.get ShardState.absent g.shards shard = .staged →
      ∀ y, g.active.find? (fun x => x.shard = shard) = some y →
      let len := min (2 ^ 22) (g.imageLen - 2 ^ 22 * shard)
      let iv := toLE 8 g.nonce ++ toBE 4 shard
      let cipher := readDram s y.at' len
      let good := cipher.2 = false ∧ Crypto.gcmTag g.key iv (toLE 8 g.imageLen ++ toLE 4 shard) cipher.1 = g.tags.getD shard []
      (good → (s.region g.dst).comp = false → Yields (.shardVerifyDone n shard) s fun t =>
        let lo := (s.region g.dst).lo + 2 ^ 22 * shard
        Tab.get ShardState.absent (t.ingest n).shards shard = .verified ∧ (g.suspended = false → (t.ingest n).since = s.ms) ∧
        (∀ a, a < lo ∨ lo + 2048 * ((len + 2047) / 2048) ≤ a → t.mem.rdDram a 1 = s.mem.rdDram a 1) ∧
        ∀ a, a < len → lineTaken 1 s (lo + a / 64 * 64) = true → t.mem.rdDram (lo + a) 1 = [(Crypto.gcmCrypt g.key iv cipher.1).getD a 0]) ∧
      (¬good → g.src = 1 → (∀ x ∈ g.active, x.begun = true) → Yields (.shardVerifyDone n shard) s fun t => t.mem = s.mem ∧
        Tab.get ShardState.absent (t.ingest n).shards shard = .absent ∧
        padTo 31 ([0x03, 0, 0, 0] ++ toLE 4 g.sub.jobId.toNat ++ toLE 4 shard ++ [1]) ∈ (t.func g.sub.fn).evq.posted)) ∧
    (∀ n : Nat, let g := s.ingest n
      let ended := fun (st : BitVec 16) (d : Nat) (t : State) => t.ingest n = Ingest.none ∧ (∀ l ∈ t.lfl.longOps, l.kind ≠ .ingest n) ∧
        ((s.queue g.sub.fn g.sub.qid).state ≠ .none → ∃ c, (t.queue g.sub.fn g.sub.qid).waiting.getLast? = some c ∧
          c.jobId = g.sub.jobId ∧ c.status = st ∧ c.detail = BitVec.ofNat 32 d)
      s.running = true →
      ((∃ l ∈ s.lfl.longOps, l.kind = .ingest n ∧ l.suspended = false) → g.building = false → g.timeoutMs ≤ s.ms - g.since → Yields (.ingestTimeout n) s fun t =>
        ended St.ingestIncomplete ((List.range g.nshards).countP fun k => Tab.get ShardState.absent g.shards k ≠ .verified) t ∧
        (∀ j, t.version j = if j = g.handle % 1024 then { s.version j with state := 5 } else s.version j) ∧
        ∀ k, k < g.nshards → ∃ b : Byte, t.mem.rdHost g.sub.fn (g.report + k / 8) 1 = [b] ∧
          (b.getLsbD (k % 8) = true ↔ Tab.get ShardState.absent g.shards k ≠ .verified)) ∧
      (g.building = true → g.suspended = false → domUp s 0x70 = true → ((∃ b ∈ s.gdl.builds, b.ingest = n ∧ b.waiting = true) → (loadSlot s).isSome = true) →
        Yields (.tableBuildComplete n) s fun t => ended St.ok g.handle t ∧ ((s.region g.dst).comp = false → t.mem = s.mem) ∧
          (t.version (g.handle % 1024)).state = 2 ∧ ∀ j, j ≠ g.handle % 1024 → t.version j = s.version j))

/-- SUSPEND, RESUME and CANCEL of long operations (R421). -/
def Obligations.LongOperationsControlled : Prop :=
  ∀ (sub : Sub) (target : Word) (fn : Byte) (op : Nat) (i : Instr) (s : State), Begins op sub s →
    ((op = 0x18 ∧ i = .suspend sub target fn) ∨ (op = 0x19 ∧ i = .resume sub target fn) ∨ (op = 0x1A ∧ i = .cancel sub target fn)) →
    let n := sub.fn.val
    let whose := if n = 0 then fn.toNat else n
    let only := fun (st : BitVec 16) (t : State) => OnlyEnded op sub (plainCompletion sub st 0) s t ∧ t = { s with pci := t.pci }
    let own := fn.toNat ≤ 15 ∧ (op = 0x1A ∨ n ≠ 0 ∨ fn = 0)
    let named := s.lfl.longOps.find? fun l => l.fn = whose && l.jobId = target
    (15 < fn.toNat → Yields i s (only St.badCommand)) ∧
    (fn.toNat ≤ 15 → op ≠ 0x1A → n = 0 → fn ≠ 0 → Yields i s (only St.accessDenied)) ∧
    (own → named = none → Yields i s (only St.noSuchJob)) ∧
    ∀ l : LongOp, own → named = some l →
      let k := l.kind
      let waits := { s with
        pci := { s.pci with taken := s.pci.taken.eraseP (Taken.isOf op sub) }
        lfl := { s.lfl with longOps := s.lfl.longOps.map fun l => if l.kind = k then { l with waiting := l.waiting ++ [(sub, op)] } else l } }
      let waiting := fun (o : Nat) => (waits.longWaiters k).filter fun w => w.2 = o
      let others := (waits.longWaiters k).filter fun w => w.2 ≠ 0x1A
      let posted := fun (cs : List (Sub × Completion)) (t : State) => t.pci = { waits.pci with funcs := t.pci.funcs } ∧
        (∀ f, t.func f = { s.func f with queues := (t.func f).queues }) ∧
        ∀ f q : Nat, let x := s.queue f q
          t.queue f q = { x with waiting := x.waiting ++ if x.state = .none then [] else
            (cs.filter fun c => c.1.fn.val = f && c.1.qid.val = q).map (·.2) }
      let told := fun (o : Nat) => posted ((waiting o).map fun w => (w.1, plainCompletion w.1 St.ok 0))
      let ended := fun (who : Sub) (c : Completion) (t : State) => (s.queue who.fn who.qid).state ≠ .none → posted (others.map (fun w => (w.1, plainCompletion w.1 St.noSuchJob 0)) ++
        [(who, { c with after := (waiting 0x1A).map fun w => (w.1, St.ok) })]) t ∧ t.lfl.longOps = s.lfl.longOps.filter fun l => l.kind ≠ k
      let marked := fun (o : Nat) (susp : Bool) (t : State) => t.lfl.longOps = waits.lfl.longOps.map fun l => if l.kind = k then { l with
        suspended := susp
        waiting := l.waiting.filter fun w => w.2 ≠ o } else l
      (op = 0x18 → l.suspended = true → Yields i s (only St.ok)) ∧
      (op = 0x19 → l.suspended = false → Yields i s (only St.ok)) ∧
      (∀ m, k = .request m →
        let r := s.req m
        let between := busyReq s m = false ∧ r.settled = true ∧ r.finished = false
        (op = 0x18 → l.suspended = false → ¬between → exec i s = .next waits) ∧
        (op = 0x18 → l.suspended = false → between → waiting 0x1A = [] → Yields i s fun t => told 0x18 t ∧ marked 0x18 true t ∧
          t.req m = { r with suspended := true } ∧ t = { s with
            pci := t.pci
            lfl := { s.lfl with
              longOps := t.lfl.longOps
              requests := t.lfl.requests }}) ∧
        (op = 0x19 → l.suspended = true → Yields i s fun t => told 0x19 t ∧ marked 0x19 false t ∧ t.req m = { r with suspended := false } ∧ t = { s with
            pci := t.pci
            lfl := { s.lfl with
              longOps := t.lfl.longOps
              requests := t.lfl.requests }}) ∧
        (op = 0x1A → ¬between → exec i s = .next waits) ∧
        (op = 0x1A → between → Yields i s fun t => t = { waits with lfl := { waits.lfl with requests := t.lfl.requests } } ∧
          t.req m = { r with ending := some (r.ending.getD St.cancelled) })) ∧
      (∀ m, k = .job m →
        let j := s.job m
        let off := ∀ c, c < 64 → (s.core c).runs m = false ∧ (s.core c).keeps m = false ∧ (s.core c).awaits m = false
        let jobOnly := fun (t : State) => t = { s with
          pci := t.pci
          lfl := { s.lfl with
            longOps := t.lfl.longOps
            jobs := t.lfl.jobs } }
        (op = 0x18 → l.suspended = false → j.state = .ready → Yields i s fun t => told 0x18 t ∧ marked 0x18 true t ∧ jobOnly t ∧
          t.job m = { j with state := .suspended }) ∧
        (op = 0x19 → l.suspended = true → j.state = .suspended → (∀ c, (s.core c).keeps m = false) → Yields i s fun t => told 0x19 t ∧ marked 0x19 false t ∧
          jobOnly t ∧ t.job m = { j with state := .ready }) ∧
        (∀ who, op = 0x1A → off → j.state = .ready ∨ j.state = .suspended → j.sub = some who → j.isAdapt = true → Yields i s fun t =>
          let gone := { j with
            result := St.cancelled
            state := .done
            left := [] }
          ended who (jobCompletion m gone who) t ∧ jobOnly t ∧ t.job m = gone)) ∧
      (∀ m, k = .ingest m → op = 0x1A → Yields i s fun t => let who := (s.ingest m).sub
        (t.version ((s.ingest m).handle % 1024)).state = 5 ∧ t.ingest m = Ingest.none ∧
        ((s.ingest m).active = [] → ended who (plainCompletion who St.cancelled 0) t)) ∧
      (∀ m, k = .flash m →
        (op = 0x18 → l.suspended = false → Yields i s fun t => told 0x18 t ∧ marked 0x18 true t ∧
          t.flashCmd m = (s.flashCmd m).map (fun c => { c with suspended := true }) ∧ t = { s with
            pci := t.pci
            flt := t.flt
            lfl := { s.lfl with longOps := t.lfl.longOps } }) ∧
        (∀ c, op = 0x1A → s.flashCmd m = some c → c.kind = 0x20 → (∀ b ∈ c.blocks, (s.block b).state ≠ bsFree) → Yields i s fun t =>
          ended c.sub (plainCompletion c.sub St.cancelled 0) t ∧ t.flashCmd m = none)) ∧
      (∀ m, k = .retrain m →
        (op = 0x18 → l.suspended = false → retrainIs s m = true → exec i s = .next waits) ∧
        (op = 0x18 → l.suspended = false → retrainIs s m = false → Yields i s fun t => told 0x18 t ∧ marked 0x18 true t ∧ t = { s with
          pci := t.pci
          lfl := { s.lfl with longOps := t.lfl.longOps } }) ∧
        (∀ who, op = 0x1A → s.ddr.retrainQ.find? (fun c => c.1 = m) = some (m, who) → Yields i s fun t =>
          ended who (plainCompletion who St.cancelled 0) t ∧ t = { s with
            pci := t.pci
            ddr := { s.ddr with retrainQ := s.ddr.retrainQ.erase (m, who) }
            lfl := { s.lfl with longOps := t.lfl.longOps } }))

/-- SPDM (R402, R430, R434 to R436). -/
def Obligations.SpdmRequestsAnswered : Prop :=
  ∀ (fn : Fn) (s : State), s.running = true → (s.func fn).flr = false →
    let r := s.responder fn
    let becomes := fun (x : Spdm) (t : State) => OnlySpdm fn s t ∧ t.responder fn = x
    let answers := fun bs => becomes { r with response := bs }
    let error := fun (code : Byte) (more : Bytes) => answers ([0x12, 0x7F, code, 0] ++ more)
    let begun := fun (id : Word) => ∃ x ∈ r.sessions, x.id = id ∧ x.established = false
    let held := fun (id : Word) => ∃ x ∈ r.sessions, x.id = id ∧ x.established = true
    let onSession := fun (id : Word) (g : Session → Session) (bs : Bytes) => becomes { r with
      sessions := r.sessions.map fun x => if x.id = id then g x else x
      response := bs }
    let without := fun (id : Word) (bs : Bytes) => becomes { r with
      sessions := r.sessions.filter fun x => x.id ≠ id
      response := bs }
    let chain := fun slot => Config.certificate slot (hSet s) s.boot.svnRunning.toNat
    let reset := ∃ h, s.boot.held = some h ∧ h.reclaim ≠ none
    let busy := reset ∨ s.boot.fwOp = 2
    let waits := fun (code : Byte) (req : SignedReq) (i : Instr) => Yields i s (becomes { r with
      token := r.token + 1
      deferred := some (code, r.token + 1, req)
      response := [0x12, 0x7F, 0x42, 0, if s.boot.fwOp = 2 then 17 else 10, code, r.token + 1, 8] })
    let challenged := fun (nonce : Bytes) (x : Spdm) (t : State) => ∃ rnd : Bytes, rnd.length = 32 ∧
      let body := [0x12, 0x03, 0, 1] ++ Crypto.sha256 (chain 0) ++ rnd ++ zeros 2
      becomes { x with response := body ++ Config.signature (nonce ++ body) } t
    (∀ i : Byte, Yields (.doeDiscovery fn i) s (answers
      (let n := if s.boot.nursery = true then 1 else 3
       if i.toNat < n then [1, 0, i, BitVec.ofNat 8 ((i.toNat + 1) % n)] else [0xFF, 0xFF, 0, 0]))) ∧
    Yields (.getVersion fn) s (becomes { r with
      conn := .version
      response := [0x10, 0x04, 0, 0, 0, 1, 0x00, 0x12] }) ∧
    (∀ flags : Word, (r.conn ≠ .version → Yields (.getCapabilities fn flags) s (error 0x04 [])) ∧
      (r.conn = .version → Yields (.getCapabilities fn flags) s (becomes { r with
        conn := .capabilities
        response := [0x12, 0x61, 0, 0, 0, 0, 0, 0, 0xF6, 0x62, 0, 0] }))) ∧
    (∀ all : Bool, (r.conn ≠ .capabilities → Yields (.negotiateAlgorithms fn all) s (error 0x04 [])) ∧
      (r.conn = .capabilities → all = false → Yields (.negotiateAlgorithms fn all) s (error 0x01 [])) ∧
      (r.conn = .capabilities → all = true → Yields (.negotiateAlgorithms fn all) s fun t =>
        becomes { r with
          conn := .algorithms
          response := (t.responder fn).response } t)) ∧
    (r.conn ≠ .algorithms → Yields (.getDigests fn) s (error 0x04 []) ∧ ∀ slot off len, Yields (.getCertificate fn slot off len) s (error 0x04 [])) ∧
    (r.conn = .algorithms →
      Yields (.getDigests fn) s (answers ([0x12, 0x01, 0, 3] ++ Crypto.sha256 (chain 0) ++ Crypto.sha256 (chain 1))) ∧
      ∀ (slot : Byte) (off len : BitVec 16), let c := chain slot.toNat
        (1 < slot.toNat ∨ c.length < off.toNat → Yields (.getCertificate fn slot off len) s (error 0x01 [])) ∧
        (slot.toNat ≤ 1 → off.toNat ≤ c.length → Yields (.getCertificate fn slot off len) s (answers
          (let n := min len.toNat (c.length - off.toNat)
           [0x12, 0x02, slot, 0] ++ toLE 2 n ++ toLE 2 (c.length - off.toNat - n) ++ (c.drop off.toNat).take n)))) ∧
    (busy → (∀ slot nonce, waits 0x83 (.challenge slot.toNat nonce) (.challenge fn slot nonce)) ∧
      (∀ index signed nonce, waits 0xE0 (.measurements index.toNat signed nonce) (.getMeasurements fn index signed nonce)) ∧
      ∀ slot q x, waits 0xE4 (.keyExchange slot.toNat q.toNat x) (.keyExchange fn slot q x)) ∧
    (¬busy → r.conn = .algorithms →
      (∀ slot nonce, (slot ≠ 0 → Yields (.challenge fn slot nonce) s (error 0x01 [])) ∧ (slot = 0 → Yields (.challenge fn slot nonce) s (challenged nonce r))) ∧
      (∀ (index : Byte) signed nonce,
        (13 < index.toNat → index ≠ 0xFF → Yields (.getMeasurements fn index signed nonce) s (error 0x01 [])) ∧
        (index.toNat ≤ 13 ∨ index = 0xFF → Yields (.getMeasurements fn index signed nonce) s fun t => ∃ rnd : Bytes, rnd.length = 32 ∧
          let blocks := if index = 0 then [] else if index = 0xFF then (List.range 13).map fun i => measurementBlock s fn (i + 1)
            else [measurementBlock s fn index.toNat]
          let body := [0x12, 0x60, if index = 0 then 13 else 0, 0, BitVec.ofNat 8 blocks.length] ++ toLE 3 blocks.flatten.length ++ blocks.flatten ++ rnd ++
            zeros 2
          answers (body ++ if signed = true then Config.signature (nonce ++ body) else []) t)) ∧
      ∀ slot q x,
        (slot ≠ 0 → Yields (.keyExchange fn slot q x) s (error 0x01 [])) ∧
        (slot = 0 → 2 ≤ r.sessions.length → Yields (.keyExchange fn slot q x) s (error 0x0A [])) ∧
        (slot = 0 → r.sessions.length < 2 → Yields (.keyExchange fn slot q x) s fun t => ∃ id : Word, id.extractLsb' 0 16 = q ∧
          becomes { r with
            nextSession := r.nextSession + 1
            sessions := r.sessions ++ [{ id := id, established := false, since := s.ns, heartbeat := true, reqKeys := 0, rspKeys := 0 }]
            response := (t.responder fn).response } t)) ∧
    (¬busy → r.conn ≠ .algorithms → ∀ slot nonce index signed q x, Yields (.challenge fn slot nonce) s (error 0x04 []) ∧
      Yields (.getMeasurements fn index signed nonce) s (error 0x04 []) ∧ Yields (.keyExchange fn slot q x) s (error 0x04 [])) ∧
    (∀ code token, ((∀ req, r.deferred ≠ some (code, token, req)) → Yields (.respondIfReady fn code token) s (error 0x01 [])) ∧
      ∀ req, r.deferred = some (code, token, req) →
        (busy → Yields (.respondIfReady fn code token) s (error 0x42 [if s.boot.fwOp = 2 then 17 else 10, code, token, 8])) ∧
        (∀ nonce, ¬busy → r.conn = .algorithms → req = .challenge 0 nonce → Yields (.respondIfReady fn code token) s
          (challenged nonce { r with deferred := none }))) ∧
    (∀ (id : Word) (ok : Bool), (¬begun id → Yields (.finish fn id ok) s (error 0x02 [])) ∧
      (begun id → ok = false → Yields (.finish fn id ok) s (without id [0x12, 0x7F, 0x06, 0])) ∧
      (begun id → ok = true → Yields (.finish fn id ok) s (onSession id (fun x => { x with
        established := true
        since := s.ns }) [0x12, 0x65, 0, 0]))) ∧
    (∀ id : Word, ¬held id → Yields (.heartbeat fn id) s (error 0x02 []) ∧ Yields (.endSession fn id) s (error 0x02 []) ∧
      ∀ op, Yields (.keyUpdate fn id op) s (error 0x02 [])) ∧
    ∀ id : Word, held id → Yields (.heartbeat fn id) s (onSession id (fun x => { x with since := s.ns }) [0x12, 0x68, 0, 0]) ∧
      Yields (.endSession fn id) s (without id [0x12, 0x6C, 0, 0]) ∧
      ∀ op : Byte, (op = 0 ∨ 3 < op.toNat → Yields (.keyUpdate fn id op) s (error 0x01 [])) ∧
        (1 ≤ op.toNat → op.toNat ≤ 3 → Yields (.keyUpdate fn id op) s (onSession id (fun x => { x with
          reqKeys := if op = 3 then x.reqKeys else x.reqKeys + 1
          rspKeys := if op = 2 then x.rspKeys + 1 else x.rspKeys }) [0x12, 0x69, op, 0]))

/-- Link protection and TDISP (R438 to R442). -/
def Obligations.LinkAndInterfacesProtected : Prop :=
  ∀ s : State, s.running = true → (s.func 0).flr = false →
    let r := s.responder 0
    let secured := fun (id : Word) => ∃ x ∈ r.sessions, x.id = id ∧ x.established = true
    let carries := fun (bs : Bytes) (t : State) => ∃ head, (t.responder 0).response = head ++ bs
    let answers := fun (bs : Bytes) (t : State) => OnlySpdm 0 s t ∧ carries bs t ∧ t.responder 0 = { r with response := (t.responder 0).response }
    let refused := fun (i : Instr) => Yields i s fun t => OnlySpdm 0 s t ∧ t.responder 0 = { r with response := [0x12, 0x7F, 0x02, 0] }
    let bound := fun (stream o : Nat) => 1 ≤ o ∧ o ≤ 15 ∧ tdiLocked s o = true ∧ (s.tsec o).stream = stream
    let tdisLost := fun (lost : Prop) (stream : Nat) (t : State) =>
      (∀ o, lost → bound stream o → (t.tsec o).tdi = .error) ∧ ∀ o, ¬(lost ∧ bound stream o) → t.tsec o = s.tsec o
    let onlyIde := fun (t : State) => t = { s with sec := { s.sec with
      spdm := t.sec.spdm
      ide := t.sec.ide } }
    let busy := (∃ h, s.boot.held = some h ∧ h.reclaim ≠ none) ∨ s.boot.fwOp = 2
    (∀ id : Word, ¬secured id → (∀ p, refused (.ideKmQuery id p)) ∧ (∀ st ks sub key, refused (.keyProg id st ks sub key)) ∧
      ∀ st ks sub, refused (.kSetGo id st ks sub) ∧ refused (.kSetStop id st ks sub)) ∧
    (∀ id : Word, secured id →
      (∀ p, Yields (.ideKmQuery id p) s (answers ((List.range 9).map fun i =>
        BitVec.ofNat 8 ((if (s.stream i).secure = true then 1 else 0) + if (s.stream i).failed = true then 2 else 0)))) ∧
      ∀ (st : Fin 9) (ks : Fin 2) (sub : Fin 3),
        let x := s.stream st
        let y := x.sub sub
        let onlyStream := fun (t : State) => ∀ i, i ≠ st.val → t.stream i = s.stream i
        let onlySub := fun (t : State) => ∀ j, j ≠ sub.val → (t.stream st).sub j = x.sub j
        let allUsed := fun (z : IdeStream) => ∀ j, j < 3 → (z.sub j).active ≠ none
        (∀ key : Bytes, (key.length ≠ 32 → Yields (.keyProg id st ks sub key) s fun t => OnlySpdm 0 s t) ∧
          (key.length = 32 → Yields (.keyProg id st ks sub key) s fun t => onlyIde t ∧ onlyStream t ∧ onlySub t ∧
            t.stream st = { x with subs := (t.stream st).subs } ∧ ((t.stream st).sub sub).active = y.active ∧
            ∀ n, Tab.get none ((t.stream st).sub sub).keys n = if n = ks.val then some key else Tab.get none y.keys n)) ∧
        (Tab.get none y.keys ks = none → Yields (.kSetGo id st ks sub) s fun t => OnlySpdm 0 s t) ∧
        (Tab.get none y.keys ks ≠ none → Yields (.kSetGo id st ks sub) s fun t => onlyIde t ∧ onlyStream t ∧ onlySub t ∧
          (t.stream st).sub sub = { y with active := some ks.val } ∧
          (allUsed (t.stream st) → (t.stream st).secure = true ∧ (t.stream st).failed = false) ∧
          (¬allUsed (t.stream st) → (t.stream st).secure = x.secure ∧ (t.stream st).failed = x.failed)) ∧
        Yields (.kSetStop id st ks sub) s fun t =>
          let used := y.active = some ks.val
          onlyStream t ∧ onlySub t ∧ tdisLost (used ∧ x.secure = true) st t ∧ ((∀ o, ¬bound st o) → onlyIde t) ∧
          (t.stream st).secure = (if used then false else x.secure) ∧ ((t.stream st).sub sub).active = (if used then none else y.active) ∧
          ∀ n, Tab.get none ((t.stream st).sub sub).keys n = if n = ks.val then none else Tab.get none y.keys n) ∧
    (∀ st : Fin 9, ((s.stream st).secure = false → exec (.ideIntegrityFail st) s = .next s) ∧
      ((s.stream st).secure = true → Yields (.ideIntegrityFail st) s fun t => tdisLost True st t ∧ ((∀ o, ¬bound st o) → onlyIde t) ∧
        ∀ i, t.stream i = if i = st.val then { s.stream st with
          secure := false
          failed := true } else s.stream i)) ∧
    (∀ (id : Word) (i : Instr) (q : TdispReq), (i, q) ∈ [(.getTdispVersion id, .version), (.getTdispCapabilities id, .capabilities)] ∨
        (∃ o : Fn, (i, q) ∈ [(.getDeviceInterfaceReport id o, .report o), (.getDeviceInterfaceState id o, .state o), (.stopInterfaceRequest id o, .stop o)]) ∨
        (∃ (o : Fn) (st : Byte), (i, q) = (.lockInterfaceRequest id o st, .lock o st.toNat)) ∨
        (∃ (o : Fn) (nonce : Bytes), (i, q) = (.startInterfaceRequest id o nonce, .start o nonce)) →
      (busy → Yields i s fun t => OnlySpdm 0 s t ∧ t.responder 0 = { r with
        token := r.token + 1
        deferred := some (0xFE, r.token + 1, .tdisp id q)
        response := [0x12, 0x7F, 0x42, 0, if s.boot.fwOp = 2 then 17 else 10, 0xFE, r.token + 1, 8] }) ∧
      (¬busy → ¬secured id → refused i)) ∧
    (¬busy → ∀ id : Word, secured id →
      Yields (.getTdispVersion id) s (answers [1, 0x10]) ∧ Yields (.getTdispCapabilities id) s (answers []) ∧
      ∀ o : Fn, o ≠ 0 →
        let x := s.tsec o
        let becomes := fun (y : TenantSec) (bs : Bytes) (t : State) => carries bs t ∧ t = { s with
            sec := { s.sec with
              spdm := t.sec.spdm
              tens := t.sec.tens }
            free := t.free } ∧ t.tsec o = y ∧ ∀ p, p ≠ o.val → t.tsec p = s.tsec p
        (tdiLocked s o = true → Yields (.getDeviceInterfaceReport id o) s (answers interfaceReport)) ∧
        (tdiLocked s o = false → Yields (.getDeviceInterfaceReport id o) s (answers (toLE 4 0x0004 ++ toLE 4 0))) ∧
        Yields (.getDeviceInterfaceState id o) s (answers [match x.tdi with
          | .unlocked => 0
          | .locked => 1
          | .run => 2
          | .error => 3]) ∧
        (∀ st : Byte, let fits := x.tdi = .unlocked ∧ st ≠ 0 ∧ st.toNat ≤ 8 ∧ (s.stream st.toNat).secure = true ∧ x.conf = true ∧ s.sec.dbgOpened = false
          (fits → Yields (.lockInterfaceRequest id o st) s fun t => ∃ nonce : Bytes, nonce.length = 32 ∧ becomes { x with
            tdi := .locked
            stream := st.toNat
            nonce := nonce } nonce t) ∧
          (¬fits → Yields (.lockInterfaceRequest id o st) s fun t => OnlySpdm 0 s t)) ∧
        (∀ nonce : Bytes, (x.tdi = .locked ∧ nonce = x.nonce → Yields (.startInterfaceRequest id o nonce) s (becomes { x with tdi := .run } [])) ∧
          (¬(x.tdi = .locked ∧ nonce = x.nonce) → Yields (.startInterfaceRequest id o nonce) s fun t => OnlySpdm 0 s t)) ∧
        (x.tdi = .unlocked → Yields (.stopInterfaceRequest id o) s (becomes { x with
          stream := 0
          nonce := [] } [])) ∧
        (x.tdi ≠ .unlocked → Yields (.stopInterfaceRequest id o) s fun t => (∀ p, t.tsec p = if p = o.val then { x with
            tdi := .unlocked
            stream := 0
            nonce := [] } else s.tsec p) ∧
          (∀ e ∈ t.gdl.regions, e.2.owner.toNat ≠ o.val) ∧ (∀ k ∈ t.sec.kslots, k.2.live = true → k.2.owner.toNat ≠ o.val) ∧
          ∀ k ∈ s.sec.kslots, ¬(k.2.live = true ∧ k.2.owner.toNat = o.val) → k ∈ t.sec.kslots))

/-- Confidential mode, key slots, ring keys and the debug port (R256, R431 to R433, R441, R443, R446 to R448, R450, R452). -/
def Obligations.SecurityCommands : Prop :=
  ∀ s : State,
    (∀ (fn : Fn) (v : Word), fn ≠ 0 ∨ bar0Open s 0 = false → ∀ i, i ∈ [.tenantConfApply fn v, .keySlotGenerate fn v, .keySlotDestroy fn v, .ringKeyInstall fn v,
      .ringKeyRemove fn v] → exec i s = .next s) ∧
    (bar0Open s 0 = true →
      (∀ v : Word, let n := v.toNat % 16
        let holds := (∃ q ∈ (s.func n).queues, q.2.state ≠ .none) ∨ (∃ c, c < 24 ∧ (s.ctx c).owner = n ∧ (s.ctx c).life ≠ .closed) ∨
          (∃ r ∈ s.lfl.requests, r.2.tenant = n) ∨ (∃ c, c < 64 ∧ residentOf (s.core c) n ≠ []) ∨ (∃ b ∈ s.lfl.blocks, b.2.tenant = n ∧ b.2.refs ≠ 0) ∨
          (∃ k ∈ s.sec.kslots, k.2.live = true ∧ k.2.owner.toNat = n) ∨ ∃ e ∈ s.gdl.regions, e.2.size ≠ 0 ∧ e.2.owner.toNat = n
        let refuses := n = 0 ∨ holds ∨ (tdiLocked s n = true ∧ s.sec.tenConf ≠ (s.tsec n).conf)
        (v.getLsbD 4 = false → exec (.tenantConfApply 0 v) s = .next { s with sec := { s.sec with
          tenSel := BitVec.ofNat 4 n
          tenConf := n ≠ 0 && (s.tsec n).conf } }) ∧
        (v.getLsbD 4 = true → refuses → exec (.tenantConfApply 0 v) s = .next { s with sec := { s.sec with
          tenSel := BitVec.ofNat 4 n
          tenErr := true } }) ∧
        (v.getLsbD 4 = true → ¬refuses → Yields (.tenantConfApply 0 v) s fun t =>
          t.sec = { s.sec with
            tenSel := BitVec.ofNat 4 n
            tenErr := false
            tens := t.sec.tens } ∧
          (∀ o, t.tsec o = if o = n then { s.tsec n with conf := s.sec.tenConf } else s.tsec o) ∧
          (∀ o, t.tenant o = if o = n then { s.tenant n with prefixKey := s.lfl.keyDraw + 1 } else s.tenant o) ∧
          (s.sec.tenConf = true → ∀ p, p < 6 → p < s.ddr.ports.length → n < (s.port p).accts.length → (t.acct p n).mode = 2 ∧ (t.acct p n).rate = 364) ∧
          (s.sec.tenConf = false → t.ddr = s.ddr))) ∧
      (∀ v : Word, let k := v.toNat % 128
        let o := v.toNat / 4096 % 16
        let x := keySlot s k
        let named := (∃ e ∈ s.gdl.regions, e.2.size ≠ 0 ∧ e.2.key.toNat = k) ∨ s.lfl.descKey.toNat = k
        let writes := fun (err : Bool) (i : Instr) (y : KeySlot) => Yields i s fun t => t = { s with sec := { s.sec with
            kslot := BitVec.ofNat 7 k
            kowner := BitVec.ofNat 4 o
            kErr := err
            kslots := t.sec.kslots } } ∧ ∀ j, keySlot t j = if j = k then y else keySlot s j
        (v.toNat / 256 % 4 ≠ 1 → exec (.keySlotGenerate 0 v) s = .next s) ∧ (v.toNat / 256 % 4 ≠ 2 → exec (.keySlotDestroy 0 v) s = .next s) ∧
        (v.toNat / 256 % 4 = 1 → let bad := x.live = true ∨ named ∨ tdiLocked s o = true
          (bad → writes true (.keySlotGenerate 0 v) x) ∧ (¬bad → writes false (.keySlotGenerate 0 v) {
            live := true
            owner := BitVec.ofNat 4 o
            epoch := x.epoch + 1 })) ∧
        (v.toNat / 256 % 4 = 2 → let bad := k = 0 ∨ named ∨ tdiLocked s x.owner.toNat = true
          (bad → writes true (.keySlotDestroy 0 v) x) ∧ (¬bad → writes false (.keySlotDestroy 0 v) { x with
            live := false
            owner := 0 }))) ∧
      ∀ v : Word, let n := v.toNat % 4
        (v.toNat / 4 % 4 ≠ 1 ∨ s.sec.rkeyBusy = true → exec (.ringKeyInstall 0 v) s = .next s) ∧
        (v.toNat / 4 % 4 ≠ 2 ∨ s.sec.rkeyBusy = true → exec (.ringKeyRemove 0 v) s = .next s) ∧
        (s.sec.rkeyBusy = false →
          (v.toNat / 4 % 4 = 1 → exec (.ringKeyInstall 0 v) s = .next { s with sec := { s.sec with
            rkeyKey := BitVec.ofNat 2 n
            rkeyBusy := true
            rkeyWork := s.sec.rkeyBuf } }) ∧
          (v.toNat / 4 % 4 = 2 → Yields (.ringKeyRemove 0 v) s fun t => t = { s with
              sec := { s.sec with
                rkeyKey := BitVec.ofNat 2 n
                ringKeys := t.sec.ringKeys }
              trg := { s.trg with
                keys := t.trg.keys
                pendingKeys := t.trg.pendingKeys } } ∧
            ∀ j, Tab.get none t.sec.ringKeys j = (if j = n then none else Tab.get none s.sec.ringKeys j) ∧
              Tab.get none t.trg.keys j = (if j = n then none else Tab.get none s.trg.keys j) ∧
              Tab.get none t.trg.pendingKeys j = if j = n then none else Tab.get none s.trg.pendingKeys j))) ∧
    (s.running = true → s.sec.rkeyBusy = true → ∀ key : Option Bytes,
      let n := s.sec.rkeyKey.toNat
      let w := (List.range 16).flatMap fun i => toLE 8 (Tab.get 0 s.sec.rkeyWork i).toNat
      let accepts := fun k => key = some k ∧ k.length = 16 ∧ field w 104 1 = 2 ∧ field w 105 1 = 0 ∧ field w 106 22 = 0 ∧ field w 88 16 = 0
      ((∀ k, ¬accepts k) → exec (.ringKeyUnwrapped key) s = .next { s with sec := { s.sec with
        rkeyBusy := false
        rkeyWork := []
        rkeyErr := true } }) ∧
      ∀ k, accepts k → Yields (.ringKeyUnwrapped key) s fun t => t = { s with
          sec := { s.sec with
            rkeyBusy := false
            rkeyWork := []
            rkeyErr := false
            ringKeys := t.sec.ringKeys }
          trg := { s.trg with pendingKeys := t.trg.pendingKeys } } ∧
        ∀ j, Tab.get none t.sec.ringKeys j = (if j = n then some (BitVec.ofNat 128 (leNat k)) else Tab.get none s.sec.ringKeys j) ∧
          Tab.get none t.trg.pendingKeys j = if j = n then some (BitVec.ofNat 128 (leNat k)) else Tab.get none s.trg.pendingKeys j) ∧
    (s.running = true → ∀ tok : DebugToken, let good := tok.keyMatches = true ∧ tok.reserved = true ∧ tok.signatureOk = true ∧ tok.scope.toNat < 8
      (good → exec (.debugToken tok) s = .next { s with sec := { s.sec with
        dbgOpened := true
        dbgScope := tok.scope.setWidth 3 } }) ∧
      (¬good → exec (.debugToken tok) s = .next { s with sec := { s.sec with dbgRejects := satUp s.sec.dbgRejects 1 } })) ∧
    ∀ target : DebugTarget, let hidden := match target with
        | .coreRow c r => isConf s (s.core c).owner = true ∨ ∃ o, (s.core c).region (r / 64) = .resident o ∧ isConf s o = true
        | .dram a => ∃ e, entryOf s (a / 64 * 64) 64 = some e ∧ isConf s (s.region e).owner.toNat = true
        | .sram a => ∃ o, o < 16 ∧ isConf s o = true ∧ 4096 * (s.tenant o).base.toNat ≤ a ∧ a < 4096 * ((s.tenant o).base.toNat + (s.tenant o).size.toNat)
      let inScope := fun (write : Bool) => match target with
        | .coreRow c r => s.sec.dbgScope.getLsbD 1 = true ∧ coreUp s c = true ∧ r < 8192
        | .dram _ => s.sec.dbgScope.getLsbD 2 = true ∧ write = false
        | .sram a => s.sec.dbgScope.getLsbD 2 = true ∧ write = false ∧ a < 2 ^ 26
      (∀ w, s.sec.dbgOpened = false → exec (.debugAccess target w) s = .next s) ∧
      (s.running = true → s.sec.dbgOpened = true →
        (∀ w, ¬inScope w.isSome → exec (.debugAccess target w) s = .next s) ∧
        (inScope false → Yields (.debugAccess target none) s fun t => t = { s with
            sec := { s.sec with dbgData := t.sec.dbgData }
            free := t.free } ∧
          (hidden → t.sec.dbgData = zeros 64) ∧
          (∀ c r, target = .coreRow c r → ¬hidden → t.sec.dbgData = s.mem.rdSpm c (64 * r) 64) ∧
          ∀ a, target = .sram a → ¬hidden → sramOff s (a / 64 * 64) = false → t.sec.dbgData = s.mem.rdSram (a / 64 * 64) 64) ∧
        ∀ bs, inScope true → (hidden → exec (.debugAccess target (some bs)) s = .next s) ∧
          ∀ c r, target = .coreRow c r → ¬hidden → Yields (.debugAccess target (some bs)) s fun t => t = { s with mem := { s.mem with spm := t.mem.spm } } ∧
            t.mem.rdSpm c (64 * r) 64 = padTo 64 bs ∧ ∀ (d a : Nat), d ≠ c ∨ a / 64 ≠ r → t.mem.rdSpm d a 1 = s.mem.rdSpm d a 1)

/-- The power controller (R455, R457, R459, R461 to R468, R476). -/
def Obligations.PowerControllerWorks : Prop :=
  ∀ s : State,
    let requested := fun (c : Nat) => if expert s 0 = true then min 12 (Tab.get Vf.init s.pwr.vfs c).maxStep.toNat else 12
    let aims := fun (ceiling : Nat) (t : State) => ∀ c, t.core c = if coreExists s c = true then { s.core c with target := min (requested c) ceiling } else s.core c
    (∀ rep : WindowReport, (rep.served.map (·.2)).sum ≤ rep.dynamic.sum + rep.leakage.sum → (∀ x ∈ rep.served, ∃ j ∈ s.lfl.jobs, j.1 = x.1) →
      let e := rep.dynamic.sum + rep.leakage.sum
      let cap := s.pwr.throttle ≠ 0 ∨ ∃ c, c < 64 ∧ coreUp s c = true ∧ s.pwr.ceiling.toNat < requested c
      Yields (.estimatorWindow rep) s fun t => t.pwr.temps = rep.temps ∧ t.pwr.vinMv = rep.vinMv ∧ t.pwr.iinMa = rep.iinMa ∧
        (t.pwr.hotBefore = true ↔ ∃ x ∈ s.pwr.temps, 110 ≤ x) ∧
        (s.running = false → t = { s with pwr := t.pwr } ∧ t.pwr.windows = s.pwr.windows) ∧
        (s.running = true → aims s.pwr.ceiling.toNat t ∧ t.pwr.ceiling = s.pwr.ceiling ∧ t.pwr.tickEnergy = s.pwr.tickEnergy + e ∧
          (t.pwr.capWindow = true ↔ s.pwr.capWindow = true ∨ cap) ∧ t.pwr.vfs = (if expert s 0 = true then s.pwr.vfs else []) ∧
          (∃ w, t.pwr.windows = (w :: s.pwr.windows).take 10 ∧ w.est = e * s.pwr.kNum / (s.pwr.kDen * 10000) ∧ w.amps = rep.iinMa.toNat) ∧
          ∀ n, t.job n = { s.job n with tick := if (s.job n).state = .suspended then (s.job n).tick
            else (s.job n).tick + ((rep.served.filter fun x => x.1 = n).map (·.2)).sum })) ∧
    (s.running = true → s.pwr.windows.length = 10 →
      let p := s.pwr
      let limit := min p.limit.toNat p.boardMax.toNat
      let amps := (p.windows.map (·.amps)).sum
      let lower := 10000 * limit < (p.windows.map (·.est)).sum ∨ 140000 < amps ∨ ∃ x ∈ p.temps, (p.tThrot.toNat : Int) ≤ x
      let raise := (p.windows.map (·.above)).sum + 20000 ≤ 10000 * limit ∧ amps ≤ 130000 ∧ ∀ x ∈ p.temps, x < (p.tThrot.toNat : Int) - 3
      Yields .capDecision s fun t => t = { s with
          cores := t.cores
          pwr := { p with
            ceiling := t.pwr.ceiling
            throttle := t.pwr.throttle
            unmet := t.pwr.unmet
            passes := t.pwr.passes
            windows := [] } } ∧ aims t.pwr.ceiling.toNat t ∧
        (lower → t.pwr.passes = 0 ∧
          (p.ceiling ≠ 0 → t.pwr.ceiling = p.ceiling - 1 ∧ t.pwr.throttle = p.throttle ∧ t.pwr.unmet = p.unmet) ∧
          (p.ceiling = 0 → p.throttle.toNat < 2 → t.pwr.ceiling = 0 ∧ t.pwr.throttle = p.throttle + 1 ∧ t.pwr.unmet = p.unmet) ∧
          (p.ceiling = 0 → 2 ≤ p.throttle.toNat → t.pwr.ceiling = 0 ∧ t.pwr.throttle = p.throttle ∧ t.pwr.unmet = true)) ∧
        (¬lower → t.pwr.unmet = false ∧ (raise → p.passes ≠ 9 → t.pwr.passes = p.passes + 1) ∧ (¬raise ∨ p.passes = 9 → t.pwr.passes = 0) ∧
          (¬raise ∨ p.passes ≠ 9 → t.pwr.ceiling = p.ceiling ∧ t.pwr.throttle = p.throttle) ∧
          (raise → p.passes = 9 → p.throttle ≠ 0 → t.pwr.ceiling = p.ceiling ∧ t.pwr.throttle = p.throttle - 1) ∧
          (raise → p.passes = 9 → p.throttle = 0 → t.pwr.throttle = 0 ∧ t.pwr.ceiling = if p.ceiling.toNat < 12 then p.ceiling + 1 else p.ceiling))) ∧
    (∀ core : CoreId, s.running = true → coreUp s core = true → Yields (.coreStepSettle core) s fun t => t = { s with cores := t.cores } ∧
      ∀ c : Nat, t.core c = if c = core.val then { s.core core with step := (s.core core).target } else s.core c) ∧
    (∀ measured : List Nat, s.running = true → let m := measured.sum
      let e := s.pwr.tickEnergy
      Yields (.powerTick measured) s fun t => t.pwr.capWindow = false ∧ t.pwr.tickEnergy = 0 ∧ t.pwr.ceiling = s.pwr.ceiling ∧
        t.pwr.stat.cap = s.pwr.capWindow ∧ t.pwr.stat.ceil = s.pwr.ceiling ∧ t.pwr.stat.thr = s.pwr.throttle ∧ t.pwr.stat.unmet = s.pwr.unmet ∧
        t.pwr.stat.pkg.toNat = min 65535 (m / 10 ^ 7) ∧ t.pwr.stat.vin = s.pwr.vinMv ∧ t.pwr.stat.iin = s.pwr.iinMa ∧
        (5 * m < 4 * e → t.pwr.kNum = 4 ∧ t.pwr.kDen = 5 ∧ t.pwr.stat.calf = true) ∧
        (5 * e < 4 * m → t.pwr.kNum = 5 ∧ t.pwr.kDen = 4 ∧ t.pwr.stat.calf = true) ∧
        (4 * e ≤ 5 * m → 4 * m ≤ 5 * e → e ≠ 0 → t.pwr.kNum = m ∧ t.pwr.kDen = e ∧ t.pwr.stat.calf = false) ∧
        t.pwr.energy.total = s.pwr.energy.total + (s.pwr.rest + m) / 10 ^ 6 ∧ t.pwr.rest = (s.pwr.rest + m) % 10 ^ 6 ∧
        (∀ f q : Nat, ∀ c ∈ (t.queue f q).waiting, c.jobs = []) ∧ t.mem = s.mem ∧ t.cores = s.cores) ∧
    Yields .vinFault s (PackageReset 5 (let u := { s with pwr := { s.pwr with vinSince := s.ns } }
      if startWindow s = true then failed 18 u else u)) ∧
    (s.pwr.hotBefore = true → (∃ x ∈ s.pwr.temps, 110 ≤ x) → Yields .thermalTrip s fun t => t.pins.thermtripN = false ∧ t.pwr.tripped = true ∧
      PackageReset 4 (let u := { s with pwr := { s.pwr with
          tripped := true
          thermtrip := true } }
        if startWindow s = true then failed 18 u else u) t) ∧
    (s.pwr.hotBefore = false ∨ (∀ x ∈ s.pwr.temps, x < 110) → exec .thermalTrip s = .next s)

/-- Power domains, pads, the management port and wake (R455, R469 to R475, R479). -/
def Obligations.DomainsAndManagementPort : Prop :=
  ∀ s : State,
    let isCore := fun (d : Nat) => d < 64
    let isSram := fun (d : Nat) => 0x50 ≤ d ∧ d < 0x60
    let isDram := fun (d : Nat) => 0x60 ≤ d ∧ d < 0x68
    let half := fun (d : Nat) => 0x40 + d / 32
    let names := fun (d : Nat) => coreExists s d = true ∨ d = 0x40 ∨ d = 0x41 ∨ isSram d ∨ isDram d ∨ d ∈ [0x70, 0x71, 0x72, 0x73, 0x74, 0x7F]
    let asks := fun (d : Nat) (x : DomState) (y : Dom) => if y.busy = true then { y with pend := some x } else { y with
      target := x
      busy := x ≠ y.state }
    let onlyDoms := fun (t : State) => t = { s with pwr := { s.pwr with doms := t.pwr.doms } }
    let wakes := fun (d : Nat) (i : Instr) => Yields i s fun t => onlyDoms t ∧ ∀ e, t.dom e = if e = d then asks d .on (s.dom d) else s.dom e
    (∀ (fn : Fn) (v : Word), fn ≠ 0 ∨ bar0Open s 0 = false → exec (.domainStateApply fn v) s = .next s ∧ exec (.padRelease fn v) s = .next s) ∧
    (∀ v : Word, bar0Open s 0 = true → let d := v.toNat % 256
      let refuses := fun (x : DomState) => ¬names d ∨ (x ≠ .on ∧ (d = 0x70 ∨ d = 0x7F)) ∨ (x = .off ∧ d = 0x74) ∨ (isCore d ∧ s.fences.cores.getLsbD d = true) ∨
        (x ≠ .on ∧ ((d = 0x40 ∨ d = 0x41) ∧ (∃ c, coreExists s c = true ∧ half c = d ∧ (s.dom c).state = .on) ∨
          (d = 0x71 ∧ ∃ c, c < 24 ∧ (s.ctx c).life ≠ .closed) ∨
          (d = 0x74 ∧ (s.trg.mode ≠ 0 ∨ s.pwr.smbMatched = true ∨ ∃ e, names e ∧ e ∉ [0x70, 0x74, 0x7F] ∧ (s.dom e).state = .on)))) ∨
        (x = .off ∧ isSram d ∧ 4096 * ((d - 0x50) / 4) < s.lfl.sysUnits.toNat) ∨ (x = .retain ∧ d = 0x73 ∧ s.pci.link.l1 = false)
      let selects := fun (err : Bool) (t : State) => t = { s with pwr := { s.pwr with
        domSel := BitVec.ofNat 8 d
        domErr := err
        doms := t.pwr.doms } }
      (v.getLsbD 8 = false → Yields (.domainStateApply 0 v) s fun t => selects s.pwr.domErr t ∧ t.pwr.doms = s.pwr.doms) ∧
      (v.getLsbD 8 = true → s.pwr.domTarget = 3 → Yields (.domainStateApply 0 v) s fun t => selects true t ∧ t.pwr.doms = s.pwr.doms) ∧
      ∀ x : DomState, v.getLsbD 8 = true → s.pwr.domTarget = (match x with
          | .on => 0
          | .retain => 1
          | .off => 2) →
        (refuses x → Yields (.domainStateApply 0 v) s fun t => selects true t ∧ t.pwr.doms = s.pwr.doms) ∧
        (¬refuses x → Yields (.domainStateApply 0 v) s fun t => selects false t ∧
          ∀ e, t.dom e = if e = d then asks d x { s.dom d with auto := s.pwr.domAuto } else s.dom e)) ∧
    (∀ b : Byte, let d := b.toNat
      let y := s.dom d
      let up := y.target = .on ∨ (y.target = .retain ∧ y.state = .off)
      let leaves := (isCore d → (s.core d).run = none ∧ (s.core d).assigned = none ∧ (y.target = .off → (s.core d).kept = none)) ∧
        (isDram d → ∀ r, s.ddr.retrain = some r → r.suspended = true ∨ r.chan / 4 ≠ d - 0x60) ∧ (d = 0x72 → flashActive s = false)
      s.boot.done = true → s.boot.fatal = false → y.busy = true → y.reset = false → (up → isCore d → (s.dom (half d)).state = .on) → (y.target ≠ .on → leaves) →
      Yields (.domainTransitionDone b) s fun t =>
        (∀ e, t.dom e = if e = d then { y with
          state := y.target
          target := y.pend.getD y.target
          pend := none
          busy := y.pend.any (fun z => z ≠ y.target)
          hold := y.hold || ((decide (isDram d) || decide (d = 0x72) || decide (d = 0x73)) && decide (y.state = .on) && decide (y.target ≠ .on))
          since := s.ns } else s.dom e) ∧
        (isCore d → y.target = .on → ∀ c : Nat, t.core c = if c = d then { s.core d with step := (s.core d).target } else s.core c) ∧
        (isCore d → y.target = .off → y.state ≠ .off → (∀ a, t.mem.rdSpm d a 1 = [0]) ∧ ∀ c : Nat, t.core c = if c = d then { Core.init with
          fault := (s.core d).fault
          step := (s.core d).step
          target := (s.core d).target } else s.core c) ∧
        (isSram d → y.target = .off ∨ y.state = .off → ∀ a, t.mem.rdSram a 1 = if 0x50 + (a / 64 % 4 + 4 * (a / 2 ^ 24)) = d then [0] else s.mem.rdSram a 1) ∧
        (isDram d → y.target = .off → y.state ≠ .off → ∀ a, (lineTag t a).poison = if groupDom s (64 * (a / 64)) = d then true else (lineTag s a).poison) ∧
        (d = 0x73 → y.target = .off → t.pci.link = { width := 0, l1 := false })) ∧
    (∀ b : Byte, s.running = true → names b.toNat → (s.dom b.toNat).auto = true → (s.dom b.toNat).state ≠ .on → (s.dom b.toNat).busy = false →
      (isCore b.toNat → (s.core b.toNat).assigned ≠ none) → (b.toNat = 0x40 ∨ b.toNat = 0x41 →
        ∃ c, coreExists s c = true ∧ half c = b.toNat ∧ (s.dom c).busy = true ∧ (s.dom c).target = .on) → isCore b.toNat ∨ b.toNat = 0x40 ∨ b.toNat = 0x41 ∨ isSram b.toNat →
      Yields (.autoWake b) s fun t => onlyDoms t ∧ ∀ e, t.dom e =
        if e = b.toNat ∨ (isCore b.toNat ∧ e = half b.toNat ∧ (s.dom e).auto = true ∧ (s.dom e).state ≠ .on ∧ (s.dom e).busy = false) then { s.dom e with
          target := .on
          busy := true } else s.dom e) ∧
    (∀ v : Word, bar0Open s 0 = true → Yields (.padRelease 0 v) s fun t => ∀ d, t.dom d =
      if ((isDram d ∧ v.getLsbD (d - 0x60) = true) ∨ (d = 0x72 ∧ v.getLsbD 8 = true) ∨ (d = 0x73 ∧ v.getLsbD 9 = true)) ∧ (s.dom d).state = .on
      then { s.dom d with hold := false } else s.dom d) ∧
    ((s.dom 0x74).state = .retain → s.pwr.wakeTimer ≠ 0 → (s.dom 0x74).since + s.pwr.wakeTimer.toNat * 10 ^ 6 ≤ s.ns → wakes 0x74 .wakeTimerExpiry) ∧
    (∀ a : BitVec 7, let up := s.boot.done = true ∨ s.boot.nursery = true ∨ (startReady s = true ∧ s.pins.perstN = true) -- no package reset holds
      (s.pwr.smbEn = false ∨ a ≠ s.pwr.smbAddr ∨ ¬up → exec (.smbusAddressMatch a) s = .next s) ∧
      (s.pwr.smbEn = true → a = s.pwr.smbAddr → up → Yields (.smbusAddressMatch a) s fun t => t = { s with pwr := { s.pwr with
          smbMatched := true
          doms := t.pwr.doms } } ∧
        ∀ e, t.dom e = if e = 0x74 ∧ (s.dom 0x74).state = .retain then asks 0x74 .on (s.dom 0x74) else s.dom e)) ∧
    (∀ (v : BitVec 16) (w r : Byte) (i : Instr), i ∈ [.smbStatus, .smbTemp, .smbPower, .smbLimitRead, .smbLimitWrite v, .smbNursery, .smbWake w, .smbReset r] →
      s.pwr.smbMatched = false ∨ (s.dom 0x74).state ≠ .on → exec i s = .next s) ∧
    (s.pwr.smbMatched = true → (s.dom 0x74).state = .on →
      let served := fun (i : Instr) (bs : Bytes) => exec i s = .next { s with pwr := { s.pwr with
        smbMatched := false
        smbReply := bs } }
      let bit := fun (b : Bool) (n : Nat) => if b = true then n else 0
      served .smbStatus [BitVec.ofNat 8 (bit s.boot.done 1 + bit s.boot.nursery 2 + bit s.pwr.stat.cap 4 + bit s.pwr.tripped 8 + bit s.pwr.stat.unmet 16)] ∧
      (∃ x : Byte, served .smbTemp [x] ∧ ((∀ y ∈ s.pwr.temps, y ≤ x.toNat ∨ 255 ≤ y ∧ x = 255) ∧ (s.pwr.temps ≠ [] → ∃ y ∈ s.pwr.temps, x.toNat ≤ y ∨ y < 0 ∧ x = 0))) ∧
      served .smbPower (toLE 2 (s.pwr.stat.pkg.toNat / 10)) ∧ served .smbLimitRead [s.pwr.limit, 0] ∧ served .smbNursery [s.boot.nrc] ∧
      (∀ v : BitVec 16, exec (.smbLimitWrite v) s = .next { s with pwr := { s.pwr with
        smbMatched := false
        limit := BitVec.ofNat 8 (max 40 (min 150 v.toNat)) } }) ∧
      (∀ w : Byte, Yields (.smbWake w) s fun t => t = { s with pwr := { s.pwr with
          smbMatched := false
          doms := t.pwr.doms } } ∧
        ∀ e, t.dom e = if (e = 0x74 ∧ w.getLsbD 0 = true) ∨ (e = 0x73 ∧ w.getLsbD 1 = true) then asks e .on (s.dom e) else s.dom e) ∧
      (∀ r : Byte, r ≠ 0xA5 → exec (.smbReset r) s = .next { s with pwr := { s.pwr with smbMatched := false } }) ∧
      Yields (.smbReset 0xA5) s (PackageReset 2 s))

/-- Package reset, the start sequence and firmware (R480 to R495, R503, R522). -/
def Obligations.StartAndFirmware : Prop :=
  ∀ s : State,
    let same := fun (i : Instr) => exec i s = .next s
    let startFails := fun (code : Nat) (u t : State) => -- a counted failure of the start that `u` has come to
      (u.boot.fail.count.toNat < 2 → PackageReset 6 (failed code u) t) ∧
      (2 ≤ u.boot.fail.count.toNat → t.boot.nursery = true ∧ t.boot.done = false ∧ t.boot.nrc = BitVec.ofNat 8 code ∧ t.boot.fail.count = 3 ∧
        t.boot.fail.lastNrc = BitVec.ofNat 8 code)
    let early := s.boot.done = true ∧ s.boot.fatal = true ∧ s.boot.fatalAt < s.boot.doneAt + 10 ^ 10
    (∀ causes : Byte,
      let arrives := fun (c : Nat) => causes.getLsbD c = true ∧ (c = 0 ∨ c = 1 ∨ (c = 2 ∧ s.pwr.smbMatched = true) ∨ (c = 3 ∧ bootOpen s 0 = true) ∨
        (c = 7 ∧ s.boot.fwOp = 2))
      let stands := fun (c : Nat) => s.boot.done = false ∧ s.boot.nursery = false ∧ ((c = 4 ∧ s.pwr.thermtrip = true) ∨
        (s.pwr.thermtrip = false ∧ c = s.boot.fail.cause.toNat ∧ (c = 0 ∨ c = 5) ∧ s.ns < s.pwr.vinSince + 10 ^ 7))
      let order := [0, 5, 4, 1, 2, 3, 7, 6]
      ((∀ c, ¬arrives c) → same (.packageReset causes)) ∧
      ((∃ c, arrives c) → ∀ (i c : Nat), order[i]? = some c → arrives c ∨ stands c → (∀ (j d : Nat), j < i → order[j]? = some d → ¬arrives d ∧ ¬stands d) →
        Yields (.packageReset causes) s fun t => (causes.getLsbD 1 = true → t.pins.perstN = false) ∧
          (stands c → t = { s with pins := { s.pins with perstN := s.pins.perstN && !causes.getLsbD 1 } }) ∧
          (¬stands c → c ≠ 0 → PackageReset c s t) ∧
          (¬stands c → c = 0 → t.boot.done = false ∧ t.boot.nursery = false ∧ t.boot.fail = { count := 0, lastNrc := 0, aCode := 0, bCode := 0, cause := 0 } ∧
            t.boot.tryB = false ∧ (∀ n, t.core n = Core.init) ∧ t.ddr.fail = 0 ∧ t.pwr.tripped = false ∧ t.pwr.smbAddr = 0x5C))) ∧
    (∀ v : Word, (v.toNat % 256 ≠ 0xA5 ∨ bootOpen s 0 = false → same (.bootResetRequest 0 v)) ∧
      (v.toNat % 256 = 0xA5 → bootOpen s 0 = true → Yields (.bootResetRequest 0 v) s (PackageReset 3 { s with boot := { s.boot with
        forceNursery := v.getLsbD 8 } }))) ∧
    (∀ rep : StartReport, (startReady s = false → same (.startSequence rep)) ∧ (startReady s = true →
      let enters := fun (code : Nat) (t : State) => t.boot.nursery = true ∧ t.boot.done = false ∧ t.boot.nrc = BitVec.ofNat 8 code
      let first := s.boot.tryB
      let check := fun (b : Bool) => slotCheck s b (if b = true then rep.sigB else rep.sigA)
      let codes := fun (a b : Nat) (t : State) => t.boot.tryB = false ∧ t.boot.fail = { s.boot.fail with
        aCode := BitVec.ofNat 8 a
        bCode := BitVec.ofNat 8 b }
      let fences := startFences s rep
      let ups := rep.railsFault = false ∧ rep.powerReady = true ∧ rep.securityReady = true
      let good := rep.fusesOk = true ∧ rep.factoryOk = true
      (rep.fusesOk = false → Yields (.startSequence rep) s (enters 10)) ∧
      (rep.fusesOk = true → rep.factoryOk = false → Yields (.startSequence rep) s (enters 9)) ∧
      (good → check first ≠ 0 → check (!first) ≠ 0 → Yields (.startSequence rep) s fun t => enters (max (check false) (check true)) t ∧
        codes (check false) (check true) t) ∧
      (∀ slot : Bool, good → check slot = 0 → slot = first ∨ check first ≠ 0 →
        let a := if slot = false ∨ slot = first then 0 else check false
        let b := if slot = true ∨ slot = first then 0 else check true
        let fails := fun (code : Nat) => Yields (.startSequence rep) s fun t => ∃ u, codes a b u ∧ u.pins = { s.pins with
            thermtripN := true
            perstN := true } ∧ u.core = s.core ∧ u.ddr = s.ddr ∧ u.timer = s.timer ∧ u.pending = s.pending ∧ u.boot.forceNursery = s.boot.forceNursery ∧
            startFails code u t
        (rep.railsFault = true → fails 17) ∧ (rep.railsFault = false → rep.powerReady = false → fails 21) ∧
        (rep.railsFault = false → rep.powerReady = true → rep.securityReady = false → fails 22) ∧
        (ups → rep.dramSupported = false → Yields (.startSequence rep) s (enters 11)) ∧
        (ups → rep.dramSupported = true → fences.pairs = 0xFFFF → fails 12) ∧
        (ups → rep.dramSupported = true → fences.pairs ≠ 0xFFFF → rep.sramOk = false → fails 13) ∧
        (ups → rep.dramSupported = true → fences.pairs ≠ 0xFFFF → rep.sramOk = true →
          let alive := ∃ c, coreExists s c = true ∧ fences.cores.getLsbD c = false
          (¬alive → fails 14) ∧ (alive → rep.memOk = false → fails 15) ∧ (alive → rep.memOk = true → fences.brX = 0xF → fails 16) ∧
          (alive → rep.memOk = true → fences.brX ≠ 0xF → rep.controlOk = false → fails 20) ∧
          (alive → rep.memOk = true → fences.brX ≠ 0xF → rep.controlOk = true → Yields (.startSequence rep) s fun t => codes a b t ∧
            t.boot.done = true ∧ t.boot.nursery = false ∧ t.boot.slotB = slot ∧ t.boot.svnRunning.toNat = manifestSvn (slotManifest s slot) ∧ t.boot.doneAt = s.ns ∧
            t.fences = fences ∧ fences.csi = rep.badCsi ∧ fences.pci = rep.badPci ∧ fences.brX = rep.badX ∧
            (∀ p, p < 16 → s.ddr.fail.getLsbD p = true ∨ rep.badPairs.getLsbD p = true → fences.pairs.getLsbD p = true) ∧
            (∀ c, c < 64 → (fences.cores.getLsbD c = true ↔ coreExists s c = true ∧ (rep.badCores.getLsbD c = true ∨ fences.half.getLsbD (c / 32) = true))) ∧
            (keySlot t 0).live = true ∧ (keySlot t 0).owner = 0 ∧ t.ddr.fail = 0 ∧ t.flt.state = 1 ∧ t.pins.ringBypOpen = true ∧ t.fuses = s.fuses ∧
            ∀ c, c < 64 → fences.cores.getLsbD c = true → (t.dom c).state = .off))))) ∧
    (startReady s = true → max s.boot.resetAt (s.pwr.vinSince + 10 ^ 7) + 900 * 10 ^ 6 ≤ s.ns → Yields .startTimeout s (startFails 19 s)) ∧
    (s.boot.done = true → s.boot.doneAt + 10 ^ 10 ≤ s.ns → (early → Yields .doneHoldExpiry s (startFails 20 s)) ∧
      (¬early → exec .doneHoldExpiry s = .next { s with boot := { s.boot with fail := { s.boot.fail with count := 0 } } })) ∧
    (s.running = true → let u := { s with
        boot := { s.boot with
          fatal := true
          fatalAt := s.ns }
        pci := { s.pci with aer := true } }
      (s.boot.doneAt + 10 ^ 10 ≤ s.ns → exec .watchdogExpiry s = .next u) ∧ (s.ns < s.boot.doneAt + 10 ^ 10 → Yields .watchdogExpiry s (startFails 20 u))) ∧
    (bootOpen s 0 = true →
      let results := fun (code : Nat) (t : State) => t = { s with boot := { s.boot with fwResult := BitVec.ofNat 8 code } }
      let onlyBoot := fun (t : State) => t = { s with boot := t.boot }
      (∀ v rep, v.toNat % 8 = 1 → (s.boot.fwOp ≠ 0 → Yields (.stage 0 v rep) s (results 0xF0)) ∧ (s.boot.fwOp = 0 →
        (rep.image = none → Yields (.stage 0 v rep) s (results 0xF1)) ∧
        ∀ img, rep.image = some img → let c := firstChecks s (img.take 512) rep.sigOk
          (c ≠ 0 → Yields (.stage 0 v rep) s (results c)) ∧ (c = 0 → Yields (.stage 0 v rep) s fun t => t = { s with boot := { s.boot with
            fwOp := 1
            fwImage := img.take 0x780000
            fwSecond := false
            staged := false } }))) ∧
      (∀ v, v.toNat % 8 = 2 → (s.boot.fwOp ≠ 0 ∨ s.boot.nursery = true ∨ s.boot.staged = false → Yields (.activateNow 0 v) s (results 0xF0)) ∧
        (s.boot.fwOp = 0 → s.boot.nursery = false → s.boot.staged = true → Yields (.activateNow 0 v) s fun t => t.boot = { s.boot with
            fwOp := 2
            fwResult := 0
            tryB := s.boot.tryB || s.boot.stagedB
            fatal := t.boot.fatal
            fatalAt := t.boot.fatalAt } ∧ (∀ f, (t.responder f).sessions = []) ∧
          ∀ o, (t.tsec o).tdi = if 1 ≤ o ∧ o ≤ 15 ∧ tdiLocked s o = true then .error else (s.tsec o).tdi)) ∧
      (∀ v, v.toNat % 8 = 3 → (s.boot.fwOp ≠ 0 ∨ s.boot.nursery = true ∨ s.boot.staged = false → Yields (.activateAtReset 0 v) s (results 0xF0)) ∧
        (s.boot.fwOp = 0 → s.boot.nursery = false → s.boot.staged = true → Yields (.activateAtReset 0 v) s fun t => onlyBoot t ∧ t.boot = { s.boot with
          fwResult := 0
          tryB := s.boot.tryB || s.boot.stagedB })) ∧
      (∀ v sigA sigB, v.toNat % 8 = 4 →
        let holds := fun (b sig : Bool) => slotCheck s b sig = 0 ∧ s.boot.svnRunning.toNat ≤ manifestSvn (slotManifest s b)
        (s.boot.fwOp ≠ 0 ∨ s.boot.nursery = true → Yields (.commitSvn 0 v sigA sigB) s (results 0xF0)) ∧
        (s.boot.fwOp = 0 → s.boot.nursery = false → ¬(holds false sigA ∧ holds true sigB) → Yields (.commitSvn 0 v sigA sigB) s (results 0xF3)) ∧
        (s.boot.fwOp = 0 → s.boot.nursery = false → holds false sigA → holds true sigB → Yields (.commitSvn 0 v sigA sigB) s fun t => t = { s with
          boot := { s.boot with fwResult := 0 }
          fuses := { s.fuses with svnMin := BitVec.ofNat 7 (max s.fuses.svnMin.toNat (min 64 s.boot.svnRunning.toNat)) } }))) ∧
    (s.running = true ∨ (s.boot.nursery = true ∧ s.boot.fatal = false) → s.boot.fwOp = 1 →
      let b := if s.boot.nursery = true then s.boot.fwSecond else !s.boot.slotB
      let base := if b = true then 0x800000 else 0
      let img := s.boot.fwImage
      let mine := fun (a : Nat) => base ≤ a ∧ a < base + 0x780000
      let holds := fun (bs : Bytes) (t : State) => ∀ a, t.mem.rdEfl a 1 = if base ≤ a ∧ a < base + bs.length then [bs.getD (a - base) 0]
        else if mine a then [0xFF] else s.mem.rdEfl a 1
      let u := { s with mem := (s.mem.clrEfl base 0x780000).wrEfl base img }
      let ends := fun (t : State) => t.boot.fwOp = 0 ∧ t.boot.fwImage = [] ∧ t.boot.fwSecond = false
      let passes := hashesHold u b (slotManifest u b) = true
      (Yields (.firmwareOpComplete false) s fun t => holds [] t ∧ ends t ∧ t.boot.fwResult = 0xF2 ∧ t.boot.staged = s.boot.staged) ∧
      (¬passes → Yields (.firmwareOpComplete true) s fun t => holds [] t ∧ ends t ∧ t.boot.fwResult = 8) ∧
      (passes → s.boot.nursery = false → Yields (.firmwareOpComplete true) s fun t => holds img t ∧ ends t ∧ t.boot.fwResult = 0 ∧ t.boot.staged = true ∧
        t.boot.stagedB = b) ∧
      (passes → s.boot.nursery = true → Yields (.firmwareOpComplete true) s fun t => holds img t ∧
        (s.boot.fwSecond = false → t.boot = { s.boot with fwSecond := true }) ∧
        (s.boot.fwSecond = true → ends t ∧ t.boot.fwResult = 0 ∧ t.boot.fail.count = 0))) ∧
    (s.running = true → ∀ sigA : Bool,
      let due := s.boot.slotB = true ∧ s.boot.fwOp = 0 ∧ s.boot.doneAt + 10 ^ 10 ≤ s.ns ∧
        (s.mem.rdEfl 0 0x780000 ≠ s.mem.rdEfl 0x800000 0x780000 ∨ slotCheck s false sigA ≠ 0)
      (due → exec (.firmwareCopy sigA) s = .next { s with boot := { s.boot with fwOp := 5 } }) ∧ (¬due → same (.firmwareCopy sigA)))

/-- Resets of single domains, calibration, the register map and the debug port's instructions (R497 to R502, R505, R506,
R508, R510, R524). -/
def Obligations.DomainResetsAndRegisters : Prop :=
  ∀ s : State,
    let same := fun (i : Instr) => exec i s = .next s
    (∀ (fn : Fn) (v : Word), let i := .domainReset fn v
      let d := v.toNat % 256
      let u := { s with boot := { s.boot with domSel := BitVec.ofNat 8 d } }
      let refused := s.boot.held ≠ none ∨ s.boot.nursery = true ∨ isDomain s d = false ∨ d ∈ [0x73, 0x74, 0x7F] ∨ (d < 64 ∧ s.fences.cores.getLsbD d = true) ∨
        (0x50 ≤ d ∧ d < 0x60 ∧ 4096 * ((d - 0x50) / 4) < s.lfl.sysUnits.toNat)
      (fn ≠ 0 ∨ bootOpen s 0 = false → same i) ∧
      (fn = 0 → bootOpen s 0 = true →
        (v.getLsbD 8 = false → exec i s = .next u) ∧
        (v.getLsbD 8 = true → refused → exec i s = .next { u with boot := { u.boot with domErr := true } }) ∧
        (v.getLsbD 8 = true → ¬refused → Yields i s fun t =>
          (∃ h, t.boot.held = some h ∧ h.dom.toNat = d ∧ h.reclaim ≠ none) ∧ t.boot.domErr = false ∧
          (t.dom d).reset = true ∧ (t.dom d).target = .on ∧
          (d < 64 → t.core d = { Core.init with
            fault := (t.core d).fault
            step := (t.core d).step
            target := (t.core d).target }) ∧
          (0x50 ≤ d → d < 0x60 → ∀ a, a / 64 % 4 + 4 * (a / 2 ^ 24) = d - 0x50 → t.mem.rdSram a 1 = [0]) ∧
          (d = 0x70 → t.lfl.blocks = [] ∧ t.lfl.kvPool = Pool.whole s.lfl.kvPages.toNat ∧ t.gdl.slots = [] ∧ t.gdl.expanders = [] ∧ t.ddr.grants = []) ∧
          (d = 0x71 → (∀ c, c < 24 → (t.ctx c).life = .closed) ∧ t.sfe.pool = Pool.whole 512 ∧ t.sfe.frames = []) ∧
          (d = 0x72 → t.flt.state = 1 ∧ t.flt.table = [] ∧ t.flt.units = [])))) ∧
    (s.running = true → ∀ rep : HeldReport,
      ((∀ h, s.boot.held = some h → h.reclaim ≠ none) → same (.heldPhaseEnd rep)) ∧
      ∀ h, s.boot.held = some h → h.reclaim = none → let d := h.dom.toNat
        Yields (.heldPhaseEnd rep) s fun t => t.boot.held = none ∧
          (rep.ok = true → d < 0x40 ∨ (0x50 ≤ d ∧ d < 0x60) ∨ (0x70 ≤ d ∧ d ≤ 0x72) → (t.dom d).reset = false ∧ (t.dom d).state = .on ∧ (t.dom d).target = .on) ∧
          (rep.ok = false → d < 0x40 → t.fences.cores.getLsbD d = true ∧ (t.dom d).state = .off ∧
            padTo 31 [0x06, 0, 1, BitVec.ofNat 8 d] ∈ (t.func 0).evq.posted) ∧
          (rep.ok = false → d = 0x70 ∨ (0x50 ≤ d ∧ d < 0x60) → t.boot.fatal = true) ∧
          (d = 0x71 → t.fences.csi = s.fences.csi ||| rep.badPorts)) ∧
    (∀ fn v, fn = 0 → pf0Open s 0 = true →
      let keeps := fun (t : State) => t = { s with boot := { s.boot with cal := t.boot.cal } }
      (v.toNat % 4 = 1 → s.boot.fwOp ≠ 0 ∨ s.boot.calBusy = true → exec (.calCommit fn v) s = .next { s with boot := { s.boot with calErr := true } }) ∧
      (v.toNat % 4 = 1 → s.boot.fwOp = 0 → s.boot.calBusy = false → exec (.calCommit fn v) s = .next { s with boot := { s.boot with
        calBusy := true
        calErr := false } }) ∧
      (v.toNat % 4 = 2 → Yields (.calDiscard fn v) s fun t => keeps t ∧ ∀ id, (t.calField id).pending = (t.calField id).committed)) ∧
    (s.boot.calBusy = true → s.boot.fatal = false →
      ∀ copy next : Nat, (match (overlayCopy s 0).map (·.seq), (overlayCopy s 1).map (·.seq) with
        | none, none => copy = 0 ∧ next = 1
        | none, some b => copy = 0 ∧ next = b + 1
        | some a, none => copy = 1 ∧ next = a + 1
        | some a, some b => if a < b then copy = 0 ∧ next = b + 1 else copy = 1 ∧ next = a + 1) →
      let bs := overlayBytes next s.boot.cal
      (Yields (.calCommitDone true) s fun t => t.mem.rdEfl (overlayAt copy) bs.length = bs ∧ t.boot.calBusy = false ∧ t.boot.calErr = false ∧
        t.boot.calDefault = false ∧ (∀ id, (s.calField id).pending ≠ 0 → (t.calField id).pending = (s.calField id).pending ∧
          (t.calField id).committed = BitVec.ofInt 16 (clampUser id (s.calField id).pending.toInt))) ∧
      (Yields (.calCommitDone false) s fun t => t.boot = { s.boot with
          calBusy := false
          calErr := true } ∧ overlayCopy t copy = none ∧ overlayCopy t (1 - copy) = overlayCopy s (1 - copy))) ∧
    (∀ (fn : Fn) (off : BitVec 25), let i := .lowHalfRead fn off
      let base := off.toNat - off.toNat % 8
      let v := barRead s fn base
      let reads := fun (latch : Option (Nat × Word)) (x : Nat) => Yields i s fun t => OnlyFunc fn s t ∧ t.func fn = { s.func fn with
        latch := latch
        readData := BitVec.ofNat 32 x }
      (readOpen s = false → same i) ∧
      (readOpen s = true →
        (registerWidth base = some 64 → off.toNat % 8 = 0 → reads (some (base, BitVec.ofNat 32 (v / 2 ^ 32))) v) ∧
        (∀ w, registerWidth base = some 64 → off.toNat % 8 = 4 → (s.func fn).latch = some (base, w) → reads none w.toNat) ∧
        (registerWidth base = some 64 → off.toNat % 8 = 4 → (∀ w, (s.func fn).latch ≠ some (base, w)) → reads none (v / 2 ^ 32)) ∧
        (registerWidth base = some 32 → off.toNat % 8 = 0 → reads none v) ∧
        (registerWidth base = none ∨ (off.toNat % 8 ≠ 0 ∧ off.toNat % 8 ≠ 4) → reads (s.func fn).latch 0))) ∧
    (∀ (fn : Fn) (off : BitVec 25) (size : Byte) (v : DWord), let i := .registerWrite fn off size v
      let f := fn.val
      let o := off.toNat
      let window := o / 0x1000
      let open' := if o < 0x80 then bootOpen s f else bar0Open s f
      let whole := size = 4 ∨ size = 8
      (open' = false → same i) ∧
      (registerWidth (o - o % 8) = none ∨ ¬whole → same i) ∧
      (f ≠ 0 → window < 0x100 → window ∉ [4, 5, 10] → same i) ∧
      (open' = true → f = 0 → whole →
        (o = 0x40 → size = 8 → exec i s = .next { s with boot := { s.boot with fwSrc := v } }) ∧
        (o = 0x40 → size = 4 → exec i s = .next { s with boot := { s.boot with
          fwSrc := BitVec.ofNat 64 (s.boot.fwSrc.toNat / 2 ^ 32 * 2 ^ 32 + v.toNat % 2 ^ 32) } }) ∧
        (o = 0x44 → size = 4 → exec i s = .next { s with boot := { s.boot with
          fwSrc := BitVec.ofNat 64 (v.toNat % 2 ^ 32 * 2 ^ 32 + s.boot.fwSrc.toNat % 2 ^ 32) } }) ∧
        (o = 0x80 → exec i s = .next { s with boot := { s.boot with calSel := BitVec.ofNat 16 v.toNat } }) ∧
        (o = 0x90 → Yields i s fun t => t = { s with boot := { s.boot with cal := t.boot.cal } } ∧ ∀ id, t.calField id =
          if id = s.boot.calSel.toNat ∧ calBounds id ≠ none then { s.calField id with pending := BitVec.ofNat 16 v.toNat } else s.calField id) ∧
        (o = 0x4000 → exec i s = .next { s with pci := { s.pci with fnSel := BitVec.ofNat 4 v.toNat } }) ∧
        (o = 0x9080 → exec i s = .next { s with efl := { s.efl with
          fail := s.efl.fail && !v.getLsbD 2
          reprog := s.efl.reprog && !v.getLsbD 3
          lock := s.efl.lock && !v.getLsbD 4
          busyErr := s.efl.busyErr && !v.getLsbD 5 } })) ∧
      (open' = true → whole → o = 0x4018 → size = 8 → Yields i s fun t => let g := if f = 0 then s.pci.fnSel.toNat else f
        OnlyFunc g s t ∧ t.func g = { s.func g with sqBase := v })) ∧
    (Yields .idcode s fun t => t = { s with pins := { s.pins with jtag := t.pins.jtag } } ∧ t.pins.jtag.getLsbD 0 = true) ∧
    exec .bypass s = .next { s with pins := { s.pins with jtag := 0 } } ∧
    let opened := s.pins.perstN = false ∧ s.boot.done = false ∧ s.boot.nursery = false ∧ s.sec.dbgOpened = true
    (¬opened → exec .boundaryScan s = .next { s with pins := { s.pins with jtag := 0 } }) ∧
    (opened → Yields .boundaryScan s fun t => t = { s with
      pins := { s.pins with jtag := t.pins.jtag }
      free := s.free + 1 })

/-- R492: at every package reset but power-on, which clears the bit (R481), a set FORCE_NURSERY leads to nursery mode with NRC-24
and is cleared. -/
def Obligations.ForcedNursery : Prop :=
  ∀ s : State,
    let forces := fun (i : Instr) => Yields i s fun t => t.boot.nursery = true ∧ t.boot.nrc = 24 ∧ t.boot.forceNursery = false
    (∀ v : Word, v.toNat % 256 = 0xA5 → v.getLsbD 8 = true → bootOpen s 0 = true → forces (.bootResetRequest 0 v)) ∧
    (s.boot.forceNursery = true →
      (∀ causes : Byte, s.boot.done = true ∨ s.boot.nursery = true → causes.getLsbD 0 = false →
        causes.getLsbD 1 = true ∨ (causes.getLsbD 2 = true ∧ s.pwr.smbMatched = true) ∨ (causes.getLsbD 3 = true ∧ bootOpen s 0 = true) ∨
          (causes.getLsbD 7 = true ∧ s.boot.fwOp = 2) → forces (.packageReset causes)) ∧
      (s.pwr.smbMatched = true → (s.dom 0x74).state = .on → forces (.smbReset 0xA5)) ∧
      forces .vinFault ∧
      (s.pwr.hotBefore = true → (∃ x ∈ s.pwr.temps, 110 ≤ x) → forces .thermalTrip) ∧
      (s.boot.fail.count.toNat < 2 →
        (∀ rep : StartReport, startReady s = true → rep.fusesOk = true → rep.factoryOk = true → slotCheck s false rep.sigA = 0 ∨ slotCheck s true rep.sigB = 0 →
          rep.railsFault = true → forces (.startSequence rep)) ∧
        (startReady s = true → max s.boot.resetAt (s.pwr.vinSince + 10 ^ 7) + 900 * 10 ^ 6 ≤ s.ns → forces .startTimeout) ∧
        (s.boot.done = true → s.boot.fatal = true → s.boot.fatalAt < s.boot.doneAt + 10 ^ 10 → s.boot.doneAt + 10 ^ 10 ≤ s.ns → forces .doneHoldExpiry) ∧
        (s.running = true → s.ns < s.boot.doneAt + 10 ^ 10 → forces .watchdogExpiry)))
end

