-- ==== Sys2Proof/Laws/Tables.lean ====
section
/-! SUPPORT. Laws of the tables and of the byte memories: a read after a write, what a write leaves alone, and the
canonical form that every operation keeps. -/

namespace Sys2Proof.Machine

open Sys2Proof

section
variable {α : Type}

theorem Tab.get_insert_same (d : α) (t : Tab α) (k : Nat) (v : α) (h : ∀ e ∈ t, e.1 ≠ k) :
    Tab.get d (Tab.insert t k v) k = v := by
  induction t with
  | nil => simp [Tab.insert, Tab.get]
  | cons e t ih =>
    have hn : k ≠ e.1 := fun x => h e (by simp) x.symm
    unfold Tab.insert
    split
    · simp [Tab.get]
    · simp [Tab.get, hn, ih fun x hx => h x (by simp [hx])]

theorem Tab.get_insert_ne (d : α) (t : Tab α) (k j : Nat) (v : α) (h : j ≠ k) :
    Tab.get d (Tab.insert t k v) j = Tab.get d t j := by
  induction t with
  | nil => simp [Tab.insert, Tab.get, h]
  | cons e t ih =>
    unfold Tab.insert
    split
    · simp [Tab.get, h]
    · simp [Tab.get, ih]

theorem Tab.get_filter (d : α) (t : Tab α) (p : Nat → Bool) (j : Nat) :
    Tab.get d (t.filter fun e => p e.1) j = if p j then Tab.get d t j else d := by
  induction t with
  | nil => simp [Tab.get]
  | cons e t ih =>
    simp only [List.filter_cons]
    by_cases hp : p e.1
    · simp only [hp, if_true, Tab.get, ih]
      by_cases hj : j = e.1
      · subst hj; simp [hp]
      · simp [hj]
    · simp only [hp, Bool.false_eq_true, if_false, ih, Tab.get]
      by_cases hj : j = e.1
      · subst hj; simp [hp]
      · simp [hj]

variable [DecidableEq α]

/-- A read of the key written gives the value written. -/
@[simp] theorem Tab.get_set_same (d : α) (t : Tab α) (k : Nat) (v : α) : Tab.get d (Tab.set d t k v) k = v := by
  unfold Tab.set
  by_cases h : v = d
  · have := Tab.get_filter d t (fun x => decide (x ≠ k)) k
    simp only [h, if_true]
    simpa using this
  · simp only [h, if_false]
    apply Tab.get_insert_same
    intro e he
    simpa using (List.mem_filter.mp he).2

/-- A write leaves every other key alone. -/
theorem Tab.get_set_ne (d : α) (t : Tab α) (k j : Nat) (v : α) (h : j ≠ k) :
    Tab.get d (Tab.set d t k v) j = Tab.get d t j := by
  have hf := Tab.get_filter d t (fun x => decide (x ≠ k)) j
  unfold Tab.set
  by_cases hv : v = d
  · simp only [hv, if_true]
    simpa [h] using hf
  · simp only [hv, if_false]
    rw [Tab.get_insert_ne _ _ _ _ _ h]
    simpa [h] using hf

theorem Tab.get_set (d : α) (t : Tab α) (k j : Nat) (v : α) :
    Tab.get d (Tab.set d t k v) j = if j = k then v else Tab.get d t j := by
  by_cases h : j = k
  · subst h; simp
  · simp [h, Tab.get_set_ne]

@[simp] theorem Tab.get_upd_same (d : α) (t : Tab α) (k : Nat) (f : α → α) :
    Tab.get d (Tab.upd d t k f) k = f (Tab.get d t k) := Tab.get_set_same ..

theorem Tab.get_upd_ne (d : α) (t : Tab α) (k j : Nat) (f : α → α) (h : j ≠ k) :
    Tab.get d (Tab.upd d t k f) j = Tab.get d t j := Tab.get_set_ne _ _ _ _ _ h

theorem Tab.get_upd (d : α) (t : Tab α) (k j : Nat) (f : α → α) :
    Tab.get d (Tab.upd d t k f) j = if j = k then f (Tab.get d t k) else Tab.get d t j := Tab.get_set ..

omit [DecidableEq α] in
theorem Tab.get_drop (d : α) (t : Tab α) (p : Nat → Bool) (j : Nat) :
    Tab.get d (Tab.drop p t) j = if p j then d else Tab.get d t j := by
  have := Tab.get_filter d t (fun x => !p x) j
  unfold Tab.drop
  rw [this]
  cases p j <;> simp

/-! ## The canonical form -/

theorem Tab.wfFrom_mono (d : α) : ∀ (t : Tab α) (a b : Nat), a ≤ b → Tab.wfFrom d b t = true → Tab.wfFrom d a t = true
  | [], _, _, _, _ => rfl
  | (n, v) :: t, a, b, h, hw => by
    simp only [Tab.wfFrom, Bool.and_eq_true, decide_eq_true_eq] at hw ⊢
    exact ⟨⟨Nat.le_trans h hw.1.1, hw.1.2⟩, hw.2⟩

theorem Tab.wfFrom_filter (d : α) (p : Nat × α → Bool) :
    ∀ (t : Tab α) (a : Nat), Tab.wfFrom d a t = true → Tab.wfFrom d a (t.filter p) = true
  | [], _, _ => rfl
  | (n, v) :: t, a, hw => by
    simp only [Tab.wfFrom, Bool.and_eq_true, decide_eq_true_eq] at hw
    simp only [List.filter_cons]
    split
    · simp only [Tab.wfFrom, Bool.and_eq_true, decide_eq_true_eq]
      exact ⟨hw.1, Tab.wfFrom_filter d p t _ hw.2⟩
    · exact Tab.wfFrom_mono d _ a (n + 1) (by omega) (Tab.wfFrom_filter d p t _ hw.2)

theorem Tab.wfFrom_insert (d : α) (k : Nat) (v : α) (hv : v ≠ d) :
    ∀ (t : Tab α) (a : Nat), a ≤ k → (∀ e ∈ t, e.1 ≠ k) → Tab.wfFrom d a t = true →
      Tab.wfFrom d a (Tab.insert t k v) = true
  | [], a, ha, _, _ => by simp [Tab.insert, Tab.wfFrom, ha, hv]
  | (n, w) :: t, a, ha, hk, hw => by
    simp only [Tab.wfFrom, Bool.and_eq_true, decide_eq_true_eq] at hw
    have hn : n ≠ k := hk (n, w) (by simp)
    unfold Tab.insert
    split
    · next h =>
      simp only [Tab.wfFrom, Bool.and_eq_true, decide_eq_true_eq]
      exact ⟨⟨ha, hv⟩, ⟨by omega, hw.1.2⟩, hw.2⟩
    · next h =>
      simp only [Tab.wfFrom, Bool.and_eq_true, decide_eq_true_eq]
      exact ⟨hw.1, Tab.wfFrom_insert d k v hv t (n + 1) (by omega) (fun e he => hk e (by simp [he])) hw.2⟩

theorem Tab.wf_set (d : α) (t : Tab α) (k : Nat) (v : α) (h : Tab.wf d t = true) : Tab.wf d (Tab.set d t k v) = true := by
  have hf := Tab.wfFrom_filter d (fun e => decide (e.1 ≠ k)) t 0 h
  unfold Tab.set Tab.wf
  by_cases hv : v = d
  · simp only [hv, if_true]; exact hf
  · simp only [hv, if_false]
    refine Tab.wfFrom_insert d k v hv _ 0 (Nat.zero_le k) ?_ hf
    intro e he
    simpa using (List.mem_filter.mp he).2

theorem Tab.wf_upd (d : α) (t : Tab α) (k : Nat) (f : α → α) (h : Tab.wf d t = true) : Tab.wf d (Tab.upd d t k f) = true :=
  Tab.wf_set d t k _ h

theorem Tab.wf_drop (d : α) (t : Tab α) (p : Nat → Bool) (h : Tab.wf d t = true) : Tab.wf d (Tab.drop p t) = true :=
  Tab.wfFrom_filter d _ t 0 h

omit [DecidableEq α] in
theorem Tab.mem_insert (t : Tab α) (k : Nat) (v : α) (e : Nat × α) (h : e ∈ Tab.insert t k v) : e = (k, v) ∨ e ∈ t := by
  induction t with
  | nil => simpa [Tab.insert] using h
  | cons x t ih =>
    unfold Tab.insert at h
    split at h
    · simpa using h
    · rcases List.mem_cons.mp h with h | h
      · simp [h]
      · rcases ih h with h | h
        · simp [h]
        · simp [h]

/-- What an entry of the table after a write is: the one written or one that was there. -/
theorem Tab.mem_set (d : α) (t : Tab α) (k : Nat) (v : α) (e : Nat × α) (h : e ∈ Tab.set d t k v) : e = (k, v) ∨ e ∈ t := by
  unfold Tab.set at h
  by_cases hv : v = d
  · simp only [hv, if_true] at h
    exact .inr (List.mem_filter.mp h).1
  · simp only [hv, if_false] at h
    rcases Tab.mem_insert _ _ _ _ h with h | h
    · exact .inl h
    · exact .inr (List.mem_filter.mp h).1

omit [DecidableEq α] in
theorem Tab.get_mem (d : α) (t : Tab α) (k : Nat) : Tab.get d t k = d ∨ ∃ e ∈ t, e.2 = Tab.get d t k := by
  induction t with
  | nil => exact .inl rfl
  | cons e t ih =>
    unfold Tab.get
    split
    · exact .inr ⟨e, by simp, rfl⟩
    · rcases ih with h | ⟨x, hx, h⟩
      · exact .inl h
      · exact .inr ⟨x, by simp [hx], h⟩

omit [DecidableEq α] in
/-- A property of the default and of every entry is one of whatever a key reads as. -/
theorem Tab.all_get (d : α) (t : Tab α) (k : Nat) (p : α → Prop) (hd : p d) (h : ∀ e ∈ t, p e.2) : p (Tab.get d t k) := by
  rcases Tab.get_mem d t k with e | ⟨x, hx, e⟩
  · rw [e]; exact hd
  · rw [← e]; exact h x hx

end

/-! ## Byte memories -/

/-- A byte outside the span written reads as before. -/
theorem Mem.rd_wrN_out (d : Byte) : ∀ (bs : Bytes) (m : Mem) (a j : Nat), (j < a ∨ a + bs.length ≤ j) →
    Mem.rd d (Mem.wrN d m a bs) j = Mem.rd d m j
  | [], _, _, _, _ => rfl
  | b :: bs, m, a, j, h => by
    simp only [List.length_cons] at h
    unfold Mem.wrN
    rw [Mem.rd_wrN_out d bs _ (a + 1) j (by omega)]
    exact Tab.get_set_ne _ _ _ _ _ (by omega)

/-- A byte of the span written reads as the byte written. -/
theorem Mem.rd_wrN_in (d : Byte) : ∀ (bs : Bytes) (m : Mem) (a i : Nat) (h : i < bs.length),
    Mem.rd d (Mem.wrN d m a bs) (a + i) = bs[i]
  | [], _, _, _, h => absurd h (by simp)
  | b :: bs, m, a, i, h => by
    unfold Mem.wrN
    cases i with
    | zero =>
      simp only [Nat.add_zero, Mem.rd_wrN_out d bs _ (a + 1) a (.inl (Nat.lt_succ_self a))]
      exact Tab.get_set_same ..
    | succ i =>
      have := Mem.rd_wrN_in d bs (Tab.set d m a b) (a + 1) i (by simpa using h)
      rw [show a + (i + 1) = a + 1 + i by omega, this]
      simp

/-- Reading back a span that was just written gives the bytes written. -/
theorem Mem.rdN_wrN (d : Byte) (m : Mem) (a : Nat) (bs : Bytes) : Mem.rdN d (Mem.wrN d m a bs) a bs.length = bs := by
  apply List.ext_getElem
  · simp [Mem.rdN]
  · intro i h1 h2
    simp [Mem.rdN, Mem.rd_wrN_in d bs m a i h2]

/-- A cleared byte reads as an unlisted address does, every other byte as before. -/
theorem Mem.rd_clear (d : Byte) (m : Mem) (a n j : Nat) :
    Mem.rd d (Mem.clear m a n) j = if a ≤ j ∧ j < a + n then d else Mem.rd d m j := by
  unfold Mem.clear Mem.rd
  rw [Tab.get_drop]
  by_cases h : a ≤ j ∧ j < a + n <;> simp [h]

theorem Mem.wf_wrN (d : Byte) : ∀ (bs : Bytes) (m : Mem) (a : Nat), Tab.wf d m = true → Tab.wf d (Mem.wrN d m a bs) = true
  | [], _, _, h => h
  | _ :: bs, _, a, h => Mem.wf_wrN d bs _ (a + 1) (Tab.wf_set _ _ _ _ h)

theorem Mem.wf_clear (d : Byte) (m : Mem) (a n : Nat) (h : Tab.wf d m = true) : Tab.wf d (Mem.clear m a n) = true :=
  Tab.wf_drop _ _ _ h

/-- A banked memory keeps its form when an operation on one bank keeps the bank's. -/
theorem Tab.wf_banks (t : Tab Mem) (k : Nat) (f : Mem → Mem) (hf : ∀ m, Tab.wf (0 : Byte) m = true → Tab.wf (0 : Byte) (f m) = true)
    (h : (Tab.wf ([] : Mem) t && t.all fun e => Tab.wf (0 : Byte) e.2) = true) :
    (Tab.wf ([] : Mem) (Tab.upd [] t k f) && (Tab.upd [] t k f).all fun e => Tab.wf (0 : Byte) e.2) = true := by
  simp only [Bool.and_eq_true, List.all_eq_true] at h ⊢
  refine ⟨Tab.wf_upd _ _ _ _ h.1, fun e he => ?_⟩
  rcases Tab.mem_set _ _ _ _ _ he with rfl | he
  · exact hf _ (Tab.all_get ([] : Mem) t k (fun m => Tab.wf (0 : Byte) m = true) rfl h.2)
  · exact h.2 e he

section
variable {m : Mems}

theorem Memory.wf_iff : Memory.wf m = true ↔ Tab.wf (0 : Byte) m.sram = true ∧ Tab.wf (0 : Byte) m.dram = true ∧
    Tab.wf (0xFF : Byte) m.efl = true ∧ Tab.wf (0xFF : Byte) m.nand = true ∧
    (Tab.wf ([] : Mem) m.spm && m.spm.all fun e => Tab.wf (0 : Byte) e.2) = true ∧
    (Tab.wf ([] : Mem) m.prog && m.prog.all fun e => Tab.wf (0 : Byte) e.2) = true ∧
    (Tab.wf ([] : Mem) m.host && m.host.all fun e => Tab.wf (0 : Byte) e.2) = true := by
  simp only [Memory.wf, Bool.and_eq_true, and_assoc]

@[simp] theorem Memory.wf_wrSram (a : Nat) (bs : Bytes) (h : Memory.wf m = true) : Memory.wf (m.wrSram a bs) = true := by
  rw [Memory.wf_iff] at h ⊢
  exact ⟨Mem.wf_wrN _ _ _ _ h.1, h.2⟩

@[simp] theorem Memory.wf_wrDram (a : Nat) (bs : Bytes) (h : Memory.wf m = true) : Memory.wf (m.wrDram a bs) = true := by
  rw [Memory.wf_iff] at h ⊢
  exact ⟨h.1, Mem.wf_wrN _ _ _ _ h.2.1, h.2.2⟩

@[simp] theorem Memory.wf_wrEfl (a : Nat) (bs : Bytes) (h : Memory.wf m = true) : Memory.wf (m.wrEfl a bs) = true := by
  rw [Memory.wf_iff] at h ⊢
  exact ⟨h.1, h.2.1, Mem.wf_wrN _ _ _ _ h.2.2.1, h.2.2.2⟩

@[simp] theorem Memory.wf_wrNand (a : Nat) (bs : Bytes) (h : Memory.wf m = true) : Memory.wf (m.wrNand a bs) = true := by
  rw [Memory.wf_iff] at h ⊢
  exact ⟨h.1, h.2.1, h.2.2.1, Mem.wf_wrN _ _ _ _ h.2.2.2.1, h.2.2.2.2⟩

@[simp] theorem Memory.wf_clrNand (a n : Nat) (h : Memory.wf m = true) : Memory.wf (m.clrNand a n) = true := by
  rw [Memory.wf_iff] at h ⊢
  exact ⟨h.1, h.2.1, h.2.2.1, Mem.wf_clear _ _ _ _ h.2.2.2.1, h.2.2.2.2⟩

@[simp] theorem Memory.wf_clrSram (a n : Nat) (h : Memory.wf m = true) : Memory.wf (m.clrSram a n) = true := by
  rw [Memory.wf_iff] at h ⊢
  exact ⟨Mem.wf_clear _ _ _ _ h.1, h.2⟩

@[simp] theorem Memory.wf_clrEfl (a n : Nat) (h : Memory.wf m = true) : Memory.wf (m.clrEfl a n) = true := by
  rw [Memory.wf_iff] at h ⊢
  exact ⟨h.1, h.2.1, Mem.wf_clear _ _ _ _ h.2.2.1, h.2.2.2⟩

@[simp] theorem Memory.wf_dropSram (p : Nat → Bool) (h : Memory.wf m = true) : Memory.wf (m.dropSram p) = true := by
  rw [Memory.wf_iff] at h ⊢
  exact ⟨Tab.wf_drop _ _ _ h.1, h.2⟩

@[simp] theorem Memory.wf_dropSpm (c : Nat) (p : Nat → Bool) (h : Memory.wf m = true) : Memory.wf (m.dropSpm c p) = true := by
  rw [Memory.wf_iff] at h ⊢
  exact ⟨h.1, h.2.1, h.2.2.1, h.2.2.2.1, Tab.wf_banks _ _ _ (fun x hx => Tab.wf_drop 0 x p hx) h.2.2.2.2.1, h.2.2.2.2.2⟩

@[simp] theorem Memory.wf_zeroCore (c : Nat) (h : Memory.wf m = true) : Memory.wf (m.zeroCore c) = true := by
  rw [Memory.wf_iff] at h ⊢
  exact ⟨h.1, h.2.1, h.2.2.1, h.2.2.2.1, Tab.wf_banks _ c (fun _ => []) (fun _ _ => rfl) h.2.2.2.2.1,
    Tab.wf_banks _ c (fun _ => []) (fun _ _ => rfl) h.2.2.2.2.2.1, h.2.2.2.2.2.2⟩

@[simp] theorem Memory.wf_cold (h : Memory.wf m = true) : Memory.wf m.cold = true := by
  rw [Memory.wf_iff] at h ⊢
  exact ⟨rfl, rfl, h.2.2.1, h.2.2.2.1, rfl, rfl, h.2.2.2.2.2.2⟩

@[simp] theorem Memory.wf_wrSpm (c a : Nat) (bs : Bytes) (h : Memory.wf m = true) : Memory.wf (m.wrSpm c a bs) = true := by
  rw [Memory.wf_iff] at h ⊢
  exact ⟨h.1, h.2.1, h.2.2.1, h.2.2.2.1, Tab.wf_banks _ _ _ (fun x hx => Mem.wf_wrN 0 bs x a hx) h.2.2.2.2.1, h.2.2.2.2.2⟩

@[simp] theorem Memory.wf_clrSpm (c a n : Nat) (h : Memory.wf m = true) : Memory.wf (m.clrSpm c a n) = true := by
  rw [Memory.wf_iff] at h ⊢
  exact ⟨h.1, h.2.1, h.2.2.1, h.2.2.2.1, Tab.wf_banks _ _ _ (fun x hx => Mem.wf_clear 0 x a n hx) h.2.2.2.2.1, h.2.2.2.2.2⟩

@[simp] theorem Memory.wf_wrProg (c a : Nat) (bs : Bytes) (h : Memory.wf m = true) : Memory.wf (m.wrProg c a bs) = true := by
  rw [Memory.wf_iff] at h ⊢
  exact ⟨h.1, h.2.1, h.2.2.1, h.2.2.2.1, h.2.2.2.2.1, Tab.wf_banks _ _ _ (fun x hx => Mem.wf_wrN 0 bs x a hx) h.2.2.2.2.2.1,
    h.2.2.2.2.2.2⟩

@[simp] theorem Memory.wf_wrHost (fn a : Nat) (bs : Bytes) (h : Memory.wf m = true) : Memory.wf (m.wrHost fn a bs) = true := by
  rw [Memory.wf_iff] at h ⊢
  exact ⟨h.1, h.2.1, h.2.2.1, h.2.2.2.1, h.2.2.2.2.1, h.2.2.2.2.2.1,
    Tab.wf_banks _ _ _ (fun x hx => Mem.wf_wrN 0 bs x a hx) h.2.2.2.2.2.2⟩

end

end Sys2Proof.Machine
end

