-- ==== Sys2Proof/Laws/Kept.lean ====
section
/-! SUPPORT. How `MemOk`, `Calm` and `Kept` go through the forms every effect is built from: a record update, a write of a
memory, a fold, a choice. -/

namespace Sys2Proof.Machine

open Sys2Proof

theorem Fences.Within.refl (a : Fences) : Fences.Within a a :=
  ⟨fun _ => id, fun _ => id, fun _ => id, fun _ => id, fun _ => id, fun _ => id, fun _ => id, fun _ => id⟩

theorem Fences.Within.trans {a b c : Fences} (h : Fences.Within a b) (k : Fences.Within b c) : Fences.Within a c :=
  ⟨fun i x => k.cores i (h.cores i x), fun i x => k.pairs i (h.pairs i x), fun i x => k.csi i (h.csi i x),
    fun i x => k.pci i (h.pci i x), fun i x => k.brC0 i (h.brC0 i x), fun i x => k.brC1 i (h.brC1 i x),
    fun i x => k.brX i (h.brX i x), fun i x => k.half i (h.half i x)⟩

theorem Calm.refl (s : State) : Calm s s := ⟨id, rfl, rfl⟩

theorem Kept.refl (s : State) : Kept s s :=
  ⟨Calm.refl s, fun _ => Fences.Within.refl _, fun _ => id, fun _ h => ⟨h, rfl, rfl⟩⟩

variable {o s t : State}

/-- Fields that no promise speaks of may take any value. -/
theorem Kept.other (h : Kept o s) (cores : Tab Core) (bridges : List BridgeDir) (gdl : Gdl) (ddr : Ddr) (flt : Flt) (efl : Efl)
    (lfl : Lfl) (sfe : Sfe) (trg : Trg) (pci : Pci) (sec : Sec) (pwr : Pwr) (pins : Pins) (timer free : Nat) :
    Kept o (State.mk cores s.mem s.fences bridges s.audit gdl ddr flt efl lfl sfe trg pci sec pwr s.boot s.fuses pins timer free
      s.pending) :=
  ⟨⟨h.mem, h.pending, h.fuses⟩, h.fences, h.fatal, h.audit⟩

theorem kept_mk (cores : Tab Core) (bridges : List BridgeDir) (gdl : Gdl) (ddr : Ddr) (flt : Flt) (efl : Efl)
    (lfl : Lfl) (sfe : Sfe) (trg : Trg) (pci : Pci) (sec : Sec) (pwr : Pwr) (pins : Pins) (timer free : Nat) :
    Kept o (State.mk cores s.mem s.fences bridges s.audit gdl ddr flt efl lfl sfe trg pci sec pwr s.boot s.fuses pins timer free
      s.pending) ↔ Kept o s :=
  ⟨fun h => ⟨⟨h.mem, h.pending, h.fuses⟩, h.fences, h.fatal, h.audit⟩, fun h => h.other ..⟩

/-- So may the boot block, but for DONE and the fatal condition. -/
theorem Kept.boots (h : Kept o s) (cores : Tab Core) (bridges : List BridgeDir) (gdl : Gdl) (ddr : Ddr) (flt : Flt) (efl : Efl)
    (lfl : Lfl) (sfe : Sfe) (trg : Trg) (pci : Pci) (sec : Sec) (pwr : Pwr) (boot : Boot) (pins : Pins) (timer free : Nat)
    (hd : boot.done = s.boot.done) (hf : boot.fatal = s.boot.fatal) :
    Kept o (State.mk cores s.mem s.fences bridges s.audit gdl ddr flt efl lfl sfe trg pci sec pwr boot s.fuses pins timer free
      s.pending) := by
  refine ⟨⟨h.mem, h.pending, h.fuses⟩, ?_, ?_, ?_⟩ <;> simp only [hd, hf]
  · exact h.fences
  · exact h.fatal
  · exact h.audit

/-- Memories may change when they keep their form. -/
theorem Kept.mems (h : Kept o s) (cores : Tab Core) (m : Mems) (bridges : List BridgeDir) (gdl : Gdl) (ddr : Ddr) (flt : Flt)
    (efl : Efl) (lfl : Lfl) (sfe : Sfe) (trg : Trg) (pci : Pci) (sec : Sec) (pwr : Pwr) (pins : Pins) (timer free : Nat)
    (hm : MemOk o → Memory.wf m = true) :
    Kept o (State.mk cores m s.fences bridges s.audit gdl ddr flt efl lfl sfe trg pci sec pwr s.boot s.fuses pins timer free
      s.pending) :=
  ⟨⟨hm, h.pending, h.fuses⟩, h.fences, h.fatal, h.audit⟩

/-- Fences may be added. -/
theorem Kept.fenced (h : Kept o s) (f : Fences) (hf : Fences.Within s.fences f) : Kept o { s with fences := f } :=
  ⟨⟨h.mem, h.pending, h.fuses⟩, fun d => (h.fences d).trans hf, h.fatal, h.audit⟩

theorem Kept.wf (h : Kept o s) (k : MemOk o) : Memory.wf s.mem = true := h.mem k

/-- A part that has been reset and has not started keeps only what `Calm` says. -/
theorem Calm.kept (h : Calm o s) (hd : s.boot.done = false) : Kept o s :=
  ⟨h, fun x => by simp [hd] at x, fun x => by simp [hd] at x, fun x => by simp [hd] at x⟩

theorem Kept.trans (h : Kept o s) (k : Kept s t) (hd : t.boot.done = true → s.boot.done = true) : Kept o t :=
  ⟨⟨fun m => k.mem (h.mem m), k.pending.trans h.pending, k.fuses.trans h.fuses⟩, fun d => (h.fences (hd d)).trans (k.fences d),
    fun d f => k.fatal d (h.fatal (hd d) f), fun d f =>
      let a := h.audit (hd d) f
      let b := k.audit d a.1
      ⟨b.1, b.2.1.trans a.2.1, b.2.2.trans a.2.2⟩⟩

theorem foldl_keeps {σ α : Type} (P : σ → Prop) (g : σ → α → σ) (h : ∀ a x, P a → P (g a x)) (l : List α) (a : σ) (ha : P a) :
    P (l.foldl g a) := by
  induction l generalizing a with
  | nil => exact ha
  | cons x l ih => exact ih _ (h a x ha)

theorem foldl_kept {α : Type} (g : State → α → State) (h : ∀ s x, Kept o s → Kept o (g s x)) (l : List α) (s : State)
    (hs : Kept o s) : Kept o (l.foldl g s) := foldl_keeps (Kept o) g h l s hs

theorem ite_kept {c : Prop} [Decidable c] (a b : State) (ha : Kept o a) (hb : Kept o b) : Kept o (if c then a else b) := by
  split <;> assumption

theorem setMems_kept (s : State) (f : Mems → Mems) (hm : MemOk o → Memory.wf (f s.mem) = true) (h : Kept o s) : Kept o (setMems s f) :=
  ⟨⟨hm, h.pending, h.fuses⟩, h.fences, h.fatal, h.audit⟩

@[simp] theorem setMems_mem (s : State) (f : Mems → Mems) : (setMems s f).mem = f s.mem := rfl

theorem foldl_mem {α : Type} (g : State → α → State) (h : ∀ s x, (g s x).mem = s.mem) (l : List α) (s : State) :
    (l.foldl g s).mem = s.mem := by
  induction l generalizing s with
  | nil => rfl
  | cons x l ih => simp [ih, h]

end Sys2Proof.Machine
end

