-- ==== Sys2Proof/Laws/Confined.lean ====
section
/-! SUPPORT. How `Confined` goes through the forms every effect is built from. -/

namespace Sys2Proof.Machine

open Sys2Proof

theorem Confined.refl (B : Block → Prop) (s : State) : Confined B s s :=
  ⟨.inr rfl, .inr rfl, .inr rfl, .inr rfl, .inr rfl, .inr rfl, .inr rfl, .inr rfl, .inr rfl, .inr rfl, .inr rfl, .inr rfl, .inr
    rfl, .inr rfl, .inr rfl, .inr rfl, .inr rfl, .inr rfl, .inr rfl, .inr rfl, .inr rfl⟩

theorem Confined.trans {B : Block → Prop} {a b c : State} (h : Confined B a b) (k : Confined B b c) : Confined B a c :=
  ⟨k.cores.elim .inl fun e => h.cores.imp_right e.trans,
    k.mem.elim .inl fun e => h.mem.imp_right e.trans,
    k.fences.elim .inl fun e => h.fences.imp_right e.trans,
    k.bridges.elim .inl fun e => h.bridges.imp_right e.trans,
    k.audit.elim .inl fun e => h.audit.imp_right e.trans,
    k.gdl.elim .inl fun e => h.gdl.imp_right e.trans,
    k.ddr.elim .inl fun e => h.ddr.imp_right e.trans,
    k.flt.elim .inl fun e => h.flt.imp_right e.trans,
    k.efl.elim .inl fun e => h.efl.imp_right e.trans,
    k.lfl.elim .inl fun e => h.lfl.imp_right e.trans,
    k.sfe.elim .inl fun e => h.sfe.imp_right e.trans,
    k.trg.elim .inl fun e => h.trg.imp_right e.trans,
    k.pci.elim .inl fun e => h.pci.imp_right e.trans,
    k.sec.elim .inl fun e => h.sec.imp_right e.trans,
    k.pwr.elim .inl fun e => h.pwr.imp_right e.trans,
    k.boot.elim .inl fun e => h.boot.imp_right e.trans,
    k.fuses.elim .inl fun e => h.fuses.imp_right e.trans,
    k.pins.elim .inl fun e => h.pins.imp_right e.trans,
    k.timer.elim .inl fun e => h.timer.imp_right e.trans,
    k.free.elim .inl fun e => h.free.imp_right e.trans,
    k.pending.elim .inl fun e => h.pending.imp_right e.trans⟩

/-- More blocks may have changed. -/
theorem Confined.mono {B C : Block → Prop} {a b : State} (h : Confined B a b) (hB : ∀ x, B x → C x) : Confined C a b :=
  ⟨h.cores.imp_left (hB _),
    h.mem.imp_left (hB _),
    h.fences.imp_left (hB _),
    h.bridges.imp_left (hB _),
    h.audit.imp_left (hB _),
    h.gdl.imp_left (hB _),
    h.ddr.imp_left (hB _),
    h.flt.imp_left (hB _),
    h.efl.imp_left (hB _),
    h.lfl.imp_left (hB _),
    h.sfe.imp_left (hB _),
    h.trg.imp_left (hB _),
    h.pci.imp_left (hB _),
    h.sec.imp_left (hB _),
    h.pwr.imp_left (hB _),
    h.boot.imp_left (hB _),
    h.fuses.imp_left (hB _),
    h.pins.imp_left (hB _),
    h.timer.imp_left (hB _),
    h.free.imp_left (hB _),
    h.pending.imp_left (hB _)⟩

variable {B : Block → Prop} {o s : State}

theorem foldl_confined {α : Type} (g : State → α → State) (h : ∀ s x, Confined B o s → Confined B o (g s x)) (l : List α)
    (s : State) (hs : Confined B o s) : Confined B o (l.foldl g s) := foldl_keeps (Confined B o) g h l s hs

theorem ite_confined {c : Prop} [Decidable c] (a b : State) (ha : Confined B o a) (hb : Confined B o b) :
    Confined B o (if c then a else b) := by
  split <;> assumption

theorem setMems_confined (s : State) (f : Mems → Mems) (hs : Confined B o s) (hMem : B .mem := by assumption) :
    Confined B o (setMems s f) := { hs with mem := .inl hMem }

theorem confined_cores (hCores : B .cores) (cores' : Tab Core) :
    Confined B o { s with cores := cores' } ↔ Confined B o s :=
  ⟨fun h => { h with cores := .inl hCores }, fun h => { h with cores := .inl hCores }⟩

theorem confined_cores_mem (hCores : B .cores) (hMem : B .mem) (cores' : Tab Core) (mem' : Mems) :
    Confined B o { s with cores := cores', mem := mem' } ↔ Confined B o s :=
  ⟨fun h => { h with cores := .inl hCores, mem := .inl hMem }, fun h => { h with cores := .inl hCores, mem := .inl hMem }⟩

theorem confined_cores_mem_fences (hCores : B .cores) (hMem : B .mem) (hFences : B .fences) (cores' : Tab Core) (mem' : Mems) (fences' : Fences) :
    Confined B o { s with cores := cores', mem := mem', fences := fences' } ↔ Confined B o s :=
  ⟨fun h => { h with cores := .inl hCores, mem := .inl hMem, fences := .inl hFences },
    fun h => { h with cores := .inl hCores, mem := .inl hMem, fences := .inl hFences }⟩

theorem confined_cores_mem_fences_bridges (hCores : B .cores) (hMem : B .mem) (hFences : B .fences) (hBridges : B .bridges) (cores' : Tab Core) (mem' : Mems) (fences' : Fences) (bridges' : List BridgeDir) :
    Confined B o { s with cores := cores', mem := mem', fences := fences', bridges := bridges' } ↔ Confined B o s :=
  ⟨fun h => { h with cores := .inl hCores, mem := .inl hMem, fences := .inl hFences, bridges := .inl hBridges },
    fun h => { h with cores := .inl hCores, mem := .inl hMem, fences := .inl hFences, bridges := .inl hBridges }⟩

theorem confined_cores_mem_fences_bridges_audit (hCores : B .cores) (hMem : B .mem) (hFences : B .fences) (hBridges : B .bridges) (hAudit : B .audit) (cores' : Tab Core) (mem' : Mems) (fences' : Fences) (bridges' : List BridgeDir) (audit' : Audit) :
    Confined B o { s with cores := cores', mem := mem', fences := fences', bridges := bridges', audit := audit' } ↔ Confined B o s :=
  ⟨fun h => { h with cores := .inl hCores, mem := .inl hMem, fences := .inl hFences, bridges := .inl hBridges, audit := .inl hAudit },
    fun h => { h with cores := .inl hCores, mem := .inl hMem, fences := .inl hFences, bridges := .inl hBridges, audit := .inl hAudit }⟩

theorem confined_cores_mem_fences_bridges_audit_gdl (hCores : B .cores) (hMem : B .mem) (hFences : B .fences) (hBridges : B .bridges) (hAudit : B .audit) (hGdl : B .gdl) (cores' : Tab Core) (mem' : Mems) (fences' : Fences) (bridges' : List BridgeDir) (audit' : Audit) (gdl' : Gdl) :
    Confined B o { s with cores := cores', mem := mem', fences := fences', bridges := bridges', audit := audit', gdl := gdl' } ↔ Confined B o s :=
  ⟨fun h => { h with cores := .inl hCores, mem := .inl hMem, fences := .inl hFences, bridges := .inl hBridges, audit := .inl hAudit, gdl := .inl hGdl },
    fun h => { h with cores := .inl hCores, mem := .inl hMem, fences := .inl hFences, bridges := .inl hBridges, audit := .inl hAudit, gdl := .inl hGdl }⟩

theorem confined_cores_mem_fences_bridges_audit_gdl_ddr (hCores : B .cores) (hMem : B .mem) (hFences : B .fences) (hBridges : B .bridges) (hAudit : B .audit) (hGdl : B .gdl) (hDdr : B .ddr) (cores' : Tab Core) (mem' : Mems) (fences' : Fences) (bridges' : List BridgeDir) (audit' : Audit) (gdl' : Gdl) (ddr' : Ddr) :
    Confined B o { s with cores := cores', mem := mem', fences := fences', bridges := bridges', audit := audit', gdl := gdl', ddr := ddr' } ↔ Confined B o s :=
  ⟨fun h => { h with cores := .inl hCores, mem := .inl hMem, fences := .inl hFences, bridges := .inl hBridges, audit := .inl hAudit, gdl := .inl hGdl, ddr := .inl hDdr },
    fun h => { h with cores := .inl hCores, mem := .inl hMem, fences := .inl hFences, bridges := .inl hBridges, audit := .inl hAudit, gdl := .inl hGdl, ddr := .inl hDdr }⟩

theorem confined_cores_mem_fences_bridges_audit_gdl_ddr_flt (hCores : B .cores) (hMem : B .mem) (hFences : B .fences) (hBridges : B .bridges) (hAudit : B .audit) (hGdl : B .gdl) (hDdr : B .ddr) (hFlt : B .flt) (cores' : Tab Core) (mem' : Mems) (fences' : Fences) (bridges' : List BridgeDir) (audit' : Audit) (gdl' : Gdl) (ddr' : Ddr) (flt' : Flt) :
    Confined B o { s with cores := cores', mem := mem', fences := fences', bridges := bridges', audit := audit', gdl := gdl', ddr := ddr', flt := flt' } ↔ Confined B o s :=
  ⟨fun h => { h with cores := .inl hCores, mem := .inl hMem, fences := .inl hFences, bridges := .inl hBridges, audit := .inl hAudit, gdl := .inl hGdl, ddr := .inl hDdr, flt := .inl hFlt },
    fun h => { h with cores := .inl hCores, mem := .inl hMem, fences := .inl hFences, bridges := .inl hBridges, audit := .inl hAudit, gdl := .inl hGdl, ddr := .inl hDdr, flt := .inl hFlt }⟩

theorem confined_cores_mem_fences_bridges_audit_gdl_ddr_flt_efl (hCores : B .cores) (hMem : B .mem) (hFences : B .fences) (hBridges : B .bridges) (hAudit : B .audit) (hGdl : B .gdl) (hDdr : B .ddr) (hFlt : B .flt) (hEfl : B .efl) (cores' : Tab Core) (mem' : Mems) (fences' : Fences) (bridges' : List BridgeDir) (audit' : Audit) (gdl' : Gdl) (ddr' : Ddr) (flt' : Flt) (efl' : Efl) :
    Confined B o { s with cores := cores', mem := mem', fences := fences', bridges := bridges', audit := audit', gdl := gdl', ddr := ddr', flt := flt', efl := efl' } ↔ Confined B o s :=
  ⟨fun h => { h with cores := .inl hCores, mem := .inl hMem, fences := .inl hFences, bridges := .inl hBridges, audit := .inl hAudit, gdl := .inl hGdl, ddr := .inl hDdr, flt := .inl hFlt, efl := .inl hEfl },
    fun h => { h with cores := .inl hCores, mem := .inl hMem, fences := .inl hFences, bridges := .inl hBridges, audit := .inl hAudit, gdl := .inl hGdl, ddr := .inl hDdr, flt := .inl hFlt, efl := .inl hEfl }⟩

theorem confined_cores_mem_fences_bridges_audit_gdl_ddr_flt_efl_lfl (hCores : B .cores) (hMem : B .mem) (hFences : B .fences) (hBridges : B .bridges) (hAudit : B .audit) (hGdl : B .gdl) (hDdr : B .ddr) (hFlt : B .flt) (hEfl : B .efl) (hLfl : B .lfl) (cores' : Tab Core) (mem' : Mems) (fences' : Fences) (bridges' : List BridgeDir) (audit' : Audit) (gdl' : Gdl) (ddr' : Ddr) (flt' : Flt) (efl' : Efl) (lfl' : Lfl) :
    Confined B o { s with cores := cores', mem := mem', fences := fences', bridges := bridges', audit := audit', gdl := gdl', ddr := ddr', flt := flt', efl := efl', lfl := lfl' } ↔ Confined B o s :=
  ⟨fun h => { h with cores := .inl hCores, mem := .inl hMem, fences := .inl hFences, bridges := .inl hBridges, audit := .inl hAudit, gdl := .inl hGdl, ddr := .inl hDdr, flt := .inl hFlt, efl := .inl hEfl, lfl := .inl hLfl },
    fun h => { h with cores := .inl hCores, mem := .inl hMem, fences := .inl hFences, bridges := .inl hBridges, audit := .inl hAudit, gdl := .inl hGdl, ddr := .inl hDdr, flt := .inl hFlt, efl := .inl hEfl, lfl := .inl hLfl }⟩

theorem confined_cores_mem_fences_bridges_audit_gdl_ddr_flt_efl_lfl_sfe (hCores : B .cores) (hMem : B .mem) (hFences : B .fences) (hBridges : B .bridges) (hAudit : B .audit) (hGdl : B .gdl) (hDdr : B .ddr) (hFlt : B .flt) (hEfl : B .efl) (hLfl : B .lfl) (hSfe : B .sfe) (cores' : Tab Core) (mem' : Mems) (fences' : Fences) (bridges' : List BridgeDir) (audit' : Audit) (gdl' : Gdl) (ddr' : Ddr) (flt' : Flt) (efl' : Efl) (lfl' : Lfl) (sfe' : Sfe) :
    Confined B o { s with cores := cores', mem := mem', fences := fences', bridges := bridges', audit := audit', gdl := gdl', ddr := ddr', flt := flt', efl := efl', lfl := lfl', sfe := sfe' } ↔ Confined B o s :=
  ⟨fun h => { h with cores := .inl hCores, mem := .inl hMem, fences := .inl hFences, bridges := .inl hBridges, audit := .inl hAudit, gdl := .inl hGdl, ddr := .inl hDdr, flt := .inl hFlt, efl := .inl hEfl, lfl := .inl hLfl, sfe := .inl hSfe },
    fun h => { h with cores := .inl hCores, mem := .inl hMem, fences := .inl hFences, bridges := .inl hBridges, audit := .inl hAudit, gdl := .inl hGdl, ddr := .inl hDdr, flt := .inl hFlt, efl := .inl hEfl, lfl := .inl hLfl, sfe := .inl hSfe }⟩

theorem confined_cores_mem_fences_bridges_audit_gdl_ddr_flt_efl_lfl_sfe_trg (hCores : B .cores) (hMem : B .mem) (hFences : B .fences) (hBridges : B .bridges) (hAudit : B .audit) (hGdl : B .gdl) (hDdr : B .ddr) (hFlt : B .flt) (hEfl : B .efl) (hLfl : B .lfl) (hSfe : B .sfe) (hTrg : B .trg) (cores' : Tab Core) (mem' : Mems) (fences' : Fences) (bridges' : List BridgeDir) (audit' : Audit) (gdl' : Gdl) (ddr' : Ddr) (flt' : Flt) (efl' : Efl) (lfl' : Lfl) (sfe' : Sfe) (trg' : Trg) :
    Confined B o { s with cores := cores', mem := mem', fences := fences', bridges := bridges', audit := audit', gdl := gdl', ddr := ddr', flt := flt', efl := efl', lfl := lfl', sfe := sfe', trg := trg' } ↔ Confined B o s :=
  ⟨fun h => { h with cores := .inl hCores, mem := .inl hMem, fences := .inl hFences, bridges := .inl hBridges, audit := .inl hAudit, gdl := .inl hGdl, ddr := .inl hDdr, flt := .inl hFlt, efl := .inl hEfl, lfl := .inl hLfl, sfe := .inl hSfe, trg := .inl hTrg },
    fun h => { h with cores := .inl hCores, mem := .inl hMem, fences := .inl hFences, bridges := .inl hBridges, audit := .inl hAudit, gdl := .inl hGdl, ddr := .inl hDdr, flt := .inl hFlt, efl := .inl hEfl, lfl := .inl hLfl, sfe := .inl hSfe, trg := .inl hTrg }⟩

theorem confined_cores_mem_fences_bridges_audit_gdl_ddr_flt_efl_lfl_sfe_trg_pci (hCores : B .cores) (hMem : B .mem) (hFences : B .fences) (hBridges : B .bridges) (hAudit : B .audit) (hGdl : B .gdl) (hDdr : B .ddr) (hFlt : B .flt) (hEfl : B .efl) (hLfl : B .lfl) (hSfe : B .sfe) (hTrg : B .trg) (hPci : B .pci) (cores' : Tab Core) (mem' : Mems) (fences' : Fences) (bridges' : List BridgeDir) (audit' : Audit) (gdl' : Gdl) (ddr' : Ddr) (flt' : Flt) (efl' : Efl) (lfl' : Lfl) (sfe' : Sfe) (trg' : Trg) (pci' : Pci) :
    Confined B o { s with cores := cores', mem := mem', fences := fences', bridges := bridges', audit := audit', gdl := gdl', ddr := ddr', flt := flt', efl := efl', lfl := lfl', sfe := sfe', trg := trg', pci := pci' } ↔ Confined B o s :=
  ⟨fun h => { h with cores := .inl hCores, mem := .inl hMem, fences := .inl hFences, bridges := .inl hBridges, audit := .inl hAudit, gdl := .inl hGdl, ddr := .inl hDdr, flt := .inl hFlt, efl := .inl hEfl, lfl := .inl hLfl, sfe := .inl hSfe, trg := .inl hTrg, pci := .inl hPci },
    fun h => { h with cores := .inl hCores, mem := .inl hMem, fences := .inl hFences, bridges := .inl hBridges, audit := .inl hAudit, gdl := .inl hGdl, ddr := .inl hDdr, flt := .inl hFlt, efl := .inl hEfl, lfl := .inl hLfl, sfe := .inl hSfe, trg := .inl hTrg, pci := .inl hPci }⟩

theorem confined_cores_mem_fences_bridges_audit_gdl_ddr_flt_efl_lfl_sfe_trg_pci_sec (hCores : B .cores) (hMem : B .mem) (hFences : B .fences) (hBridges : B .bridges) (hAudit : B .audit) (hGdl : B .gdl) (hDdr : B .ddr) (hFlt : B .flt) (hEfl : B .efl) (hLfl : B .lfl) (hSfe : B .sfe) (hTrg : B .trg) (hPci : B .pci) (hSec : B .sec) (cores' : Tab Core) (mem' : Mems) (fences' : Fences) (bridges' : List BridgeDir) (audit' : Audit) (gdl' : Gdl) (ddr' : Ddr) (flt' : Flt) (efl' : Efl) (lfl' : Lfl) (sfe' : Sfe) (trg' : Trg) (pci' : Pci) (sec' : Sec) :
    Confined B o { s with cores := cores', mem := mem', fences := fences', bridges := bridges', audit := audit', gdl := gdl', ddr := ddr', flt := flt', efl := efl', lfl := lfl', sfe := sfe', trg := trg', pci := pci', sec := sec' } ↔ Confined B o s :=
  ⟨fun h => { h with cores := .inl hCores, mem := .inl hMem, fences := .inl hFences, bridges := .inl hBridges, audit := .inl hAudit, gdl := .inl hGdl, ddr := .inl hDdr, flt := .inl hFlt, efl := .inl hEfl, lfl := .inl hLfl, sfe := .inl hSfe, trg := .inl hTrg, pci := .inl hPci, sec := .inl hSec },
    fun h => { h with cores := .inl hCores, mem := .inl hMem, fences := .inl hFences, bridges := .inl hBridges, audit := .inl hAudit, gdl := .inl hGdl, ddr := .inl hDdr, flt := .inl hFlt, efl := .inl hEfl, lfl := .inl hLfl, sfe := .inl hSfe, trg := .inl hTrg, pci := .inl hPci, sec := .inl hSec }⟩

theorem confined_cores_mem_fences_bridges_audit_gdl_ddr_flt_efl_lfl_sfe_trg_pci_sec_pwr (hCores : B .cores) (hMem : B .mem) (hFences : B .fences) (hBridges : B .bridges) (hAudit : B .audit) (hGdl : B .gdl) (hDdr : B .ddr) (hFlt : B .flt) (hEfl : B .efl) (hLfl : B .lfl) (hSfe : B .sfe) (hTrg : B .trg) (hPci : B .pci) (hSec : B .sec) (hPwr : B .pwr) (cores' : Tab Core) (mem' : Mems) (fences' : Fences) (bridges' : List BridgeDir) (audit' : Audit) (gdl' : Gdl) (ddr' : Ddr) (flt' : Flt) (efl' : Efl) (lfl' : Lfl) (sfe' : Sfe) (trg' : Trg) (pci' : Pci) (sec' : Sec) (pwr' : Pwr) :
    Confined B o { s with cores := cores', mem := mem', fences := fences', bridges := bridges', audit := audit', gdl := gdl', ddr := ddr', flt := flt', efl := efl', lfl := lfl', sfe := sfe', trg := trg', pci := pci', sec := sec', pwr := pwr' } ↔ Confined B o s :=
  ⟨fun h => { h with cores := .inl hCores, mem := .inl hMem, fences := .inl hFences, bridges := .inl hBridges, audit := .inl hAudit, gdl := .inl hGdl, ddr := .inl hDdr, flt := .inl hFlt, efl := .inl hEfl, lfl := .inl hLfl, sfe := .inl hSfe, trg := .inl hTrg, pci := .inl hPci, sec := .inl hSec, pwr := .inl hPwr },
    fun h => { h with cores := .inl hCores, mem := .inl hMem, fences := .inl hFences, bridges := .inl hBridges, audit := .inl hAudit, gdl := .inl hGdl, ddr := .inl hDdr, flt := .inl hFlt, efl := .inl hEfl, lfl := .inl hLfl, sfe := .inl hSfe, trg := .inl hTrg, pci := .inl hPci, sec := .inl hSec, pwr := .inl hPwr }⟩

theorem confined_cores_mem_ddr (hCores : B .cores) (hMem : B .mem) (hDdr : B .ddr) (cores' : Tab Core) (mem' : Mems) (ddr' : Ddr) :
    Confined B o { s with cores := cores', mem := mem', ddr := ddr' } ↔ Confined B o s :=
  ⟨fun h => { h with cores := .inl hCores, mem := .inl hMem, ddr := .inl hDdr },
    fun h => { h with cores := .inl hCores, mem := .inl hMem, ddr := .inl hDdr }⟩

theorem confined_cores_mem_ddr_flt (hCores : B .cores) (hMem : B .mem) (hDdr : B .ddr) (hFlt : B .flt) (cores' : Tab Core) (mem' : Mems) (ddr' : Ddr) (flt' : Flt) :
    Confined B o { s with cores := cores', mem := mem', ddr := ddr', flt := flt' } ↔ Confined B o s :=
  ⟨fun h => { h with cores := .inl hCores, mem := .inl hMem, ddr := .inl hDdr, flt := .inl hFlt },
    fun h => { h with cores := .inl hCores, mem := .inl hMem, ddr := .inl hDdr, flt := .inl hFlt }⟩

theorem confined_cores_mem_ddr_flt_lfl (hCores : B .cores) (hMem : B .mem) (hDdr : B .ddr) (hFlt : B .flt) (hLfl : B .lfl) (cores' : Tab Core) (mem' : Mems) (ddr' : Ddr) (flt' : Flt) (lfl' : Lfl) :
    Confined B o { s with cores := cores', mem := mem', ddr := ddr', flt := flt', lfl := lfl' } ↔ Confined B o s :=
  ⟨fun h => { h with cores := .inl hCores, mem := .inl hMem, ddr := .inl hDdr, flt := .inl hFlt, lfl := .inl hLfl },
    fun h => { h with cores := .inl hCores, mem := .inl hMem, ddr := .inl hDdr, flt := .inl hFlt, lfl := .inl hLfl }⟩

theorem confined_cores_mem_ddr_flt_lfl_pci (hCores : B .cores) (hMem : B .mem) (hDdr : B .ddr) (hFlt : B .flt) (hLfl : B .lfl) (hPci : B .pci) (cores' : Tab Core) (mem' : Mems) (ddr' : Ddr) (flt' : Flt) (lfl' : Lfl) (pci' : Pci) :
    Confined B o { s with cores := cores', mem := mem', ddr := ddr', flt := flt', lfl := lfl', pci := pci' } ↔ Confined B o s :=
  ⟨fun h => { h with cores := .inl hCores, mem := .inl hMem, ddr := .inl hDdr, flt := .inl hFlt, lfl := .inl hLfl, pci := .inl hPci },
    fun h => { h with cores := .inl hCores, mem := .inl hMem, ddr := .inl hDdr, flt := .inl hFlt, lfl := .inl hLfl, pci := .inl hPci }⟩

theorem confined_cores_mem_ddr_flt_lfl_pci_pwr (hCores : B .cores) (hMem : B .mem) (hDdr : B .ddr) (hFlt : B .flt) (hLfl : B .lfl) (hPci : B .pci) (hPwr : B .pwr) (cores' : Tab Core) (mem' : Mems) (ddr' : Ddr) (flt' : Flt) (lfl' : Lfl) (pci' : Pci) (pwr' : Pwr) :
    Confined B o { s with cores := cores', mem := mem', ddr := ddr', flt := flt', lfl := lfl', pci := pci', pwr := pwr' } ↔ Confined B o s :=
  ⟨fun h => { h with cores := .inl hCores, mem := .inl hMem, ddr := .inl hDdr, flt := .inl hFlt, lfl := .inl hLfl, pci := .inl hPci, pwr := .inl hPwr },
    fun h => { h with cores := .inl hCores, mem := .inl hMem, ddr := .inl hDdr, flt := .inl hFlt, lfl := .inl hLfl, pci := .inl hPci, pwr := .inl hPwr }⟩

theorem confined_cores_mem_ddr_flt_lfl_pci_pwr_boot (hCores : B .cores) (hMem : B .mem) (hDdr : B .ddr) (hFlt : B .flt) (hLfl : B .lfl) (hPci : B .pci) (hPwr : B .pwr) (hBoot : B .boot) (cores' : Tab Core) (mem' : Mems) (ddr' : Ddr) (flt' : Flt) (lfl' : Lfl) (pci' : Pci) (pwr' : Pwr) (boot' : Boot) :
    Confined B o { s with cores := cores', mem := mem', ddr := ddr', flt := flt', lfl := lfl', pci := pci', pwr := pwr', boot := boot' } ↔ Confined B o s :=
  ⟨fun h => { h with cores := .inl hCores, mem := .inl hMem, ddr := .inl hDdr, flt := .inl hFlt, lfl := .inl hLfl, pci := .inl hPci, pwr := .inl hPwr, boot := .inl hBoot },
    fun h => { h with cores := .inl hCores, mem := .inl hMem, ddr := .inl hDdr, flt := .inl hFlt, lfl := .inl hLfl, pci := .inl hPci, pwr := .inl hPwr, boot := .inl hBoot }⟩

theorem confined_cores_mem_ddr_flt_lfl_pci_pwr_boot_pins (hCores : B .cores) (hMem : B .mem) (hDdr : B .ddr) (hFlt : B .flt) (hLfl : B .lfl) (hPci : B .pci) (hPwr : B .pwr) (hBoot : B .boot) (hPins : B .pins) (cores' : Tab Core) (mem' : Mems) (ddr' : Ddr) (flt' : Flt) (lfl' : Lfl) (pci' : Pci) (pwr' : Pwr) (boot' : Boot) (pins' : Pins) :
    Confined B o { s with cores := cores', mem := mem', ddr := ddr', flt := flt', lfl := lfl', pci := pci', pwr := pwr', boot := boot', pins := pins' } ↔ Confined B o s :=
  ⟨fun h => { h with cores := .inl hCores, mem := .inl hMem, ddr := .inl hDdr, flt := .inl hFlt, lfl := .inl hLfl, pci := .inl hPci, pwr := .inl hPwr, boot := .inl hBoot, pins := .inl hPins },
    fun h => { h with cores := .inl hCores, mem := .inl hMem, ddr := .inl hDdr, flt := .inl hFlt, lfl := .inl hLfl, pci := .inl hPci, pwr := .inl hPwr, boot := .inl hBoot, pins := .inl hPins }⟩

theorem confined_cores_mem_ddr_flt_lfl_pci_pwr_boot_pins_free (hCores : B .cores) (hMem : B .mem) (hDdr : B .ddr) (hFlt : B .flt) (hLfl : B .lfl) (hPci : B .pci) (hPwr : B .pwr) (hBoot : B .boot) (hPins : B .pins) (hFree : B .free) (cores' : Tab Core) (mem' : Mems) (ddr' : Ddr) (flt' : Flt) (lfl' : Lfl) (pci' : Pci) (pwr' : Pwr) (boot' : Boot) (pins' : Pins) (free' : Nat) :
    Confined B o { s with cores := cores', mem := mem', ddr := ddr', flt := flt', lfl := lfl', pci := pci', pwr := pwr', boot := boot', pins := pins', free := free' } ↔ Confined B o s :=
  ⟨fun h => { h with cores := .inl hCores, mem := .inl hMem, ddr := .inl hDdr, flt := .inl hFlt, lfl := .inl hLfl, pci := .inl hPci, pwr := .inl hPwr, boot := .inl hBoot, pins := .inl hPins, free := .inl hFree },
    fun h => { h with cores := .inl hCores, mem := .inl hMem, ddr := .inl hDdr, flt := .inl hFlt, lfl := .inl hLfl, pci := .inl hPci, pwr := .inl hPwr, boot := .inl hBoot, pins := .inl hPins, free := .inl hFree }⟩

theorem confined_cores_ddr (hCores : B .cores) (hDdr : B .ddr) (cores' : Tab Core) (ddr' : Ddr) :
    Confined B o { s with cores := cores', ddr := ddr' } ↔ Confined B o s :=
  ⟨fun h => { h with cores := .inl hCores, ddr := .inl hDdr }, fun h => { h with cores := .inl hCores, ddr := .inl hDdr }⟩

theorem confined_cores_ddr_pwr (hCores : B .cores) (hDdr : B .ddr) (hPwr : B .pwr) (cores' : Tab Core) (ddr' : Ddr) (pwr' : Pwr) :
    Confined B o { s with cores := cores', ddr := ddr', pwr := pwr' } ↔ Confined B o s :=
  ⟨fun h => { h with cores := .inl hCores, ddr := .inl hDdr, pwr := .inl hPwr },
    fun h => { h with cores := .inl hCores, ddr := .inl hDdr, pwr := .inl hPwr }⟩

theorem confined_cores_ddr_pwr_boot (hCores : B .cores) (hDdr : B .ddr) (hPwr : B .pwr) (hBoot : B .boot) (cores' : Tab Core) (ddr' : Ddr) (pwr' : Pwr) (boot' : Boot) :
    Confined B o { s with cores := cores', ddr := ddr', pwr := pwr', boot := boot' } ↔ Confined B o s :=
  ⟨fun h => { h with cores := .inl hCores, ddr := .inl hDdr, pwr := .inl hPwr, boot := .inl hBoot },
    fun h => { h with cores := .inl hCores, ddr := .inl hDdr, pwr := .inl hPwr, boot := .inl hBoot }⟩

theorem confined_cores_ddr_pwr_boot_pins (hCores : B .cores) (hDdr : B .ddr) (hPwr : B .pwr) (hBoot : B .boot) (hPins : B .pins) (cores' : Tab Core) (ddr' : Ddr) (pwr' : Pwr) (boot' : Boot) (pins' : Pins) :
    Confined B o { s with cores := cores', ddr := ddr', pwr := pwr', boot := boot', pins := pins' } ↔ Confined B o s :=
  ⟨fun h => { h with cores := .inl hCores, ddr := .inl hDdr, pwr := .inl hPwr, boot := .inl hBoot, pins := .inl hPins },
    fun h => { h with cores := .inl hCores, ddr := .inl hDdr, pwr := .inl hPwr, boot := .inl hBoot, pins := .inl hPins }⟩

theorem confined_mem (hMem : B .mem) (mem' : Mems) :
    Confined B o { s with mem := mem' } ↔ Confined B o s :=
  ⟨fun h => { h with mem := .inl hMem }, fun h => { h with mem := .inl hMem }⟩

theorem confined_mem_gdl (hMem : B .mem) (hGdl : B .gdl) (mem' : Mems) (gdl' : Gdl) :
    Confined B o { s with mem := mem', gdl := gdl' } ↔ Confined B o s :=
  ⟨fun h => { h with mem := .inl hMem, gdl := .inl hGdl }, fun h => { h with mem := .inl hMem, gdl := .inl hGdl }⟩

theorem confined_mem_ddr (hMem : B .mem) (hDdr : B .ddr) (mem' : Mems) (ddr' : Ddr) :
    Confined B o { s with mem := mem', ddr := ddr' } ↔ Confined B o s :=
  ⟨fun h => { h with mem := .inl hMem, ddr := .inl hDdr }, fun h => { h with mem := .inl hMem, ddr := .inl hDdr }⟩

theorem confined_mem_efl (hMem : B .mem) (hEfl : B .efl) (mem' : Mems) (efl' : Efl) :
    Confined B o { s with mem := mem', efl := efl' } ↔ Confined B o s :=
  ⟨fun h => { h with mem := .inl hMem, efl := .inl hEfl }, fun h => { h with mem := .inl hMem, efl := .inl hEfl }⟩

theorem confined_fences (hFences : B .fences) (fences' : Fences) :
    Confined B o { s with fences := fences' } ↔ Confined B o s :=
  ⟨fun h => { h with fences := .inl hFences }, fun h => { h with fences := .inl hFences }⟩

theorem confined_bridges (hBridges : B .bridges) (bridges' : List BridgeDir) :
    Confined B o { s with bridges := bridges' } ↔ Confined B o s :=
  ⟨fun h => { h with bridges := .inl hBridges }, fun h => { h with bridges := .inl hBridges }⟩

theorem confined_bridges_timer (hBridges : B .bridges) (hTimer : B .timer) (bridges' : List BridgeDir) (timer' : Nat) :
    Confined B o { s with bridges := bridges', timer := timer' } ↔ Confined B o s :=
  ⟨fun h => { h with bridges := .inl hBridges, timer := .inl hTimer },
    fun h => { h with bridges := .inl hBridges, timer := .inl hTimer }⟩

theorem confined_audit (hAudit : B .audit) (audit' : Audit) :
    Confined B o { s with audit := audit' } ↔ Confined B o s :=
  ⟨fun h => { h with audit := .inl hAudit }, fun h => { h with audit := .inl hAudit }⟩

theorem confined_gdl (hGdl : B .gdl) (gdl' : Gdl) :
    Confined B o { s with gdl := gdl' } ↔ Confined B o s :=
  ⟨fun h => { h with gdl := .inl hGdl }, fun h => { h with gdl := .inl hGdl }⟩

theorem confined_gdl_lfl (hGdl : B .gdl) (hLfl : B .lfl) (gdl' : Gdl) (lfl' : Lfl) :
    Confined B o { s with gdl := gdl', lfl := lfl' } ↔ Confined B o s :=
  ⟨fun h => { h with gdl := .inl hGdl, lfl := .inl hLfl }, fun h => { h with gdl := .inl hGdl, lfl := .inl hLfl }⟩

theorem confined_gdl_sec (hGdl : B .gdl) (hSec : B .sec) (gdl' : Gdl) (sec' : Sec) :
    Confined B o { s with gdl := gdl', sec := sec' } ↔ Confined B o s :=
  ⟨fun h => { h with gdl := .inl hGdl, sec := .inl hSec }, fun h => { h with gdl := .inl hGdl, sec := .inl hSec }⟩

theorem confined_ddr (hDdr : B .ddr) (ddr' : Ddr) :
    Confined B o { s with ddr := ddr' } ↔ Confined B o s :=
  ⟨fun h => { h with ddr := .inl hDdr }, fun h => { h with ddr := .inl hDdr }⟩

theorem confined_flt (hFlt : B .flt) (flt' : Flt) :
    Confined B o { s with flt := flt' } ↔ Confined B o s :=
  ⟨fun h => { h with flt := .inl hFlt }, fun h => { h with flt := .inl hFlt }⟩

theorem confined_flt_sec (hFlt : B .flt) (hSec : B .sec) (flt' : Flt) (sec' : Sec) :
    Confined B o { s with flt := flt', sec := sec' } ↔ Confined B o s :=
  ⟨fun h => { h with flt := .inl hFlt, sec := .inl hSec }, fun h => { h with flt := .inl hFlt, sec := .inl hSec }⟩

theorem confined_flt_sec_boot (hFlt : B .flt) (hSec : B .sec) (hBoot : B .boot) (flt' : Flt) (sec' : Sec) (boot' : Boot) :
    Confined B o { s with flt := flt', sec := sec', boot := boot' } ↔ Confined B o s :=
  ⟨fun h => { h with flt := .inl hFlt, sec := .inl hSec, boot := .inl hBoot },
    fun h => { h with flt := .inl hFlt, sec := .inl hSec, boot := .inl hBoot }⟩

theorem confined_flt_sec_boot_pins (hFlt : B .flt) (hSec : B .sec) (hBoot : B .boot) (hPins : B .pins) (flt' : Flt) (sec' : Sec) (boot' : Boot) (pins' : Pins) :
    Confined B o { s with flt := flt', sec := sec', boot := boot', pins := pins' } ↔ Confined B o s :=
  ⟨fun h => { h with flt := .inl hFlt, sec := .inl hSec, boot := .inl hBoot, pins := .inl hPins },
    fun h => { h with flt := .inl hFlt, sec := .inl hSec, boot := .inl hBoot, pins := .inl hPins }⟩

theorem confined_efl (hEfl : B .efl) (efl' : Efl) :
    Confined B o { s with efl := efl' } ↔ Confined B o s :=
  ⟨fun h => { h with efl := .inl hEfl }, fun h => { h with efl := .inl hEfl }⟩

theorem confined_efl_free (hEfl : B .efl) (hFree : B .free) (efl' : Efl) (free' : Nat) :
    Confined B o { s with efl := efl', free := free' } ↔ Confined B o s :=
  ⟨fun h => { h with efl := .inl hEfl, free := .inl hFree }, fun h => { h with efl := .inl hEfl, free := .inl hFree }⟩

theorem confined_lfl (hLfl : B .lfl) (lfl' : Lfl) :
    Confined B o { s with lfl := lfl' } ↔ Confined B o s :=
  ⟨fun h => { h with lfl := .inl hLfl }, fun h => { h with lfl := .inl hLfl }⟩

theorem confined_sfe (hSfe : B .sfe) (sfe' : Sfe) :
    Confined B o { s with sfe := sfe' } ↔ Confined B o s :=
  ⟨fun h => { h with sfe := .inl hSfe }, fun h => { h with sfe := .inl hSfe }⟩

theorem confined_trg (hTrg : B .trg) (trg' : Trg) :
    Confined B o { s with trg := trg' } ↔ Confined B o s :=
  ⟨fun h => { h with trg := .inl hTrg }, fun h => { h with trg := .inl hTrg }⟩

theorem confined_pci (hPci : B .pci) (pci' : Pci) :
    Confined B o { s with pci := pci' } ↔ Confined B o s :=
  ⟨fun h => { h with pci := .inl hPci }, fun h => { h with pci := .inl hPci }⟩

theorem confined_pci_boot (hPci : B .pci) (hBoot : B .boot) (pci' : Pci) (boot' : Boot) :
    Confined B o { s with pci := pci', boot := boot' } ↔ Confined B o s :=
  ⟨fun h => { h with pci := .inl hPci, boot := .inl hBoot }, fun h => { h with pci := .inl hPci, boot := .inl hBoot }⟩

theorem confined_sec (hSec : B .sec) (sec' : Sec) :
    Confined B o { s with sec := sec' } ↔ Confined B o s :=
  ⟨fun h => { h with sec := .inl hSec }, fun h => { h with sec := .inl hSec }⟩

theorem confined_pwr (hPwr : B .pwr) (pwr' : Pwr) :
    Confined B o { s with pwr := pwr' } ↔ Confined B o s :=
  ⟨fun h => { h with pwr := .inl hPwr }, fun h => { h with pwr := .inl hPwr }⟩

theorem confined_pwr_pins (hPwr : B .pwr) (hPins : B .pins) (pwr' : Pwr) (pins' : Pins) :
    Confined B o { s with pwr := pwr', pins := pins' } ↔ Confined B o s :=
  ⟨fun h => { h with pwr := .inl hPwr, pins := .inl hPins }, fun h => { h with pwr := .inl hPwr, pins := .inl hPins }⟩

theorem confined_boot (hBoot : B .boot) (boot' : Boot) :
    Confined B o { s with boot := boot' } ↔ Confined B o s :=
  ⟨fun h => { h with boot := .inl hBoot }, fun h => { h with boot := .inl hBoot }⟩

theorem confined_fuses (hFuses : B .fuses) (fuses' : Fuses) :
    Confined B o { s with fuses := fuses' } ↔ Confined B o s :=
  ⟨fun h => { h with fuses := .inl hFuses }, fun h => { h with fuses := .inl hFuses }⟩

theorem confined_pins (hPins : B .pins) (pins' : Pins) :
    Confined B o { s with pins := pins' } ↔ Confined B o s :=
  ⟨fun h => { h with pins := .inl hPins }, fun h => { h with pins := .inl hPins }⟩

theorem confined_free (hFree : B .free) (free' : Nat) :
    Confined B o { s with free := free' } ↔ Confined B o s :=
  ⟨fun h => { h with free := .inl hFree }, fun h => { h with free := .inl hFree }⟩

theorem confined_pending (hPending : B .pending) (pending' : List Instr) :
    Confined B o { s with pending := pending' } ↔ Confined B o s :=
  ⟨fun h => { h with pending := .inl hPending }, fun h => { h with pending := .inl hPending }⟩

end Sys2Proof.Machine
end

