-- ==== Sys2Proof/Laws/ConfinedOps.lean ====
section
/-! SUPPORT. The blocks of the state that each function of Machine.Ops may change. -/

namespace Sys2Proof.Machine
open Sys2Proof Numeric

theorem State.spend_confined {B : Block → Prop} {o : State} (s : State) (hs : Confined B o s) (hFree : B .free := by assumption)
    : Confined B o (State.spend s) := by
  unfold State.spend
  with_reducible repeat' first | assumption | intro _ | simp only [confined_free hFree] | split | dsimp only

theorem fatalStop_confined {B : Block → Prop} {o : State} (s : State) (hs : Confined B o s) (hPci : B .pci := by assumption)
    (hBoot : B .boot := by assumption) : Confined B o (fatalStop s) := by
  unfold fatalStop
  with_reducible repeat' first
    | assumption | intro _ | refine ite_confined _ _ ?_ ?_ | simp only [confined_pci_boot hPci hBoot]
    | split | dsimp only

theorem conserve_confined {B : Block → Prop} {o : State} (id inst : Nat) (p : Pool) (s : State) (hs : Confined B o s) (hAudit :
    B .audit := by assumption) (hPci : B .pci := by assumption) (hBoot : B .boot := by assumption) : Confined B o (conserve id
    inst p s) := by
  unfold conserve
  with_reducible repeat' first
    | assumption | intro _ | apply fatalStop_confined | refine ite_confined _ _ ?_ ?_ | simp only [confined_audit hAudit]
    | split | dsimp only

theorem setDom_confined {B : Block → Prop} {o : State} (s : State) (d : Nat) (f : Dom → Dom) (hs : Confined B o s) (hPwr : B
    .pwr := by assumption) : Confined B o (setDom s d f) := by
  unfold setDom
  with_reducible repeat' first | assumption | intro _ | simp only [confined_pwr hPwr] | split | dsimp only

theorem setCore_confined {B : Block → Prop} {o : State} (s : State) (n : Nat) (k : Core) (hs : Confined B o s) (hCores : B
    .cores := by assumption) : Confined B o (setCore s n k) := by
  unfold setCore
  with_reducible repeat' first | assumption | intro _ | simp only [confined_cores hCores] | split | dsimp only

theorem updCore_confined {B : Block → Prop} {o : State} (s : State) (n : Nat) (f : Core → Core) (hs : Confined B o s) (hCores :
    B .cores := by assumption) : Confined B o (updCore s n f) := by
  unfold updCore
  with_reducible repeat' first | assumption | intro _ | apply setCore_confined | split | dsimp only

theorem setFunc_confined {B : Block → Prop} {o : State} (s : State) (f : Nat) (g : Func → Func) (hs : Confined B o s) (hPci : B
    .pci := by assumption) : Confined B o (setFunc s f g) := by
  unfold setFunc
  with_reducible repeat' first | assumption | intro _ | simp only [confined_pci hPci] | split | dsimp only

theorem setTenant_confined {B : Block → Prop} {o : State} (s : State) (t : Nat) (g : Tenant → Tenant) (hs : Confined B o s)
    (hLfl : B .lfl := by assumption) : Confined B o (setTenant s t g) := by
  unfold setTenant
  with_reducible repeat' first | assumption | intro _ | simp only [confined_lfl hLfl] | split | dsimp only

theorem setTsec_confined {B : Block → Prop} {o : State} (s : State) (t : Nat) (g : TenantSec → TenantSec) (hs : Confined B o s)
    (hSec : B .sec := by assumption) : Confined B o (setTsec s t g) := by
  unfold setTsec
  with_reducible repeat' first | assumption | intro _ | simp only [confined_sec hSec] | split | dsimp only

theorem setCtx_confined {B : Block → Prop} {o : State} (s : State) (c : Nat) (g : Context → Context) (hs : Confined B o s) (hSfe
    : B .sfe := by assumption) : Confined B o (setCtx s c g) := by
  unfold setCtx
  with_reducible repeat' first | assumption | intro _ | simp only [confined_sfe hSfe] | split | dsimp only

end Sys2Proof.Machine
end

