-- ==== Sys2Proof/Laws/ConfinedHostOps.lean ====
section
/-! SUPPORT. The blocks of the state that each function of Machine.HostOps may change. -/

namespace Sys2Proof.Machine
open Sys2Proof Numeric

theorem setQueue_confined {B : Block → Prop} {o : State} (s : State) (f q : Nat) (g : HostQueue → HostQueue) (hs : Confined B o
    s) (hPci : B .pci := by assumption) : Confined B o (setQueue s f q g) := by
  unfold setQueue
  with_reducible repeat' first | assumption | intro _ | apply setFunc_confined | split | dsimp only

theorem queueCompletion_confined {B : Block → Prop} {o : State} (sub : Sub) (c : Completion) (s : State) (hs : Confined B o s)
    (hPci : B .pci := by assumption) : Confined B o (queueCompletion sub c s) := by
  unfold queueCompletion
  with_reducible repeat' first
    | assumption | intro _ | apply setQueue_confined | refine ite_confined _ _ ?_ ?_ | split | dsimp only

theorem complete_confined {B : Block → Prop} {o : State} (sub : Sub) (c : Completion) (s : State) (hs : Confined B o s) (hPci :
    B .pci := by assumption) : Confined B o (complete sub c s) := by
  unfold complete
  with_reducible repeat' first
    | assumption | intro _ | apply queueCompletion_confined | refine foldl_confined _ (fun _ _ _ => ?_) _ _ ?_
    | refine ite_confined _ _ ?_ ?_ | split | dsimp only

theorem reply_confined {B : Block → Prop} {o : State} (sub : Sub) (st : BitVec 16) (detail : Nat) (s : State) (hs : Confined B o
    s) (hPci : B .pci := by assumption) : Confined B o (reply sub st detail s) := by
  unfold reply
  with_reducible repeat' first | assumption | intro _ | apply complete_confined | split | dsimp only

theorem endWith_confined {B : Block → Prop} {o : State} (sub : Sub) (st : BitVec 16) (s : State) (hs : Confined B o s) (hPci : B
    .pci := by assumption) : Confined B o (endWith sub st s) := by
  unfold endWith
  with_reducible repeat' first | assumption | intro _ | apply reply_confined | split | dsimp only

theorem popTaken_confined {B : Block → Prop} {o : State} (op : Nat) (sub : Sub) (s : State) (hs : Confined B o s) (hPci : B .pci
    := by assumption) : Confined B o (popTaken op sub s) := by
  unfold popTaken
  with_reducible repeat' first | assumption | intro _ | simp only [confined_pci hPci] | split | dsimp only

theorem postEvent_confined {B : Block → Prop} {o : State} (f : Nat) (ev : Bytes) (s : State) (hs : Confined B o s) (hPci : B
    .pci := by assumption) : Confined B o (postEvent f ev s) := by
  unfold postEvent
  with_reducible repeat' first | assumption | intro _ | apply setFunc_confined | split | dsimp only

theorem postReclaim_confined {B : Block → Prop} {o : State} (dom : Nat) (es : List (Nat × Nat × Nat)) (s : State) (hs : Confined
    B o s) (hPci : B .pci := by assumption) : Confined B o (postReclaim dom es s) := by
  unfold postReclaim
  with_reducible repeat' first
    | assumption | intro _ | apply postEvent_confined | refine foldl_confined _ (fun _ _ _ => ?_) _ _ ?_
    | simp only [confined_pci hPci] | split | dsimp only

theorem queueError_confined {B : Block → Prop} {o : State} (f q cause : Nat) (s : State) (hs : Confined B o s) (hPci : B .pci :=
    by assumption) : Confined B o (queueError f q cause s) := by
  unfold queueError
  with_reducible repeat' first
    | assumption | intro _ | apply setQueue_confined | apply postEvent_confined | split | dsimp only

theorem writeEvent_confined {B : Block → Prop} {o : State} (f : Nat) (ev : Bytes) (s : State) (hs : Confined B o s) (hMem : B
    .mem := by assumption) (hPci : B .pci := by assumption) : Confined B o (writeEvent f ev s) := by
  unfold writeEvent
  with_reducible repeat' first
    | assumption | intro _ | apply setMems_confined | apply setFunc_confined | refine ite_confined _ _ ?_ ?_ | split
    | dsimp only

theorem signalVector_confined {B : Block → Prop} {o : State} (f v : Nat) (s : State) (hs : Confined B o s) (hPci : B .pci := by
    assumption) : Confined B o (signalVector f v s) := by
  unfold signalVector
  with_reducible repeat' first
    | assumption | intro _ | apply setFunc_confined | refine ite_confined _ _ ?_ ?_ | simp only [confined_pci hPci] | split
    | dsimp only

theorem addLong_confined {B : Block → Prop} {o : State} (l : LongOp) (s : State) (hs : Confined B o s) (hLfl : B .lfl := by
    assumption) : Confined B o (addLong l s) := by
  unfold addLong
  with_reducible repeat' first | assumption | intro _ | simp only [confined_lfl hLfl] | split | dsimp only

theorem waitLong_confined {B : Block → Prop} {o : State} (k : LongKind) (sub : Sub) (op : Nat) (s : State) (hs : Confined B o s)
    (hLfl : B .lfl := by assumption) : Confined B o (waitLong k sub op s) := by
  unfold waitLong
  with_reducible repeat' first
    | assumption | intro _ | refine ite_confined _ _ ?_ ?_ | simp only [confined_lfl hLfl] | split | dsimp only

theorem removeLong_confined {B : Block → Prop} {o : State} (k : LongKind) (s : State) (hs : Confined B o s) (hLfl : B .lfl := by
    assumption) : Confined B o (removeLong k s) := by
  unfold removeLong
  with_reducible repeat' first | assumption | intro _ | simp only [confined_lfl hLfl] | split | dsimp only

theorem finishLong_confined {B : Block → Prop} {o : State} (k : LongKind) (sub : Sub) (c : Completion) (s : State) (hs :
    Confined B o s) (hLfl : B .lfl := by assumption) (hPci : B .pci := by assumption) : Confined B o (finishLong k sub c s) :=
    by
  unfold finishLong
  with_reducible repeat' first
    | assumption | intro _ | apply complete_confined | apply endWith_confined | apply removeLong_confined
    | refine foldl_confined _ (fun _ _ _ => ?_) _ _ ?_ | split | dsimp only

theorem dropLong_confined {B : Block → Prop} {o : State} (k : LongKind) (s : State) (hs : Confined B o s) (hLfl : B .lfl := by
    assumption) (hPci : B .pci := by assumption) : Confined B o (dropLong k s) := by
  unfold dropLong
  with_reducible repeat' first
    | assumption | intro _ | apply endWith_confined | apply removeLong_confined
    | refine foldl_confined _ (fun _ _ _ => ?_) _ _ ?_ | refine ite_confined _ _ ?_ ?_ | split | dsimp only

theorem markLong_confined {B : Block → Prop} {o : State} (k : LongKind) (susp : Bool) (s : State) (hs : Confined B o s) (hLfl :
    B .lfl := by assumption) : Confined B o (markLong k susp s) := by
  unfold markLong
  with_reducible repeat' first
    | assumption | intro _ | refine ite_confined _ _ ?_ ?_ | simp only [confined_lfl hLfl] | split | dsimp only

theorem settleLong_confined {B : Block → Prop} {o : State} (k : LongKind) (op : Nat) (s : State) (hs : Confined B o s) (hLfl : B
    .lfl := by assumption) (hPci : B .pci := by assumption) : Confined B o (settleLong k op s) := by
  unfold settleLong
  with_reducible repeat' first
    | assumption | intro _ | apply endWith_confined | refine foldl_confined _ (fun _ _ _ => ?_) _ _ ?_
    | refine ite_confined _ _ ?_ ?_ | simp only [confined_lfl hLfl] | split | dsimp only

end Sys2Proof.Machine
end

