-- ==== Sys2Proof/Laws/ConfinedJobOps.lean ====
section
/-! SUPPORT. The blocks of the state that each function of Machine.JobOps may change. -/

namespace Sys2Proof.Machine
open Sys2Proof Numeric

theorem setJob_confined {B : Block → Prop} {o : State} (s : State) (n : Nat) (f : Job → Job) (hs : Confined B o s) (hLfl : B
    .lfl := by assumption) : Confined B o (setJob s n f) := by
  unfold setJob
  with_reducible repeat' first | assumption | intro _ | simp only [confined_lfl hLfl] | split | dsimp only

theorem dropJob_confined {B : Block → Prop} {o : State} (s : State) (n : Nat) (hs : Confined B o s) (hLfl : B .lfl := by
    assumption) : Confined B o (dropJob s n) := by
  unfold dropJob
  with_reducible repeat' first | assumption | intro _ | apply setJob_confined | split | dsimp only

theorem retireJob_confined {B : Block → Prop} {o : State} (s : State) (n : Nat) (hs : Confined B o s) (hLfl : B .lfl := by
    assumption) : Confined B o (retireJob s n) := by
  unfold retireJob
  with_reducible repeat' first | assumption | intro _ | apply setJob_confined | split | dsimp only

theorem addJob_confined {B : Block → Prop} {o : State} (j : Job) (s : State) (hs : Confined B o s) (hLfl : B .lfl := by
    assumption) : Confined B o (addJob j s) := by
  unfold addJob
  with_reducible repeat' first | assumption | intro _ | simp only [confined_lfl hLfl] | split | dsimp only

theorem finishHostJob_confined {B : Block → Prop} {o : State} (n : Nat) (s : State) (hs : Confined B o s) (hLfl : B .lfl := by
    assumption) (hPci : B .pci := by assumption) : Confined B o (finishHostJob n s) := by
  unfold finishHostJob
  with_reducible repeat' first
    | assumption | intro _ | apply complete_confined | apply finishLong_confined | refine ite_confined _ _ ?_ ?_ | split
    | dsimp only

theorem coreReport_confined {B : Block → Prop} {o : State} (n c : Nat) (st : BitVec 16) (detail : Word) (s : State) (hs :
    Confined B o s) (hLfl : B .lfl := by assumption) (hPci : B .pci := by assumption) : Confined B o (coreReport n c st detail
    s) := by
  unfold coreReport
  with_reducible repeat' first
    | assumption | intro _ | apply setJob_confined | apply finishHostJob_confined | refine ite_confined _ _ ?_ ?_ | split
    | dsimp only

end Sys2Proof.Machine
end

