-- ==== Sys2Proof/Laws/ConfinedDramOps.lean ====
section
/-! SUPPORT. The blocks of the state that each function of Machine.DramOps may change. -/

namespace Sys2Proof.Machine
open Sys2Proof Numeric

theorem writeLine_confined {B : Block → Prop} {o : State} (s : State) (a : Nat) (r : RowData) (hs : Confined B o s) (hMem : B
    .mem := by assumption) (hDdr : B .ddr := by assumption) : Confined B o (writeLine s a r) := by
  unfold writeLine
  with_reducible repeat' first
    | assumption | intro _ | refine ite_confined _ _ ?_ ?_ | simp only [confined_mem_ddr hMem hDdr] | split
    | dsimp only

theorem writeLines_confined {B : Block → Prop} {o : State} (s : State) (a : Nat) (rows : List RowData) (h : Confined B o s)
    (hMem : B .mem := by assumption) (hDdr : B .ddr := by assumption) :
    Confined B o (writeLines s a rows) := by
  unfold writeLines
  induction rows generalizing s a with
  | nil => exact h
  | cons r rows ih => exact ih _ _ (writeLine_confined s a r h)

theorem patchDram_confined {B : Block → Prop} {o : State} (s : State) (a : Nat) (bs : Bytes) (hs : Confined B o s) (hMem : B
    .mem := by assumption) (hDdr : B .ddr := by assumption) : Confined B o (patchDram s a bs) := by
  unfold patchDram
  with_reducible repeat' first
    | assumption | intro _ | apply writeLine_confined | refine foldl_confined _ (fun _ _ _ => ?_) _ _ ?_
    | refine ite_confined _ _ ?_ ?_ | split | dsimp only

theorem writeSram_confined {B : Block → Prop} {o : State} (s : State) (a : Nat) (r : RowData) (hs : Confined B o s) (hMem : B
    .mem := by assumption) (hGdl : B .gdl := by assumption) : Confined B o (writeSram s a r) := by
  unfold writeSram
  with_reducible repeat' first
    | assumption | intro _ | refine ite_confined _ _ ?_ ?_ | simp only [confined_mem_gdl hMem hGdl] | split
    | dsimp only

theorem clearSram_confined {B : Block → Prop} {o : State} (s : State) (a n : Nat) (hs : Confined B o s) (hMem : B .mem := by
    assumption) (hGdl : B .gdl := by assumption) : Confined B o (clearSram s a n) := by
  unfold clearSram
  with_reducible repeat' first
    | assumption | intro _ | simp only [confined_mem_gdl hMem hGdl] | split | dsimp only

end Sys2Proof.Machine
end

