-- ==== Sys2Proof/Laws/ConfinedCoreOps.lean ====
section
/-! SUPPORT. The blocks of the state that each function of Machine.CoreOps may change. -/

namespace Sys2Proof.Machine
open Sys2Proof Numeric

theorem putRow_confined {B : Block → Prop} {o : State} (c r : Nat) (bs : Bytes) (poison : Bool) (s : State) (hs : Confined B o
    s) (hCores : B .cores := by assumption) (hMem : B .mem := by assumption) : Confined B o (putRow c r bs poison s) := by
  unfold putRow
  with_reducible repeat' first | assumption | intro _ | apply setMems_confined | apply updCore_confined | split | dsimp only

theorem putRows_confined {B : Block → Prop} {o : State} (c r : Nat) (bs : Bytes) (poison : Bool) (n : Nat) (s : State) (hs :
    Confined B o s) (hCores : B .cores := by assumption) (hMem : B .mem := by assumption) : Confined B o (putRows c r bs poison
    n s) := by
  unfold putRows
  with_reducible repeat' first
    | assumption | intro _ | apply putRow_confined | refine foldl_confined _ (fun _ _ _ => ?_) _ _ ?_ | split | dsimp only

theorem putPart_confined {B : Block → Prop} {o : State} (c a : Nat) (bs : Bytes) (poison : Bool) (s : State) (hs : Confined B o
    s) (hCores : B .cores := by assumption) (hMem : B .mem := by assumption) : Confined B o (putPart c a bs poison s) := by
  unfold putPart
  with_reducible repeat' first
    | assumption | intro _ | apply setMems_confined | apply updCore_confined
    | refine foldl_confined _ (fun _ _ _ => ?_) _ _ ?_ | refine ite_confined _ _ ?_ ?_ | split | dsimp only

theorem releaseRegions_confined {B : Block → Prop} {o : State} (c : Nat) (rs : List Nat) (s : State) (hs : Confined B o s)
    (hCores : B .cores := by assumption) (hMem : B .mem := by assumption) : Confined B o (releaseRegions c rs s) := by
  unfold releaseRegions
  with_reducible repeat' first
    | assumption | intro _ | apply setMems_confined | apply updCore_confined
    | refine foldl_confined _ (fun _ _ _ => ?_) _ _ ?_ | split | dsimp only

theorem scrubCore_confined {B : Block → Prop} {o : State} (c owner : Nat) (s : State) (hs : Confined B o s) (hCores : B .cores
    := by assumption) (hMem : B .mem := by assumption) : Confined B o (scrubCore c owner s) := by
  unfold scrubCore
  with_reducible repeat' first
    | assumption | intro _ | apply setMems_confined | apply updCore_confined
    | refine foldl_confined _ (fun _ _ _ => ?_) _ _ ?_ | split | dsimp only

theorem resetCore_confined {B : Block → Prop} {o : State} (c : Nat) (s : State) (hs : Confined B o s) (hCores : B .cores := by
    assumption) (hMem : B .mem := by assumption) : Confined B o (resetCore c s) := by
  unfold resetCore
  with_reducible repeat' first | assumption | intro _ | apply setMems_confined | apply updCore_confined | split | dsimp only

theorem setRun_confined {B : Block → Prop} {o : State} (c : Nat) (f : Run → Run) (s : State) (hs : Confined B o s) (hCores : B
    .cores := by assumption) : Confined B o (setRun c f s) := by
  unfold setRun
  with_reducible repeat' first | assumption | intro _ | apply updCore_confined | split | dsimp only

theorem decodeError_confined {B : Block → Prop} {o : State} (c : Nat) (codes : List Nat) (s : State) (hs : Confined B o s)
    (hCores : B .cores := by assumption) (hFree : B .free := by assumption) : Confined B o (decodeError c codes s) := by
  unfold decodeError
  with_reducible repeat' first
    | assumption | intro _ | apply State.spend_confined | apply updCore_confined | apply setRun_confined | split | dsimp only

theorem issueError_confined {B : Block → Prop} {o : State} (c pos code : Nat) (s : State) (hs : Confined B o s) (hCores : B
    .cores := by assumption) : Confined B o (issueError c pos code s) := by
  unfold issueError
  with_reducible repeat' first | assumption | intro _ | apply updCore_confined | apply setRun_confined | split | dsimp only

theorem raisePoison_confined {B : Block → Prop} {o : State} (c i : Nat) (s : State) (hs : Confined B o s) (hCores : B .cores :=
    by assumption) : Confined B o (raisePoison c i s) := by
  unfold raisePoison
  with_reducible repeat' first | assumption | intro _ | apply updCore_confined | apply setRun_confined | split | dsimp only

theorem decodeQueued_confined {B : Block → Prop} {o : State} (c : Nat) (opc : Nat → Bool) (sel : Op → Bool) (s : State) (hs :
    Confined B o s) (hCores : B .cores := by assumption) (hFree : B .free := by assumption) : Confined B o (decodeQueued c opc
    sel s) := by
  unfold decodeQueued
  with_reducible repeat' first
    | assumption | intro _ | apply setRun_confined | apply decodeError_confined | refine ite_confined _ _ ?_ ?_ | split
    | dsimp only

theorem popHead_confined {B : Block → Prop} {o : State} (c : Nat) (s : State) (hs : Confined B o s) (hCores : B .cores := by
    assumption) : Confined B o (popHead c s) := by
  unfold popHead
  with_reducible repeat' first | assumption | intro _ | apply setRun_confined | split | dsimp only

theorem returnLast_confined {B : Block → Prop} {o : State} (c : Nat) (rows : List Nat) (s : State) (hs : Confined B o s) (hCores
    : B .cores := by assumption) : Confined B o (returnLast c rows s) := by
  unfold returnLast
  with_reducible repeat' first | assumption | intro _ | apply updCore_confined | split | dsimp only

theorem headCheck_confined {B : Block → Prop} {o : State} (c : Nat) (r : Run) (q : QOp) (s t : State) (h : headCheck c r q s =
    some t) (hk : Confined B o s) (hCores : B .cores := by assumption) : Confined B o t := by
  unfold headCheck at h
  split at h <;> simp only [Option.some.injEq, reduceCtorEq] at h <;> subst h
  · exact setRun_confined _ _ _ hk
  · exact issueError_confined _ _ _ _ hk

theorem issueRows_confined {B : Block → Prop} {o : State} (c : Nat) (sel : Op → Bool) (acc : Op → List Nat) (f : QOp → Bool →
    State → State) (s : State)
    (hf : ∀ q p s, Confined B o s → Confined B o (f q p s)) (h : Confined B o s) (hCores : B .cores := by assumption) (hFree : B
      .free := by assumption) : Confined B o (issueRows c sel acc f s) := by
  unfold issueRows
  split
  · exact h
  · split
    · next hc => exact headCheck_confined _ _ _ _ _ hc h
    · dsimp only
      split
      · exact h
      · refine State.spend_confined _ ?_
        apply ite_confined
        · exact raisePoison_confined _ _ _ (returnLast_confined _ _ _ (hf _ _ _ (updCore_confined _ _ _ (popHead_confined _ _
      h))))
        · exact returnLast_confined _ _ _ (hf _ _ _ (updCore_confined _ _ _ (popHead_confined _ _ h)))

theorem settleSuspend_confined {B : Block → Prop} {o : State} (c : Nat) (s : State) (hs : Confined B o s) (hCores : B .cores :=
    by assumption) (hLfl : B .lfl := by assumption) (hPci : B .pci := by assumption) : Confined B o (settleSuspend c s) := by
  unfold settleSuspend
  with_reducible repeat' first
    | assumption | intro _ | apply updCore_confined | apply markLong_confined | apply settleLong_confined
    | apply setJob_confined | refine ite_confined _ _ ?_ ?_ | split | dsimp only

theorem endRegions_confined {B : Block → Prop} {o : State} (c : Nat) (r : Run) (held : List Nat) (ok : Bool) (s : State) (hs :
    Confined B o s) (hCores : B .cores := by assumption) (hMem : B .mem := by assumption) : Confined B o (endRegions c r held ok
    s) := by
  unfold endRegions
  with_reducible repeat' first
    | assumption | intro _ | apply updCore_confined | apply releaseRegions_confined | refine ite_confined _ _ ?_ ?_ | split
    | dsimp only

theorem leavePartition_confined {B : Block → Prop} {o : State} (c : Nat) (s : State) (hs : Confined B o s) (hCores : B .cores :=
    by assumption) (hMem : B .mem := by assumption) : Confined B o (leavePartition c s) := by
  unfold leavePartition
  with_reducible repeat' first
    | assumption | intro _ | apply releaseRegions_confined | refine ite_confined _ _ ?_ ?_ | split | dsimp only

theorem dropKept_confined {B : Block → Prop} {o : State} (c : Nat) (st : BitVec 16) (s : State) (hs : Confined B o s) (hCores :
    B .cores := by assumption) (hMem : B .mem := by assumption) (hLfl : B .lfl := by assumption) (hPci : B .pci := by
    assumption) : Confined B o (dropKept c st s) := by
  unfold dropKept
  with_reducible repeat' first
    | assumption | intro _ | apply updCore_confined | apply coreReport_confined | apply endRegions_confined
    | apply leavePartition_confined | split | dsimp only

theorem cancelCores_confined {B : Block → Prop} {o : State} (n : Nat) (st : BitVec 16) (s : State) (hs : Confined B o s) (hCores
    : B .cores := by assumption) (hMem : B .mem := by assumption) (hLfl : B .lfl := by assumption) (hPci : B .pci := by
    assumption) : Confined B o (cancelCores n st s) := by
  unfold cancelCores
  with_reducible repeat' first
    | assumption | intro _ | apply updCore_confined | apply coreReport_confined | apply setRun_confined
    | apply leavePartition_confined | apply dropKept_confined | refine foldl_confined _ (fun _ _ _ => ?_) _ _ ?_
    | refine ite_confined _ _ ?_ ?_ | split | dsimp only

theorem reportEnd_confined {B : Block → Prop} {o : State} (n c : Nat) (st : BitVec 16) (detail : Word) (s : State) (hs :
    Confined B o s) (hCores : B .cores := by assumption) (hMem : B .mem := by assumption) (hLfl : B .lfl := by assumption) (hPci
    : B .pci := by assumption) : Confined B o (reportEnd n c st detail s) := by
  unfold reportEnd
  with_reducible repeat' first
    | assumption | intro _ | apply coreReport_confined | apply cancelCores_confined | refine ite_confined _ _ ?_ ?_ | split
    | dsimp only

theorem endRun_confined {B : Block → Prop} {o : State} (c : Nat) (s : State) (hs : Confined B o s) (hCores : B .cores := by
    assumption) (hMem : B .mem := by assumption) (hLfl : B .lfl := by assumption) (hPci : B .pci := by assumption) : Confined B
    o (endRun c s) := by
  unfold endRun
  with_reducible repeat' first
    | assumption | intro _ | apply updCore_confined | apply endRegions_confined | apply leavePartition_confined
    | apply reportEnd_confined | split | dsimp only

theorem killCore_confined {B : Block → Prop} {o : State} (c : Nat) (st : BitVec 16) (s : State) (hs : Confined B o s) (hCores :
    B .cores := by assumption) (hMem : B .mem := by assumption) (hLfl : B .lfl := by assumption) (hPci : B .pci := by
    assumption) : Confined B o (killCore c st s) := by
  unfold killCore
  with_reducible repeat' first | assumption | intro _ | apply updCore_confined | apply reportEnd_confined | split | dsimp only

end Sys2Proof.Machine
end

