-- ==== Sys2Proof/Laws/ConfinedCoreFetch.lean ====
section
/-! SUPPORT. The blocks of the state that each function of Machine.CoreFetch may change. -/

namespace Sys2Proof.Machine
open Sys2Proof Numeric

theorem startJob_confined {B : Block → Prop} {o : State} (c : Nat) (s : State) (hs : Confined B o s) (hCores : B .cores := by
    assumption) (hMem : B .mem := by assumption) (hLfl : B .lfl := by assumption) (hPci : B .pci := by assumption) : Confined B
    o (startJob c s) := by
  unfold startJob
  with_reducible repeat' first
    | assumption | intro _ | apply updCore_confined | apply scrubCore_confined | apply settleSuspend_confined
    | refine ite_confined _ _ ?_ ?_ | split | dsimp only

theorem loadFails_confined {B : Block → Prop} {o : State} (c : Nat) (st : BitVec 16) (detail : Word) (s : State) (hs : Confined
    B o s) (hCores : B .cores := by assumption) : Confined B o (loadFails c st detail s) := by
  unfold loadFails
  with_reducible repeat' first | assumption | intro _ | apply setRun_confined | split | dsimp only

theorem loadPoisoned_confined {B : Block → Prop} {o : State} (c : Nat) (s : State) (hs : Confined B o s) (hCores : B .cores :=
    by assumption) : Confined B o (loadPoisoned c s) := by
  unfold loadPoisoned
  with_reducible repeat' first | assumption | intro _ | apply updCore_confined | apply loadFails_confined | split | dsimp only

theorem landProgram_confined {B : Block → Prop} {o : State} (c : Nat) (r : Run) (s : State) (hs : Confined B o s) (hCores : B
    .cores := by assumption) (hMem : B .mem := by assumption) : Confined B o (landProgram c r s) := by
  unfold landProgram
  with_reducible repeat' first
    | assumption | intro _ | apply setMems_confined | apply updCore_confined | apply setRun_confined
    | apply loadFails_confined | apply loadPoisoned_confined | refine ite_confined _ _ ?_ ?_ | split | dsimp only

theorem landReside_confined {B : Block → Prop} {o : State} (c : Nat) (r : Run) (first count addr : Nat) (s : State) (hs :
    Confined B o s) (hCores : B .cores := by assumption) (hMem : B .mem := by assumption) : Confined B o (landReside c r first
    count addr s) := by
  unfold landReside
  with_reducible repeat' first
    | assumption | intro _ | apply updCore_confined | apply putRow_confined | apply setRun_confined | apply loadFails_confined
    | apply loadPoisoned_confined | refine foldl_confined _ (fun _ _ _ => ?_) _ _ ?_ | refine ite_confined _ _ ?_ ?_ | split
    | dsimp only

theorem decodeEnd_confined {B : Block → Prop} {o : State} (c : Nat) (s : State) (hs : Confined B o s) (hCores : B .cores := by
    assumption) (hFree : B .free := by assumption) : Confined B o (decodeEnd c s) := by
  unfold decodeEnd
  with_reducible repeat' first
    | assumption | intro _ | apply setRun_confined | apply decodeError_confined | refine ite_confined _ _ ?_ ?_ | split
    | dsimp only

theorem issueFetch_confined {B : Block → Prop} {o : State} (c : Nat) (r : Run) (f : FetchOp) (s : State) (hs : Confined B o s)
    (hCores : B .cores := by assumption) (hAudit : B .audit := by assumption) (hPci : B .pci := by assumption) (hBoot : B .boot
    := by assumption) (hFree : B .free := by assumption) : Confined B o (issueFetch c r f s) := by
  unfold issueFetch
  with_reducible repeat' first
    | assumption | intro _ | apply State.spend_confined | apply conserve_confined | apply updCore_confined
    | apply setRun_confined | refine ite_confined _ _ ?_ ?_ | split | dsimp only

theorem decodeFetchOp_confined {B : Block → Prop} {o : State} (c : Nat) (r : Run) (f : FetchOp) (s : State) (hs : Confined B o
    s) (hCores : B .cores := by assumption) (hAudit : B .audit := by assumption) (hPci : B .pci := by assumption) (hBoot : B
    .boot := by assumption) (hFree : B .free := by assumption) : Confined B o (decodeFetchOp c r f s) := by
  unfold decodeFetchOp
  with_reducible repeat' first
    | assumption | intro _ | apply State.spend_confined | apply setRun_confined | apply decodeError_confined
    | apply issueFetch_confined | refine ite_confined _ _ ?_ ?_ | split | dsimp only

theorem rowFinding_confined {B : Block → Prop} {o : State} (c row : Nat) (f : Finding) (s : State) (hs : Confined B o s) (hCores
    : B .cores := by assumption) : Confined B o (rowFinding c row f s) := by
  unfold rowFinding
  with_reducible repeat' first | assumption | intro _ | apply updCore_confined | split | dsimp only

theorem countFetched_confined {B : Block → Prop} {o : State} (x : Transfer) (s : State) (hs : Confined B o s) (hGdl : B .gdl :=
    by assumption) : Confined B o (countFetched x s) := by
  unfold countFetched
  with_reducible repeat' first
    | assumption | intro _ | refine ite_confined _ _ ?_ ?_ | simp only [confined_gdl hGdl] | split | dsimp only

theorem setTransfer_confined {B : Block → Prop} {o : State} (c : Nat) (x : Transfer) (s : State) (hs : Confined B o s) (hCores :
    B .cores := by assumption) : Confined B o (setTransfer c x s) := by
  unfold setTransfer
  with_reducible repeat' first | assumption | intro _ | apply setRun_confined | split | dsimp only

theorem landRow_confined {B : Block → Prop} {o : State} (c : Nat) (r : Run) (x : Transfer) (d : RowData) (f : Finding) (s :
    State) (hs : Confined B o s) (hCores : B .cores := by assumption) (hMem : B .mem := by assumption) (hGdl : B .gdl := by
    assumption) (hLfl : B .lfl := by assumption) (hPci : B .pci := by assumption) : Confined B o (landRow c r x d f s) := by
  unfold landRow
  with_reducible repeat' first
    | assumption | intro _ | apply putRow_confined | apply settleSuspend_confined | apply rowFinding_confined
    | apply countFetched_confined | apply setTransfer_confined | refine ite_confined _ _ ?_ ?_ | split | dsimp only

theorem decodeOwn_confined {B : Block → Prop} {o : State} (c opc : Nat) (f : Op → Run → State → State) (s : State)
    (hf : ∀ op r s, Confined B o s → Confined B o (f op r s)) (hmem : Confined B o s) (hCores : B .cores := by assumption)
      (hFree : B .free := by assumption) : Confined B o (decodeOwn c opc f s) := by
  unfold decodeOwn
  with_reducible repeat' first | assumption | apply hf | apply decodeError_confined | split | dsimp only

theorem runLoop_confined {B : Block → Prop} {o : State} (c count body : Nat) (incs : List Int) (r : Run) (s : State) (hs :
    Confined B o s) (hCores : B .cores := by assumption) (hFree : B .free := by assumption) : Confined B o (runLoop c count body
    incs r s) := by
  unfold runLoop
  with_reducible repeat' first
    | assumption | intro _ | apply setRun_confined | apply decodeError_confined | refine ite_confined _ _ ?_ ?_ | split
    | dsimp only

end Sys2Proof.Machine
end

