-- ==== Sys2Proof/Laws/ConfinedGondola.lean ====
section
/-! SUPPORT. The blocks of the state that each function of Machine.Gondola may change. -/

namespace Sys2Proof.Machine
open Sys2Proof Numeric

theorem setVersion_confined {B : Block → Prop} {o : State} (s : State) (e : Nat) (f : Version → Version) (hs : Confined B o s)
    (hLfl : B .lfl := by assumption) : Confined B o (setVersion s e f) := by
  unfold setVersion
  with_reducible repeat' first | assumption | intro _ | simp only [confined_lfl hLfl] | split | dsimp only

theorem setRegionEntry_confined {B : Block → Prop} {o : State} (e : Nat) (r : RegionEntry) (s : State) (hs : Confined B o s)
    (hGdl : B .gdl := by assumption) : Confined B o (setRegionEntry e r s) := by
  unfold setRegionEntry
  with_reducible repeat' first | assumption | intro _ | simp only [confined_gdl hGdl] | split | dsimp only

theorem regionSelect_confined {B : Block → Prop} {o : State} (v : Word) (s : State) (hs : Confined B o s) (hGdl : B .gdl := by
    assumption) : Confined B o (regionSelect v s) := by
  unfold regionSelect
  with_reducible repeat' first
    | assumption | intro _ | apply setRegionEntry_confined | refine ite_confined _ _ ?_ ?_ | simp only [confined_gdl hGdl]
    | split | dsimp only

theorem setPass_confined {B : Block → Prop} {o : State} (p : Nat) (f : GdlPass → GdlPass) (s : State) (hs : Confined B o s)
    (hGdl : B .gdl := by assumption) : Confined B o (setPass p f s) := by
  unfold setPass
  with_reducible repeat' first | assumption | intro _ | simp only [confined_gdl hGdl] | split | dsimp only

theorem setBuf_confined {B : Block → Prop} {o : State} (e : Nat) (b : Option BufEntry) (s : State) (hs : Confined B o s) (hGdl :
    B .gdl := by assumption) : Confined B o (setBuf e b s) := by
  unfold setBuf
  with_reducible repeat' first | assumption | intro _ | simp only [confined_gdl hGdl] | split | dsimp only

theorem noteBlock_confined {B : Block → Prop} {o : State} (a : Nat) (c : Option BlockCount) (s : State) (hs : Confined B o s)
    (hGdl : B .gdl := by assumption) : Confined B o (noteBlock a c s) := by
  unfold noteBlock
  with_reducible repeat' first | assumption | intro _ | simp only [confined_gdl hGdl] | split | dsimp only

theorem startTile_confined {B : Block → Prop} {o : State} (p e : Nat) (s : State) (hs : Confined B o s) (hGdl : B .gdl := by
    assumption) : Confined B o (startTile p e s) := by
  unfold startTile
  with_reducible repeat' first
    | assumption | intro _ | apply complete_confined | apply setPass_confined | apply setBuf_confined
    | apply noteBlock_confined | refine foldl_confined _ (fun _ _ _ => ?_) _ _ ?_ | refine ite_confined _ _ ?_ ?_ | split
    | dsimp only

theorem startImages_confined {B : Block → Prop} {o : State} (p e : Nat) (s : State) (hs : Confined B o s) (hGdl : B .gdl := by
    assumption) : Confined B o (startImages p e s) := by
  unfold startImages
  with_reducible repeat' first
    | assumption | intro _ | apply complete_confined | apply setPass_confined | apply setBuf_confined
    | refine ite_confined _ _ ?_ ?_ | split | dsimp only

theorem setSlot_confined {B : Block → Prop} {o : State} (i : Nat) (f : TableSlot → TableSlot) (s : State) (hs : Confined B o s)
    (hGdl : B .gdl := by assumption) : Confined B o (setSlot i f s) := by
  unfold setSlot
  with_reducible repeat' first | assumption | intro _ | simp only [confined_gdl hGdl] | split | dsimp only

theorem setExpander_confined {B : Block → Prop} {o : State} (i : Nat) (l : List ExpBlock) (s : State) (hs : Confined B o s)
    (hGdl : B .gdl := by assumption) : Confined B o (setExpander i l s) := by
  unfold setExpander
  with_reducible repeat' first | assumption | intro _ | simp only [confined_gdl hGdl] | split | dsimp only

theorem putBlock_confined {B : Block → Prop} {o : State} (x : ExpBlock) (lines : List RowData) (s : State) (hs : Confined B o s)
    (hGdl : B .gdl := by assumption) : Confined B o (putBlock x lines s) := by
  unfold putBlock
  with_reducible repeat' first
    | assumption | intro _ | apply setBuf_confined | refine ite_confined _ _ ?_ ?_ | split | dsimp only

theorem deliver_confined {B : Block → Prop} {o : State} (chan : Nat) (d : List RowData) (s : State) (c : Nat) (hs : Confined B o
    s) (hCores : B .cores := by assumption) : Confined B o (deliver chan d s c) := by
  unfold deliver
  with_reducible repeat' first | assumption | intro _ | apply setRun_confined | split | dsimp only

theorem countFallback_confined {B : Block → Prop} {o : State} (s : State) (conf : Bool) (hs : Confined B o s) (hGdl : B .gdl :=
    by assumption) : Confined B o (countFallback s conf) := by
  unfold countFallback
  with_reducible repeat' first
    | assumption | intro _ | refine ite_confined _ _ ?_ ?_ | simp only [confined_gdl hGdl] | split | dsimp only

theorem countLate_confined {B : Block → Prop} {o : State} (s : State) (conf : Bool) (hs : Confined B o s) (hGdl : B .gdl := by
    assumption) : Confined B o (countLate s conf) := by
  unfold countLate
  with_reducible repeat' first
    | assumption | intro _ | refine ite_confined _ _ ?_ ?_ | simp only [confined_gdl hGdl] | split | dsimp only

theorem served_confined {B : Block → Prop} {o : State} (entry : Nat) (b : BufEntry) (h n total : Nat) (s : State) (hs : Confined
    B o s) (hGdl : B .gdl := by assumption) : Confined B o (served entry b h n total s) := by
  unfold served
  with_reducible repeat' first
    | assumption | intro _ | apply setBuf_confined | refine ite_confined _ _ ?_ ?_ | split | dsimp only

theorem departCopy_confined {B : Block → Prop} {o : State} (entry : Nat) (b : BufEntry) (h sent : Nat) (s : State) (hs :
    Confined B o s) (hCores : B .cores := by assumption) (hGdl : B .gdl := by assumption) : Confined B o (departCopy entry b h
    sent s) := by
  unfold departCopy
  with_reducible repeat' first
    | assumption | intro _ | apply setPass_confined | apply deliver_confined | apply countFallback_confined
    | apply countLate_confined | apply served_confined | refine foldl_confined _ (fun _ _ _ => ?_) _ _ ?_
    | refine ite_confined _ _ ?_ ?_ | split | dsimp only

end Sys2Proof.Machine
end

