-- ==== Sys2Proof/Laws/ConfinedCoreExec.lean ====
section
/-! SUPPORT. The blocks of the state that each function of Machine.CoreExec may change. -/

namespace Sys2Proof.Machine
open Sys2Proof Numeric

theorem storeLine_confined {B : Block → Prop} {o : State} (kind : Nat) (s : State) (x : Nat × RowData) (hs : Confined B o s)
    (hMem : B .mem := by assumption) (hGdl : B .gdl := by assumption) (hDdr : B .ddr := by assumption) : Confined B o (storeLine
    kind s x) := by
  unfold storeLine
  with_reducible repeat' first
    | assumption | intro _ | apply writeLine_confined | apply writeSram_confined | refine ite_confined _ _ ?_ ?_ | split
    | dsimp only

theorem runStore_confined {B : Block → Prop} {o : State} (c : Nat) (st : StoreOp) (s : State) (hs : Confined B o s) (hCores : B
    .cores := by assumption) (hMem : B .mem := by assumption) (hGdl : B .gdl := by assumption) (hDdr : B .ddr := by assumption)
    : Confined B o (runStore c st s) := by
  unfold runStore
  with_reducible repeat' first
    | assumption | intro _ | apply setRun_confined | apply storeLine_confined
    | refine foldl_confined _ (fun _ _ _ => ?_) _ _ ?_ | split | dsimp only

theorem issueStore_confined {B : Block → Prop} {o : State} (c : Nat) (s : State) (hs : Confined B o s) (hCores : B .cores := by
    assumption) (hMem : B .mem := by assumption) (hGdl : B .gdl := by assumption) (hDdr : B .ddr := by assumption) (hFree : B
    .free := by assumption) : Confined B o (issueStore c s) := by
  unfold issueStore
  with_reducible repeat' first
    | assumption | intro _ | apply setRun_confined | apply issueRows_confined | apply runStore_confined
    | refine ite_confined _ _ ?_ ?_ | split | dsimp only

theorem runMove_confined {B : Block → Prop} {o : State} (c : Nat) (m : MoveOp) (p : Bool) (s : State) (hs : Confined B o s)
    (hCores : B .cores := by assumption) (hMem : B .mem := by assumption) : Confined B o (runMove c m p s) := by
  unfold runMove
  with_reducible repeat' first
    | assumption | intro _ | apply putRow_confined | refine foldl_confined _ (fun _ _ _ => ?_) _ _ ?_ | split | dsimp only

theorem runTranspose_confined {B : Block → Prop} {o : State} (c : Nat) (m : MoveOp) (p : Bool) (s : State) (hs : Confined B o s)
    (hCores : B .cores := by assumption) (hMem : B .mem := by assumption) : Confined B o (runTranspose c m p s) := by
  unfold runTranspose
  with_reducible repeat' first
    | assumption | intro _ | apply putRows_confined | refine foldl_confined _ (fun _ _ _ => ?_) _ _ ?_ | split | dsimp only

theorem issueWait_confined {B : Block → Prop} {o : State} (c : Nat) (s : State) (hs : Confined B o s) (hCores : B .cores := by
    assumption) : Confined B o (issueWait c s) := by
  unfold issueWait
  with_reducible repeat' first
    | assumption | intro _ | apply updCore_confined | apply popHead_confined | refine ite_confined _ _ ?_ ?_ | split
    | dsimp only

theorem issueSignal_confined {B : Block → Prop} {o : State} (c : Nat) (s : State) (hs : Confined B o s) (hCores : B .cores := by
    assumption) : Confined B o (issueSignal c s) := by
  unfold issueSignal
  with_reducible repeat' first
    | assumption | intro _ | apply setRun_confined | apply popHead_confined | refine ite_confined _ _ ?_ ?_ | split
    | dsimp only

theorem issueReside_confined {B : Block → Prop} {o : State} (c : Nat) (s : State) (hs : Confined B o s) (hCores : B .cores := by
    assumption) : Confined B o (issueReside c s) := by
  unfold issueReside
  with_reducible repeat' first
    | assumption | intro _ | apply setRun_confined | apply issueError_confined | apply popHead_confined
    | refine ite_confined _ _ ?_ ?_ | split | dsimp only

theorem issueUnreside_confined {B : Block → Prop} {o : State} (c : Nat) (s : State) (hs : Confined B o s) (hCores : B .cores :=
    by assumption) (hMem : B .mem := by assumption) : Confined B o (issueUnreside c s) := by
  unfold issueUnreside
  with_reducible repeat' first
    | assumption | intro _ | apply releaseRegions_confined | apply setRun_confined | apply issueError_confined
    | apply popHead_confined | split | dsimp only

theorem takeOut_confined {B : Block → Prop} {o : State} (c : Nat) (s : State) (hs : Confined B o s) (hCores : B .cores := by
    assumption) (hMem : B .mem := by assumption) (hFences : B .fences := by assumption) (hLfl : B .lfl := by assumption) (hPwr :
    B .pwr := by assumption) : Confined B o (takeOut c s) := by
  unfold takeOut
  with_reducible repeat' first
    | assumption | intro _ | apply setDom_confined | apply setTenant_confined | apply resetCore_confined
    | refine foldl_confined _ (fun _ _ _ => ?_) _ _ ?_ | simp only [confined_fences hFences] | split | dsimp only

theorem fenceCore_confined {B : Block → Prop} {o : State} (c : Nat) (s : State) (hs : Confined B o s) (hCores : B .cores := by
    assumption) (hMem : B .mem := by assumption) (hFences : B .fences := by assumption) (hLfl : B .lfl := by assumption) (hPci :
    B .pci := by assumption) (hPwr : B .pwr := by assumption) : Confined B o (fenceCore c s) := by
  unfold fenceCore
  with_reducible repeat' first
    | assumption | intro _ | apply postEvent_confined | apply postReclaim_confined | apply killCore_confined
    | apply takeOut_confined | split | dsimp only

theorem regionSelWrite_confined {B : Block → Prop} {o : State} (core : Nat) (v : Word) (s : State) (hs : Confined B o s) (hCores
    : B .cores := by assumption) : Confined B o (regionSelWrite core v s) := by
  unfold regionSelWrite
  with_reducible repeat' first | assumption | intro _ | apply updCore_confined | split | dsimp only

theorem clearNumeric_confined {B : Block → Prop} {o : State} (core : Nat) (s : State) (hs : Confined B o s) (hCores : B .cores
    := by assumption) : Confined B o (clearNumeric core s) := by
  unfold clearNumeric
  with_reducible repeat' first | assumption | intro _ | apply updCore_confined | split | dsimp only

theorem clearArray_confined {B : Block → Prop} {o : State} (core : Nat) (s : State) (hs : Confined B o s) (hCores : B .cores :=
    by assumption) : Confined B o (clearArray core s) := by
  unfold clearArray
  with_reducible repeat' first | assumption | intro _ | apply updCore_confined | split | dsimp only

end Sys2Proof.Machine
end

