-- ==== Sys2Proof/Laws/ConfinedArray.lean ====
section
/-! SUPPORT. The blocks of the state that each function of Machine.Array may change. -/

namespace Sys2Proof.Machine
open Sys2Proof Numeric

theorem setLoad_confined {B : Block → Prop} {o : State} (c i : Nat) (l : LoadState) (s : State) (hs : Confined B o s) (hCores :
    B .cores := by assumption) : Confined B o (setLoad c i l s) := by
  unfold setLoad
  with_reducible repeat' first | assumption | intro _ | apply setRun_confined | split | dsimp only

theorem runLoad_confined {B : Block → Prop} {o : State} (c i p owner : Nat) (m : MatOp) (s : State) (hs : Confined B o s)
    (hCores : B .cores := by assumption) : Confined B o (runLoad c i p owner m s) := by
  unfold runLoad
  with_reducible repeat' first
    | assumption | intro _ | apply updCore_confined | apply setRun_confined | apply raisePoison_confined
    | apply returnLast_confined | apply setLoad_confined | refine ite_confined _ _ ?_ ?_ | split | dsimp only

theorem runMatmul_confined {B : Block → Prop} {o : State} (c : Nat) (q : QOp) (s : State) (hs : Confined B o s) (hCores : B
    .cores := by assumption) : Confined B o (runMatmul c q s) := by
  unfold runMatmul
  with_reducible repeat' first
    | assumption | intro _ | apply updCore_confined | apply setRun_confined | refine ite_confined _ _ ?_ ?_ | split
    | dsimp only

theorem issueMatmul_confined {B : Block → Prop} {o : State} (c : Nat) (s : State) (hmem : Confined B o s) (hCores : B .cores :=
    by assumption) (hFree : B .free := by assumption) : Confined B o (issueMatmul c s) := by
  unfold issueMatmul
  split
  · exact hmem
  · split
    · next r q _ _ _ =>
      cases hc : headCheck c r q s with
      | none => exact hmem
      | some t => exact headCheck_confined _ _ _ _ _ hc hmem
    · exact setRun_confined _ _ _ hmem
    · exact issueError_confined _ _ _ _ hmem
    · exact issueRows_confined _ _ _ _ _ (fun q _ s h => runMatmul_confined _ _ _ h) hmem

theorem admitSlot_confined {B : Block → Prop} {o : State} (c : Nat) (a : ArrayOp) (s : State) (hs : Confined B o s) (hCores : B
    .cores := by assumption) (hLfl : B .lfl := by assumption) (hPci : B .pci := by assumption) : Confined B o (admitSlot c a s)
    := by
  unfold admitSlot
  with_reducible repeat' first
    | assumption | intro _ | apply updCore_confined | apply setRun_confined | apply settleSuspend_confined
    | refine foldl_confined _ (fun _ _ _ => ?_) _ _ ?_ | refine ite_confined _ _ ?_ ?_ | split | dsimp only

end Sys2Proof.Machine
end

