-- ==== Sys2Proof/Laws/ConfinedKvOps.lean ====
section
/-! SUPPORT. The blocks of the state that each function of Machine.KvOps may change. -/

namespace Sys2Proof.Machine
open Sys2Proof Numeric

theorem setKv_confined {B : Block → Prop} {o : State} (head : Nat) (f : KvBlock → KvBlock) (s : State) (hs : Confined B o s)
    (hLfl : B .lfl := by assumption) : Confined B o (setKv head f s) := by
  unfold setKv
  with_reducible repeat' first | assumption | intro _ | simp only [confined_lfl hLfl] | split | dsimp only

theorem setKvPool_confined {B : Block → Prop} {o : State} (f : Pool → Pool) (s : State) (hs : Confined B o s) (hAudit : B .audit
    := by assumption) (hLfl : B .lfl := by assumption) (hPci : B .pci := by assumption) (hBoot : B .boot := by assumption) :
    Confined B o (setKvPool f s) := by
  unfold setKvPool
  with_reducible repeat' first
    | assumption | intro _ | apply conserve_confined | simp only [confined_lfl hLfl] | split | dsimp only

theorem blankBlock_confined {B : Block → Prop} {o : State} (head : Nat) (s : State) (hs : Confined B o s) (hLfl : B .lfl := by
    assumption) : Confined B o (blankBlock head s) := by
  unfold blankBlock
  with_reducible repeat' first | assumption | intro _ | apply setKv_confined | split | dsimp only

theorem makeBlank_confined {B : Block → Prop} {o : State} (t n fuel : Nat) (s : State) (h : Confined B o s) (hLfl : B .lfl := by
    assumption) : Confined B o (makeBlank t n fuel s) := by
  induction fuel generalizing s with
  | zero => exact h
  | succ fuel ih =>
    unfold makeBlank
    with_reducible repeat' first | assumption | apply ih | apply blankBlock_confined | split | dsimp only

theorem allocBlock_confined {B : Block → Prop} {o : State} (t handle n req : Nat) (s : State) (hs : Confined B o s) (hAudit : B
    .audit := by assumption) (hLfl : B .lfl := by assumption) (hPci : B .pci := by assumption) (hBoot : B .boot := by
    assumption) : Confined B o ((allocBlock t handle n req s).2) := by
  unfold allocBlock
  with_reducible repeat' first
    | assumption | intro _ | apply setKv_confined | apply setKvPool_confined | apply makeBlank_confined
    | simp only [confined_lfl hLfl] | split | dsimp only

theorem addRef_confined {B : Block → Prop} {o : State} (head : Nat) (s : State) (hs : Confined B o s) (hAudit : B .audit := by
    assumption) (hLfl : B .lfl := by assumption) (hPci : B .pci := by assumption) (hBoot : B .boot := by assumption) : Confined
    B o (addRef head s) := by
  unfold addRef
  with_reducible repeat' first
    | assumption | intro _ | apply setKv_confined | apply setKvPool_confined | refine ite_confined _ _ ?_ ?_
    | simp only [confined_lfl hLfl] | split | dsimp only

theorem dropRef_confined {B : Block → Prop} {o : State} (s : State) (head : Nat) (hs : Confined B o s) (hAudit : B .audit := by
    assumption) (hLfl : B .lfl := by assumption) (hPci : B .pci := by assumption) (hBoot : B .boot := by assumption) : Confined
    B o (dropRef s head) := by
  unfold dropRef
  with_reducible repeat' first
    | assumption | intro _ | apply setKv_confined | apply setKvPool_confined | apply blankBlock_confined
    | refine ite_confined _ _ ?_ ?_ | split | dsimp only

theorem dropRefs_confined {B : Block → Prop} {o : State} (l : List Nat) (s : State) (hs : Confined B o s) (hAudit : B .audit :=
    by assumption) (hLfl : B .lfl := by assumption) (hPci : B .pci := by assumption) (hBoot : B .boot := by assumption) :
    Confined B o (dropRefs l s) := by
  unfold dropRefs
  with_reducible repeat' first
    | assumption | intro _ | apply dropRef_confined | refine foldl_confined _ (fun _ _ _ => ?_) _ _ ?_ | split | dsimp only

theorem insertIndex_confined {B : Block → Prop} {o : State} (head draw hash : Nat) (s : State) (hs : Confined B o s) (hLfl : B
    .lfl := by assumption) : Confined B o (insertIndex head draw hash s) := by
  unfold insertIndex
  with_reducible repeat' first
    | assumption | intro _ | apply setKv_confined | apply blankBlock_confined | refine ite_confined _ _ ?_ ?_
    | simp only [confined_lfl hLfl] | split | dsimp only

theorem dropVersionBlocks_confined {B : Block → Prop} {o : State} (handle : Nat) (s : State) (hs : Confined B o s) (hLfl : B
    .lfl := by assumption) : Confined B o (dropVersionBlocks handle s) := by
  unfold dropVersionBlocks
  with_reducible repeat' first
    | assumption | intro _ | apply setKv_confined | apply blankBlock_confined
    | refine foldl_confined _ (fun _ _ _ => ?_) _ _ ?_ | refine ite_confined _ _ ?_ ?_ | split | dsimp only

theorem writeEntry_confined {B : Block → Prop} {o : State} (g : Geom) (page rec i : Nat) (s : State) (hs : Confined B o s) (hMem
    : B .mem := by assumption) (hDdr : B .ddr := by assumption) : Confined B o ((writeEntry g page rec i s).1) := by
  unfold writeEntry
  with_reducible repeat' first
    | assumption | intro _ | apply writeLines_confined | apply patchDram_confined
    | refine foldl_confined _ (fun _ _ _ => ?_) _ _ ?_ | refine ite_confined _ _ ?_ ?_ | split | dsimp only

theorem writeSummary_confined {B : Block → Prop} {o : State} (g : Geom) (page : Nat) (s : State) (hs : Confined B o s) (hMem : B
    .mem := by assumption) (hDdr : B .ddr := by assumption) : Confined B o (writeSummary g page s) := by
  unfold writeSummary
  with_reducible repeat' first
    | assumption | intro _ | apply patchDram_confined | refine ite_confined _ _ ?_ ?_ | split | dsimp only

theorem writeMap_confined {B : Block → Prop} {o : State} (ms : Nat) (blocks : List Nat) (s : State) (hs : Confined B o s) (hMem
    : B .mem := by assumption) (hDdr : B .ddr := by assumption) : Confined B o (writeMap ms blocks s) := by
  unfold writeMap
  with_reducible repeat' first | assumption | intro _ | apply writeLines_confined | split | dsimp only

theorem copyBlock_confined {B : Block → Prop} {o : State} (t handle n req old committed : Nat) (g : Geom) (s : State) (hs :
    Confined B o s) (hMem : B .mem := by assumption) (hAudit : B .audit := by assumption) (hDdr : B .ddr := by assumption) (hLfl
    : B .lfl := by assumption) (hPci : B .pci := by assumption) (hBoot : B .boot := by assumption) : Confined B o ((copyBlock t
    handle n req old committed g s).2) := by
  unfold copyBlock
  with_reducible repeat' first
    | assumption | intro _ | apply writeLines_confined | apply setKv_confined | apply allocBlock_confined
    | apply dropRef_confined | refine foldl_confined _ (fun _ _ _ => ?_) _ _ ?_ | refine ite_confined _ _ ?_ ?_
    | simp only [confined_lfl hLfl] | split | dsimp only

theorem writableBlock_confined {B : Block → Prop} {o : State} (t n req p : Nat) (g : Geom) (q : Sequence) (s : State) (hs :
    Confined B o s) (hMem : B .mem := by assumption) (hAudit : B .audit := by assumption) (hDdr : B .ddr := by assumption) (hLfl
    : B .lfl := by assumption) (hPci : B .pci := by assumption) (hBoot : B .boot := by assumption) : Confined B o
    ((writableBlock t n req p g q s).2) := by
  unfold writableBlock
  with_reducible repeat' first
    | assumption | intro _ | apply allocBlock_confined | apply copyBlock_confined | refine ite_confined _ _ ?_ ?_ | split
    | dsimp only

theorem appendOne_confined {B : Block → Prop} {o : State} (t n req p rowAt : Nat) (g : Geom) (acc : Sequence × State × Nat)
    (hmem : Confined B o acc.2.1) (hMem : B .mem := by assumption) (hAudit : B .audit := by assumption) (hDdr : B .ddr := by
    assumption) (hLfl : B .lfl := by assumption) (hPci : B .pci := by assumption) (hBoot : B .boot := by assumption) :
    Confined B o (appendOne t n req p rowAt g acc).2.1 := by
  unfold appendOne
  refine setKv_confined _ _ _ ?_
  refine foldl_keeps (fun (x : State × Nat) => Confined B o x.1) _ (fun a l h => ?_) _ _ ?_
  · exact writeEntry_confined _ _ _ _ _ h
  · exact writableBlock_confined _ _ _ _ _ _ _ hmem

theorem commitSeq_confined {B : Block → Prop} {o : State} (t n len held slotNo : Nat) (draft : Bool) (g : Geom) (toks : List
    Word) (q : Sequence) (s : State) (hs : Confined B o s) (hMem : B .mem := by assumption) (hAudit : B .audit := by assumption)
    (hDdr : B .ddr := by assumption) (hLfl : B .lfl := by assumption) (hPci : B .pci := by assumption) (hBoot : B .boot := by
    assumption) : Confined B o ((commitSeq t n len held slotNo draft g toks q s).2) := by
  unfold commitSeq
  with_reducible repeat' first
    | assumption | intro _ | apply setKv_confined | apply dropRefs_confined | apply insertIndex_confined
    | apply writeSummary_confined | apply writeMap_confined | refine foldl_confined _ (fun _ _ _ => ?_) _ _ ?_
    | refine ite_confined _ _ ?_ ?_ | split | dsimp only

theorem storeQuery_confined {B : Block → Prop} {o : State} (ms n rowAt : Nat) (g : Geom) (s : State) (hs : Confined B o s) (hMem
    : B .mem := by assumption) (hDdr : B .ddr := by assumption) : Confined B o (storeQuery ms n rowAt g s) := by
  unfold storeQuery
  with_reducible repeat' first
    | assumption | intro _ | apply writeLines_confined | refine foldl_confined _ (fun _ _ _ => ?_) _ _ ?_ | split | dsimp only

end Sys2Proof.Machine
end

