-- ==== Sys2Proof/Laws/ConfinedVersionOps.lean ====
section
/-! SUPPORT. The blocks of the state that each function of Machine.VersionOps may change. -/

namespace Sys2Proof.Machine
open Sys2Proof Numeric

theorem activateVersion_confined {B : Block → Prop} {o : State} (e : Nat) (s : State) (hs : Confined B o s) (hMem : B .mem := by
    assumption) (hGdl : B .gdl := by assumption) (hLfl : B .lfl := by assumption) : Confined B o ((activateVersion e s).2) := by
  unfold activateVersion
  with_reducible repeat' first
    | assumption | intro _ | apply writeSram_confined | apply setVersion_confined
    | refine foldl_confined _ (fun _ _ _ => ?_) _ _ ?_ | refine ite_confined _ _ ?_ ?_ | split | dsimp only

theorem refVersion_confined {B : Block → Prop} {o : State} (h : Nat) (s : State) (hs : Confined B o s) (hLfl : B .lfl := by
    assumption) : Confined B o (refVersion h s) := by
  unfold refVersion
  with_reducible repeat' first | assumption | intro _ | apply setVersion_confined | split | dsimp only

theorem unrefVersion_confined {B : Block → Prop} {o : State} (n k : Nat) (s : State) (h : Confined B o s) (hLfl : B .lfl := by
    assumption) : Confined B o (unrefVersion n k s) := by
  induction n generalizing s k with
  | zero => exact h
  | succ n ih =>
    unfold unrefVersion
    with_reducible repeat' first
      | assumption | apply ih | apply setVersion_confined | apply dropVersionBlocks_confined | split | dsimp only

theorem unref_confined {B : Block → Prop} {o : State} (h : Nat) (s : State) (hs : Confined B o s) (hLfl : B .lfl := by
    assumption) : Confined B o (unref h s) := by
  unfold unref
  with_reducible repeat' first
    | assumption | intro _ | apply unrefVersion_confined | refine ite_confined _ _ ?_ ?_ | split | dsimp only

theorem unbindSlot_confined {B : Block → Prop} {o : State} (t slot : Nat) (s : State) (hs : Confined B o s) (hLfl : B .lfl := by
    assumption) : Confined B o (unbindSlot t slot s) := by
  unfold unbindSlot
  with_reducible repeat' first
    | assumption | intro _ | apply setTenant_confined | apply setVersion_confined | apply unref_confined
    | refine ite_confined _ _ ?_ ?_ | split | dsimp only

theorem bindSlot_confined {B : Block → Prop} {o : State} (t slot h : Nat) (s : State) (hs : Confined B o s) (hLfl : B .lfl := by
    assumption) : Confined B o (bindSlot t slot h s) := by
  unfold bindSlot
  with_reducible repeat' first
    | assumption | intro _ | apply setTenant_confined | apply setVersion_confined | apply refVersion_confined
    | apply unref_confined | refine ite_confined _ _ ?_ ?_ | split | dsimp only

theorem discardVersion_confined {B : Block → Prop} {o : State} (e : Nat) (s : State) (hs : Confined B o s) (hLfl : B .lfl := by
    assumption) : Confined B o (discardVersion e s) := by
  unfold discardVersion
  with_reducible repeat' first
    | assumption | intro _ | apply setVersion_confined | apply dropVersionBlocks_confined | split | dsimp only

end Sys2Proof.Machine
end

