-- ==== Sys2Proof/Laws/ConfinedStreamOps.lean ====
section
/-! SUPPORT. The blocks of the state that each function of Machine.StreamOps may change. -/

namespace Sys2Proof.Machine
open Sys2Proof Numeric

theorem zeroUnits_confined {B : Block → Prop} {o : State} (us : List Nat) (s : State) (hs : Confined B o s) (hMem : B .mem := by
    assumption) (hGdl : B .gdl := by assumption) : Confined B o (zeroUnits us s) := by
  unfold zeroUnits
  with_reducible repeat' first
    | assumption | intro _ | apply clearSram_confined | refine foldl_confined _ (fun _ _ _ => ?_) _ _ ?_ | split | dsimp only

theorem wakeChunks_confined {B : Block → Prop} {o : State} (c : Nat) (s : State) (hs : Confined B o s) (hSfe : B .sfe := by
    assumption) : Confined B o (wakeChunks c s) := by
  unfold wakeChunks
  with_reducible repeat' first
    | assumption | intro _ | apply setCtx_confined | refine ite_confined _ _ ?_ ?_ | split | dsimp only

theorem startSwapOut_confined {B : Block → Prop} {o : State} (c : Nat) (s : State) (hs : Confined B o s) (hSfe : B .sfe := by
    assumption) : Confined B o (startSwapOut c s) := by
  unfold startSwapOut
  with_reducible repeat' first | assumption | intro _ | apply setCtx_confined | split | dsimp only

theorem tryGrant_confined {B : Block → Prop} {o : State} (s : State) (c : Nat) (hs : Confined B o s) (hMem : B .mem := by
    assumption) (hGdl : B .gdl := by assumption) (hSfe : B .sfe := by assumption) : Confined B o (tryGrant s c) := by
  unfold tryGrant
  with_reducible repeat' first
    | assumption | intro _ | apply setCtx_confined | apply zeroUnits_confined | apply wakeChunks_confined
    | apply startSwapOut_confined | refine ite_confined _ _ ?_ ?_ | split | dsimp only

theorem evalNeeds_confined {B : Block → Prop} {o : State} (t : Nat) (s : State) (hs : Confined B o s) (hMem : B .mem := by
    assumption) (hGdl : B .gdl := by assumption) (hSfe : B .sfe := by assumption) : Confined B o (evalNeeds t s) := by
  unfold evalNeeds
  with_reducible repeat' first
    | assumption | intro _ | apply tryGrant_confined | refine foldl_confined _ (fun _ _ _ => ?_) _ _ ?_
    | refine ite_confined _ _ ?_ ?_ | split | dsimp only

theorem requestState_confined {B : Block → Prop} {o : State} (c : Nat) (s : State) (hs : Confined B o s) (hMem : B .mem := by
    assumption) (hGdl : B .gdl := by assumption) (hSfe : B .sfe := by assumption) : Confined B o (requestState c s) := by
  unfold requestState
  with_reducible repeat' first | assumption | intro _ | apply setCtx_confined | apply tryGrant_confined | split | dsimp only

theorem settleSwap_confined {B : Block → Prop} {o : State} (c : Nat) (s : State) (hs : Confined B o s) (hSfe : B .sfe := by
    assumption) : Confined B o (settleSwap c s) := by
  unfold settleSwap
  with_reducible repeat' first
    | assumption | intro _ | apply startSwapOut_confined | refine ite_confined _ _ ?_ ?_ | split | dsimp only

theorem takeReady_confined {B : Block → Prop} {old : State} (c p : Nat) (o : OpInst) (s : State) (hs : Confined B old s) (hMem :
    B .mem := by assumption) (hGdl : B .gdl := by assumption) (hSfe : B .sfe := by assumption) : Confined B old (takeReady c p o
    s) := by
  unfold takeReady
  with_reducible repeat' first
    | assumption | intro _ | apply setCtx_confined | apply requestState_confined | split | dsimp only

theorem makeReady_confined {B : Block → Prop} {o : State} (c : Nat) (s : State) (hs : Confined B o s) (hMem : B .mem := by
    assumption) (hGdl : B .gdl := by assumption) (hSfe : B .sfe := by assumption) : Confined B o (makeReady c s) := by
  unfold makeReady
  with_reducible repeat' first
    | assumption | intro _ | apply takeReady_confined | refine foldl_confined _ (fun _ _ _ => ?_) _ _ ?_ | split | dsimp only

theorem setStreamPool_confined {B : Block → Prop} {o : State} (f : Pool → Pool) (s : State) (hs : Confined B o s) (hAudit : B
    .audit := by assumption) (hSfe : B .sfe := by assumption) (hPci : B .pci := by assumption) (hBoot : B .boot := by
    assumption) : Confined B o (setStreamPool f s) := by
  unfold setStreamPool
  with_reducible repeat' first
    | assumption | intro _ | apply conserve_confined | simp only [confined_sfe hSfe] | split | dsimp only

theorem releaseRow_confined {B : Block → Prop} {o : State} (c : Nat) (s : State) (k : Nat) (hs : Confined B o s) (hAudit : B
    .audit := by assumption) (hSfe : B .sfe := by assumption) (hPci : B .pci := by assumption) (hBoot : B .boot := by
    assumption) : Confined B o (releaseRow c s k) := by
  unfold releaseRow
  with_reducible repeat' first
    | assumption | intro _ | apply setCtx_confined | apply setStreamPool_confined | refine ite_confined _ _ ?_ ?_ | split
    | dsimp only

theorem releaseFrames_confined {B : Block → Prop} {o : State} (c : Nat) (fs : List Frame) (s : State) (hs : Confined B o s)
    (hAudit : B .audit := by assumption) (hSfe : B .sfe := by assumption) (hPci : B .pci := by assumption) (hBoot : B .boot :=
    by assumption) : Confined B o (releaseFrames c fs s) := by
  unfold releaseFrames
  with_reducible repeat' first
    | assumption | intro _ | apply releaseRow_confined | refine foldl_confined _ (fun _ _ _ => ?_) _ _ ?_ | split | dsimp only

theorem discardFlights_confined {B : Block → Prop} {o : State} (c : Nat) (s : State) (hs : Confined B o s) (hLfl : B .lfl := by
    assumption) : Confined B o (discardFlights c s) := by
  unfold discardFlights
  with_reducible repeat' first
    | assumption | intro _ | refine ite_confined _ _ ?_ ?_ | simp only [confined_lfl hLfl] | split | dsimp only

theorem dropLoose_confined {B : Block → Prop} {o : State} (c : Nat) (s : State) (hs : Confined B o s) (hAudit : B .audit := by
    assumption) (hSfe : B .sfe := by assumption) (hPci : B .pci := by assumption) (hBoot : B .boot := by assumption) : Confined
    B o (dropLoose c s) := by
  unfold dropLoose
  with_reducible repeat' first
    | assumption | intro _ | apply setCtx_confined | apply releaseFrames_confined
    | refine foldl_confined _ (fun _ _ _ => ?_) _ _ ?_ | refine ite_confined _ _ ?_ ?_ | split | dsimp only

theorem resetMark_confined {B : Block → Prop} {o : State} (c : Nat) (s : State) (hs : Confined B o s) (hAudit : B .audit := by
    assumption) (hLfl : B .lfl := by assumption) (hSfe : B .sfe := by assumption) (hPci : B .pci := by assumption) (hBoot : B
    .boot := by assumption) : Confined B o (resetMark c s) := by
  unfold resetMark
  with_reducible repeat' first
    | assumption | intro _ | apply setCtx_confined | apply discardFlights_confined | apply dropLoose_confined
    | refine ite_confined _ _ ?_ ?_ | split | dsimp only

theorem loseFrame_confined {B : Block → Prop} {o : State} (c : Nat) (source : Bool) (s : State) (hs : Confined B o s) (hSfe : B
    .sfe := by assumption) : Confined B o (loseFrame c source s) := by
  unfold loseFrame
  with_reducible repeat' first
    | assumption | intro _ | apply setCtx_confined | refine ite_confined _ _ ?_ ?_ | split | dsimp only

theorem placeRow_confined {B : Block → Prop} {o : State} (c : Nat) (s : State) (hs : Confined B o s) (hAudit : B .audit := by
    assumption) (hSfe : B .sfe := by assumption) (hPci : B .pci := by assumption) (hBoot : B .boot := by assumption) : Confined
    B o ((placeRow c s).1) := by
  unfold placeRow
  with_reducible repeat' first
    | assumption | intro _ | apply setCtx_confined | apply setStreamPool_confined | refine ite_confined _ _ ?_ ?_ | split
    | dsimp only

theorem frameArrives_confined {B : Block → Prop} {o : State} (c : Nat) (head : Bytes) (ts : Nat) (jump : Bool) (s : State) (hs :
    Confined B o s) (hMem : B .mem := by assumption) (hAudit : B .audit := by assumption) (hGdl : B .gdl := by assumption) (hLfl
    : B .lfl := by assumption) (hSfe : B .sfe := by assumption) (hPci : B .pci := by assumption) (hBoot : B .boot := by
    assumption) : Confined B o (frameArrives c head ts jump s) := by
  unfold frameArrives
  with_reducible repeat' first
    | assumption | intro _ | apply setCtx_confined | apply makeReady_confined | apply resetMark_confined
    | apply placeRow_confined | refine ite_confined _ _ ?_ ?_ | split | dsimp only

theorem deliverImage_confined {B : Block → Prop} {o : State} (c : Nat) (im : ImageIn) (s : State) (hs : Confined B o s) (hMem :
    B .mem := by assumption) (hAudit : B .audit := by assumption) (hGdl : B .gdl := by assumption) (hDdr : B .ddr := by
    assumption) (hLfl : B .lfl := by assumption) (hSfe : B .sfe := by assumption) (hPci : B .pci := by assumption) (hBoot : B
    .boot := by assumption) (hFree : B .free := by assumption) : Confined B o (deliverImage c im s) := by
  unfold deliverImage
  with_reducible repeat' first
    | assumption | intro _ | apply State.spend_confined | apply writeLines_confined | apply loseFrame_confined
    | apply frameArrives_confined | refine ite_confined _ _ ?_ ?_ | split | dsimp only

theorem settleLost_confined {B : Block → Prop} {o : State} (c n : Nat) (s : State) (h : Confined B o s) (hSfe : B .sfe := by
    assumption) : Confined B o (settleLost c n s) := by
  induction n generalizing s with
  | zero => exact h
  | succ n ih =>
    unfold settleLost
    with_reducible repeat' first
      | assumption | apply ih | apply loseFrame_confined | apply setCtx_confined | split | dsimp only

theorem queueImage_confined {B : Block → Prop} {o : State} (c : Nat) (im : Option ImageIn) (s : State) (hs : Confined B o s)
    (hSfe : B .sfe := by assumption) : Confined B o (queueImage c im s) := by
  unfold queueImage
  with_reducible repeat' first | assumption | intro _ | apply setCtx_confined | apply settleLost_confined | split | dsimp only

theorem audioFrame_confined {B : Block → Prop} {o : State} (c : Nat) (s : State) (hs : Confined B o s) (hMem : B .mem := by
    assumption) (hAudit : B .audit := by assumption) (hGdl : B .gdl := by assumption) (hLfl : B .lfl := by assumption) (hSfe : B
    .sfe := by assumption) (hPci : B .pci := by assumption) (hBoot : B .boot := by assumption) (hFree : B .free := by
    assumption) : Confined B o (audioFrame c s) := by
  unfold audioFrame
  with_reducible repeat' first
    | assumption | intro _ | apply State.spend_confined | apply setCtx_confined | apply loseFrame_confined
    | apply frameArrives_confined | refine ite_confined _ _ ?_ ?_ | split | dsimp only

theorem startClose_confined {B : Block → Prop} {o : State} (c : Nat) (flush : Bool) (sub : Option Sub) (s : State) (hs :
    Confined B o s) (hMem : B .mem := by assumption) (hAudit : B .audit := by assumption) (hGdl : B .gdl := by assumption) (hSfe
    : B .sfe := by assumption) (hPci : B .pci := by assumption) (hBoot : B .boot := by assumption) : Confined B o (startClose c
    flush sub s) := by
  unfold startClose
  with_reducible repeat' first
    | assumption | intro _ | apply setCtx_confined | apply makeReady_confined | apply dropLoose_confined
    | refine ite_confined _ _ ?_ ?_ | split | dsimp only

theorem dropInsts_confined {B : Block → Prop} {o : State} (t h : Nat) (s : State) (hs : Confined B o s) (hLfl : B .lfl := by
    assumption) : Confined B o (dropInsts t h s) := by
  unfold dropInsts
  with_reducible repeat' first
    | assumption | intro _ | refine ite_confined _ _ ?_ ?_ | simp only [confined_lfl hLfl] | split | dsimp only

theorem closeContext_confined {B : Block → Prop} {o : State} (c : Nat) (s : State) (hs : Confined B o s) (hMem : B .mem := by
    assumption) (hAudit : B .audit := by assumption) (hGdl : B .gdl := by assumption) (hDdr : B .ddr := by assumption) (hLfl : B
    .lfl := by assumption) (hSfe : B .sfe := by assumption) (hPci : B .pci := by assumption) (hBoot : B .boot := by assumption)
    : Confined B o (closeContext c s) := by
  unfold closeContext
  with_reducible repeat' first
    | assumption | intro _ | apply setCtx_confined | apply endWith_confined | apply writeLines_confined | apply unref_confined
    | apply zeroUnits_confined | apply evalNeeds_confined | apply setStreamPool_confined | apply dropInsts_confined
    | refine foldl_confined _ (fun _ _ _ => ?_) _ _ ?_ | split | dsimp only

end Sys2Proof.Machine
end

