-- ==== Sys2Proof/Laws/ConfinedLaunch.lean ====
section
/-! SUPPORT. The blocks of the state that each function of Machine.Launch may change. -/

namespace Sys2Proof.Machine
open Sys2Proof Numeric

theorem setReq_confined {B : Block → Prop} {o : State} (n : Nat) (f : Request → Request) (s : State) (hs : Confined B o s) (hLfl
    : B .lfl := by assumption) : Confined B o (setReq n f s) := by
  unfold setReq
  with_reducible repeat' first | assumption | intro _ | simp only [confined_lfl hLfl] | split | dsimp only

theorem advanceClass_confined {B : Block → Prop} {o : State} (r : Ready) (s : State) (hs : Confined B o s) (hLfl : B .lfl := by
    assumption) : Confined B o (advanceClass r s) := by
  unfold advanceClass
  with_reducible repeat' first | assumption | intro _ | simp only [confined_lfl hLfl] | split | dsimp only

theorem assignGang_confined {B : Block → Prop} {o : State} (n : Nat) (gang : Gang) (s : State) (hs : Confined B o s) (hCores : B
    .cores := by assumption) : Confined B o (assignGang n gang s) := by
  unfold assignGang
  with_reducible repeat' first
    | assumption | intro _ | apply updCore_confined | refine foldl_confined _ (fun _ _ _ => ?_) _ _ ?_ | split | dsimp only

theorem startStream_confined {B : Block → Prop} {o : State} (n h budget : Nat) (sets : List Nat) (s : State) (hs : Confined B o
    s) (hGdl : B .gdl := by assumption) : Confined B o (startStream n h budget sets s) := by
  unfold startStream
  with_reducible repeat' first
    | assumption | intro _ | apply setPass_confined | refine ite_confined _ _ ?_ ?_ | split | dsimp only

theorem startImageStream_confined {B : Block → Prop} {o : State} (n t : Nat) (seqs : List PassSeq) (sets : List Nat) (s : State)
    (hs : Confined B o s) (hGdl : B .gdl := by assumption) (hFree : B .free := by assumption) : Confined B o (startImageStream n
    t seqs sets s) := by
  unfold startImageStream
  with_reducible repeat' first
    | assumption | intro _ | apply State.spend_confined | apply setPass_confined | refine ite_confined _ _ ?_ ?_ | split
    | dsimp only

theorem endStreams_confined {B : Block → Prop} {o : State} (n : Nat) (s : State) (hs : Confined B o s) (hGdl : B .gdl := by
    assumption) : Confined B o (endStreams n s) := by
  unfold endStreams
  with_reducible repeat' first | assumption | intro _ | simp only [confined_gdl hGdl] | split | dsimp only

theorem startOn_confined {B : Block → Prop} {o : State} (n : Nat) (gang : Gang) (limit budget : Nat) (s : State) (hs : Confined
    B o s) (hCores : B .cores := by assumption) (hLfl : B .lfl := by assumption) : Confined B o (startOn n gang limit budget s)
    := by
  unfold startOn
  with_reducible repeat' first | assumption | intro _ | apply setJob_confined | apply assignGang_confined | split | dsimp only

end Sys2Proof.Machine
end

