-- ==== Sys2Proof/Laws/ConfinedPartition.lean ====
section
/-! SUPPORT. The blocks of the state that each function of Machine.Partition may change. -/

namespace Sys2Proof.Machine
open Sys2Proof Numeric

theorem blankCached_confined {B : Block → Prop} {o : State} (t : Nat) (s : State) (hs : Confined B o s) (hLfl : B .lfl := by
    assumption) : Confined B o (blankCached t s) := by
  unfold blankCached
  with_reducible repeat' first
    | assumption | intro _ | apply blankBlock_confined | refine foldl_confined _ (fun _ _ _ => ?_) _ _ ?_ | split | dsimp only

theorem partitionWrite_confined {B : Block → Prop} {o : State} (v : Word) (s : State) (hs : Confined B o s) (hCores : B .cores
    := by assumption) (hMem : B .mem := by assumption) (hLfl : B .lfl := by assumption) : Confined B o (partitionWrite v s) :=
    by
  unfold partitionWrite
  with_reducible repeat' first
    | assumption | intro _ | apply setTenant_confined | apply leavePartition_confined | apply blankCached_confined
    | refine foldl_confined _ (fun _ _ _ => ?_) _ _ ?_ | refine ite_confined _ _ ?_ ?_ | simp only [confined_lfl hLfl] | split
    | dsimp only

theorem versionSelect_confined {B : Block → Prop} {o : State} (fn : Nat) (v : Word) (s : State) (hs : Confined B o s) (hPci : B
    .pci := by assumption) : Confined B o (versionSelect fn v s) := by
  unfold versionSelect
  with_reducible repeat' first
    | assumption | intro _ | apply setFunc_confined | refine ite_confined _ _ ?_ ?_ | split | dsimp only

theorem kvPoolWrite_confined {B : Block → Prop} {o : State} (v : DWord) (s : State) (hs : Confined B o s) (hAudit : B .audit :=
    by assumption) (hLfl : B .lfl := by assumption) (hPci : B .pci := by assumption) (hBoot : B .boot := by assumption) :
    Confined B o (kvPoolWrite v s) := by
  unfold kvPoolWrite
  with_reducible repeat' first
    | assumption | intro _ | apply setKvPool_confined | refine ite_confined _ _ ?_ ?_ | simp only [confined_lfl hLfl] | split
    | dsimp only

theorem drawTenantKey_confined {B : Block → Prop} {o : State} (t : Nat) (s : State) (hs : Confined B o s) (hLfl : B .lfl := by
    assumption) : Confined B o (drawTenantKey t s) := by
  unfold drawTenantKey
  with_reducible repeat' first
    | assumption | intro _ | apply setTenant_confined | simp only [confined_lfl hLfl] | split | dsimp only

theorem drawGroupKey_confined {B : Block → Prop} {o : State} (g : Nat) (s : State) (hs : Confined B o s) (hLfl : B .lfl := by
    assumption) : Confined B o (drawGroupKey g s) := by
  unfold drawGroupKey
  with_reducible repeat' first
    | assumption | intro _ | refine ite_confined _ _ ?_ ?_ | simp only [confined_lfl hLfl] | split | dsimp only

theorem kvTenantWrite_confined {B : Block → Prop} {o : State} (v : Word) (s : State) (hs : Confined B o s) (hLfl : B .lfl := by
    assumption) : Confined B o (kvTenantWrite v s) := by
  unfold kvTenantWrite
  with_reducible repeat' first
    | assumption | intro _ | apply setTenant_confined | apply blankCached_confined | apply drawTenantKey_confined
    | apply drawGroupKey_confined | refine ite_confined _ _ ?_ ?_ | simp only [confined_lfl hLfl] | split | dsimp only

end Sys2Proof.Machine
end

