-- ==== Sys2Proof/Laws/ConfinedAdmit.lean ====
section
/-! SUPPORT. The blocks of the state that each function of Machine.Admit may change. -/

namespace Sys2Proof.Machine
open Sys2Proof Numeric

theorem lookupPrompt_confined {B : Block → Prop} {o : State} (t h plen slotNo : Nat) (draft : Bool) (toks : List Word) (s :
    State) (hs : Confined B o s) (hMem : B .mem := by assumption) (hAudit : B .audit := by assumption) (hDdr : B .ddr := by
    assumption) (hLfl : B .lfl := by assumption) (hPci : B .pci := by assumption) (hBoot : B .boot := by assumption) : Confined
    B o ((lookupPrompt t h plen slotNo draft toks s).2.2) := by
  unfold lookupPrompt
  with_reducible repeat' first
    | assumption | intro _ | apply addRef_confined | apply writeMap_confined
    | refine foldl_confined _ (fun _ _ _ => ?_) _ _ ?_ | refine ite_confined _ _ ?_ ?_ | split | dsimp only

theorem setLedger_confined {B : Block → Prop} {o : State} (t : Nat) (f : Pool → Pool) (s : State) (hs : Confined B o s) (hAudit
    : B .audit := by assumption) (hLfl : B .lfl := by assumption) (hPci : B .pci := by assumption) (hBoot : B .boot := by
    assumption) : Confined B o (setLedger t f s) := by
  unfold setLedger
  with_reducible repeat' first
    | assumption | intro _ | apply conserve_confined | apply setTenant_confined | split | dsimp only

theorem admitRequest_confined {B : Block → Prop} {o : State} (sub : Sub) (main draft : Nat) (q : GenReq) (s : State) (hs :
    Confined B o s) (hMem : B .mem := by assumption) (hAudit : B .audit := by assumption) (hDdr : B .ddr := by assumption) (hLfl
    : B .lfl := by assumption) (hPci : B .pci := by assumption) (hBoot : B .boot := by assumption) (hFree : B .free := by
    assumption) : Confined B o (admitRequest sub main draft q s) := by
  unfold admitRequest
  with_reducible repeat' first
    | assumption | intro _ | apply State.spend_confined | apply addLong_confined | apply refVersion_confined
    | apply setReq_confined | apply lookupPrompt_confined | apply setLedger_confined | refine ite_confined _ _ ?_ ?_
    | simp only [confined_lfl hLfl] | split | dsimp only

theorem refillLedger_confined {B : Block → Prop} {o : State} (s : State) (t : Nat) (hs : Confined B o s) (hAudit : B .audit :=
    by assumption) (hLfl : B .lfl := by assumption) (hPci : B .pci := by assumption) (hBoot : B .boot := by assumption) :
    Confined B o (refillLedger s t) := by
  unfold refillLedger
  with_reducible repeat' first
    | assumption | intro _ | apply setTenant_confined | apply setLedger_confined | refine ite_confined _ _ ?_ ?_ | split
    | dsimp only

end Sys2Proof.Machine
end

