-- ==== Sys2Proof/Laws/ConfinedFlash.lean ====
section
/-! SUPPORT. The blocks of the state that each function of Machine.Flash may change. -/

namespace Sys2Proof.Machine
open Sys2Proof Numeric

theorem writePage_confined {B : Block → Prop} {o : State} (b p kind : Nat) (data : Bytes) (s : State) (hs : Confined B o s)
    (hMem : B .mem := by assumption) (hFree : B .free := by assumption) : Confined B o (writePage b p kind data s) := by
  unfold writePage
  with_reducible repeat' first
    | assumption | intro _ | apply setMems_confined | apply State.spend_confined | split | dsimp only

theorem eraseBlock_confined {B : Block → Prop} {o : State} (b : Nat) (s : State) (hs : Confined B o s) (hMem : B .mem := by
    assumption) : Confined B o (eraseBlock b s) := by
  unfold eraseBlock
  with_reducible repeat' first | assumption | intro _ | apply setMems_confined | split | dsimp only

theorem setBlock_confined {B : Block → Prop} {o : State} (b : Nat) (f : FltBlock → FltBlock) (s : State) (hs : Confined B o s)
    (hFlt : B .flt := by assumption) : Confined B o (setBlock b f s) := by
  unfold setBlock
  with_reducible repeat' first | assumption | intro _ | simp only [confined_flt hFlt] | split | dsimp only

theorem setJournal_confined {B : Block → Prop} {o : State} (c : Nat) (f : Journal → Journal) (s : State) (hs : Confined B o s)
    (hFlt : B .flt := by assumption) : Confined B o (setJournal c f s) := by
  unfold setJournal
  with_reducible repeat' first | assumption | intro _ | simp only [confined_flt hFlt] | split | dsimp only

theorem setLun_confined {B : Block → Prop} {o : State} (k : Nat) (f : Lun → Lun) (s : State) (hs : Confined B o s) (hFlt : B
    .flt := by assumption) : Confined B o (setLun k f s) := by
  unfold setLun
  with_reducible repeat' first | assumption | intro _ | simp only [confined_flt hFlt] | split | dsimp only

theorem setCmd_confined {B : Block → Prop} {o : State} (n : Nat) (f : FlashCmd → FlashCmd) (s : State) (hs : Confined B o s)
    (hFlt : B .flt := by assumption) : Confined B o (setCmd n f s) := by
  unfold setCmd
  with_reducible repeat' first
    | assumption | intro _ | refine ite_confined _ _ ?_ ?_ | simp only [confined_flt hFlt] | split | dsimp only

theorem finishFlash_confined {B : Block → Prop} {o : State} (n : Nat) (st : BitVec 16) (detail : Nat) (s : State) (hs : Confined
    B o s) (hFlt : B .flt := by assumption) (hLfl : B .lfl := by assumption) (hPci : B .pci := by assumption) : Confined B o
    (finishFlash n st detail s) := by
  unfold finishFlash
  with_reducible repeat' first
    | assumption | intro _ | apply complete_confined | apply finishLong_confined | refine ite_confined _ _ ?_ ?_
    | simp only [confined_flt hFlt] | split | dsimp only

theorem kickJournal_confined {B : Block → Prop} {o : State} (ch : Nat) (s : State) (hs : Confined B o s) (hFlt : B .flt := by
    assumption) : Confined B o (kickJournal ch s) := by
  unfold kickJournal
  with_reducible repeat' first
    | assumption | intro _ | apply setJournal_confined | refine ite_confined _ _ ?_ ?_ | split | dsimp only

theorem queueRec_confined {B : Block → Prop} {o : State} (type b : Nat) (cmd : Option Nat) (s : State) (hs : Confined B o s)
    (hFlt : B .flt := by assumption) : Confined B o (queueRec type b cmd s) := by
  unfold queueRec
  with_reducible repeat' first
    | assumption | intro _ | apply setJournal_confined | apply kickJournal_confined | split | dsimp only

theorem pumpLun_confined {B : Block → Prop} {o : State} (fail : PageRead → State → State) (k : Nat)
    (hf : ∀ x s, Confined B o s → Confined B o (fail x s)) (n : Nat) (s : State)
    (hmem : Confined B o s) (hFlt : B .flt := by assumption) : Confined B o (pumpLun fail k n s) := by
  induction n generalizing s with
  | zero => exact hmem
  | succ n ih =>
    unfold pumpLun
    with_reducible repeat' first | assumption | apply setLun_confined | apply ih | apply hf | split | dsimp only

theorem setIngest_confined {B : Block → Prop} {o : State} (n : Nat) (f : Ingest → Ingest) (s : State) (hs : Confined B o s)
    (hLfl : B .lfl := by assumption) : Confined B o (setIngest n f s) := by
  unfold setIngest
  with_reducible repeat' first | assumption | intro _ | simp only [confined_lfl hLfl] | split | dsimp only

theorem failRead_confined {B : Block → Prop} {o : State} (x : PageRead) (s : State) (hs : Confined B o s) (hFlt : B .flt := by
    assumption) (hLfl : B .lfl := by assumption) : Confined B o (failRead x s) := by
  unfold failRead
  with_reducible repeat' first
    | assumption | intro _ | apply setLun_confined | apply setIngest_confined | refine ite_confined _ _ ?_ ?_ | split
    | dsimp only

theorem pump_confined {B : Block → Prop} {o : State} (k : Nat) (s : State) (hs : Confined B o s) (hFlt : B .flt := by
    assumption) (hLfl : B .lfl := by assumption) : Confined B o (pump k s) := by
  unfold pump
  with_reducible repeat' first | assumption | intro _ | apply pumpLun_confined | apply failRead_confined | split | dsimp only

theorem takeNext_confined {B : Block → Prop} {o : State} (n : Nat) (s : State) (hs : Confined B o s) (hFlt : B .flt := by
    assumption) (hLfl : B .lfl := by assumption) (hPci : B .pci := by assumption) : Confined B o (takeNext n s) := by
  unfold takeNext
  with_reducible repeat' first
    | assumption | intro _ | apply setBlock_confined | apply finishFlash_confined | apply queueRec_confined
    | refine ite_confined _ _ ?_ ?_ | split | dsimp only

theorem settleTier_confined {B : Block → Prop} {o : State} (s : State) (hs : Confined B o s) (hFlt : B .flt := by assumption) :
    Confined B o (settleTier s) := by
  unfold settleTier
  with_reducible repeat' first
    | assumption | intro _ | refine ite_confined _ _ ?_ ?_ | simp only [confined_flt hFlt] | split | dsimp only

theorem applyRec_confined {B : Block → Prop} {o : State} (s : State) (r : JRec) (hs : Confined B o s) (hFlt : B .flt := by
    assumption) (hLfl : B .lfl := by assumption) (hPci : B .pci := by assumption) : Confined B o (applyRec s r) := by
  unfold applyRec
  with_reducible repeat' first
    | assumption | intro _ | apply setBlock_confined | apply setLun_confined | apply setCmd_confined
    | apply finishFlash_confined | apply pump_confined | apply takeNext_confined | apply settleTier_confined
    | refine ite_confined _ _ ?_ ?_ | simp only [confined_flt hFlt] | split | dsimp only

theorem settleFormat_confined {B : Block → Prop} {o : State} (s : State) (hs : Confined B o s) (hFlt : B .flt := by assumption)
    (hLfl : B .lfl := by assumption) (hPci : B .pci := by assumption) : Confined B o (settleFormat s) := by
  unfold settleFormat
  with_reducible repeat' first
    | assumption | intro _ | apply finishFlash_confined | refine ite_confined _ _ ?_ ?_ | simp only [confined_flt hFlt]
    | split | dsimp only

theorem rollJournal_confined {B : Block → Prop} {o : State} (ch : Nat) (s : State) (hs : Confined B o s) (hFlt : B .flt := by
    assumption) : Confined B o (rollJournal ch s) := by
  unfold rollJournal
  with_reducible repeat' first
    | assumption | intro _ | apply setJournal_confined | refine ite_confined _ _ ?_ ?_ | split | dsimp only

theorem pagePassed_confined {B : Block → Prop} {o : State} (ch : Nat) (s : State) (hs : Confined B o s) (hMem : B .mem := by
    assumption) (hFlt : B .flt := by assumption) (hLfl : B .lfl := by assumption) (hPci : B .pci := by assumption) (hFree : B
    .free := by assumption) : Confined B o (pagePassed ch s) := by
  unfold pagePassed
  with_reducible repeat' first
    | assumption | intro _ | apply writePage_confined | apply eraseBlock_confined | apply setJournal_confined
    | apply kickJournal_confined | apply settleTier_confined | apply applyRec_confined | apply settleFormat_confined
    | apply rollJournal_confined | refine foldl_confined _ (fun _ _ _ => ?_) _ _ ?_ | refine ite_confined _ _ ?_ ?_ | split
    | dsimp only

theorem directPage_confined {B : Block → Prop} {o : State} (n : Nat) (r : PageRead) (good : List Bool) (s : State) (hs :
    Confined B o s) (hMem : B .mem := by assumption) (hFlt : B .flt := by assumption) (hLfl : B .lfl := by assumption) (hPci : B
    .pci := by assumption) : Confined B o (directPage n r good s) := by
  unfold directPage
  with_reducible repeat' first
    | assumption | intro _ | apply setMems_confined | apply setCmd_confined | apply finishFlash_confined
    | refine ite_confined _ _ ?_ ?_ | split | dsimp only

theorem shardPage_confined {B : Block → Prop} {o : State} (job shard : Nat) (ok : Bool) (r : PageRead) (s : State) (hs :
    Confined B o s) (hFlt : B .flt := by assumption) (hLfl : B .lfl := by assumption) : Confined B o (shardPage job shard ok r
    s) := by
  unfold shardPage
  with_reducible repeat' first
    | assumption | intro _ | apply setIngest_confined | apply failRead_confined | refine ite_confined _ _ ?_ ?_ | split
    | dsimp only

theorem afterRead_confined {B : Block → Prop} {o : State} (k : Nat) (s : State) (hs : Confined B o s) (hFlt : B .flt := by
    assumption) : Confined B o (afterRead k s) := by
  unfold afterRead
  with_reducible repeat' first
    | assumption | intro _ | apply served_confined | apply setLun_confined | refine ite_confined _ _ ?_ ?_ | split
    | dsimp only

theorem addCmd_confined {B : Block → Prop} {o : State} (c : FlashCmd) (s : State) (hs : Confined B o s) (hFlt : B .flt := by
    assumption) (hLfl : B .lfl := by assumption) : Confined B o (addCmd c s) := by
  unfold addCmd
  with_reducible repeat' first
    | assumption | intro _ | apply addLong_confined | refine ite_confined _ _ ?_ ?_ | simp only [confined_flt hFlt] | split
    | dsimp only

theorem suspendFlash_confined {B : Block → Prop} {o : State} (n : Nat) (s : State) (hs : Confined B o s) (hFlt : B .flt := by
    assumption) (hLfl : B .lfl := by assumption) (hPci : B .pci := by assumption) : Confined B o (suspendFlash n s) := by
  unfold suspendFlash
  with_reducible repeat' first
    | assumption | intro _ | apply markLong_confined | apply settleLong_confined | apply setLun_confined
    | apply setCmd_confined | split | dsimp only

theorem unfreeze_confined {B : Block → Prop} {o : State} (n : Nat) (s : State) (hs : Confined B o s) (hFlt : B .flt := by
    assumption) : Confined B o (unfreeze n s) := by
  unfold unfreeze
  with_reducible repeat' first | assumption | intro _ | apply setLun_confined | split | dsimp only

theorem resumeFlash_confined {B : Block → Prop} {o : State} (n : Nat) (s : State) (hs : Confined B o s) (hFlt : B .flt := by
    assumption) (hLfl : B .lfl := by assumption) (hPci : B .pci := by assumption) : Confined B o (resumeFlash n s) := by
  unfold resumeFlash
  with_reducible repeat' first
    | assumption | intro _ | apply markLong_confined | apply settleLong_confined | apply setCmd_confined
    | apply takeNext_confined | apply unfreeze_confined | refine ite_confined _ _ ?_ ?_ | split | dsimp only

theorem cancelFlash_confined {B : Block → Prop} {o : State} (n : Nat) (s : State) (hs : Confined B o s) (hFlt : B .flt := by
    assumption) (hLfl : B .lfl := by assumption) (hPci : B .pci := by assumption) : Confined B o (cancelFlash n s) := by
  unfold cancelFlash
  with_reducible repeat' first
    | assumption | intro _ | apply setCmd_confined | apply finishFlash_confined | apply unfreeze_confined
    | refine ite_confined _ _ ?_ ?_ | split | dsimp only

theorem bringUpBlank_confined {B : Block → Prop} {o : State} (badMarks : List Nat) (s : State) (hs : Confined B o s) (hFlt : B
    .flt := by assumption) : Confined B o (bringUpBlank badMarks s) := by
  unfold bringUpBlank
  with_reducible repeat' first
    | assumption | intro _ | apply setBlock_confined | apply setJournal_confined
    | refine foldl_confined _ (fun _ _ _ => ?_) _ _ ?_ | simp only [confined_flt hFlt] | split | dsimp only

theorem replayJournals_confined {B : Block → Prop} {o : State} (s : State) (hs : Confined B o s) (hFlt : B .flt := by
    assumption) (hLfl : B .lfl := by assumption) (hFree : B .free := by assumption) : Confined B o (replayJournals s) := by
  unfold replayJournals
  with_reducible repeat' first
    | assumption | intro _ | apply State.spend_confined | apply setBlock_confined | apply setLun_confined
    | apply queueRec_confined | apply pump_confined | refine foldl_confined _ (fun _ _ _ => ?_) _ _ ?_
    | simp only [confined_flt hFlt] | split | dsimp only

theorem setGeometry_confined {B : Block → Prop} {o : State} (rep : FlashReport) (s : State) (hs : Confined B o s) (hFlt : B .flt
    := by assumption) : Confined B o (setGeometry rep s) := by
  unfold setGeometry
  with_reducible repeat' first | assumption | intro _ | simp only [confined_flt hFlt] | split | dsimp only

theorem blockSelect_confined {B : Block → Prop} {o : State} (v : Word) (s : State) (hs : Confined B o s) (hFlt : B .flt := by
    assumption) : Confined B o (blockSelect v s) := by
  unfold blockSelect
  with_reducible repeat' first | assumption | intro _ | simp only [confined_flt hFlt] | split | dsimp only

end Sys2Proof.Machine
end

