-- ==== Sys2Proof/Laws/ConfinedDdr.lean ====
section
/-! SUPPORT. The blocks of the state that each function of Machine.Ddr may change. -/

namespace Sys2Proof.Machine
open Sys2Proof Numeric

theorem setChan_confined {B : Block → Prop} {o : State} (c : Nat) (f : Channel → Channel) (s : State) (hs : Confined B o s)
    (hDdr : B .ddr := by assumption) : Confined B o (setChan c f s) := by
  unfold setChan
  with_reducible repeat' first | assumption | intro _ | simp only [confined_ddr hDdr] | split | dsimp only

theorem setPort_confined {B : Block → Prop} {o : State} (p : Nat) (f : Port → Port) (s : State) (hs : Confined B o s) (hDdr : B
    .ddr := by assumption) : Confined B o (setPort p f s) := by
  unfold setPort
  with_reducible repeat' first | assumption | intro _ | simp only [confined_ddr hDdr] | split | dsimp only

theorem setAcct_confined {B : Block → Prop} {o : State} (p a : Nat) (f : Account → Account) (s : State) (hs : Confined B o s)
    (hDdr : B .ddr := by assumption) : Confined B o (setAcct p a f s) := by
  unfold setAcct
  with_reducible repeat' first | assumption | intro _ | apply setPort_confined | split | dsimp only

theorem conservePort_confined {B : Block → Prop} {o : State} (p : Nat) (s : State) (hs : Confined B o s) (hAudit : B .audit :=
    by assumption) (hPci : B .pci := by assumption) (hBoot : B .boot := by assumption) : Confined B o (conservePort p s) := by
  unfold conservePort
  with_reducible repeat' first | assumption | intro _ | apply conserve_confined | split | dsimp only

theorem markFailing_confined {B : Block → Prop} {o : State} (pair : Nat) (s : State) (hs : Confined B o s) (hDdr : B .ddr := by
    assumption) (hPci : B .pci := by assumption) : Confined B o (markFailing pair s) := by
  unfold markFailing
  with_reducible repeat' first
    | assumption | intro _ | apply postEvent_confined | refine ite_confined _ _ ?_ ?_ | simp only [confined_ddr hDdr] | split
    | dsimp only

theorem activate_confined {B : Block → Prop} {o : State} (pl : Place) (s : State) (hs : Confined B o s) (hDdr : B .ddr := by
    assumption) : Confined B o (activate pl s) := by
  unfold activate
  with_reducible repeat' first
    | assumption | intro _ | apply setChan_confined | refine ite_confined _ _ ?_ ?_ | split | dsimp only

theorem grantAccess_confined {B : Block → Prop} {o : State} (port acct line k : Nat) (write : Bool) (s : State) (hs : Confined B
    o s) (hAudit : B .audit := by assumption) (hDdr : B .ddr := by assumption) (hPci : B .pci := by assumption) (hBoot : B .boot
    := by assumption) (hFree : B .free := by assumption) : Confined B o (grantAccess port acct line k write s) := by
  unfold grantAccess
  with_reducible repeat' first
    | assumption | intro _ | apply State.spend_confined | apply setChan_confined | apply setAcct_confined
    | apply conservePort_confined | apply activate_confined | refine ite_confined _ _ ?_ ?_ | simp only [confined_ddr hDdr]
    | split | dsimp only

theorem countCe_confined {B : Block → Prop} {o : State} (c i : Nat) (s : State) (hs : Confined B o s) (hDdr : B .ddr := by
    assumption) : Confined B o (countCe c i s) := by
  unfold countCe
  with_reducible repeat' first
    | assumption | intro _ | apply setChan_confined | refine ite_confined _ _ ?_ ?_ | split | dsimp only

theorem countUe_confined {B : Block → Prop} {o : State} (a : Nat) (s : State) (hs : Confined B o s) (hDdr : B .ddr := by
    assumption) : Confined B o (countUe a s) := by
  unfold countUe
  with_reducible repeat' first
    | assumption | intro _ | apply setChan_confined | refine ite_confined _ _ ?_ ?_ | simp only [confined_ddr hDdr] | split
    | dsimp only

theorem checkLine_confined {B : Block → Prop} {o : State} (a i : Nat) (f : Finding) (s : State) (hs : Confined B o s) (hDdr : B
    .ddr := by assumption) : Confined B o (checkLine a i f s) := by
  unfold checkLine
  with_reducible repeat' first
    | assumption | intro _ | apply setChan_confined | apply countCe_confined | apply countUe_confined
    | refine ite_confined _ _ ?_ ?_ | split | dsimp only

theorem completeAccess_confined {B : Block → Prop} {o : State} (g : Grant) (findings : List Finding) (s : State) (hs : Confined
    B o s) (hAudit : B .audit := by assumption) (hDdr : B .ddr := by assumption) (hPci : B .pci := by assumption) (hBoot : B
    .boot := by assumption) (hFree : B .free := by assumption) : Confined B o (completeAccess g findings s) := by
  unfold completeAccess
  with_reducible repeat' first
    | assumption | intro _ | apply State.spend_confined | apply setPort_confined | apply setAcct_confined
    | apply conservePort_confined | apply checkLine_confined | refine foldl_confined _ (fun _ _ _ => ?_) _ _ ?_
    | refine ite_confined _ _ ?_ ?_ | simp only [confined_ddr hDdr] | split | dsimp only

theorem giveToken_confined {B : Block → Prop} {o : State} (p a : Nat) (s : State) (hs : Confined B o s) (hDdr : B .ddr := by
    assumption) : Confined B o (giveToken p a s) := by
  unfold giveToken
  with_reducible repeat' first | assumption | intro _ | apply setPort_confined | apply setAcct_confined | split | dsimp only

theorem spread_confined {B : Block → Prop} {o : State} (n : Nat) (s : State) (h : Confined B o s) (hDdr : B .ddr := by
    assumption) : Confined B o (spread n s) := by
  induction n generalizing s with
  | zero => exact h
  | succ n ih =>
    unfold spread
    with_reducible repeat' first
      | assumption | apply ih | apply giveToken_confined | simp only [confined_ddr hDdr] | split | dsimp only

theorem refillOne_confined {B : Block → Prop} {o : State} (p a : Nat) (s : State) (hs : Confined B o s) (hDdr : B .ddr := by
    assumption) : Confined B o (refillOne p a s) := by
  unfold refillOne
  with_reducible repeat' first
    | assumption | intro _ | apply setPort_confined | apply setAcct_confined | apply spread_confined
    | refine ite_confined _ _ ?_ ?_ | split | dsimp only

theorem replaceOwners_confined {B : Block → Prop} {o : State} (s : State) (hs : Confined B o s) (hDdr : B .ddr := by assumption)
    : Confined B o (replaceOwners s) := by
  unfold replaceOwners
  with_reducible repeat' first
    | assumption | intro _ | apply setChan_confined | refine foldl_confined _ (fun _ _ _ => ?_) _ _ ?_ | split | dsimp only

theorem startRetrain_confined {B : Block → Prop} {o : State} (cmd : Option (Nat × Sub)) (s : State) (hs : Confined B o s) (hDdr
    : B .ddr := by assumption) : Confined B o (startRetrain cmd s) := by
  unfold startRetrain
  with_reducible repeat' first | assumption | intro _ | simp only [confined_ddr hDdr] | split | dsimp only

theorem dueRetrain_confined {B : Block → Prop} {o : State} (s : State) (hs : Confined B o s) (hDdr : B .ddr := by assumption) :
    Confined B o (dueRetrain s) := by
  unfold dueRetrain
  with_reducible repeat' first
    | assumption | intro _ | apply startRetrain_confined | refine ite_confined _ _ ?_ ?_ | simp only [confined_ddr hDdr]
    | split | dsimp only

theorem nextRetrainStart_confined {B : Block → Prop} {o : State} (s : State) (hs : Confined B o s) (hDdr : B .ddr := by
    assumption) : Confined B o (nextRetrainStart s) := by
  unfold nextRetrainStart
  with_reducible repeat' first
    | assumption | intro _ | apply startRetrain_confined | refine ite_confined _ _ ?_ ?_ | simp only [confined_ddr hDdr]
    | split | dsimp only

theorem endRetrain_confined {B : Block → Prop} {o : State} (st : BitVec 16) (s : State) (hs : Confined B o s) (hDdr : B .ddr :=
    by assumption) (hLfl : B .lfl := by assumption) (hPci : B .pci := by assumption) : Confined B o (endRetrain st s) := by
  unfold endRetrain
  with_reducible repeat' first
    | assumption | intro _ | apply finishLong_confined | apply nextRetrainStart_confined | simp only [confined_ddr hDdr]
    | split | dsimp only

theorem retrainBoundary_confined {B : Block → Prop} {o : State} (r : Retrain) (s : State) (hs : Confined B o s) (hDdr : B .ddr
    := by assumption) (hLfl : B .lfl := by assumption) (hPci : B .pci := by assumption) : Confined B o (retrainBoundary r s) :=
    by
  unfold retrainBoundary
  with_reducible repeat' first
    | assumption | intro _ | apply markLong_confined | apply settleLong_confined | apply endRetrain_confined
    | refine ite_confined _ _ ?_ ?_ | simp only [confined_ddr hDdr] | split | dsimp only

theorem installAcct_confined {B : Block → Prop} {o : State} (p a : Nat) (x : Account) (s : State) (hs : Confined B o s) (hAudit
    : B .audit := by assumption) (hDdr : B .ddr := by assumption) (hPci : B .pci := by assumption) (hBoot : B .boot := by
    assumption) (hFree : B .free := by assumption) : Confined B o (installAcct p a x s) := by
  unfold installAcct
  with_reducible repeat' first
    | assumption | intro _ | apply State.spend_confined | apply setAcct_confined | apply conservePort_confined
    | apply replaceOwners_confined | refine ite_confined _ _ ?_ ?_ | split | dsimp only

theorem accountSelect_confined {B : Block → Prop} {o : State} (v : Word) (s : State) (hs : Confined B o s) (hAudit : B .audit :=
    by assumption) (hDdr : B .ddr := by assumption) (hPci : B .pci := by assumption) (hBoot : B .boot := by assumption) (hFree :
    B .free := by assumption) : Confined B o (accountSelect v s) := by
  unfold accountSelect
  with_reducible repeat' first
    | assumption | intro _ | apply installAcct_confined | refine ite_confined _ _ ?_ ?_ | simp only [confined_ddr hDdr]
    | split | dsimp only

end Sys2Proof.Machine
end

