-- ==== Sys2Proof/Laws/ConfinedIngest.lean ====
section
/-! SUPPORT. The blocks of the state that each function of Machine.Ingest may change. -/

namespace Sys2Proof.Machine
open Sys2Proof Numeric

theorem pinBlock_confined {B : Block → Prop} {o : State} (b : Nat) (s : State) (hs : Confined B o s) (hFlt : B .flt := by
    assumption) : Confined B o (pinBlock b s) := by
  unfold pinBlock
  with_reducible repeat' first
    | assumption | intro _ | apply setBlock_confined | refine ite_confined _ _ ?_ ?_ | split | dsimp only

theorem unpinBlock_confined {B : Block → Prop} {o : State} (b : Nat) (s : State) (hs : Confined B o s) (hFlt : B .flt := by
    assumption) : Confined B o (unpinBlock b s) := by
  unfold unpinBlock
  with_reducible repeat' first | assumption | intro _ | apply setBlock_confined | split | dsimp only

theorem queuePages_confined {B : Block → Prop} {o : State} (n shard : Nat) (loc : DWord) (len : Nat) (s : State) (hs : Confined
    B o s) (hFlt : B .flt := by assumption) (hLfl : B .lfl := by assumption) : Confined B o (queuePages n shard loc len s) := by
  unfold queuePages
  with_reducible repeat' first
    | assumption | intro _ | apply setLun_confined | apply setIngest_confined | apply pump_confined
    | refine ite_confined _ _ ?_ ?_ | split | dsimp only

theorem beginFetch_confined {B : Block → Prop} {o : State} (n shard : Nat) (src : ShardSrc) (waiters : List Sub) (s : State) (hs
    : Confined B o s) (hFlt : B .flt := by assumption) (hLfl : B .lfl := by assumption) : Confined B o (beginFetch n shard src
    waiters s) := by
  unfold beginFetch
  with_reducible repeat' first
    | assumption | intro _ | apply setIngest_confined | apply queuePages_confined | refine ite_confined _ _ ?_ ?_ | split
    | dsimp only

theorem startShards_confined {B : Block → Prop} {o : State} (n fuel : Nat) (s : State) (hmem : Confined B o s) (hFlt : B .flt :=
    by assumption) (hLfl : B .lfl := by assumption) : Confined B o (startShards n fuel s) := by
  induction fuel generalizing s with
  | zero => exact hmem
  | succ fuel ih =>
    unfold startShards
    with_reducible repeat' first
      | assumption | apply ih | apply beginFetch_confined | apply setIngest_confined | split | dsimp only

theorem settleIngest_confined {B : Block → Prop} {o : State} (n : Nat) (s : State) (hs : Confined B o s) (hLfl : B .lfl := by
    assumption) (hPci : B .pci := by assumption) : Confined B o (settleIngest n s) := by
  unfold settleIngest
  with_reducible repeat' first
    | assumption | intro _ | apply markLong_confined | apply settleLong_confined | apply setIngest_confined
    | refine ite_confined _ _ ?_ ?_ | split | dsimp only

theorem endShard_confined {B : Block → Prop} {o : State} (n shard : Nat) (st : BitVec 16) (s : State) (hs : Confined B o s)
    (hLfl : B .lfl := by assumption) (hPci : B .pci := by assumption) : Confined B o (endShard n shard st s) := by
  unfold endShard
  with_reducible repeat' first
    | assumption | intro _ | apply endWith_confined | apply setIngest_confined
    | refine foldl_confined _ (fun _ _ _ => ?_) _ _ ?_ | split | dsimp only

theorem setWindow_confined {B : Block → Prop} {o : State} (f w : Nat) (g : Window → Window) (s : State) (hs : Confined B o s)
    (hPci : B .pci := by assumption) : Confined B o (setWindow f w g s) := by
  unfold setWindow
  with_reducible repeat' first | assumption | intro _ | apply setFunc_confined | split | dsimp only

theorem openWindow_confined {B : Block → Prop} {o : State} (sub : Sub) (w : Nat) (stg : Byte) (offset : Word) (s : State) (hs :
    Confined B o s) (hPci : B .pci := by assumption) : Confined B o (openWindow sub w stg offset s) := by
  unfold openWindow
  with_reducible repeat' first
    | assumption | intro _ | apply reply_confined | apply endWith_confined | apply setWindow_confined
    | refine ite_confined _ _ ?_ ?_ | split | dsimp only

theorem closeWindow_confined {B : Block → Prop} {o : State} (f w : Nat) (s : State) (hs : Confined B o s) (hPci : B .pci := by
    assumption) : Confined B o (closeWindow f w s) := by
  unfold closeWindow
  with_reducible repeat' first
    | assumption | intro _ | apply setWindow_confined | refine ite_confined _ _ ?_ ?_ | split | dsimp only

theorem endReading_confined {B : Block → Prop} {o : State} (f w : Nat) (s : State) (hs : Confined B o s) (hPci : B .pci := by
    assumption) : Confined B o (endReading f w s) := by
  unfold endReading
  with_reducible repeat' first
    | assumption | intro _ | apply setWindow_confined | apply openWindow_confined
    | refine foldl_confined _ (fun _ _ _ => ?_) _ _ ?_ | refine ite_confined _ _ ?_ ?_ | split | dsimp only

theorem endShardWindow_confined {B : Block → Prop} {o : State} (n shard : Nat) (s : State) (hs : Confined B o s) (hPci : B .pci
    := by assumption) : Confined B o (endShardWindow n shard s) := by
  unfold endShardWindow
  with_reducible repeat' first | assumption | intro _ | apply endReading_confined | split | dsimp only

theorem clearIngest_confined {B : Block → Prop} {o : State} (n : Nat) (s : State) (hs : Confined B o s) (hGdl : B .gdl := by
    assumption) (hFlt : B .flt := by assumption) (hLfl : B .lfl := by assumption) (hPci : B .pci := by assumption) : Confined B
    o (clearIngest n s) := by
  unfold clearIngest
  with_reducible repeat' first
    | assumption | intro _ | apply setSlot_confined | apply unpinBlock_confined | apply endShard_confined
    | apply endShardWindow_confined | refine foldl_confined _ (fun _ _ _ => ?_) _ _ ?_ | refine ite_confined _ _ ?_ ?_
    | simp only [confined_gdl_lfl hGdl hLfl, confined_flt hFlt] | split | dsimp only

theorem failIngest_confined {B : Block → Prop} {o : State} (n : Nat) (s : State) (hs : Confined B o s) (hGdl : B .gdl := by
    assumption) (hFlt : B .flt := by assumption) (hLfl : B .lfl := by assumption) (hPci : B .pci := by assumption) : Confined B
    o (failIngest n s) := by
  unfold failIngest
  with_reducible repeat' first
    | assumption | intro _ | apply setVersion_confined | apply clearIngest_confined | split | dsimp only

theorem cancelIngest_confined {B : Block → Prop} {o : State} (n : Nat) (s : State) (hs : Confined B o s) (hGdl : B .gdl := by
    assumption) (hFlt : B .flt := by assumption) (hLfl : B .lfl := by assumption) (hPci : B .pci := by assumption) : Confined B
    o (cancelIngest n s) := by
  unfold cancelIngest
  with_reducible repeat' first
    | assumption | intro _ | apply finishLong_confined | apply failIngest_confined | split | dsimp only

theorem suspendIngest_confined {B : Block → Prop} {o : State} (n : Nat) (s : State) (hs : Confined B o s) (hLfl : B .lfl := by
    assumption) (hPci : B .pci := by assumption) : Confined B o (suspendIngest n s) := by
  unfold suspendIngest
  with_reducible repeat' first
    | assumption | intro _ | apply setIngest_confined | apply settleIngest_confined | split | dsimp only

theorem resumeIngest_confined {B : Block → Prop} {o : State} (n : Nat) (s : State) (hs : Confined B o s) (hFlt : B .flt := by
    assumption) (hLfl : B .lfl := by assumption) (hPci : B .pci := by assumption) : Confined B o (resumeIngest n s) := by
  unfold resumeIngest
  with_reducible repeat' first
    | assumption | intro _ | apply markLong_confined | apply settleLong_confined | apply setIngest_confined
    | apply startShards_confined | refine ite_confined _ _ ?_ ?_ | split | dsimp only

theorem startIngest_confined {B : Block → Prop} {o : State} (sub : Sub) (req : IngestReq) (m : Manifest) (key : Bytes) (e : Nat)
    (s : State) (hs : Confined B o s) (hFlt : B .flt := by assumption) (hLfl : B .lfl := by assumption) : Confined B o
    (startIngest sub req m key e s) := by
  unfold startIngest
  with_reducible repeat' first
    | assumption | intro _ | apply addLong_confined | apply setVersion_confined | apply pinBlock_confined
    | apply startShards_confined | refine foldl_confined _ (fun _ _ _ => ?_) _ _ ?_ | refine ite_confined _ _ ?_ ?_
    | simp only [confined_lfl hLfl] | split | dsimp only

theorem joinShard_confined {B : Block → Prop} {o : State} (n shard : Nat) (sub : Sub) (s : State) (hs : Confined B o s) (hLfl :
    B .lfl := by assumption) : Confined B o (joinShard n shard sub s) := by
  unfold joinShard
  with_reducible repeat' first
    | assumption | intro _ | apply setIngest_confined | refine ite_confined _ _ ?_ ?_ | split | dsimp only

theorem failShard_confined {B : Block → Prop} {o : State} (n shard cause : Nat) (s : State) (hs : Confined B o s) (hFlt : B .flt
    := by assumption) (hLfl : B .lfl := by assumption) (hPci : B .pci := by assumption) : Confined B o (failShard n shard cause
    s) := by
  unfold failShard
  with_reducible repeat' first
    | assumption | intro _ | apply postEvent_confined | apply setIngest_confined | apply startShards_confined
    | apply settleIngest_confined | apply endShard_confined | apply endShardWindow_confined | split | dsimp only

theorem writeRawHeaders_confined {B : Block → Prop} {o : State} (s : State) (r : RegionEntry) (shard blocks : Nat) (hs :
    Confined B o s) (hMem : B .mem := by assumption) (hDdr : B .ddr := by assumption) : Confined B o (writeRawHeaders s r shard
    blocks) := by
  unfold writeRawHeaders
  with_reducible repeat' first | assumption | intro _ | apply writeLines_confined | split | dsimp only

theorem beginBuild_confined {B : Block → Prop} {o : State} (n : Nat) (s : State) (hs : Confined B o s) (hGdl : B .gdl := by
    assumption) (hLfl : B .lfl := by assumption) : Confined B o (beginBuild n s) := by
  unfold beginBuild
  with_reducible repeat' first
    | assumption | intro _ | apply setSlot_confined | apply setIngest_confined | refine ite_confined _ _ ?_ ?_
    | simp only [confined_gdl hGdl] | split | dsimp only

theorem codeBlock_confined {B : Block → Prop} {o : State} (e table : Nat) (rec : Bytes) (s : State) (a : Nat) (hs : Confined B o
    s) (hMem : B .mem := by assumption) (hDdr : B .ddr := by assumption) : Confined B o (codeBlock e table rec s a) := by
  unfold codeBlock
  with_reducible repeat' first
    | assumption | intro _ | apply writeLines_confined | apply patchDram_confined | refine ite_confined _ _ ?_ ?_ | split
    | dsimp only

theorem buildTable_confined {B : Block → Prop} {o : State} (e tablesAt table : Nat) (blocks : List Nat) (s : State) (hs :
    Confined B o s) (hMem : B .mem := by assumption) (hDdr : B .ddr := by assumption) : Confined B o (buildTable e tablesAt
    table blocks s) := by
  unfold buildTable
  with_reducible repeat' first
    | assumption | intro _ | apply writeLines_confined | apply codeBlock_confined
    | refine foldl_confined _ (fun _ _ _ => ?_) _ _ ?_ | refine ite_confined _ _ ?_ ?_ | split | dsimp only

theorem runBuild_confined {B : Block → Prop} {o : State} (i : Ingest) (s : State) (hs : Confined B o s) (hMem : B .mem := by
    assumption) (hDdr : B .ddr := by assumption) (hLfl : B .lfl := by assumption) (hFree : B .free := by assumption) : Confined
    B o (runBuild i s) := by
  unfold runBuild
  with_reducible repeat' first
    | assumption | intro _ | apply State.spend_confined | apply setVersion_confined | apply buildTable_confined
    | refine foldl_confined _ (fun _ _ _ => ?_) _ _ ?_ | split | dsimp only

theorem dropWrite_confined {B : Block → Prop} {o : State} (f w : Nat) (s : State) (hs : Confined B o s) (hPci : B .pci := by
    assumption) : Confined B o (dropWrite f w s) := by
  unfold dropWrite
  with_reducible repeat' first
    | assumption | intro _ | apply postEvent_confined | apply setWindow_confined | refine ite_confined _ _ ?_ ?_ | split
    | dsimp only

end Sys2Proof.Machine
end

