-- ==== Sys2Proof/Laws/ConfinedModels.lean ====
section
/-! SUPPORT. The blocks of the state that each function of Machine.Models may change. -/

namespace Sys2Proof.Machine
open Sys2Proof Numeric

theorem queueRun_confined {B : Block → Prop} {o : State} (sub : Sub) (req : RunReq) (cs : List Nat) (s : State) (hs : Confined B
    o s) (hLfl : B .lfl := by assumption) (hFree : B .free := by assumption) : Confined B o (queueRun sub req cs s) := by
  unfold queueRun
  with_reducible repeat' first
    | assumption | intro _ | apply State.spend_confined | apply addLong_confined | apply addJob_confined
    | refine ite_confined _ _ ?_ ?_ | split | dsimp only

end Sys2Proof.Machine
end

