-- ==== Sys2Proof/Laws/ConfinedRecur.lean ====
section
/-! SUPPORT. The blocks of the state that each function of Machine.Recur may change. -/

namespace Sys2Proof.Machine
open Sys2Proof Numeric

theorem copySram_confined {B : Block → Prop} {o : State} (n : Nat) (src dst : Nat → Nat) (s : State) (hs : Confined B o s) (hMem
    : B .mem := by assumption) (hGdl : B .gdl := by assumption) : Confined B o (copySram n src dst s) := by
  unfold copySram
  with_reducible repeat' first
    | assumption | intro _ | apply writeSram_confined | refine foldl_confined _ (fun _ _ _ => ?_) _ _ ?_ | split | dsimp only

theorem gatherState_confined {B : Block → Prop} {old : State} (o : OpInst) (i c : Nat) (s : State) (hs : Confined B old s) (hMem
    : B .mem := by assumption) (hGdl : B .gdl := by assumption) (hSfe : B .sfe := by assumption) : Confined B old (gatherState o
    i c s) := by
  unfold gatherState
  with_reducible repeat' first
    | assumption | intro _ | apply setCtx_confined | apply zeroUnits_confined | apply copySram_confined
    | refine ite_confined _ _ ?_ ?_ | split | dsimp only

theorem gatherFrames_confined {B : Block → Prop} {old : State} (o : OpInst) (c : Nat) (rows : List Bytes) (s : State) (hs :
    Confined B old s) (hMem : B .mem := by assumption) (hGdl : B .gdl := by assumption) : Confined B old (gatherFrames o c rows
    s) := by
  unfold gatherFrames
  with_reducible repeat' first
    | assumption | intro _ | apply writeSram_confined | refine foldl_confined _ (fun _ _ _ => ?_) _ _ ?_ | split | dsimp only

theorem takeMember_confined {B : Block → Prop} {old : State} (o : OpInst) (s : State) (x : (Nat × ReadyChunk) × Nat) (hs :
    Confined B old s) (hMem : B .mem := by assumption) (hGdl : B .gdl := by assumption) (hSfe : B .sfe := by assumption) :
    Confined B old (takeMember o s x) := by
  unfold takeMember
  with_reducible repeat' first
    | assumption | intro _ | apply setCtx_confined | apply gatherState_confined | apply gatherFrames_confined
    | refine ite_confined _ _ ?_ ?_ | split | dsimp only

theorem startChunkJob_confined {B : Block → Prop} {o : State} (i : Nat) (s : State) (hs : Confined B o s) (hCores : B .cores :=
    by assumption) (hMem : B .mem := by assumption) (hGdl : B .gdl := by assumption) (hLfl : B .lfl := by assumption) (hSfe : B
    .sfe := by assumption) : Confined B o (startChunkJob i s) := by
  unfold startChunkJob
  with_reducible repeat' first
    | assumption | intro _ | apply addJob_confined | apply advanceClass_confined | apply startStream_confined
    | apply startOn_confined | apply takeMember_confined | refine foldl_confined _ (fun _ _ _ => ?_) _ _ ?_
    | refine ite_confined _ _ ?_ ?_ | split | dsimp only

theorem writeRecord_confined {B : Block → Prop} {old : State} (o : OpInst) (m : Member) (discarded : Bool) (deg : Nat) (s :
    State) (hs : Confined B old s) (hSfe : B .sfe := by assumption) : Confined B old (writeRecord o m discarded deg s) := by
  unfold writeRecord
  with_reducible repeat' first
    | assumption | intro _ | apply setCtx_confined | refine ite_confined _ _ ?_ ?_ | split | dsimp only

theorem releaseChunk_confined {B : Block → Prop} {o : State} (m : Member) (s : State) (hs : Confined B o s) (hAudit : B .audit
    := by assumption) (hSfe : B .sfe := by assumption) (hPci : B .pci := by assumption) (hBoot : B .boot := by assumption) :
    Confined B o (releaseChunk m s) := by
  unfold releaseChunk
  with_reducible repeat' first
    | assumption | intro _ | apply setCtx_confined | apply releaseFrames_confined | refine ite_confined _ _ ?_ ?_ | split
    | dsimp only

theorem settleCtx_confined {B : Block → Prop} {o : State} (c : Nat) (s : State) (hs : Confined B o s) (hMem : B .mem := by
    assumption) (hGdl : B .gdl := by assumption) (hSfe : B .sfe := by assumption) : Confined B o (settleCtx c s) := by
  unfold settleCtx
  with_reducible repeat' first
    | assumption | intro _ | apply setCtx_confined | apply zeroUnits_confined | apply evalNeeds_confined
    | apply settleSwap_confined | apply makeReady_confined | refine ite_confined _ _ ?_ ?_ | split | dsimp only

theorem passOn_confined {B : Block → Prop} {o : State} (m : Member) (s : State) (hs : Confined B o s) (hSfe : B .sfe := by
    assumption) : Confined B o (passOn m s) := by
  unfold passOn
  with_reducible repeat' first
    | assumption | intro _ | apply setCtx_confined | refine ite_confined _ _ ?_ ?_ | split | dsimp only

theorem failChunkJob_confined {B : Block → Prop} {old : State} (n : Nat) (o : OpInst) (ms : List Member) (s : State) (hs :
    Confined B old s) (hMem : B .mem := by assumption) (hAudit : B .audit := by assumption) (hGdl : B .gdl := by assumption)
    (hLfl : B .lfl := by assumption) (hSfe : B .sfe := by assumption) (hPci : B .pci := by assumption) (hBoot : B .boot := by
    assumption) : Confined B old (failChunkJob n o ms s) := by
  unfold failChunkJob
  with_reducible repeat' first
    | assumption | intro _ | apply retireJob_confined | apply resetMark_confined | apply endStreams_confined
    | apply writeRecord_confined | apply releaseChunk_confined | apply settleCtx_confined
    | refine foldl_confined _ (fun _ _ _ => ?_) _ _ ?_ | split | dsimp only

theorem regather_confined {B : Block → Prop} {old : State} (o : OpInst) (ms : List Member) (s : State) (hs : Confined B old s)
    (hMem : B .mem := by assumption) (hGdl : B .gdl := by assumption) : Confined B old (regather o ms s) := by
  unfold regather
  with_reducible repeat' first
    | assumption | intro _ | apply copySram_confined | apply gatherFrames_confined
    | refine foldl_confined _ (fun _ _ _ => ?_) _ _ ?_ | refine ite_confined _ _ ?_ ?_ | split | dsimp only

theorem ownContext_confined {B : Block → Prop} {o : State} (sub : Sub) (ctx : Byte) (f : Nat → State → State) (s : State)
    (hf : ∀ c s, Confined B o s → Confined B o (f c s)) (hmem : Confined B o s) (hPci : B .pci := by assumption) : Confined B o
      (ownContext sub ctx f s) := by
  unfold ownContext
  split
  · exact endWith_confined _ _ _ hmem
  · split
    · exact endWith_confined _ _ _ hmem
    · exact hf _ _ hmem

theorem openContext_confined {B : Block → Prop} {o : State} (sub : Sub) (ctx : Byte) (f : Nat → State → State) (s : State)
    (hf : ∀ c s, Confined B o s → Confined B o (f c s)) (hmem : Confined B o s) (hPci : B .pci := by assumption) : Confined B o
      (openContext sub ctx f s) := by
  unfold openContext
  refine ownContext_confined _ _ _ _ (fun c s h => ?_) hmem
  split
  · exact hf _ _ h
  · exact endWith_confined _ _ _ h

theorem ctxSelWrite_confined {B : Block → Prop} {o : State} (v : Word) (s : State) (hs : Confined B o s) (hLfl : B .lfl := by
    assumption) : Confined B o (ctxSelWrite v s) := by
  unfold ctxSelWrite
  with_reducible repeat' first
    | assumption | intro _ | refine ite_confined _ _ ?_ ?_ | simp only [confined_lfl hLfl] | split | dsimp only

end Sys2Proof.Machine
end

