-- ==== Sys2Proof/Laws/ConfinedPasses.lean ====
section
/-! SUPPORT. The blocks of the state that each function of Machine.Passes may change. -/

namespace Sys2Proof.Machine
open Sys2Proof Numeric

theorem startPassStreams_confined {B : Block → Prop} {o : State} (n h budget : Nat) (seqs : List PassSeq) (s : State) (hs :
    Confined B o s) (hGdl : B .gdl := by assumption) (hFree : B .free := by assumption) : Confined B o (startPassStreams n h
    budget seqs s) := by
  unfold startPassStreams
  with_reducible repeat' first
    | assumption | intro _ | apply startStream_confined | apply startImageStream_confined
    | refine foldl_confined _ (fun _ _ _ => ?_) _ _ ?_ | split | dsimp only

theorem startPass_confined {B : Block → Prop} {o : State} (h : Nat) (s : State) (hs : Confined B o s) (hCores : B .cores := by
    assumption) (hGdl : B .gdl := by assumption) (hLfl : B .lfl := by assumption) (hFree : B .free := by assumption) : Confined
    B o (startPass h s) := by
  unfold startPass
  with_reducible repeat' first
    | assumption | intro _ | apply addJob_confined | apply advanceClass_confined | apply startOn_confined
    | apply startPassStreams_confined | refine ite_confined _ _ ?_ ?_ | split | dsimp only

theorem endWaiting_confined {B : Block → Prop} {o : State} (n : Nat) (st : BitVec 16) (s : State) (hs : Confined B o s) (hLfl :
    B .lfl := by assumption) (hPci : B .pci := by assumption) : Confined B o (endWaiting n st s) := by
  unfold endWaiting
  with_reducible repeat' first
    | assumption | intro _ | apply setJob_confined | apply finishHostJob_confined | split | dsimp only

theorem startWaiting_confined {B : Block → Prop} {o : State} (n : Nat) (s : State) (hs : Confined B o s) (hCores : B .cores :=
    by assumption) (hMem : B .mem := by assumption) (hGdl : B .gdl := by assumption) (hLfl : B .lfl := by assumption) (hPci : B
    .pci := by assumption) (hFree : B .free := by assumption) : Confined B o (startWaiting n s) := by
  unfold startWaiting
  with_reducible repeat' first
    | assumption | intro _ | apply advanceClass_confined | apply startStream_confined | apply startOn_confined
    | apply regather_confined | apply startPassStreams_confined | apply endWaiting_confined | refine ite_confined _ _ ?_ ?_
    | split | dsimp only

theorem restoreRun_confined {B : Block → Prop} {o : State} (c : Nat) (s : State) (hs : Confined B o s) (hCores : B .cores := by
    assumption) (hMem : B .mem := by assumption) : Confined B o (restoreRun c s) := by
  unfold restoreRun
  with_reducible repeat' first | assumption | intro _ | apply setMems_confined | apply updCore_confined | split | dsimp only

theorem resumeJob_confined {B : Block → Prop} {o : State} (n : Nat) (s : State) (hs : Confined B o s) (hCores : B .cores := by
    assumption) (hMem : B .mem := by assumption) (hLfl : B .lfl := by assumption) (hPci : B .pci := by assumption) : Confined B
    o (resumeJob n s) := by
  unfold resumeJob
  with_reducible repeat' first
    | assumption | intro _ | apply markLong_confined | apply settleLong_confined | apply setJob_confined
    | apply restoreRun_confined | refine foldl_confined _ (fun _ _ _ => ?_) _ _ ?_ | refine ite_confined _ _ ?_ ?_ | split
    | dsimp only

theorem commitTokens_confined {B : Block → Prop} {o : State} (n : Nat) (toks : List (Word × Bool)) (s : State) (hs : Confined B
    o s) (hMem : B .mem := by assumption) (hLfl : B .lfl := by assumption) (hPci : B .pci := by assumption) : Confined B o
    (commitTokens n toks s) := by
  unfold commitTokens
  with_reducible repeat' first
    | assumption | intro _ | apply setMems_confined | apply postEvent_confined | apply setReq_confined
    | refine ite_confined _ _ ?_ ?_ | split | dsimp only

theorem setSeq_confined {B : Block → Prop} {o : State} (a : SeqAt) (q : Sequence) (s : State) (hs : Confined B o s) (hLfl : B
    .lfl := by assumption) : Confined B o (setSeq a q s) := by
  unfold setSeq
  with_reducible repeat' first
    | assumption | intro _ | apply setReq_confined | refine ite_confined _ _ ?_ ?_ | split | dsimp only

theorem appendRows_confined {B : Block → Prop} {o : State} (a : SeqAt) (row0 rows : Nat) (s : State) (hmem : Confined B o s)
    (hMem : B .mem := by assumption) (hAudit : B .audit := by assumption) (hDdr : B .ddr := by assumption) (hLfl : B .lfl := by
    assumption) (hPci : B .pci := by assumption) (hBoot : B .boot := by assumption) : Confined B o (appendRows a row0 rows s) :=
    by
  have key : Confined B o ((List.range rows).foldl (fun acc i =>
      appendOne a.t a.nkv a.n ((seqOf s a).lkv + (seqOf s a).prov + i) (appendRow s a.t 0 a.nkv (row0 + i) a.g) a.g acc)
      (seqOf s a, s, 0)).2.1 :=
    foldl_keeps (fun (x : Sequence × State × Nat) => Confined B o x.2.1) _ (fun _ _ h => appendOne_confined _ _ _ _ _ _ _ h) _ _
      hmem
  unfold appendRows
  repeat' first
    | with_reducible exact key | with_reducible assumption
    | with_reducible apply setReq_confined
    | with_reducible apply setSeq_confined
    | with_reducible refine ite_confined _ _ ?_ ?_
    | simp only [confined_lfl hLfl]
    | dsimp only

theorem commitTo_confined {B : Block → Prop} {o : State} (a : SeqAt) (len held : Nat) (s : State) (hs : Confined B o s) (hMem :
    B .mem := by assumption) (hAudit : B .audit := by assumption) (hDdr : B .ddr := by assumption) (hLfl : B .lfl := by
    assumption) (hPci : B .pci := by assumption) (hBoot : B .boot := by assumption) : Confined B o (commitTo a len held s) := by
  unfold commitTo
  with_reducible repeat' first | assumption | intro _ | apply commitSeq_confined | apply setSeq_confined | split | dsimp only

theorem keepQuery_confined {B : Block → Prop} {o : State} (a : SeqAt) (row : Nat) (s : State) (hs : Confined B o s) (hMem : B
    .mem := by assumption) (hDdr : B .ddr := by assumption) : Confined B o (keepQuery a row s) := by
  unfold keepQuery
  with_reducible repeat' first
    | assumption | intro _ | apply storeQuery_confined | refine ite_confined _ _ ?_ ?_ | split | dsimp only

theorem leavePrefill_confined {B : Block → Prop} {o : State} (n : Nat) (s : State) (hs : Confined B o s) (hLfl : B .lfl := by
    assumption) : Confined B o (leavePrefill n s) := by
  unfold leavePrefill
  with_reducible repeat' first
    | assumption | intro _ | apply setReq_confined | refine ite_confined _ _ ?_ ?_ | split | dsimp only

theorem resolvePrefill_confined {B : Block → Prop} {o : State} (a : SeqAt) (row0 rows : Nat) (s : State) (hs : Confined B o s)
    (hMem : B .mem := by assumption) (hAudit : B .audit := by assumption) (hDdr : B .ddr := by assumption) (hLfl : B .lfl := by
    assumption) (hPci : B .pci := by assumption) (hBoot : B .boot := by assumption) : Confined B o (resolvePrefill a row0 rows
    s) := by
  unfold resolvePrefill
  with_reducible repeat' first
    | assumption | intro _ | apply commitTokens_confined | apply commitTo_confined | apply keepQuery_confined
    | apply leavePrefill_confined | refine ite_confined _ _ ?_ ?_ | split | dsimp only

theorem resolveDecode_confined {B : Block → Prop} {o : State} (a : SeqAt) (row0 : Nat) (s : State) (hs : Confined B o s) (hMem :
    B .mem := by assumption) (hAudit : B .audit := by assumption) (hDdr : B .ddr := by assumption) (hLfl : B .lfl := by
    assumption) (hPci : B .pci := by assumption) (hBoot : B .boot := by assumption) : Confined B o (resolveDecode a row0 s) :=
    by
  unfold resolveDecode
  with_reducible repeat' first
    | assumption | intro _ | apply commitTokens_confined | apply commitTo_confined | apply keepQuery_confined | split
    | dsimp only

theorem resolveDraft_confined {B : Block → Prop} {o : State} (a : SeqAt) (row0 rows i : Nat) (s : State) (hs : Confined B o s)
    (hMem : B .mem := by assumption) (hAudit : B .audit := by assumption) (hDdr : B .ddr := by assumption) (hLfl : B .lfl := by
    assumption) (hPci : B .pci := by assumption) (hBoot : B .boot := by assumption) : Confined B o (resolveDraft a row0 rows i
    s) := by
  unfold resolveDraft
  with_reducible repeat' first
    | assumption | intro _ | apply setReq_confined | apply commitTo_confined | apply keepQuery_confined
    | refine ite_confined _ _ ?_ ?_ | split | dsimp only

theorem suspendSpeculation_confined {B : Block → Prop} {o : State} (n : Nat) (s : State) (hs : Confined B o s) (hAudit : B
    .audit := by assumption) (hLfl : B .lfl := by assumption) (hPci : B .pci := by assumption) (hBoot : B .boot := by
    assumption) : Confined B o (suspendSpeculation n s) := by
  unfold suspendSpeculation
  with_reducible repeat' first
    | assumption | intro _ | apply dropRefs_confined | apply setReq_confined | refine ite_confined _ _ ?_ ?_
    | simp only [confined_lfl hLfl] | split | dsimp only

theorem resolveVerify_confined {B : Block → Prop} {o : State} (a : SeqAt) (row0 rows : Nat) (degraded : Bool) (s : State) (hs :
    Confined B o s) (hMem : B .mem := by assumption) (hAudit : B .audit := by assumption) (hDdr : B .ddr := by assumption) (hLfl
    : B .lfl := by assumption) (hPci : B .pci := by assumption) (hBoot : B .boot := by assumption) : Confined B o (resolveVerify
    a row0 rows degraded s) := by
  unfold resolveVerify
  with_reducible repeat' first
    | assumption | intro _ | apply setReq_confined | apply commitTokens_confined | apply commitTo_confined
    | apply keepQuery_confined | apply suspendSpeculation_confined | refine ite_confined _ _ ?_ ?_ | split | dsimp only

theorem settleRequest_confined {B : Block → Prop} {o : State} (n : Nat) (s : State) (hs : Confined B o s) (hLfl : B .lfl := by
    assumption) (hPci : B .pci := by assumption) : Confined B o (settleRequest n s) := by
  unfold settleRequest
  with_reducible repeat' first
    | assumption | intro _ | apply markLong_confined | apply settleLong_confined | apply setReq_confined
    | refine ite_confined _ _ ?_ ?_ | split | dsimp only

theorem resolveSeq_confined {B : Block → Prop} {o : State} (degraded : Bool) (seqs : List PassSeq) (s : State) (i : Nat) (hs :
    Confined B o s) (hMem : B .mem := by assumption) (hAudit : B .audit := by assumption) (hDdr : B .ddr := by assumption) (hLfl
    : B .lfl := by assumption) (hPci : B .pci := by assumption) (hBoot : B .boot := by assumption) : Confined B o (resolveSeq
    degraded seqs s i) := by
  unfold resolveSeq
  with_reducible repeat' first
    | assumption | intro _ | apply setReq_confined | apply appendRows_confined | apply resolvePrefill_confined
    | apply resolveDecode_confined | apply resolveDraft_confined | apply resolveVerify_confined
    | refine ite_confined _ _ ?_ ?_ | split | dsimp only

theorem recordStep_confined {B : Block → Prop} {o : State} (h d : Nat) (s : State) (hs : Confined B o s) (hLfl : B .lfl := by
    assumption) : Confined B o (recordStep h d s) := by
  unfold recordStep
  with_reducible repeat' first | assumption | intro _ | apply setVersion_confined | split | dsimp only

theorem retirePass_confined {B : Block → Prop} {o : State} (n : Nat) (s : State) (hs : Confined B o s) (hGdl : B .gdl := by
    assumption) (hLfl : B .lfl := by assumption) : Confined B o (retirePass n s) := by
  unfold retirePass
  with_reducible repeat' first
    | assumption | intro _ | apply retireJob_confined | apply endStreams_confined | split | dsimp only

theorem failPass_confined {B : Block → Prop} {o : State} (n : Nat) (seqs : List PassSeq) (st : BitVec 16) (s : State) (hs :
    Confined B o s) (hGdl : B .gdl := by assumption) (hLfl : B .lfl := by assumption) : Confined B o (failPass n seqs st s) :=
    by
  unfold failPass
  with_reducible repeat' first
    | assumption | intro _ | apply setReq_confined | apply retirePass_confined
    | refine foldl_confined _ (fun _ _ _ => ?_) _ _ ?_ | refine ite_confined _ _ ?_ ?_ | split | dsimp only

theorem completePass_confined {B : Block → Prop} {o : State} (n h : Nat) (seqs : List PassSeq) (s : State) (hs : Confined B o s)
    (hMem : B .mem := by assumption) (hAudit : B .audit := by assumption) (hGdl : B .gdl := by assumption) (hDdr : B .ddr := by
    assumption) (hLfl : B .lfl := by assumption) (hPci : B .pci := by assumption) (hBoot : B .boot := by assumption) (hFree : B
    .free := by assumption) : Confined B o (completePass n h seqs s) := by
  unfold completePass
  with_reducible repeat' first
    | assumption | intro _ | apply State.spend_confined | apply setJob_confined | apply endStreams_confined
    | apply settleRequest_confined | apply resolveSeq_confined | apply recordStep_confined | apply retirePass_confined
    | apply failPass_confined | refine foldl_confined _ (fun _ _ _ => ?_) _ _ ?_ | refine ite_confined _ _ ?_ ?_ | split
    | dsimp only

theorem endRequest_confined {B : Block → Prop} {o : State} (n : Nat) (s : State) (hs : Confined B o s) (hAudit : B .audit := by
    assumption) (hLfl : B .lfl := by assumption) (hPci : B .pci := by assumption) (hBoot : B .boot := by assumption) : Confined
    B o (endRequest n s) := by
  unfold endRequest
  with_reducible repeat' first
    | assumption | intro _ | apply finishLong_confined | apply dropRefs_confined | apply unref_confined
    | apply setReq_confined | apply setLedger_confined | split | dsimp only

end Sys2Proof.Machine
end

