-- ==== Sys2Proof/Laws/ConfinedControl.lean ====
section
/-! SUPPORT. The blocks of the state that each function of Machine.Control may change. -/

namespace Sys2Proof.Machine
open Sys2Proof Numeric

theorem suspendJob_confined {B : Block → Prop} {o : State} (n : Nat) (s : State) (hs : Confined B o s) (hCores : B .cores := by
    assumption) (hLfl : B .lfl := by assumption) (hPci : B .pci := by assumption) : Confined B o (suspendJob n s) := by
  unfold suspendJob
  with_reducible repeat' first
    | assumption | intro _ | apply markLong_confined | apply settleLong_confined | apply setJob_confined
    | apply setRun_confined | apply settleSuspend_confined | refine foldl_confined _ (fun _ _ _ => ?_) _ _ ?_
    | refine ite_confined _ _ ?_ ?_ | split | dsimp only

theorem cancelJob_confined {B : Block → Prop} {o : State} (n : Nat) (s : State) (hs : Confined B o s) (hCores : B .cores := by
    assumption) (hMem : B .mem := by assumption) (hLfl : B .lfl := by assumption) (hPci : B .pci := by assumption) : Confined B
    o (cancelJob n s) := by
  unfold cancelJob
  with_reducible repeat' first
    | assumption | intro _ | apply cancelCores_confined | apply endWaiting_confined | refine ite_confined _ _ ?_ ?_ | split
    | dsimp only

theorem suspendRetrain_confined {B : Block → Prop} {o : State} (n : Nat) (s : State) (hs : Confined B o s) (hLfl : B .lfl := by
    assumption) (hPci : B .pci := by assumption) : Confined B o (suspendRetrain n s) := by
  unfold suspendRetrain
  with_reducible repeat' first
    | assumption | intro _ | apply markLong_confined | apply settleLong_confined | refine ite_confined _ _ ?_ ?_ | split
    | dsimp only

theorem resumeRetrain_confined {B : Block → Prop} {o : State} (n : Nat) (s : State) (hs : Confined B o s) (hDdr : B .ddr := by
    assumption) (hLfl : B .lfl := by assumption) (hPci : B .pci := by assumption) : Confined B o (resumeRetrain n s) := by
  unfold resumeRetrain
  with_reducible repeat' first
    | assumption | intro _ | apply markLong_confined | apply settleLong_confined | apply nextRetrainStart_confined
    | refine ite_confined _ _ ?_ ?_ | simp only [confined_ddr hDdr] | split | dsimp only

theorem cancelRetrain_confined {B : Block → Prop} {o : State} (n : Nat) (s : State) (hs : Confined B o s) (hDdr : B .ddr := by
    assumption) (hLfl : B .lfl := by assumption) (hPci : B .pci := by assumption) : Confined B o (cancelRetrain n s) := by
  unfold cancelRetrain
  with_reducible repeat' first
    | assumption | intro _ | apply finishLong_confined | apply endRetrain_confined | refine ite_confined _ _ ?_ ?_
    | simp only [confined_ddr hDdr] | split | dsimp only

theorem suspendLong_confined {B : Block → Prop} {o : State} (k : LongKind) (s : State) (hs : Confined B o s) (hCores : B .cores
    := by assumption) (hFlt : B .flt := by assumption) (hLfl : B .lfl := by assumption) (hPci : B .pci := by assumption) :
    Confined B o (suspendLong k s) := by
  unfold suspendLong
  with_reducible repeat' first
    | assumption | intro _ | apply suspendFlash_confined | apply suspendIngest_confined | apply settleRequest_confined
    | apply suspendJob_confined | apply suspendRetrain_confined | split | dsimp only

theorem resumeLong_confined {B : Block → Prop} {o : State} (k : LongKind) (s : State) (hs : Confined B o s) (hCores : B .cores
    := by assumption) (hMem : B .mem := by assumption) (hDdr : B .ddr := by assumption) (hFlt : B .flt := by assumption) (hLfl :
    B .lfl := by assumption) (hPci : B .pci := by assumption) : Confined B o (resumeLong k s) := by
  unfold resumeLong
  with_reducible repeat' first
    | assumption | intro _ | apply markLong_confined | apply settleLong_confined | apply setReq_confined
    | apply resumeFlash_confined | apply resumeIngest_confined | apply resumeJob_confined | apply resumeRetrain_confined
    | split | dsimp only

theorem cancelLong_confined {B : Block → Prop} {o : State} (k : LongKind) (s : State) (hs : Confined B o s) (hCores : B .cores
    := by assumption) (hMem : B .mem := by assumption) (hGdl : B .gdl := by assumption) (hDdr : B .ddr := by assumption) (hFlt :
    B .flt := by assumption) (hLfl : B .lfl := by assumption) (hPci : B .pci := by assumption) : Confined B o (cancelLong k s)
    := by
  unfold cancelLong
  with_reducible repeat' first
    | assumption | intro _ | apply cancelFlash_confined | apply cancelIngest_confined | apply settleRequest_confined
    | apply cancelJob_confined | apply cancelRetrain_confined | split | dsimp only

end Sys2Proof.Machine
end

