-- ==== Sys2Proof/Laws/ConfinedQueue.lean ====
section
/-! SUPPORT. The blocks of the state that each function of Machine.Queue may change. -/

namespace Sys2Proof.Machine
open Sys2Proof Numeric

theorem setSlots_confined {B : Block → Prop} {o : State} (f q : Nat) (g : Pool → Pool) (s : State) (hs : Confined B o s) (hAudit
    : B .audit := by assumption) (hPci : B .pci := by assumption) (hBoot : B .boot := by assumption) : Confined B o (setSlots f
    q g s) := by
  unfold setSlots
  with_reducible repeat' first | assumption | intro _ | apply conserve_confined | apply setQueue_confined | split | dsimp only

theorem submitEntries_confined {B : Block → Prop} {o : State} (f q : Nat) (v : Word) (s : State) (hs : Confined B o s) (hAudit :
    B .audit := by assumption) (hPci : B .pci := by assumption) (hBoot : B .boot := by assumption) : Confined B o (submitEntries
    f q v s) := by
  unfold submitEntries
  with_reducible repeat' first
    | assumption | intro _ | apply setQueue_confined | apply queueError_confined | apply setSlots_confined
    | refine ite_confined _ _ ?_ ?_ | split | dsimp only

theorem passCompletions_confined {B : Block → Prop} {o : State} (f q : Nat) (v : Word) (s : State) (hs : Confined B o s) (hPci :
    B .pci := by assumption) : Confined B o (passCompletions f q v s) := by
  unfold passCompletions
  with_reducible repeat' first
    | assumption | intro _ | apply setQueue_confined | apply queueError_confined | refine ite_confined _ _ ?_ ?_ | split
    | dsimp only

theorem passEvents_confined {B : Block → Prop} {o : State} (f : Nat) (v : Word) (s : State) (hs : Confined B o s) (hPci : B .pci
    := by assumption) : Confined B o (passEvents f v s) := by
  unfold passEvents
  with_reducible repeat' first
    | assumption | intro _ | apply setFunc_confined | refine ite_confined _ _ ?_ ?_ | split | dsimp only

theorem takeEntry_confined {B : Block → Prop} {o : State} (f q : Nat) (entry : Bytes) (s : State) (hs : Confined B o s) (hPci :
    B .pci := by assumption) : Confined B o (takeEntry f q entry s) := by
  unfold takeEntry
  with_reducible repeat' first
    | assumption | intro _ | apply setFunc_confined | apply setQueue_confined | apply endWith_confined
    | refine ite_confined _ _ ?_ ?_ | simp only [confined_pci hPci] | split | dsimp only

theorem writeCompletion_confined {B : Block → Prop} {o : State} (f q : Nat) (c : Completion) (s : State) (hs : Confined B o s)
    (hMem : B .mem := by assumption) (hAudit : B .audit := by assumption) (hPci : B .pci := by assumption) (hBoot : B .boot :=
    by assumption) : Confined B o (writeCompletion f q c s) := by
  unfold writeCompletion
  with_reducible repeat' first
    | assumption | intro _ | apply setMems_confined | apply setQueue_confined | apply endWith_confined
    | apply setSlots_confined | refine foldl_confined _ (fun _ _ _ => ?_) _ _ ?_ | refine ite_confined _ _ ?_ ?_ | split
    | dsimp only

theorem setEvq_confined {B : Block → Prop} {o : State} (f : Nat) (g : EventQueue → EventQueue) (s : State) (hs : Confined B o s)
    (hPci : B .pci := by assumption) : Confined B o (setEvq f g s) := by
  unfold setEvq
  with_reducible repeat' first | assumption | intro _ | apply setFunc_confined | split | dsimp only

theorem writeLost_confined {B : Block → Prop} {o : State} (f : Nat) (s : State) (hs : Confined B o s) (hMem : B .mem := by
    assumption) (hPci : B .pci := by assumption) : Confined B o (writeLost f s) := by
  unfold writeLost
  with_reducible repeat' first
    | assumption | intro _ | apply writeEvent_confined | apply setEvq_confined | refine ite_confined _ _ ?_ ?_ | split
    | dsimp only

theorem placeEvent_confined {B : Block → Prop} {o : State} (f : Nat) (s : State) (hs : Confined B o s) (hMem : B .mem := by
    assumption) (hPci : B .pci := by assumption) : Confined B o (placeEvent f s) := by
  unfold placeEvent
  with_reducible repeat' first
    | assumption | intro _ | apply writeEvent_confined | apply setEvq_confined | apply writeLost_confined
    | refine ite_confined _ _ ?_ ?_ | split | dsimp only

theorem createQueue_confined {B : Block → Prop} {o : State} (f q g : Nat) (s : State) (hs : Confined B o s) (hAudit : B .audit :=
    by assumption) (hPci : B .pci := by assumption) (hBoot : B .boot := by assumption) : Confined B o (createQueue f q g s) := by
  unfold createQueue
  with_reducible repeat' first | assumption | intro _ | apply conserve_confined | apply setQueue_confined | split | dsimp only

theorem queueSelect_confined {B : Block → Prop} {o : State} (f : Nat) (v : Word) (s : State) (hs : Confined B o s) (hAudit : B
    .audit := by assumption) (hPci : B .pci := by assumption) (hBoot : B .boot := by assumption) : Confined B o (queueSelect f v
    s) := by
  unfold queueSelect
  with_reducible repeat' first
    | assumption | intro _ | apply setFunc_confined | apply setQueue_confined | apply createQueue_confined
    | refine ite_confined _ _ ?_ ?_ | split | dsimp only

theorem eventConfigure_confined {B : Block → Prop} {o : State} (f : Nat) (v : Word) (s : State) (hs : Confined B o s) (hPci : B
    .pci := by assumption) : Confined B o (eventConfigure f v s) := by
  unfold eventConfigure
  with_reducible repeat' first
    | assumption | intro _ | apply setEvq_confined | refine ite_confined _ _ ?_ ?_ | split | dsimp only

end Sys2Proof.Machine
end

