-- ==== Sys2Proof/Laws/ConfinedSfe.lean ====
section
/-! SUPPORT. The blocks of the state that each function of Machine.Sfe may change. -/

namespace Sys2Proof.Machine
open Sys2Proof Numeric

theorem grantWrite_confined {B : Block → Prop} {o : State} (v : Word) (s : State) (hs : Confined B o s) (hSfe : B .sfe := by
    assumption) (hPci : B .pci := by assumption) : Confined B o (grantWrite v s) := by
  unfold grantWrite
  with_reducible repeat' first
    | assumption | intro _ | apply setFunc_confined | apply setCtx_confined | refine ite_confined _ _ ?_ ?_
    | simp only [confined_sfe hSfe] | split | dsimp only

theorem ctxSelectWrite_confined {B : Block → Prop} {o : State} (fn : Nat) (v : Word) (s : State) (hs : Confined B o s) (hSfe : B
    .sfe := by assumption) (hPci : B .pci := by assumption) : Confined B o (ctxSelectWrite fn v s) := by
  unfold ctxSelectWrite
  with_reducible repeat' first
    | assumption | intro _ | apply setFunc_confined | apply grantWrite_confined | refine ite_confined _ _ ?_ ?_ | split
    | dsimp only

theorem setCsiPort_confined {B : Block → Prop} {o : State} (p : Nat) (f : CsiPort → CsiPort) (s : State) (hs : Confined B o s)
    (hSfe : B .sfe := by assumption) : Confined B o (setCsiPort p f s) := by
  unfold setCsiPort
  with_reducible repeat' first | assumption | intro _ | simp only [confined_sfe hSfe] | split | dsimp only

theorem setCsiFrame_confined {B : Block → Prop} {o : State} (i : Nat) (f : CsiFrame → CsiFrame) (s : State) (hs : Confined B o
    s) (hSfe : B .sfe := by assumption) : Confined B o (setCsiFrame i f s) := by
  unfold setCsiFrame
  with_reducible repeat' first | assumption | intro _ | simp only [confined_sfe hSfe] | split | dsimp only

theorem sourceFrame_confined {B : Block → Prop} {o : State} (i : Nat) (jump : Bool) (im : Option ImageIn) (s : State) (hs :
    Confined B o s) (hSfe : B .sfe := by assumption) : Confined B o (sourceFrame i jump im s) := by
  unfold sourceFrame
  with_reducible repeat' first
    | assumption | intro _ | apply setCtx_confined | apply queueImage_confined | apply setCsiPort_confined
    | refine ite_confined _ _ ?_ ?_ | simp only [confined_sfe hSfe] | split | dsimp only

theorem loseCsi_confined {B : Block → Prop} {o : State} (i : Nat) (s : State) (hs : Confined B o s) (hSfe : B .sfe := by
    assumption) : Confined B o (loseCsi i s) := by
  unfold loseCsi
  with_reducible repeat' first
    | assumption | intro _ | apply setCsiFrame_confined | apply sourceFrame_confined | split | dsimp only

theorem csiConfigure_confined {B : Block → Prop} {o : State} (p : Nat) (s : State) (hs : Confined B o s) (hSfe : B .sfe := by
    assumption) : Confined B o (csiConfigure p s) := by
  unfold csiConfigure
  with_reducible repeat' first
    | assumption | intro _ | apply setCsiPort_confined | apply setCsiFrame_confined
    | refine foldl_confined _ (fun _ _ _ => ?_) _ _ ?_ | refine ite_confined _ _ ?_ ?_ | simp only [confined_sfe hSfe] | split
    | dsimp only

theorem csiStart_confined {B : Block → Prop} {o : State} (i num : Nat) (s : State) (hs : Confined B o s) (hSfe : B .sfe := by
    assumption) : Confined B o (csiStart i num s) := by
  unfold csiStart
  with_reducible repeat' first
    | assumption | intro _ | apply setCsiFrame_confined | apply loseCsi_confined | refine ite_confined _ _ ?_ ?_
    | simp only [confined_sfe hSfe] | split | dsimp only

theorem csiEnd_confined {B : Block → Prop} {o : State} (i : Nat) (s : State) (hs : Confined B o s) (hSfe : B .sfe := by
    assumption) : Confined B o (csiEnd i s) := by
  unfold csiEnd
  with_reducible repeat' first
    | assumption | intro _ | apply setCsiFrame_confined | apply sourceFrame_confined | apply loseCsi_confined
    | refine ite_confined _ _ ?_ ?_ | split | dsimp only

theorem csiLine_confined {B : Block → Prop} {o : State} (i : Nat) (payload : Bytes) (crcOk overflow : Bool) (s : State) (hs :
    Confined B o s) (hSfe : B .sfe := by assumption) : Confined B o (csiLine i payload crcOk overflow s) := by
  unfold csiLine
  with_reducible repeat' first
    | assumption | intro _ | apply setCsiPort_confined | apply setCsiFrame_confined | refine ite_confined _ _ ?_ ?_ | split
    | dsimp only

theorem csiBody_confined {B : Block → Prop} {o : State} (p : Nat) (k : CsiPacket) (s : State) (hs : Confined B o s) (hSfe : B
    .sfe := by assumption) : Confined B o (csiBody p k s) := by
  unfold csiBody
  with_reducible repeat' first
    | assumption | intro _ | apply setCsiPort_confined | apply csiConfigure_confined | apply csiStart_confined
    | apply csiEnd_confined | apply csiLine_confined | refine foldl_confined _ (fun _ _ _ => ?_) _ _ ?_
    | refine ite_confined _ _ ?_ ?_ | split | dsimp only

theorem addInst_confined {B : Block → Prop} {o : State} (t h : Nat) (s : State) (x : RecRec × Nat) (hs : Confined B o s) (hLfl :
    B .lfl := by assumption) : Confined B o (addInst t h s x) := by
  unfold addInst
  with_reducible repeat' first
    | assumption | intro _ | refine ite_confined _ _ ?_ ?_ | simp only [confined_lfl hLfl] | split | dsimp only

theorem openStream_confined {B : Block → Prop} {o : State} (c h : Nat) (r : Bytes) (s : State) (hs : Confined B o s) (hAudit : B
    .audit := by assumption) (hLfl : B .lfl := by assumption) (hSfe : B .sfe := by assumption) (hPci : B .pci := by assumption)
    (hBoot : B .boot := by assumption) : Confined B o (openStream c h r s) := by
  unfold openStream
  with_reducible repeat' first
    | assumption | intro _ | apply setCtx_confined | apply refVersion_confined | apply setStreamPool_confined
    | apply addInst_confined | refine foldl_confined _ (fun _ _ _ => ?_) _ _ ?_ | refine ite_confined _ _ ?_ ?_
    | simp only [confined_sfe hSfe] | split | dsimp only

theorem repeatFrames_confined {B : Block → Prop} {o : State} (f : State → State) (hf : ∀ s, Confined B o s → Confined B o (f s))
    (n : Nat) (s : State)
    (hmem : Confined B o s) : Confined B o (repeatFrames f n s) := by
  induction n generalizing s with
  | zero => exact hmem
  | succ n ih => exact ih _ (hf _ hmem)

theorem pushRow_confined {B : Block → Prop} {o : State} (c : Nat) (data : Bytes) (s : State) (i : Nat) (hs : Confined B o s)
    (hMem : B .mem := by assumption) (hAudit : B .audit := by assumption) (hGdl : B .gdl := by assumption) (hLfl : B .lfl := by
    assumption) (hSfe : B .sfe := by assumption) (hPci : B .pci := by assumption) (hBoot : B .boot := by assumption) : Confined
    B o (pushRow c data s i) := by
  unfold pushRow
  with_reducible repeat' first | assumption | intro _ | apply frameArrives_confined | split | dsimp only

theorem pushData_confined {B : Block → Prop} {o : State} (sub : Sub) (c : Nat) (data : Bytes) (s : State) (hs : Confined B o s)
    (hMem : B .mem := by assumption) (hAudit : B .audit := by assumption) (hGdl : B .gdl := by assumption) (hDdr : B .ddr := by
    assumption) (hLfl : B .lfl := by assumption) (hSfe : B .sfe := by assumption) (hPci : B .pci := by assumption) (hBoot : B
    .boot := by assumption) (hFree : B .free := by assumption) : Confined B o (pushData sub c data s) := by
  unfold pushData
  with_reducible repeat' first
    | assumption | intro _ | apply setCtx_confined | apply endWith_confined | apply deliverImage_confined
    | apply audioFrame_confined | apply repeatFrames_confined | apply pushRow_confined
    | refine foldl_confined _ (fun _ _ _ => ?_) _ _ ?_ | refine ite_confined _ _ ?_ ?_ | split | dsimp only

end Sys2Proof.Machine
end

