-- ==== Sys2Proof/Laws/ConfinedPowerOps.lean ====
section
/-! SUPPORT. The blocks of the state that each function of Machine.PowerOps may change. -/

namespace Sys2Proof.Machine
open Sys2Proof Numeric

theorem poisonGroup_confined {B : Block → Prop} {o : State} (d : Nat) (all : Bool) (s : State) (hs : Confined B o s) (hDdr : B
    .ddr := by assumption) : Confined B o (poisonGroup d all s) := by
  unfold poisonGroup
  with_reducible repeat' first
    | assumption | intro _ | refine ite_confined _ _ ?_ ?_ | simp only [confined_ddr hDdr] | split | dsimp only

theorem trainOne_confined {B : Block → Prop} {o : State} (w0 w1 : LaneSweep) (c : Nat) (s : State) (hs : Confined B o s) (hDdr :
    B .ddr := by assumption) (hPci : B .pci := by assumption) : Confined B o (trainOne w0 w1 c s) := by
  unfold trainOne
  with_reducible repeat' first
    | assumption | intro _ | apply setChan_confined | apply markFailing_confined | refine ite_confined _ _ ?_ ?_ | split
    | dsimp only

theorem trainGroup_confined {B : Block → Prop} {o : State} (d : Nat) (s : State) (hs : Confined B o s) (hDdr : B .ddr := by
    assumption) (hPci : B .pci := by assumption) (hFree : B .free := by assumption) : Confined B o (trainGroup d s) := by
  unfold trainGroup
  with_reducible repeat' first
    | assumption | intro _ | apply State.spend_confined | apply trainOne_confined
    | refine foldl_confined _ (fun _ _ _ => ?_) _ _ ?_ | split | dsimp only

theorem flushChecks_confined {B : Block → Prop} {o : State} (d : Nat) (s : State) (hs : Confined B o s) (hDdr : B .ddr := by
    assumption) : Confined B o (flushChecks d s) := by
  unfold flushChecks
  with_reducible repeat' first
    | assumption | intro _ | apply setChan_confined | refine foldl_confined _ (fun _ _ _ => ?_) _ _ ?_ | split | dsimp only

theorem freshBridges_confined {B : Block → Prop} {o : State} (h : Nat) (s : State) (hs : Confined B o s) (hBridges : B .bridges
    := by assumption) : Confined B o (freshBridges h s) := by
  unfold freshBridges
  with_reducible repeat' first
    | assumption | intro _ | refine ite_confined _ _ ?_ ?_ | simp only [confined_bridges hBridges] | split | dsimp only

theorem zeroGroup_confined {B : Block → Prop} {o : State} (d : Nat) (s : State) (hs : Confined B o s) (hMem : B .mem := by
    assumption) (hGdl : B .gdl := by assumption) : Confined B o (zeroGroup d s) := by
  unfold zeroGroup
  with_reducible repeat' first
    | assumption | intro _ | simp only [confined_mem_gdl hMem hGdl] | split | dsimp only

theorem forgetContexts_confined {B : Block → Prop} {o : State} (s : State) (hs : Confined B o s) (hSfe : B .sfe := by
    assumption) : Confined B o (forgetContexts s) := by
  unfold forgetContexts
  with_reducible repeat' first | assumption | intro _ | simp only [confined_sfe hSfe] | split | dsimp only

theorem enterSleep_confined {B : Block → Prop} {o : State} (d : Nat) (t : DomState) (s : State) (hs : Confined B o s) (hCores :
    B .cores := by assumption) (hMem : B .mem := by assumption) (hBridges : B .bridges := by assumption) (hGdl : B .gdl := by
    assumption) (hDdr : B .ddr := by assumption) (hSfe : B .sfe := by assumption) : Confined B o (enterSleep d t s) := by
  unfold enterSleep
  with_reducible repeat' first
    | assumption | intro _ | apply resetCore_confined | apply poisonGroup_confined | apply flushChecks_confined
    | apply freshBridges_confined | apply zeroGroup_confined | apply forgetContexts_confined | refine ite_confined _ _ ?_ ?_
    | split | dsimp only

theorem enterOn_confined {B : Block → Prop} {o : State} (d : Nat) (t : DomState) (s : State) (hs : Confined B o s) (hCores : B
    .cores := by assumption) (hMem : B .mem := by assumption) (hGdl : B .gdl := by assumption) (hDdr : B .ddr := by assumption)
    (hPci : B .pci := by assumption) (hFree : B .free := by assumption) : Confined B o (enterOn d t s) := by
  unfold enterOn
  with_reducible repeat' first
    | assumption | intro _ | apply updCore_confined | apply poisonGroup_confined | apply trainGroup_confined
    | apply zeroGroup_confined | refine ite_confined _ _ ?_ ?_ | split | dsimp only

theorem changeState_confined {B : Block → Prop} {o : State} (d : Nat) (t : DomState) (s : State) (hs : Confined B o s) (hCores :
    B .cores := by assumption) (hMem : B .mem := by assumption) (hBridges : B .bridges := by assumption) (hGdl : B .gdl := by
    assumption) (hDdr : B .ddr := by assumption) (hSfe : B .sfe := by assumption) (hPci : B .pci := by assumption) (hPwr : B
    .pwr := by assumption) (hFree : B .free := by assumption) : Confined B o (changeState d t s) := by
  unfold changeState
  with_reducible repeat' first
    | assumption | intro _ | apply setDom_confined | apply enterSleep_confined | apply enterOn_confined
    | refine ite_confined _ _ ?_ ?_ | split | dsimp only

theorem endTransition_confined {B : Block → Prop} {o : State} (d : Nat) (s : State) (hs : Confined B o s) (hCores : B .cores :=
    by assumption) (hMem : B .mem := by assumption) (hBridges : B .bridges := by assumption) (hGdl : B .gdl := by assumption)
    (hDdr : B .ddr := by assumption) (hSfe : B .sfe := by assumption) (hPci : B .pci := by assumption) (hPwr : B .pwr := by
    assumption) (hFree : B .free := by assumption) : Confined B o (endTransition d s) := by
  unfold endTransition
  with_reducible repeat' first
    | assumption | intro _ | apply setDom_confined | apply changeState_confined | split | dsimp only

theorem askDom_confined {B : Block → Prop} {o : State} (d : Nat) (t : DomState) (s : State) (hs : Confined B o s) (hPwr : B .pwr
    := by assumption) : Confined B o (askDom d t s) := by
  unfold askDom
  with_reducible repeat' first
    | assumption | intro _ | apply setDom_confined | refine ite_confined _ _ ?_ ?_ | split | dsimp only

theorem wakeDom_confined {B : Block → Prop} {o : State} (d : Nat) (s : State) (hs : Confined B o s) (hPwr : B .pwr := by
    assumption) : Confined B o (wakeDom d s) := by
  unfold wakeDom
  with_reducible repeat' first
    | assumption | intro _ | apply askDom_confined | refine ite_confined _ _ ?_ ?_ | split | dsimp only

end Sys2Proof.Machine
end

