-- ==== Sys2Proof/Laws/ConfinedBridge.lean ====
section
/-! SUPPORT. The blocks of the state that each function of Machine.Bridge may change. -/

namespace Sys2Proof.Machine
open Sys2Proof Numeric

theorem replayFlit_confined {B : Block → Prop} {o : State} (dir lane : Nat) (s : State) (hs : Confined B o s) (hBridges : B
    .bridges := by assumption) : Confined B o (replayFlit dir lane s) := by
  unfold replayFlit
  with_reducible repeat' first
    | assumption | intro _ | refine ite_confined _ _ ?_ ?_ | simp only [confined_bridges hBridges] | split | dsimp only

theorem fenceHalf_confined {B : Block → Prop} {o : State} (h : Nat) (s : State) (hs : Confined B o s) (hCores : B .cores := by
    assumption) (hMem : B .mem := by assumption) (hFences : B .fences := by assumption) (hLfl : B .lfl := by assumption) (hPci :
    B .pci := by assumption) (hPwr : B .pwr := by assumption) : Confined B o (fenceHalf h s) := by
  unfold fenceHalf
  with_reducible repeat' first
    | assumption | intro _ | apply fenceCore_confined | refine foldl_confined _ (fun _ _ _ => ?_) _ _ ?_
    | refine ite_confined _ _ ?_ ?_ | simp only [confined_fences hFences] | split | dsimp only

theorem rerouteFlits_confined {B : Block → Prop} {o : State} (bridge lane : Nat) (s : State) (hs : Confined B o s) (hBridges : B
    .bridges := by assumption) : Confined B o (rerouteFlits bridge lane s) := by
  unfold rerouteFlits
  with_reducible repeat' first | assumption | intro _ | simp only [confined_bridges hBridges] | split | dsimp only

theorem audSelectWrite_confined {B : Block → Prop} {o : State} (v : Word) (s : State) (hs : Confined B o s) (hAudit : B .audit
    := by assumption) : Confined B o (audSelectWrite v s) := by
  unfold audSelectWrite
  with_reducible repeat' first | assumption | intro _ | simp only [confined_audit hAudit] | split | dsimp only

end Sys2Proof.Machine
end

