-- ==== Sys2Proof/Laws/ConfinedLinks.lean ====
section
/-! SUPPORT. The blocks of the state that each function of Machine.Links may change. -/

namespace Sys2Proof.Machine
open Sys2Proof Numeric

theorem deleteQueues_confined {B : Block → Prop} {o : State} (f : Nat) (s : State) (hs : Confined B o s) (hPci : B .pci := by
    assumption) : Confined B o (deleteQueues f s) := by
  unfold deleteQueues
  with_reducible repeat' first
    | assumption | intro _ | apply setFunc_confined | apply endWith_confined
    | refine foldl_confined _ (fun _ _ _ => ?_) _ _ ?_ | simp only [confined_pci hPci] | split | dsimp only

theorem cancelAll_confined {B : Block → Prop} {o : State} (f : Nat) (s : State) (hs : Confined B o s) (hCores : B .cores := by
    assumption) (hMem : B .mem := by assumption) (hGdl : B .gdl := by assumption) (hDdr : B .ddr := by assumption) (hFlt : B
    .flt := by assumption) (hLfl : B .lfl := by assumption) (hPci : B .pci := by assumption) : Confined B o (cancelAll f s) :=
    by
  unfold cancelAll
  with_reducible repeat' first
    | assumption | intro _ | apply waitLong_confined | apply cancelJob_confined | apply cancelLong_confined
    | refine foldl_confined _ (fun _ _ _ => ?_) _ _ ?_ | split | dsimp only

theorem closeWindows_confined {B : Block → Prop} {o : State} (f : Nat) (s : State) (hs : Confined B o s) (hPci : B .pci := by
    assumption) : Confined B o (closeWindows f s) := by
  unfold closeWindows
  with_reducible repeat' first
    | assumption | intro _ | apply setWindow_confined | apply closeWindow_confined
    | refine foldl_confined _ (fun _ _ _ => ?_) _ _ ?_ | split | dsimp only

theorem resetSetup_confined {B : Block → Prop} {o : State} (f : Nat) (s : State) (hs : Confined B o s) (hPci : B .pci := by
    assumption) : Confined B o (resetSetup f s) := by
  unfold resetSetup
  with_reducible repeat' first | assumption | intro _ | apply setFunc_confined | split | dsimp only

theorem closeStreams_confined {B : Block → Prop} {o : State} (t : Nat) (s : State) (hs : Confined B o s) (hMem : B .mem := by
    assumption) (hAudit : B .audit := by assumption) (hGdl : B .gdl := by assumption) (hSfe : B .sfe := by assumption) (hPci : B
    .pci := by assumption) (hBoot : B .boot := by assumption) : Confined B o (closeStreams t s) := by
  unfold closeStreams
  with_reducible repeat' first
    | assumption | intro _ | apply startClose_confined | refine foldl_confined _ (fun _ _ _ => ?_) _ _ ?_ | split | dsimp only

theorem dropBindings_confined {B : Block → Prop} {o : State} (t : Nat) (s : State) (hs : Confined B o s) (hLfl : B .lfl := by
    assumption) : Confined B o (dropBindings t s) := by
  unfold dropBindings
  with_reducible repeat' first
    | assumption | intro _ | apply unbindSlot_confined | refine foldl_confined _ (fun _ _ _ => ?_) _ _ ?_ | split | dsimp only

theorem leavePasses_confined {B : Block → Prop} {o : State} (t : Nat) (s : State) (hs : Confined B o s) (hLfl : B .lfl := by
    assumption) : Confined B o (leavePasses t s) := by
  unfold leavePasses
  with_reducible repeat' first | assumption | intro _ | simp only [confined_lfl hLfl] | split | dsimp only

theorem dropRequest_confined {B : Block → Prop} {o : State} (n : Nat) (s : State) (hs : Confined B o s) (hAudit : B .audit := by
    assumption) (hLfl : B .lfl := by assumption) (hPci : B .pci := by assumption) (hBoot : B .boot := by assumption) : Confined
    B o (dropRequest n s) := by
  unfold dropRequest
  with_reducible repeat' first
    | assumption | intro _ | apply dropLong_confined | apply dropRefs_confined | apply unref_confined | apply setReq_confined
    | apply setLedger_confined | split | dsimp only

theorem dropWork_confined {B : Block → Prop} {o : State} (t : Nat) (s : State) (hs : Confined B o s) (hCores : B .cores := by
    assumption) (hMem : B .mem := by assumption) (hAudit : B .audit := by assumption) (hGdl : B .gdl := by assumption) (hDdr : B
    .ddr := by assumption) (hFlt : B .flt := by assumption) (hLfl : B .lfl := by assumption) (hSfe : B .sfe := by assumption)
    (hPci : B .pci := by assumption) (hBoot : B .boot := by assumption) : Confined B o (dropWork t s) := by
  unfold dropWork
  with_reducible repeat' first
    | assumption | intro _ | apply setCtx_confined | apply dropLong_confined | apply setJob_confined | apply dropJob_confined
    | apply retireJob_confined | apply cancelCores_confined | apply killCore_confined | apply closeContext_confined
    | apply endStreams_confined | apply failIngest_confined | apply leavePasses_confined | apply dropRequest_confined
    | refine foldl_confined _ (fun _ _ _ => ?_) _ _ ?_ | refine ite_confined _ _ ?_ ?_ | split | dsimp only

theorem scrubCores_confined {B : Block → Prop} {o : State} (t : Nat) (s : State) (hs : Confined B o s) (hCores : B .cores := by
    assumption) (hMem : B .mem := by assumption) : Confined B o (scrubCores t s) := by
  unfold scrubCores
  with_reducible repeat' first
    | assumption | intro _ | apply releaseRegions_confined | apply scrubCore_confined
    | refine foldl_confined _ (fun _ _ _ => ?_) _ _ ?_ | refine ite_confined _ _ ?_ ?_ | split | dsimp only

theorem blankFramesOf_confined {B : Block → Prop} {o : State} (t : Nat) (s : State) (hs : Confined B o s) (hAudit : B .audit :=
    by assumption) (hLfl : B .lfl := by assumption) (hPci : B .pci := by assumption) (hBoot : B .boot := by assumption) :
    Confined B o (blankFramesOf t s) := by
  unfold blankFramesOf
  with_reducible repeat' first
    | assumption | intro _ | apply setKvPool_confined | apply blankBlock_confined
    | refine foldl_confined _ (fun _ _ _ => ?_) _ _ ?_ | refine ite_confined _ _ ?_ ?_ | split | dsimp only

theorem destroyMemory_confined {B : Block → Prop} {o : State} (t : Nat) (s : State) (hs : Confined B o s) (hGdl : B .gdl := by
    assumption) (hSec : B .sec := by assumption) : Confined B o (destroyMemory t s) := by
  unfold destroyMemory
  with_reducible repeat' first
    | assumption | intro _ | refine ite_confined _ _ ?_ ?_ | simp only [confined_gdl_sec hGdl hSec] | split
    | dsimp only

theorem scrubTenant_confined {B : Block → Prop} {o : State} (t : Nat) (s : State) (hs : Confined B o s) (hCores : B .cores := by
    assumption) (hMem : B .mem := by assumption) (hAudit : B .audit := by assumption) (hGdl : B .gdl := by assumption) (hDdr : B
    .ddr := by assumption) (hFlt : B .flt := by assumption) (hLfl : B .lfl := by assumption) (hSfe : B .sfe := by assumption)
    (hPci : B .pci := by assumption) (hSec : B .sec := by assumption) (hBoot : B .boot := by assumption) : Confined B o
    (scrubTenant t s) := by
  unfold scrubTenant
  with_reducible repeat' first
    | assumption | intro _ | apply clearSram_confined | apply drawTenantKey_confined | apply dropWork_confined
    | apply scrubCores_confined | apply blankFramesOf_confined | apply destroyMemory_confined | split | dsimp only

theorem tenantScrub_confined {B : Block → Prop} {o : State} (t : Nat) (s : State) (hs : Confined B o s) (hCores : B .cores := by
    assumption) (hMem : B .mem := by assumption) (hAudit : B .audit := by assumption) (hGdl : B .gdl := by assumption) (hDdr : B
    .ddr := by assumption) (hFlt : B .flt := by assumption) (hLfl : B .lfl := by assumption) (hSfe : B .sfe := by assumption)
    (hPci : B .pci := by assumption) (hSec : B .sec := by assumption) (hBoot : B .boot := by assumption) : Confined B o
    (tenantScrub t s) := by
  unfold tenantScrub
  with_reducible repeat' first
    | assumption | intro _ | apply postReclaim_confined | apply scrubTenant_confined | split | dsimp only

theorem startFlr_confined {B : Block → Prop} {o : State} (f : Nat) (s : State) (hs : Confined B o s) (hCores : B .cores := by
    assumption) (hMem : B .mem := by assumption) (hAudit : B .audit := by assumption) (hGdl : B .gdl := by assumption) (hDdr : B
    .ddr := by assumption) (hFlt : B .flt := by assumption) (hLfl : B .lfl := by assumption) (hSfe : B .sfe := by assumption)
    (hPci : B .pci := by assumption) (hSec : B .sec := by assumption) (hBoot : B .boot := by assumption) : Confined B o
    (startFlr f s) := by
  unfold startFlr
  with_reducible repeat' first
    | assumption | intro _ | apply setFunc_confined | apply setTsec_confined | apply deleteQueues_confined
    | apply cancelAll_confined | apply closeWindows_confined | apply resetSetup_confined | apply closeStreams_confined
    | apply dropBindings_confined | apply scrubTenant_confined | refine ite_confined _ _ ?_ ?_ | simp only [confined_sec hSec]
    | split | dsimp only

theorem linkDown_confined {B : Block → Prop} {o : State} (s : State) (hs : Confined B o s) (hCores : B .cores := by assumption)
    (hMem : B .mem := by assumption) (hAudit : B .audit := by assumption) (hGdl : B .gdl := by assumption) (hDdr : B .ddr := by
    assumption) (hFlt : B .flt := by assumption) (hLfl : B .lfl := by assumption) (hSfe : B .sfe := by assumption) (hPci : B
    .pci := by assumption) (hSec : B .sec := by assumption) (hBoot : B .boot := by assumption) : Confined B o (linkDown s) := by
  unfold linkDown
  with_reducible repeat' first
    | assumption | intro _ | apply startFlr_confined | refine foldl_confined _ (fun _ _ _ => ?_) _ _ ?_
    | simp only [confined_pci hPci] | split | dsimp only

end Sys2Proof.Machine
end

