-- ==== Sys2Proof/Laws/ConfinedBootOps.lean ====
section
/-! SUPPORT. The blocks of the state that each function of Machine.BootOps may change. -/

namespace Sys2Proof.Machine
open Sys2Proof Numeric

theorem setCal_confined {B : Block → Prop} {o : State} (id : Nat) (f : CalField → CalField) (s : State) (hs : Confined B o s)
    (hBoot : B .boot := by assumption) : Confined B o (setCal id f s) := by
  unfold setCal
  with_reducible repeat' first | assumption | intro _ | simp only [confined_boot hBoot] | split | dsimp only

theorem loadOverlay_confined {B : Block → Prop} {o : State} (s : State) (hs : Confined B o s) (hBoot : B .boot := by assumption)
    : Confined B o (loadOverlay s) := by
  unfold loadOverlay
  with_reducible repeat' first | assumption | intro _ | simp only [confined_boot hBoot] | split | dsimp only

theorem powerLost_confined {B : Block → Prop} {o : State} (s : State) (hs : Confined B o s) (hCores : B .cores := by assumption)
    (hDdr : B .ddr := by assumption) (hPwr : B .pwr := by assumption) (hBoot : B .boot := by assumption) (hPins : B .pins := by
    assumption) : Confined B o (powerLost s) := by
  unfold powerLost
  with_reducible repeat' first
    | assumption | intro _
    | simp only [
      confined_cores_ddr_pwr_boot_pins hCores hDdr hPwr hBoot hPins]
    | split | dsimp only

theorem enterNursery_confined {B : Block → Prop} {o : State} (code : Nat) (s : State) (hs : Confined B o s) (hBoot : B .boot :=
    by assumption) : Confined B o (enterNursery code s) := by
  unfold enterNursery
  with_reducible repeat' first | assumption | intro _ | simp only [confined_boot hBoot] | split | dsimp only

theorem countFailure_confined {B : Block → Prop} {o : State} (code : Nat) (s : State) (hs : Confined B o s) (hBoot : B .boot :=
    by assumption) : Confined B o (countFailure code s) := by
  unfold countFailure
  with_reducible repeat' first | assumption | intro _ | simp only [confined_boot hBoot] | split | dsimp only

end Sys2Proof.Machine
end

