-- ==== Sys2Proof/Laws/ConfinedRing.lean ====
section
/-! SUPPORT. The blocks of the state that each function of Machine.Ring may change. -/

namespace Sys2Proof.Machine
open Sys2Proof Numeric

theorem setTrg_confined {B : Block → Prop} {o : State} (f : Trg → Trg) (s : State) (hs : Confined B o s) (hTrg : B .trg := by
    assumption) : Confined B o (setTrg f s) := by
  unfold setTrg
  with_reducible repeat' first | assumption | intro _ | simp only [confined_trg hTrg] | split | dsimp only

theorem discardKeys_confined {B : Block → Prop} {o : State} (s : State) (hs : Confined B o s) (hTrg : B .trg := by assumption) :
    Confined B o (discardKeys s) := by
  unfold discardKeys
  with_reducible repeat' first | assumption | intro _ | apply setTrg_confined | split | dsimp only

theorem samplesArrive_confined {B : Block → Prop} {o : State} (slot : Nat) (vs : List (Option Int)) (s : State) (hs : Confined B
    o s) (hSfe : B .sfe := by assumption) : Confined B o (samplesArrive slot vs s) := by
  unfold samplesArrive
  with_reducible repeat' first | assumption | intro _ | apply setCtx_confined | split | dsimp only

theorem verifyTag_confined {B : Block → Prop} {o : State} (slot : Nat) (x : RxSlot) (tagged : Bool) (s : State) (hs : Confined B
    o s) (hSfe : B .sfe := by assumption) (hTrg : B .trg := by assumption) : Confined B o (verifyTag slot x tagged s) := by
  unfold verifyTag
  with_reducible repeat' first
    | assumption | intro _ | apply setTrg_confined | apply samplesArrive_confined | refine ite_confined _ _ ?_ ?_ | split
    | dsimp only

theorem pushWord_confined {B : Block → Prop} {o : State} (slot : Nat) (w : Word) (valid intact : Bool) (s : State) (hs :
    Confined B o s) (hSfe : B .sfe := by assumption) (hTrg : B .trg := by assumption) : Confined B o (pushWord slot w valid
    intact s) := by
  unfold pushWord
  with_reducible repeat' first
    | assumption | intro _ | apply setTrg_confined | apply samplesArrive_confined | apply verifyTag_confined
    | refine ite_confined _ _ ?_ ?_ | split | dsimp only

theorem readSlot_confined {B : Block → Prop} {o : State} (f slot : Nat) (w : Word) (valid intact : Bool) (s : State) (hs :
    Confined B o s) (hSfe : B .sfe := by assumption) (hTrg : B .trg := by assumption) : Confined B o (readSlot f slot w valid
    intact s) := by
  unfold readSlot
  with_reducible repeat' first
    | assumption | intro _ | apply setTrg_confined | apply pushWord_confined | refine ite_confined _ _ ?_ ?_ | split
    | dsimp only

theorem counterRead_confined {B : Block → Prop} {o : State} (s : State) (hs : Confined B o s) (hTrg : B .trg := by assumption) :
    Confined B o (counterRead s) := by
  unfold counterRead
  with_reducible repeat' first
    | assumption | intro _ | apply setTrg_confined | apply discardKeys_confined | refine ite_confined _ _ ?_ ?_ | split
    | dsimp only

theorem tapFrame_confined {B : Block → Prop} {o : State} (sync : RingSym) (bs : Bytes) (f : Nat) (k : FrameKind) (s : State) (hs
    : Confined B o s) (hSfe : B .sfe := by assumption) (hTrg : B .trg := by assumption) : Confined B o (tapFrame sync bs f k s)
    := by
  unfold tapFrame
  with_reducible repeat' first
    | assumption | intro _ | apply setTrg_confined | apply readSlot_confined | apply counterRead_confined
    | refine foldl_confined _ (fun _ _ _ => ?_) _ _ ?_ | refine ite_confined _ _ ?_ ?_ | split | dsimp only

theorem masterFrame_confined {B : Block → Prop} {o : State} (bs : Bytes) (f : Nat) (k : FrameKind) (lat : Nat) (s : State) (hs :
    Confined B o s) (hSfe : B .sfe := by assumption) (hTrg : B .trg := by assumption) : Confined B o (masterFrame bs f k lat s)
    := by
  unfold masterFrame
  with_reducible repeat' first
    | assumption | intro _ | apply setTrg_confined | apply readSlot_confined
    | refine foldl_confined _ (fun _ _ _ => ?_) _ _ ?_ | refine ite_confined _ _ ?_ ?_ | split | dsimp only

theorem takeFrame_confined {B : Block → Prop} {o : State} (syms : List RingSym) (lat : Nat) (s : State) (hs : Confined B o s)
    (hSfe : B .sfe := by assumption) (hTrg : B .trg := by assumption) : Confined B o (takeFrame syms lat s) := by
  unfold takeFrame
  with_reducible repeat' first
    | assumption | intro _ | apply setTrg_confined | apply tapFrame_confined | apply masterFrame_confined
    | refine ite_confined _ _ ?_ ?_ | split | dsimp only

theorem acquire_confined {B : Block → Prop} {o : State} (syms : List RingSym) (lat : Nat) (s : State) (hs : Confined B o s)
    (hSfe : B .sfe := by assumption) (hTrg : B .trg := by assumption) : Confined B o (acquire syms lat s) := by
  unfold acquire
  with_reducible repeat' first
    | assumption | intro _ | apply setTrg_confined | apply takeFrame_confined | refine ite_confined _ _ ?_ ?_ | split
    | dsimp only

theorem trgWrite_confined {B : Block → Prop} {o : State} (v : Word) (s : State) (hs : Confined B o s) (hTrg : B .trg := by
    assumption) (hPins : B .pins := by assumption) : Confined B o (trgWrite v s) := by
  unfold trgWrite
  with_reducible repeat' first
    | assumption | intro _ | apply setTrg_confined | apply discardKeys_confined | refine ite_confined _ _ ?_ ?_
    | simp only [confined_pins hPins] | split | dsimp only

end Sys2Proof.Machine
end

