-- ==== Sys2Proof/Laws/ConfinedSecurity.lean ====
section
/-! SUPPORT. The blocks of the state that each function of Machine.Security may change. -/

namespace Sys2Proof.Machine
open Sys2Proof Numeric

theorem setResponder_confined {B : Block → Prop} {o : State} (f : Nat) (g : Spdm → Spdm) (s : State) (hs : Confined B o s) (hSec
    : B .sec := by assumption) : Confined B o (setResponder f g s) := by
  unfold setResponder
  with_reducible repeat' first | assumption | intro _ | simp only [confined_sec hSec] | split | dsimp only

theorem answerDoe_confined {B : Block → Prop} {o : State} (f : Nat) (bs : Bytes) (s : State) (hs : Confined B o s) (hSec : B
    .sec := by assumption) : Confined B o (answerDoe f bs s) := by
  unfold answerDoe
  with_reducible repeat' first | assumption | intro _ | apply setResponder_confined | split | dsimp only

theorem spdmError_confined {B : Block → Prop} {o : State} (f code : Nat) (data : Bytes) (s : State) (hs : Confined B o s) (hSec
    : B .sec := by assumption) : Confined B o (spdmError f code data s) := by
  unfold spdmError
  with_reducible repeat' first | assumption | intro _ | apply answerDoe_confined | split | dsimp only

theorem notReady_confined {B : Block → Prop} {o : State} (f : Nat) (code token : Byte) (s : State) (hs : Confined B o s) (hSec :
    B .sec := by assumption) : Confined B o (notReady f code token s) := by
  unfold notReady
  with_reducible repeat' first
    | assumption | intro _ | apply spdmError_confined | refine ite_confined _ _ ?_ ?_ | split | dsimp only

theorem connected_confined {B : Block → Prop} {o : State} (f : Nat) (g : State → State) (s : State) (hg : ∀ s, Confined B o s →
    Confined B o (g s)) (hmem : Confined B o s) (hSec : B .sec := by assumption) :
    Confined B o (connected f g s) := by
  unfold connected
  split
  · exact hg _ hmem
  · exact spdmError_confined _ _ _ _ hmem

theorem vendorAnswer_confined {B : Block → Prop} {o : State} (protocol : Nat) (bs : Bytes) (s : State) (hs : Confined B o s)
    (hSec : B .sec := by assumption) : Confined B o (vendorAnswer protocol bs s) := by
  unfold vendorAnswer
  with_reducible repeat' first | assumption | intro _ | apply answerDoe_confined | split | dsimp only

theorem tdispAnswer_confined {B : Block → Prop} {o : State} (code t : Nat) (rest : Bytes) (s : State) (hs : Confined B o s)
    (hSec : B .sec := by assumption) : Confined B o (tdispAnswer code t rest s) := by
  unfold tdispAnswer
  with_reducible repeat' first | assumption | intro _ | apply vendorAnswer_confined | split | dsimp only

theorem tdispError_confined {B : Block → Prop} {o : State} (t code : Nat) (s : State) (hs : Confined B o s) (hSec : B .sec := by
    assumption) : Confined B o (tdispError t code s) := by
  unfold tdispError
  with_reducible repeat' first | assumption | intro _ | apply tdispAnswer_confined | split | dsimp only

theorem tdiFails_confined {B : Block → Prop} {o : State} (t : Nat) (s : State) (hs : Confined B o s) (hCores : B .cores := by
    assumption) (hMem : B .mem := by assumption) (hAudit : B .audit := by assumption) (hGdl : B .gdl := by assumption) (hDdr : B
    .ddr := by assumption) (hFlt : B .flt := by assumption) (hLfl : B .lfl := by assumption) (hSfe : B .sfe := by assumption)
    (hPci : B .pci := by assumption) (hSec : B .sec := by assumption) (hBoot : B .boot := by assumption) : Confined B o
    (tdiFails t s) := by
  unfold tdiFails
  with_reducible repeat' first
    | assumption | intro _ | apply setTsec_confined | apply tenantScrub_confined | split | dsimp only

theorem tdisFail_confined {B : Block → Prop} {o : State} (p : TenantSec → Bool) (s : State) (hs : Confined B o s) (hCores : B
    .cores := by assumption) (hMem : B .mem := by assumption) (hAudit : B .audit := by assumption) (hGdl : B .gdl := by
    assumption) (hDdr : B .ddr := by assumption) (hFlt : B .flt := by assumption) (hLfl : B .lfl := by assumption) (hSfe : B
    .sfe := by assumption) (hPci : B .pci := by assumption) (hSec : B .sec := by assumption) (hBoot : B .boot := by assumption)
    : Confined B o (tdisFail p s) := by
  unfold tdisFail
  with_reducible repeat' first
    | assumption | intro _ | apply tdiFails_confined | refine foldl_confined _ (fun _ _ _ => ?_) _ _ ?_
    | refine ite_confined _ _ ?_ ?_ | split | dsimp only

theorem lockTdi_confined {B : Block → Prop} {o : State} (t stream : Nat) (s : State) (hs : Confined B o s) (hSec : B .sec := by
    assumption) (hFree : B .free := by assumption) : Confined B o (lockTdi t stream s) := by
  unfold lockTdi
  with_reducible repeat' first
    | assumption | intro _ | apply State.spend_confined | apply setTsec_confined | apply tdispAnswer_confined | split
    | dsimp only

theorem stopTdi_confined {B : Block → Prop} {o : State} (t : Nat) (s : State) (hs : Confined B o s) (hCores : B .cores := by
    assumption) (hMem : B .mem := by assumption) (hAudit : B .audit := by assumption) (hGdl : B .gdl := by assumption) (hDdr : B
    .ddr := by assumption) (hFlt : B .flt := by assumption) (hLfl : B .lfl := by assumption) (hSfe : B .sfe := by assumption)
    (hPci : B .pci := by assumption) (hSec : B .sec := by assumption) (hBoot : B .boot := by assumption) : Confined B o (stopTdi
    t s) := by
  unfold stopTdi
  with_reducible repeat' first
    | assumption | intro _ | apply setTsec_confined | apply tenantScrub_confined | apply tdispAnswer_confined
    | refine ite_confined _ _ ?_ ?_ | split | dsimp only

theorem runTdisp_confined {B : Block → Prop} {o : State} (req : TdispReq) (s : State) (hs : Confined B o s) (hCores : B .cores
    := by assumption) (hMem : B .mem := by assumption) (hAudit : B .audit := by assumption) (hGdl : B .gdl := by assumption)
    (hDdr : B .ddr := by assumption) (hFlt : B .flt := by assumption) (hLfl : B .lfl := by assumption) (hSfe : B .sfe := by
    assumption) (hPci : B .pci := by assumption) (hSec : B .sec := by assumption) (hBoot : B .boot := by assumption) (hFree : B
    .free := by assumption) : Confined B o (runTdisp req s) := by
  unfold runTdisp
  with_reducible repeat' first
    | assumption | intro _ | apply setTsec_confined | apply tdispAnswer_confined | apply tdispError_confined
    | apply lockTdi_confined | apply stopTdi_confined | refine ite_confined _ _ ?_ ?_ | split | dsimp only

theorem runChallenge_confined {B : Block → Prop} {o : State} (f slot : Nat) (nonce : Bytes) (s : State) (hs : Confined B o s)
    (hSec : B .sec := by assumption) (hFree : B .free := by assumption) : Confined B o (runChallenge f slot nonce s) := by
  unfold runChallenge
  with_reducible repeat' first
    | assumption | intro _ | apply State.spend_confined | apply answerDoe_confined | apply spdmError_confined
    | refine ite_confined _ _ ?_ ?_ | split | dsimp only

theorem runMeasurements_confined {B : Block → Prop} {o : State} (f index : Nat) (signed : Bool) (nonce : Bytes) (s : State) (hs
    : Confined B o s) (hSec : B .sec := by assumption) (hFree : B .free := by assumption) : Confined B o (runMeasurements f
    index signed nonce s) := by
  unfold runMeasurements
  with_reducible repeat' first
    | assumption | intro _ | apply State.spend_confined | apply answerDoe_confined | apply spdmError_confined
    | refine ite_confined _ _ ?_ ?_ | split | dsimp only

theorem runKeyExchange_confined {B : Block → Prop} {o : State} (f slot reqSession : Nat) (exchange : Bytes) (s : State) (hs :
    Confined B o s) (hSec : B .sec := by assumption) (hFree : B .free := by assumption) : Confined B o (runKeyExchange f slot
    reqSession exchange s) := by
  unfold runKeyExchange
  with_reducible repeat' first
    | assumption | intro _ | apply State.spend_confined | apply setResponder_confined | apply answerDoe_confined
    | apply spdmError_confined | refine ite_confined _ _ ?_ ?_ | split | dsimp only

theorem runSigned_confined {B : Block → Prop} {o : State} (f : Nat) (req : SignedReq) (s : State) (hs : Confined B o s) (hCores
    : B .cores := by assumption) (hMem : B .mem := by assumption) (hAudit : B .audit := by assumption) (hGdl : B .gdl := by
    assumption) (hDdr : B .ddr := by assumption) (hFlt : B .flt := by assumption) (hLfl : B .lfl := by assumption) (hSfe : B
    .sfe := by assumption) (hPci : B .pci := by assumption) (hSec : B .sec := by assumption) (hBoot : B .boot := by assumption)
    (hFree : B .free := by assumption) : Confined B o (runSigned f req s) := by
  unfold runSigned
  with_reducible repeat' first
    | assumption | intro _ | apply spdmError_confined | apply connected_confined | apply runTdisp_confined
    | apply runChallenge_confined | apply runMeasurements_confined | apply runKeyExchange_confined
    | refine ite_confined _ _ ?_ ?_ | split | dsimp only

theorem signedRequest_confined {B : Block → Prop} {o : State} (f : Nat) (code : Byte) (req : SignedReq) (s : State) (hs :
    Confined B o s) (hCores : B .cores := by assumption) (hMem : B .mem := by assumption) (hAudit : B .audit := by assumption)
    (hGdl : B .gdl := by assumption) (hDdr : B .ddr := by assumption) (hFlt : B .flt := by assumption) (hLfl : B .lfl := by
    assumption) (hSfe : B .sfe := by assumption) (hPci : B .pci := by assumption) (hSec : B .sec := by assumption) (hBoot : B
    .boot := by assumption) (hFree : B .free := by assumption) : Confined B o (signedRequest f code req s) := by
  unfold signedRequest
  with_reducible repeat' first
    | assumption | intro _ | apply setResponder_confined | apply notReady_confined | apply runSigned_confined
    | refine ite_confined _ _ ?_ ?_ | split | dsimp only

theorem updSession_confined {B : Block → Prop} {o : State} (f : Nat) (id : Word) (g : Session → Session) (s : State) (hs :
    Confined B o s) (hSec : B .sec := by assumption) : Confined B o (updSession f id g s) := by
  unfold updSession
  with_reducible repeat' first
    | assumption | intro _ | apply setResponder_confined | refine ite_confined _ _ ?_ ?_ | split | dsimp only

theorem dropSession_confined {B : Block → Prop} {o : State} (f : Nat) (id : Word) (s : State) (hs : Confined B o s) (hSec : B
    .sec := by assumption) : Confined B o (dropSession f id s) := by
  unfold dropSession
  with_reducible repeat' first | assumption | intro _ | apply setResponder_confined | split | dsimp only

theorem inSession_confined {B : Block → Prop} {o : State} (f : Nat) (id : Word) (g : State → State) (s : State) (hg : ∀ s,
    Confined B o s → Confined B o (g s)) (hmem : Confined B o s) (hSec : B .sec := by assumption) :
    Confined B o (inSession f id g s) := by
  unfold inSession
  split
  · exact hg _ hmem
  · exact spdmError_confined _ _ _ _ hmem

theorem setStream_confined {B : Block → Prop} {o : State} (i : Nat) (f : IdeStream → IdeStream) (s : State) (hs : Confined B o
    s) (hSec : B .sec := by assumption) : Confined B o (setStream i f s) := by
  unfold setStream
  with_reducible repeat' first | assumption | intro _ | simp only [confined_sec hSec] | split | dsimp only

theorem kmAck_confined {B : Block → Prop} {o : State} (code status : Nat) (stream : Nat) (info : Nat) (s : State) (hs : Confined
    B o s) (hSec : B .sec := by assumption) : Confined B o (kmAck code status stream info s) := by
  unfold kmAck
  with_reducible repeat' first | assumption | intro _ | apply vendorAnswer_confined | split | dsimp only

theorem loseStream_confined {B : Block → Prop} {o : State} (stream : Nat) (s : State) (hs : Confined B o s) (hCores : B .cores
    := by assumption) (hMem : B .mem := by assumption) (hAudit : B .audit := by assumption) (hGdl : B .gdl := by assumption)
    (hDdr : B .ddr := by assumption) (hFlt : B .flt := by assumption) (hLfl : B .lfl := by assumption) (hSfe : B .sfe := by
    assumption) (hPci : B .pci := by assumption) (hSec : B .sec := by assumption) (hBoot : B .boot := by assumption) : Confined
    B o (loseStream stream s) := by
  unfold loseStream
  with_reducible repeat' first | assumption | intro _ | apply tdisFail_confined | split | dsimp only

theorem confAccount_confined {B : Block → Prop} {o : State} (t p : Nat) (s : State) (hs : Confined B o s) (hAudit : B .audit :=
    by assumption) (hDdr : B .ddr := by assumption) (hPci : B .pci := by assumption) (hBoot : B .boot := by assumption) (hFree :
    B .free := by assumption) : Confined B o (confAccount t p s) := by
  unfold confAccount
  with_reducible repeat' first
    | assumption | intro _ | apply installAcct_confined | refine ite_confined _ _ ?_ ?_ | split | dsimp only

theorem tenSelWrite_confined {B : Block → Prop} {o : State} (v : Word) (s : State) (hs : Confined B o s) (hAudit : B .audit :=
    by assumption) (hDdr : B .ddr := by assumption) (hLfl : B .lfl := by assumption) (hPci : B .pci := by assumption) (hSec : B
    .sec := by assumption) (hBoot : B .boot := by assumption) (hFree : B .free := by assumption) : Confined B o (tenSelWrite v
    s) := by
  unfold tenSelWrite
  with_reducible repeat' first
    | assumption | intro _ | apply setTsec_confined | apply drawTenantKey_confined | apply confAccount_confined
    | refine foldl_confined _ (fun _ _ _ => ?_) _ _ ?_ | refine ite_confined _ _ ?_ ?_ | simp only [confined_sec hSec] | split
    | dsimp only

theorem setKeySlot_confined {B : Block → Prop} {o : State} (k : Nat) (f : KeySlot → KeySlot) (s : State) (hs : Confined B o s)
    (hSec : B .sec := by assumption) : Confined B o (setKeySlot k f s) := by
  unfold setKeySlot
  with_reducible repeat' first | assumption | intro _ | simp only [confined_sec hSec] | split | dsimp only

theorem kslotWrite_confined {B : Block → Prop} {o : State} (v : Word) (s : State) (hs : Confined B o s) (hSec : B .sec := by
    assumption) : Confined B o (kslotWrite v s) := by
  unfold kslotWrite
  with_reducible repeat' first
    | assumption | intro _ | apply setKeySlot_confined | refine ite_confined _ _ ?_ ?_ | simp only [confined_sec hSec] | split
    | dsimp only

theorem rkeyWrite_confined {B : Block → Prop} {o : State} (v : Word) (s : State) (hs : Confined B o s) (hTrg : B .trg := by
    assumption) (hSec : B .sec := by assumption) : Confined B o (rkeyWrite v s) := by
  unfold rkeyWrite
  with_reducible repeat' first
    | assumption | intro _ | apply setTrg_confined | simp only [confined_sec hSec] | split | dsimp only

end Sys2Proof.Machine
end

