-- ==== Sys2Proof/Laws/ConfinedPower.lean ====
section
/-! SUPPORT. The blocks of the state that each function of Machine.Power may change. -/

namespace Sys2Proof.Machine
open Sys2Proof Numeric

theorem retarget_confined {B : Block → Prop} {o : State} (s : State) (hs : Confined B o s) (hCores : B .cores := by assumption)
    : Confined B o (retarget s) := by
  unfold retarget
  with_reducible repeat' first
    | assumption | intro _ | apply updCore_confined | refine foldl_confined _ (fun _ _ _ => ?_) _ _ ?_
    | refine ite_confined _ _ ?_ ?_ | split | dsimp only

theorem serveJob_confined {B : Block → Prop} {o : State} (s : State) (x : Nat × Nat) (hs : Confined B o s) (hLfl : B .lfl := by
    assumption) : Confined B o (serveJob s x) := by
  unfold serveJob
  with_reducible repeat' first
    | assumption | intro _ | apply setJob_confined | refine ite_confined _ _ ?_ ?_ | split | dsimp only

theorem readSensors_confined {B : Block → Prop} {o : State} (rep : WindowReport) (s : State) (hs : Confined B o s) (hPwr : B
    .pwr := by assumption) : Confined B o (readSensors rep s) := by
  unfold readSensors
  with_reducible repeat' first
    | assumption | intro _ | refine ite_confined _ _ ?_ ?_ | simp only [confined_pwr hPwr] | split | dsimp only

theorem estimate_confined {B : Block → Prop} {o : State} (rep : WindowReport) (s : State) (hs : Confined B o s) (hCores : B
    .cores := by assumption) (hLfl : B .lfl := by assumption) (hPwr : B .pwr := by assumption) : Confined B o (estimate rep s)
    := by
  unfold estimate
  with_reducible repeat' first
    | assumption | intro _ | apply retarget_confined | apply serveJob_confined
    | refine foldl_confined _ (fun _ _ _ => ?_) _ _ ?_ | refine ite_confined _ _ ?_ ?_ | simp only [confined_pwr hPwr] | split
    | dsimp only

theorem settleQueues_confined {B : Block → Prop} {o : State} (at' : List (Nat × Nat)) (s : State) (hs : Confined B o s) (hPci :
    B .pci := by assumption) : Confined B o (settleQueues at' s) := by
  unfold settleQueues
  with_reducible repeat' first | assumption | intro _ | simp only [confined_pci hPci] | split | dsimp only

theorem attributeJob_confined {B : Block → Prop} {o : State} (s : State) (x : Nat × Nat) (hs : Confined B o s) (hLfl : B .lfl :=
    by assumption) (hPwr : B .pwr := by assumption) : Confined B o (attributeJob s x) := by
  unfold attributeJob
  with_reducible repeat' first
    | assumption | intro _ | apply setJob_confined | apply setReq_confined | refine foldl_confined _ (fun _ _ _ => ?_) _ _ ?_
    | refine ite_confined _ _ ?_ ?_ | simp only [confined_pwr hPwr] | split | dsimp only

theorem dropEnded_confined {B : Block → Prop} {o : State} (s : State) (hs : Confined B o s) (hLfl : B .lfl := by assumption) :
    Confined B o (dropEnded s) := by
  unfold dropEnded
  with_reducible repeat' first | assumption | intro _ | simp only [confined_lfl hLfl] | split | dsimp only

theorem domSelWrite_confined {B : Block → Prop} {o : State} (v : Word) (s : State) (hs : Confined B o s) (hPwr : B .pwr := by
    assumption) : Confined B o (domSelWrite v s) := by
  unfold domSelWrite
  with_reducible repeat' first
    | assumption | intro _ | apply setDom_confined | apply askDom_confined | refine ite_confined _ _ ?_ ?_
    | simp only [confined_pwr hPwr] | split | dsimp only

theorem releasePads_confined {B : Block → Prop} {o : State} (d : Nat) (s : State) (hs : Confined B o s) (hDdr : B .ddr := by
    assumption) (hFlt : B .flt := by assumption) (hPwr : B .pwr := by assumption) : Confined B o (releasePads d s) := by
  unfold releasePads
  with_reducible repeat' first
    | assumption | intro _ | apply setDom_confined | apply dueRetrain_confined | refine ite_confined _ _ ?_ ?_
    | simp only [confined_flt hFlt] | split | dsimp only

theorem padsWrite_confined {B : Block → Prop} {o : State} (v : Word) (s : State) (hs : Confined B o s) (hDdr : B .ddr := by
    assumption) (hFlt : B .flt := by assumption) (hPwr : B .pwr := by assumption) : Confined B o (padsWrite v s) := by
  unfold padsWrite
  with_reducible repeat' first
    | assumption | intro _ | apply releasePads_confined | refine foldl_confined _ (fun _ _ _ => ?_) _ _ ?_
    | refine ite_confined _ _ ?_ ?_ | split | dsimp only

theorem smbAnswer_confined {B : Block → Prop} {o : State} (bs : Bytes) (s : State) (hs : Confined B o s) (hPwr : B .pwr := by
    assumption) : Confined B o (smbAnswer bs s) := by
  unfold smbAnswer
  with_reducible repeat' first | assumption | intro _ | simp only [confined_pwr hPwr] | split | dsimp only

end Sys2Proof.Machine
end

