-- ==== Sys2Proof/Laws/ConfinedEfl.lean ====
section
/-! SUPPORT. The blocks of the state that each function of Machine.Efl may change. -/

namespace Sys2Proof.Machine
open Sys2Proof Numeric

theorem setEflBusy_confined {B : Block → Prop} {old : State} (bank : Nat) (o : Option EflOp) (s : State) (hs : Confined B old s)
    (hEfl : B .efl := by assumption) : Confined B old (setEflBusy bank o s) := by
  unfold setEflBusy
  with_reducible repeat' first
    | assumption | intro _ | refine ite_confined _ _ ?_ ?_ | simp only [confined_efl hEfl] | split | dsimp only

theorem startEfl_confined {B : Block → Prop} {o : State} (erase : Bool) (line : Nat) (s : State) (hs : Confined B o s) (hEfl : B
    .efl := by assumption) : Confined B o (startEfl erase line s) := by
  unfold startEfl
  with_reducible repeat' first
    | assumption | intro _ | apply setEflBusy_confined | refine ite_confined _ _ ?_ ?_ | simp only [confined_efl hEfl] | split
    | dsimp only

theorem eflFault_confined {B : Block → Prop} {o : State} (src : EflSrc) (line : BitVec 19) (cause : Bool) (s : State) (hs :
    Confined B o s) (hEfl : B .efl := by assumption) : Confined B o (eflFault src line cause s) := by
  unfold eflFault
  with_reducible repeat' first | assumption | intro _ | simp only [confined_efl hEfl] | split | dsimp only

theorem eflPrefetch_confined {B : Block → Prop} {o : State} (line : Nat) (s : State) (hs : Confined B o s) (hEfl : B .efl := by
    assumption) : Confined B o (eflPrefetch line s) := by
  unfold eflPrefetch
  with_reducible repeat' first | assumption | intro _ | simp only [confined_efl hEfl] | split | dsimp only

end Sys2Proof.Machine
end

