-- ==== Sys2Proof/Laws/ConfinedDomReset.lean ====
section
/-! SUPPORT. The blocks of the state that each function of Machine.DomReset may change. -/

namespace Sys2Proof.Machine
open Sys2Proof Numeric

theorem endWithDomain_confined {B : Block → Prop} {o : State} (d : Nat) (s : State) (n : Nat) (hs : Confined B o s) (hCores : B
    .cores := by assumption) (hMem : B .mem := by assumption) (hLfl : B .lfl := by assumption) (hPci : B .pci := by assumption)
    : Confined B o (endWithDomain d s n) := by
  unfold endWithDomain
  with_reducible repeat' first
    | assumption | intro _ | apply updCore_confined | apply setJob_confined | apply cancelCores_confined
    | refine ite_confined _ _ ?_ ?_ | split | dsimp only

theorem loseKvPages_confined {B : Block → Prop} {o : State} (s : State) (hs : Confined B o s) (hCores : B .cores := by
    assumption) (hMem : B .mem := by assumption) (hGdl : B .gdl := by assumption) (hLfl : B .lfl := by assumption) (hPci : B
    .pci := by assumption) : Confined B o (loseKvPages s) := by
  unfold loseKvPages
  with_reducible repeat' first
    | assumption | intro _ | apply retireJob_confined | apply cancelCores_confined | apply setReq_confined
    | apply endStreams_confined | refine foldl_confined _ (fun _ _ _ => ?_) _ _ ?_ | refine ite_confined _ _ ?_ ?_
    | simp only [confined_lfl hLfl] | split | dsimp only

theorem endIngestWithDomain_confined {B : Block → Prop} {o : State} (s : State) (n : Nat) (hs : Confined B o s) (hGdl : B .gdl
    := by assumption) (hFlt : B .flt := by assumption) (hLfl : B .lfl := by assumption) (hPci : B .pci := by assumption) :
    Confined B o (endIngestWithDomain s n) := by
  unfold endIngestWithDomain
  with_reducible repeat' first
    | assumption | intro _ | apply finishLong_confined | apply failIngest_confined | split | dsimp only

theorem freshTokens_confined {B : Block → Prop} {o : State} (s : State) (hs : Confined B o s) (hDdr : B .ddr := by assumption) :
    Confined B o (freshTokens s) := by
  unfold freshTokens
  with_reducible repeat' first | assumption | intro _ | simp only [confined_ddr hDdr] | split | dsimp only

theorem resetMemorySide_confined {B : Block → Prop} {o : State} (s : State) (hs : Confined B o s) (hCores : B .cores := by
    assumption) (hMem : B .mem := by assumption) (hGdl : B .gdl := by assumption) (hDdr : B .ddr := by assumption) (hFlt : B
    .flt := by assumption) (hLfl : B .lfl := by assumption) (hPci : B .pci := by assumption) : Confined B o (resetMemorySide s)
    := by
  unfold resetMemorySide
  with_reducible repeat' first
    | assumption | intro _ | apply loseKvPages_confined | apply endIngestWithDomain_confined | apply freshTokens_confined
    | refine foldl_confined _ (fun _ _ _ => ?_) _ _ ?_ | simp only [confined_gdl_lfl hGdl hLfl] | split
    | dsimp only

theorem closeWithDomain_confined {B : Block → Prop} {o : State} (s : State) (c : Nat) (hs : Confined B o s) (hMem : B .mem := by
    assumption) (hAudit : B .audit := by assumption) (hGdl : B .gdl := by assumption) (hDdr : B .ddr := by assumption) (hLfl : B
    .lfl := by assumption) (hSfe : B .sfe := by assumption) (hPci : B .pci := by assumption) (hBoot : B .boot := by assumption)
    : Confined B o (closeWithDomain s c) := by
  unfold closeWithDomain
  with_reducible repeat' first
    | assumption | intro _ | apply setCtx_confined | apply endWith_confined | apply closeContext_confined
    | refine foldl_confined _ (fun _ _ _ => ?_) _ _ ?_ | refine ite_confined _ _ ?_ ?_ | split | dsimp only

theorem resetStreamFront_confined {B : Block → Prop} {o : State} (s : State) (hs : Confined B o s) (hMem : B .mem := by
    assumption) (hAudit : B .audit := by assumption) (hGdl : B .gdl := by assumption) (hDdr : B .ddr := by assumption) (hLfl : B
    .lfl := by assumption) (hSfe : B .sfe := by assumption) (hPci : B .pci := by assumption) (hBoot : B .boot := by assumption)
    : Confined B o (resetStreamFront s) := by
  unfold resetStreamFront
  with_reducible repeat' first
    | assumption | intro _ | apply retireJob_confined | apply endStreams_confined | apply closeWithDomain_confined
    | refine foldl_confined _ (fun _ _ _ => ?_) _ _ ?_ | simp only [confined_sfe hSfe] | split | dsimp only

theorem resetFlash_confined {B : Block → Prop} {o : State} (s : State) (hs : Confined B o s) (hGdl : B .gdl := by assumption)
    (hFlt : B .flt := by assumption) (hLfl : B .lfl := by assumption) (hPci : B .pci := by assumption) : Confined B o
    (resetFlash s) := by
  unfold resetFlash
  with_reducible repeat' first
    | assumption | intro _ | apply finishFlash_confined | apply endIngestWithDomain_confined
    | refine foldl_confined _ (fun _ _ _ => ?_) _ _ ?_ | simp only [confined_flt hFlt] | split | dsimp only

theorem resetDramGroup_confined {B : Block → Prop} {o : State} (d : Nat) (s : State) (hs : Confined B o s) (hGdl : B .gdl := by
    assumption) (hDdr : B .ddr := by assumption) (hFlt : B .flt := by assumption) (hLfl : B .lfl := by assumption) (hPci : B
    .pci := by assumption) : Confined B o (resetDramGroup d s) := by
  unfold resetDramGroup
  with_reducible repeat' first
    | assumption | intro _ | apply setChan_confined | apply endRetrain_confined | apply poisonGroup_confined
    | apply endIngestWithDomain_confined | refine foldl_confined _ (fun _ _ _ => ?_) _ _ ?_ | refine ite_confined _ _ ?_ ?_
    | simp only [confined_ddr hDdr] | split | dsimp only

theorem resetContents_confined {B : Block → Prop} {o : State} (d : Nat) (s : State) (hs : Confined B o s) (hCores : B .cores :=
    by assumption) (hMem : B .mem := by assumption) (hBridges : B .bridges := by assumption) (hAudit : B .audit := by
    assumption) (hGdl : B .gdl := by assumption) (hDdr : B .ddr := by assumption) (hFlt : B .flt := by assumption) (hLfl : B
    .lfl := by assumption) (hSfe : B .sfe := by assumption) (hPci : B .pci := by assumption) (hBoot : B .boot := by assumption)
    : Confined B o (resetContents d s) := by
  unfold resetContents
  with_reducible repeat' first
    | assumption | intro _ | apply resetCore_confined | apply freshBridges_confined | apply zeroGroup_confined
    | apply resetMemorySide_confined | apply resetStreamFront_confined | apply resetFlash_confined
    | apply resetDramGroup_confined | refine ite_confined _ _ ?_ ?_ | split | dsimp only

theorem beginReset_confined {B : Block → Prop} {o : State} (d : Nat) (s : State) (hs : Confined B o s) (hCores : B .cores := by
    assumption) (hMem : B .mem := by assumption) (hBridges : B .bridges := by assumption) (hAudit : B .audit := by assumption)
    (hGdl : B .gdl := by assumption) (hDdr : B .ddr := by assumption) (hFlt : B .flt := by assumption) (hLfl : B .lfl := by
    assumption) (hSfe : B .sfe := by assumption) (hPci : B .pci := by assumption) (hPwr : B .pwr := by assumption) (hBoot : B
    .boot := by assumption) : Confined B o (beginReset d s) := by
  unfold beginReset
  with_reducible repeat' first
    | assumption | intro _ | apply setDom_confined | apply endWithDomain_confined | apply resetContents_confined
    | refine foldl_confined _ (fun _ _ _ => ?_) _ _ ?_ | simp only [confined_boot hBoot] | split | dsimp only

theorem domResetWrite_confined {B : Block → Prop} {o : State} (v : Word) (s : State) (hs : Confined B o s) (hCores : B .cores :=
    by assumption) (hMem : B .mem := by assumption) (hBridges : B .bridges := by assumption) (hAudit : B .audit := by
    assumption) (hGdl : B .gdl := by assumption) (hDdr : B .ddr := by assumption) (hFlt : B .flt := by assumption) (hLfl : B
    .lfl := by assumption) (hSfe : B .sfe := by assumption) (hPci : B .pci := by assumption) (hPwr : B .pwr := by assumption)
    (hBoot : B .boot := by assumption) : Confined B o (domResetWrite v s) := by
  unfold domResetWrite
  with_reducible repeat' first
    | assumption | intro _ | apply beginReset_confined | refine ite_confined _ _ ?_ ?_ | simp only [confined_boot hBoot]
    | split | dsimp only

theorem endReclaim_confined {B : Block → Prop} {o : State} (s : State) (hs : Confined B o s) (hPci : B .pci := by assumption)
    (hBoot : B .boot := by assumption) : Confined B o (endReclaim s) := by
  unfold endReclaim
  with_reducible repeat' first
    | assumption | intro _ | apply postReclaim_confined | simp only [confined_boot hBoot] | split | dsimp only

theorem fenceLanes_confined {B : Block → Prop} {o : State} (h : Nat) (bad : Byte) (s : State) (hs : Confined B o s) (hCores : B
    .cores := by assumption) (hMem : B .mem := by assumption) (hFences : B .fences := by assumption) (hLfl : B .lfl := by
    assumption) (hPci : B .pci := by assumption) (hPwr : B .pwr := by assumption) : Confined B o (fenceLanes h bad s) := by
  unfold fenceLanes
  with_reducible repeat' first
    | assumption | intro _ | apply postEvent_confined | apply fenceHalf_confined
    | refine foldl_confined _ (fun _ _ _ => ?_) _ _ ?_ | refine ite_confined _ _ ?_ ?_ | simp only [confined_fences hFences]
    | split | dsimp only

theorem fencePorts_confined {B : Block → Prop} {o : State} (bad : BitVec 4) (s : State) (hs : Confined B o s) (hFences : B
    .fences := by assumption) (hPci : B .pci := by assumption) : Confined B o (fencePorts bad s) := by
  unfold fencePorts
  with_reducible repeat' first
    | assumption | intro _ | apply postEvent_confined | refine foldl_confined _ (fun _ _ _ => ?_) _ _ ?_
    | simp only [confined_fences hFences] | split | dsimp only

theorem settleHeld_confined {B : Block → Prop} {o : State} (d : Nat) (rep : HeldReport) (s : State) (hs : Confined B o s)
    (hCores : B .cores := by assumption) (hMem : B .mem := by assumption) (hFences : B .fences := by assumption) (hDdr : B .ddr
    := by assumption) (hLfl : B .lfl := by assumption) (hPci : B .pci := by assumption) (hPwr : B .pwr := by assumption) (hBoot
    : B .boot := by assumption) : Confined B o (settleHeld d rep s) := by
  unfold settleHeld
  with_reducible repeat' first
    | assumption | intro _ | apply fatalStop_confined | apply postEvent_confined | apply takeOut_confined
    | apply trainOne_confined | apply fenceLanes_confined | apply fencePorts_confined
    | refine foldl_confined _ (fun _ _ _ => ?_) _ _ ?_ | refine ite_confined _ _ ?_ ?_ | split | dsimp only

theorem reportHeld_confined {B : Block → Prop} {o : State} (h : HeldPhase) (s : State) (hs : Confined B o s) (hLfl : B .lfl :=
    by assumption) (hPci : B .pci := by assumption) : Confined B o (reportHeld h s) := by
  unfold reportHeld
  with_reducible repeat' first
    | assumption | intro _ | apply setJob_confined | apply coreReport_confined
    | refine foldl_confined _ (fun _ _ _ => ?_) _ _ ?_ | refine ite_confined _ _ ?_ ?_ | split | dsimp only

end Sys2Proof.Machine
end

