-- ==== Sys2Proof/Laws/ConfinedBoot.lean ====
section
/-! SUPPORT. The blocks of the state that each function of Machine.Boot may change. -/

namespace Sys2Proof.Machine
open Sys2Proof Numeric

theorem startDram_confined {B : Block → Prop} {o : State} (rep : StartReport) (s : State) (hs : Confined B o s) (hDdr : B .ddr
    := by assumption) : Confined B o (startDram rep s) := by
  unfold startDram
  with_reducible repeat' first
    | assumption | intro _ | apply setChan_confined | refine foldl_confined _ (fun _ _ _ => ?_) _ _ ?_
    | refine ite_confined _ _ ?_ ?_ | simp only [confined_ddr hDdr] | split | dsimp only

theorem coresOff_confined {B : Block → Prop} {o : State} (s : State) (hs : Confined B o s) (hPwr : B .pwr := by assumption) :
    Confined B o (coresOff s) := by
  unfold coresOff
  with_reducible repeat' first
    | assumption | intro _ | apply setDom_confined | refine foldl_confined _ (fun _ _ _ => ?_) _ _ ?_ | split | dsimp only

theorem finishStart_confined {B : Block → Prop} {o : State} (rep : StartReport) (slot : Bool) (s : State) (hs : Confined B o s)
    (hFences : B .fences := by assumption) (hDdr : B .ddr := by assumption) (hFlt : B .flt := by assumption) (hSec : B .sec :=
    by assumption) (hPwr : B .pwr := by assumption) (hBoot : B .boot := by assumption) (hPins : B .pins := by assumption) :
    Confined B o (finishStart rep slot s) := by
  unfold finishStart
  with_reducible repeat' first
    | assumption | intro _ | apply startDram_confined | apply coresOff_confined
    | simp only [confined_fences hFences,
      confined_flt_sec_boot_pins hFlt hSec hBoot hPins]
    | split | dsimp only

theorem fwResult_confined {B : Block → Prop} {o : State} (code : Nat) (s : State) (hs : Confined B o s) (hBoot : B .boot := by
    assumption) : Confined B o (fwResult code s) := by
  unfold fwResult
  with_reducible repeat' first | assumption | intro _ | simp only [confined_boot hBoot] | split | dsimp only

theorem activateAtReset_confined {B : Block → Prop} {o : State} (s : State) (hs : Confined B o s) (hBoot : B .boot := by
    assumption) : Confined B o (activateAtReset s) := by
  unfold activateAtReset
  with_reducible repeat' first
    | assumption | intro _ | apply fwResult_confined | refine ite_confined _ _ ?_ ?_ | simp only [confined_boot hBoot] | split
    | dsimp only

theorem flashSlot_confined {B : Block → Prop} {o : State} (b : Bool) (img : Bytes) (s : State) (hs : Confined B o s) (hMem : B
    .mem := by assumption) (hEfl : B .efl := by assumption) : Confined B o (flashSlot b img s) := by
  unfold flashSlot
  with_reducible repeat' first
    | assumption | intro _ | refine ite_confined _ _ ?_ ?_ | simp only [confined_mem_efl hMem hEfl] | split
    | dsimp only

theorem fwIdle_confined {B : Block → Prop} {o : State} (s : State) (hs : Confined B o s) (hBoot : B .boot := by assumption) :
    Confined B o (fwIdle s) := by
  unfold fwIdle
  with_reducible repeat' first | assumption | intro _ | simp only [confined_boot hBoot] | split | dsimp only

theorem finishStage_confined {B : Block → Prop} {o : State} (flashOk : Bool) (s : State) (hs : Confined B o s) (hMem : B .mem :=
    by assumption) (hEfl : B .efl := by assumption) (hBoot : B .boot := by assumption) : Confined B o (finishStage flashOk s) :=
    by
  unfold finishStage
  with_reducible repeat' first
    | assumption | intro _ | apply fwResult_confined | apply flashSlot_confined | apply fwIdle_confined
    | refine ite_confined _ _ ?_ ?_ | simp only [confined_boot hBoot] | split | dsimp only

theorem startCommit_confined {B : Block → Prop} {o : State} (s : State) (hs : Confined B o s) (hBoot : B .boot := by assumption)
    : Confined B o (startCommit s) := by
  unfold startCommit
  with_reducible repeat' first
    | assumption | intro _ | refine ite_confined _ _ ?_ ?_ | simp only [confined_boot hBoot] | split | dsimp only

theorem discardPending_confined {B : Block → Prop} {o : State} (s : State) (hs : Confined B o s) (hBoot : B .boot := by
    assumption) : Confined B o (discardPending s) := by
  unfold discardPending
  with_reducible repeat' first | assumption | intro _ | simp only [confined_boot hBoot] | split | dsimp only

end Sys2Proof.Machine
end

