-- ==== Sys2Proof/Laws/ConfinedGate.lean ====
section
/-! SUPPORT. The blocks of the state that each function of Machine.Gate may change. -/

namespace Sys2Proof.Machine
open Sys2Proof Numeric

theorem writeResults_confined {B : Block → Prop} {o : State} (c dst step w : Nat) (rows : List ResRow) (stats : Option (Nat ×
    List FVal)) (nonfin : Bool) (p : Bool) (s : State) (hs : Confined B o s) (hCores : B .cores := by assumption) (hMem : B .mem
    := by assumption) : Confined B o (writeResults c dst step w rows stats nonfin p s) := by
  unfold writeResults
  with_reducible repeat' first
    | assumption | intro _ | apply updCore_confined | apply putRows_confined | apply putPart_confined
    | refine foldl_confined _ (fun _ _ _ => ?_) _ _ ?_ | split | dsimp only

theorem runDrain_confined {B : Block → Prop} {o : State} (c : Nat) (d : DrainOp) (p : Bool) (s : State) (hs : Confined B o s)
    (hCores : B .cores := by assumption) (hMem : B .mem := by assumption) : Confined B o (runDrain c d p s) := by
  unfold runDrain
  with_reducible repeat' first
    | assumption | intro _ | apply writeResults_confined | refine ite_confined _ _ ?_ ?_ | split | dsimp only

theorem issueDrain_confined {B : Block → Prop} {o : State} (c : Nat) (s : State) (hs : Confined B o s) (hCores : B .cores := by
    assumption) (hMem : B .mem := by assumption) (hFree : B .free := by assumption) : Confined B o (issueDrain c s) := by
  unfold issueDrain
  with_reducible repeat' first
    | assumption | intro _ | apply State.spend_confined | apply issueError_confined | apply issueRows_confined
    | apply runDrain_confined | refine ite_confined _ _ ?_ ?_ | split | dsimp only

theorem writeGate_confined {B : Block → Prop} {o : State} (c : Nat) (g : GateOp) (step w : Nat) (rows : List ResRow) (p : Bool)
    (s : State) (hs : Confined B o s) (hCores : B .cores := by assumption) (hMem : B .mem := by assumption) : Confined B o
    (writeGate c g step w rows p s) := by
  unfold writeGate
  with_reducible repeat' first | assumption | intro _ | apply writeResults_confined | split | dsimp only

theorem runGfn_confined {B : Block → Prop} {o : State} (c : Nat) (g : GateOp) (p : Bool) (s : State) (hs : Confined B o s)
    (hCores : B .cores := by assumption) (hMem : B .mem := by assumption) : Confined B o (runGfn c g p s) := by
  unfold runGfn
  with_reducible repeat' first | assumption | intro _ | apply writeGate_confined | split | dsimp only

theorem runGate2_confined {B : Block → Prop} {o : State} (c : Nat) (g : GateOp) (p : Bool) (s : State) (hs : Confined B o s)
    (hCores : B .cores := by assumption) (hMem : B .mem := by assumption) : Confined B o (runGate2 c g p s) := by
  unfold runGate2
  with_reducible repeat' first | assumption | intro _ | apply writeGate_confined | split | dsimp only

theorem runReduce_confined {B : Block → Prop} {o : State} (c : Nat) (g : GateOp) (p : Bool) (s : State) (hs : Confined B o s)
    (hCores : B .cores := by assumption) (hMem : B .mem := by assumption) : Confined B o (runReduce c g p s) := by
  unfold runReduce
  with_reducible repeat' first | assumption | intro _ | apply putPart_confined | apply writeGate_confined | split | dsimp only

theorem runGquant_confined {B : Block → Prop} {o : State} (c : Nat) (g : GateOp) (p : Bool) (s : State) (hs : Confined B o s)
    (hCores : B .cores := by assumption) (hMem : B .mem := by assumption) : Confined B o (runGquant c g p s) := by
  unfold runGquant
  with_reducible repeat' first
    | assumption | intro _ | apply writeGate_confined | refine ite_confined _ _ ?_ ?_ | split | dsimp only

theorem runGscale_confined {B : Block → Prop} {o : State} (c : Nat) (g : GateOp) (p : Bool) (s : State) (hs : Confined B o s)
    (hCores : B .cores := by assumption) (hMem : B .mem := by assumption) : Confined B o (runGscale c g p s) := by
  unfold runGscale
  with_reducible repeat' first
    | assumption | intro _ | apply updCore_confined | apply putRow_confined | apply putPart_confined | split | dsimp only

end Sys2Proof.Machine
end

