-- ==== Sys2Proof/Laws/ConfinedJtag.lean ====
section
/-! SUPPORT. The blocks of the state that each function of Machine.Jtag may change. -/

namespace Sys2Proof.Machine
open Sys2Proof Numeric

theorem shiftOut_confined {B : Block → Prop} {o : State} (v : Word) (s : State) (hs : Confined B o s) (hPins : B .pins := by
    assumption) : Confined B o (shiftOut v s) := by
  unfold shiftOut
  with_reducible repeat' first | assumption | intro _ | simp only [confined_pins hPins] | split | dsimp only

end Sys2Proof.Machine
end

