-- ==== Sys2Proof/Laws/ConfinedRegRead.lean ====
section
/-! SUPPORT. The blocks of the state that each function of Machine.RegRead may change. -/

namespace Sys2Proof.Machine
open Sys2Proof Numeric

theorem lowRead_confined {B : Block → Prop} {o : State} (f off : Nat) (s : State) (hs : Confined B o s) (hPci : B .pci := by
    assumption) : Confined B o (lowRead f off s) := by
  unfold lowRead
  with_reducible repeat' first
    | assumption | intro _ | apply setFunc_confined | refine ite_confined _ _ ?_ ?_ | split | dsimp only

end Sys2Proof.Machine
end

