-- ==== Sys2Proof/Laws/ConfinedRegisters.lean ====
section
/-! SUPPORT. The blocks of the state that each function of Machine.Registers may change. -/

namespace Sys2Proof.Machine
open Sys2Proof Numeric

theorem limitWrite_confined {B : Block → Prop} {o : State} (v : DWord) (s : State) (hs : Confined B o s) (hPwr : B .pwr := by
    assumption) : Confined B o (limitWrite v s) := by
  unfold limitWrite
  with_reducible repeat' first
    | assumption | intro _ | refine ite_confined _ _ ?_ ?_ | simp only [confined_pwr hPwr] | split | dsimp only

theorem vfWrite_confined {B : Block → Prop} {o : State} (v : DWord) (s : State) (hs : Confined B o s) (hPwr : B .pwr := by
    assumption) : Confined B o (vfWrite v s) := by
  unfold vfWrite
  with_reducible repeat' first
    | assumption | intro _ | refine ite_confined _ _ ?_ ?_ | simp only [confined_pwr hPwr] | split | dsimp only

theorem powerStore_confined {B : Block → Prop} {old : State} (o : Nat) (v : DWord) (s : State) (hs : Confined B old s) (hDdr : B
    .ddr := by assumption) (hFlt : B .flt := by assumption) (hPwr : B .pwr := by assumption) : Confined B old (powerStore o v s)
    := by
  unfold powerStore
  with_reducible repeat' first
    | assumption | intro _ | apply domSelWrite_confined | apply padsWrite_confined | apply limitWrite_confined
    | apply vfWrite_confined | simp only [confined_pwr hPwr] | split | dsimp only

theorem secStore_confined {B : Block → Prop} {old : State} (o : Nat) (v : DWord) (s : State) (hs : Confined B old s) (hAudit : B
    .audit := by assumption) (hDdr : B .ddr := by assumption) (hLfl : B .lfl := by assumption) (hTrg : B .trg := by assumption)
    (hPci : B .pci := by assumption) (hSec : B .sec := by assumption) (hBoot : B .boot := by assumption) (hFree : B .free := by
    assumption) : Confined B old (secStore o v s) := by
  unfold secStore
  with_reducible repeat' first
    | assumption | intro _ | apply tenSelWrite_confined | apply kslotWrite_confined | apply rkeyWrite_confined
    | refine ite_confined _ _ ?_ ?_ | simp only [confined_sec hSec] | split | dsimp only

theorem fnCtrlWrite_confined {B : Block → Prop} {o : State} (g : Nat) (v : DWord) (s : State) (hs : Confined B o s) (hPci : B
    .pci := by assumption) : Confined B o (fnCtrlWrite g v s) := by
  unfold fnCtrlWrite
  with_reducible repeat' first
    | assumption | intro _ | apply setFunc_confined | refine ite_confined _ _ ?_ ?_ | split | dsimp only

theorem setupStore_confined {B : Block → Prop} {old : State} (f g o : Nat) (v : DWord) (s : State) (hs : Confined B old s)
    (hAudit : B .audit := by assumption) (hPci : B .pci := by assumption) (hBoot : B .boot := by assumption) : Confined B old
    (setupStore f g o v s) := by
  unfold setupStore
  with_reducible repeat' first
    | assumption | intro _ | apply setFunc_confined | apply setEvq_confined | apply queueSelect_confined
    | apply eventConfigure_confined | apply fnCtrlWrite_confined | refine ite_confined _ _ ?_ ?_ | split | dsimp only

theorem costWrite_confined {B : Block → Prop} {o : State} (f : Nat) (v : DWord) (s : State) (hs : Confined B o s) (hLfl : B .lfl
    := by assumption) : Confined B o (costWrite f v s) := by
  unfold costWrite
  with_reducible repeat' first
    | assumption | intro _ | apply setTenant_confined | refine ite_confined _ _ ?_ ?_ | split | dsimp only

theorem liftlineStore_confined {B : Block → Prop} {old : State} (f o : Nat) (v : DWord) (s : State) (hs : Confined B old s)
    (hCores : B .cores := by assumption) (hMem : B .mem := by assumption) (hLfl : B .lfl := by assumption) (hPci : B .pci := by
    assumption) : Confined B old (liftlineStore f o v s) := by
  unfold liftlineStore
  with_reducible repeat' first
    | assumption | intro _ | apply partitionWrite_confined | apply versionSelect_confined | apply ctxSelWrite_confined
    | apply costWrite_confined | refine ite_confined _ _ ?_ ?_ | simp only [confined_lfl hLfl] | split | dsimp only

theorem kvStore_confined {B : Block → Prop} {old : State} (o : Nat) (v : DWord) (s : State) (hs : Confined B old s) (hAudit : B
    .audit := by assumption) (hLfl : B .lfl := by assumption) (hPci : B .pci := by assumption) (hBoot : B .boot := by
    assumption) : Confined B old (kvStore o v s) := by
  unfold kvStore
  with_reducible repeat' first
    | assumption | intro _ | apply kvPoolWrite_confined | apply kvTenantWrite_confined | simp only [confined_lfl hLfl] | split
    | dsimp only

theorem tenantCfgWrite_confined {B : Block → Prop} {o : State} (v : DWord) (s : State) (hs : Confined B o s) (hGdl : B .gdl :=
    by assumption) : Confined B o (tenantCfgWrite v s) := by
  unfold tenantCfgWrite
  with_reducible repeat' first
    | assumption | intro _ | refine ite_confined _ _ ?_ ?_ | simp only [confined_gdl hGdl] | split | dsimp only

theorem laneWrite_confined {B : Block → Prop} {o : State} (v : DWord) (s : State) (hs : Confined B o s) (hDdr : B .ddr := by
    assumption) : Confined B o (laneWrite v s) := by
  unfold laneWrite
  with_reducible repeat' first
    | assumption | intro _ | apply setChan_confined | refine ite_confined _ _ ?_ ?_ | split | dsimp only

theorem dramStore_confined {B : Block → Prop} {old : State} (o : Nat) (v : DWord) (s : State) (hs : Confined B old s) (hAudit :
    B .audit := by assumption) (hGdl : B .gdl := by assumption) (hDdr : B .ddr := by assumption) (hPci : B .pci := by
    assumption) (hBoot : B .boot := by assumption) (hFree : B .free := by assumption) : Confined B old (dramStore o v s) := by
  unfold dramStore
  with_reducible repeat' first
    | assumption | intro _ | apply regionSelect_confined | apply accountSelect_confined | apply laneWrite_confined
    | simp only [confined_gdl hGdl, confined_ddr hDdr] | split | dsimp only

theorem flashStore_confined {B : Block → Prop} {old : State} (o : Nat) (v : DWord) (s : State) (hs : Confined B old s) (hFlt : B
    .flt := by assumption) (hEfl : B .efl := by assumption) : Confined B old (flashStore o v s) := by
  unfold flashStore
  with_reducible repeat' first
    | assumption | intro _ | apply blockSelect_confined | simp only [confined_flt hFlt, confined_efl hEfl] | split
    | dsimp only

theorem streamStore_confined {B : Block → Prop} {old : State} (f o : Nat) (v : DWord) (s : State) (hs : Confined B old s) (hSfe
    : B .sfe := by assumption) (hPci : B .pci := by assumption) : Confined B old (streamStore f o v s) := by
  unfold streamStore
  with_reducible repeat' first
    | assumption | intro _ | apply ctxSelectWrite_confined | apply setCsiPort_confined | refine ite_confined _ _ ?_ ?_
    | simp only [confined_sfe hSfe] | split | dsimp only

theorem ringStore_confined {B : Block → Prop} {old : State} (o : Nat) (v : DWord) (s : State) (hs : Confined B old s) (hTrg : B
    .trg := by assumption) (hPins : B .pins := by assumption) : Confined B old (ringStore o v s) := by
  unfold ringStore
  with_reducible repeat' first | assumption | intro _ | apply setTrg_confined | apply trgWrite_confined | split | dsimp only

theorem coreStore_confined {B : Block → Prop} {old : State} (f n o : Nat) (v : DWord) (s : State) (hs : Confined B old s)
    (hCores : B .cores := by assumption) : Confined B old (coreStore f n o v s) := by
  unfold coreStore
  with_reducible repeat' first
    | assumption | intro _ | apply updCore_confined | apply regionSelWrite_confined | apply clearNumeric_confined
    | apply clearArray_confined | refine ite_confined _ _ ?_ ?_ | split | dsimp only

end Sys2Proof.Machine
end

