-- ==== Sys2Proof/Laws/State.lean ====
section
/-! SUPPORT. What each updater of one block of the state leaves as it was, field by field (the memories: Laws.Kept and its
family), and what the accessors read after an update. -/

namespace Sys2Proof.Machine

open Sys2Proof

/-! ### `setMems` writes `mem` -/

@[simp] theorem setMems_cores (s : State) (f : Mems → Mems) : (setMems s f).cores = s.cores := rfl
@[simp] theorem setMems_fences (s : State) (f : Mems → Mems) : (setMems s f).fences = s.fences := rfl
@[simp] theorem setMems_bridges (s : State) (f : Mems → Mems) : (setMems s f).bridges = s.bridges := rfl
@[simp] theorem setMems_audit (s : State) (f : Mems → Mems) : (setMems s f).audit = s.audit := rfl
@[simp] theorem setMems_gdl (s : State) (f : Mems → Mems) : (setMems s f).gdl = s.gdl := rfl
@[simp] theorem setMems_ddr (s : State) (f : Mems → Mems) : (setMems s f).ddr = s.ddr := rfl
@[simp] theorem setMems_flt (s : State) (f : Mems → Mems) : (setMems s f).flt = s.flt := rfl
@[simp] theorem setMems_efl (s : State) (f : Mems → Mems) : (setMems s f).efl = s.efl := rfl
@[simp] theorem setMems_lfl (s : State) (f : Mems → Mems) : (setMems s f).lfl = s.lfl := rfl
@[simp] theorem setMems_sfe (s : State) (f : Mems → Mems) : (setMems s f).sfe = s.sfe := rfl
@[simp] theorem setMems_trg (s : State) (f : Mems → Mems) : (setMems s f).trg = s.trg := rfl
@[simp] theorem setMems_pci (s : State) (f : Mems → Mems) : (setMems s f).pci = s.pci := rfl
@[simp] theorem setMems_sec (s : State) (f : Mems → Mems) : (setMems s f).sec = s.sec := rfl
@[simp] theorem setMems_pwr (s : State) (f : Mems → Mems) : (setMems s f).pwr = s.pwr := rfl
@[simp] theorem setMems_boot (s : State) (f : Mems → Mems) : (setMems s f).boot = s.boot := rfl
@[simp] theorem setMems_fuses (s : State) (f : Mems → Mems) : (setMems s f).fuses = s.fuses := rfl
@[simp] theorem setMems_pins (s : State) (f : Mems → Mems) : (setMems s f).pins = s.pins := rfl
@[simp] theorem setMems_timer (s : State) (f : Mems → Mems) : (setMems s f).timer = s.timer := rfl
@[simp] theorem setMems_free (s : State) (f : Mems → Mems) : (setMems s f).free = s.free := rfl
@[simp] theorem setMems_pending (s : State) (f : Mems → Mems) : (setMems s f).pending = s.pending := rfl
@[simp] theorem setMems_core (s : State) (f : Mems → Mems) (x : Nat) : (setMems s f).core x = s.core x := rfl
@[simp] theorem setMems_run (s : State) (f : Mems → Mems) (x : Nat) : (setMems s f).run x = s.run x := rfl
@[simp] theorem setMems_func (s : State) (f : Mems → Mems) (x : Nat) : (setMems s f).func x = s.func x := rfl
@[simp] theorem setMems_queue (s : State) (f : Mems → Mems) (x y : Nat) : (setMems s f).queue x y = s.queue x y := rfl
@[simp] theorem setMems_dom (s : State) (f : Mems → Mems) (x : Nat) : (setMems s f).dom x = s.dom x := rfl
@[simp] theorem setMems_tenant (s : State) (f : Mems → Mems) (x : Nat) : (setMems s f).tenant x = s.tenant x := rfl
@[simp] theorem setMems_job (s : State) (f : Mems → Mems) (x : Nat) : (setMems s f).job x = s.job x := rfl
@[simp] theorem setMems_tsec (s : State) (f : Mems → Mems) (x : Nat) : (setMems s f).tsec x = s.tsec x := rfl
@[simp] theorem setMems_ctx (s : State) (f : Mems → Mems) (x : Nat) : (setMems s f).ctx x = s.ctx x := rfl
@[simp] theorem setMems_region (s : State) (f : Mems → Mems) (x : Nat) : (setMems s f).region x = s.region x := rfl

/-! ### `State.spend` writes `free` -/

@[simp] theorem State.spend_cores (s : State) : (State.spend s).cores = s.cores := rfl
@[simp] theorem State.spend_fences (s : State) : (State.spend s).fences = s.fences := rfl
@[simp] theorem State.spend_bridges (s : State) : (State.spend s).bridges = s.bridges := rfl
@[simp] theorem State.spend_audit (s : State) : (State.spend s).audit = s.audit := rfl
@[simp] theorem State.spend_gdl (s : State) : (State.spend s).gdl = s.gdl := rfl
@[simp] theorem State.spend_ddr (s : State) : (State.spend s).ddr = s.ddr := rfl
@[simp] theorem State.spend_flt (s : State) : (State.spend s).flt = s.flt := rfl
@[simp] theorem State.spend_efl (s : State) : (State.spend s).efl = s.efl := rfl
@[simp] theorem State.spend_lfl (s : State) : (State.spend s).lfl = s.lfl := rfl
@[simp] theorem State.spend_sfe (s : State) : (State.spend s).sfe = s.sfe := rfl
@[simp] theorem State.spend_trg (s : State) : (State.spend s).trg = s.trg := rfl
@[simp] theorem State.spend_pci (s : State) : (State.spend s).pci = s.pci := rfl
@[simp] theorem State.spend_sec (s : State) : (State.spend s).sec = s.sec := rfl
@[simp] theorem State.spend_pwr (s : State) : (State.spend s).pwr = s.pwr := rfl
@[simp] theorem State.spend_boot (s : State) : (State.spend s).boot = s.boot := rfl
@[simp] theorem State.spend_fuses (s : State) : (State.spend s).fuses = s.fuses := rfl
@[simp] theorem State.spend_pins (s : State) : (State.spend s).pins = s.pins := rfl
@[simp] theorem State.spend_timer (s : State) : (State.spend s).timer = s.timer := rfl
@[simp] theorem State.spend_pending (s : State) : (State.spend s).pending = s.pending := rfl
@[simp] theorem State.spend_core (s : State) (x : Nat) : (State.spend s).core x = s.core x := rfl
@[simp] theorem State.spend_run (s : State) (x : Nat) : (State.spend s).run x = s.run x := rfl
@[simp] theorem State.spend_func (s : State) (x : Nat) : (State.spend s).func x = s.func x := rfl
@[simp] theorem State.spend_queue (s : State) (x y : Nat) : (State.spend s).queue x y = s.queue x y := rfl
@[simp] theorem State.spend_dom (s : State) (x : Nat) : (State.spend s).dom x = s.dom x := rfl
@[simp] theorem State.spend_tenant (s : State) (x : Nat) : (State.spend s).tenant x = s.tenant x := rfl
@[simp] theorem State.spend_job (s : State) (x : Nat) : (State.spend s).job x = s.job x := rfl
@[simp] theorem State.spend_tsec (s : State) (x : Nat) : (State.spend s).tsec x = s.tsec x := rfl
@[simp] theorem State.spend_ctx (s : State) (x : Nat) : (State.spend s).ctx x = s.ctx x := rfl
@[simp] theorem State.spend_region (s : State) (x : Nat) : (State.spend s).region x = s.region x := rfl

/-! ### `setDom` writes `pwr` -/

@[simp] theorem setDom_cores (s : State) (d : Nat) (f : Dom → Dom) : (setDom s d f).cores = s.cores := rfl
@[simp] theorem setDom_fences (s : State) (d : Nat) (f : Dom → Dom) : (setDom s d f).fences = s.fences := rfl
@[simp] theorem setDom_bridges (s : State) (d : Nat) (f : Dom → Dom) : (setDom s d f).bridges = s.bridges := rfl
@[simp] theorem setDom_audit (s : State) (d : Nat) (f : Dom → Dom) : (setDom s d f).audit = s.audit := rfl
@[simp] theorem setDom_gdl (s : State) (d : Nat) (f : Dom → Dom) : (setDom s d f).gdl = s.gdl := rfl
@[simp] theorem setDom_ddr (s : State) (d : Nat) (f : Dom → Dom) : (setDom s d f).ddr = s.ddr := rfl
@[simp] theorem setDom_flt (s : State) (d : Nat) (f : Dom → Dom) : (setDom s d f).flt = s.flt := rfl
@[simp] theorem setDom_efl (s : State) (d : Nat) (f : Dom → Dom) : (setDom s d f).efl = s.efl := rfl
@[simp] theorem setDom_lfl (s : State) (d : Nat) (f : Dom → Dom) : (setDom s d f).lfl = s.lfl := rfl
@[simp] theorem setDom_sfe (s : State) (d : Nat) (f : Dom → Dom) : (setDom s d f).sfe = s.sfe := rfl
@[simp] theorem setDom_trg (s : State) (d : Nat) (f : Dom → Dom) : (setDom s d f).trg = s.trg := rfl
@[simp] theorem setDom_pci (s : State) (d : Nat) (f : Dom → Dom) : (setDom s d f).pci = s.pci := rfl
@[simp] theorem setDom_sec (s : State) (d : Nat) (f : Dom → Dom) : (setDom s d f).sec = s.sec := rfl
@[simp] theorem setDom_boot (s : State) (d : Nat) (f : Dom → Dom) : (setDom s d f).boot = s.boot := rfl
@[simp] theorem setDom_fuses (s : State) (d : Nat) (f : Dom → Dom) : (setDom s d f).fuses = s.fuses := rfl
@[simp] theorem setDom_pins (s : State) (d : Nat) (f : Dom → Dom) : (setDom s d f).pins = s.pins := rfl
@[simp] theorem setDom_timer (s : State) (d : Nat) (f : Dom → Dom) : (setDom s d f).timer = s.timer := rfl
@[simp] theorem setDom_free (s : State) (d : Nat) (f : Dom → Dom) : (setDom s d f).free = s.free := rfl
@[simp] theorem setDom_pending (s : State) (d : Nat) (f : Dom → Dom) : (setDom s d f).pending = s.pending := rfl
@[simp] theorem setDom_core (s : State) (d : Nat) (f : Dom → Dom) (x : Nat) : (setDom s d f).core x = s.core x := rfl
@[simp] theorem setDom_run (s : State) (d : Nat) (f : Dom → Dom) (x : Nat) : (setDom s d f).run x = s.run x := rfl
@[simp] theorem setDom_func (s : State) (d : Nat) (f : Dom → Dom) (x : Nat) : (setDom s d f).func x = s.func x := rfl
@[simp] theorem setDom_queue (s : State) (d : Nat) (f : Dom → Dom) (x y : Nat) : (setDom s d f).queue x y = s.queue x y := rfl
@[simp] theorem setDom_tenant (s : State) (d : Nat) (f : Dom → Dom) (x : Nat) : (setDom s d f).tenant x = s.tenant x := rfl
@[simp] theorem setDom_job (s : State) (d : Nat) (f : Dom → Dom) (x : Nat) : (setDom s d f).job x = s.job x := rfl
@[simp] theorem setDom_tsec (s : State) (d : Nat) (f : Dom → Dom) (x : Nat) : (setDom s d f).tsec x = s.tsec x := rfl
@[simp] theorem setDom_ctx (s : State) (d : Nat) (f : Dom → Dom) (x : Nat) : (setDom s d f).ctx x = s.ctx x := rfl
@[simp] theorem setDom_region (s : State) (d : Nat) (f : Dom → Dom) (x : Nat) : (setDom s d f).region x = s.region x := rfl

/-! ### `setCore` writes `cores` -/

@[simp] theorem setCore_fences (s : State) (n : Nat) (k : Core) : (setCore s n k).fences = s.fences := rfl
@[simp] theorem setCore_bridges (s : State) (n : Nat) (k : Core) : (setCore s n k).bridges = s.bridges := rfl
@[simp] theorem setCore_audit (s : State) (n : Nat) (k : Core) : (setCore s n k).audit = s.audit := rfl
@[simp] theorem setCore_gdl (s : State) (n : Nat) (k : Core) : (setCore s n k).gdl = s.gdl := rfl
@[simp] theorem setCore_ddr (s : State) (n : Nat) (k : Core) : (setCore s n k).ddr = s.ddr := rfl
@[simp] theorem setCore_flt (s : State) (n : Nat) (k : Core) : (setCore s n k).flt = s.flt := rfl
@[simp] theorem setCore_efl (s : State) (n : Nat) (k : Core) : (setCore s n k).efl = s.efl := rfl
@[simp] theorem setCore_lfl (s : State) (n : Nat) (k : Core) : (setCore s n k).lfl = s.lfl := rfl
@[simp] theorem setCore_sfe (s : State) (n : Nat) (k : Core) : (setCore s n k).sfe = s.sfe := rfl
@[simp] theorem setCore_trg (s : State) (n : Nat) (k : Core) : (setCore s n k).trg = s.trg := rfl
@[simp] theorem setCore_pci (s : State) (n : Nat) (k : Core) : (setCore s n k).pci = s.pci := rfl
@[simp] theorem setCore_sec (s : State) (n : Nat) (k : Core) : (setCore s n k).sec = s.sec := rfl
@[simp] theorem setCore_pwr (s : State) (n : Nat) (k : Core) : (setCore s n k).pwr = s.pwr := rfl
@[simp] theorem setCore_boot (s : State) (n : Nat) (k : Core) : (setCore s n k).boot = s.boot := rfl
@[simp] theorem setCore_fuses (s : State) (n : Nat) (k : Core) : (setCore s n k).fuses = s.fuses := rfl
@[simp] theorem setCore_pins (s : State) (n : Nat) (k : Core) : (setCore s n k).pins = s.pins := rfl
@[simp] theorem setCore_timer (s : State) (n : Nat) (k : Core) : (setCore s n k).timer = s.timer := rfl
@[simp] theorem setCore_free (s : State) (n : Nat) (k : Core) : (setCore s n k).free = s.free := rfl
@[simp] theorem setCore_pending (s : State) (n : Nat) (k : Core) : (setCore s n k).pending = s.pending := rfl
@[simp] theorem setCore_func (s : State) (n : Nat) (k : Core) (x : Nat) : (setCore s n k).func x = s.func x := rfl
@[simp] theorem setCore_queue (s : State) (n : Nat) (k : Core) (x y : Nat) : (setCore s n k).queue x y = s.queue x y := rfl
@[simp] theorem setCore_dom (s : State) (n : Nat) (k : Core) (x : Nat) : (setCore s n k).dom x = s.dom x := rfl
@[simp] theorem setCore_tenant (s : State) (n : Nat) (k : Core) (x : Nat) : (setCore s n k).tenant x = s.tenant x := rfl
@[simp] theorem setCore_job (s : State) (n : Nat) (k : Core) (x : Nat) : (setCore s n k).job x = s.job x := rfl
@[simp] theorem setCore_tsec (s : State) (n : Nat) (k : Core) (x : Nat) : (setCore s n k).tsec x = s.tsec x := rfl
@[simp] theorem setCore_ctx (s : State) (n : Nat) (k : Core) (x : Nat) : (setCore s n k).ctx x = s.ctx x := rfl
@[simp] theorem setCore_region (s : State) (n : Nat) (k : Core) (x : Nat) : (setCore s n k).region x = s.region x := rfl

/-! ### `updCore` writes `cores` -/

@[simp] theorem updCore_fences (s : State) (n : Nat) (f : Core → Core) : (updCore s n f).fences = s.fences := rfl
@[simp] theorem updCore_bridges (s : State) (n : Nat) (f : Core → Core) : (updCore s n f).bridges = s.bridges := rfl
@[simp] theorem updCore_audit (s : State) (n : Nat) (f : Core → Core) : (updCore s n f).audit = s.audit := rfl
@[simp] theorem updCore_gdl (s : State) (n : Nat) (f : Core → Core) : (updCore s n f).gdl = s.gdl := rfl
@[simp] theorem updCore_ddr (s : State) (n : Nat) (f : Core → Core) : (updCore s n f).ddr = s.ddr := rfl
@[simp] theorem updCore_flt (s : State) (n : Nat) (f : Core → Core) : (updCore s n f).flt = s.flt := rfl
@[simp] theorem updCore_efl (s : State) (n : Nat) (f : Core → Core) : (updCore s n f).efl = s.efl := rfl
@[simp] theorem updCore_lfl (s : State) (n : Nat) (f : Core → Core) : (updCore s n f).lfl = s.lfl := rfl
@[simp] theorem updCore_sfe (s : State) (n : Nat) (f : Core → Core) : (updCore s n f).sfe = s.sfe := rfl
@[simp] theorem updCore_trg (s : State) (n : Nat) (f : Core → Core) : (updCore s n f).trg = s.trg := rfl
@[simp] theorem updCore_pci (s : State) (n : Nat) (f : Core → Core) : (updCore s n f).pci = s.pci := rfl
@[simp] theorem updCore_sec (s : State) (n : Nat) (f : Core → Core) : (updCore s n f).sec = s.sec := rfl
@[simp] theorem updCore_pwr (s : State) (n : Nat) (f : Core → Core) : (updCore s n f).pwr = s.pwr := rfl
@[simp] theorem updCore_boot (s : State) (n : Nat) (f : Core → Core) : (updCore s n f).boot = s.boot := rfl
@[simp] theorem updCore_fuses (s : State) (n : Nat) (f : Core → Core) : (updCore s n f).fuses = s.fuses := rfl
@[simp] theorem updCore_pins (s : State) (n : Nat) (f : Core → Core) : (updCore s n f).pins = s.pins := rfl
@[simp] theorem updCore_timer (s : State) (n : Nat) (f : Core → Core) : (updCore s n f).timer = s.timer := rfl
@[simp] theorem updCore_free (s : State) (n : Nat) (f : Core → Core) : (updCore s n f).free = s.free := rfl
@[simp] theorem updCore_pending (s : State) (n : Nat) (f : Core → Core) : (updCore s n f).pending = s.pending := rfl
@[simp] theorem updCore_func (s : State) (n : Nat) (f : Core → Core) (x : Nat) : (updCore s n f).func x = s.func x := rfl
@[simp] theorem updCore_queue (s : State) (n : Nat) (f : Core → Core) (x y : Nat) : (updCore s n f).queue x y = s.queue x y := rfl
@[simp] theorem updCore_dom (s : State) (n : Nat) (f : Core → Core) (x : Nat) : (updCore s n f).dom x = s.dom x := rfl
@[simp] theorem updCore_tenant (s : State) (n : Nat) (f : Core → Core) (x : Nat) : (updCore s n f).tenant x = s.tenant x := rfl
@[simp] theorem updCore_job (s : State) (n : Nat) (f : Core → Core) (x : Nat) : (updCore s n f).job x = s.job x := rfl
@[simp] theorem updCore_tsec (s : State) (n : Nat) (f : Core → Core) (x : Nat) : (updCore s n f).tsec x = s.tsec x := rfl
@[simp] theorem updCore_ctx (s : State) (n : Nat) (f : Core → Core) (x : Nat) : (updCore s n f).ctx x = s.ctx x := rfl
@[simp] theorem updCore_region (s : State) (n : Nat) (f : Core → Core) (x : Nat) : (updCore s n f).region x = s.region x := rfl

/-! ### `setFunc` writes `pci` -/

@[simp] theorem setFunc_cores (s : State) (f : Nat) (g : Func → Func) : (setFunc s f g).cores = s.cores := rfl
@[simp] theorem setFunc_fences (s : State) (f : Nat) (g : Func → Func) : (setFunc s f g).fences = s.fences := rfl
@[simp] theorem setFunc_bridges (s : State) (f : Nat) (g : Func → Func) : (setFunc s f g).bridges = s.bridges := rfl
@[simp] theorem setFunc_audit (s : State) (f : Nat) (g : Func → Func) : (setFunc s f g).audit = s.audit := rfl
@[simp] theorem setFunc_gdl (s : State) (f : Nat) (g : Func → Func) : (setFunc s f g).gdl = s.gdl := rfl
@[simp] theorem setFunc_ddr (s : State) (f : Nat) (g : Func → Func) : (setFunc s f g).ddr = s.ddr := rfl
@[simp] theorem setFunc_flt (s : State) (f : Nat) (g : Func → Func) : (setFunc s f g).flt = s.flt := rfl
@[simp] theorem setFunc_efl (s : State) (f : Nat) (g : Func → Func) : (setFunc s f g).efl = s.efl := rfl
@[simp] theorem setFunc_lfl (s : State) (f : Nat) (g : Func → Func) : (setFunc s f g).lfl = s.lfl := rfl
@[simp] theorem setFunc_sfe (s : State) (f : Nat) (g : Func → Func) : (setFunc s f g).sfe = s.sfe := rfl
@[simp] theorem setFunc_trg (s : State) (f : Nat) (g : Func → Func) : (setFunc s f g).trg = s.trg := rfl
@[simp] theorem setFunc_sec (s : State) (f : Nat) (g : Func → Func) : (setFunc s f g).sec = s.sec := rfl
@[simp] theorem setFunc_pwr (s : State) (f : Nat) (g : Func → Func) : (setFunc s f g).pwr = s.pwr := rfl
@[simp] theorem setFunc_boot (s : State) (f : Nat) (g : Func → Func) : (setFunc s f g).boot = s.boot := rfl
@[simp] theorem setFunc_fuses (s : State) (f : Nat) (g : Func → Func) : (setFunc s f g).fuses = s.fuses := rfl
@[simp] theorem setFunc_pins (s : State) (f : Nat) (g : Func → Func) : (setFunc s f g).pins = s.pins := rfl
@[simp] theorem setFunc_timer (s : State) (f : Nat) (g : Func → Func) : (setFunc s f g).timer = s.timer := rfl
@[simp] theorem setFunc_free (s : State) (f : Nat) (g : Func → Func) : (setFunc s f g).free = s.free := rfl
@[simp] theorem setFunc_pending (s : State) (f : Nat) (g : Func → Func) : (setFunc s f g).pending = s.pending := rfl
@[simp] theorem setFunc_core (s : State) (f : Nat) (g : Func → Func) (x : Nat) : (setFunc s f g).core x = s.core x := rfl
@[simp] theorem setFunc_run (s : State) (f : Nat) (g : Func → Func) (x : Nat) : (setFunc s f g).run x = s.run x := rfl
@[simp] theorem setFunc_dom (s : State) (f : Nat) (g : Func → Func) (x : Nat) : (setFunc s f g).dom x = s.dom x := rfl
@[simp] theorem setFunc_tenant (s : State) (f : Nat) (g : Func → Func) (x : Nat) : (setFunc s f g).tenant x = s.tenant x := rfl
@[simp] theorem setFunc_job (s : State) (f : Nat) (g : Func → Func) (x : Nat) : (setFunc s f g).job x = s.job x := rfl
@[simp] theorem setFunc_tsec (s : State) (f : Nat) (g : Func → Func) (x : Nat) : (setFunc s f g).tsec x = s.tsec x := rfl
@[simp] theorem setFunc_ctx (s : State) (f : Nat) (g : Func → Func) (x : Nat) : (setFunc s f g).ctx x = s.ctx x := rfl
@[simp] theorem setFunc_region (s : State) (f : Nat) (g : Func → Func) (x : Nat) : (setFunc s f g).region x = s.region x := rfl

/-! ### `setTenant` writes `lfl` -/

@[simp] theorem setTenant_cores (s : State) (t : Nat) (g : Tenant → Tenant) : (setTenant s t g).cores = s.cores := rfl
@[simp] theorem setTenant_fences (s : State) (t : Nat) (g : Tenant → Tenant) : (setTenant s t g).fences = s.fences := rfl
@[simp] theorem setTenant_bridges (s : State) (t : Nat) (g : Tenant → Tenant) : (setTenant s t g).bridges = s.bridges := rfl
@[simp] theorem setTenant_audit (s : State) (t : Nat) (g : Tenant → Tenant) : (setTenant s t g).audit = s.audit := rfl
@[simp] theorem setTenant_gdl (s : State) (t : Nat) (g : Tenant → Tenant) : (setTenant s t g).gdl = s.gdl := rfl
@[simp] theorem setTenant_ddr (s : State) (t : Nat) (g : Tenant → Tenant) : (setTenant s t g).ddr = s.ddr := rfl
@[simp] theorem setTenant_flt (s : State) (t : Nat) (g : Tenant → Tenant) : (setTenant s t g).flt = s.flt := rfl
@[simp] theorem setTenant_efl (s : State) (t : Nat) (g : Tenant → Tenant) : (setTenant s t g).efl = s.efl := rfl
@[simp] theorem setTenant_sfe (s : State) (t : Nat) (g : Tenant → Tenant) : (setTenant s t g).sfe = s.sfe := rfl
@[simp] theorem setTenant_trg (s : State) (t : Nat) (g : Tenant → Tenant) : (setTenant s t g).trg = s.trg := rfl
@[simp] theorem setTenant_pci (s : State) (t : Nat) (g : Tenant → Tenant) : (setTenant s t g).pci = s.pci := rfl
@[simp] theorem setTenant_sec (s : State) (t : Nat) (g : Tenant → Tenant) : (setTenant s t g).sec = s.sec := rfl
@[simp] theorem setTenant_pwr (s : State) (t : Nat) (g : Tenant → Tenant) : (setTenant s t g).pwr = s.pwr := rfl
@[simp] theorem setTenant_boot (s : State) (t : Nat) (g : Tenant → Tenant) : (setTenant s t g).boot = s.boot := rfl
@[simp] theorem setTenant_fuses (s : State) (t : Nat) (g : Tenant → Tenant) : (setTenant s t g).fuses = s.fuses := rfl
@[simp] theorem setTenant_pins (s : State) (t : Nat) (g : Tenant → Tenant) : (setTenant s t g).pins = s.pins := rfl
@[simp] theorem setTenant_timer (s : State) (t : Nat) (g : Tenant → Tenant) : (setTenant s t g).timer = s.timer := rfl
@[simp] theorem setTenant_free (s : State) (t : Nat) (g : Tenant → Tenant) : (setTenant s t g).free = s.free := rfl
@[simp] theorem setTenant_pending (s : State) (t : Nat) (g : Tenant → Tenant) : (setTenant s t g).pending = s.pending := rfl
@[simp] theorem setTenant_core (s : State) (t : Nat) (g : Tenant → Tenant) (x : Nat) : (setTenant s t g).core x = s.core x := rfl
@[simp] theorem setTenant_run (s : State) (t : Nat) (g : Tenant → Tenant) (x : Nat) : (setTenant s t g).run x = s.run x := rfl
@[simp] theorem setTenant_func (s : State) (t : Nat) (g : Tenant → Tenant) (x : Nat) : (setTenant s t g).func x = s.func x := rfl
@[simp] theorem setTenant_queue (s : State) (t : Nat) (g : Tenant → Tenant) (x y : Nat) : (setTenant s t g).queue x y = s.queue x y := rfl
@[simp] theorem setTenant_dom (s : State) (t : Nat) (g : Tenant → Tenant) (x : Nat) : (setTenant s t g).dom x = s.dom x := rfl
@[simp] theorem setTenant_tsec (s : State) (t : Nat) (g : Tenant → Tenant) (x : Nat) : (setTenant s t g).tsec x = s.tsec x := rfl
@[simp] theorem setTenant_ctx (s : State) (t : Nat) (g : Tenant → Tenant) (x : Nat) : (setTenant s t g).ctx x = s.ctx x := rfl
@[simp] theorem setTenant_region (s : State) (t : Nat) (g : Tenant → Tenant) (x : Nat) : (setTenant s t g).region x = s.region x := rfl

/-! ### `setTsec` writes `sec` -/

@[simp] theorem setTsec_cores (s : State) (t : Nat) (g : TenantSec → TenantSec) : (setTsec s t g).cores = s.cores := rfl
@[simp] theorem setTsec_fences (s : State) (t : Nat) (g : TenantSec → TenantSec) : (setTsec s t g).fences = s.fences := rfl
@[simp] theorem setTsec_bridges (s : State) (t : Nat) (g : TenantSec → TenantSec) : (setTsec s t g).bridges = s.bridges := rfl
@[simp] theorem setTsec_audit (s : State) (t : Nat) (g : TenantSec → TenantSec) : (setTsec s t g).audit = s.audit := rfl
@[simp] theorem setTsec_gdl (s : State) (t : Nat) (g : TenantSec → TenantSec) : (setTsec s t g).gdl = s.gdl := rfl
@[simp] theorem setTsec_ddr (s : State) (t : Nat) (g : TenantSec → TenantSec) : (setTsec s t g).ddr = s.ddr := rfl
@[simp] theorem setTsec_flt (s : State) (t : Nat) (g : TenantSec → TenantSec) : (setTsec s t g).flt = s.flt := rfl
@[simp] theorem setTsec_efl (s : State) (t : Nat) (g : TenantSec → TenantSec) : (setTsec s t g).efl = s.efl := rfl
@[simp] theorem setTsec_lfl (s : State) (t : Nat) (g : TenantSec → TenantSec) : (setTsec s t g).lfl = s.lfl := rfl
@[simp] theorem setTsec_sfe (s : State) (t : Nat) (g : TenantSec → TenantSec) : (setTsec s t g).sfe = s.sfe := rfl
@[simp] theorem setTsec_trg (s : State) (t : Nat) (g : TenantSec → TenantSec) : (setTsec s t g).trg = s.trg := rfl
@[simp] theorem setTsec_pci (s : State) (t : Nat) (g : TenantSec → TenantSec) : (setTsec s t g).pci = s.pci := rfl
@[simp] theorem setTsec_pwr (s : State) (t : Nat) (g : TenantSec → TenantSec) : (setTsec s t g).pwr = s.pwr := rfl
@[simp] theorem setTsec_boot (s : State) (t : Nat) (g : TenantSec → TenantSec) : (setTsec s t g).boot = s.boot := rfl
@[simp] theorem setTsec_fuses (s : State) (t : Nat) (g : TenantSec → TenantSec) : (setTsec s t g).fuses = s.fuses := rfl
@[simp] theorem setTsec_pins (s : State) (t : Nat) (g : TenantSec → TenantSec) : (setTsec s t g).pins = s.pins := rfl
@[simp] theorem setTsec_timer (s : State) (t : Nat) (g : TenantSec → TenantSec) : (setTsec s t g).timer = s.timer := rfl
@[simp] theorem setTsec_free (s : State) (t : Nat) (g : TenantSec → TenantSec) : (setTsec s t g).free = s.free := rfl
@[simp] theorem setTsec_pending (s : State) (t : Nat) (g : TenantSec → TenantSec) : (setTsec s t g).pending = s.pending := rfl
@[simp] theorem setTsec_core (s : State) (t : Nat) (g : TenantSec → TenantSec) (x : Nat) : (setTsec s t g).core x = s.core x := rfl
@[simp] theorem setTsec_run (s : State) (t : Nat) (g : TenantSec → TenantSec) (x : Nat) : (setTsec s t g).run x = s.run x := rfl
@[simp] theorem setTsec_func (s : State) (t : Nat) (g : TenantSec → TenantSec) (x : Nat) : (setTsec s t g).func x = s.func x := rfl
@[simp] theorem setTsec_queue (s : State) (t : Nat) (g : TenantSec → TenantSec) (x y : Nat) : (setTsec s t g).queue x y = s.queue x y := rfl
@[simp] theorem setTsec_dom (s : State) (t : Nat) (g : TenantSec → TenantSec) (x : Nat) : (setTsec s t g).dom x = s.dom x := rfl
@[simp] theorem setTsec_tenant (s : State) (t : Nat) (g : TenantSec → TenantSec) (x : Nat) : (setTsec s t g).tenant x = s.tenant x := rfl
@[simp] theorem setTsec_job (s : State) (t : Nat) (g : TenantSec → TenantSec) (x : Nat) : (setTsec s t g).job x = s.job x := rfl
@[simp] theorem setTsec_ctx (s : State) (t : Nat) (g : TenantSec → TenantSec) (x : Nat) : (setTsec s t g).ctx x = s.ctx x := rfl
@[simp] theorem setTsec_region (s : State) (t : Nat) (g : TenantSec → TenantSec) (x : Nat) : (setTsec s t g).region x = s.region x := rfl

/-! ### `setCtx` writes `sfe` -/

@[simp] theorem setCtx_cores (s : State) (c : Nat) (g : Context → Context) : (setCtx s c g).cores = s.cores := rfl
@[simp] theorem setCtx_fences (s : State) (c : Nat) (g : Context → Context) : (setCtx s c g).fences = s.fences := rfl
@[simp] theorem setCtx_bridges (s : State) (c : Nat) (g : Context → Context) : (setCtx s c g).bridges = s.bridges := rfl
@[simp] theorem setCtx_audit (s : State) (c : Nat) (g : Context → Context) : (setCtx s c g).audit = s.audit := rfl
@[simp] theorem setCtx_gdl (s : State) (c : Nat) (g : Context → Context) : (setCtx s c g).gdl = s.gdl := rfl
@[simp] theorem setCtx_ddr (s : State) (c : Nat) (g : Context → Context) : (setCtx s c g).ddr = s.ddr := rfl
@[simp] theorem setCtx_flt (s : State) (c : Nat) (g : Context → Context) : (setCtx s c g).flt = s.flt := rfl
@[simp] theorem setCtx_efl (s : State) (c : Nat) (g : Context → Context) : (setCtx s c g).efl = s.efl := rfl
@[simp] theorem setCtx_lfl (s : State) (c : Nat) (g : Context → Context) : (setCtx s c g).lfl = s.lfl := rfl
@[simp] theorem setCtx_trg (s : State) (c : Nat) (g : Context → Context) : (setCtx s c g).trg = s.trg := rfl
@[simp] theorem setCtx_pci (s : State) (c : Nat) (g : Context → Context) : (setCtx s c g).pci = s.pci := rfl
@[simp] theorem setCtx_sec (s : State) (c : Nat) (g : Context → Context) : (setCtx s c g).sec = s.sec := rfl
@[simp] theorem setCtx_pwr (s : State) (c : Nat) (g : Context → Context) : (setCtx s c g).pwr = s.pwr := rfl
@[simp] theorem setCtx_boot (s : State) (c : Nat) (g : Context → Context) : (setCtx s c g).boot = s.boot := rfl
@[simp] theorem setCtx_fuses (s : State) (c : Nat) (g : Context → Context) : (setCtx s c g).fuses = s.fuses := rfl
@[simp] theorem setCtx_pins (s : State) (c : Nat) (g : Context → Context) : (setCtx s c g).pins = s.pins := rfl
@[simp] theorem setCtx_timer (s : State) (c : Nat) (g : Context → Context) : (setCtx s c g).timer = s.timer := rfl
@[simp] theorem setCtx_free (s : State) (c : Nat) (g : Context → Context) : (setCtx s c g).free = s.free := rfl
@[simp] theorem setCtx_pending (s : State) (c : Nat) (g : Context → Context) : (setCtx s c g).pending = s.pending := rfl
@[simp] theorem setCtx_core (s : State) (c : Nat) (g : Context → Context) (x : Nat) : (setCtx s c g).core x = s.core x := rfl
@[simp] theorem setCtx_run (s : State) (c : Nat) (g : Context → Context) (x : Nat) : (setCtx s c g).run x = s.run x := rfl
@[simp] theorem setCtx_func (s : State) (c : Nat) (g : Context → Context) (x : Nat) : (setCtx s c g).func x = s.func x := rfl
@[simp] theorem setCtx_queue (s : State) (c : Nat) (g : Context → Context) (x y : Nat) : (setCtx s c g).queue x y = s.queue x y := rfl
@[simp] theorem setCtx_dom (s : State) (c : Nat) (g : Context → Context) (x : Nat) : (setCtx s c g).dom x = s.dom x := rfl
@[simp] theorem setCtx_tenant (s : State) (c : Nat) (g : Context → Context) (x : Nat) : (setCtx s c g).tenant x = s.tenant x := rfl
@[simp] theorem setCtx_job (s : State) (c : Nat) (g : Context → Context) (x : Nat) : (setCtx s c g).job x = s.job x := rfl
@[simp] theorem setCtx_tsec (s : State) (c : Nat) (g : Context → Context) (x : Nat) : (setCtx s c g).tsec x = s.tsec x := rfl
@[simp] theorem setCtx_region (s : State) (c : Nat) (g : Context → Context) (x : Nat) : (setCtx s c g).region x = s.region x := rfl

/-! ### `setQueue` writes `pci` -/

@[simp] theorem setQueue_cores (s : State) (f q : Nat) (g : HostQueue → HostQueue) : (setQueue s f q g).cores = s.cores := rfl
@[simp] theorem setQueue_fences (s : State) (f q : Nat) (g : HostQueue → HostQueue) : (setQueue s f q g).fences = s.fences := rfl
@[simp] theorem setQueue_bridges (s : State) (f q : Nat) (g : HostQueue → HostQueue) : (setQueue s f q g).bridges = s.bridges := rfl
@[simp] theorem setQueue_audit (s : State) (f q : Nat) (g : HostQueue → HostQueue) : (setQueue s f q g).audit = s.audit := rfl
@[simp] theorem setQueue_gdl (s : State) (f q : Nat) (g : HostQueue → HostQueue) : (setQueue s f q g).gdl = s.gdl := rfl
@[simp] theorem setQueue_ddr (s : State) (f q : Nat) (g : HostQueue → HostQueue) : (setQueue s f q g).ddr = s.ddr := rfl
@[simp] theorem setQueue_flt (s : State) (f q : Nat) (g : HostQueue → HostQueue) : (setQueue s f q g).flt = s.flt := rfl
@[simp] theorem setQueue_efl (s : State) (f q : Nat) (g : HostQueue → HostQueue) : (setQueue s f q g).efl = s.efl := rfl
@[simp] theorem setQueue_lfl (s : State) (f q : Nat) (g : HostQueue → HostQueue) : (setQueue s f q g).lfl = s.lfl := rfl
@[simp] theorem setQueue_sfe (s : State) (f q : Nat) (g : HostQueue → HostQueue) : (setQueue s f q g).sfe = s.sfe := rfl
@[simp] theorem setQueue_trg (s : State) (f q : Nat) (g : HostQueue → HostQueue) : (setQueue s f q g).trg = s.trg := rfl
@[simp] theorem setQueue_sec (s : State) (f q : Nat) (g : HostQueue → HostQueue) : (setQueue s f q g).sec = s.sec := rfl
@[simp] theorem setQueue_pwr (s : State) (f q : Nat) (g : HostQueue → HostQueue) : (setQueue s f q g).pwr = s.pwr := rfl
@[simp] theorem setQueue_boot (s : State) (f q : Nat) (g : HostQueue → HostQueue) : (setQueue s f q g).boot = s.boot := rfl
@[simp] theorem setQueue_fuses (s : State) (f q : Nat) (g : HostQueue → HostQueue) : (setQueue s f q g).fuses = s.fuses := rfl
@[simp] theorem setQueue_pins (s : State) (f q : Nat) (g : HostQueue → HostQueue) : (setQueue s f q g).pins = s.pins := rfl
@[simp] theorem setQueue_timer (s : State) (f q : Nat) (g : HostQueue → HostQueue) : (setQueue s f q g).timer = s.timer := rfl
@[simp] theorem setQueue_free (s : State) (f q : Nat) (g : HostQueue → HostQueue) : (setQueue s f q g).free = s.free := rfl
@[simp] theorem setQueue_pending (s : State) (f q : Nat) (g : HostQueue → HostQueue) : (setQueue s f q g).pending = s.pending := rfl
@[simp] theorem setQueue_core (s : State) (f q : Nat) (g : HostQueue → HostQueue) (x : Nat) : (setQueue s f q g).core x = s.core x := rfl
@[simp] theorem setQueue_run (s : State) (f q : Nat) (g : HostQueue → HostQueue) (x : Nat) : (setQueue s f q g).run x = s.run x := rfl
@[simp] theorem setQueue_dom (s : State) (f q : Nat) (g : HostQueue → HostQueue) (x : Nat) : (setQueue s f q g).dom x = s.dom x := rfl
@[simp] theorem setQueue_tenant (s : State) (f q : Nat) (g : HostQueue → HostQueue) (x : Nat) : (setQueue s f q g).tenant x = s.tenant x := rfl
@[simp] theorem setQueue_job (s : State) (f q : Nat) (g : HostQueue → HostQueue) (x : Nat) : (setQueue s f q g).job x = s.job x := rfl
@[simp] theorem setQueue_tsec (s : State) (f q : Nat) (g : HostQueue → HostQueue) (x : Nat) : (setQueue s f q g).tsec x = s.tsec x := rfl
@[simp] theorem setQueue_ctx (s : State) (f q : Nat) (g : HostQueue → HostQueue) (x : Nat) : (setQueue s f q g).ctx x = s.ctx x := rfl
@[simp] theorem setQueue_region (s : State) (f q : Nat) (g : HostQueue → HostQueue) (x : Nat) : (setQueue s f q g).region x = s.region x := rfl

/-! ### `popTaken` writes `pci` -/

@[simp] theorem popTaken_cores (op : Nat) (sub : Sub) (s : State) : (popTaken op sub s).cores = s.cores := rfl
@[simp] theorem popTaken_fences (op : Nat) (sub : Sub) (s : State) : (popTaken op sub s).fences = s.fences := rfl
@[simp] theorem popTaken_bridges (op : Nat) (sub : Sub) (s : State) : (popTaken op sub s).bridges = s.bridges := rfl
@[simp] theorem popTaken_audit (op : Nat) (sub : Sub) (s : State) : (popTaken op sub s).audit = s.audit := rfl
@[simp] theorem popTaken_gdl (op : Nat) (sub : Sub) (s : State) : (popTaken op sub s).gdl = s.gdl := rfl
@[simp] theorem popTaken_ddr (op : Nat) (sub : Sub) (s : State) : (popTaken op sub s).ddr = s.ddr := rfl
@[simp] theorem popTaken_flt (op : Nat) (sub : Sub) (s : State) : (popTaken op sub s).flt = s.flt := rfl
@[simp] theorem popTaken_efl (op : Nat) (sub : Sub) (s : State) : (popTaken op sub s).efl = s.efl := rfl
@[simp] theorem popTaken_lfl (op : Nat) (sub : Sub) (s : State) : (popTaken op sub s).lfl = s.lfl := rfl
@[simp] theorem popTaken_sfe (op : Nat) (sub : Sub) (s : State) : (popTaken op sub s).sfe = s.sfe := rfl
@[simp] theorem popTaken_trg (op : Nat) (sub : Sub) (s : State) : (popTaken op sub s).trg = s.trg := rfl
@[simp] theorem popTaken_sec (op : Nat) (sub : Sub) (s : State) : (popTaken op sub s).sec = s.sec := rfl
@[simp] theorem popTaken_pwr (op : Nat) (sub : Sub) (s : State) : (popTaken op sub s).pwr = s.pwr := rfl
@[simp] theorem popTaken_boot (op : Nat) (sub : Sub) (s : State) : (popTaken op sub s).boot = s.boot := rfl
@[simp] theorem popTaken_fuses (op : Nat) (sub : Sub) (s : State) : (popTaken op sub s).fuses = s.fuses := rfl
@[simp] theorem popTaken_pins (op : Nat) (sub : Sub) (s : State) : (popTaken op sub s).pins = s.pins := rfl
@[simp] theorem popTaken_timer (op : Nat) (sub : Sub) (s : State) : (popTaken op sub s).timer = s.timer := rfl
@[simp] theorem popTaken_free (op : Nat) (sub : Sub) (s : State) : (popTaken op sub s).free = s.free := rfl
@[simp] theorem popTaken_pending (op : Nat) (sub : Sub) (s : State) : (popTaken op sub s).pending = s.pending := rfl
@[simp] theorem popTaken_core (op : Nat) (sub : Sub) (s : State) (x : Nat) : (popTaken op sub s).core x = s.core x := rfl
@[simp] theorem popTaken_run (op : Nat) (sub : Sub) (s : State) (x : Nat) : (popTaken op sub s).run x = s.run x := rfl
@[simp] theorem popTaken_dom (op : Nat) (sub : Sub) (s : State) (x : Nat) : (popTaken op sub s).dom x = s.dom x := rfl
@[simp] theorem popTaken_tenant (op : Nat) (sub : Sub) (s : State) (x : Nat) : (popTaken op sub s).tenant x = s.tenant x := rfl
@[simp] theorem popTaken_job (op : Nat) (sub : Sub) (s : State) (x : Nat) : (popTaken op sub s).job x = s.job x := rfl
@[simp] theorem popTaken_tsec (op : Nat) (sub : Sub) (s : State) (x : Nat) : (popTaken op sub s).tsec x = s.tsec x := rfl
@[simp] theorem popTaken_ctx (op : Nat) (sub : Sub) (s : State) (x : Nat) : (popTaken op sub s).ctx x = s.ctx x := rfl
@[simp] theorem popTaken_region (op : Nat) (sub : Sub) (s : State) (x : Nat) : (popTaken op sub s).region x = s.region x := rfl

/-! ### `postEvent` writes `pci` -/

@[simp] theorem postEvent_cores (f : Nat) (ev : Bytes) (s : State) : (postEvent f ev s).cores = s.cores := rfl
@[simp] theorem postEvent_fences (f : Nat) (ev : Bytes) (s : State) : (postEvent f ev s).fences = s.fences := rfl
@[simp] theorem postEvent_bridges (f : Nat) (ev : Bytes) (s : State) : (postEvent f ev s).bridges = s.bridges := rfl
@[simp] theorem postEvent_audit (f : Nat) (ev : Bytes) (s : State) : (postEvent f ev s).audit = s.audit := rfl
@[simp] theorem postEvent_gdl (f : Nat) (ev : Bytes) (s : State) : (postEvent f ev s).gdl = s.gdl := rfl
@[simp] theorem postEvent_ddr (f : Nat) (ev : Bytes) (s : State) : (postEvent f ev s).ddr = s.ddr := rfl
@[simp] theorem postEvent_flt (f : Nat) (ev : Bytes) (s : State) : (postEvent f ev s).flt = s.flt := rfl
@[simp] theorem postEvent_efl (f : Nat) (ev : Bytes) (s : State) : (postEvent f ev s).efl = s.efl := rfl
@[simp] theorem postEvent_lfl (f : Nat) (ev : Bytes) (s : State) : (postEvent f ev s).lfl = s.lfl := rfl
@[simp] theorem postEvent_sfe (f : Nat) (ev : Bytes) (s : State) : (postEvent f ev s).sfe = s.sfe := rfl
@[simp] theorem postEvent_trg (f : Nat) (ev : Bytes) (s : State) : (postEvent f ev s).trg = s.trg := rfl
@[simp] theorem postEvent_sec (f : Nat) (ev : Bytes) (s : State) : (postEvent f ev s).sec = s.sec := rfl
@[simp] theorem postEvent_pwr (f : Nat) (ev : Bytes) (s : State) : (postEvent f ev s).pwr = s.pwr := rfl
@[simp] theorem postEvent_boot (f : Nat) (ev : Bytes) (s : State) : (postEvent f ev s).boot = s.boot := rfl
@[simp] theorem postEvent_fuses (f : Nat) (ev : Bytes) (s : State) : (postEvent f ev s).fuses = s.fuses := rfl
@[simp] theorem postEvent_pins (f : Nat) (ev : Bytes) (s : State) : (postEvent f ev s).pins = s.pins := rfl
@[simp] theorem postEvent_timer (f : Nat) (ev : Bytes) (s : State) : (postEvent f ev s).timer = s.timer := rfl
@[simp] theorem postEvent_free (f : Nat) (ev : Bytes) (s : State) : (postEvent f ev s).free = s.free := rfl
@[simp] theorem postEvent_pending (f : Nat) (ev : Bytes) (s : State) : (postEvent f ev s).pending = s.pending := rfl
@[simp] theorem postEvent_core (f : Nat) (ev : Bytes) (s : State) (x : Nat) : (postEvent f ev s).core x = s.core x := rfl
@[simp] theorem postEvent_run (f : Nat) (ev : Bytes) (s : State) (x : Nat) : (postEvent f ev s).run x = s.run x := rfl
@[simp] theorem postEvent_dom (f : Nat) (ev : Bytes) (s : State) (x : Nat) : (postEvent f ev s).dom x = s.dom x := rfl
@[simp] theorem postEvent_tenant (f : Nat) (ev : Bytes) (s : State) (x : Nat) : (postEvent f ev s).tenant x = s.tenant x := rfl
@[simp] theorem postEvent_job (f : Nat) (ev : Bytes) (s : State) (x : Nat) : (postEvent f ev s).job x = s.job x := rfl
@[simp] theorem postEvent_tsec (f : Nat) (ev : Bytes) (s : State) (x : Nat) : (postEvent f ev s).tsec x = s.tsec x := rfl
@[simp] theorem postEvent_ctx (f : Nat) (ev : Bytes) (s : State) (x : Nat) : (postEvent f ev s).ctx x = s.ctx x := rfl
@[simp] theorem postEvent_region (f : Nat) (ev : Bytes) (s : State) (x : Nat) : (postEvent f ev s).region x = s.region x := rfl

/-! ### `addLong` writes `lfl` -/

@[simp] theorem addLong_cores (l : LongOp) (s : State) : (addLong l s).cores = s.cores := rfl
@[simp] theorem addLong_fences (l : LongOp) (s : State) : (addLong l s).fences = s.fences := rfl
@[simp] theorem addLong_bridges (l : LongOp) (s : State) : (addLong l s).bridges = s.bridges := rfl
@[simp] theorem addLong_audit (l : LongOp) (s : State) : (addLong l s).audit = s.audit := rfl
@[simp] theorem addLong_gdl (l : LongOp) (s : State) : (addLong l s).gdl = s.gdl := rfl
@[simp] theorem addLong_ddr (l : LongOp) (s : State) : (addLong l s).ddr = s.ddr := rfl
@[simp] theorem addLong_flt (l : LongOp) (s : State) : (addLong l s).flt = s.flt := rfl
@[simp] theorem addLong_efl (l : LongOp) (s : State) : (addLong l s).efl = s.efl := rfl
@[simp] theorem addLong_sfe (l : LongOp) (s : State) : (addLong l s).sfe = s.sfe := rfl
@[simp] theorem addLong_trg (l : LongOp) (s : State) : (addLong l s).trg = s.trg := rfl
@[simp] theorem addLong_pci (l : LongOp) (s : State) : (addLong l s).pci = s.pci := rfl
@[simp] theorem addLong_sec (l : LongOp) (s : State) : (addLong l s).sec = s.sec := rfl
@[simp] theorem addLong_pwr (l : LongOp) (s : State) : (addLong l s).pwr = s.pwr := rfl
@[simp] theorem addLong_boot (l : LongOp) (s : State) : (addLong l s).boot = s.boot := rfl
@[simp] theorem addLong_fuses (l : LongOp) (s : State) : (addLong l s).fuses = s.fuses := rfl
@[simp] theorem addLong_pins (l : LongOp) (s : State) : (addLong l s).pins = s.pins := rfl
@[simp] theorem addLong_timer (l : LongOp) (s : State) : (addLong l s).timer = s.timer := rfl
@[simp] theorem addLong_free (l : LongOp) (s : State) : (addLong l s).free = s.free := rfl
@[simp] theorem addLong_pending (l : LongOp) (s : State) : (addLong l s).pending = s.pending := rfl
@[simp] theorem addLong_core (l : LongOp) (s : State) (x : Nat) : (addLong l s).core x = s.core x := rfl
@[simp] theorem addLong_run (l : LongOp) (s : State) (x : Nat) : (addLong l s).run x = s.run x := rfl
@[simp] theorem addLong_func (l : LongOp) (s : State) (x : Nat) : (addLong l s).func x = s.func x := rfl
@[simp] theorem addLong_queue (l : LongOp) (s : State) (x y : Nat) : (addLong l s).queue x y = s.queue x y := rfl
@[simp] theorem addLong_dom (l : LongOp) (s : State) (x : Nat) : (addLong l s).dom x = s.dom x := rfl
@[simp] theorem addLong_tsec (l : LongOp) (s : State) (x : Nat) : (addLong l s).tsec x = s.tsec x := rfl
@[simp] theorem addLong_ctx (l : LongOp) (s : State) (x : Nat) : (addLong l s).ctx x = s.ctx x := rfl
@[simp] theorem addLong_region (l : LongOp) (s : State) (x : Nat) : (addLong l s).region x = s.region x := rfl

/-! ### `waitLong` writes `lfl` -/

@[simp] theorem waitLong_cores (k : LongKind) (sub : Sub) (op : Nat) (s : State) : (waitLong k sub op s).cores = s.cores := rfl
@[simp] theorem waitLong_fences (k : LongKind) (sub : Sub) (op : Nat) (s : State) : (waitLong k sub op s).fences = s.fences := rfl
@[simp] theorem waitLong_bridges (k : LongKind) (sub : Sub) (op : Nat) (s : State) : (waitLong k sub op s).bridges = s.bridges := rfl
@[simp] theorem waitLong_audit (k : LongKind) (sub : Sub) (op : Nat) (s : State) : (waitLong k sub op s).audit = s.audit := rfl
@[simp] theorem waitLong_gdl (k : LongKind) (sub : Sub) (op : Nat) (s : State) : (waitLong k sub op s).gdl = s.gdl := rfl
@[simp] theorem waitLong_ddr (k : LongKind) (sub : Sub) (op : Nat) (s : State) : (waitLong k sub op s).ddr = s.ddr := rfl
@[simp] theorem waitLong_flt (k : LongKind) (sub : Sub) (op : Nat) (s : State) : (waitLong k sub op s).flt = s.flt := rfl
@[simp] theorem waitLong_efl (k : LongKind) (sub : Sub) (op : Nat) (s : State) : (waitLong k sub op s).efl = s.efl := rfl
@[simp] theorem waitLong_sfe (k : LongKind) (sub : Sub) (op : Nat) (s : State) : (waitLong k sub op s).sfe = s.sfe := rfl
@[simp] theorem waitLong_trg (k : LongKind) (sub : Sub) (op : Nat) (s : State) : (waitLong k sub op s).trg = s.trg := rfl
@[simp] theorem waitLong_pci (k : LongKind) (sub : Sub) (op : Nat) (s : State) : (waitLong k sub op s).pci = s.pci := rfl
@[simp] theorem waitLong_sec (k : LongKind) (sub : Sub) (op : Nat) (s : State) : (waitLong k sub op s).sec = s.sec := rfl
@[simp] theorem waitLong_pwr (k : LongKind) (sub : Sub) (op : Nat) (s : State) : (waitLong k sub op s).pwr = s.pwr := rfl
@[simp] theorem waitLong_boot (k : LongKind) (sub : Sub) (op : Nat) (s : State) : (waitLong k sub op s).boot = s.boot := rfl
@[simp] theorem waitLong_fuses (k : LongKind) (sub : Sub) (op : Nat) (s : State) : (waitLong k sub op s).fuses = s.fuses := rfl
@[simp] theorem waitLong_pins (k : LongKind) (sub : Sub) (op : Nat) (s : State) : (waitLong k sub op s).pins = s.pins := rfl
@[simp] theorem waitLong_timer (k : LongKind) (sub : Sub) (op : Nat) (s : State) : (waitLong k sub op s).timer = s.timer := rfl
@[simp] theorem waitLong_free (k : LongKind) (sub : Sub) (op : Nat) (s : State) : (waitLong k sub op s).free = s.free := rfl
@[simp] theorem waitLong_pending (k : LongKind) (sub : Sub) (op : Nat) (s : State) : (waitLong k sub op s).pending = s.pending := rfl
@[simp] theorem waitLong_core (k : LongKind) (sub : Sub) (op : Nat) (s : State) (x : Nat) : (waitLong k sub op s).core x = s.core x := rfl
@[simp] theorem waitLong_run (k : LongKind) (sub : Sub) (op : Nat) (s : State) (x : Nat) : (waitLong k sub op s).run x = s.run x := rfl
@[simp] theorem waitLong_func (k : LongKind) (sub : Sub) (op : Nat) (s : State) (x : Nat) : (waitLong k sub op s).func x = s.func x := rfl
@[simp] theorem waitLong_queue (k : LongKind) (sub : Sub) (op : Nat) (s : State) (x y : Nat) : (waitLong k sub op s).queue x y = s.queue x y := rfl
@[simp] theorem waitLong_dom (k : LongKind) (sub : Sub) (op : Nat) (s : State) (x : Nat) : (waitLong k sub op s).dom x = s.dom x := rfl
@[simp] theorem waitLong_tsec (k : LongKind) (sub : Sub) (op : Nat) (s : State) (x : Nat) : (waitLong k sub op s).tsec x = s.tsec x := rfl
@[simp] theorem waitLong_ctx (k : LongKind) (sub : Sub) (op : Nat) (s : State) (x : Nat) : (waitLong k sub op s).ctx x = s.ctx x := rfl
@[simp] theorem waitLong_region (k : LongKind) (sub : Sub) (op : Nat) (s : State) (x : Nat) : (waitLong k sub op s).region x = s.region x := rfl

/-! ### `removeLong` writes `lfl` -/

@[simp] theorem removeLong_cores (k : LongKind) (s : State) : (removeLong k s).cores = s.cores := rfl
@[simp] theorem removeLong_fences (k : LongKind) (s : State) : (removeLong k s).fences = s.fences := rfl
@[simp] theorem removeLong_bridges (k : LongKind) (s : State) : (removeLong k s).bridges = s.bridges := rfl
@[simp] theorem removeLong_audit (k : LongKind) (s : State) : (removeLong k s).audit = s.audit := rfl
@[simp] theorem removeLong_gdl (k : LongKind) (s : State) : (removeLong k s).gdl = s.gdl := rfl
@[simp] theorem removeLong_ddr (k : LongKind) (s : State) : (removeLong k s).ddr = s.ddr := rfl
@[simp] theorem removeLong_flt (k : LongKind) (s : State) : (removeLong k s).flt = s.flt := rfl
@[simp] theorem removeLong_efl (k : LongKind) (s : State) : (removeLong k s).efl = s.efl := rfl
@[simp] theorem removeLong_sfe (k : LongKind) (s : State) : (removeLong k s).sfe = s.sfe := rfl
@[simp] theorem removeLong_trg (k : LongKind) (s : State) : (removeLong k s).trg = s.trg := rfl
@[simp] theorem removeLong_pci (k : LongKind) (s : State) : (removeLong k s).pci = s.pci := rfl
@[simp] theorem removeLong_sec (k : LongKind) (s : State) : (removeLong k s).sec = s.sec := rfl
@[simp] theorem removeLong_pwr (k : LongKind) (s : State) : (removeLong k s).pwr = s.pwr := rfl
@[simp] theorem removeLong_boot (k : LongKind) (s : State) : (removeLong k s).boot = s.boot := rfl
@[simp] theorem removeLong_fuses (k : LongKind) (s : State) : (removeLong k s).fuses = s.fuses := rfl
@[simp] theorem removeLong_pins (k : LongKind) (s : State) : (removeLong k s).pins = s.pins := rfl
@[simp] theorem removeLong_timer (k : LongKind) (s : State) : (removeLong k s).timer = s.timer := rfl
@[simp] theorem removeLong_free (k : LongKind) (s : State) : (removeLong k s).free = s.free := rfl
@[simp] theorem removeLong_pending (k : LongKind) (s : State) : (removeLong k s).pending = s.pending := rfl
@[simp] theorem removeLong_core (k : LongKind) (s : State) (x : Nat) : (removeLong k s).core x = s.core x := rfl
@[simp] theorem removeLong_run (k : LongKind) (s : State) (x : Nat) : (removeLong k s).run x = s.run x := rfl
@[simp] theorem removeLong_func (k : LongKind) (s : State) (x : Nat) : (removeLong k s).func x = s.func x := rfl
@[simp] theorem removeLong_queue (k : LongKind) (s : State) (x y : Nat) : (removeLong k s).queue x y = s.queue x y := rfl
@[simp] theorem removeLong_dom (k : LongKind) (s : State) (x : Nat) : (removeLong k s).dom x = s.dom x := rfl
@[simp] theorem removeLong_tsec (k : LongKind) (s : State) (x : Nat) : (removeLong k s).tsec x = s.tsec x := rfl
@[simp] theorem removeLong_ctx (k : LongKind) (s : State) (x : Nat) : (removeLong k s).ctx x = s.ctx x := rfl
@[simp] theorem removeLong_region (k : LongKind) (s : State) (x : Nat) : (removeLong k s).region x = s.region x := rfl

/-! ### `markLong` writes `lfl` -/

@[simp] theorem markLong_cores (k : LongKind) (susp : Bool) (s : State) : (markLong k susp s).cores = s.cores := rfl
@[simp] theorem markLong_fences (k : LongKind) (susp : Bool) (s : State) : (markLong k susp s).fences = s.fences := rfl
@[simp] theorem markLong_bridges (k : LongKind) (susp : Bool) (s : State) : (markLong k susp s).bridges = s.bridges := rfl
@[simp] theorem markLong_audit (k : LongKind) (susp : Bool) (s : State) : (markLong k susp s).audit = s.audit := rfl
@[simp] theorem markLong_gdl (k : LongKind) (susp : Bool) (s : State) : (markLong k susp s).gdl = s.gdl := rfl
@[simp] theorem markLong_ddr (k : LongKind) (susp : Bool) (s : State) : (markLong k susp s).ddr = s.ddr := rfl
@[simp] theorem markLong_flt (k : LongKind) (susp : Bool) (s : State) : (markLong k susp s).flt = s.flt := rfl
@[simp] theorem markLong_efl (k : LongKind) (susp : Bool) (s : State) : (markLong k susp s).efl = s.efl := rfl
@[simp] theorem markLong_sfe (k : LongKind) (susp : Bool) (s : State) : (markLong k susp s).sfe = s.sfe := rfl
@[simp] theorem markLong_trg (k : LongKind) (susp : Bool) (s : State) : (markLong k susp s).trg = s.trg := rfl
@[simp] theorem markLong_pci (k : LongKind) (susp : Bool) (s : State) : (markLong k susp s).pci = s.pci := rfl
@[simp] theorem markLong_sec (k : LongKind) (susp : Bool) (s : State) : (markLong k susp s).sec = s.sec := rfl
@[simp] theorem markLong_pwr (k : LongKind) (susp : Bool) (s : State) : (markLong k susp s).pwr = s.pwr := rfl
@[simp] theorem markLong_boot (k : LongKind) (susp : Bool) (s : State) : (markLong k susp s).boot = s.boot := rfl
@[simp] theorem markLong_fuses (k : LongKind) (susp : Bool) (s : State) : (markLong k susp s).fuses = s.fuses := rfl
@[simp] theorem markLong_pins (k : LongKind) (susp : Bool) (s : State) : (markLong k susp s).pins = s.pins := rfl
@[simp] theorem markLong_timer (k : LongKind) (susp : Bool) (s : State) : (markLong k susp s).timer = s.timer := rfl
@[simp] theorem markLong_free (k : LongKind) (susp : Bool) (s : State) : (markLong k susp s).free = s.free := rfl
@[simp] theorem markLong_pending (k : LongKind) (susp : Bool) (s : State) : (markLong k susp s).pending = s.pending := rfl
@[simp] theorem markLong_core (k : LongKind) (susp : Bool) (s : State) (x : Nat) : (markLong k susp s).core x = s.core x := rfl
@[simp] theorem markLong_run (k : LongKind) (susp : Bool) (s : State) (x : Nat) : (markLong k susp s).run x = s.run x := rfl
@[simp] theorem markLong_func (k : LongKind) (susp : Bool) (s : State) (x : Nat) : (markLong k susp s).func x = s.func x := rfl
@[simp] theorem markLong_queue (k : LongKind) (susp : Bool) (s : State) (x y : Nat) : (markLong k susp s).queue x y = s.queue x y := rfl
@[simp] theorem markLong_dom (k : LongKind) (susp : Bool) (s : State) (x : Nat) : (markLong k susp s).dom x = s.dom x := rfl
@[simp] theorem markLong_tsec (k : LongKind) (susp : Bool) (s : State) (x : Nat) : (markLong k susp s).tsec x = s.tsec x := rfl
@[simp] theorem markLong_ctx (k : LongKind) (susp : Bool) (s : State) (x : Nat) : (markLong k susp s).ctx x = s.ctx x := rfl
@[simp] theorem markLong_region (k : LongKind) (susp : Bool) (s : State) (x : Nat) : (markLong k susp s).region x = s.region x := rfl

/-! ### `setJob` writes `lfl` -/

@[simp] theorem setJob_cores (s : State) (n : Nat) (f : Job → Job) : (setJob s n f).cores = s.cores := rfl
@[simp] theorem setJob_fences (s : State) (n : Nat) (f : Job → Job) : (setJob s n f).fences = s.fences := rfl
@[simp] theorem setJob_bridges (s : State) (n : Nat) (f : Job → Job) : (setJob s n f).bridges = s.bridges := rfl
@[simp] theorem setJob_audit (s : State) (n : Nat) (f : Job → Job) : (setJob s n f).audit = s.audit := rfl
@[simp] theorem setJob_gdl (s : State) (n : Nat) (f : Job → Job) : (setJob s n f).gdl = s.gdl := rfl
@[simp] theorem setJob_ddr (s : State) (n : Nat) (f : Job → Job) : (setJob s n f).ddr = s.ddr := rfl
@[simp] theorem setJob_flt (s : State) (n : Nat) (f : Job → Job) : (setJob s n f).flt = s.flt := rfl
@[simp] theorem setJob_efl (s : State) (n : Nat) (f : Job → Job) : (setJob s n f).efl = s.efl := rfl
@[simp] theorem setJob_sfe (s : State) (n : Nat) (f : Job → Job) : (setJob s n f).sfe = s.sfe := rfl
@[simp] theorem setJob_trg (s : State) (n : Nat) (f : Job → Job) : (setJob s n f).trg = s.trg := rfl
@[simp] theorem setJob_pci (s : State) (n : Nat) (f : Job → Job) : (setJob s n f).pci = s.pci := rfl
@[simp] theorem setJob_sec (s : State) (n : Nat) (f : Job → Job) : (setJob s n f).sec = s.sec := rfl
@[simp] theorem setJob_pwr (s : State) (n : Nat) (f : Job → Job) : (setJob s n f).pwr = s.pwr := rfl
@[simp] theorem setJob_boot (s : State) (n : Nat) (f : Job → Job) : (setJob s n f).boot = s.boot := rfl
@[simp] theorem setJob_fuses (s : State) (n : Nat) (f : Job → Job) : (setJob s n f).fuses = s.fuses := rfl
@[simp] theorem setJob_pins (s : State) (n : Nat) (f : Job → Job) : (setJob s n f).pins = s.pins := rfl
@[simp] theorem setJob_timer (s : State) (n : Nat) (f : Job → Job) : (setJob s n f).timer = s.timer := rfl
@[simp] theorem setJob_free (s : State) (n : Nat) (f : Job → Job) : (setJob s n f).free = s.free := rfl
@[simp] theorem setJob_pending (s : State) (n : Nat) (f : Job → Job) : (setJob s n f).pending = s.pending := rfl
@[simp] theorem setJob_core (s : State) (n : Nat) (f : Job → Job) (x : Nat) : (setJob s n f).core x = s.core x := rfl
@[simp] theorem setJob_run (s : State) (n : Nat) (f : Job → Job) (x : Nat) : (setJob s n f).run x = s.run x := rfl
@[simp] theorem setJob_func (s : State) (n : Nat) (f : Job → Job) (x : Nat) : (setJob s n f).func x = s.func x := rfl
@[simp] theorem setJob_queue (s : State) (n : Nat) (f : Job → Job) (x y : Nat) : (setJob s n f).queue x y = s.queue x y := rfl
@[simp] theorem setJob_dom (s : State) (n : Nat) (f : Job → Job) (x : Nat) : (setJob s n f).dom x = s.dom x := rfl
@[simp] theorem setJob_tsec (s : State) (n : Nat) (f : Job → Job) (x : Nat) : (setJob s n f).tsec x = s.tsec x := rfl
@[simp] theorem setJob_ctx (s : State) (n : Nat) (f : Job → Job) (x : Nat) : (setJob s n f).ctx x = s.ctx x := rfl
@[simp] theorem setJob_region (s : State) (n : Nat) (f : Job → Job) (x : Nat) : (setJob s n f).region x = s.region x := rfl

/-! ### `addJob` writes `lfl` -/

@[simp] theorem addJob_cores (j : Job) (s : State) : (addJob j s).cores = s.cores := rfl
@[simp] theorem addJob_fences (j : Job) (s : State) : (addJob j s).fences = s.fences := rfl
@[simp] theorem addJob_bridges (j : Job) (s : State) : (addJob j s).bridges = s.bridges := rfl
@[simp] theorem addJob_audit (j : Job) (s : State) : (addJob j s).audit = s.audit := rfl
@[simp] theorem addJob_gdl (j : Job) (s : State) : (addJob j s).gdl = s.gdl := rfl
@[simp] theorem addJob_ddr (j : Job) (s : State) : (addJob j s).ddr = s.ddr := rfl
@[simp] theorem addJob_flt (j : Job) (s : State) : (addJob j s).flt = s.flt := rfl
@[simp] theorem addJob_efl (j : Job) (s : State) : (addJob j s).efl = s.efl := rfl
@[simp] theorem addJob_sfe (j : Job) (s : State) : (addJob j s).sfe = s.sfe := rfl
@[simp] theorem addJob_trg (j : Job) (s : State) : (addJob j s).trg = s.trg := rfl
@[simp] theorem addJob_pci (j : Job) (s : State) : (addJob j s).pci = s.pci := rfl
@[simp] theorem addJob_sec (j : Job) (s : State) : (addJob j s).sec = s.sec := rfl
@[simp] theorem addJob_pwr (j : Job) (s : State) : (addJob j s).pwr = s.pwr := rfl
@[simp] theorem addJob_boot (j : Job) (s : State) : (addJob j s).boot = s.boot := rfl
@[simp] theorem addJob_fuses (j : Job) (s : State) : (addJob j s).fuses = s.fuses := rfl
@[simp] theorem addJob_pins (j : Job) (s : State) : (addJob j s).pins = s.pins := rfl
@[simp] theorem addJob_timer (j : Job) (s : State) : (addJob j s).timer = s.timer := rfl
@[simp] theorem addJob_free (j : Job) (s : State) : (addJob j s).free = s.free := rfl
@[simp] theorem addJob_pending (j : Job) (s : State) : (addJob j s).pending = s.pending := rfl
@[simp] theorem addJob_core (j : Job) (s : State) (x : Nat) : (addJob j s).core x = s.core x := rfl
@[simp] theorem addJob_run (j : Job) (s : State) (x : Nat) : (addJob j s).run x = s.run x := rfl
@[simp] theorem addJob_func (j : Job) (s : State) (x : Nat) : (addJob j s).func x = s.func x := rfl
@[simp] theorem addJob_queue (j : Job) (s : State) (x y : Nat) : (addJob j s).queue x y = s.queue x y := rfl
@[simp] theorem addJob_dom (j : Job) (s : State) (x : Nat) : (addJob j s).dom x = s.dom x := rfl
@[simp] theorem addJob_tsec (j : Job) (s : State) (x : Nat) : (addJob j s).tsec x = s.tsec x := rfl
@[simp] theorem addJob_ctx (j : Job) (s : State) (x : Nat) : (addJob j s).ctx x = s.ctx x := rfl
@[simp] theorem addJob_region (j : Job) (s : State) (x : Nat) : (addJob j s).region x = s.region x := rfl

/-! ### `setRun` writes `cores` -/

@[simp] theorem setRun_fences (c : Nat) (f : Run → Run) (s : State) : (setRun c f s).fences = s.fences := rfl
@[simp] theorem setRun_bridges (c : Nat) (f : Run → Run) (s : State) : (setRun c f s).bridges = s.bridges := rfl
@[simp] theorem setRun_audit (c : Nat) (f : Run → Run) (s : State) : (setRun c f s).audit = s.audit := rfl
@[simp] theorem setRun_gdl (c : Nat) (f : Run → Run) (s : State) : (setRun c f s).gdl = s.gdl := rfl
@[simp] theorem setRun_ddr (c : Nat) (f : Run → Run) (s : State) : (setRun c f s).ddr = s.ddr := rfl
@[simp] theorem setRun_flt (c : Nat) (f : Run → Run) (s : State) : (setRun c f s).flt = s.flt := rfl
@[simp] theorem setRun_efl (c : Nat) (f : Run → Run) (s : State) : (setRun c f s).efl = s.efl := rfl
@[simp] theorem setRun_lfl (c : Nat) (f : Run → Run) (s : State) : (setRun c f s).lfl = s.lfl := rfl
@[simp] theorem setRun_sfe (c : Nat) (f : Run → Run) (s : State) : (setRun c f s).sfe = s.sfe := rfl
@[simp] theorem setRun_trg (c : Nat) (f : Run → Run) (s : State) : (setRun c f s).trg = s.trg := rfl
@[simp] theorem setRun_pci (c : Nat) (f : Run → Run) (s : State) : (setRun c f s).pci = s.pci := rfl
@[simp] theorem setRun_sec (c : Nat) (f : Run → Run) (s : State) : (setRun c f s).sec = s.sec := rfl
@[simp] theorem setRun_pwr (c : Nat) (f : Run → Run) (s : State) : (setRun c f s).pwr = s.pwr := rfl
@[simp] theorem setRun_boot (c : Nat) (f : Run → Run) (s : State) : (setRun c f s).boot = s.boot := rfl
@[simp] theorem setRun_fuses (c : Nat) (f : Run → Run) (s : State) : (setRun c f s).fuses = s.fuses := rfl
@[simp] theorem setRun_pins (c : Nat) (f : Run → Run) (s : State) : (setRun c f s).pins = s.pins := rfl
@[simp] theorem setRun_timer (c : Nat) (f : Run → Run) (s : State) : (setRun c f s).timer = s.timer := rfl
@[simp] theorem setRun_free (c : Nat) (f : Run → Run) (s : State) : (setRun c f s).free = s.free := rfl
@[simp] theorem setRun_pending (c : Nat) (f : Run → Run) (s : State) : (setRun c f s).pending = s.pending := rfl
@[simp] theorem setRun_func (c : Nat) (f : Run → Run) (s : State) (x : Nat) : (setRun c f s).func x = s.func x := rfl
@[simp] theorem setRun_queue (c : Nat) (f : Run → Run) (s : State) (x y : Nat) : (setRun c f s).queue x y = s.queue x y := rfl
@[simp] theorem setRun_dom (c : Nat) (f : Run → Run) (s : State) (x : Nat) : (setRun c f s).dom x = s.dom x := rfl
@[simp] theorem setRun_tenant (c : Nat) (f : Run → Run) (s : State) (x : Nat) : (setRun c f s).tenant x = s.tenant x := rfl
@[simp] theorem setRun_job (c : Nat) (f : Run → Run) (s : State) (x : Nat) : (setRun c f s).job x = s.job x := rfl
@[simp] theorem setRun_tsec (c : Nat) (f : Run → Run) (s : State) (x : Nat) : (setRun c f s).tsec x = s.tsec x := rfl
@[simp] theorem setRun_ctx (c : Nat) (f : Run → Run) (s : State) (x : Nat) : (setRun c f s).ctx x = s.ctx x := rfl
@[simp] theorem setRun_region (c : Nat) (f : Run → Run) (s : State) (x : Nat) : (setRun c f s).region x = s.region x := rfl

/-! ### `setVersion` writes `lfl` -/

@[simp] theorem setVersion_cores (s : State) (e : Nat) (f : Version → Version) : (setVersion s e f).cores = s.cores := rfl
@[simp] theorem setVersion_fences (s : State) (e : Nat) (f : Version → Version) : (setVersion s e f).fences = s.fences := rfl
@[simp] theorem setVersion_bridges (s : State) (e : Nat) (f : Version → Version) : (setVersion s e f).bridges = s.bridges := rfl
@[simp] theorem setVersion_audit (s : State) (e : Nat) (f : Version → Version) : (setVersion s e f).audit = s.audit := rfl
@[simp] theorem setVersion_gdl (s : State) (e : Nat) (f : Version → Version) : (setVersion s e f).gdl = s.gdl := rfl
@[simp] theorem setVersion_ddr (s : State) (e : Nat) (f : Version → Version) : (setVersion s e f).ddr = s.ddr := rfl
@[simp] theorem setVersion_flt (s : State) (e : Nat) (f : Version → Version) : (setVersion s e f).flt = s.flt := rfl
@[simp] theorem setVersion_efl (s : State) (e : Nat) (f : Version → Version) : (setVersion s e f).efl = s.efl := rfl
@[simp] theorem setVersion_sfe (s : State) (e : Nat) (f : Version → Version) : (setVersion s e f).sfe = s.sfe := rfl
@[simp] theorem setVersion_trg (s : State) (e : Nat) (f : Version → Version) : (setVersion s e f).trg = s.trg := rfl
@[simp] theorem setVersion_pci (s : State) (e : Nat) (f : Version → Version) : (setVersion s e f).pci = s.pci := rfl
@[simp] theorem setVersion_sec (s : State) (e : Nat) (f : Version → Version) : (setVersion s e f).sec = s.sec := rfl
@[simp] theorem setVersion_pwr (s : State) (e : Nat) (f : Version → Version) : (setVersion s e f).pwr = s.pwr := rfl
@[simp] theorem setVersion_boot (s : State) (e : Nat) (f : Version → Version) : (setVersion s e f).boot = s.boot := rfl
@[simp] theorem setVersion_fuses (s : State) (e : Nat) (f : Version → Version) : (setVersion s e f).fuses = s.fuses := rfl
@[simp] theorem setVersion_pins (s : State) (e : Nat) (f : Version → Version) : (setVersion s e f).pins = s.pins := rfl
@[simp] theorem setVersion_timer (s : State) (e : Nat) (f : Version → Version) : (setVersion s e f).timer = s.timer := rfl
@[simp] theorem setVersion_free (s : State) (e : Nat) (f : Version → Version) : (setVersion s e f).free = s.free := rfl
@[simp] theorem setVersion_pending (s : State) (e : Nat) (f : Version → Version) : (setVersion s e f).pending = s.pending := rfl
@[simp] theorem setVersion_core (s : State) (e : Nat) (f : Version → Version) (x : Nat) : (setVersion s e f).core x = s.core x := rfl
@[simp] theorem setVersion_run (s : State) (e : Nat) (f : Version → Version) (x : Nat) : (setVersion s e f).run x = s.run x := rfl
@[simp] theorem setVersion_func (s : State) (e : Nat) (f : Version → Version) (x : Nat) : (setVersion s e f).func x = s.func x := rfl
@[simp] theorem setVersion_queue (s : State) (e : Nat) (f : Version → Version) (x y : Nat) : (setVersion s e f).queue x y = s.queue x y := rfl
@[simp] theorem setVersion_dom (s : State) (e : Nat) (f : Version → Version) (x : Nat) : (setVersion s e f).dom x = s.dom x := rfl
@[simp] theorem setVersion_tsec (s : State) (e : Nat) (f : Version → Version) (x : Nat) : (setVersion s e f).tsec x = s.tsec x := rfl
@[simp] theorem setVersion_ctx (s : State) (e : Nat) (f : Version → Version) (x : Nat) : (setVersion s e f).ctx x = s.ctx x := rfl
@[simp] theorem setVersion_region (s : State) (e : Nat) (f : Version → Version) (x : Nat) : (setVersion s e f).region x = s.region x := rfl

/-! ### `setRegionEntry` writes `gdl` -/

@[simp] theorem setRegionEntry_cores (e : Nat) (r : RegionEntry) (s : State) : (setRegionEntry e r s).cores = s.cores := rfl
@[simp] theorem setRegionEntry_fences (e : Nat) (r : RegionEntry) (s : State) : (setRegionEntry e r s).fences = s.fences := rfl
@[simp] theorem setRegionEntry_bridges (e : Nat) (r : RegionEntry) (s : State) : (setRegionEntry e r s).bridges = s.bridges := rfl
@[simp] theorem setRegionEntry_audit (e : Nat) (r : RegionEntry) (s : State) : (setRegionEntry e r s).audit = s.audit := rfl
@[simp] theorem setRegionEntry_ddr (e : Nat) (r : RegionEntry) (s : State) : (setRegionEntry e r s).ddr = s.ddr := rfl
@[simp] theorem setRegionEntry_flt (e : Nat) (r : RegionEntry) (s : State) : (setRegionEntry e r s).flt = s.flt := rfl
@[simp] theorem setRegionEntry_efl (e : Nat) (r : RegionEntry) (s : State) : (setRegionEntry e r s).efl = s.efl := rfl
@[simp] theorem setRegionEntry_lfl (e : Nat) (r : RegionEntry) (s : State) : (setRegionEntry e r s).lfl = s.lfl := rfl
@[simp] theorem setRegionEntry_sfe (e : Nat) (r : RegionEntry) (s : State) : (setRegionEntry e r s).sfe = s.sfe := rfl
@[simp] theorem setRegionEntry_trg (e : Nat) (r : RegionEntry) (s : State) : (setRegionEntry e r s).trg = s.trg := rfl
@[simp] theorem setRegionEntry_pci (e : Nat) (r : RegionEntry) (s : State) : (setRegionEntry e r s).pci = s.pci := rfl
@[simp] theorem setRegionEntry_sec (e : Nat) (r : RegionEntry) (s : State) : (setRegionEntry e r s).sec = s.sec := rfl
@[simp] theorem setRegionEntry_pwr (e : Nat) (r : RegionEntry) (s : State) : (setRegionEntry e r s).pwr = s.pwr := rfl
@[simp] theorem setRegionEntry_boot (e : Nat) (r : RegionEntry) (s : State) : (setRegionEntry e r s).boot = s.boot := rfl
@[simp] theorem setRegionEntry_fuses (e : Nat) (r : RegionEntry) (s : State) : (setRegionEntry e r s).fuses = s.fuses := rfl
@[simp] theorem setRegionEntry_pins (e : Nat) (r : RegionEntry) (s : State) : (setRegionEntry e r s).pins = s.pins := rfl
@[simp] theorem setRegionEntry_timer (e : Nat) (r : RegionEntry) (s : State) : (setRegionEntry e r s).timer = s.timer := rfl
@[simp] theorem setRegionEntry_free (e : Nat) (r : RegionEntry) (s : State) : (setRegionEntry e r s).free = s.free := rfl
@[simp] theorem setRegionEntry_pending (e : Nat) (r : RegionEntry) (s : State) : (setRegionEntry e r s).pending = s.pending := rfl
@[simp] theorem setRegionEntry_core (e : Nat) (r : RegionEntry) (s : State) (x : Nat) : (setRegionEntry e r s).core x = s.core x := rfl
@[simp] theorem setRegionEntry_run (e : Nat) (r : RegionEntry) (s : State) (x : Nat) : (setRegionEntry e r s).run x = s.run x := rfl
@[simp] theorem setRegionEntry_func (e : Nat) (r : RegionEntry) (s : State) (x : Nat) : (setRegionEntry e r s).func x = s.func x := rfl
@[simp] theorem setRegionEntry_queue (e : Nat) (r : RegionEntry) (s : State) (x y : Nat) : (setRegionEntry e r s).queue x y = s.queue x y := rfl
@[simp] theorem setRegionEntry_dom (e : Nat) (r : RegionEntry) (s : State) (x : Nat) : (setRegionEntry e r s).dom x = s.dom x := rfl
@[simp] theorem setRegionEntry_tenant (e : Nat) (r : RegionEntry) (s : State) (x : Nat) : (setRegionEntry e r s).tenant x = s.tenant x := rfl
@[simp] theorem setRegionEntry_job (e : Nat) (r : RegionEntry) (s : State) (x : Nat) : (setRegionEntry e r s).job x = s.job x := rfl
@[simp] theorem setRegionEntry_tsec (e : Nat) (r : RegionEntry) (s : State) (x : Nat) : (setRegionEntry e r s).tsec x = s.tsec x := rfl
@[simp] theorem setRegionEntry_ctx (e : Nat) (r : RegionEntry) (s : State) (x : Nat) : (setRegionEntry e r s).ctx x = s.ctx x := rfl

/-! ### `setPass` writes `gdl` -/

@[simp] theorem setPass_cores (p : Nat) (f : GdlPass → GdlPass) (s : State) : (setPass p f s).cores = s.cores := rfl
@[simp] theorem setPass_fences (p : Nat) (f : GdlPass → GdlPass) (s : State) : (setPass p f s).fences = s.fences := rfl
@[simp] theorem setPass_bridges (p : Nat) (f : GdlPass → GdlPass) (s : State) : (setPass p f s).bridges = s.bridges := rfl
@[simp] theorem setPass_audit (p : Nat) (f : GdlPass → GdlPass) (s : State) : (setPass p f s).audit = s.audit := rfl
@[simp] theorem setPass_ddr (p : Nat) (f : GdlPass → GdlPass) (s : State) : (setPass p f s).ddr = s.ddr := rfl
@[simp] theorem setPass_flt (p : Nat) (f : GdlPass → GdlPass) (s : State) : (setPass p f s).flt = s.flt := rfl
@[simp] theorem setPass_efl (p : Nat) (f : GdlPass → GdlPass) (s : State) : (setPass p f s).efl = s.efl := rfl
@[simp] theorem setPass_lfl (p : Nat) (f : GdlPass → GdlPass) (s : State) : (setPass p f s).lfl = s.lfl := rfl
@[simp] theorem setPass_sfe (p : Nat) (f : GdlPass → GdlPass) (s : State) : (setPass p f s).sfe = s.sfe := rfl
@[simp] theorem setPass_trg (p : Nat) (f : GdlPass → GdlPass) (s : State) : (setPass p f s).trg = s.trg := rfl
@[simp] theorem setPass_pci (p : Nat) (f : GdlPass → GdlPass) (s : State) : (setPass p f s).pci = s.pci := rfl
@[simp] theorem setPass_sec (p : Nat) (f : GdlPass → GdlPass) (s : State) : (setPass p f s).sec = s.sec := rfl
@[simp] theorem setPass_pwr (p : Nat) (f : GdlPass → GdlPass) (s : State) : (setPass p f s).pwr = s.pwr := rfl
@[simp] theorem setPass_boot (p : Nat) (f : GdlPass → GdlPass) (s : State) : (setPass p f s).boot = s.boot := rfl
@[simp] theorem setPass_fuses (p : Nat) (f : GdlPass → GdlPass) (s : State) : (setPass p f s).fuses = s.fuses := rfl
@[simp] theorem setPass_pins (p : Nat) (f : GdlPass → GdlPass) (s : State) : (setPass p f s).pins = s.pins := rfl
@[simp] theorem setPass_timer (p : Nat) (f : GdlPass → GdlPass) (s : State) : (setPass p f s).timer = s.timer := rfl
@[simp] theorem setPass_free (p : Nat) (f : GdlPass → GdlPass) (s : State) : (setPass p f s).free = s.free := rfl
@[simp] theorem setPass_pending (p : Nat) (f : GdlPass → GdlPass) (s : State) : (setPass p f s).pending = s.pending := rfl
@[simp] theorem setPass_core (p : Nat) (f : GdlPass → GdlPass) (s : State) (x : Nat) : (setPass p f s).core x = s.core x := rfl
@[simp] theorem setPass_run (p : Nat) (f : GdlPass → GdlPass) (s : State) (x : Nat) : (setPass p f s).run x = s.run x := rfl
@[simp] theorem setPass_func (p : Nat) (f : GdlPass → GdlPass) (s : State) (x : Nat) : (setPass p f s).func x = s.func x := rfl
@[simp] theorem setPass_queue (p : Nat) (f : GdlPass → GdlPass) (s : State) (x y : Nat) : (setPass p f s).queue x y = s.queue x y := rfl
@[simp] theorem setPass_dom (p : Nat) (f : GdlPass → GdlPass) (s : State) (x : Nat) : (setPass p f s).dom x = s.dom x := rfl
@[simp] theorem setPass_tenant (p : Nat) (f : GdlPass → GdlPass) (s : State) (x : Nat) : (setPass p f s).tenant x = s.tenant x := rfl
@[simp] theorem setPass_job (p : Nat) (f : GdlPass → GdlPass) (s : State) (x : Nat) : (setPass p f s).job x = s.job x := rfl
@[simp] theorem setPass_tsec (p : Nat) (f : GdlPass → GdlPass) (s : State) (x : Nat) : (setPass p f s).tsec x = s.tsec x := rfl
@[simp] theorem setPass_ctx (p : Nat) (f : GdlPass → GdlPass) (s : State) (x : Nat) : (setPass p f s).ctx x = s.ctx x := rfl

/-! ### `setBuf` writes `gdl` -/

@[simp] theorem setBuf_cores (e : Nat) (b : Option BufEntry) (s : State) : (setBuf e b s).cores = s.cores := rfl
@[simp] theorem setBuf_fences (e : Nat) (b : Option BufEntry) (s : State) : (setBuf e b s).fences = s.fences := rfl
@[simp] theorem setBuf_bridges (e : Nat) (b : Option BufEntry) (s : State) : (setBuf e b s).bridges = s.bridges := rfl
@[simp] theorem setBuf_audit (e : Nat) (b : Option BufEntry) (s : State) : (setBuf e b s).audit = s.audit := rfl
@[simp] theorem setBuf_ddr (e : Nat) (b : Option BufEntry) (s : State) : (setBuf e b s).ddr = s.ddr := rfl
@[simp] theorem setBuf_flt (e : Nat) (b : Option BufEntry) (s : State) : (setBuf e b s).flt = s.flt := rfl
@[simp] theorem setBuf_efl (e : Nat) (b : Option BufEntry) (s : State) : (setBuf e b s).efl = s.efl := rfl
@[simp] theorem setBuf_lfl (e : Nat) (b : Option BufEntry) (s : State) : (setBuf e b s).lfl = s.lfl := rfl
@[simp] theorem setBuf_sfe (e : Nat) (b : Option BufEntry) (s : State) : (setBuf e b s).sfe = s.sfe := rfl
@[simp] theorem setBuf_trg (e : Nat) (b : Option BufEntry) (s : State) : (setBuf e b s).trg = s.trg := rfl
@[simp] theorem setBuf_pci (e : Nat) (b : Option BufEntry) (s : State) : (setBuf e b s).pci = s.pci := rfl
@[simp] theorem setBuf_sec (e : Nat) (b : Option BufEntry) (s : State) : (setBuf e b s).sec = s.sec := rfl
@[simp] theorem setBuf_pwr (e : Nat) (b : Option BufEntry) (s : State) : (setBuf e b s).pwr = s.pwr := rfl
@[simp] theorem setBuf_boot (e : Nat) (b : Option BufEntry) (s : State) : (setBuf e b s).boot = s.boot := rfl
@[simp] theorem setBuf_fuses (e : Nat) (b : Option BufEntry) (s : State) : (setBuf e b s).fuses = s.fuses := rfl
@[simp] theorem setBuf_pins (e : Nat) (b : Option BufEntry) (s : State) : (setBuf e b s).pins = s.pins := rfl
@[simp] theorem setBuf_timer (e : Nat) (b : Option BufEntry) (s : State) : (setBuf e b s).timer = s.timer := rfl
@[simp] theorem setBuf_free (e : Nat) (b : Option BufEntry) (s : State) : (setBuf e b s).free = s.free := rfl
@[simp] theorem setBuf_pending (e : Nat) (b : Option BufEntry) (s : State) : (setBuf e b s).pending = s.pending := rfl
@[simp] theorem setBuf_core (e : Nat) (b : Option BufEntry) (s : State) (x : Nat) : (setBuf e b s).core x = s.core x := rfl
@[simp] theorem setBuf_run (e : Nat) (b : Option BufEntry) (s : State) (x : Nat) : (setBuf e b s).run x = s.run x := rfl
@[simp] theorem setBuf_func (e : Nat) (b : Option BufEntry) (s : State) (x : Nat) : (setBuf e b s).func x = s.func x := rfl
@[simp] theorem setBuf_queue (e : Nat) (b : Option BufEntry) (s : State) (x y : Nat) : (setBuf e b s).queue x y = s.queue x y := rfl
@[simp] theorem setBuf_dom (e : Nat) (b : Option BufEntry) (s : State) (x : Nat) : (setBuf e b s).dom x = s.dom x := rfl
@[simp] theorem setBuf_tenant (e : Nat) (b : Option BufEntry) (s : State) (x : Nat) : (setBuf e b s).tenant x = s.tenant x := rfl
@[simp] theorem setBuf_job (e : Nat) (b : Option BufEntry) (s : State) (x : Nat) : (setBuf e b s).job x = s.job x := rfl
@[simp] theorem setBuf_tsec (e : Nat) (b : Option BufEntry) (s : State) (x : Nat) : (setBuf e b s).tsec x = s.tsec x := rfl
@[simp] theorem setBuf_ctx (e : Nat) (b : Option BufEntry) (s : State) (x : Nat) : (setBuf e b s).ctx x = s.ctx x := rfl

/-! ### `setSlot` writes `gdl` -/

@[simp] theorem setSlot_cores (i : Nat) (f : TableSlot → TableSlot) (s : State) : (setSlot i f s).cores = s.cores := rfl
@[simp] theorem setSlot_fences (i : Nat) (f : TableSlot → TableSlot) (s : State) : (setSlot i f s).fences = s.fences := rfl
@[simp] theorem setSlot_bridges (i : Nat) (f : TableSlot → TableSlot) (s : State) : (setSlot i f s).bridges = s.bridges := rfl
@[simp] theorem setSlot_audit (i : Nat) (f : TableSlot → TableSlot) (s : State) : (setSlot i f s).audit = s.audit := rfl
@[simp] theorem setSlot_ddr (i : Nat) (f : TableSlot → TableSlot) (s : State) : (setSlot i f s).ddr = s.ddr := rfl
@[simp] theorem setSlot_flt (i : Nat) (f : TableSlot → TableSlot) (s : State) : (setSlot i f s).flt = s.flt := rfl
@[simp] theorem setSlot_efl (i : Nat) (f : TableSlot → TableSlot) (s : State) : (setSlot i f s).efl = s.efl := rfl
@[simp] theorem setSlot_lfl (i : Nat) (f : TableSlot → TableSlot) (s : State) : (setSlot i f s).lfl = s.lfl := rfl
@[simp] theorem setSlot_sfe (i : Nat) (f : TableSlot → TableSlot) (s : State) : (setSlot i f s).sfe = s.sfe := rfl
@[simp] theorem setSlot_trg (i : Nat) (f : TableSlot → TableSlot) (s : State) : (setSlot i f s).trg = s.trg := rfl
@[simp] theorem setSlot_pci (i : Nat) (f : TableSlot → TableSlot) (s : State) : (setSlot i f s).pci = s.pci := rfl
@[simp] theorem setSlot_sec (i : Nat) (f : TableSlot → TableSlot) (s : State) : (setSlot i f s).sec = s.sec := rfl
@[simp] theorem setSlot_pwr (i : Nat) (f : TableSlot → TableSlot) (s : State) : (setSlot i f s).pwr = s.pwr := rfl
@[simp] theorem setSlot_boot (i : Nat) (f : TableSlot → TableSlot) (s : State) : (setSlot i f s).boot = s.boot := rfl
@[simp] theorem setSlot_fuses (i : Nat) (f : TableSlot → TableSlot) (s : State) : (setSlot i f s).fuses = s.fuses := rfl
@[simp] theorem setSlot_pins (i : Nat) (f : TableSlot → TableSlot) (s : State) : (setSlot i f s).pins = s.pins := rfl
@[simp] theorem setSlot_timer (i : Nat) (f : TableSlot → TableSlot) (s : State) : (setSlot i f s).timer = s.timer := rfl
@[simp] theorem setSlot_free (i : Nat) (f : TableSlot → TableSlot) (s : State) : (setSlot i f s).free = s.free := rfl
@[simp] theorem setSlot_pending (i : Nat) (f : TableSlot → TableSlot) (s : State) : (setSlot i f s).pending = s.pending := rfl
@[simp] theorem setSlot_core (i : Nat) (f : TableSlot → TableSlot) (s : State) (x : Nat) : (setSlot i f s).core x = s.core x := rfl
@[simp] theorem setSlot_run (i : Nat) (f : TableSlot → TableSlot) (s : State) (x : Nat) : (setSlot i f s).run x = s.run x := rfl
@[simp] theorem setSlot_func (i : Nat) (f : TableSlot → TableSlot) (s : State) (x : Nat) : (setSlot i f s).func x = s.func x := rfl
@[simp] theorem setSlot_queue (i : Nat) (f : TableSlot → TableSlot) (s : State) (x y : Nat) : (setSlot i f s).queue x y = s.queue x y := rfl
@[simp] theorem setSlot_dom (i : Nat) (f : TableSlot → TableSlot) (s : State) (x : Nat) : (setSlot i f s).dom x = s.dom x := rfl
@[simp] theorem setSlot_tenant (i : Nat) (f : TableSlot → TableSlot) (s : State) (x : Nat) : (setSlot i f s).tenant x = s.tenant x := rfl
@[simp] theorem setSlot_job (i : Nat) (f : TableSlot → TableSlot) (s : State) (x : Nat) : (setSlot i f s).job x = s.job x := rfl
@[simp] theorem setSlot_tsec (i : Nat) (f : TableSlot → TableSlot) (s : State) (x : Nat) : (setSlot i f s).tsec x = s.tsec x := rfl
@[simp] theorem setSlot_ctx (i : Nat) (f : TableSlot → TableSlot) (s : State) (x : Nat) : (setSlot i f s).ctx x = s.ctx x := rfl

/-! ### `setExpander` writes `gdl` -/

@[simp] theorem setExpander_cores (i : Nat) (l : List ExpBlock) (s : State) : (setExpander i l s).cores = s.cores := rfl
@[simp] theorem setExpander_fences (i : Nat) (l : List ExpBlock) (s : State) : (setExpander i l s).fences = s.fences := rfl
@[simp] theorem setExpander_bridges (i : Nat) (l : List ExpBlock) (s : State) : (setExpander i l s).bridges = s.bridges := rfl
@[simp] theorem setExpander_audit (i : Nat) (l : List ExpBlock) (s : State) : (setExpander i l s).audit = s.audit := rfl
@[simp] theorem setExpander_ddr (i : Nat) (l : List ExpBlock) (s : State) : (setExpander i l s).ddr = s.ddr := rfl
@[simp] theorem setExpander_flt (i : Nat) (l : List ExpBlock) (s : State) : (setExpander i l s).flt = s.flt := rfl
@[simp] theorem setExpander_efl (i : Nat) (l : List ExpBlock) (s : State) : (setExpander i l s).efl = s.efl := rfl
@[simp] theorem setExpander_lfl (i : Nat) (l : List ExpBlock) (s : State) : (setExpander i l s).lfl = s.lfl := rfl
@[simp] theorem setExpander_sfe (i : Nat) (l : List ExpBlock) (s : State) : (setExpander i l s).sfe = s.sfe := rfl
@[simp] theorem setExpander_trg (i : Nat) (l : List ExpBlock) (s : State) : (setExpander i l s).trg = s.trg := rfl
@[simp] theorem setExpander_pci (i : Nat) (l : List ExpBlock) (s : State) : (setExpander i l s).pci = s.pci := rfl
@[simp] theorem setExpander_sec (i : Nat) (l : List ExpBlock) (s : State) : (setExpander i l s).sec = s.sec := rfl
@[simp] theorem setExpander_pwr (i : Nat) (l : List ExpBlock) (s : State) : (setExpander i l s).pwr = s.pwr := rfl
@[simp] theorem setExpander_boot (i : Nat) (l : List ExpBlock) (s : State) : (setExpander i l s).boot = s.boot := rfl
@[simp] theorem setExpander_fuses (i : Nat) (l : List ExpBlock) (s : State) : (setExpander i l s).fuses = s.fuses := rfl
@[simp] theorem setExpander_pins (i : Nat) (l : List ExpBlock) (s : State) : (setExpander i l s).pins = s.pins := rfl
@[simp] theorem setExpander_timer (i : Nat) (l : List ExpBlock) (s : State) : (setExpander i l s).timer = s.timer := rfl
@[simp] theorem setExpander_free (i : Nat) (l : List ExpBlock) (s : State) : (setExpander i l s).free = s.free := rfl
@[simp] theorem setExpander_pending (i : Nat) (l : List ExpBlock) (s : State) : (setExpander i l s).pending = s.pending := rfl
@[simp] theorem setExpander_core (i : Nat) (l : List ExpBlock) (s : State) (x : Nat) : (setExpander i l s).core x = s.core x := rfl
@[simp] theorem setExpander_run (i : Nat) (l : List ExpBlock) (s : State) (x : Nat) : (setExpander i l s).run x = s.run x := rfl
@[simp] theorem setExpander_func (i : Nat) (l : List ExpBlock) (s : State) (x : Nat) : (setExpander i l s).func x = s.func x := rfl
@[simp] theorem setExpander_queue (i : Nat) (l : List ExpBlock) (s : State) (x y : Nat) : (setExpander i l s).queue x y = s.queue x y := rfl
@[simp] theorem setExpander_dom (i : Nat) (l : List ExpBlock) (s : State) (x : Nat) : (setExpander i l s).dom x = s.dom x := rfl
@[simp] theorem setExpander_tenant (i : Nat) (l : List ExpBlock) (s : State) (x : Nat) : (setExpander i l s).tenant x = s.tenant x := rfl
@[simp] theorem setExpander_job (i : Nat) (l : List ExpBlock) (s : State) (x : Nat) : (setExpander i l s).job x = s.job x := rfl
@[simp] theorem setExpander_tsec (i : Nat) (l : List ExpBlock) (s : State) (x : Nat) : (setExpander i l s).tsec x = s.tsec x := rfl
@[simp] theorem setExpander_ctx (i : Nat) (l : List ExpBlock) (s : State) (x : Nat) : (setExpander i l s).ctx x = s.ctx x := rfl

/-! ### `setKv` writes `lfl` -/

@[simp] theorem setKv_cores (head : Nat) (f : KvBlock → KvBlock) (s : State) : (setKv head f s).cores = s.cores := rfl
@[simp] theorem setKv_fences (head : Nat) (f : KvBlock → KvBlock) (s : State) : (setKv head f s).fences = s.fences := rfl
@[simp] theorem setKv_bridges (head : Nat) (f : KvBlock → KvBlock) (s : State) : (setKv head f s).bridges = s.bridges := rfl
@[simp] theorem setKv_audit (head : Nat) (f : KvBlock → KvBlock) (s : State) : (setKv head f s).audit = s.audit := rfl
@[simp] theorem setKv_gdl (head : Nat) (f : KvBlock → KvBlock) (s : State) : (setKv head f s).gdl = s.gdl := rfl
@[simp] theorem setKv_ddr (head : Nat) (f : KvBlock → KvBlock) (s : State) : (setKv head f s).ddr = s.ddr := rfl
@[simp] theorem setKv_flt (head : Nat) (f : KvBlock → KvBlock) (s : State) : (setKv head f s).flt = s.flt := rfl
@[simp] theorem setKv_efl (head : Nat) (f : KvBlock → KvBlock) (s : State) : (setKv head f s).efl = s.efl := rfl
@[simp] theorem setKv_sfe (head : Nat) (f : KvBlock → KvBlock) (s : State) : (setKv head f s).sfe = s.sfe := rfl
@[simp] theorem setKv_trg (head : Nat) (f : KvBlock → KvBlock) (s : State) : (setKv head f s).trg = s.trg := rfl
@[simp] theorem setKv_pci (head : Nat) (f : KvBlock → KvBlock) (s : State) : (setKv head f s).pci = s.pci := rfl
@[simp] theorem setKv_sec (head : Nat) (f : KvBlock → KvBlock) (s : State) : (setKv head f s).sec = s.sec := rfl
@[simp] theorem setKv_pwr (head : Nat) (f : KvBlock → KvBlock) (s : State) : (setKv head f s).pwr = s.pwr := rfl
@[simp] theorem setKv_boot (head : Nat) (f : KvBlock → KvBlock) (s : State) : (setKv head f s).boot = s.boot := rfl
@[simp] theorem setKv_fuses (head : Nat) (f : KvBlock → KvBlock) (s : State) : (setKv head f s).fuses = s.fuses := rfl
@[simp] theorem setKv_pins (head : Nat) (f : KvBlock → KvBlock) (s : State) : (setKv head f s).pins = s.pins := rfl
@[simp] theorem setKv_timer (head : Nat) (f : KvBlock → KvBlock) (s : State) : (setKv head f s).timer = s.timer := rfl
@[simp] theorem setKv_free (head : Nat) (f : KvBlock → KvBlock) (s : State) : (setKv head f s).free = s.free := rfl
@[simp] theorem setKv_pending (head : Nat) (f : KvBlock → KvBlock) (s : State) : (setKv head f s).pending = s.pending := rfl
@[simp] theorem setKv_core (head : Nat) (f : KvBlock → KvBlock) (s : State) (x : Nat) : (setKv head f s).core x = s.core x := rfl
@[simp] theorem setKv_run (head : Nat) (f : KvBlock → KvBlock) (s : State) (x : Nat) : (setKv head f s).run x = s.run x := rfl
@[simp] theorem setKv_func (head : Nat) (f : KvBlock → KvBlock) (s : State) (x : Nat) : (setKv head f s).func x = s.func x := rfl
@[simp] theorem setKv_queue (head : Nat) (f : KvBlock → KvBlock) (s : State) (x y : Nat) : (setKv head f s).queue x y = s.queue x y := rfl
@[simp] theorem setKv_dom (head : Nat) (f : KvBlock → KvBlock) (s : State) (x : Nat) : (setKv head f s).dom x = s.dom x := rfl
@[simp] theorem setKv_tsec (head : Nat) (f : KvBlock → KvBlock) (s : State) (x : Nat) : (setKv head f s).tsec x = s.tsec x := rfl
@[simp] theorem setKv_ctx (head : Nat) (f : KvBlock → KvBlock) (s : State) (x : Nat) : (setKv head f s).ctx x = s.ctx x := rfl
@[simp] theorem setKv_region (head : Nat) (f : KvBlock → KvBlock) (s : State) (x : Nat) : (setKv head f s).region x = s.region x := rfl

/-! ### `setReq` writes `lfl` -/

@[simp] theorem setReq_cores (n : Nat) (f : Request → Request) (s : State) : (setReq n f s).cores = s.cores := rfl
@[simp] theorem setReq_fences (n : Nat) (f : Request → Request) (s : State) : (setReq n f s).fences = s.fences := rfl
@[simp] theorem setReq_bridges (n : Nat) (f : Request → Request) (s : State) : (setReq n f s).bridges = s.bridges := rfl
@[simp] theorem setReq_audit (n : Nat) (f : Request → Request) (s : State) : (setReq n f s).audit = s.audit := rfl
@[simp] theorem setReq_gdl (n : Nat) (f : Request → Request) (s : State) : (setReq n f s).gdl = s.gdl := rfl
@[simp] theorem setReq_ddr (n : Nat) (f : Request → Request) (s : State) : (setReq n f s).ddr = s.ddr := rfl
@[simp] theorem setReq_flt (n : Nat) (f : Request → Request) (s : State) : (setReq n f s).flt = s.flt := rfl
@[simp] theorem setReq_efl (n : Nat) (f : Request → Request) (s : State) : (setReq n f s).efl = s.efl := rfl
@[simp] theorem setReq_sfe (n : Nat) (f : Request → Request) (s : State) : (setReq n f s).sfe = s.sfe := rfl
@[simp] theorem setReq_trg (n : Nat) (f : Request → Request) (s : State) : (setReq n f s).trg = s.trg := rfl
@[simp] theorem setReq_pci (n : Nat) (f : Request → Request) (s : State) : (setReq n f s).pci = s.pci := rfl
@[simp] theorem setReq_sec (n : Nat) (f : Request → Request) (s : State) : (setReq n f s).sec = s.sec := rfl
@[simp] theorem setReq_pwr (n : Nat) (f : Request → Request) (s : State) : (setReq n f s).pwr = s.pwr := rfl
@[simp] theorem setReq_boot (n : Nat) (f : Request → Request) (s : State) : (setReq n f s).boot = s.boot := rfl
@[simp] theorem setReq_fuses (n : Nat) (f : Request → Request) (s : State) : (setReq n f s).fuses = s.fuses := rfl
@[simp] theorem setReq_pins (n : Nat) (f : Request → Request) (s : State) : (setReq n f s).pins = s.pins := rfl
@[simp] theorem setReq_timer (n : Nat) (f : Request → Request) (s : State) : (setReq n f s).timer = s.timer := rfl
@[simp] theorem setReq_free (n : Nat) (f : Request → Request) (s : State) : (setReq n f s).free = s.free := rfl
@[simp] theorem setReq_pending (n : Nat) (f : Request → Request) (s : State) : (setReq n f s).pending = s.pending := rfl
@[simp] theorem setReq_core (n : Nat) (f : Request → Request) (s : State) (x : Nat) : (setReq n f s).core x = s.core x := rfl
@[simp] theorem setReq_run (n : Nat) (f : Request → Request) (s : State) (x : Nat) : (setReq n f s).run x = s.run x := rfl
@[simp] theorem setReq_func (n : Nat) (f : Request → Request) (s : State) (x : Nat) : (setReq n f s).func x = s.func x := rfl
@[simp] theorem setReq_queue (n : Nat) (f : Request → Request) (s : State) (x y : Nat) : (setReq n f s).queue x y = s.queue x y := rfl
@[simp] theorem setReq_dom (n : Nat) (f : Request → Request) (s : State) (x : Nat) : (setReq n f s).dom x = s.dom x := rfl
@[simp] theorem setReq_tsec (n : Nat) (f : Request → Request) (s : State) (x : Nat) : (setReq n f s).tsec x = s.tsec x := rfl
@[simp] theorem setReq_ctx (n : Nat) (f : Request → Request) (s : State) (x : Nat) : (setReq n f s).ctx x = s.ctx x := rfl
@[simp] theorem setReq_region (n : Nat) (f : Request → Request) (s : State) (x : Nat) : (setReq n f s).region x = s.region x := rfl

/-! ### `setBlock` writes `flt` -/

@[simp] theorem setBlock_cores (b : Nat) (f : FltBlock → FltBlock) (s : State) : (setBlock b f s).cores = s.cores := rfl
@[simp] theorem setBlock_fences (b : Nat) (f : FltBlock → FltBlock) (s : State) : (setBlock b f s).fences = s.fences := rfl
@[simp] theorem setBlock_bridges (b : Nat) (f : FltBlock → FltBlock) (s : State) : (setBlock b f s).bridges = s.bridges := rfl
@[simp] theorem setBlock_audit (b : Nat) (f : FltBlock → FltBlock) (s : State) : (setBlock b f s).audit = s.audit := rfl
@[simp] theorem setBlock_gdl (b : Nat) (f : FltBlock → FltBlock) (s : State) : (setBlock b f s).gdl = s.gdl := rfl
@[simp] theorem setBlock_ddr (b : Nat) (f : FltBlock → FltBlock) (s : State) : (setBlock b f s).ddr = s.ddr := rfl
@[simp] theorem setBlock_efl (b : Nat) (f : FltBlock → FltBlock) (s : State) : (setBlock b f s).efl = s.efl := rfl
@[simp] theorem setBlock_lfl (b : Nat) (f : FltBlock → FltBlock) (s : State) : (setBlock b f s).lfl = s.lfl := rfl
@[simp] theorem setBlock_sfe (b : Nat) (f : FltBlock → FltBlock) (s : State) : (setBlock b f s).sfe = s.sfe := rfl
@[simp] theorem setBlock_trg (b : Nat) (f : FltBlock → FltBlock) (s : State) : (setBlock b f s).trg = s.trg := rfl
@[simp] theorem setBlock_pci (b : Nat) (f : FltBlock → FltBlock) (s : State) : (setBlock b f s).pci = s.pci := rfl
@[simp] theorem setBlock_sec (b : Nat) (f : FltBlock → FltBlock) (s : State) : (setBlock b f s).sec = s.sec := rfl
@[simp] theorem setBlock_pwr (b : Nat) (f : FltBlock → FltBlock) (s : State) : (setBlock b f s).pwr = s.pwr := rfl
@[simp] theorem setBlock_boot (b : Nat) (f : FltBlock → FltBlock) (s : State) : (setBlock b f s).boot = s.boot := rfl
@[simp] theorem setBlock_fuses (b : Nat) (f : FltBlock → FltBlock) (s : State) : (setBlock b f s).fuses = s.fuses := rfl
@[simp] theorem setBlock_pins (b : Nat) (f : FltBlock → FltBlock) (s : State) : (setBlock b f s).pins = s.pins := rfl
@[simp] theorem setBlock_timer (b : Nat) (f : FltBlock → FltBlock) (s : State) : (setBlock b f s).timer = s.timer := rfl
@[simp] theorem setBlock_free (b : Nat) (f : FltBlock → FltBlock) (s : State) : (setBlock b f s).free = s.free := rfl
@[simp] theorem setBlock_pending (b : Nat) (f : FltBlock → FltBlock) (s : State) : (setBlock b f s).pending = s.pending := rfl
@[simp] theorem setBlock_core (b : Nat) (f : FltBlock → FltBlock) (s : State) (x : Nat) : (setBlock b f s).core x = s.core x := rfl
@[simp] theorem setBlock_run (b : Nat) (f : FltBlock → FltBlock) (s : State) (x : Nat) : (setBlock b f s).run x = s.run x := rfl
@[simp] theorem setBlock_func (b : Nat) (f : FltBlock → FltBlock) (s : State) (x : Nat) : (setBlock b f s).func x = s.func x := rfl
@[simp] theorem setBlock_queue (b : Nat) (f : FltBlock → FltBlock) (s : State) (x y : Nat) : (setBlock b f s).queue x y = s.queue x y := rfl
@[simp] theorem setBlock_dom (b : Nat) (f : FltBlock → FltBlock) (s : State) (x : Nat) : (setBlock b f s).dom x = s.dom x := rfl
@[simp] theorem setBlock_tenant (b : Nat) (f : FltBlock → FltBlock) (s : State) (x : Nat) : (setBlock b f s).tenant x = s.tenant x := rfl
@[simp] theorem setBlock_job (b : Nat) (f : FltBlock → FltBlock) (s : State) (x : Nat) : (setBlock b f s).job x = s.job x := rfl
@[simp] theorem setBlock_tsec (b : Nat) (f : FltBlock → FltBlock) (s : State) (x : Nat) : (setBlock b f s).tsec x = s.tsec x := rfl
@[simp] theorem setBlock_ctx (b : Nat) (f : FltBlock → FltBlock) (s : State) (x : Nat) : (setBlock b f s).ctx x = s.ctx x := rfl
@[simp] theorem setBlock_region (b : Nat) (f : FltBlock → FltBlock) (s : State) (x : Nat) : (setBlock b f s).region x = s.region x := rfl

/-! ### `setJournal` writes `flt` -/

@[simp] theorem setJournal_cores (c : Nat) (f : Journal → Journal) (s : State) : (setJournal c f s).cores = s.cores := rfl
@[simp] theorem setJournal_fences (c : Nat) (f : Journal → Journal) (s : State) : (setJournal c f s).fences = s.fences := rfl
@[simp] theorem setJournal_bridges (c : Nat) (f : Journal → Journal) (s : State) : (setJournal c f s).bridges = s.bridges := rfl
@[simp] theorem setJournal_audit (c : Nat) (f : Journal → Journal) (s : State) : (setJournal c f s).audit = s.audit := rfl
@[simp] theorem setJournal_gdl (c : Nat) (f : Journal → Journal) (s : State) : (setJournal c f s).gdl = s.gdl := rfl
@[simp] theorem setJournal_ddr (c : Nat) (f : Journal → Journal) (s : State) : (setJournal c f s).ddr = s.ddr := rfl
@[simp] theorem setJournal_efl (c : Nat) (f : Journal → Journal) (s : State) : (setJournal c f s).efl = s.efl := rfl
@[simp] theorem setJournal_lfl (c : Nat) (f : Journal → Journal) (s : State) : (setJournal c f s).lfl = s.lfl := rfl
@[simp] theorem setJournal_sfe (c : Nat) (f : Journal → Journal) (s : State) : (setJournal c f s).sfe = s.sfe := rfl
@[simp] theorem setJournal_trg (c : Nat) (f : Journal → Journal) (s : State) : (setJournal c f s).trg = s.trg := rfl
@[simp] theorem setJournal_pci (c : Nat) (f : Journal → Journal) (s : State) : (setJournal c f s).pci = s.pci := rfl
@[simp] theorem setJournal_sec (c : Nat) (f : Journal → Journal) (s : State) : (setJournal c f s).sec = s.sec := rfl
@[simp] theorem setJournal_pwr (c : Nat) (f : Journal → Journal) (s : State) : (setJournal c f s).pwr = s.pwr := rfl
@[simp] theorem setJournal_boot (c : Nat) (f : Journal → Journal) (s : State) : (setJournal c f s).boot = s.boot := rfl
@[simp] theorem setJournal_fuses (c : Nat) (f : Journal → Journal) (s : State) : (setJournal c f s).fuses = s.fuses := rfl
@[simp] theorem setJournal_pins (c : Nat) (f : Journal → Journal) (s : State) : (setJournal c f s).pins = s.pins := rfl
@[simp] theorem setJournal_timer (c : Nat) (f : Journal → Journal) (s : State) : (setJournal c f s).timer = s.timer := rfl
@[simp] theorem setJournal_free (c : Nat) (f : Journal → Journal) (s : State) : (setJournal c f s).free = s.free := rfl
@[simp] theorem setJournal_pending (c : Nat) (f : Journal → Journal) (s : State) : (setJournal c f s).pending = s.pending := rfl
@[simp] theorem setJournal_core (c : Nat) (f : Journal → Journal) (s : State) (x : Nat) : (setJournal c f s).core x = s.core x := rfl
@[simp] theorem setJournal_run (c : Nat) (f : Journal → Journal) (s : State) (x : Nat) : (setJournal c f s).run x = s.run x := rfl
@[simp] theorem setJournal_func (c : Nat) (f : Journal → Journal) (s : State) (x : Nat) : (setJournal c f s).func x = s.func x := rfl
@[simp] theorem setJournal_queue (c : Nat) (f : Journal → Journal) (s : State) (x y : Nat) : (setJournal c f s).queue x y = s.queue x y := rfl
@[simp] theorem setJournal_dom (c : Nat) (f : Journal → Journal) (s : State) (x : Nat) : (setJournal c f s).dom x = s.dom x := rfl
@[simp] theorem setJournal_tenant (c : Nat) (f : Journal → Journal) (s : State) (x : Nat) : (setJournal c f s).tenant x = s.tenant x := rfl
@[simp] theorem setJournal_job (c : Nat) (f : Journal → Journal) (s : State) (x : Nat) : (setJournal c f s).job x = s.job x := rfl
@[simp] theorem setJournal_tsec (c : Nat) (f : Journal → Journal) (s : State) (x : Nat) : (setJournal c f s).tsec x = s.tsec x := rfl
@[simp] theorem setJournal_ctx (c : Nat) (f : Journal → Journal) (s : State) (x : Nat) : (setJournal c f s).ctx x = s.ctx x := rfl
@[simp] theorem setJournal_region (c : Nat) (f : Journal → Journal) (s : State) (x : Nat) : (setJournal c f s).region x = s.region x := rfl

/-! ### `setLun` writes `flt` -/

@[simp] theorem setLun_cores (k : Nat) (f : Lun → Lun) (s : State) : (setLun k f s).cores = s.cores := rfl
@[simp] theorem setLun_fences (k : Nat) (f : Lun → Lun) (s : State) : (setLun k f s).fences = s.fences := rfl
@[simp] theorem setLun_bridges (k : Nat) (f : Lun → Lun) (s : State) : (setLun k f s).bridges = s.bridges := rfl
@[simp] theorem setLun_audit (k : Nat) (f : Lun → Lun) (s : State) : (setLun k f s).audit = s.audit := rfl
@[simp] theorem setLun_gdl (k : Nat) (f : Lun → Lun) (s : State) : (setLun k f s).gdl = s.gdl := rfl
@[simp] theorem setLun_ddr (k : Nat) (f : Lun → Lun) (s : State) : (setLun k f s).ddr = s.ddr := rfl
@[simp] theorem setLun_efl (k : Nat) (f : Lun → Lun) (s : State) : (setLun k f s).efl = s.efl := rfl
@[simp] theorem setLun_lfl (k : Nat) (f : Lun → Lun) (s : State) : (setLun k f s).lfl = s.lfl := rfl
@[simp] theorem setLun_sfe (k : Nat) (f : Lun → Lun) (s : State) : (setLun k f s).sfe = s.sfe := rfl
@[simp] theorem setLun_trg (k : Nat) (f : Lun → Lun) (s : State) : (setLun k f s).trg = s.trg := rfl
@[simp] theorem setLun_pci (k : Nat) (f : Lun → Lun) (s : State) : (setLun k f s).pci = s.pci := rfl
@[simp] theorem setLun_sec (k : Nat) (f : Lun → Lun) (s : State) : (setLun k f s).sec = s.sec := rfl
@[simp] theorem setLun_pwr (k : Nat) (f : Lun → Lun) (s : State) : (setLun k f s).pwr = s.pwr := rfl
@[simp] theorem setLun_boot (k : Nat) (f : Lun → Lun) (s : State) : (setLun k f s).boot = s.boot := rfl
@[simp] theorem setLun_fuses (k : Nat) (f : Lun → Lun) (s : State) : (setLun k f s).fuses = s.fuses := rfl
@[simp] theorem setLun_pins (k : Nat) (f : Lun → Lun) (s : State) : (setLun k f s).pins = s.pins := rfl
@[simp] theorem setLun_timer (k : Nat) (f : Lun → Lun) (s : State) : (setLun k f s).timer = s.timer := rfl
@[simp] theorem setLun_free (k : Nat) (f : Lun → Lun) (s : State) : (setLun k f s).free = s.free := rfl
@[simp] theorem setLun_pending (k : Nat) (f : Lun → Lun) (s : State) : (setLun k f s).pending = s.pending := rfl
@[simp] theorem setLun_core (k : Nat) (f : Lun → Lun) (s : State) (x : Nat) : (setLun k f s).core x = s.core x := rfl
@[simp] theorem setLun_run (k : Nat) (f : Lun → Lun) (s : State) (x : Nat) : (setLun k f s).run x = s.run x := rfl
@[simp] theorem setLun_func (k : Nat) (f : Lun → Lun) (s : State) (x : Nat) : (setLun k f s).func x = s.func x := rfl
@[simp] theorem setLun_queue (k : Nat) (f : Lun → Lun) (s : State) (x y : Nat) : (setLun k f s).queue x y = s.queue x y := rfl
@[simp] theorem setLun_dom (k : Nat) (f : Lun → Lun) (s : State) (x : Nat) : (setLun k f s).dom x = s.dom x := rfl
@[simp] theorem setLun_tenant (k : Nat) (f : Lun → Lun) (s : State) (x : Nat) : (setLun k f s).tenant x = s.tenant x := rfl
@[simp] theorem setLun_job (k : Nat) (f : Lun → Lun) (s : State) (x : Nat) : (setLun k f s).job x = s.job x := rfl
@[simp] theorem setLun_tsec (k : Nat) (f : Lun → Lun) (s : State) (x : Nat) : (setLun k f s).tsec x = s.tsec x := rfl
@[simp] theorem setLun_ctx (k : Nat) (f : Lun → Lun) (s : State) (x : Nat) : (setLun k f s).ctx x = s.ctx x := rfl
@[simp] theorem setLun_region (k : Nat) (f : Lun → Lun) (s : State) (x : Nat) : (setLun k f s).region x = s.region x := rfl

/-! ### `setCmd` writes `flt` -/

@[simp] theorem setCmd_cores (n : Nat) (f : FlashCmd → FlashCmd) (s : State) : (setCmd n f s).cores = s.cores := rfl
@[simp] theorem setCmd_fences (n : Nat) (f : FlashCmd → FlashCmd) (s : State) : (setCmd n f s).fences = s.fences := rfl
@[simp] theorem setCmd_bridges (n : Nat) (f : FlashCmd → FlashCmd) (s : State) : (setCmd n f s).bridges = s.bridges := rfl
@[simp] theorem setCmd_audit (n : Nat) (f : FlashCmd → FlashCmd) (s : State) : (setCmd n f s).audit = s.audit := rfl
@[simp] theorem setCmd_gdl (n : Nat) (f : FlashCmd → FlashCmd) (s : State) : (setCmd n f s).gdl = s.gdl := rfl
@[simp] theorem setCmd_ddr (n : Nat) (f : FlashCmd → FlashCmd) (s : State) : (setCmd n f s).ddr = s.ddr := rfl
@[simp] theorem setCmd_efl (n : Nat) (f : FlashCmd → FlashCmd) (s : State) : (setCmd n f s).efl = s.efl := rfl
@[simp] theorem setCmd_lfl (n : Nat) (f : FlashCmd → FlashCmd) (s : State) : (setCmd n f s).lfl = s.lfl := rfl
@[simp] theorem setCmd_sfe (n : Nat) (f : FlashCmd → FlashCmd) (s : State) : (setCmd n f s).sfe = s.sfe := rfl
@[simp] theorem setCmd_trg (n : Nat) (f : FlashCmd → FlashCmd) (s : State) : (setCmd n f s).trg = s.trg := rfl
@[simp] theorem setCmd_pci (n : Nat) (f : FlashCmd → FlashCmd) (s : State) : (setCmd n f s).pci = s.pci := rfl
@[simp] theorem setCmd_sec (n : Nat) (f : FlashCmd → FlashCmd) (s : State) : (setCmd n f s).sec = s.sec := rfl
@[simp] theorem setCmd_pwr (n : Nat) (f : FlashCmd → FlashCmd) (s : State) : (setCmd n f s).pwr = s.pwr := rfl
@[simp] theorem setCmd_boot (n : Nat) (f : FlashCmd → FlashCmd) (s : State) : (setCmd n f s).boot = s.boot := rfl
@[simp] theorem setCmd_fuses (n : Nat) (f : FlashCmd → FlashCmd) (s : State) : (setCmd n f s).fuses = s.fuses := rfl
@[simp] theorem setCmd_pins (n : Nat) (f : FlashCmd → FlashCmd) (s : State) : (setCmd n f s).pins = s.pins := rfl
@[simp] theorem setCmd_timer (n : Nat) (f : FlashCmd → FlashCmd) (s : State) : (setCmd n f s).timer = s.timer := rfl
@[simp] theorem setCmd_free (n : Nat) (f : FlashCmd → FlashCmd) (s : State) : (setCmd n f s).free = s.free := rfl
@[simp] theorem setCmd_pending (n : Nat) (f : FlashCmd → FlashCmd) (s : State) : (setCmd n f s).pending = s.pending := rfl
@[simp] theorem setCmd_core (n : Nat) (f : FlashCmd → FlashCmd) (s : State) (x : Nat) : (setCmd n f s).core x = s.core x := rfl
@[simp] theorem setCmd_run (n : Nat) (f : FlashCmd → FlashCmd) (s : State) (x : Nat) : (setCmd n f s).run x = s.run x := rfl
@[simp] theorem setCmd_func (n : Nat) (f : FlashCmd → FlashCmd) (s : State) (x : Nat) : (setCmd n f s).func x = s.func x := rfl
@[simp] theorem setCmd_queue (n : Nat) (f : FlashCmd → FlashCmd) (s : State) (x y : Nat) : (setCmd n f s).queue x y = s.queue x y := rfl
@[simp] theorem setCmd_dom (n : Nat) (f : FlashCmd → FlashCmd) (s : State) (x : Nat) : (setCmd n f s).dom x = s.dom x := rfl
@[simp] theorem setCmd_tenant (n : Nat) (f : FlashCmd → FlashCmd) (s : State) (x : Nat) : (setCmd n f s).tenant x = s.tenant x := rfl
@[simp] theorem setCmd_job (n : Nat) (f : FlashCmd → FlashCmd) (s : State) (x : Nat) : (setCmd n f s).job x = s.job x := rfl
@[simp] theorem setCmd_tsec (n : Nat) (f : FlashCmd → FlashCmd) (s : State) (x : Nat) : (setCmd n f s).tsec x = s.tsec x := rfl
@[simp] theorem setCmd_ctx (n : Nat) (f : FlashCmd → FlashCmd) (s : State) (x : Nat) : (setCmd n f s).ctx x = s.ctx x := rfl
@[simp] theorem setCmd_region (n : Nat) (f : FlashCmd → FlashCmd) (s : State) (x : Nat) : (setCmd n f s).region x = s.region x := rfl

/-! ### `setIngest` writes `lfl` -/

@[simp] theorem setIngest_cores (n : Nat) (f : Ingest → Ingest) (s : State) : (setIngest n f s).cores = s.cores := rfl
@[simp] theorem setIngest_fences (n : Nat) (f : Ingest → Ingest) (s : State) : (setIngest n f s).fences = s.fences := rfl
@[simp] theorem setIngest_bridges (n : Nat) (f : Ingest → Ingest) (s : State) : (setIngest n f s).bridges = s.bridges := rfl
@[simp] theorem setIngest_audit (n : Nat) (f : Ingest → Ingest) (s : State) : (setIngest n f s).audit = s.audit := rfl
@[simp] theorem setIngest_gdl (n : Nat) (f : Ingest → Ingest) (s : State) : (setIngest n f s).gdl = s.gdl := rfl
@[simp] theorem setIngest_ddr (n : Nat) (f : Ingest → Ingest) (s : State) : (setIngest n f s).ddr = s.ddr := rfl
@[simp] theorem setIngest_flt (n : Nat) (f : Ingest → Ingest) (s : State) : (setIngest n f s).flt = s.flt := rfl
@[simp] theorem setIngest_efl (n : Nat) (f : Ingest → Ingest) (s : State) : (setIngest n f s).efl = s.efl := rfl
@[simp] theorem setIngest_sfe (n : Nat) (f : Ingest → Ingest) (s : State) : (setIngest n f s).sfe = s.sfe := rfl
@[simp] theorem setIngest_trg (n : Nat) (f : Ingest → Ingest) (s : State) : (setIngest n f s).trg = s.trg := rfl
@[simp] theorem setIngest_pci (n : Nat) (f : Ingest → Ingest) (s : State) : (setIngest n f s).pci = s.pci := rfl
@[simp] theorem setIngest_sec (n : Nat) (f : Ingest → Ingest) (s : State) : (setIngest n f s).sec = s.sec := rfl
@[simp] theorem setIngest_pwr (n : Nat) (f : Ingest → Ingest) (s : State) : (setIngest n f s).pwr = s.pwr := rfl
@[simp] theorem setIngest_boot (n : Nat) (f : Ingest → Ingest) (s : State) : (setIngest n f s).boot = s.boot := rfl
@[simp] theorem setIngest_fuses (n : Nat) (f : Ingest → Ingest) (s : State) : (setIngest n f s).fuses = s.fuses := rfl
@[simp] theorem setIngest_pins (n : Nat) (f : Ingest → Ingest) (s : State) : (setIngest n f s).pins = s.pins := rfl
@[simp] theorem setIngest_timer (n : Nat) (f : Ingest → Ingest) (s : State) : (setIngest n f s).timer = s.timer := rfl
@[simp] theorem setIngest_free (n : Nat) (f : Ingest → Ingest) (s : State) : (setIngest n f s).free = s.free := rfl
@[simp] theorem setIngest_pending (n : Nat) (f : Ingest → Ingest) (s : State) : (setIngest n f s).pending = s.pending := rfl
@[simp] theorem setIngest_core (n : Nat) (f : Ingest → Ingest) (s : State) (x : Nat) : (setIngest n f s).core x = s.core x := rfl
@[simp] theorem setIngest_run (n : Nat) (f : Ingest → Ingest) (s : State) (x : Nat) : (setIngest n f s).run x = s.run x := rfl
@[simp] theorem setIngest_func (n : Nat) (f : Ingest → Ingest) (s : State) (x : Nat) : (setIngest n f s).func x = s.func x := rfl
@[simp] theorem setIngest_queue (n : Nat) (f : Ingest → Ingest) (s : State) (x y : Nat) : (setIngest n f s).queue x y = s.queue x y := rfl
@[simp] theorem setIngest_dom (n : Nat) (f : Ingest → Ingest) (s : State) (x : Nat) : (setIngest n f s).dom x = s.dom x := rfl
@[simp] theorem setIngest_tsec (n : Nat) (f : Ingest → Ingest) (s : State) (x : Nat) : (setIngest n f s).tsec x = s.tsec x := rfl
@[simp] theorem setIngest_ctx (n : Nat) (f : Ingest → Ingest) (s : State) (x : Nat) : (setIngest n f s).ctx x = s.ctx x := rfl
@[simp] theorem setIngest_region (n : Nat) (f : Ingest → Ingest) (s : State) (x : Nat) : (setIngest n f s).region x = s.region x := rfl

/-! ### `setChan` writes `ddr` -/

@[simp] theorem setChan_cores (c : Nat) (f : Channel → Channel) (s : State) : (setChan c f s).cores = s.cores := rfl
@[simp] theorem setChan_fences (c : Nat) (f : Channel → Channel) (s : State) : (setChan c f s).fences = s.fences := rfl
@[simp] theorem setChan_bridges (c : Nat) (f : Channel → Channel) (s : State) : (setChan c f s).bridges = s.bridges := rfl
@[simp] theorem setChan_audit (c : Nat) (f : Channel → Channel) (s : State) : (setChan c f s).audit = s.audit := rfl
@[simp] theorem setChan_gdl (c : Nat) (f : Channel → Channel) (s : State) : (setChan c f s).gdl = s.gdl := rfl
@[simp] theorem setChan_flt (c : Nat) (f : Channel → Channel) (s : State) : (setChan c f s).flt = s.flt := rfl
@[simp] theorem setChan_efl (c : Nat) (f : Channel → Channel) (s : State) : (setChan c f s).efl = s.efl := rfl
@[simp] theorem setChan_lfl (c : Nat) (f : Channel → Channel) (s : State) : (setChan c f s).lfl = s.lfl := rfl
@[simp] theorem setChan_sfe (c : Nat) (f : Channel → Channel) (s : State) : (setChan c f s).sfe = s.sfe := rfl
@[simp] theorem setChan_trg (c : Nat) (f : Channel → Channel) (s : State) : (setChan c f s).trg = s.trg := rfl
@[simp] theorem setChan_pci (c : Nat) (f : Channel → Channel) (s : State) : (setChan c f s).pci = s.pci := rfl
@[simp] theorem setChan_sec (c : Nat) (f : Channel → Channel) (s : State) : (setChan c f s).sec = s.sec := rfl
@[simp] theorem setChan_pwr (c : Nat) (f : Channel → Channel) (s : State) : (setChan c f s).pwr = s.pwr := rfl
@[simp] theorem setChan_boot (c : Nat) (f : Channel → Channel) (s : State) : (setChan c f s).boot = s.boot := rfl
@[simp] theorem setChan_fuses (c : Nat) (f : Channel → Channel) (s : State) : (setChan c f s).fuses = s.fuses := rfl
@[simp] theorem setChan_pins (c : Nat) (f : Channel → Channel) (s : State) : (setChan c f s).pins = s.pins := rfl
@[simp] theorem setChan_timer (c : Nat) (f : Channel → Channel) (s : State) : (setChan c f s).timer = s.timer := rfl
@[simp] theorem setChan_free (c : Nat) (f : Channel → Channel) (s : State) : (setChan c f s).free = s.free := rfl
@[simp] theorem setChan_pending (c : Nat) (f : Channel → Channel) (s : State) : (setChan c f s).pending = s.pending := rfl
@[simp] theorem setChan_core (c : Nat) (f : Channel → Channel) (s : State) (x : Nat) : (setChan c f s).core x = s.core x := rfl
@[simp] theorem setChan_run (c : Nat) (f : Channel → Channel) (s : State) (x : Nat) : (setChan c f s).run x = s.run x := rfl
@[simp] theorem setChan_func (c : Nat) (f : Channel → Channel) (s : State) (x : Nat) : (setChan c f s).func x = s.func x := rfl
@[simp] theorem setChan_queue (c : Nat) (f : Channel → Channel) (s : State) (x y : Nat) : (setChan c f s).queue x y = s.queue x y := rfl
@[simp] theorem setChan_dom (c : Nat) (f : Channel → Channel) (s : State) (x : Nat) : (setChan c f s).dom x = s.dom x := rfl
@[simp] theorem setChan_tenant (c : Nat) (f : Channel → Channel) (s : State) (x : Nat) : (setChan c f s).tenant x = s.tenant x := rfl
@[simp] theorem setChan_job (c : Nat) (f : Channel → Channel) (s : State) (x : Nat) : (setChan c f s).job x = s.job x := rfl
@[simp] theorem setChan_tsec (c : Nat) (f : Channel → Channel) (s : State) (x : Nat) : (setChan c f s).tsec x = s.tsec x := rfl
@[simp] theorem setChan_ctx (c : Nat) (f : Channel → Channel) (s : State) (x : Nat) : (setChan c f s).ctx x = s.ctx x := rfl
@[simp] theorem setChan_region (c : Nat) (f : Channel → Channel) (s : State) (x : Nat) : (setChan c f s).region x = s.region x := rfl

/-! ### `setPort` writes `ddr` -/

@[simp] theorem setPort_cores (p : Nat) (f : Port → Port) (s : State) : (setPort p f s).cores = s.cores := rfl
@[simp] theorem setPort_fences (p : Nat) (f : Port → Port) (s : State) : (setPort p f s).fences = s.fences := rfl
@[simp] theorem setPort_bridges (p : Nat) (f : Port → Port) (s : State) : (setPort p f s).bridges = s.bridges := rfl
@[simp] theorem setPort_audit (p : Nat) (f : Port → Port) (s : State) : (setPort p f s).audit = s.audit := rfl
@[simp] theorem setPort_gdl (p : Nat) (f : Port → Port) (s : State) : (setPort p f s).gdl = s.gdl := rfl
@[simp] theorem setPort_flt (p : Nat) (f : Port → Port) (s : State) : (setPort p f s).flt = s.flt := rfl
@[simp] theorem setPort_efl (p : Nat) (f : Port → Port) (s : State) : (setPort p f s).efl = s.efl := rfl
@[simp] theorem setPort_lfl (p : Nat) (f : Port → Port) (s : State) : (setPort p f s).lfl = s.lfl := rfl
@[simp] theorem setPort_sfe (p : Nat) (f : Port → Port) (s : State) : (setPort p f s).sfe = s.sfe := rfl
@[simp] theorem setPort_trg (p : Nat) (f : Port → Port) (s : State) : (setPort p f s).trg = s.trg := rfl
@[simp] theorem setPort_pci (p : Nat) (f : Port → Port) (s : State) : (setPort p f s).pci = s.pci := rfl
@[simp] theorem setPort_sec (p : Nat) (f : Port → Port) (s : State) : (setPort p f s).sec = s.sec := rfl
@[simp] theorem setPort_pwr (p : Nat) (f : Port → Port) (s : State) : (setPort p f s).pwr = s.pwr := rfl
@[simp] theorem setPort_boot (p : Nat) (f : Port → Port) (s : State) : (setPort p f s).boot = s.boot := rfl
@[simp] theorem setPort_fuses (p : Nat) (f : Port → Port) (s : State) : (setPort p f s).fuses = s.fuses := rfl
@[simp] theorem setPort_pins (p : Nat) (f : Port → Port) (s : State) : (setPort p f s).pins = s.pins := rfl
@[simp] theorem setPort_timer (p : Nat) (f : Port → Port) (s : State) : (setPort p f s).timer = s.timer := rfl
@[simp] theorem setPort_free (p : Nat) (f : Port → Port) (s : State) : (setPort p f s).free = s.free := rfl
@[simp] theorem setPort_pending (p : Nat) (f : Port → Port) (s : State) : (setPort p f s).pending = s.pending := rfl
@[simp] theorem setPort_core (p : Nat) (f : Port → Port) (s : State) (x : Nat) : (setPort p f s).core x = s.core x := rfl
@[simp] theorem setPort_run (p : Nat) (f : Port → Port) (s : State) (x : Nat) : (setPort p f s).run x = s.run x := rfl
@[simp] theorem setPort_func (p : Nat) (f : Port → Port) (s : State) (x : Nat) : (setPort p f s).func x = s.func x := rfl
@[simp] theorem setPort_queue (p : Nat) (f : Port → Port) (s : State) (x y : Nat) : (setPort p f s).queue x y = s.queue x y := rfl
@[simp] theorem setPort_dom (p : Nat) (f : Port → Port) (s : State) (x : Nat) : (setPort p f s).dom x = s.dom x := rfl
@[simp] theorem setPort_tenant (p : Nat) (f : Port → Port) (s : State) (x : Nat) : (setPort p f s).tenant x = s.tenant x := rfl
@[simp] theorem setPort_job (p : Nat) (f : Port → Port) (s : State) (x : Nat) : (setPort p f s).job x = s.job x := rfl
@[simp] theorem setPort_tsec (p : Nat) (f : Port → Port) (s : State) (x : Nat) : (setPort p f s).tsec x = s.tsec x := rfl
@[simp] theorem setPort_ctx (p : Nat) (f : Port → Port) (s : State) (x : Nat) : (setPort p f s).ctx x = s.ctx x := rfl
@[simp] theorem setPort_region (p : Nat) (f : Port → Port) (s : State) (x : Nat) : (setPort p f s).region x = s.region x := rfl

/-! ### `setAcct` writes `ddr` -/

@[simp] theorem setAcct_cores (p a : Nat) (f : Account → Account) (s : State) : (setAcct p a f s).cores = s.cores := rfl
@[simp] theorem setAcct_fences (p a : Nat) (f : Account → Account) (s : State) : (setAcct p a f s).fences = s.fences := rfl
@[simp] theorem setAcct_bridges (p a : Nat) (f : Account → Account) (s : State) : (setAcct p a f s).bridges = s.bridges := rfl
@[simp] theorem setAcct_audit (p a : Nat) (f : Account → Account) (s : State) : (setAcct p a f s).audit = s.audit := rfl
@[simp] theorem setAcct_gdl (p a : Nat) (f : Account → Account) (s : State) : (setAcct p a f s).gdl = s.gdl := rfl
@[simp] theorem setAcct_flt (p a : Nat) (f : Account → Account) (s : State) : (setAcct p a f s).flt = s.flt := rfl
@[simp] theorem setAcct_efl (p a : Nat) (f : Account → Account) (s : State) : (setAcct p a f s).efl = s.efl := rfl
@[simp] theorem setAcct_lfl (p a : Nat) (f : Account → Account) (s : State) : (setAcct p a f s).lfl = s.lfl := rfl
@[simp] theorem setAcct_sfe (p a : Nat) (f : Account → Account) (s : State) : (setAcct p a f s).sfe = s.sfe := rfl
@[simp] theorem setAcct_trg (p a : Nat) (f : Account → Account) (s : State) : (setAcct p a f s).trg = s.trg := rfl
@[simp] theorem setAcct_pci (p a : Nat) (f : Account → Account) (s : State) : (setAcct p a f s).pci = s.pci := rfl
@[simp] theorem setAcct_sec (p a : Nat) (f : Account → Account) (s : State) : (setAcct p a f s).sec = s.sec := rfl
@[simp] theorem setAcct_pwr (p a : Nat) (f : Account → Account) (s : State) : (setAcct p a f s).pwr = s.pwr := rfl
@[simp] theorem setAcct_boot (p a : Nat) (f : Account → Account) (s : State) : (setAcct p a f s).boot = s.boot := rfl
@[simp] theorem setAcct_fuses (p a : Nat) (f : Account → Account) (s : State) : (setAcct p a f s).fuses = s.fuses := rfl
@[simp] theorem setAcct_pins (p a : Nat) (f : Account → Account) (s : State) : (setAcct p a f s).pins = s.pins := rfl
@[simp] theorem setAcct_timer (p a : Nat) (f : Account → Account) (s : State) : (setAcct p a f s).timer = s.timer := rfl
@[simp] theorem setAcct_free (p a : Nat) (f : Account → Account) (s : State) : (setAcct p a f s).free = s.free := rfl
@[simp] theorem setAcct_pending (p a : Nat) (f : Account → Account) (s : State) : (setAcct p a f s).pending = s.pending := rfl
@[simp] theorem setAcct_core (p a : Nat) (f : Account → Account) (s : State) (x : Nat) : (setAcct p a f s).core x = s.core x := rfl
@[simp] theorem setAcct_run (p a : Nat) (f : Account → Account) (s : State) (x : Nat) : (setAcct p a f s).run x = s.run x := rfl
@[simp] theorem setAcct_func (p a : Nat) (f : Account → Account) (s : State) (x : Nat) : (setAcct p a f s).func x = s.func x := rfl
@[simp] theorem setAcct_queue (p a : Nat) (f : Account → Account) (s : State) (x y : Nat) : (setAcct p a f s).queue x y = s.queue x y := rfl
@[simp] theorem setAcct_dom (p a : Nat) (f : Account → Account) (s : State) (x : Nat) : (setAcct p a f s).dom x = s.dom x := rfl
@[simp] theorem setAcct_tenant (p a : Nat) (f : Account → Account) (s : State) (x : Nat) : (setAcct p a f s).tenant x = s.tenant x := rfl
@[simp] theorem setAcct_job (p a : Nat) (f : Account → Account) (s : State) (x : Nat) : (setAcct p a f s).job x = s.job x := rfl
@[simp] theorem setAcct_tsec (p a : Nat) (f : Account → Account) (s : State) (x : Nat) : (setAcct p a f s).tsec x = s.tsec x := rfl
@[simp] theorem setAcct_ctx (p a : Nat) (f : Account → Account) (s : State) (x : Nat) : (setAcct p a f s).ctx x = s.ctx x := rfl
@[simp] theorem setAcct_region (p a : Nat) (f : Account → Account) (s : State) (x : Nat) : (setAcct p a f s).region x = s.region x := rfl

/-! ### `setWindow` writes `pci` -/

@[simp] theorem setWindow_cores (f w : Nat) (g : Window → Window) (s : State) : (setWindow f w g s).cores = s.cores := rfl
@[simp] theorem setWindow_fences (f w : Nat) (g : Window → Window) (s : State) : (setWindow f w g s).fences = s.fences := rfl
@[simp] theorem setWindow_bridges (f w : Nat) (g : Window → Window) (s : State) : (setWindow f w g s).bridges = s.bridges := rfl
@[simp] theorem setWindow_audit (f w : Nat) (g : Window → Window) (s : State) : (setWindow f w g s).audit = s.audit := rfl
@[simp] theorem setWindow_gdl (f w : Nat) (g : Window → Window) (s : State) : (setWindow f w g s).gdl = s.gdl := rfl
@[simp] theorem setWindow_ddr (f w : Nat) (g : Window → Window) (s : State) : (setWindow f w g s).ddr = s.ddr := rfl
@[simp] theorem setWindow_flt (f w : Nat) (g : Window → Window) (s : State) : (setWindow f w g s).flt = s.flt := rfl
@[simp] theorem setWindow_efl (f w : Nat) (g : Window → Window) (s : State) : (setWindow f w g s).efl = s.efl := rfl
@[simp] theorem setWindow_lfl (f w : Nat) (g : Window → Window) (s : State) : (setWindow f w g s).lfl = s.lfl := rfl
@[simp] theorem setWindow_sfe (f w : Nat) (g : Window → Window) (s : State) : (setWindow f w g s).sfe = s.sfe := rfl
@[simp] theorem setWindow_trg (f w : Nat) (g : Window → Window) (s : State) : (setWindow f w g s).trg = s.trg := rfl
@[simp] theorem setWindow_sec (f w : Nat) (g : Window → Window) (s : State) : (setWindow f w g s).sec = s.sec := rfl
@[simp] theorem setWindow_pwr (f w : Nat) (g : Window → Window) (s : State) : (setWindow f w g s).pwr = s.pwr := rfl
@[simp] theorem setWindow_boot (f w : Nat) (g : Window → Window) (s : State) : (setWindow f w g s).boot = s.boot := rfl
@[simp] theorem setWindow_fuses (f w : Nat) (g : Window → Window) (s : State) : (setWindow f w g s).fuses = s.fuses := rfl
@[simp] theorem setWindow_pins (f w : Nat) (g : Window → Window) (s : State) : (setWindow f w g s).pins = s.pins := rfl
@[simp] theorem setWindow_timer (f w : Nat) (g : Window → Window) (s : State) : (setWindow f w g s).timer = s.timer := rfl
@[simp] theorem setWindow_free (f w : Nat) (g : Window → Window) (s : State) : (setWindow f w g s).free = s.free := rfl
@[simp] theorem setWindow_pending (f w : Nat) (g : Window → Window) (s : State) : (setWindow f w g s).pending = s.pending := rfl
@[simp] theorem setWindow_core (f w : Nat) (g : Window → Window) (s : State) (x : Nat) : (setWindow f w g s).core x = s.core x := rfl
@[simp] theorem setWindow_run (f w : Nat) (g : Window → Window) (s : State) (x : Nat) : (setWindow f w g s).run x = s.run x := rfl
@[simp] theorem setWindow_dom (f w : Nat) (g : Window → Window) (s : State) (x : Nat) : (setWindow f w g s).dom x = s.dom x := rfl
@[simp] theorem setWindow_tenant (f w : Nat) (g : Window → Window) (s : State) (x : Nat) : (setWindow f w g s).tenant x = s.tenant x := rfl
@[simp] theorem setWindow_job (f w : Nat) (g : Window → Window) (s : State) (x : Nat) : (setWindow f w g s).job x = s.job x := rfl
@[simp] theorem setWindow_tsec (f w : Nat) (g : Window → Window) (s : State) (x : Nat) : (setWindow f w g s).tsec x = s.tsec x := rfl
@[simp] theorem setWindow_ctx (f w : Nat) (g : Window → Window) (s : State) (x : Nat) : (setWindow f w g s).ctx x = s.ctx x := rfl
@[simp] theorem setWindow_region (f w : Nat) (g : Window → Window) (s : State) (x : Nat) : (setWindow f w g s).region x = s.region x := rfl

/-! ### `setCsiPort` writes `sfe` -/

@[simp] theorem setCsiPort_cores (p : Nat) (f : CsiPort → CsiPort) (s : State) : (setCsiPort p f s).cores = s.cores := rfl
@[simp] theorem setCsiPort_fences (p : Nat) (f : CsiPort → CsiPort) (s : State) : (setCsiPort p f s).fences = s.fences := rfl
@[simp] theorem setCsiPort_bridges (p : Nat) (f : CsiPort → CsiPort) (s : State) : (setCsiPort p f s).bridges = s.bridges := rfl
@[simp] theorem setCsiPort_audit (p : Nat) (f : CsiPort → CsiPort) (s : State) : (setCsiPort p f s).audit = s.audit := rfl
@[simp] theorem setCsiPort_gdl (p : Nat) (f : CsiPort → CsiPort) (s : State) : (setCsiPort p f s).gdl = s.gdl := rfl
@[simp] theorem setCsiPort_ddr (p : Nat) (f : CsiPort → CsiPort) (s : State) : (setCsiPort p f s).ddr = s.ddr := rfl
@[simp] theorem setCsiPort_flt (p : Nat) (f : CsiPort → CsiPort) (s : State) : (setCsiPort p f s).flt = s.flt := rfl
@[simp] theorem setCsiPort_efl (p : Nat) (f : CsiPort → CsiPort) (s : State) : (setCsiPort p f s).efl = s.efl := rfl
@[simp] theorem setCsiPort_lfl (p : Nat) (f : CsiPort → CsiPort) (s : State) : (setCsiPort p f s).lfl = s.lfl := rfl
@[simp] theorem setCsiPort_trg (p : Nat) (f : CsiPort → CsiPort) (s : State) : (setCsiPort p f s).trg = s.trg := rfl
@[simp] theorem setCsiPort_pci (p : Nat) (f : CsiPort → CsiPort) (s : State) : (setCsiPort p f s).pci = s.pci := rfl
@[simp] theorem setCsiPort_sec (p : Nat) (f : CsiPort → CsiPort) (s : State) : (setCsiPort p f s).sec = s.sec := rfl
@[simp] theorem setCsiPort_pwr (p : Nat) (f : CsiPort → CsiPort) (s : State) : (setCsiPort p f s).pwr = s.pwr := rfl
@[simp] theorem setCsiPort_boot (p : Nat) (f : CsiPort → CsiPort) (s : State) : (setCsiPort p f s).boot = s.boot := rfl
@[simp] theorem setCsiPort_fuses (p : Nat) (f : CsiPort → CsiPort) (s : State) : (setCsiPort p f s).fuses = s.fuses := rfl
@[simp] theorem setCsiPort_pins (p : Nat) (f : CsiPort → CsiPort) (s : State) : (setCsiPort p f s).pins = s.pins := rfl
@[simp] theorem setCsiPort_timer (p : Nat) (f : CsiPort → CsiPort) (s : State) : (setCsiPort p f s).timer = s.timer := rfl
@[simp] theorem setCsiPort_free (p : Nat) (f : CsiPort → CsiPort) (s : State) : (setCsiPort p f s).free = s.free := rfl
@[simp] theorem setCsiPort_pending (p : Nat) (f : CsiPort → CsiPort) (s : State) : (setCsiPort p f s).pending = s.pending := rfl
@[simp] theorem setCsiPort_core (p : Nat) (f : CsiPort → CsiPort) (s : State) (x : Nat) : (setCsiPort p f s).core x = s.core x := rfl
@[simp] theorem setCsiPort_run (p : Nat) (f : CsiPort → CsiPort) (s : State) (x : Nat) : (setCsiPort p f s).run x = s.run x := rfl
@[simp] theorem setCsiPort_func (p : Nat) (f : CsiPort → CsiPort) (s : State) (x : Nat) : (setCsiPort p f s).func x = s.func x := rfl
@[simp] theorem setCsiPort_queue (p : Nat) (f : CsiPort → CsiPort) (s : State) (x y : Nat) : (setCsiPort p f s).queue x y = s.queue x y := rfl
@[simp] theorem setCsiPort_dom (p : Nat) (f : CsiPort → CsiPort) (s : State) (x : Nat) : (setCsiPort p f s).dom x = s.dom x := rfl
@[simp] theorem setCsiPort_tenant (p : Nat) (f : CsiPort → CsiPort) (s : State) (x : Nat) : (setCsiPort p f s).tenant x = s.tenant x := rfl
@[simp] theorem setCsiPort_job (p : Nat) (f : CsiPort → CsiPort) (s : State) (x : Nat) : (setCsiPort p f s).job x = s.job x := rfl
@[simp] theorem setCsiPort_tsec (p : Nat) (f : CsiPort → CsiPort) (s : State) (x : Nat) : (setCsiPort p f s).tsec x = s.tsec x := rfl
@[simp] theorem setCsiPort_region (p : Nat) (f : CsiPort → CsiPort) (s : State) (x : Nat) : (setCsiPort p f s).region x = s.region x := rfl

/-! ### `setCsiFrame` writes `sfe` -/

@[simp] theorem setCsiFrame_cores (i : Nat) (f : CsiFrame → CsiFrame) (s : State) : (setCsiFrame i f s).cores = s.cores := rfl
@[simp] theorem setCsiFrame_fences (i : Nat) (f : CsiFrame → CsiFrame) (s : State) : (setCsiFrame i f s).fences = s.fences := rfl
@[simp] theorem setCsiFrame_bridges (i : Nat) (f : CsiFrame → CsiFrame) (s : State) : (setCsiFrame i f s).bridges = s.bridges := rfl
@[simp] theorem setCsiFrame_audit (i : Nat) (f : CsiFrame → CsiFrame) (s : State) : (setCsiFrame i f s).audit = s.audit := rfl
@[simp] theorem setCsiFrame_gdl (i : Nat) (f : CsiFrame → CsiFrame) (s : State) : (setCsiFrame i f s).gdl = s.gdl := rfl
@[simp] theorem setCsiFrame_ddr (i : Nat) (f : CsiFrame → CsiFrame) (s : State) : (setCsiFrame i f s).ddr = s.ddr := rfl
@[simp] theorem setCsiFrame_flt (i : Nat) (f : CsiFrame → CsiFrame) (s : State) : (setCsiFrame i f s).flt = s.flt := rfl
@[simp] theorem setCsiFrame_efl (i : Nat) (f : CsiFrame → CsiFrame) (s : State) : (setCsiFrame i f s).efl = s.efl := rfl
@[simp] theorem setCsiFrame_lfl (i : Nat) (f : CsiFrame → CsiFrame) (s : State) : (setCsiFrame i f s).lfl = s.lfl := rfl
@[simp] theorem setCsiFrame_trg (i : Nat) (f : CsiFrame → CsiFrame) (s : State) : (setCsiFrame i f s).trg = s.trg := rfl
@[simp] theorem setCsiFrame_pci (i : Nat) (f : CsiFrame → CsiFrame) (s : State) : (setCsiFrame i f s).pci = s.pci := rfl
@[simp] theorem setCsiFrame_sec (i : Nat) (f : CsiFrame → CsiFrame) (s : State) : (setCsiFrame i f s).sec = s.sec := rfl
@[simp] theorem setCsiFrame_pwr (i : Nat) (f : CsiFrame → CsiFrame) (s : State) : (setCsiFrame i f s).pwr = s.pwr := rfl
@[simp] theorem setCsiFrame_boot (i : Nat) (f : CsiFrame → CsiFrame) (s : State) : (setCsiFrame i f s).boot = s.boot := rfl
@[simp] theorem setCsiFrame_fuses (i : Nat) (f : CsiFrame → CsiFrame) (s : State) : (setCsiFrame i f s).fuses = s.fuses := rfl
@[simp] theorem setCsiFrame_pins (i : Nat) (f : CsiFrame → CsiFrame) (s : State) : (setCsiFrame i f s).pins = s.pins := rfl
@[simp] theorem setCsiFrame_timer (i : Nat) (f : CsiFrame → CsiFrame) (s : State) : (setCsiFrame i f s).timer = s.timer := rfl
@[simp] theorem setCsiFrame_free (i : Nat) (f : CsiFrame → CsiFrame) (s : State) : (setCsiFrame i f s).free = s.free := rfl
@[simp] theorem setCsiFrame_pending (i : Nat) (f : CsiFrame → CsiFrame) (s : State) : (setCsiFrame i f s).pending = s.pending := rfl
@[simp] theorem setCsiFrame_core (i : Nat) (f : CsiFrame → CsiFrame) (s : State) (x : Nat) : (setCsiFrame i f s).core x = s.core x := rfl
@[simp] theorem setCsiFrame_run (i : Nat) (f : CsiFrame → CsiFrame) (s : State) (x : Nat) : (setCsiFrame i f s).run x = s.run x := rfl
@[simp] theorem setCsiFrame_func (i : Nat) (f : CsiFrame → CsiFrame) (s : State) (x : Nat) : (setCsiFrame i f s).func x = s.func x := rfl
@[simp] theorem setCsiFrame_queue (i : Nat) (f : CsiFrame → CsiFrame) (s : State) (x y : Nat) : (setCsiFrame i f s).queue x y = s.queue x y := rfl
@[simp] theorem setCsiFrame_dom (i : Nat) (f : CsiFrame → CsiFrame) (s : State) (x : Nat) : (setCsiFrame i f s).dom x = s.dom x := rfl
@[simp] theorem setCsiFrame_tenant (i : Nat) (f : CsiFrame → CsiFrame) (s : State) (x : Nat) : (setCsiFrame i f s).tenant x = s.tenant x := rfl
@[simp] theorem setCsiFrame_job (i : Nat) (f : CsiFrame → CsiFrame) (s : State) (x : Nat) : (setCsiFrame i f s).job x = s.job x := rfl
@[simp] theorem setCsiFrame_tsec (i : Nat) (f : CsiFrame → CsiFrame) (s : State) (x : Nat) : (setCsiFrame i f s).tsec x = s.tsec x := rfl
@[simp] theorem setCsiFrame_region (i : Nat) (f : CsiFrame → CsiFrame) (s : State) (x : Nat) : (setCsiFrame i f s).region x = s.region x := rfl

/-! ### `setCal` writes `boot` -/

@[simp] theorem setCal_cores (id : Nat) (f : CalField → CalField) (s : State) : (setCal id f s).cores = s.cores := rfl
@[simp] theorem setCal_fences (id : Nat) (f : CalField → CalField) (s : State) : (setCal id f s).fences = s.fences := rfl
@[simp] theorem setCal_bridges (id : Nat) (f : CalField → CalField) (s : State) : (setCal id f s).bridges = s.bridges := rfl
@[simp] theorem setCal_audit (id : Nat) (f : CalField → CalField) (s : State) : (setCal id f s).audit = s.audit := rfl
@[simp] theorem setCal_gdl (id : Nat) (f : CalField → CalField) (s : State) : (setCal id f s).gdl = s.gdl := rfl
@[simp] theorem setCal_ddr (id : Nat) (f : CalField → CalField) (s : State) : (setCal id f s).ddr = s.ddr := rfl
@[simp] theorem setCal_flt (id : Nat) (f : CalField → CalField) (s : State) : (setCal id f s).flt = s.flt := rfl
@[simp] theorem setCal_efl (id : Nat) (f : CalField → CalField) (s : State) : (setCal id f s).efl = s.efl := rfl
@[simp] theorem setCal_lfl (id : Nat) (f : CalField → CalField) (s : State) : (setCal id f s).lfl = s.lfl := rfl
@[simp] theorem setCal_sfe (id : Nat) (f : CalField → CalField) (s : State) : (setCal id f s).sfe = s.sfe := rfl
@[simp] theorem setCal_trg (id : Nat) (f : CalField → CalField) (s : State) : (setCal id f s).trg = s.trg := rfl
@[simp] theorem setCal_pci (id : Nat) (f : CalField → CalField) (s : State) : (setCal id f s).pci = s.pci := rfl
@[simp] theorem setCal_sec (id : Nat) (f : CalField → CalField) (s : State) : (setCal id f s).sec = s.sec := rfl
@[simp] theorem setCal_pwr (id : Nat) (f : CalField → CalField) (s : State) : (setCal id f s).pwr = s.pwr := rfl
@[simp] theorem setCal_fuses (id : Nat) (f : CalField → CalField) (s : State) : (setCal id f s).fuses = s.fuses := rfl
@[simp] theorem setCal_pins (id : Nat) (f : CalField → CalField) (s : State) : (setCal id f s).pins = s.pins := rfl
@[simp] theorem setCal_timer (id : Nat) (f : CalField → CalField) (s : State) : (setCal id f s).timer = s.timer := rfl
@[simp] theorem setCal_free (id : Nat) (f : CalField → CalField) (s : State) : (setCal id f s).free = s.free := rfl
@[simp] theorem setCal_pending (id : Nat) (f : CalField → CalField) (s : State) : (setCal id f s).pending = s.pending := rfl
@[simp] theorem setCal_core (id : Nat) (f : CalField → CalField) (s : State) (x : Nat) : (setCal id f s).core x = s.core x := rfl
@[simp] theorem setCal_run (id : Nat) (f : CalField → CalField) (s : State) (x : Nat) : (setCal id f s).run x = s.run x := rfl
@[simp] theorem setCal_func (id : Nat) (f : CalField → CalField) (s : State) (x : Nat) : (setCal id f s).func x = s.func x := rfl
@[simp] theorem setCal_queue (id : Nat) (f : CalField → CalField) (s : State) (x y : Nat) : (setCal id f s).queue x y = s.queue x y := rfl
@[simp] theorem setCal_dom (id : Nat) (f : CalField → CalField) (s : State) (x : Nat) : (setCal id f s).dom x = s.dom x := rfl
@[simp] theorem setCal_tenant (id : Nat) (f : CalField → CalField) (s : State) (x : Nat) : (setCal id f s).tenant x = s.tenant x := rfl
@[simp] theorem setCal_job (id : Nat) (f : CalField → CalField) (s : State) (x : Nat) : (setCal id f s).job x = s.job x := rfl
@[simp] theorem setCal_tsec (id : Nat) (f : CalField → CalField) (s : State) (x : Nat) : (setCal id f s).tsec x = s.tsec x := rfl
@[simp] theorem setCal_ctx (id : Nat) (f : CalField → CalField) (s : State) (x : Nat) : (setCal id f s).ctx x = s.ctx x := rfl
@[simp] theorem setCal_region (id : Nat) (f : CalField → CalField) (s : State) (x : Nat) : (setCal id f s).region x = s.region x := rfl

/-! ### `setResponder` writes `sec` -/

@[simp] theorem setResponder_cores (f : Nat) (g : Spdm → Spdm) (s : State) : (setResponder f g s).cores = s.cores := rfl
@[simp] theorem setResponder_fences (f : Nat) (g : Spdm → Spdm) (s : State) : (setResponder f g s).fences = s.fences := rfl
@[simp] theorem setResponder_bridges (f : Nat) (g : Spdm → Spdm) (s : State) : (setResponder f g s).bridges = s.bridges := rfl
@[simp] theorem setResponder_audit (f : Nat) (g : Spdm → Spdm) (s : State) : (setResponder f g s).audit = s.audit := rfl
@[simp] theorem setResponder_gdl (f : Nat) (g : Spdm → Spdm) (s : State) : (setResponder f g s).gdl = s.gdl := rfl
@[simp] theorem setResponder_ddr (f : Nat) (g : Spdm → Spdm) (s : State) : (setResponder f g s).ddr = s.ddr := rfl
@[simp] theorem setResponder_flt (f : Nat) (g : Spdm → Spdm) (s : State) : (setResponder f g s).flt = s.flt := rfl
@[simp] theorem setResponder_efl (f : Nat) (g : Spdm → Spdm) (s : State) : (setResponder f g s).efl = s.efl := rfl
@[simp] theorem setResponder_lfl (f : Nat) (g : Spdm → Spdm) (s : State) : (setResponder f g s).lfl = s.lfl := rfl
@[simp] theorem setResponder_sfe (f : Nat) (g : Spdm → Spdm) (s : State) : (setResponder f g s).sfe = s.sfe := rfl
@[simp] theorem setResponder_trg (f : Nat) (g : Spdm → Spdm) (s : State) : (setResponder f g s).trg = s.trg := rfl
@[simp] theorem setResponder_pci (f : Nat) (g : Spdm → Spdm) (s : State) : (setResponder f g s).pci = s.pci := rfl
@[simp] theorem setResponder_pwr (f : Nat) (g : Spdm → Spdm) (s : State) : (setResponder f g s).pwr = s.pwr := rfl
@[simp] theorem setResponder_boot (f : Nat) (g : Spdm → Spdm) (s : State) : (setResponder f g s).boot = s.boot := rfl
@[simp] theorem setResponder_fuses (f : Nat) (g : Spdm → Spdm) (s : State) : (setResponder f g s).fuses = s.fuses := rfl
@[simp] theorem setResponder_pins (f : Nat) (g : Spdm → Spdm) (s : State) : (setResponder f g s).pins = s.pins := rfl
@[simp] theorem setResponder_timer (f : Nat) (g : Spdm → Spdm) (s : State) : (setResponder f g s).timer = s.timer := rfl
@[simp] theorem setResponder_free (f : Nat) (g : Spdm → Spdm) (s : State) : (setResponder f g s).free = s.free := rfl
@[simp] theorem setResponder_pending (f : Nat) (g : Spdm → Spdm) (s : State) : (setResponder f g s).pending = s.pending := rfl
@[simp] theorem setResponder_core (f : Nat) (g : Spdm → Spdm) (s : State) (x : Nat) : (setResponder f g s).core x = s.core x := rfl
@[simp] theorem setResponder_run (f : Nat) (g : Spdm → Spdm) (s : State) (x : Nat) : (setResponder f g s).run x = s.run x := rfl
@[simp] theorem setResponder_func (f : Nat) (g : Spdm → Spdm) (s : State) (x : Nat) : (setResponder f g s).func x = s.func x := rfl
@[simp] theorem setResponder_queue (f : Nat) (g : Spdm → Spdm) (s : State) (x y : Nat) : (setResponder f g s).queue x y = s.queue x y := rfl
@[simp] theorem setResponder_dom (f : Nat) (g : Spdm → Spdm) (s : State) (x : Nat) : (setResponder f g s).dom x = s.dom x := rfl
@[simp] theorem setResponder_tenant (f : Nat) (g : Spdm → Spdm) (s : State) (x : Nat) : (setResponder f g s).tenant x = s.tenant x := rfl
@[simp] theorem setResponder_job (f : Nat) (g : Spdm → Spdm) (s : State) (x : Nat) : (setResponder f g s).job x = s.job x := rfl
@[simp] theorem setResponder_ctx (f : Nat) (g : Spdm → Spdm) (s : State) (x : Nat) : (setResponder f g s).ctx x = s.ctx x := rfl
@[simp] theorem setResponder_region (f : Nat) (g : Spdm → Spdm) (s : State) (x : Nat) : (setResponder f g s).region x = s.region x := rfl

/-! ### `setStream` writes `sec` -/

@[simp] theorem setStream_cores (i : Nat) (f : IdeStream → IdeStream) (s : State) : (setStream i f s).cores = s.cores := rfl
@[simp] theorem setStream_fences (i : Nat) (f : IdeStream → IdeStream) (s : State) : (setStream i f s).fences = s.fences := rfl
@[simp] theorem setStream_bridges (i : Nat) (f : IdeStream → IdeStream) (s : State) : (setStream i f s).bridges = s.bridges := rfl
@[simp] theorem setStream_audit (i : Nat) (f : IdeStream → IdeStream) (s : State) : (setStream i f s).audit = s.audit := rfl
@[simp] theorem setStream_gdl (i : Nat) (f : IdeStream → IdeStream) (s : State) : (setStream i f s).gdl = s.gdl := rfl
@[simp] theorem setStream_ddr (i : Nat) (f : IdeStream → IdeStream) (s : State) : (setStream i f s).ddr = s.ddr := rfl
@[simp] theorem setStream_flt (i : Nat) (f : IdeStream → IdeStream) (s : State) : (setStream i f s).flt = s.flt := rfl
@[simp] theorem setStream_efl (i : Nat) (f : IdeStream → IdeStream) (s : State) : (setStream i f s).efl = s.efl := rfl
@[simp] theorem setStream_lfl (i : Nat) (f : IdeStream → IdeStream) (s : State) : (setStream i f s).lfl = s.lfl := rfl
@[simp] theorem setStream_sfe (i : Nat) (f : IdeStream → IdeStream) (s : State) : (setStream i f s).sfe = s.sfe := rfl
@[simp] theorem setStream_trg (i : Nat) (f : IdeStream → IdeStream) (s : State) : (setStream i f s).trg = s.trg := rfl
@[simp] theorem setStream_pci (i : Nat) (f : IdeStream → IdeStream) (s : State) : (setStream i f s).pci = s.pci := rfl
@[simp] theorem setStream_pwr (i : Nat) (f : IdeStream → IdeStream) (s : State) : (setStream i f s).pwr = s.pwr := rfl
@[simp] theorem setStream_boot (i : Nat) (f : IdeStream → IdeStream) (s : State) : (setStream i f s).boot = s.boot := rfl
@[simp] theorem setStream_fuses (i : Nat) (f : IdeStream → IdeStream) (s : State) : (setStream i f s).fuses = s.fuses := rfl
@[simp] theorem setStream_pins (i : Nat) (f : IdeStream → IdeStream) (s : State) : (setStream i f s).pins = s.pins := rfl
@[simp] theorem setStream_timer (i : Nat) (f : IdeStream → IdeStream) (s : State) : (setStream i f s).timer = s.timer := rfl
@[simp] theorem setStream_free (i : Nat) (f : IdeStream → IdeStream) (s : State) : (setStream i f s).free = s.free := rfl
@[simp] theorem setStream_pending (i : Nat) (f : IdeStream → IdeStream) (s : State) : (setStream i f s).pending = s.pending := rfl
@[simp] theorem setStream_core (i : Nat) (f : IdeStream → IdeStream) (s : State) (x : Nat) : (setStream i f s).core x = s.core x := rfl
@[simp] theorem setStream_run (i : Nat) (f : IdeStream → IdeStream) (s : State) (x : Nat) : (setStream i f s).run x = s.run x := rfl
@[simp] theorem setStream_func (i : Nat) (f : IdeStream → IdeStream) (s : State) (x : Nat) : (setStream i f s).func x = s.func x := rfl
@[simp] theorem setStream_queue (i : Nat) (f : IdeStream → IdeStream) (s : State) (x y : Nat) : (setStream i f s).queue x y = s.queue x y := rfl
@[simp] theorem setStream_dom (i : Nat) (f : IdeStream → IdeStream) (s : State) (x : Nat) : (setStream i f s).dom x = s.dom x := rfl
@[simp] theorem setStream_tenant (i : Nat) (f : IdeStream → IdeStream) (s : State) (x : Nat) : (setStream i f s).tenant x = s.tenant x := rfl
@[simp] theorem setStream_job (i : Nat) (f : IdeStream → IdeStream) (s : State) (x : Nat) : (setStream i f s).job x = s.job x := rfl
@[simp] theorem setStream_ctx (i : Nat) (f : IdeStream → IdeStream) (s : State) (x : Nat) : (setStream i f s).ctx x = s.ctx x := rfl
@[simp] theorem setStream_region (i : Nat) (f : IdeStream → IdeStream) (s : State) (x : Nat) : (setStream i f s).region x = s.region x := rfl

/-! ### `setKeySlot` writes `sec` -/

@[simp] theorem setKeySlot_cores (k : Nat) (f : KeySlot → KeySlot) (s : State) : (setKeySlot k f s).cores = s.cores := rfl
@[simp] theorem setKeySlot_fences (k : Nat) (f : KeySlot → KeySlot) (s : State) : (setKeySlot k f s).fences = s.fences := rfl
@[simp] theorem setKeySlot_bridges (k : Nat) (f : KeySlot → KeySlot) (s : State) : (setKeySlot k f s).bridges = s.bridges := rfl
@[simp] theorem setKeySlot_audit (k : Nat) (f : KeySlot → KeySlot) (s : State) : (setKeySlot k f s).audit = s.audit := rfl
@[simp] theorem setKeySlot_gdl (k : Nat) (f : KeySlot → KeySlot) (s : State) : (setKeySlot k f s).gdl = s.gdl := rfl
@[simp] theorem setKeySlot_ddr (k : Nat) (f : KeySlot → KeySlot) (s : State) : (setKeySlot k f s).ddr = s.ddr := rfl
@[simp] theorem setKeySlot_flt (k : Nat) (f : KeySlot → KeySlot) (s : State) : (setKeySlot k f s).flt = s.flt := rfl
@[simp] theorem setKeySlot_efl (k : Nat) (f : KeySlot → KeySlot) (s : State) : (setKeySlot k f s).efl = s.efl := rfl
@[simp] theorem setKeySlot_lfl (k : Nat) (f : KeySlot → KeySlot) (s : State) : (setKeySlot k f s).lfl = s.lfl := rfl
@[simp] theorem setKeySlot_sfe (k : Nat) (f : KeySlot → KeySlot) (s : State) : (setKeySlot k f s).sfe = s.sfe := rfl
@[simp] theorem setKeySlot_trg (k : Nat) (f : KeySlot → KeySlot) (s : State) : (setKeySlot k f s).trg = s.trg := rfl
@[simp] theorem setKeySlot_pci (k : Nat) (f : KeySlot → KeySlot) (s : State) : (setKeySlot k f s).pci = s.pci := rfl
@[simp] theorem setKeySlot_pwr (k : Nat) (f : KeySlot → KeySlot) (s : State) : (setKeySlot k f s).pwr = s.pwr := rfl
@[simp] theorem setKeySlot_boot (k : Nat) (f : KeySlot → KeySlot) (s : State) : (setKeySlot k f s).boot = s.boot := rfl
@[simp] theorem setKeySlot_fuses (k : Nat) (f : KeySlot → KeySlot) (s : State) : (setKeySlot k f s).fuses = s.fuses := rfl
@[simp] theorem setKeySlot_pins (k : Nat) (f : KeySlot → KeySlot) (s : State) : (setKeySlot k f s).pins = s.pins := rfl
@[simp] theorem setKeySlot_timer (k : Nat) (f : KeySlot → KeySlot) (s : State) : (setKeySlot k f s).timer = s.timer := rfl
@[simp] theorem setKeySlot_free (k : Nat) (f : KeySlot → KeySlot) (s : State) : (setKeySlot k f s).free = s.free := rfl
@[simp] theorem setKeySlot_pending (k : Nat) (f : KeySlot → KeySlot) (s : State) : (setKeySlot k f s).pending = s.pending := rfl
@[simp] theorem setKeySlot_core (k : Nat) (f : KeySlot → KeySlot) (s : State) (x : Nat) : (setKeySlot k f s).core x = s.core x := rfl
@[simp] theorem setKeySlot_run (k : Nat) (f : KeySlot → KeySlot) (s : State) (x : Nat) : (setKeySlot k f s).run x = s.run x := rfl
@[simp] theorem setKeySlot_func (k : Nat) (f : KeySlot → KeySlot) (s : State) (x : Nat) : (setKeySlot k f s).func x = s.func x := rfl
@[simp] theorem setKeySlot_queue (k : Nat) (f : KeySlot → KeySlot) (s : State) (x y : Nat) : (setKeySlot k f s).queue x y = s.queue x y := rfl
@[simp] theorem setKeySlot_dom (k : Nat) (f : KeySlot → KeySlot) (s : State) (x : Nat) : (setKeySlot k f s).dom x = s.dom x := rfl
@[simp] theorem setKeySlot_tenant (k : Nat) (f : KeySlot → KeySlot) (s : State) (x : Nat) : (setKeySlot k f s).tenant x = s.tenant x := rfl
@[simp] theorem setKeySlot_job (k : Nat) (f : KeySlot → KeySlot) (s : State) (x : Nat) : (setKeySlot k f s).job x = s.job x := rfl
@[simp] theorem setKeySlot_ctx (k : Nat) (f : KeySlot → KeySlot) (s : State) (x : Nat) : (setKeySlot k f s).ctx x = s.ctx x := rfl
@[simp] theorem setKeySlot_region (k : Nat) (f : KeySlot → KeySlot) (s : State) (x : Nat) : (setKeySlot k f s).region x = s.region x := rfl

/-! ### `fwResult` writes `boot` -/

@[simp] theorem fwResult_cores (code : Nat) (s : State) : (fwResult code s).cores = s.cores := rfl
@[simp] theorem fwResult_fences (code : Nat) (s : State) : (fwResult code s).fences = s.fences := rfl
@[simp] theorem fwResult_bridges (code : Nat) (s : State) : (fwResult code s).bridges = s.bridges := rfl
@[simp] theorem fwResult_audit (code : Nat) (s : State) : (fwResult code s).audit = s.audit := rfl
@[simp] theorem fwResult_gdl (code : Nat) (s : State) : (fwResult code s).gdl = s.gdl := rfl
@[simp] theorem fwResult_ddr (code : Nat) (s : State) : (fwResult code s).ddr = s.ddr := rfl
@[simp] theorem fwResult_flt (code : Nat) (s : State) : (fwResult code s).flt = s.flt := rfl
@[simp] theorem fwResult_efl (code : Nat) (s : State) : (fwResult code s).efl = s.efl := rfl
@[simp] theorem fwResult_lfl (code : Nat) (s : State) : (fwResult code s).lfl = s.lfl := rfl
@[simp] theorem fwResult_sfe (code : Nat) (s : State) : (fwResult code s).sfe = s.sfe := rfl
@[simp] theorem fwResult_trg (code : Nat) (s : State) : (fwResult code s).trg = s.trg := rfl
@[simp] theorem fwResult_pci (code : Nat) (s : State) : (fwResult code s).pci = s.pci := rfl
@[simp] theorem fwResult_sec (code : Nat) (s : State) : (fwResult code s).sec = s.sec := rfl
@[simp] theorem fwResult_pwr (code : Nat) (s : State) : (fwResult code s).pwr = s.pwr := rfl
@[simp] theorem fwResult_fuses (code : Nat) (s : State) : (fwResult code s).fuses = s.fuses := rfl
@[simp] theorem fwResult_pins (code : Nat) (s : State) : (fwResult code s).pins = s.pins := rfl
@[simp] theorem fwResult_timer (code : Nat) (s : State) : (fwResult code s).timer = s.timer := rfl
@[simp] theorem fwResult_free (code : Nat) (s : State) : (fwResult code s).free = s.free := rfl
@[simp] theorem fwResult_pending (code : Nat) (s : State) : (fwResult code s).pending = s.pending := rfl
@[simp] theorem fwResult_core (code : Nat) (s : State) (x : Nat) : (fwResult code s).core x = s.core x := rfl
@[simp] theorem fwResult_run (code : Nat) (s : State) (x : Nat) : (fwResult code s).run x = s.run x := rfl
@[simp] theorem fwResult_func (code : Nat) (s : State) (x : Nat) : (fwResult code s).func x = s.func x := rfl
@[simp] theorem fwResult_queue (code : Nat) (s : State) (x y : Nat) : (fwResult code s).queue x y = s.queue x y := rfl
@[simp] theorem fwResult_dom (code : Nat) (s : State) (x : Nat) : (fwResult code s).dom x = s.dom x := rfl
@[simp] theorem fwResult_tenant (code : Nat) (s : State) (x : Nat) : (fwResult code s).tenant x = s.tenant x := rfl
@[simp] theorem fwResult_job (code : Nat) (s : State) (x : Nat) : (fwResult code s).job x = s.job x := rfl
@[simp] theorem fwResult_tsec (code : Nat) (s : State) (x : Nat) : (fwResult code s).tsec x = s.tsec x := rfl
@[simp] theorem fwResult_ctx (code : Nat) (s : State) (x : Nat) : (fwResult code s).ctx x = s.ctx x := rfl
@[simp] theorem fwResult_region (code : Nat) (s : State) (x : Nat) : (fwResult code s).region x = s.region x := rfl

/-! ### Reading back -/

theorem dom_setDom (s : State) (d e : Nat) (f : Dom → Dom) : (setDom s d f).dom e = if e = d then f (s.dom d) else s.dom e :=
  Tab.get_upd ..

theorem core_updCore (s : State) (c d : Nat) (f : Core → Core) : (updCore s c f).core d = if d = c then f (s.core c) else s.core d :=
  Tab.get_set ..

theorem func_setFunc (s : State) (f g : Nat) (h : Func → Func) : (setFunc s f h).func g = if g = f then h (s.func f) else s.func g :=
  Tab.get_upd ..

theorem tenant_setTenant (s : State) (t u : Nat) (g : Tenant → Tenant) :
    (setTenant s t g).tenant u = if u = t then g (s.tenant t) else s.tenant u := Tab.get_upd ..

theorem tsec_setTsec (s : State) (t u : Nat) (g : TenantSec → TenantSec) :
    (setTsec s t g).tsec u = if u = t then g (s.tsec t) else s.tsec u := Tab.get_upd ..

theorem ctx_setCtx (s : State) (c d : Nat) (g : Context → Context) : (setCtx s c g).ctx d = if d = c then g (s.ctx c) else s.ctx d :=
  Tab.get_upd ..

theorem job_setJob (s : State) (n m : Nat) (f : Job → Job) : (setJob s n f).job m = if m = n then f (s.job n) else s.job m :=
  Tab.get_upd ..

theorem queue_setQueue (s : State) (f g q r : Nat) (h : HostQueue → HostQueue) :
    (setQueue s f q h).queue g r = if g = f ∧ r = q then h (s.queue f q) else s.queue g r := by
  unfold setQueue State.queue
  rw [func_setFunc]
  by_cases hg : g = f
  · subst hg
    simp only [if_true, true_and]
    exact Tab.get_upd ..
  · simp [hg]

theorem updCore_core_same (s : State) (c : Nat) (f : Core → Core) : (updCore s c f).core c = f (s.core c) := by simp [core_updCore]

/-! ### `running` sees the boot block and the control domain only -/

theorem running_congr {s t : State} (hb : t.boot = s.boot) (hp : t.pwr = s.pwr) : t.running = s.running := by
  unfold State.running State.dom
  rw [hb, hp]

end Sys2Proof.Machine
end

