-- ==== Sys2Proof/Laws/Core.lean ====
section
/-! SUPPORT. What the shared operations of a compute core do: the job on it, its queue, its regions, its rows with their flags,
and its scratchpad. -/

namespace Sys2Proof.Machine

open Sys2Proof Numeric

/-! ### The running job -/

theorem run_eq (s : State) (c : Nat) : s.run c = (s.core c).run := rfl

theorem core_setRun (c d : Nat) (f : Run → Run) (s : State) :
    (setRun c f s).core d = if d = c then { s.core c with run := (s.core c).run.map f } else s.core d := by
  unfold setRun; rw [core_updCore]

theorem run_setRun (c : Nat) (f : Run → Run) (s : State) : (setRun c f s).run c = (s.run c).map f := by
  unfold State.run; rw [core_setRun, if_pos rfl]

theorem OnlyRun.refl (c : Nat) (s : State) : OnlyRun c s s := ⟨rfl, fun _ _ => rfl, rfl⟩

theorem OnlyRun.trans {c : Nat} {s t u : State} (h : OnlyRun c s t) (k : OnlyRun c t u) : OnlyRun c s u := by
  refine ⟨?_, fun d hd => (k.others d hd).trans (h.others d hd), ?_⟩
  · rw [k.rest, h.rest]
  · rw [k.mine, h.mine]

theorem onlyRun_setRun (c : Nat) (f : Run → Run) (s : State) : OnlyRun c s (setRun c f s) := by
  refine ⟨rfl, fun d h => ?_, ?_⟩
  · rw [core_setRun, if_neg h]
  · rw [core_setRun, if_pos rfl, run_setRun]; rfl

theorem onlyRun_popHead (c : Nat) (s : State) : OnlyRun c s (popHead c s) := onlyRun_setRun c _ s

theorem popHead_run {c : Nat} {r : Run} {s : State} (h : s.run c = some r) :
    (popHead c s).run c = some { r with queue := r.queue.tail } := by
  unfold popHead
  rw [run_setRun, h]
  simp

/-- Without a SUSPEND that waits, a boundary changes nothing. -/
theorem settleSuspend_idle {c : Nat} {s : State} (h : ∀ r, s.run c = some r → r.suspending = false) : settleSuspend c s = s := by
  unfold settleSuspend
  split
  · rfl
  · next r hr => simp [h r hr]

theorem whenRunning_up {c : Nat} {r : Run} {s : State} (h : OnCore c r s) (f : State → State) :
    whenRunning s (coreUp s c) f = .next (f s) := by
  unfold whenRunning
  simp [h.running, h.up]

/-! ### Decoding and issuing -/

/-- Decoding a good operation of the execute queue: it is queued, or at 16 it waits. -/
theorem decodeQueued_ok {c : Nat} {opc : Nat → Bool} {sel : Op → Bool} {s : State} {r : Run} {op : Op} (h : OnCore c r s)
    (hd : r.decodes = true) (hn : nextOp s c r = some (.ok op)) (hs : sel op = true) :
    decodeQueued c opc sel s = if r.queue.length < 16 then setRun c (enqueue op) s else s := by
  unfold decodeQueued
  rw [h.run]
  simp only [hd, hn, hs, Bool.not_true, Bool.false_or, decide_eq_true_eq, if_true]
  split
  · rw [if_neg (by omega)]
  · rw [if_pos (by omega)]

/-- Decoding a good operation of the fetch engine runs it. -/
theorem decodeOwn_ok {c opc : Nat} {f : Op → Run → State → State} {s : State} {r : Run} {op : Op} (h : OnCore c r s)
    (hd : r.decodes = true) (hn : nextOp s c r = some (.ok op)) : decodeOwn c opc f s = f op r s := by
  unfold decodeOwn
  rw [h.run]
  simp [hd, hn]

theorem headOp_ok {c : Nat} {r : Run} {q : QOp} {s : State} {sel : Op → Bool} (h : AtHead c r q s) (hs : sel q.op = true) :
    headOp s c sel = some (r, q) := by
  unfold headOp
  rw [h.run]
  have := h.head
  cases hq : r.queue with
  | nil => simp [hq] at this
  | cons x l =>
    simp only [hq, List.head?_cons, Option.some.injEq] at this
    subst this
    simp [h.issues, hs, hq]

theorem pick_mem {α : Type} (s : State) (i : Nat) (d : α) (l : List α) (h : l ≠ []) : s.pick i d l ∈ l := by
  unfold State.pick
  have : 0 < l.length := List.length_pos_iff.2 h
  rw [List.getD_eq_getElem?_getD, List.getElem?_eq_getElem (Nat.mod_lt _ this)]
  exact List.getElem_mem _

/-! ### Synchronisation counters -/

theorem counter_setRun (c d : Nat) (f : Run → Run) (s : State) (k : Nat) :
    ((setRun c f s).core d).counter k = (s.core d).counter k := by
  rw [core_setRun]
  split
  · next h => subst h; rfl
  · rfl

theorem counter_setCounter (k : Core) (i j : Nat) (v : BitVec 16) :
    (k.setCounter i v).counter j = if j = i then v else k.counter j := by
  unfold Core.setCounter Core.counter
  exact Tab.get_set ..

/-- A saturating counter. -/
theorem satUp_toNat {w : Nat} (x : BitVec w) (n : Nat) : (satUp x n).toNat = min (2 ^ w - 1) (x.toNat + n) := by
  unfold satUp
  have := x.isLt
  split
  · rw [BitVec.toNat_ofNat, Nat.mod_eq_of_lt (by omega)]; omega
  · rw [BitVec.toNat_ofNat, Nat.mod_eq_of_lt (by omega)]; omega

/-! ### Regions -/

theorem region_setRegion (k : Core) (r x : Nat) (st : Region) : (k.setRegion r st).region x = if x = r then st else k.region x := by
  unfold Core.setRegion Core.region
  exact Tab.get_set ..

theorem region_setRegions (k : Core) (rs : List Nat) (x : Nat) (st : Region) :
    (k.setRegions rs st).region x = if x ∈ rs then st else k.region x := by
  unfold Core.setRegions
  induction rs generalizing k with
  | nil => simp
  | cons r rs ih =>
    rw [List.foldl_cons, ih, region_setRegion]
    by_cases h : x ∈ rs <;> by_cases h2 : x = r <;> simp [h, h2]

/-- Moving regions changes their states and the credits only. -/
theorem setRegions_eq (k : Core) (rs : List Nat) (st : Region) :
    k.setRegions rs st = { k with regions := (k.setRegions rs st).regions, credits := (k.setRegions rs st).credits } := by
  unfold Core.setRegions
  induction rs generalizing k with
  | nil => rfl
  | cons r rs ih => rw [List.foldl_cons, ih]; rfl

/-! ### Presence and poison flags -/

theorem rowMask_get (rows : List Nat) (i : Nat) : (rowMask rows).getLsbD i = (decide (i < 8192) && decide (i ∈ rows)) := by
  have key : ∀ (l : List Nat) (m : BitVec 8192), (l.foldl (fun m r => m ||| (1#8192 <<< r)) m).getLsbD i =
      (m.getLsbD i || (decide (i < 8192) && decide (i ∈ l))) := by
    intro l
    induction l with
    | nil => intro m; simp
    | cons r l ih =>
      intro m
      rw [List.foldl_cons, ih, BitVec.getLsbD_or, BitVec.getLsbD_shiftLeft]
      by_cases h : i < 8192
      · by_cases h2 : i = r
        · subst h2; simp [h]
        · by_cases h3 : i < r
          · simp [h, h2, h3]
          · have : i - r ≠ 0 := by omega
            simp [h, h2, h3, this]
      · have : m.getLsbD i = false := BitVec.getLsbD_of_ge _ _ (by omega)
        simp [h]
  unfold rowMask
  rw [key]
  simp

theorem present_clearPresence (k : Core) (rows : List Nat) (i : Nat) :
    (k.clearPresence rows).present i = (k.present i && !decide (i ∈ rows)) := by
  unfold Core.clearPresence Core.present
  rw [BitVec.getLsbD_and, BitVec.getLsbD_not, rowMask_get]
  by_cases h : i < 8192
  · simp [h]
  · have : k.presence.getLsbD i = false := BitVec.getLsbD_of_ge _ _ (by omega)
    simp [this]

theorem present_setPresence (k : Core) (r i : Nat) (h : r < 8192) :
    (k.setPresence r).present i = (k.present i || decide (i = r)) := by
  unfold Core.setPresence Core.present
  rw [BitVec.getLsbD_or, rowMask_get]
  by_cases h2 : i = r
  · subst h2; simp [h]
  · simp [h2]

theorem poison_setPoison (k : Core) (r i : Nat) (p : Bool) (h : r < 8192) :
    (k.setPoison r p).poison.getLsbD i = if i = r then p else k.poison.getLsbD i := by
  unfold Core.setPoison
  by_cases h2 : i = r
  · subst h2
    cases p <;> simp [rowMask_get, h]
  · cases p
    · simp only [Bool.false_eq_true, if_false, h2, BitVec.getLsbD_and, BitVec.getLsbD_not, rowMask_get]
      by_cases h3 : i < 8192
      · simp [h2, h3]
      · have : k.poison.getLsbD i = false := BitVec.getLsbD_of_ge _ _ (by omega)
        simp [this]
    · simp [rowMask_get, h2]

theorem mem_rowsOfRegion (r i : Nat) : i ∈ rowsOfRegion r ↔ i / 64 = r := by
  unfold rowsOfRegion
  simp only [List.mem_map, List.mem_range]
  constructor
  · rintro ⟨j, hj, rfl⟩; omega
  · intro h; exact ⟨i % 64, Nat.mod_lt _ (by omega), by omega⟩

/-! ### One core changes -/

theorem OnlyCore.refl (c : Nat) (s : State) : OnlyCore c s s := ⟨rfl, fun _ _ => rfl, fun _ _ => rfl, fun _ _ => rfl⟩

theorem OnlyCore.trans {c : Nat} {s t u : State} (h : OnlyCore c s t) (k : OnlyCore c t u) : OnlyCore c s u := by
  refine ⟨?_, fun d hd => (k.others d hd).trans (h.others d hd), fun d hd => (k.spm d hd).trans (h.spm d hd),
    fun d hd => (k.prog d hd).trans (h.prog d hd)⟩
  rw [k.rest, h.rest]

theorem OnlyRun.onlyCore {c : Nat} {s t : State} (h : OnlyRun c s t) : OnlyCore c s t := by
  have e := h.rest
  refine ⟨?_, h.others, fun d _ => by rw [e], fun d _ => by rw [e]⟩
  rw [e]

theorem onlyCore_updCore (c : Nat) (f : Core → Core) (s : State) : OnlyCore c s (updCore s c f) :=
  ⟨rfl, fun d h => by rw [core_updCore, if_neg h], fun _ _ => rfl, fun _ _ => rfl⟩

theorem onlyCore_spend (c : Nat) (s : State) : OnlyCore c s s.spend := ⟨rfl, fun _ _ => rfl, fun _ _ => rfl, fun _ _ => rfl⟩

theorem onlyCore_wrSpm (c a : Nat) (bs : Bytes) (s : State) : OnlyCore c s (setMems s fun m => m.wrSpm c a bs) :=
  ⟨rfl, fun _ _ => rfl, fun d h => by
    simp only [setMems_mem, Mems.wrSpm]; exact Tab.get_upd_ne _ _ _ d _ h, fun _ _ => rfl⟩

theorem onlyCore_clrSpm (c a n : Nat) (s : State) : OnlyCore c s (setMems s fun m => m.clrSpm c a n) :=
  ⟨rfl, fun _ _ => rfl, fun d h => by
    simp only [setMems_mem, Mems.clrSpm]; exact Tab.get_upd_ne _ _ _ d _ h, fun _ _ => rfl⟩

theorem onlyCore_foldl {α : Type} (c : Nat) (g : State → α → State) (h : ∀ s x, OnlyCore c s (g s x)) (l : List α) (s : State) :
    OnlyCore c s (l.foldl g s) := by
  induction l generalizing s with
  | nil => exact OnlyCore.refl c s
  | cons x l ih => exact (h s x).trans (ih _)

/-! ### Scratchpad bytes -/

/-- One byte of a scratchpad. -/
theorem rdSpm_wrSpm (m : Mems) (c a : Nat) (bs : Bytes) (x : Nat) :
    (m.wrSpm c a bs).rdSpm c x 1 = if a ≤ x ∧ x < a + bs.length then [bs.getD (x - a) 0] else m.rdSpm c x 1 := by
  unfold Mems.rdSpm Mems.wrSpm Mem.rdN
  simp only [Tab.get_upd_same, List.range_one, List.map_cons, List.map_nil, Nat.add_zero]
  split
  · next h =>
    obtain ⟨i, rfl⟩ := Nat.exists_eq_add_of_le h.1
    have hi : i < bs.length := by omega
    rw [Mem.rd_wrN_in _ _ _ _ _ hi, Nat.add_sub_cancel_left, List.getD_eq_getElem?_getD, List.getElem?_eq_getElem hi]
    rfl
  · next h => rw [Mem.rd_wrN_out _ _ _ _ _ (by omega)]

theorem rdSpm_clrSpm (m : Mems) (c a n x : Nat) :
    (m.clrSpm c a n).rdSpm c x 1 = if a ≤ x ∧ x < a + n then [0] else m.rdSpm c x 1 := by
  unfold Mems.rdSpm Mems.clrSpm Mem.rdN
  simp only [Tab.get_upd_same, List.range_one, List.map_cons, List.map_nil, Nat.add_zero, Mem.rd_clear]
  split <;> simp_all

/-! ### Rows -/

/-- A full row: its bytes, its two flags, and nothing else of the core. -/
theorem onlyCore_putRow (c r : Nat) (bs : Bytes) (p : Bool) (s : State) : OnlyCore c s (putRow c r bs p s) := by
  unfold putRow
  exact (onlyCore_wrSpm c _ _ s).trans (onlyCore_updCore c _ _)

theorem run_updCore (c d : Nat) (f : Core → Core) (s : State) (h : ∀ k, (f k).run = k.run) : (updCore s c f).run d = s.run d := by
  unfold State.run
  rw [core_updCore]
  split
  · next e => subst e; exact h _
  · rfl

theorem run_putRow (c d r : Nat) (bs : Bytes) (p : Bool) (s : State) : (putRow c r bs p s).run d = s.run d := by
  unfold putRow
  rw [run_updCore _ _ _ _ fun k => by unfold Core.setPoison; split <;> rfl]
  rfl

theorem core_putRow (c r : Nat) (bs : Bytes) (p : Bool) (s : State) :
    (putRow c r bs p s).core c = ((s.core c).setPresence r).setPoison r p := by
  unfold putRow
  rw [updCore_core_same]
  rfl

theorem rdSpm_putRow (c r : Nat) (bs : Bytes) (p : Bool) (s : State) (x : Nat) :
    (putRow c r bs p s).mem.rdSpm c x 1 =
      if 64 * r ≤ x ∧ x < 64 * r + 64 then [(padTo 64 bs).getD (x - 64 * r) 0] else s.mem.rdSpm c x 1 := by
  have h : (putRow c r bs p s).mem = s.mem.wrSpm c (64 * r) (padTo 64 bs) := rfl
  have hl : (padTo 64 bs).length = 64 := by simp [padTo, zeros]; omega
  rw [h, rdSpm_wrSpm, hl]

/-! ### Release -/

/-- Released regions: FREE, zeroed, no row present; nothing else of the part changes but credits and poison flags there. -/
theorem releaseRegions_ok (c : Nat) (rs : List Nat) (s : State) :
    OnlyCore c s (releaseRegions c rs s) ∧ (releaseRegions c rs s).run c = s.run c ∧
    (∀ x, ((releaseRegions c rs s).core c).region x = if x ∈ rs then .free else (s.core c).region x) ∧
    (∀ i, ((releaseRegions c rs s).core c).present i = ((s.core c).present i && !decide (i / 64 ∈ rs))) ∧
    (∀ a, (releaseRegions c rs s).mem.rdSpm c a 1 = if a / 4096 ∈ rs then [0] else s.mem.rdSpm c a 1) := by
  unfold releaseRegions
  induction rs generalizing s with
  | nil => exact ⟨OnlyCore.refl c s, rfl, by simp, by simp, by simp⟩
  | cons r rs ih =>
    rw [List.foldl_cons]
    generalize hu : updCore (setMems s fun m => m.clrSpm c (4096 * r) 4096) c (fun k =>
      let k := k.clearPresence (rowsOfRegion r)
      let k := { k with poison := k.poison &&& ~~~(rowMask (rowsOfRegion r)) }
      k.setRegion r .free) = u
    have ho : OnlyCore c s u := by rw [← hu]; exact (onlyCore_clrSpm c _ _ s).trans (onlyCore_updCore c _ _)
    have hr : u.run c = s.run c := by rw [← hu, run_updCore]; rfl; intro k; rfl
    have hc : u.core c = ({ (s.core c).clearPresence (rowsOfRegion r) with
        poison := (s.core c).poison &&& ~~~(rowMask (rowsOfRegion r)) } : Core).setRegion r .free := by
      rw [← hu, updCore_core_same]; rfl
    have hm : u.mem = s.mem.clrSpm c (4096 * r) 4096 := by rw [← hu]; rfl
    obtain ⟨a1, a2, a3, a4, a5⟩ := ih u
    dsimp only at a1 a2 a3 a4 a5 ⊢
    refine ⟨ho.trans a1, a2.trans hr, fun x => ?_, fun i => ?_, fun a => ?_⟩
    · rw [a3, hc, region_setRegion]
      have : ({ (s.core c).clearPresence (rowsOfRegion r) with
        poison := (s.core c).poison &&& ~~~(rowMask (rowsOfRegion r)) } : Core).region x = (s.core c).region x := rfl
      rw [this]
      by_cases h : x ∈ rs <;> by_cases h2 : x = r <;> simp [h, h2]
    · rw [a4, hc]
      have : (({ (s.core c).clearPresence (rowsOfRegion r) with
        poison := (s.core c).poison &&& ~~~(rowMask (rowsOfRegion r)) } : Core).setRegion r .free).present i =
        ((s.core c).clearPresence (rowsOfRegion r)).present i := rfl
      rw [this, present_clearPresence]
      simp only [mem_rowsOfRegion]
      by_cases h : i / 64 ∈ rs <;> by_cases h2 : i / 64 = r <;> simp [h, h2]
    · rw [a5, hm, rdSpm_clrSpm]
      by_cases h : a / 4096 ∈ rs
      · simp [h]
      · by_cases h2 : a / 4096 = r
        · have : 4096 * r ≤ a ∧ a < 4096 * r + 4096 := by omega
          simp [h2, this]
        · have : ¬ (4096 * r ≤ a ∧ a < 4096 * r + 4096) := by omega
          simp [h, h2, this]

/-! ### Issue -/

/-- What an operation with rows does as it issues: it leaves the queue, its result rows lose their presence bits, it runs,
credits return under LAST, and poison it read is raised. -/
theorem issueRows_ok {c : Nat} {r : Run} {q : QOp} {s : State} {sel : Op → Bool} {acc : Op → List Nat}
    {f : QOp → Bool → State → State} (h : AtHead c r q s) (hs : sel q.op = true)
    (hp : (s.core c).allPresent q.op.reads = true) (hk : (s.core c).check r.owner q.op.reads q.op.writes = .ok)
    (ha : disjoint (acc q.op) r.pendingAcc = true) :
    issueRows c sel acc f s =
      (let p := (s.core c).poisoned q.op.reads
      let t := returnLast c q.op.lastRows (f q p (updCore (popHead c s) c fun k => k.clearPresence q.op.writes))
      (if p then raisePoison c 0 t else t).spend) := by
  unfold issueRows headCheck
  rw [headOp_ok h hs]
  simp [hk, hp, ha]

end Sys2Proof.Machine
end

