-- ==== Sys2Proof/Laws/Host.lean ====
section
/-! SUPPORT. How a host command begins and ends (R412, R413): what the entry's row answers, and what a completion changes. -/

namespace Sys2Proof.Machine

open Sys2Proof

variable {op : Nat} {sub : Sub} {s u : State}

/-- A command that begins answers its effect on the state without its taken entry. -/
theorem Begins.next (h : Begins op sub s) (f : State → State) : hostCommand op sub f s = .next (f (popTaken op sub s)) := by
  unfold hostCommand whenRunning
  rw [h.running, h.taken]
  rfl

theorem Begins.tenant (h : Begins op sub s) (hf : sub.fn ≠ 0) (f : State → State) :
    tenantCommand op sub f s = .next (f (popTaken op sub s)) := by
  unfold tenantCommand
  rw [h.next, if_neg hf]

theorem Begins.pf0 (h : Begins op sub s) (hf : sub.fn = 0) (f : State → State) :
    pf0Command op sub f s = .next (f (popTaken op sub s)) := by
  unfold pf0Command
  rw [h.next, if_pos hf]

theorem complete_pci (sub : Sub) (c : Completion) (u : State) (h : (u.queue sub.fn sub.qid).state ≠ .none) :
    complete sub c u = setQueue u sub.fn sub.qid fun q => { q with waiting := q.waiting ++ [c] } := by
  unfold complete queueCompletion
  rw [if_neg h, if_neg h]

/-- A completion after an effect that left the taken entries and the queues alone ends the command. -/
theorem Begins.ended (h : Begins op sub s) (c : Completion) (ht : u.pci.taken = (popTaken op sub s).pci.taken)
    (hq : ∀ f q, u.queue f q = s.queue f q) : Ended op sub c s (complete sub c u) := by
  rw [complete_pci sub c u (by rw [hq]; exact h.queue)]
  refine ⟨ht, ?_, ?_, fun f q hne => ?_⟩
  · rw [queue_setQueue, if_pos ⟨rfl, rfl⟩, hq]
  · rw [queue_setQueue, if_pos ⟨rfl, rfl⟩, hq]
  · rw [queue_setQueue, if_neg hne, hq]

/-- A completion after an effect that left the host interface alone ends the command. -/
theorem Begins.ends (h : Begins op sub s) (c : Completion) (hu : u.pci = (popTaken op sub s).pci) :
    OnlyEnded op sub c s (complete sub c u) := by
  have hq : ∀ f q, u.queue f q = s.queue f q := fun f q => by
    unfold State.queue State.func; rw [hu]; rfl
  have hf : ∀ f, u.func f = s.func f := fun f => by
    unfold State.func; rw [hu]; rfl
  rw [complete_pci sub c u (by rw [hq]; exact h.queue)]
  refine ⟨⟨?_, ?_, ?_, fun f q hne => ?_⟩, ?_, fun f => ?_⟩
  · show u.pci.taken = _
    rw [hu]; rfl
  · rw [queue_setQueue, if_pos ⟨rfl, rfl⟩, hq]
  · rw [queue_setQueue, if_pos ⟨rfl, rfl⟩, hq]
  · rw [queue_setQueue, if_neg hne, hq]
  · have e : u.pci = { s.pci with taken := s.pci.taken.eraseP (Taken.isOf op sub) } := hu
    unfold setQueue setFunc
    simp only [e]
  · unfold setQueue
    rw [func_setFunc]
    split
    · next e => subst e; rw [hf]
    · rw [hf]

end Sys2Proof.Machine
end

