-- ==== Sys2Proof/Laws/KeptOps.lean ====
section
/-! SUPPORT. Every function of Machine.Ops keeps what `Kept` promises; where it touches no memory a second law says so. -/

namespace Sys2Proof.Machine
open Sys2Proof

@[simp] theorem State.spend_mem (s : State) : (State.spend s).mem = s.mem := by
  unfold State.spend
  with_reducible repeat' first | rfl | intro _ | simp only [apply_ite State.mem, ite_self] | split | dsimp only

theorem State.spend_kept {o : State} (s : State) (hmem : Kept o s) : Kept o (State.spend s) := by
  unfold State.spend
  with_reducible repeat' first | assumption | intro _ | simp only [kept_mk] | split | dsimp only

@[simp] theorem fatalStop_mem (s : State) : (fatalStop s).mem = s.mem := by
  unfold fatalStop; split <;> rfl

theorem fatalStop_kept {o : State} (s : State) (h : Kept o s) : Kept o (fatalStop s) := by
  unfold fatalStop
  split
  · exact h
  · exact ⟨⟨h.mem, h.pending, h.fuses⟩, h.fences, fun _ _ => rfl, h.audit⟩

@[simp] theorem conserve_mem (id inst : Nat) (p : Pool) (s : State) : (conserve id inst p s).mem = s.mem := by
  unfold conserve; split
  · rfl
  · exact fatalStop_mem _

theorem conserve_kept {o : State} (id inst : Nat) (p : Pool) (s : State) (h : Kept o s) : Kept o (conserve id inst p s) := by
  unfold conserve
  split
  · exact h
  · next hc =>
    simp only [Bool.or_eq_true, not_or, Bool.not_eq_true] at hc
    refine fatalStop_kept _ ⟨⟨h.mem, h.pending, h.fuses⟩, h.fences, h.fatal, fun d f => ?_⟩
    exact absurd (h.audit d f).1 (by simp [hc.2])

@[simp] theorem setDom_mem (s : State) (d : Nat) (f : Dom → Dom) : (setDom s d f).mem = s.mem := by
  unfold setDom
  with_reducible repeat' first | rfl | intro _ | simp only [apply_ite State.mem, ite_self] | split | dsimp only

theorem setDom_kept {o : State} (s : State) (d : Nat) (f : Dom → Dom) (hmem : Kept o s) : Kept o (setDom s d f) := by
  unfold setDom
  with_reducible repeat' first | assumption | intro _ | simp only [kept_mk] | split | dsimp only

@[simp] theorem setCore_mem (s : State) (n : Nat) (k : Core) : (setCore s n k).mem = s.mem := by
  unfold setCore
  with_reducible repeat' first | rfl | intro _ | simp only [apply_ite State.mem, ite_self] | split | dsimp only

theorem setCore_kept {o : State} (s : State) (n : Nat) (k : Core) (hmem : Kept o s) : Kept o (setCore s n k) := by
  unfold setCore
  with_reducible repeat' first | assumption | intro _ | simp only [kept_mk] | split | dsimp only

@[simp] theorem updCore_mem (s : State) (n : Nat) (f : Core → Core) : (updCore s n f).mem = s.mem := by
  unfold updCore
  with_reducible repeat' first | rfl | intro _ | simp only [setCore_mem] | split | dsimp only

theorem updCore_kept {o : State} (s : State) (n : Nat) (f : Core → Core) (hmem : Kept o s) : Kept o (updCore s n f) := by
  unfold updCore
  with_reducible repeat' first | assumption | intro _ | apply setCore_kept | split | dsimp only

@[simp] theorem setFunc_mem (s : State) (f : Nat) (g : Func → Func) : (setFunc s f g).mem = s.mem := by
  unfold setFunc
  with_reducible repeat' first | rfl | intro _ | simp only [apply_ite State.mem, ite_self] | split | dsimp only

theorem setFunc_kept {o : State} (s : State) (f : Nat) (g : Func → Func) (hmem : Kept o s) : Kept o (setFunc s f g) := by
  unfold setFunc
  with_reducible repeat' first | assumption | intro _ | simp only [kept_mk] | split | dsimp only

@[simp] theorem setTenant_mem (s : State) (t : Nat) (g : Tenant → Tenant) : (setTenant s t g).mem = s.mem := by
  unfold setTenant
  with_reducible repeat' first | rfl | intro _ | simp only [apply_ite State.mem, ite_self] | split | dsimp only

theorem setTenant_kept {o : State} (s : State) (t : Nat) (g : Tenant → Tenant) (hmem : Kept o s) : Kept o (setTenant s t g) :=
    by
  unfold setTenant
  with_reducible repeat' first | assumption | intro _ | simp only [kept_mk] | split | dsimp only

@[simp] theorem setTsec_mem (s : State) (t : Nat) (g : TenantSec → TenantSec) : (setTsec s t g).mem = s.mem := by
  unfold setTsec
  with_reducible repeat' first | rfl | intro _ | simp only [apply_ite State.mem, ite_self] | split | dsimp only

theorem setTsec_kept {o : State} (s : State) (t : Nat) (g : TenantSec → TenantSec) (hmem : Kept o s) : Kept o (setTsec s t g) :=
    by
  unfold setTsec
  with_reducible repeat' first | assumption | intro _ | simp only [kept_mk] | split | dsimp only

@[simp] theorem setCtx_mem (s : State) (c : Nat) (g : Context → Context) : (setCtx s c g).mem = s.mem := by
  unfold setCtx
  with_reducible repeat' first | rfl | intro _ | simp only [apply_ite State.mem, ite_self] | split | dsimp only

theorem setCtx_kept {o : State} (s : State) (c : Nat) (g : Context → Context) (hmem : Kept o s) : Kept o (setCtx s c g) := by
  unfold setCtx
  with_reducible repeat' first | assumption | intro _ | simp only [kept_mk] | split | dsimp only

end Sys2Proof.Machine
end

