-- ==== Sys2Proof/Laws/KeptDramOps.lean ====
section
/-! SUPPORT. Every function of Machine.DramOps keeps what `Kept` promises; where it touches no memory a second law says so. -/

namespace Sys2Proof.Machine
open Sys2Proof Numeric

theorem writeLine_kept {o : State} (s : State) (a : Nat) (r : RowData) (hmem : Kept o s) : Kept o (writeLine s a r) := by
  unfold writeLine
  with_reducible repeat' first
    | assumption | intro _ | refine ite_kept _ _ ?_ ?_ | exact Kept.wf (by assumption) (by assumption)
    | apply Memory.wf_wrDram | refine Kept.wf ?_ ?_ | split | dsimp only
    | refine Kept.mems ?_ _ _ _ _ _ _ _ _ _ _ _ _ _ _ _ _ ?_

theorem writeLines_kept {o : State} (s : State) (a : Nat) (rows : List RowData) (h : Kept o s) :
    Kept o (writeLines s a rows) := by
  unfold writeLines
  induction rows generalizing s a with
  | nil => exact h
  | cons r rows ih => exact ih _ _ (writeLine_kept s a r h)

theorem patchDram_kept {o : State} (s : State) (a : Nat) (bs : Bytes) (hmem : Kept o s) : Kept o (patchDram s a bs) := by
  unfold patchDram
  with_reducible repeat' first
    | assumption | intro _ | apply writeLine_kept | refine foldl_kept _ (fun _ _ _ => ?_) _ _ ?_ | refine ite_kept _ _ ?_ ?_
    | split | dsimp only

theorem writeSram_kept {o : State} (s : State) (a : Nat) (r : RowData) (hmem : Kept o s) : Kept o (writeSram s a r) := by
  unfold writeSram
  with_reducible repeat' first
    | assumption | intro _ | refine ite_kept _ _ ?_ ?_ | exact Kept.wf (by assumption) (by assumption)
    | apply Memory.wf_wrSram | refine Kept.wf ?_ ?_ | split | dsimp only
    | refine Kept.mems ?_ _ _ _ _ _ _ _ _ _ _ _ _ _ _ _ _ ?_

theorem clearSram_kept {o : State} (s : State) (a n : Nat) (hmem : Kept o s) : Kept o (clearSram s a n) := by
  unfold clearSram
  with_reducible repeat' first
    | assumption | intro _ | exact Kept.wf (by assumption) (by assumption) | apply Memory.wf_clrSram | refine Kept.wf ?_ ?_
    | split | dsimp only | refine Kept.mems ?_ _ _ _ _ _ _ _ _ _ _ _ _ _ _ _ _ ?_

end Sys2Proof.Machine
end

