-- ==== Sys2Proof/Laws/KeptHostOps.lean ====
section
/-! SUPPORT. Every function of Machine.HostOps keeps what `Kept` promises; where it touches no memory a second law says so. -/

namespace Sys2Proof.Machine
open Sys2Proof

@[simp] theorem setQueue_mem (s : State) (f q : Nat) (g : HostQueue → HostQueue) : (setQueue s f q g).mem = s.mem := by
  unfold setQueue
  with_reducible repeat' first | rfl | intro _ | simp only [setFunc_mem] | split | dsimp only

theorem setQueue_kept {o : State} (s : State) (f q : Nat) (g : HostQueue → HostQueue) (hmem : Kept o s) : Kept o (setQueue s f q
    g) := by
  unfold setQueue
  with_reducible repeat' first | assumption | intro _ | apply setFunc_kept | simp only [kept_mk] | split | dsimp only

@[simp] theorem queueCompletion_mem (sub : Sub) (c : Completion) (s : State) : (queueCompletion sub c s).mem = s.mem := by
  unfold queueCompletion
  with_reducible repeat' first | rfl | intro _ | simp only [setQueue_mem, apply_ite State.mem, ite_self] | split | dsimp only

theorem queueCompletion_kept {o : State} (sub : Sub) (c : Completion) (s : State) (hmem : Kept o s) : Kept o (queueCompletion
    sub c s) := by
  unfold queueCompletion
  with_reducible repeat' first
    | assumption | intro _ | apply setQueue_kept | refine ite_kept _ _ ?_ ?_ | simp only [kept_mk] | split | dsimp only

@[simp] theorem complete_mem (sub : Sub) (c : Completion) (s : State) : (complete sub c s).mem = s.mem := by
  unfold complete
  with_reducible repeat' first
    | rfl | intro _ | simp only [queueCompletion_mem, apply_ite State.mem]
    | refine (foldl_mem _ (fun _ _ => ?_) _ _).trans ?_ | split | dsimp only

theorem complete_kept {o : State} (sub : Sub) (c : Completion) (s : State) (hmem : Kept o s) : Kept o (complete sub c s) := by
  unfold complete
  with_reducible repeat' first
    | assumption | intro _ | apply queueCompletion_kept | refine foldl_kept _ (fun _ _ _ => ?_) _ _ ?_
    | refine ite_kept _ _ ?_ ?_ | split | dsimp only

@[simp] theorem reply_mem (sub : Sub) (st : BitVec 16) (detail : Nat) (s : State) : (reply sub st detail s).mem = s.mem := by
  unfold reply
  with_reducible repeat' first | rfl | intro _ | simp only [complete_mem] | split | dsimp only

theorem reply_kept {o : State} (sub : Sub) (st : BitVec 16) (detail : Nat) (s : State) (hmem : Kept o s) : Kept o (reply sub st
    detail s) := by
  unfold reply
  with_reducible repeat' first | assumption | intro _ | apply complete_kept | split | dsimp only

@[simp] theorem endWith_mem (sub : Sub) (st : BitVec 16) (s : State) : (endWith sub st s).mem = s.mem := by
  unfold endWith
  with_reducible repeat' first | rfl | intro _ | simp only [reply_mem] | split | dsimp only

theorem endWith_kept {o : State} (sub : Sub) (st : BitVec 16) (s : State) (hmem : Kept o s) : Kept o (endWith sub st s) := by
  unfold endWith
  with_reducible repeat' first | assumption | intro _ | apply reply_kept | split | dsimp only

@[simp] theorem popTaken_mem (op : Nat) (sub : Sub) (s : State) : (popTaken op sub s).mem = s.mem := by
  unfold popTaken
  with_reducible repeat' first | rfl | intro _ | simp only [apply_ite State.mem, ite_self] | split | dsimp only

theorem popTaken_kept {o : State} (op : Nat) (sub : Sub) (s : State) (hmem : Kept o s) : Kept o (popTaken op sub s) := by
  unfold popTaken
  with_reducible repeat' first | assumption | intro _ | simp only [kept_mk] | split | dsimp only

@[simp] theorem postEvent_mem (f : Nat) (ev : Bytes) (s : State) : (postEvent f ev s).mem = s.mem := by
  unfold postEvent
  with_reducible repeat' first | rfl | intro _ | simp only [setFunc_mem] | split | dsimp only

theorem postEvent_kept {o : State} (f : Nat) (ev : Bytes) (s : State) (hmem : Kept o s) : Kept o (postEvent f ev s) := by
  unfold postEvent
  with_reducible repeat' first | assumption | intro _ | apply setFunc_kept | simp only [kept_mk] | split | dsimp only

@[simp] theorem postReclaim_mem (dom : Nat) (es : List (Nat × Nat × Nat)) (s : State) : (postReclaim dom es s).mem = s.mem := by
  unfold postReclaim
  with_reducible repeat' first
    | rfl | intro _ | simp only [postEvent_mem]
    | refine (foldl_mem _ (fun _ _ => ?_) _ _).trans ?_ | split | dsimp only

theorem postReclaim_kept {o : State} (dom : Nat) (es : List (Nat × Nat × Nat)) (s : State) (hmem : Kept o s) : Kept o
    (postReclaim dom es s) := by
  unfold postReclaim
  with_reducible repeat' first
    | assumption | intro _ | apply postEvent_kept | refine foldl_kept _ (fun _ _ _ => ?_) _ _ ?_ | simp only [kept_mk] | split
    | dsimp only

@[simp] theorem queueError_mem (f q cause : Nat) (s : State) : (queueError f q cause s).mem = s.mem := by
  unfold queueError
  with_reducible repeat' first
    | rfl | intro _ | simp only [setQueue_mem, postEvent_mem] | split | dsimp only

theorem queueError_kept {o : State} (f q cause : Nat) (s : State) (hmem : Kept o s) : Kept o (queueError f q cause s) := by
  unfold queueError
  with_reducible repeat' first
    | assumption | intro _ | apply setQueue_kept | apply postEvent_kept | simp only [kept_mk] | split | dsimp only

theorem writeEvent_kept {o : State} (f : Nat) (ev : Bytes) (s : State) (hmem : Kept o s) : Kept o (writeEvent f ev s) := by
  unfold writeEvent
  with_reducible repeat' first
    | assumption | intro _ | apply setFunc_kept | refine ite_kept _ _ ?_ ?_ | refine setMems_kept _ _ ?_ ?_
    | exact Kept.wf (by assumption) (by assumption) | apply Memory.wf_wrHost | refine Kept.wf ?_ ?_ | simp only [kept_mk]
    | split | dsimp only

@[simp] theorem signalVector_mem (f v : Nat) (s : State) : (signalVector f v s).mem = s.mem := by
  unfold signalVector
  with_reducible repeat' first | rfl | intro _ | simp only [setFunc_mem, apply_ite State.mem, ite_self] | split | dsimp only

theorem signalVector_kept {o : State} (f v : Nat) (s : State) (hmem : Kept o s) : Kept o (signalVector f v s) := by
  unfold signalVector
  with_reducible repeat' first
    | assumption | intro _ | apply setFunc_kept | refine ite_kept _ _ ?_ ?_ | simp only [kept_mk] | split | dsimp only

@[simp] theorem addLong_mem (l : LongOp) (s : State) : (addLong l s).mem = s.mem := by
  unfold addLong
  with_reducible repeat' first | rfl | intro _ | simp only [apply_ite State.mem, ite_self] | split | dsimp only

theorem addLong_kept {o : State} (l : LongOp) (s : State) (hmem : Kept o s) : Kept o (addLong l s) := by
  unfold addLong
  with_reducible repeat' first | assumption | intro _ | simp only [kept_mk] | split | dsimp only

@[simp] theorem waitLong_mem (k : LongKind) (sub : Sub) (op : Nat) (s : State) : (waitLong k sub op s).mem = s.mem := by
  unfold waitLong
  with_reducible repeat' first | rfl | intro _ | simp only [apply_ite State.mem, ite_self] | split | dsimp only

theorem waitLong_kept {o : State} (k : LongKind) (sub : Sub) (op : Nat) (s : State) (hmem : Kept o s) : Kept o (waitLong k sub
    op s) := by
  unfold waitLong
  with_reducible repeat' first | assumption | intro _ | refine ite_kept _ _ ?_ ?_ | simp only [kept_mk] | split | dsimp only

@[simp] theorem removeLong_mem (k : LongKind) (s : State) : (removeLong k s).mem = s.mem := by
  unfold removeLong
  with_reducible repeat' first | rfl | intro _ | simp only [apply_ite State.mem, ite_self] | split | dsimp only

theorem removeLong_kept {o : State} (k : LongKind) (s : State) (hmem : Kept o s) : Kept o (removeLong k s) := by
  unfold removeLong
  with_reducible repeat' first | assumption | intro _ | simp only [kept_mk] | split | dsimp only

@[simp] theorem finishLong_mem (k : LongKind) (sub : Sub) (c : Completion) (s : State) : (finishLong k sub c s).mem = s.mem :=
    by
  unfold finishLong
  with_reducible repeat' first
    | rfl | intro _ | simp only [complete_mem, endWith_mem, removeLong_mem]
    | refine (foldl_mem _ (fun _ _ => ?_) _ _).trans ?_ | split | dsimp only

theorem finishLong_kept {o : State} (k : LongKind) (sub : Sub) (c : Completion) (s : State) (hmem : Kept o s) : Kept o
    (finishLong k sub c s) := by
  unfold finishLong
  with_reducible repeat' first
    | assumption | intro _ | apply complete_kept | apply endWith_kept | apply removeLong_kept
    | refine foldl_kept _ (fun _ _ _ => ?_) _ _ ?_ | simp only [kept_mk] | split | dsimp only

@[simp] theorem dropLong_mem (k : LongKind) (s : State) : (dropLong k s).mem = s.mem := by
  unfold dropLong
  with_reducible repeat' first
    | rfl | intro _ | simp only [endWith_mem, removeLong_mem]
    | refine (foldl_mem _ (fun _ _ => ?_) _ _).trans ?_ | split | dsimp only

theorem dropLong_kept {o : State} (k : LongKind) (s : State) (hmem : Kept o s) : Kept o (dropLong k s) := by
  unfold dropLong
  with_reducible repeat' first
    | assumption | intro _ | apply endWith_kept | apply removeLong_kept | refine foldl_kept _ (fun _ _ _ => ?_) _ _ ?_
    | refine ite_kept _ _ ?_ ?_ | split | dsimp only

@[simp] theorem markLong_mem (k : LongKind) (susp : Bool) (s : State) : (markLong k susp s).mem = s.mem := by
  unfold markLong
  with_reducible repeat' first | rfl | intro _ | simp only [apply_ite State.mem, ite_self] | split | dsimp only

theorem markLong_kept {o : State} (k : LongKind) (susp : Bool) (s : State) (hmem : Kept o s) : Kept o (markLong k susp s) := by
  unfold markLong
  with_reducible repeat' first | assumption | intro _ | refine ite_kept _ _ ?_ ?_ | simp only [kept_mk] | split | dsimp only

@[simp] theorem settleLong_mem (k : LongKind) (op : Nat) (s : State) : (settleLong k op s).mem = s.mem := by
  unfold settleLong
  with_reducible repeat' first
    | rfl | intro _ | simp only [endWith_mem]
    | refine (foldl_mem _ (fun _ _ => ?_) _ _).trans ?_ | split | dsimp only

theorem settleLong_kept {o : State} (k : LongKind) (op : Nat) (s : State) (hmem : Kept o s) : Kept o (settleLong k op s) := by
  unfold settleLong
  with_reducible repeat' first
    | assumption | intro _ | apply endWith_kept | refine foldl_kept _ (fun _ _ _ => ?_) _ _ ?_ | refine ite_kept _ _ ?_ ?_
    | simp only [kept_mk] | split | dsimp only

end Sys2Proof.Machine
end

