-- ==== Sys2Proof/Laws/KeptJobOps.lean ====
section
/-! SUPPORT. Every function of Machine.JobOps keeps what `Kept` promises; where it touches no memory a second law says so. -/

namespace Sys2Proof.Machine
open Sys2Proof

@[simp] theorem setJob_mem (s : State) (n : Nat) (f : Job → Job) : (setJob s n f).mem = s.mem := by
  unfold setJob
  with_reducible repeat' first | rfl | intro _ | simp only [apply_ite State.mem, ite_self] | split | dsimp only

theorem setJob_kept {o : State} (s : State) (n : Nat) (f : Job → Job) (hmem : Kept o s) : Kept o (setJob s n f) := by
  unfold setJob
  with_reducible repeat' first | assumption | intro _ | simp only [kept_mk] | split | dsimp only

@[simp] theorem dropJob_mem (s : State) (n : Nat) : (dropJob s n).mem = s.mem := by
  unfold dropJob
  with_reducible repeat' first | rfl | intro _ | simp only [setJob_mem] | split | dsimp only

theorem dropJob_kept {o : State} (s : State) (n : Nat) (hmem : Kept o s) : Kept o (dropJob s n) := by
  unfold dropJob
  with_reducible repeat' first | assumption | intro _ | apply setJob_kept | split | dsimp only

@[simp] theorem retireJob_mem (s : State) (n : Nat) : (retireJob s n).mem = s.mem := by
  unfold retireJob
  with_reducible repeat' first | rfl | intro _ | simp only [setJob_mem] | split | dsimp only

theorem retireJob_kept {o : State} (s : State) (n : Nat) (hmem : Kept o s) : Kept o (retireJob s n) := by
  unfold retireJob
  with_reducible repeat' first | assumption | intro _ | apply setJob_kept | simp only [kept_mk] | split | dsimp only

@[simp] theorem addJob_mem (j : Job) (s : State) : (addJob j s).mem = s.mem := by
  unfold addJob
  with_reducible repeat' first | rfl | intro _ | simp only [apply_ite State.mem, ite_self] | split | dsimp only

theorem addJob_kept {o : State} (j : Job) (s : State) (hmem : Kept o s) : Kept o (addJob j s) := by
  unfold addJob
  with_reducible repeat' first | assumption | intro _ | simp only [kept_mk] | split | dsimp only

@[simp] theorem finishHostJob_mem (n : Nat) (s : State) : (finishHostJob n s).mem = s.mem := by
  unfold finishHostJob
  with_reducible repeat' first
    | rfl | intro _ | simp only [complete_mem, finishLong_mem, apply_ite State.mem, ite_self] | split | dsimp only

theorem finishHostJob_kept {o : State} (n : Nat) (s : State) (hmem : Kept o s) : Kept o (finishHostJob n s) := by
  unfold finishHostJob
  with_reducible repeat' first
    | assumption | intro _ | apply complete_kept | apply finishLong_kept | refine ite_kept _ _ ?_ ?_
    | split | dsimp only

@[simp] theorem coreReport_mem (n c : Nat) (st : BitVec 16) (detail : Word) (s : State) : (coreReport n c st detail s).mem =
    s.mem := by
  unfold coreReport
  with_reducible repeat' first
    | rfl | intro _ | simp only [setJob_mem, finishHostJob_mem, apply_ite State.mem, ite_self] | split | dsimp only

theorem coreReport_kept {o : State} (n c : Nat) (st : BitVec 16) (detail : Word) (s : State) (hmem : Kept o s) : Kept o
    (coreReport n c st detail s) := by
  unfold coreReport
  with_reducible repeat' first
    | assumption | intro _ | apply setJob_kept | apply finishHostJob_kept | refine ite_kept _ _ ?_ ?_ | simp only [kept_mk]
    | split | dsimp only

end Sys2Proof.Machine
end

