-- ==== Sys2Proof/Laws/KeptCoreOps.lean ====
section
/-! SUPPORT. Every function of Machine.CoreOps keeps what `Kept` promises; where it touches no memory a second law says so. -/

namespace Sys2Proof.Machine
open Sys2Proof Numeric

theorem putRow_kept {o : State} (c r : Nat) (bs : Bytes) (poison : Bool) (s : State) (hmem : Kept o s) : Kept o (putRow c r bs
    poison s) := by
  unfold putRow
  with_reducible repeat' first
    | assumption | intro _ | apply updCore_kept | refine setMems_kept _ _ ?_ ?_
    | exact Kept.wf (by assumption) (by assumption) | apply Memory.wf_wrSpm | refine Kept.wf ?_ ?_ | split | dsimp only

theorem putRows_kept {o : State} (c r : Nat) (bs : Bytes) (poison : Bool) (n : Nat) (s : State) (hmem : Kept o s) : Kept o
    (putRows c r bs poison n s) := by
  unfold putRows
  with_reducible repeat' first
    | assumption | intro _ | apply putRow_kept | refine foldl_kept _ (fun _ _ _ => ?_) _ _ ?_ | split | dsimp only

theorem putPart_kept {o : State} (c a : Nat) (bs : Bytes) (poison : Bool) (s : State) (hmem : Kept o s) : Kept o (putPart c a bs
    poison s) := by
  unfold putPart
  with_reducible repeat' first
    | assumption | intro _ | apply updCore_kept | refine foldl_kept _ (fun _ _ _ => ?_) _ _ ?_ | refine ite_kept _ _ ?_ ?_
    | refine setMems_kept _ _ ?_ ?_ | exact Kept.wf (by assumption) (by assumption) | apply Memory.wf_wrSpm
    | refine Kept.wf ?_ ?_ | split | dsimp only

theorem releaseRegions_kept {o : State} (c : Nat) (rs : List Nat) (s : State) (hmem : Kept o s) : Kept o (releaseRegions c rs s)
    := by
  unfold releaseRegions
  with_reducible repeat' first
    | assumption | intro _ | apply updCore_kept | refine foldl_kept _ (fun _ _ _ => ?_) _ _ ?_ | refine setMems_kept _ _ ?_ ?_
    | exact Kept.wf (by assumption) (by assumption) | apply Memory.wf_clrSpm | refine Kept.wf ?_ ?_ | simp only [kept_mk]
    | split | dsimp only

theorem scrubCore_kept {o : State} (c owner : Nat) (s : State) (hmem : Kept o s) : Kept o (scrubCore c owner s) := by
  unfold scrubCore
  with_reducible repeat' first
    | assumption | intro _ | apply updCore_kept | refine foldl_kept _ (fun _ _ _ => ?_) _ _ ?_ | refine setMems_kept _ _ ?_ ?_
    | exact Kept.wf (by assumption) (by assumption) | apply Memory.wf_dropSpm | refine Kept.wf ?_ ?_ | simp only [kept_mk]
    | split | dsimp only

theorem resetCore_kept {o : State} (c : Nat) (s : State) (hmem : Kept o s) : Kept o (resetCore c s) := by
  unfold resetCore
  with_reducible repeat' first
    | assumption | intro _ | apply updCore_kept | refine setMems_kept _ _ ?_ ?_
    | exact Kept.wf (by assumption) (by assumption) | apply Memory.wf_zeroCore | refine Kept.wf ?_ ?_ | simp only [kept_mk]
    | split | dsimp only

@[simp] theorem setRun_mem (c : Nat) (f : Run → Run) (s : State) : (setRun c f s).mem = s.mem := by
  unfold setRun
  with_reducible repeat' first | rfl | intro _ | simp only [updCore_mem] | split | dsimp only

theorem setRun_kept {o : State} (c : Nat) (f : Run → Run) (s : State) (hmem : Kept o s) : Kept o (setRun c f s) := by
  unfold setRun
  with_reducible repeat' first | assumption | intro _ | apply updCore_kept | simp only [kept_mk] | split | dsimp only

@[simp] theorem decodeError_mem (c : Nat) (codes : List Nat) (s : State) : (decodeError c codes s).mem = s.mem := by
  unfold decodeError
  with_reducible repeat' first
    | rfl | intro _ | simp only [State.spend_mem, updCore_mem, setRun_mem] | split | dsimp only

theorem decodeError_kept {o : State} (c : Nat) (codes : List Nat) (s : State) (hmem : Kept o s) : Kept o (decodeError c codes s)
    := by
  unfold decodeError
  with_reducible repeat' first
    | assumption | intro _ | apply State.spend_kept | apply updCore_kept | apply setRun_kept | split
    | dsimp only

@[simp] theorem issueError_mem (c pos code : Nat) (s : State) : (issueError c pos code s).mem = s.mem := by
  unfold issueError
  with_reducible repeat' first
    | rfl | intro _ | simp only [updCore_mem, setRun_mem] | split | dsimp only

theorem issueError_kept {o : State} (c pos code : Nat) (s : State) (hmem : Kept o s) : Kept o (issueError c pos code s) := by
  unfold issueError
  with_reducible repeat' first | assumption | intro _ | apply updCore_kept | apply setRun_kept | split | dsimp only

@[simp] theorem raisePoison_mem (c i : Nat) (s : State) : (raisePoison c i s).mem = s.mem := by
  unfold raisePoison
  with_reducible repeat' first
    | rfl | intro _ | simp only [updCore_mem, setRun_mem] | split | dsimp only

theorem raisePoison_kept {o : State} (c i : Nat) (s : State) (hmem : Kept o s) : Kept o (raisePoison c i s) := by
  unfold raisePoison
  with_reducible repeat' first
    | assumption | intro _ | apply updCore_kept | apply setRun_kept | simp only [kept_mk] | split | dsimp only

@[simp] theorem decodeQueued_mem (c : Nat) (opc : Nat → Bool) (sel : Op → Bool) (s : State) : (decodeQueued c opc sel s).mem =
    s.mem := by
  unfold decodeQueued
  with_reducible repeat' first
    | rfl | intro _ | simp only [setRun_mem, decodeError_mem, apply_ite State.mem, ite_self] | split | dsimp only

theorem decodeQueued_kept {o : State} (c : Nat) (opc : Nat → Bool) (sel : Op → Bool) (s : State) (hmem : Kept o s) : Kept o
    (decodeQueued c opc sel s) := by
  unfold decodeQueued
  with_reducible repeat' first
    | assumption | intro _ | apply setRun_kept | apply decodeError_kept | refine ite_kept _ _ ?_ ?_ | simp only [kept_mk]
    | split | dsimp only

@[simp] theorem popHead_mem (c : Nat) (s : State) : (popHead c s).mem = s.mem := by
  unfold popHead
  with_reducible repeat' first | rfl | intro _ | simp only [setRun_mem] | split | dsimp only

theorem popHead_kept {o : State} (c : Nat) (s : State) (hmem : Kept o s) : Kept o (popHead c s) := by
  unfold popHead
  with_reducible repeat' first | assumption | intro _ | apply setRun_kept | simp only [kept_mk] | split | dsimp only

@[simp] theorem returnLast_mem (c : Nat) (rows : List Nat) (s : State) : (returnLast c rows s).mem = s.mem := by
  unfold returnLast
  with_reducible repeat' first | rfl | intro _ | simp only [updCore_mem] | split | dsimp only

theorem returnLast_kept {o : State} (c : Nat) (rows : List Nat) (s : State) (hmem : Kept o s) : Kept o (returnLast c rows s) :=
    by
  unfold returnLast
  with_reducible repeat' first | assumption | intro _ | apply updCore_kept | split | dsimp only

theorem headCheck_mem (c : Nat) (r : Run) (q : QOp) (s t : State) (h : headCheck c r q s = some t) : t.mem = s.mem := by
  unfold headCheck at h
  split at h <;> simp only [Option.some.injEq, reduceCtorEq] at h <;> subst h <;> simp

theorem headCheck_kept {o : State} (c : Nat) (r : Run) (q : QOp) (s t : State) (h : headCheck c r q s = some t) (hk : Kept o s)
    : Kept o t := by
  unfold headCheck at h
  split at h <;> simp only [Option.some.injEq, reduceCtorEq] at h <;> subst h
  · exact setRun_kept _ _ _ hk
  · exact issueError_kept _ _ _ _ hk

theorem issueRows_kept {o : State} (c : Nat) (sel : Op → Bool) (acc : Op → List Nat) (f : QOp → Bool → State → State) (s :
    State)
    (hf : ∀ q p s, Kept o s → Kept o (f q p s)) (h : Kept o s) : Kept o (issueRows c sel acc f s) := by
  unfold issueRows
  split
  · exact h
  · split
    · next hc => exact headCheck_kept _ _ _ _ _ hc h
    · dsimp only
      split
      · exact h
      · apply State.spend_kept
        apply ite_kept
        · exact raisePoison_kept _ _ _ (returnLast_kept _ _ _ (hf _ _ _ (updCore_kept _ _ _ (popHead_kept _ _ h))))
        · exact returnLast_kept _ _ _ (hf _ _ _ (updCore_kept _ _ _ (popHead_kept _ _ h)))

@[simp] theorem settleSuspend_mem (c : Nat) (s : State) : (settleSuspend c s).mem = s.mem := by
  unfold settleSuspend
  with_reducible repeat' first
    | rfl | intro _ | simp only [updCore_mem, markLong_mem, settleLong_mem, setJob_mem, apply_ite State.mem, ite_self] | split
    | dsimp only

theorem settleSuspend_kept {o : State} (c : Nat) (s : State) (hmem : Kept o s) : Kept o (settleSuspend c s) := by
  unfold settleSuspend
  with_reducible repeat' first
    | assumption | intro _ | apply updCore_kept | apply markLong_kept | apply settleLong_kept | apply setJob_kept
    | refine ite_kept _ _ ?_ ?_ | split | dsimp only

theorem endRegions_kept {o : State} (c : Nat) (r : Run) (held : List Nat) (ok : Bool) (s : State) (hmem : Kept o s) : Kept o
    (endRegions c r held ok s) := by
  unfold endRegions
  with_reducible repeat' first
    | assumption | intro _ | apply updCore_kept | apply releaseRegions_kept | refine ite_kept _ _ ?_ ?_ | split | dsimp only

theorem leavePartition_kept {o : State} (c : Nat) (s : State) (hmem : Kept o s) : Kept o (leavePartition c s) := by
  unfold leavePartition
  with_reducible repeat' first
    | assumption | intro _ | apply releaseRegions_kept | refine ite_kept _ _ ?_ ?_ | split | dsimp only

theorem dropKept_kept {o : State} (c : Nat) (st : BitVec 16) (s : State) (hmem : Kept o s) : Kept o (dropKept c st s) := by
  unfold dropKept
  with_reducible repeat' first
    | assumption | intro _ | apply updCore_kept | apply coreReport_kept | apply endRegions_kept | apply leavePartition_kept
    | split | dsimp only

theorem cancelCores_kept {o : State} (n : Nat) (st : BitVec 16) (s : State) (hmem : Kept o s) : Kept o (cancelCores n st s) :=
    by
  unfold cancelCores
  with_reducible repeat' first
    | assumption | intro _ | apply updCore_kept | apply coreReport_kept | apply setRun_kept | apply leavePartition_kept
    | apply dropKept_kept | refine foldl_kept _ (fun _ _ _ => ?_) _ _ ?_ | refine ite_kept _ _ ?_ ?_ | simp only [kept_mk]
    | split | dsimp only

theorem reportEnd_kept {o : State} (n c : Nat) (st : BitVec 16) (detail : Word) (s : State) (hmem : Kept o s) : Kept o
    (reportEnd n c st detail s) := by
  unfold reportEnd
  with_reducible repeat' first
    | assumption | intro _ | apply coreReport_kept | apply cancelCores_kept | refine ite_kept _ _ ?_ ?_ | split | dsimp only

theorem endRun_kept {o : State} (c : Nat) (s : State) (hmem : Kept o s) : Kept o (endRun c s) := by
  unfold endRun
  with_reducible repeat' first
    | assumption | intro _ | apply updCore_kept | apply endRegions_kept | apply leavePartition_kept | apply reportEnd_kept
    | split | dsimp only

theorem killCore_kept {o : State} (c : Nat) (st : BitVec 16) (s : State) (hmem : Kept o s) : Kept o (killCore c st s) := by
  unfold killCore
  with_reducible repeat' first
    | assumption | intro _ | apply updCore_kept | apply reportEnd_kept | split | dsimp only

end Sys2Proof.Machine
end

