-- ==== Sys2Proof/Laws/KeptCoreFetch.lean ====
section
/-! SUPPORT. Every function of Machine.CoreFetch keeps what `Kept` promises; where it touches no memory a second law says so. -/

namespace Sys2Proof.Machine
open Sys2Proof Numeric

theorem startJob_kept {o : State} (c : Nat) (s : State) (hmem : Kept o s) : Kept o (startJob c s) := by
  unfold startJob
  with_reducible repeat' first
    | assumption | intro _ | apply updCore_kept | apply scrubCore_kept | apply settleSuspend_kept | refine ite_kept _ _ ?_ ?_
    | split | dsimp only

@[simp] theorem loadFails_mem (c : Nat) (st : BitVec 16) (detail : Word) (s : State) : (loadFails c st detail s).mem = s.mem :=
    by
  unfold loadFails
  with_reducible repeat' first | rfl | intro _ | simp only [setRun_mem] | split | dsimp only

theorem loadFails_kept {o : State} (c : Nat) (st : BitVec 16) (detail : Word) (s : State) (hmem : Kept o s) : Kept o (loadFails
    c st detail s) := by
  unfold loadFails
  with_reducible repeat' first | assumption | intro _ | apply setRun_kept | split | dsimp only

@[simp] theorem loadPoisoned_mem (c : Nat) (s : State) : (loadPoisoned c s).mem = s.mem := by
  unfold loadPoisoned
  with_reducible repeat' first
    | rfl | intro _ | simp only [updCore_mem, loadFails_mem] | split | dsimp only

theorem loadPoisoned_kept {o : State} (c : Nat) (s : State) (hmem : Kept o s) : Kept o (loadPoisoned c s) := by
  unfold loadPoisoned
  with_reducible repeat' first
    | assumption | intro _ | apply updCore_kept | apply loadFails_kept | simp only [kept_mk] | split | dsimp only

theorem landProgram_kept {o : State} (c : Nat) (r : Run) (s : State) (hmem : Kept o s) : Kept o (landProgram c r s) := by
  unfold landProgram
  with_reducible repeat' first
    | assumption | intro _ | apply updCore_kept | apply setRun_kept | apply loadFails_kept | apply loadPoisoned_kept
    | refine ite_kept _ _ ?_ ?_ | refine setMems_kept _ _ ?_ ?_ | exact Kept.wf (by assumption) (by assumption)
    | apply Memory.wf_wrProg | refine Kept.wf ?_ ?_ | split | dsimp only

theorem landReside_kept {o : State} (c : Nat) (r : Run) (first count addr : Nat) (s : State) (hmem : Kept o s) : Kept o
    (landReside c r first count addr s) := by
  unfold landReside
  with_reducible repeat' first
    | assumption | intro _ | apply updCore_kept | apply putRow_kept | apply setRun_kept | apply loadFails_kept
    | apply loadPoisoned_kept | refine foldl_kept _ (fun _ _ _ => ?_) _ _ ?_ | refine ite_kept _ _ ?_ ?_ | simp only [kept_mk]
    | split | dsimp only

@[simp] theorem decodeEnd_mem (c : Nat) (s : State) : (decodeEnd c s).mem = s.mem := by
  unfold decodeEnd
  with_reducible repeat' first
    | rfl | intro _ | simp only [setRun_mem, decodeError_mem, apply_ite State.mem, ite_self] | split | dsimp only

theorem decodeEnd_kept {o : State} (c : Nat) (s : State) (hmem : Kept o s) : Kept o (decodeEnd c s) := by
  unfold decodeEnd
  with_reducible repeat' first
    | assumption | intro _ | apply setRun_kept | apply decodeError_kept | refine ite_kept _ _ ?_ ?_
    | split | dsimp only

@[simp] theorem issueFetch_mem (c : Nat) (r : Run) (f : FetchOp) (s : State) : (issueFetch c r f s).mem = s.mem := by
  unfold issueFetch
  with_reducible repeat' first
    | rfl | intro _ | simp only [State.spend_mem, conserve_mem, updCore_mem, setRun_mem]
    | split | dsimp only

theorem issueFetch_kept {o : State} (c : Nat) (r : Run) (f : FetchOp) (s : State) (hmem : Kept o s) : Kept o (issueFetch c r f
    s) := by
  unfold issueFetch
  with_reducible repeat' first
    | assumption | intro _ | apply State.spend_kept | apply conserve_kept | apply updCore_kept | apply setRun_kept
    | refine ite_kept _ _ ?_ ?_ | simp only [kept_mk] | split | dsimp only

@[simp] theorem decodeFetchOp_mem (c : Nat) (r : Run) (f : FetchOp) (s : State) : (decodeFetchOp c r f s).mem = s.mem := by
  unfold decodeFetchOp
  with_reducible repeat' first
    | rfl | intro _ | simp only [State.spend_mem, setRun_mem, decodeError_mem, issueFetch_mem, apply_ite State.mem, ite_self]
    | split | dsimp only

theorem decodeFetchOp_kept {o : State} (c : Nat) (r : Run) (f : FetchOp) (s : State) (hmem : Kept o s) : Kept o (decodeFetchOp c
    r f s) := by
  unfold decodeFetchOp
  with_reducible repeat' first
    | assumption | intro _ | apply State.spend_kept | apply setRun_kept | apply decodeError_kept | apply issueFetch_kept
    | refine ite_kept _ _ ?_ ?_ | simp only [kept_mk] | split | dsimp only

@[simp] theorem rowFinding_mem (c row : Nat) (f : Finding) (s : State) : (rowFinding c row f s).mem = s.mem := by
  unfold rowFinding
  with_reducible repeat' first | rfl | intro _ | simp only [updCore_mem] | split | dsimp only

theorem rowFinding_kept {o : State} (c row : Nat) (f : Finding) (s : State) (hmem : Kept o s) : Kept o (rowFinding c row f s) :=
    by
  unfold rowFinding
  with_reducible repeat' first | assumption | intro _ | apply updCore_kept | split | dsimp only

@[simp] theorem countFetched_mem (x : Transfer) (s : State) : (countFetched x s).mem = s.mem := by
  unfold countFetched
  with_reducible repeat' first | rfl | intro _ | simp only [apply_ite State.mem, ite_self] | split | dsimp only

theorem countFetched_kept {o : State} (x : Transfer) (s : State) (hmem : Kept o s) : Kept o (countFetched x s) := by
  unfold countFetched
  with_reducible repeat' first | assumption | intro _ | refine ite_kept _ _ ?_ ?_ | simp only [kept_mk] | split | dsimp only

@[simp] theorem setTransfer_mem (c : Nat) (x : Transfer) (s : State) : (setTransfer c x s).mem = s.mem := by
  unfold setTransfer
  with_reducible repeat' first | rfl | intro _ | simp only [setRun_mem] | split | dsimp only

theorem setTransfer_kept {o : State} (c : Nat) (x : Transfer) (s : State) (hmem : Kept o s) : Kept o (setTransfer c x s) := by
  unfold setTransfer
  with_reducible repeat' first | assumption | intro _ | apply setRun_kept | simp only [kept_mk] | split | dsimp only

theorem landRow_kept {o : State} (c : Nat) (r : Run) (x : Transfer) (d : RowData) (f : Finding) (s : State) (hmem : Kept o s) :
    Kept o (landRow c r x d f s) := by
  unfold landRow
  with_reducible repeat' first
    | assumption | intro _ | apply putRow_kept | apply settleSuspend_kept | apply rowFinding_kept | apply countFetched_kept
    | apply setTransfer_kept | refine ite_kept _ _ ?_ ?_ | simp only [kept_mk] | split | dsimp only

theorem decodeOwn_kept {o : State} (c opc : Nat) (f : Op → Run → State → State) (s : State)
    (hf : ∀ op r s, Kept o s → Kept o (f op r s)) (hmem : Kept o s) : Kept o (decodeOwn c opc f s) := by
  unfold decodeOwn
  with_reducible repeat' first | assumption | apply hf | apply decodeError_kept | split | dsimp only

@[simp] theorem runLoop_mem (c count body : Nat) (incs : List Int) (r : Run) (s : State) : (runLoop c count body incs r s).mem =
    s.mem := by
  unfold runLoop
  with_reducible repeat' first
    | rfl | intro _ | simp only [setRun_mem, decodeError_mem, apply_ite State.mem, ite_self] | split | dsimp only

theorem runLoop_kept {o : State} (c count body : Nat) (incs : List Int) (r : Run) (s : State) (hmem : Kept o s) : Kept o
    (runLoop c count body incs r s) := by
  unfold runLoop
  with_reducible repeat' first
    | assumption | intro _ | apply setRun_kept | apply decodeError_kept | refine ite_kept _ _ ?_ ?_ | simp only [kept_mk]
    | split | dsimp only

end Sys2Proof.Machine
end

