-- ==== Sys2Proof/Laws/KeptCoreExec.lean ====
section
/-! SUPPORT. Every function of Machine.CoreExec keeps what `Kept` promises; where it touches no memory a second law says so. -/

namespace Sys2Proof.Machine
open Sys2Proof Numeric

theorem storeLine_kept {o : State} (kind : Nat) (s : State) (x : Nat × RowData) (hmem : Kept o s) : Kept o (storeLine kind s x)
    := by
  unfold storeLine
  with_reducible repeat' first
    | assumption | intro _ | apply writeLine_kept | apply writeSram_kept | refine ite_kept _ _ ?_ ?_ | split | dsimp only

theorem runStore_kept {o : State} (c : Nat) (st : StoreOp) (s : State) (hmem : Kept o s) : Kept o (runStore c st s) := by
  unfold runStore
  with_reducible repeat' first
    | assumption | intro _ | apply setRun_kept | apply storeLine_kept | refine foldl_kept _ (fun _ _ _ => ?_) _ _ ?_
    | simp only [kept_mk] | split | dsimp only

theorem issueStore_kept {o : State} (c : Nat) (s : State) (hmem : Kept o s) : Kept o (issueStore c s) := by
  unfold issueStore
  with_reducible repeat' first
    | assumption | intro _ | apply setRun_kept | apply issueRows_kept | apply runStore_kept | refine ite_kept _ _ ?_ ?_
    | simp only [kept_mk] | split | dsimp only

theorem runMove_kept {o : State} (c : Nat) (m : MoveOp) (p : Bool) (s : State) (hmem : Kept o s) : Kept o (runMove c m p s) :=
    by
  unfold runMove
  with_reducible repeat' first
    | assumption | intro _ | apply putRow_kept | refine foldl_kept _ (fun _ _ _ => ?_) _ _ ?_ | split | dsimp only

theorem runTranspose_kept {o : State} (c : Nat) (m : MoveOp) (p : Bool) (s : State) (hmem : Kept o s) : Kept o (runTranspose c m
    p s) := by
  unfold runTranspose
  with_reducible repeat' first
    | assumption | intro _ | apply putRows_kept | refine foldl_kept _ (fun _ _ _ => ?_) _ _ ?_ | split | dsimp only

@[simp] theorem issueWait_mem (c : Nat) (s : State) : (issueWait c s).mem = s.mem := by
  unfold issueWait
  with_reducible repeat' first
    | rfl | intro _ | simp only [updCore_mem, popHead_mem, apply_ite State.mem, ite_self] | split | dsimp only

theorem issueWait_kept {o : State} (c : Nat) (s : State) (hmem : Kept o s) : Kept o (issueWait c s) := by
  unfold issueWait
  with_reducible repeat' first
    | assumption | intro _ | apply updCore_kept | apply popHead_kept | refine ite_kept _ _ ?_ ?_ | simp only [kept_mk] | split
    | dsimp only

@[simp] theorem issueSignal_mem (c : Nat) (s : State) : (issueSignal c s).mem = s.mem := by
  unfold issueSignal
  with_reducible repeat' first
    | rfl | intro _ | simp only [setRun_mem, popHead_mem, apply_ite State.mem, ite_self] | split | dsimp only

theorem issueSignal_kept {o : State} (c : Nat) (s : State) (hmem : Kept o s) : Kept o (issueSignal c s) := by
  unfold issueSignal
  with_reducible repeat' first
    | assumption | intro _ | apply setRun_kept | apply popHead_kept | refine ite_kept _ _ ?_ ?_ | simp only [kept_mk] | split
    | dsimp only

@[simp] theorem issueReside_mem (c : Nat) (s : State) : (issueReside c s).mem = s.mem := by
  unfold issueReside
  with_reducible repeat' first
    | rfl | intro _ | simp only [setRun_mem, issueError_mem, popHead_mem, apply_ite State.mem, ite_self] | split | dsimp only

theorem issueReside_kept {o : State} (c : Nat) (s : State) (hmem : Kept o s) : Kept o (issueReside c s) := by
  unfold issueReside
  with_reducible repeat' first
    | assumption | intro _ | apply setRun_kept | apply issueError_kept | apply popHead_kept | refine ite_kept _ _ ?_ ?_
    | split | dsimp only

theorem issueUnreside_kept {o : State} (c : Nat) (s : State) (hmem : Kept o s) : Kept o (issueUnreside c s) := by
  unfold issueUnreside
  with_reducible repeat' first
    | assumption | intro _ | apply releaseRegions_kept | apply setRun_kept | apply issueError_kept | apply popHead_kept
    | split | dsimp only

theorem takeOut_kept {o : State} (c : Nat) (s : State) (h : Kept o s) : Kept o (takeOut c s) := by
  unfold takeOut
  apply setDom_kept
  refine foldl_kept _ (fun _ _ h => setTenant_kept _ _ _ h) _ _ ?_
  refine Kept.fenced (resetCore_kept _ _ h) _ ?_
  refine ⟨fun i h => ?_, fun _ => id, fun _ => id, fun _ => id, fun _ => id, fun _ => id, fun _ => id, fun _ => id⟩
  simp [h]

theorem fenceCore_kept {o : State} (c : Nat) (s : State) (hmem : Kept o s) : Kept o (fenceCore c s) := by
  unfold fenceCore
  with_reducible repeat' first
    | assumption | intro _ | apply postEvent_kept | apply postReclaim_kept | apply killCore_kept | apply takeOut_kept | split
    | dsimp only

@[simp] theorem regionSelWrite_mem (core : Nat) (v : Word) (s : State) : (regionSelWrite core v s).mem = s.mem := by
  unfold regionSelWrite
  with_reducible repeat' first | rfl | intro _ | simp only [updCore_mem] | split | dsimp only

theorem regionSelWrite_kept {o : State} (core : Nat) (v : Word) (s : State) (hmem : Kept o s) : Kept o (regionSelWrite core v s)
    := by
  unfold regionSelWrite
  with_reducible repeat' first | assumption | intro _ | apply updCore_kept | simp only [kept_mk] | split | dsimp only

@[simp] theorem clearNumeric_mem (core : Nat) (s : State) : (clearNumeric core s).mem = s.mem := by
  unfold clearNumeric
  with_reducible repeat' first | rfl | intro _ | simp only [updCore_mem] | split | dsimp only

theorem clearNumeric_kept {o : State} (core : Nat) (s : State) (hmem : Kept o s) : Kept o (clearNumeric core s) := by
  unfold clearNumeric
  with_reducible repeat' first | assumption | intro _ | apply updCore_kept | simp only [kept_mk] | split | dsimp only

@[simp] theorem clearArray_mem (core : Nat) (s : State) : (clearArray core s).mem = s.mem := by
  unfold clearArray
  with_reducible repeat' first | rfl | intro _ | simp only [updCore_mem] | split | dsimp only

theorem clearArray_kept {o : State} (core : Nat) (s : State) (hmem : Kept o s) : Kept o (clearArray core s) := by
  unfold clearArray
  with_reducible repeat' first | assumption | intro _ | apply updCore_kept | simp only [kept_mk] | split | dsimp only

end Sys2Proof.Machine
end

