-- ==== Sys2Proof/Laws/KeptArray.lean ====
section
/-! SUPPORT. Every function of Machine.Array keeps what `Kept` promises; where it touches no memory a second law says so. -/

namespace Sys2Proof.Machine
open Sys2Proof Numeric

@[simp] theorem setLoad_mem (c i : Nat) (l : LoadState) (s : State) : (setLoad c i l s).mem = s.mem := by
  unfold setLoad
  with_reducible repeat' first | rfl | intro _ | simp only [setRun_mem] | split | dsimp only

theorem setLoad_kept {o : State} (c i : Nat) (l : LoadState) (s : State) (hmem : Kept o s) : Kept o (setLoad c i l s) := by
  unfold setLoad
  with_reducible repeat' first | assumption | intro _ | apply setRun_kept | simp only [kept_mk] | split | dsimp only

@[simp] theorem runLoad_mem (c i p owner : Nat) (m : MatOp) (s : State) : (runLoad c i p owner m s).mem = s.mem := by
  unfold runLoad
  with_reducible repeat' first
    | rfl | intro _
    | simp only [updCore_mem, setRun_mem, raisePoison_mem, returnLast_mem, setLoad_mem, apply_ite State.mem, ite_self] | split
    | dsimp only

theorem runLoad_kept {o : State} (c i p owner : Nat) (m : MatOp) (s : State) (hmem : Kept o s) : Kept o (runLoad c i p owner m
    s) := by
  unfold runLoad
  with_reducible repeat' first
    | assumption | intro _ | apply updCore_kept | apply setRun_kept | apply raisePoison_kept | apply returnLast_kept
    | apply setLoad_kept | refine ite_kept _ _ ?_ ?_ | split | dsimp only

@[simp] theorem runMatmul_mem (c : Nat) (q : QOp) (s : State) : (runMatmul c q s).mem = s.mem := by
  unfold runMatmul
  with_reducible repeat' first
    | rfl | intro _ | simp only [updCore_mem, setRun_mem] | split | dsimp only

theorem runMatmul_kept {o : State} (c : Nat) (q : QOp) (s : State) (hmem : Kept o s) : Kept o (runMatmul c q s) := by
  unfold runMatmul
  with_reducible repeat' first
    | assumption | intro _ | apply updCore_kept | apply setRun_kept | refine ite_kept _ _ ?_ ?_ | split
    | dsimp only

theorem issueMatmul_kept {o : State} (c : Nat) (s : State) (hmem : Kept o s) : Kept o (issueMatmul c s) := by
  unfold issueMatmul
  split
  · exact hmem
  · split
    · next r q _ _ _ =>
      cases hc : headCheck c r q s with
      | none => exact hmem
      | some t => exact headCheck_kept _ _ _ _ _ hc hmem
    · exact setRun_kept _ _ _ hmem
    · exact issueError_kept _ _ _ _ hmem
    · exact issueRows_kept _ _ _ _ _ (fun q _ s h => runMatmul_kept _ _ _ h) hmem

@[simp] theorem admitSlot_mem (c : Nat) (a : ArrayOp) (s : State) : (admitSlot c a s).mem = s.mem := by
  unfold admitSlot
  with_reducible repeat' first
    | rfl | intro _ | simp only [updCore_mem, setRun_mem, settleSuspend_mem]
    | refine (foldl_mem _ (fun _ _ => ?_) _ _).trans ?_ | split | dsimp only

theorem admitSlot_kept {o : State} (c : Nat) (a : ArrayOp) (s : State) (hmem : Kept o s) : Kept o (admitSlot c a s) := by
  unfold admitSlot
  with_reducible repeat' first
    | assumption | intro _ | apply updCore_kept | apply setRun_kept | apply settleSuspend_kept
    | refine foldl_kept _ (fun _ _ _ => ?_) _ _ ?_ | refine ite_kept _ _ ?_ ?_ | simp only [kept_mk] | split | dsimp only

end Sys2Proof.Machine
end

