-- ==== Sys2Proof/Laws/KeptGondola.lean ====
section
/-! SUPPORT. Every function of Machine.Gondola keeps what `Kept` promises; where it touches no memory a second law says so. -/

namespace Sys2Proof.Machine
open Sys2Proof Numeric

@[simp] theorem setVersion_mem (s : State) (e : Nat) (f : Version → Version) : (setVersion s e f).mem = s.mem := by
  unfold setVersion
  with_reducible repeat' first | rfl | intro _ | simp only [apply_ite State.mem, ite_self] | split | dsimp only

theorem setVersion_kept {o : State} (s : State) (e : Nat) (f : Version → Version) (hmem : Kept o s) : Kept o (setVersion s e f)
    := by
  unfold setVersion
  with_reducible repeat' first | assumption | intro _ | simp only [kept_mk] | split | dsimp only

@[simp] theorem setRegionEntry_mem (e : Nat) (r : RegionEntry) (s : State) : (setRegionEntry e r s).mem = s.mem := by
  unfold setRegionEntry
  with_reducible repeat' first | rfl | intro _ | simp only [apply_ite State.mem, ite_self] | split | dsimp only

theorem setRegionEntry_kept {o : State} (e : Nat) (r : RegionEntry) (s : State) (hmem : Kept o s) : Kept o (setRegionEntry e r
    s) := by
  unfold setRegionEntry
  with_reducible repeat' first | assumption | intro _ | simp only [kept_mk] | split | dsimp only

@[simp] theorem regionSelect_mem (v : Word) (s : State) : (regionSelect v s).mem = s.mem := by
  unfold regionSelect
  with_reducible repeat' first
    | rfl | intro _ | simp only [setRegionEntry_mem, apply_ite State.mem, ite_self] | split | dsimp only

theorem regionSelect_kept {o : State} (v : Word) (s : State) (hmem : Kept o s) : Kept o (regionSelect v s) := by
  unfold regionSelect
  with_reducible repeat' first
    | assumption | intro _ | apply setRegionEntry_kept | refine ite_kept _ _ ?_ ?_ | simp only [kept_mk] | split | dsimp only

@[simp] theorem setPass_mem (p : Nat) (f : GdlPass → GdlPass) (s : State) : (setPass p f s).mem = s.mem := by
  unfold setPass
  with_reducible repeat' first | rfl | intro _ | simp only [apply_ite State.mem, ite_self] | split | dsimp only

theorem setPass_kept {o : State} (p : Nat) (f : GdlPass → GdlPass) (s : State) (hmem : Kept o s) : Kept o (setPass p f s) := by
  unfold setPass
  with_reducible repeat' first | assumption | intro _ | simp only [kept_mk] | split | dsimp only

@[simp] theorem setBuf_mem (e : Nat) (b : Option BufEntry) (s : State) : (setBuf e b s).mem = s.mem := by
  unfold setBuf
  with_reducible repeat' first | rfl | intro _ | simp only [apply_ite State.mem, ite_self] | split | dsimp only

theorem setBuf_kept {o : State} (e : Nat) (b : Option BufEntry) (s : State) (hmem : Kept o s) : Kept o (setBuf e b s) := by
  unfold setBuf
  with_reducible repeat' first | assumption | intro _ | simp only [kept_mk] | split | dsimp only

@[simp] theorem noteBlock_mem (a : Nat) (c : Option BlockCount) (s : State) : (noteBlock a c s).mem = s.mem := by
  unfold noteBlock
  with_reducible repeat' first | rfl | intro _ | split | dsimp only

theorem noteBlock_kept {o : State} (a : Nat) (c : Option BlockCount) (s : State) (hmem : Kept o s) : Kept o (noteBlock a c s) :=
    by
  unfold noteBlock
  with_reducible repeat' first | assumption | intro _ | simp only [kept_mk] | split | dsimp only

@[simp] theorem startTile_mem (p e : Nat) (s : State) : (startTile p e s).mem = s.mem := by
  unfold startTile
  with_reducible repeat' first
    | rfl | intro _ | simp only [setPass_mem, setBuf_mem, noteBlock_mem]
    | refine (foldl_mem _ (fun _ _ => ?_) _ _).trans ?_ | split | dsimp only

theorem startTile_kept {o : State} (p e : Nat) (s : State) (hmem : Kept o s) : Kept o (startTile p e s) := by
  unfold startTile
  with_reducible repeat' first
    | assumption | intro _ | apply complete_kept | apply setPass_kept | apply setBuf_kept | apply noteBlock_kept
    | refine foldl_kept _ (fun _ _ _ => ?_) _ _ ?_ | refine ite_kept _ _ ?_ ?_ | split | dsimp only

@[simp] theorem startImages_mem (p e : Nat) (s : State) : (startImages p e s).mem = s.mem := by
  unfold startImages
  with_reducible repeat' first
    | rfl | intro _ | simp only [setPass_mem, setBuf_mem] | split | dsimp only

theorem startImages_kept {o : State} (p e : Nat) (s : State) (hmem : Kept o s) : Kept o (startImages p e s) := by
  unfold startImages
  with_reducible repeat' first
    | assumption | intro _ | apply complete_kept | apply setPass_kept | apply setBuf_kept | refine ite_kept _ _ ?_ ?_
    | simp only [kept_mk] | split | dsimp only

@[simp] theorem setSlot_mem (i : Nat) (f : TableSlot → TableSlot) (s : State) : (setSlot i f s).mem = s.mem := by
  unfold setSlot
  with_reducible repeat' first | rfl | intro _ | simp only [apply_ite State.mem, ite_self] | split | dsimp only

theorem setSlot_kept {o : State} (i : Nat) (f : TableSlot → TableSlot) (s : State) (hmem : Kept o s) : Kept o (setSlot i f s) :=
    by
  unfold setSlot
  with_reducible repeat' first | assumption | intro _ | simp only [kept_mk] | split | dsimp only

@[simp] theorem setExpander_mem (i : Nat) (l : List ExpBlock) (s : State) : (setExpander i l s).mem = s.mem := by
  unfold setExpander
  with_reducible repeat' first | rfl | intro _ | simp only [apply_ite State.mem, ite_self] | split | dsimp only

theorem setExpander_kept {o : State} (i : Nat) (l : List ExpBlock) (s : State) (hmem : Kept o s) : Kept o (setExpander i l s) :=
    by
  unfold setExpander
  with_reducible repeat' first | assumption | intro _ | simp only [kept_mk] | split | dsimp only

@[simp] theorem putBlock_mem (x : ExpBlock) (lines : List RowData) (s : State) : (putBlock x lines s).mem = s.mem := by
  unfold putBlock
  with_reducible repeat' first | rfl | intro _ | simp only [setBuf_mem, apply_ite State.mem, ite_self] | split | dsimp only

theorem putBlock_kept {o : State} (x : ExpBlock) (lines : List RowData) (s : State) (hmem : Kept o s) : Kept o (putBlock x lines
    s) := by
  unfold putBlock
  with_reducible repeat' first
    | assumption | intro _ | apply setBuf_kept | refine ite_kept _ _ ?_ ?_ | simp only [kept_mk] | split | dsimp only

@[simp] theorem deliver_mem (chan : Nat) (d : List RowData) (s : State) (c : Nat) : (deliver chan d s c).mem = s.mem := by
  unfold deliver
  with_reducible repeat' first | rfl | intro _ | simp only [setRun_mem] | split | dsimp only

theorem deliver_kept {o : State} (chan : Nat) (d : List RowData) (s : State) (c : Nat) (hmem : Kept o s) : Kept o (deliver chan
    d s c) := by
  unfold deliver
  with_reducible repeat' first | assumption | intro _ | apply setRun_kept | simp only [kept_mk] | split | dsimp only

@[simp] theorem countFallback_mem (s : State) (conf : Bool) : (countFallback s conf).mem = s.mem := by
  unfold countFallback
  with_reducible repeat' first | rfl | intro _ | simp only [apply_ite State.mem, ite_self] | split | dsimp only

theorem countFallback_kept {o : State} (s : State) (conf : Bool) (hmem : Kept o s) : Kept o (countFallback s conf) := by
  unfold countFallback
  with_reducible repeat' first | assumption | intro _ | refine ite_kept _ _ ?_ ?_ | simp only [kept_mk] | split | dsimp only

@[simp] theorem countLate_mem (s : State) (conf : Bool) : (countLate s conf).mem = s.mem := by
  unfold countLate
  with_reducible repeat' first | rfl | intro _ | simp only [apply_ite State.mem, ite_self] | split | dsimp only

theorem countLate_kept {o : State} (s : State) (conf : Bool) (hmem : Kept o s) : Kept o (countLate s conf) := by
  unfold countLate
  with_reducible repeat' first | assumption | intro _ | refine ite_kept _ _ ?_ ?_ | simp only [kept_mk] | split | dsimp only

@[simp] theorem served_mem (entry : Nat) (b : BufEntry) (h n total : Nat) (s : State) : (served entry b h n total s).mem = s.mem
    := by
  unfold served
  with_reducible repeat' first | rfl | intro _ | simp only [setBuf_mem] | split | dsimp only

theorem served_kept {o : State} (entry : Nat) (b : BufEntry) (h n total : Nat) (s : State) (hmem : Kept o s) : Kept o (served
    entry b h n total s) := by
  unfold served
  with_reducible repeat' first
    | assumption | intro _ | apply setBuf_kept | refine ite_kept _ _ ?_ ?_ | simp only [kept_mk] | split | dsimp only

@[simp] theorem departCopy_mem (entry : Nat) (b : BufEntry) (h sent : Nat) (s : State) : (departCopy entry b h sent s).mem =
    s.mem := by
  unfold departCopy
  with_reducible repeat' first
    | rfl | intro _
    | simp only [setPass_mem, deliver_mem, countFallback_mem, countLate_mem, served_mem, apply_ite State.mem, ite_self]
    | refine (foldl_mem _ (fun _ _ => ?_) _ _).trans ?_ | split | dsimp only

theorem departCopy_kept {o : State} (entry : Nat) (b : BufEntry) (h sent : Nat) (s : State) (hmem : Kept o s) : Kept o
    (departCopy entry b h sent s) := by
  unfold departCopy
  with_reducible repeat' first
    | assumption | intro _ | apply setPass_kept | apply deliver_kept | apply countFallback_kept | apply countLate_kept
    | apply served_kept | refine foldl_kept _ (fun _ _ _ => ?_) _ _ ?_ | refine ite_kept _ _ ?_ ?_ | simp only [kept_mk]
    | split | dsimp only

end Sys2Proof.Machine
end

