-- ==== Sys2Proof/Laws/KeptKvOps.lean ====
section
/-! SUPPORT. Every function of Machine.KvOps keeps what `Kept` promises; where it touches no memory a second law says so. -/

namespace Sys2Proof.Machine
open Sys2Proof Numeric

@[simp] theorem setKv_mem (head : Nat) (f : KvBlock → KvBlock) (s : State) : (setKv head f s).mem = s.mem := by
  unfold setKv
  with_reducible repeat' first | rfl | intro _ | simp only [apply_ite State.mem, ite_self] | split | dsimp only

theorem setKv_kept {o : State} (head : Nat) (f : KvBlock → KvBlock) (s : State) (hmem : Kept o s) : Kept o (setKv head f s) :=
    by
  unfold setKv
  with_reducible repeat' first | assumption | intro _ | simp only [kept_mk] | split | dsimp only

@[simp] theorem setKvPool_mem (f : Pool → Pool) (s : State) : (setKvPool f s).mem = s.mem := by
  unfold setKvPool
  with_reducible repeat' first | rfl | intro _ | simp only [conserve_mem] | split | dsimp only

theorem setKvPool_kept {o : State} (f : Pool → Pool) (s : State) (hmem : Kept o s) : Kept o (setKvPool f s) := by
  unfold setKvPool
  with_reducible repeat' first | assumption | intro _ | apply conserve_kept | simp only [kept_mk] | split | dsimp only

@[simp] theorem blankBlock_mem (head : Nat) (s : State) : (blankBlock head s).mem = s.mem := by
  unfold blankBlock
  with_reducible repeat' first | rfl | intro _ | simp only [setKv_mem] | split | dsimp only

theorem blankBlock_kept {o : State} (head : Nat) (s : State) (hmem : Kept o s) : Kept o (blankBlock head s) := by
  unfold blankBlock
  with_reducible repeat' first | assumption | intro _ | apply setKv_kept | split | dsimp only

@[simp] theorem makeBlank_mem (t n fuel : Nat) (s : State) : (makeBlank t n fuel s).mem = s.mem := by
  induction fuel generalizing s with
  | zero => rfl
  | succ fuel ih => unfold makeBlank; repeat' first | with_reducible rfl | simp only [ih, blankBlock_mem] | split

theorem makeBlank_kept {o : State} (t n fuel : Nat) (s : State) (h : Kept o s) : Kept o (makeBlank t n fuel s) := by
  induction fuel generalizing s with
  | zero => exact h
  | succ fuel ih =>
    unfold makeBlank
    with_reducible repeat' first | assumption | apply ih | apply blankBlock_kept | split | dsimp only

@[simp] theorem allocBlock_mem (t handle n req : Nat) (s : State) : (allocBlock t handle n req s).2.mem = s.mem := by
  unfold allocBlock
  with_reducible repeat' first
    | rfl | intro _ | simp only [setKv_mem, setKvPool_mem, makeBlank_mem] | split | dsimp only

theorem allocBlock_kept {o : State} (t handle n req : Nat) (s : State) (hmem : Kept o s) : Kept o (allocBlock t handle n req
    s).2 := by
  unfold allocBlock
  with_reducible repeat' first
    | assumption | intro _ | apply setKv_kept | apply setKvPool_kept | apply makeBlank_kept | simp only [kept_mk] | split
    | dsimp only

@[simp] theorem addRef_mem (head : Nat) (s : State) : (addRef head s).mem = s.mem := by
  unfold addRef
  with_reducible repeat' first
    | rfl | intro _ | simp only [setKv_mem, setKvPool_mem, apply_ite State.mem, ite_self] | split | dsimp only

theorem addRef_kept {o : State} (head : Nat) (s : State) (hmem : Kept o s) : Kept o (addRef head s) := by
  unfold addRef
  with_reducible repeat' first
    | assumption | intro _ | apply setKv_kept | apply setKvPool_kept | refine ite_kept _ _ ?_ ?_ | simp only [kept_mk] | split
    | dsimp only

@[simp] theorem dropRef_mem (s : State) (head : Nat) : (dropRef s head).mem = s.mem := by
  unfold dropRef
  with_reducible repeat' first
    | rfl | intro _ | simp only [setKv_mem, setKvPool_mem, blankBlock_mem, apply_ite State.mem, ite_self] | split | dsimp only

theorem dropRef_kept {o : State} (s : State) (head : Nat) (hmem : Kept o s) : Kept o (dropRef s head) := by
  unfold dropRef
  with_reducible repeat' first
    | assumption | intro _ | apply setKv_kept | apply setKvPool_kept | apply blankBlock_kept | refine ite_kept _ _ ?_ ?_
    | simp only [kept_mk] | split | dsimp only

@[simp] theorem dropRefs_mem (l : List Nat) (s : State) : (dropRefs l s).mem = s.mem := by
  unfold dropRefs
  with_reducible repeat' first
    | rfl | intro _ | simp only [dropRef_mem]
    | refine (foldl_mem _ (fun _ _ => ?_) _ _).trans ?_ | split | dsimp only

theorem dropRefs_kept {o : State} (l : List Nat) (s : State) (hmem : Kept o s) : Kept o (dropRefs l s) := by
  unfold dropRefs
  with_reducible repeat' first
    | assumption | intro _ | apply dropRef_kept | refine foldl_kept _ (fun _ _ _ => ?_) _ _ ?_ | split | dsimp only

@[simp] theorem insertIndex_mem (head draw hash : Nat) (s : State) : (insertIndex head draw hash s).mem = s.mem := by
  unfold insertIndex
  with_reducible repeat' first
    | rfl | intro _ | simp only [setKv_mem, blankBlock_mem, apply_ite State.mem, ite_self] | split | dsimp only

theorem insertIndex_kept {o : State} (head draw hash : Nat) (s : State) (hmem : Kept o s) : Kept o (insertIndex head draw hash
    s) := by
  unfold insertIndex
  with_reducible repeat' first
    | assumption | intro _ | apply setKv_kept | apply blankBlock_kept | refine ite_kept _ _ ?_ ?_ | simp only [kept_mk]
    | split | dsimp only

@[simp] theorem dropVersionBlocks_mem (handle : Nat) (s : State) : (dropVersionBlocks handle s).mem = s.mem := by
  unfold dropVersionBlocks
  with_reducible repeat' first
    | rfl | intro _ | simp only [setKv_mem, blankBlock_mem, apply_ite State.mem, ite_self]
    | refine (foldl_mem _ (fun _ _ => ?_) _ _).trans ?_ | split | dsimp only

theorem dropVersionBlocks_kept {o : State} (handle : Nat) (s : State) (hmem : Kept o s) : Kept o (dropVersionBlocks handle s) :=
    by
  unfold dropVersionBlocks
  with_reducible repeat' first
    | assumption | intro _ | apply setKv_kept | apply blankBlock_kept | refine foldl_kept _ (fun _ _ _ => ?_) _ _ ?_
    | refine ite_kept _ _ ?_ ?_ | simp only [kept_mk] | split | dsimp only

theorem writeEntry_kept {o : State} (g : Geom) (page rec i : Nat) (s : State) (hmem : Kept o s) : Kept o (writeEntry g page rec
    i s).1 := by
  unfold writeEntry
  with_reducible repeat' first
    | assumption | intro _ | apply writeLines_kept | apply patchDram_kept | refine foldl_kept _ (fun _ _ _ => ?_) _ _ ?_
    | refine ite_kept _ _ ?_ ?_ | split | dsimp only

theorem writeSummary_kept {o : State} (g : Geom) (page : Nat) (s : State) (hmem : Kept o s) : Kept o (writeSummary g page s) :=
    by
  unfold writeSummary
  with_reducible repeat' first | assumption | intro _ | apply patchDram_kept | refine ite_kept _ _ ?_ ?_ | split | dsimp only

theorem writeMap_kept {o : State} (ms : Nat) (blocks : List Nat) (s : State) (hmem : Kept o s) : Kept o (writeMap ms blocks s)
    := by
  unfold writeMap
  with_reducible repeat' first | assumption | intro _ | apply writeLines_kept | split | dsimp only

theorem copyBlock_kept {o : State} (t handle n req old committed : Nat) (g : Geom) (s : State) (hmem : Kept o s) : Kept o
    (copyBlock t handle n req old committed g s).2 := by
  unfold copyBlock
  with_reducible repeat' first
    | assumption | intro _ | apply writeLines_kept | apply setKv_kept | apply allocBlock_kept | apply dropRef_kept
    | refine foldl_kept _ (fun _ _ _ => ?_) _ _ ?_ | refine ite_kept _ _ ?_ ?_ | simp only [kept_mk] | split | dsimp only

theorem writableBlock_kept {o : State} (t n req p : Nat) (g : Geom) (q : Sequence) (s : State) (hmem : Kept o s) : Kept o
    (writableBlock t n req p g q s).2 := by
  unfold writableBlock
  with_reducible repeat' first
    | assumption | intro _ | apply allocBlock_kept | apply copyBlock_kept | refine ite_kept _ _ ?_ ?_
    | split | dsimp only

theorem appendOne_kept {o : State} (t n req p rowAt : Nat) (g : Geom) (acc : Sequence × State × Nat) (hmem : Kept o acc.2.1) :
    Kept o (appendOne t n req p rowAt g acc).2.1 := by
  unfold appendOne
  refine setKv_kept _ _ _ ?_
  refine foldl_keeps (fun (x : State × Nat) => Kept o x.1) _ (fun a l h => ?_) _ _ ?_
  · exact writeEntry_kept _ _ _ _ _ h
  · exact writableBlock_kept _ _ _ _ _ _ _ hmem

theorem commitSeq_kept {o : State} (t n len held slotNo : Nat) (draft : Bool) (g : Geom) (toks : List Word) (q : Sequence) (s :
    State) (hmem : Kept o s) : Kept o (commitSeq t n len held slotNo draft g toks q s).2 := by
  unfold commitSeq
  with_reducible repeat' first
    | assumption | intro _ | apply setKv_kept | apply dropRefs_kept | apply insertIndex_kept | apply writeSummary_kept
    | apply writeMap_kept | refine foldl_kept _ (fun _ _ _ => ?_) _ _ ?_ | refine ite_kept _ _ ?_ ?_ | simp only [kept_mk]
    | split | dsimp only

theorem storeQuery_kept {o : State} (ms n rowAt : Nat) (g : Geom) (s : State) (hmem : Kept o s) : Kept o (storeQuery ms n rowAt
    g s) := by
  unfold storeQuery
  with_reducible repeat' first
    | assumption | intro _ | apply writeLines_kept | refine foldl_kept _ (fun _ _ _ => ?_) _ _ ?_ | split | dsimp only

end Sys2Proof.Machine
end

