-- ==== Sys2Proof/Laws/KeptVersionOps.lean ====
section
/-! SUPPORT. Every function of Machine.VersionOps keeps what `Kept` promises; where it touches no memory a second law says so. -/

namespace Sys2Proof.Machine
open Sys2Proof Numeric

theorem activateVersion_kept {o : State} (e : Nat) (s : State) (hmem : Kept o s) : Kept o (activateVersion e s).2 := by
  unfold activateVersion
  with_reducible repeat' first
    | assumption | intro _ | apply writeSram_kept | apply setVersion_kept | refine foldl_kept _ (fun _ _ _ => ?_) _ _ ?_
    | refine ite_kept _ _ ?_ ?_ | split | dsimp only

@[simp] theorem refVersion_mem (h : Nat) (s : State) : (refVersion h s).mem = s.mem := by
  unfold refVersion
  with_reducible repeat' first
    | rfl | intro _ | simp only [setVersion_mem] | split | dsimp only

theorem refVersion_kept {o : State} (h : Nat) (s : State) (hmem : Kept o s) : Kept o (refVersion h s) := by
  unfold refVersion
  with_reducible repeat' first | assumption | intro _ | apply setVersion_kept | simp only [kept_mk] | split | dsimp only

@[simp] theorem unrefVersion_mem (n h : Nat) (s : State) : (unrefVersion n h s).mem = s.mem := by
  induction n generalizing s h with
  | zero => rfl
  | succ n ih =>
    unfold unrefVersion
    with_reducible repeat' first | rfl | simp only [ih, setVersion_mem, dropVersionBlocks_mem] | split | dsimp only

theorem unrefVersion_kept {o : State} (n k : Nat) (s : State) (h : Kept o s) : Kept o (unrefVersion n k s) := by
  induction n generalizing s k with
  | zero => exact h
  | succ n ih =>
    unfold unrefVersion
    with_reducible repeat' first
      | assumption | apply ih | apply setVersion_kept | apply dropVersionBlocks_kept | split | dsimp only

@[simp] theorem unref_mem (h : Nat) (s : State) : (unref h s).mem = s.mem := by
  unfold unref
  with_reducible repeat' first
    | rfl | intro _ | simp only [unrefVersion_mem, apply_ite State.mem, ite_self] | split | dsimp only

theorem unref_kept {o : State} (h : Nat) (s : State) (hmem : Kept o s) : Kept o (unref h s) := by
  unfold unref
  with_reducible repeat' first
    | assumption | intro _ | apply unrefVersion_kept | refine ite_kept _ _ ?_ ?_ | split | dsimp only

@[simp] theorem unbindSlot_mem (t slot : Nat) (s : State) : (unbindSlot t slot s).mem = s.mem := by
  unfold unbindSlot
  with_reducible repeat' first
    | rfl | intro _ | simp only [setTenant_mem, setVersion_mem, unref_mem, apply_ite State.mem, ite_self] | split | dsimp only

theorem unbindSlot_kept {o : State} (t slot : Nat) (s : State) (hmem : Kept o s) : Kept o (unbindSlot t slot s) := by
  unfold unbindSlot
  with_reducible repeat' first
    | assumption | intro _ | apply setTenant_kept | apply setVersion_kept | apply unref_kept | refine ite_kept _ _ ?_ ?_
    | simp only [kept_mk] | split | dsimp only

@[simp] theorem bindSlot_mem (t slot h : Nat) (s : State) : (bindSlot t slot h s).mem = s.mem := by
  unfold bindSlot
  with_reducible repeat' first
    | rfl | intro _ | simp only [setTenant_mem, setVersion_mem, refVersion_mem, unref_mem, apply_ite State.mem, ite_self]
    | split | dsimp only

theorem bindSlot_kept {o : State} (t slot h : Nat) (s : State) (hmem : Kept o s) : Kept o (bindSlot t slot h s) := by
  unfold bindSlot
  with_reducible repeat' first
    | assumption | intro _ | apply setTenant_kept | apply setVersion_kept | apply refVersion_kept | apply unref_kept
    | refine ite_kept _ _ ?_ ?_ | simp only [kept_mk] | split | dsimp only

@[simp] theorem discardVersion_mem (e : Nat) (s : State) : (discardVersion e s).mem = s.mem := by
  unfold discardVersion
  with_reducible repeat' first
    | rfl | intro _ | simp only [setVersion_mem, dropVersionBlocks_mem] | split | dsimp only

theorem discardVersion_kept {o : State} (e : Nat) (s : State) (hmem : Kept o s) : Kept o (discardVersion e s) := by
  unfold discardVersion
  with_reducible repeat' first
    | assumption | intro _ | apply setVersion_kept | apply dropVersionBlocks_kept | simp only [kept_mk] | split | dsimp only

end Sys2Proof.Machine
end

