-- ==== Sys2Proof/Laws/KeptStreamOps.lean ====
section
/-! SUPPORT. Every function of Machine.StreamOps keeps what `Kept` promises; where it touches no memory a second law says so. -/

namespace Sys2Proof.Machine
open Sys2Proof Numeric

theorem zeroUnits_kept {o : State} (us : List Nat) (s : State) (hmem : Kept o s) : Kept o (zeroUnits us s) := by
  unfold zeroUnits
  with_reducible repeat' first
    | assumption | intro _ | apply clearSram_kept | refine foldl_kept _ (fun _ _ _ => ?_) _ _ ?_ | split | dsimp only

@[simp] theorem wakeChunks_mem (c : Nat) (s : State) : (wakeChunks c s).mem = s.mem := by
  unfold wakeChunks
  with_reducible repeat' first | rfl | intro _ | simp only [setCtx_mem] | split | dsimp only

theorem wakeChunks_kept {o : State} (c : Nat) (s : State) (hmem : Kept o s) : Kept o (wakeChunks c s) := by
  unfold wakeChunks
  with_reducible repeat' first
    | assumption | intro _ | apply setCtx_kept | refine ite_kept _ _ ?_ ?_ | simp only [kept_mk] | split | dsimp only

@[simp] theorem startSwapOut_mem (c : Nat) (s : State) : (startSwapOut c s).mem = s.mem := by
  unfold startSwapOut
  with_reducible repeat' first | rfl | intro _ | simp only [setCtx_mem] | split | dsimp only

theorem startSwapOut_kept {o : State} (c : Nat) (s : State) (hmem : Kept o s) : Kept o (startSwapOut c s) := by
  unfold startSwapOut
  with_reducible repeat' first | assumption | intro _ | apply setCtx_kept | simp only [kept_mk] | split | dsimp only

theorem tryGrant_kept {o : State} (s : State) (c : Nat) (hmem : Kept o s) : Kept o (tryGrant s c) := by
  unfold tryGrant
  with_reducible repeat' first
    | assumption | intro _ | apply setCtx_kept | apply zeroUnits_kept | apply wakeChunks_kept | apply startSwapOut_kept
    | refine ite_kept _ _ ?_ ?_ | simp only [kept_mk] | split | dsimp only

theorem evalNeeds_kept {o : State} (t : Nat) (s : State) (hmem : Kept o s) : Kept o (evalNeeds t s) := by
  unfold evalNeeds
  with_reducible repeat' first
    | assumption | intro _ | apply tryGrant_kept | refine foldl_kept _ (fun _ _ _ => ?_) _ _ ?_ | refine ite_kept _ _ ?_ ?_
    | split | dsimp only

theorem requestState_kept {o : State} (c : Nat) (s : State) (hmem : Kept o s) : Kept o (requestState c s) := by
  unfold requestState
  with_reducible repeat' first
    | assumption | intro _ | apply setCtx_kept | apply tryGrant_kept | simp only [kept_mk] | split | dsimp only

@[simp] theorem settleSwap_mem (c : Nat) (s : State) : (settleSwap c s).mem = s.mem := by
  unfold settleSwap
  with_reducible repeat' first
    | rfl | intro _ | simp only [startSwapOut_mem, apply_ite State.mem, ite_self] | split | dsimp only

theorem settleSwap_kept {o : State} (c : Nat) (s : State) (hmem : Kept o s) : Kept o (settleSwap c s) := by
  unfold settleSwap
  with_reducible repeat' first
    | assumption | intro _ | apply startSwapOut_kept | refine ite_kept _ _ ?_ ?_ | split | dsimp only

theorem takeReady_kept {old : State} (c p : Nat) (o : OpInst) (s : State) (hmem : Kept old s) : Kept old (takeReady c p o s) :=
    by
  unfold takeReady
  with_reducible repeat' first
    | assumption | intro _ | apply setCtx_kept | apply requestState_kept | split | dsimp only

theorem makeReady_kept {o : State} (c : Nat) (s : State) (hmem : Kept o s) : Kept o (makeReady c s) := by
  unfold makeReady
  with_reducible repeat' first
    | assumption | intro _ | apply takeReady_kept | refine foldl_kept _ (fun _ _ _ => ?_) _ _ ?_ | split | dsimp only

@[simp] theorem setStreamPool_mem (f : Pool → Pool) (s : State) : (setStreamPool f s).mem = s.mem := by
  unfold setStreamPool
  with_reducible repeat' first | rfl | intro _ | simp only [conserve_mem] | split | dsimp only

theorem setStreamPool_kept {o : State} (f : Pool → Pool) (s : State) (hmem : Kept o s) : Kept o (setStreamPool f s) := by
  unfold setStreamPool
  with_reducible repeat' first | assumption | intro _ | apply conserve_kept | simp only [kept_mk] | split | dsimp only

@[simp] theorem releaseRow_mem (c : Nat) (s : State) (k : Nat) : (releaseRow c s k).mem = s.mem := by
  unfold releaseRow
  with_reducible repeat' first
    | rfl | intro _ | simp only [setCtx_mem, setStreamPool_mem, apply_ite State.mem, ite_self] | split | dsimp only

theorem releaseRow_kept {o : State} (c : Nat) (s : State) (k : Nat) (hmem : Kept o s) : Kept o (releaseRow c s k) := by
  unfold releaseRow
  with_reducible repeat' first
    | assumption | intro _ | apply setCtx_kept | apply setStreamPool_kept | refine ite_kept _ _ ?_ ?_
    | split | dsimp only

@[simp] theorem releaseFrames_mem (c : Nat) (fs : List Frame) (s : State) : (releaseFrames c fs s).mem = s.mem := by
  unfold releaseFrames
  with_reducible repeat' first
    | rfl | intro _ | simp only [releaseRow_mem]
    | refine (foldl_mem _ (fun _ _ => ?_) _ _).trans ?_ | split | dsimp only

theorem releaseFrames_kept {o : State} (c : Nat) (fs : List Frame) (s : State) (hmem : Kept o s) : Kept o (releaseFrames c fs s)
    := by
  unfold releaseFrames
  with_reducible repeat' first
    | assumption | intro _ | apply releaseRow_kept | refine foldl_kept _ (fun _ _ _ => ?_) _ _ ?_ | split | dsimp only

@[simp] theorem discardFlights_mem (c : Nat) (s : State) : (discardFlights c s).mem = s.mem := by
  unfold discardFlights
  with_reducible repeat' first | rfl | intro _ | simp only [apply_ite State.mem, ite_self] | split | dsimp only

theorem discardFlights_kept {o : State} (c : Nat) (s : State) (hmem : Kept o s) : Kept o (discardFlights c s) := by
  unfold discardFlights
  with_reducible repeat' first | assumption | intro _ | refine ite_kept _ _ ?_ ?_ | simp only [kept_mk] | split | dsimp only

@[simp] theorem dropLoose_mem (c : Nat) (s : State) : (dropLoose c s).mem = s.mem := by
  unfold dropLoose
  with_reducible repeat' first
    | rfl | intro _ | simp only [setCtx_mem, releaseFrames_mem]
    | refine (foldl_mem _ (fun _ _ => ?_) _ _).trans ?_ | split | dsimp only

theorem dropLoose_kept {o : State} (c : Nat) (s : State) (hmem : Kept o s) : Kept o (dropLoose c s) := by
  unfold dropLoose
  with_reducible repeat' first
    | assumption | intro _ | apply setCtx_kept | apply releaseFrames_kept | refine foldl_kept _ (fun _ _ _ => ?_) _ _ ?_
    | refine ite_kept _ _ ?_ ?_ | simp only [kept_mk] | split | dsimp only

@[simp] theorem resetMark_mem (c : Nat) (s : State) : (resetMark c s).mem = s.mem := by
  unfold resetMark
  with_reducible repeat' first
    | rfl | intro _ | simp only [setCtx_mem, discardFlights_mem, dropLoose_mem, apply_ite State.mem, ite_self] | split
    | dsimp only

theorem resetMark_kept {o : State} (c : Nat) (s : State) (hmem : Kept o s) : Kept o (resetMark c s) := by
  unfold resetMark
  with_reducible repeat' first
    | assumption | intro _ | apply setCtx_kept | apply discardFlights_kept | apply dropLoose_kept | refine ite_kept _ _ ?_ ?_
    | simp only [kept_mk] | split | dsimp only

@[simp] theorem loseFrame_mem (c : Nat) (source : Bool) (s : State) : (loseFrame c source s).mem = s.mem := by
  unfold loseFrame
  with_reducible repeat' first | rfl | intro _ | simp only [setCtx_mem] | split | dsimp only

theorem loseFrame_kept {o : State} (c : Nat) (source : Bool) (s : State) (hmem : Kept o s) : Kept o (loseFrame c source s) := by
  unfold loseFrame
  with_reducible repeat' first
    | assumption | intro _ | apply setCtx_kept | refine ite_kept _ _ ?_ ?_ | simp only [kept_mk] | split | dsimp only

@[simp] theorem placeRow_mem (c : Nat) (s : State) : (placeRow c s).1.mem = s.mem := by
  unfold placeRow
  with_reducible repeat' first
    | rfl | intro _ | simp only [setCtx_mem, setStreamPool_mem] | split | dsimp only

theorem placeRow_kept {o : State} (c : Nat) (s : State) (hmem : Kept o s) : Kept o (placeRow c s).1 := by
  unfold placeRow
  with_reducible repeat' first
    | assumption | intro _ | apply setCtx_kept | apply setStreamPool_kept | refine ite_kept _ _ ?_ ?_
    | split | dsimp only

theorem frameArrives_kept {o : State} (c : Nat) (head : Bytes) (ts : Nat) (jump : Bool) (s : State) (hmem : Kept o s) : Kept o
    (frameArrives c head ts jump s) := by
  unfold frameArrives
  with_reducible repeat' first
    | assumption | intro _ | apply setCtx_kept | apply makeReady_kept | apply resetMark_kept | apply placeRow_kept
    | refine ite_kept _ _ ?_ ?_ | simp only [kept_mk] | split | dsimp only

theorem deliverImage_kept {o : State} (c : Nat) (im : ImageIn) (s : State) (hmem : Kept o s) : Kept o (deliverImage c im s) :=
    by
  unfold deliverImage
  with_reducible repeat' first
    | assumption | intro _ | apply State.spend_kept | apply writeLines_kept | apply loseFrame_kept | apply frameArrives_kept
    | refine ite_kept _ _ ?_ ?_ | split | dsimp only

@[simp] theorem settleLost_mem (c n : Nat) (s : State) : (settleLost c n s).mem = s.mem := by
  induction n generalizing s with
  | zero => rfl
  | succ n ih => unfold settleLost; split <;> simp [ih]

theorem settleLost_kept {o : State} (c n : Nat) (s : State) (h : Kept o s) : Kept o (settleLost c n s) := by
  induction n generalizing s with
  | zero => exact h
  | succ n ih =>
    unfold settleLost
    with_reducible repeat' first | assumption | apply ih | apply loseFrame_kept | apply setCtx_kept | split | dsimp only

@[simp] theorem queueImage_mem (c : Nat) (im : Option ImageIn) (s : State) : (queueImage c im s).mem = s.mem := by
  unfold queueImage
  with_reducible repeat' first
    | rfl | intro _ | simp only [setCtx_mem, settleLost_mem] | split | dsimp only

theorem queueImage_kept {o : State} (c : Nat) (im : Option ImageIn) (s : State) (hmem : Kept o s) : Kept o (queueImage c im s)
    := by
  unfold queueImage
  with_reducible repeat' first
    | assumption | intro _ | apply setCtx_kept | apply settleLost_kept | simp only [kept_mk] | split | dsimp only

theorem audioFrame_kept {o : State} (c : Nat) (s : State) (hmem : Kept o s) : Kept o (audioFrame c s) := by
  unfold audioFrame
  with_reducible repeat' first
    | assumption | intro _ | apply State.spend_kept | apply setCtx_kept | apply loseFrame_kept | apply frameArrives_kept
    | refine ite_kept _ _ ?_ ?_ | simp only [kept_mk] | split | dsimp only

theorem startClose_kept {o : State} (c : Nat) (flush : Bool) (sub : Option Sub) (s : State) (hmem : Kept o s) : Kept o
    (startClose c flush sub s) := by
  unfold startClose
  with_reducible repeat' first
    | assumption | intro _ | apply setCtx_kept | apply makeReady_kept | apply dropLoose_kept | refine ite_kept _ _ ?_ ?_
    | simp only [kept_mk] | split | dsimp only

@[simp] theorem dropInsts_mem (t h : Nat) (s : State) : (dropInsts t h s).mem = s.mem := by
  unfold dropInsts
  with_reducible repeat' first | rfl | intro _ | simp only [apply_ite State.mem, ite_self] | split | dsimp only

theorem dropInsts_kept {o : State} (t h : Nat) (s : State) (hmem : Kept o s) : Kept o (dropInsts t h s) := by
  unfold dropInsts
  with_reducible repeat' first | assumption | intro _ | refine ite_kept _ _ ?_ ?_ | simp only [kept_mk] | split | dsimp only

theorem closeContext_kept {o : State} (c : Nat) (s : State) (hmem : Kept o s) : Kept o (closeContext c s) := by
  unfold closeContext
  with_reducible repeat' first
    | assumption | intro _ | apply setCtx_kept | apply endWith_kept | apply writeLines_kept | apply unref_kept
    | apply zeroUnits_kept | apply evalNeeds_kept | apply setStreamPool_kept | apply dropInsts_kept
    | refine foldl_kept _ (fun _ _ _ => ?_) _ _ ?_ | split | dsimp only

end Sys2Proof.Machine
end

