-- ==== Sys2Proof/Laws/KeptLaunch.lean ====
section
/-! SUPPORT. Every function of Machine.Launch keeps what `Kept` promises; where it touches no memory a second law says so. -/

namespace Sys2Proof.Machine
open Sys2Proof Numeric

@[simp] theorem setReq_mem (n : Nat) (f : Request → Request) (s : State) : (setReq n f s).mem = s.mem := by
  unfold setReq
  with_reducible repeat' first | rfl | intro _ | simp only [apply_ite State.mem, ite_self] | split | dsimp only

theorem setReq_kept {o : State} (n : Nat) (f : Request → Request) (s : State) (hmem : Kept o s) : Kept o (setReq n f s) := by
  unfold setReq
  with_reducible repeat' first | assumption | intro _ | simp only [kept_mk] | split | dsimp only

@[simp] theorem advanceClass_mem (r : Ready) (s : State) : (advanceClass r s).mem = s.mem := by
  unfold advanceClass
  with_reducible repeat' first | rfl | intro _ | simp only [apply_ite State.mem, ite_self] | split | dsimp only

theorem advanceClass_kept {o : State} (r : Ready) (s : State) (hmem : Kept o s) : Kept o (advanceClass r s) := by
  unfold advanceClass
  with_reducible repeat' first | assumption | intro _ | simp only [kept_mk] | split | dsimp only

@[simp] theorem assignGang_mem (n : Nat) (gang : Gang) (s : State) : (assignGang n gang s).mem = s.mem := by
  unfold assignGang
  with_reducible repeat' first
    | rfl | intro _ | simp only [updCore_mem]
    | refine (foldl_mem _ (fun _ _ => ?_) _ _).trans ?_ | split | dsimp only

theorem assignGang_kept {o : State} (n : Nat) (gang : Gang) (s : State) (hmem : Kept o s) : Kept o (assignGang n gang s) := by
  unfold assignGang
  with_reducible repeat' first
    | assumption | intro _ | apply updCore_kept | refine foldl_kept _ (fun _ _ _ => ?_) _ _ ?_ | simp only [kept_mk] | split
    | dsimp only

@[simp] theorem startStream_mem (n h budget : Nat) (sets : List Nat) (s : State) : (startStream n h budget sets s).mem = s.mem
    := by
  unfold startStream
  with_reducible repeat' first | rfl | intro _ | simp only [setPass_mem, apply_ite State.mem, ite_self] | split | dsimp only

theorem startStream_kept {o : State} (n h budget : Nat) (sets : List Nat) (s : State) (hmem : Kept o s) : Kept o (startStream n
    h budget sets s) := by
  unfold startStream
  with_reducible repeat' first
    | assumption | intro _ | apply setPass_kept | refine ite_kept _ _ ?_ ?_ | simp only [kept_mk] | split | dsimp only

@[simp] theorem startImageStream_mem (n t : Nat) (seqs : List PassSeq) (sets : List Nat) (s : State) : (startImageStream n t
    seqs sets s).mem = s.mem := by
  unfold startImageStream
  with_reducible repeat' first
    | rfl | intro _ | simp only [State.spend_mem, setPass_mem, apply_ite State.mem, ite_self] | split | dsimp only

theorem startImageStream_kept {o : State} (n t : Nat) (seqs : List PassSeq) (sets : List Nat) (s : State) (hmem : Kept o s) :
    Kept o (startImageStream n t seqs sets s) := by
  unfold startImageStream
  with_reducible repeat' first
    | assumption | intro _ | apply State.spend_kept | apply setPass_kept | refine ite_kept _ _ ?_ ?_
    | split | dsimp only

@[simp] theorem endStreams_mem (n : Nat) (s : State) : (endStreams n s).mem = s.mem := by
  unfold endStreams
  with_reducible repeat' first | rfl | intro _ | simp only [apply_ite State.mem, ite_self] | split | dsimp only

theorem endStreams_kept {o : State} (n : Nat) (s : State) (hmem : Kept o s) : Kept o (endStreams n s) := by
  unfold endStreams
  with_reducible repeat' first | assumption | intro _ | simp only [kept_mk] | split | dsimp only

@[simp] theorem startOn_mem (n : Nat) (gang : Gang) (limit budget : Nat) (s : State) : (startOn n gang limit budget s).mem =
    s.mem := by
  unfold startOn
  with_reducible repeat' first
    | rfl | intro _ | simp only [setJob_mem, assignGang_mem] | split | dsimp only

theorem startOn_kept {o : State} (n : Nat) (gang : Gang) (limit budget : Nat) (s : State) (hmem : Kept o s) : Kept o (startOn n
    gang limit budget s) := by
  unfold startOn
  with_reducible repeat' first
    | assumption | intro _ | apply setJob_kept | apply assignGang_kept | simp only [kept_mk] | split | dsimp only

end Sys2Proof.Machine
end

