-- ==== Sys2Proof/Laws/KeptPartition.lean ====
section
/-! SUPPORT. Every function of Machine.Partition keeps what `Kept` promises; where it touches no memory a second law says so. -/

namespace Sys2Proof.Machine
open Sys2Proof Numeric

@[simp] theorem blankCached_mem (t : Nat) (s : State) : (blankCached t s).mem = s.mem := by
  unfold blankCached
  with_reducible repeat' first
    | rfl | intro _ | simp only [blankBlock_mem]
    | refine (foldl_mem _ (fun _ _ => ?_) _ _).trans ?_ | split | dsimp only

theorem blankCached_kept {o : State} (t : Nat) (s : State) (hmem : Kept o s) : Kept o (blankCached t s) := by
  unfold blankCached
  with_reducible repeat' first
    | assumption | intro _ | apply blankBlock_kept | refine foldl_kept _ (fun _ _ _ => ?_) _ _ ?_ | split | dsimp only

theorem partitionWrite_kept {o : State} (v : Word) (s : State) (hmem : Kept o s) : Kept o (partitionWrite v s) := by
  unfold partitionWrite
  with_reducible repeat' first
    | assumption | intro _ | apply setTenant_kept | apply leavePartition_kept | apply blankCached_kept
    | refine foldl_kept _ (fun _ _ _ => ?_) _ _ ?_ | refine ite_kept _ _ ?_ ?_ | simp only [kept_mk] | split | dsimp only

@[simp] theorem versionSelect_mem (fn : Nat) (v : Word) (s : State) : (versionSelect fn v s).mem = s.mem := by
  unfold versionSelect
  with_reducible repeat' first | rfl | intro _ | simp only [setFunc_mem] | split | dsimp only

theorem versionSelect_kept {o : State} (fn : Nat) (v : Word) (s : State) (hmem : Kept o s) : Kept o (versionSelect fn v s) := by
  unfold versionSelect
  with_reducible repeat' first
    | assumption | intro _ | apply setFunc_kept | refine ite_kept _ _ ?_ ?_ | simp only [kept_mk] | split | dsimp only

@[simp] theorem kvPoolWrite_mem (v : DWord) (s : State) : (kvPoolWrite v s).mem = s.mem := by
  unfold kvPoolWrite
  with_reducible repeat' first | rfl | intro _ | simp only [setKvPool_mem, apply_ite State.mem, ite_self] | split | dsimp only

theorem kvPoolWrite_kept {o : State} (v : DWord) (s : State) (hmem : Kept o s) : Kept o (kvPoolWrite v s) := by
  unfold kvPoolWrite
  with_reducible repeat' first
    | assumption | intro _ | apply setKvPool_kept | refine ite_kept _ _ ?_ ?_ | simp only [kept_mk] | split | dsimp only

@[simp] theorem drawTenantKey_mem (t : Nat) (s : State) : (drawTenantKey t s).mem = s.mem := by
  unfold drawTenantKey
  with_reducible repeat' first | rfl | intro _ | simp only [setTenant_mem] | split | dsimp only

theorem drawTenantKey_kept {o : State} (t : Nat) (s : State) (hmem : Kept o s) : Kept o (drawTenantKey t s) := by
  unfold drawTenantKey
  with_reducible repeat' first | assumption | intro _ | apply setTenant_kept | simp only [kept_mk] | split | dsimp only

@[simp] theorem drawGroupKey_mem (g : Nat) (s : State) : (drawGroupKey g s).mem = s.mem := by
  unfold drawGroupKey
  with_reducible repeat' first | rfl | intro _ | simp only [apply_ite State.mem, ite_self] | split | dsimp only

theorem drawGroupKey_kept {o : State} (g : Nat) (s : State) (hmem : Kept o s) : Kept o (drawGroupKey g s) := by
  unfold drawGroupKey
  with_reducible repeat' first | assumption | intro _ | refine ite_kept _ _ ?_ ?_ | simp only [kept_mk] | split | dsimp only

@[simp] theorem kvTenantWrite_mem (v : Word) (s : State) : (kvTenantWrite v s).mem = s.mem := by
  unfold kvTenantWrite
  with_reducible repeat' first
    | rfl | intro _
    | simp only [setTenant_mem, blankCached_mem, drawTenantKey_mem, drawGroupKey_mem, apply_ite State.mem, ite_self] | split
    | dsimp only

theorem kvTenantWrite_kept {o : State} (v : Word) (s : State) (hmem : Kept o s) : Kept o (kvTenantWrite v s) := by
  unfold kvTenantWrite
  with_reducible repeat' first
    | assumption | intro _ | apply setTenant_kept | apply blankCached_kept | apply drawTenantKey_kept
    | apply drawGroupKey_kept | refine ite_kept _ _ ?_ ?_ | simp only [kept_mk] | split | dsimp only

end Sys2Proof.Machine
end

