-- ==== Sys2Proof/Laws/KeptAdmit.lean ====
section
/-! SUPPORT. Every function of Machine.Admit keeps what `Kept` promises; where it touches no memory a second law says so. -/

namespace Sys2Proof.Machine
open Sys2Proof Numeric

theorem lookupPrompt_kept {o : State} (t h plen slotNo : Nat) (draft : Bool) (toks : List Word) (s : State) (hmem : Kept o s) :
    Kept o (lookupPrompt t h plen slotNo draft toks s).2.2 := by
  unfold lookupPrompt
  with_reducible repeat' first
    | assumption | intro _ | apply addRef_kept | apply writeMap_kept | refine foldl_kept _ (fun _ _ _ => ?_) _ _ ?_
    | refine ite_kept _ _ ?_ ?_ | split | dsimp only

@[simp] theorem setLedger_mem (t : Nat) (f : Pool → Pool) (s : State) : (setLedger t f s).mem = s.mem := by
  unfold setLedger
  with_reducible repeat' first
    | rfl | intro _ | simp only [conserve_mem, setTenant_mem] | split | dsimp only

theorem setLedger_kept {o : State} (t : Nat) (f : Pool → Pool) (s : State) (hmem : Kept o s) : Kept o (setLedger t f s) := by
  unfold setLedger
  with_reducible repeat' first
    | assumption | intro _ | apply conserve_kept | apply setTenant_kept | simp only [kept_mk] | split | dsimp only

theorem admitRequest_kept {o : State} (sub : Sub) (main draft : Nat) (q : GenReq) (s : State) (hmem : Kept o s) : Kept o
    (admitRequest sub main draft q s) := by
  unfold admitRequest
  with_reducible repeat' first
    | assumption | intro _ | apply State.spend_kept | apply addLong_kept | apply refVersion_kept | apply setReq_kept
    | apply lookupPrompt_kept | apply setLedger_kept | refine ite_kept _ _ ?_ ?_ | simp only [kept_mk] | split | dsimp only

@[simp] theorem refillLedger_mem (s : State) (t : Nat) : (refillLedger s t).mem = s.mem := by
  unfold refillLedger
  with_reducible repeat' first
    | rfl | intro _ | simp only [setTenant_mem, setLedger_mem] | split | dsimp only

theorem refillLedger_kept {o : State} (s : State) (t : Nat) (hmem : Kept o s) : Kept o (refillLedger s t) := by
  unfold refillLedger
  with_reducible repeat' first
    | assumption | intro _ | apply setTenant_kept | apply setLedger_kept | refine ite_kept _ _ ?_ ?_ | simp only [kept_mk]
    | split | dsimp only

end Sys2Proof.Machine
end

