-- ==== Sys2Proof/Laws/KeptBootOps.lean ====
section
/-! SUPPORT. Every function of Machine.BootOps keeps what `Kept` promises; where it touches no memory a second law says so. -/

namespace Sys2Proof.Machine
open Sys2Proof Numeric

@[simp] theorem setCal_mem (id : Nat) (f : CalField → CalField) (s : State) : (setCal id f s).mem = s.mem := by
  unfold setCal
  with_reducible repeat' first | rfl | intro _ | simp only [apply_ite State.mem, ite_self] | split | dsimp only

theorem setCal_kept {o : State} (id : Nat) (f : CalField → CalField) (s : State) (hmem : Kept o s) : Kept o (setCal id f s) :=
    by
  unfold setCal
  with_reducible repeat' first
    | assumption | intro _ | split | dsimp only | rfl
    | refine Kept.boots ?_ _ _ _ _ _ _ _ _ _ _ _ _ _ _ _ _ ?_ ?_

@[simp] theorem loadOverlay_mem (s : State) : (loadOverlay s).mem = s.mem := by
  unfold loadOverlay
  with_reducible repeat' first | rfl | intro _ | split | dsimp only

theorem loadOverlay_kept {o : State} (s : State) (hmem : Kept o s) : Kept o (loadOverlay s) := by
  unfold loadOverlay
  with_reducible repeat' first
    | assumption | intro _ | split | dsimp only | rfl
    | refine Kept.boots ?_ _ _ _ _ _ _ _ _ _ _ _ _ _ _ _ _ ?_ ?_

theorem cutEfl_wf (s : State) (h : MemOk s) : Memory.wf (cutEfl s) = true := by
  unfold cutEfl
  refine foldl_keeps (fun m => Memory.wf m = true) _ (fun m o hm => ?_) _ _ h
  split
  · exact Memory.wf_wrEfl _ _ hm
  · exact Memory.wf_wrEfl _ _ hm

theorem cutSlot_wf (s : State) (m : Mems) (h : Memory.wf m = true) : Memory.wf (cutSlot s m) = true := by
  unfold cutSlot
  dsimp only
  with_reducible repeat' first | assumption | apply Memory.wf_wrEfl | split

theorem cutCopy_wf (s : State) (m : Mems) (h : Memory.wf m = true) : Memory.wf (cutCopy s m) = true := by
  unfold cutCopy
  split
  · exact Memory.wf_wrEfl _ _ (Memory.wf_wrEfl _ _ h)
  · exact h

theorem resetDomains_pending (s : State) : (resetDomains s).pending = s.pending := by dsimp only [resetDomains]

theorem resetDomains_fuses (s : State) : (resetDomains s).fuses = s.fuses := by dsimp only [resetDomains]

theorem resetDomains_done (s : State) : (resetDomains s).boot.done = false := by dsimp only [resetDomains, State.reset,
    Boot.reset]

theorem resetDomains_mem (s : State) : (resetDomains s).mem = (cutCopy s (cutSlot s (cutEfl s))).cold := by dsimp only
    [resetDomains]

theorem resetDomains_kept {o : State} (s : State) (hmem : Kept o s) : Kept o (resetDomains s) := by
  refine Calm.kept ⟨?_, (resetDomains_pending s).trans hmem.pending, (resetDomains_fuses s).trans hmem.fuses⟩ (resetDomains_done
      s)
  intro h
  unfold MemOk
  rw [resetDomains_mem]
  exact Memory.wf_cold (cutCopy_wf _ _ (cutSlot_wf _ _ (cutEfl_wf _ (hmem.mem h))))

@[simp] theorem enterNursery_mem (code : Nat) (s : State) : (enterNursery code s).mem = s.mem := rfl

theorem enterNursery_kept {o : State} (code : Nat) (s : State) (h : Kept o s) : Kept o (enterNursery code s) :=
  Calm.kept ⟨h.mem, h.pending, h.fuses⟩ rfl

theorem packageReset_kept {o : State} (cause : Nat) (s : State) (h : Kept o s) : Kept o (packageReset cause s) := by
  have key : ∀ t : State, Kept o t → t.boot.done = false →
      Kept o (let t : State := { t with boot := { t.boot with fail := { t.boot.fail with cause := BitVec.ofNat 3 cause } } }
        if t.boot.forceNursery then enterNursery 24 { t with boot := { t.boot with forceNursery := false } }
        else if t.boot.fail.count = 3 then enterNursery t.boot.fail.lastNrc.toNat t
        else t) := by
    intro t k d
    dsimp only
    split
    · exact Calm.kept ⟨k.mem, k.pending, k.fuses⟩ rfl
    · split
      · exact Calm.kept ⟨k.mem, k.pending, k.fuses⟩ rfl
      · exact Calm.kept ⟨k.mem, k.pending, k.fuses⟩ d
  have low := resetDomains_kept s h
  have done := resetDomains_done s
  unfold packageReset
  generalize resetDomains s = t at low done ⊢
  dsimp only
  split
  · exact key (powerLost t) (Calm.kept ⟨low.mem, low.pending, low.fuses⟩ done) done
  · exact key t low done

@[simp] theorem countFailure_mem (code : Nat) (s : State) : (countFailure code s).mem = s.mem := by
  unfold countFailure
  with_reducible repeat' first | rfl | intro _ | simp only [apply_ite State.mem, ite_self] | split | dsimp only

theorem countFailure_kept {o : State} (code : Nat) (s : State) (hmem : Kept o s) : Kept o (countFailure code s) := by
  unfold countFailure
  with_reducible repeat' first
    | assumption | intro _ | split | dsimp only | rfl
    | refine Kept.boots ?_ _ _ _ _ _ _ _ _ _ _ _ _ _ _ _ _ ?_ ?_

theorem failedStart_kept {o : State} (code : Nat) (s : State) (hmem : Kept o s) : Kept o (failedStart code s) := by
  unfold failedStart
  with_reducible repeat' first
    | assumption | intro _ | apply resetDomains_kept | apply enterNursery_kept | apply packageReset_kept
    | apply countFailure_kept | refine ite_kept _ _ ?_ ?_ | split | dsimp only

end Sys2Proof.Machine
end

