-- ==== Sys2Proof/Laws/KeptEfl.lean ====
section
/-! SUPPORT. Every function of Machine.Efl keeps what `Kept` promises; where it touches no memory a second law says so. -/

namespace Sys2Proof.Machine
open Sys2Proof Numeric

@[simp] theorem setEflBusy_mem (bank : Nat) (o : Option EflOp) (s : State) : (setEflBusy bank o s).mem = s.mem := by
  unfold setEflBusy
  with_reducible repeat' first | rfl | intro _ | simp only [apply_ite State.mem, ite_self] | split | dsimp only

theorem setEflBusy_kept {old : State} (bank : Nat) (o : Option EflOp) (s : State) (hmem : Kept old s) : Kept old (setEflBusy
    bank o s) := by
  unfold setEflBusy
  with_reducible repeat' first | assumption | intro _ | refine ite_kept _ _ ?_ ?_ | simp only [kept_mk] | split | dsimp only

@[simp] theorem startEfl_mem (erase : Bool) (line : Nat) (s : State) : (startEfl erase line s).mem = s.mem := by
  unfold startEfl
  with_reducible repeat' first
    | rfl | intro _ | simp only [setEflBusy_mem, apply_ite State.mem, ite_self] | split | dsimp only

theorem startEfl_kept {o : State} (erase : Bool) (line : Nat) (s : State) (hmem : Kept o s) : Kept o (startEfl erase line s) :=
    by
  unfold startEfl
  with_reducible repeat' first
    | assumption | intro _ | apply setEflBusy_kept | refine ite_kept _ _ ?_ ?_ | simp only [kept_mk] | split | dsimp only

@[simp] theorem eflFault_mem (src : EflSrc) (line : BitVec 19) (cause : Bool) (s : State) : (eflFault src line cause s).mem =
    s.mem := by
  unfold eflFault
  with_reducible repeat' first | rfl | intro _ | simp only [apply_ite State.mem, ite_self] | split | dsimp only

theorem eflFault_kept {o : State} (src : EflSrc) (line : BitVec 19) (cause : Bool) (s : State) (hmem : Kept o s) : Kept o
    (eflFault src line cause s) := by
  unfold eflFault
  with_reducible repeat' first | assumption | intro _ | simp only [kept_mk] | split | dsimp only

@[simp] theorem eflPrefetch_mem (line : Nat) (s : State) : (eflPrefetch line s).mem = s.mem := by
  unfold eflPrefetch
  with_reducible repeat' first | rfl | intro _ | simp only [apply_ite State.mem, ite_self] | split | dsimp only

theorem eflPrefetch_kept {o : State} (line : Nat) (s : State) (hmem : Kept o s) : Kept o (eflPrefetch line s) := by
  unfold eflPrefetch
  with_reducible repeat' first | assumption | intro _ | simp only [kept_mk] | split | dsimp only

end Sys2Proof.Machine
end

