-- ==== Sys2Proof/Laws/KeptBridge.lean ====
section
/-! SUPPORT. Every function of Machine.Bridge keeps what `Kept` promises; where it touches no memory a second law says so. -/

namespace Sys2Proof.Machine
open Sys2Proof

@[simp] theorem replayFlit_mem (dir lane : Nat) (s : State) : (replayFlit dir lane s).mem = s.mem := by
  unfold replayFlit
  with_reducible repeat' first | rfl | intro _ | simp only [apply_ite State.mem, ite_self] | split | dsimp only

theorem replayFlit_kept {o : State} (dir lane : Nat) (s : State) (hmem : Kept o s) : Kept o (replayFlit dir lane s) := by
  unfold replayFlit
  with_reducible repeat' first | assumption | intro _ | refine ite_kept _ _ ?_ ?_ | simp only [kept_mk] | split | dsimp only

theorem within_fenceLane (bridge lane : Nat) (f : Fences) : Fences.Within f (fenceLane bridge lane f) := by
  unfold fenceLane
  split
  · exact ⟨fun _ => id, fun _ => id, fun _ => id, fun _ => id, fun i h => by simp [h], fun _ => id, fun _ => id, fun _ => id⟩
  · exact ⟨fun _ => id, fun _ => id, fun _ => id, fun _ => id, fun _ => id, fun i h => by simp [h], fun _ => id, fun _ => id⟩
  · exact ⟨fun _ => id, fun _ => id, fun _ => id, fun _ => id, fun _ => id, fun _ => id, fun i h => by simp [h], fun _ => id⟩

theorem ite_bits (c : Prop) [Decidable c] (x : BitVec 8) {i : Nat} (h : x.getLsbD i = true) :
    (if c then (0xFF : BitVec 8) else x).getLsbD i = true := by
  have k : ∀ j : Fin 8, (0xFF : BitVec 8).getLsbD j = true := by decide
  split
  · exact k ⟨i, BitVec.lt_of_getLsbD h⟩
  · exact h

theorem fenceHalf_kept {o : State} (k : Nat) (s : State) (h : Kept o s) : Kept o (fenceHalf k s) := by
  unfold fenceHalf
  refine foldl_kept _ (fun _ _ h => fenceCore_kept _ _ h) _ _ (h.fenced _ ?_)
  refine ⟨fun _ => id, fun _ => id, fun _ => id, fun _ => id, fun i h => ?_, fun i h => ?_, fun _ => id, fun i h => by simp [h]⟩
  · exact ite_bits _ _ h
  · exact ite_bits _ _ h

@[simp] theorem rerouteFlits_mem (bridge lane : Nat) (s : State) : (rerouteFlits bridge lane s).mem = s.mem := by
  unfold rerouteFlits
  with_reducible repeat' first | rfl | intro _ | simp only [apply_ite State.mem, ite_self] | split | dsimp only

theorem rerouteFlits_kept {o : State} (bridge lane : Nat) (s : State) (hmem : Kept o s) : Kept o (rerouteFlits bridge lane s) :=
    by
  unfold rerouteFlits
  with_reducible repeat' first | assumption | intro _ | simp only [kept_mk] | split | dsimp only

theorem audSelectWrite_kept {o : State} (v : Word) (s : State) (h : Kept o s) : Kept o (audSelectWrite v s) :=
  ⟨⟨h.mem, h.pending, h.fuses⟩, h.fences, h.fatal, h.audit⟩

end Sys2Proof.Machine
end

