-- ==== Sys2Proof/Laws/KeptDdr.lean ====
section
/-! SUPPORT. Every function of Machine.Ddr keeps what `Kept` promises; where it touches no memory a second law says so. -/

namespace Sys2Proof.Machine
open Sys2Proof Numeric

@[simp] theorem setChan_mem (c : Nat) (f : Channel → Channel) (s : State) : (setChan c f s).mem = s.mem := by
  unfold setChan
  with_reducible repeat' first | rfl | intro _ | simp only [apply_ite State.mem, ite_self] | split | dsimp only

theorem setChan_kept {o : State} (c : Nat) (f : Channel → Channel) (s : State) (hmem : Kept o s) : Kept o (setChan c f s) := by
  unfold setChan
  with_reducible repeat' first | assumption | intro _ | simp only [kept_mk] | split | dsimp only

@[simp] theorem setPort_mem (p : Nat) (f : Port → Port) (s : State) : (setPort p f s).mem = s.mem := by
  unfold setPort
  with_reducible repeat' first | rfl | intro _ | simp only [apply_ite State.mem, ite_self] | split | dsimp only

theorem setPort_kept {o : State} (p : Nat) (f : Port → Port) (s : State) (hmem : Kept o s) : Kept o (setPort p f s) := by
  unfold setPort
  with_reducible repeat' first | assumption | intro _ | simp only [kept_mk] | split | dsimp only

@[simp] theorem setAcct_mem (p a : Nat) (f : Account → Account) (s : State) : (setAcct p a f s).mem = s.mem := by
  unfold setAcct
  with_reducible repeat' first | rfl | intro _ | simp only [setPort_mem] | split | dsimp only

theorem setAcct_kept {o : State} (p a : Nat) (f : Account → Account) (s : State) (hmem : Kept o s) : Kept o (setAcct p a f s) :=
    by
  unfold setAcct
  with_reducible repeat' first | assumption | intro _ | apply setPort_kept | simp only [kept_mk] | split | dsimp only

@[simp] theorem conservePort_mem (p : Nat) (s : State) : (conservePort p s).mem = s.mem := by
  unfold conservePort
  with_reducible repeat' first | rfl | intro _ | simp only [conserve_mem] | split | dsimp only

theorem conservePort_kept {o : State} (p : Nat) (s : State) (hmem : Kept o s) : Kept o (conservePort p s) := by
  unfold conservePort
  with_reducible repeat' first | assumption | intro _ | apply conserve_kept | split | dsimp only

@[simp] theorem markFailing_mem (pair : Nat) (s : State) : (markFailing pair s).mem = s.mem := by
  unfold markFailing
  with_reducible repeat' first | rfl | intro _ | simp only [postEvent_mem, apply_ite State.mem, ite_self] | split | dsimp only

theorem markFailing_kept {o : State} (pair : Nat) (s : State) (hmem : Kept o s) : Kept o (markFailing pair s) := by
  unfold markFailing
  with_reducible repeat' first
    | assumption | intro _ | apply postEvent_kept | refine ite_kept _ _ ?_ ?_ | simp only [kept_mk] | split | dsimp only

@[simp] theorem activate_mem (pl : Place) (s : State) : (activate pl s).mem = s.mem := by
  unfold activate
  with_reducible repeat' first | rfl | intro _ | simp only [setChan_mem] | split | dsimp only

theorem activate_kept {o : State} (pl : Place) (s : State) (hmem : Kept o s) : Kept o (activate pl s) := by
  unfold activate
  with_reducible repeat' first
    | assumption | intro _ | apply setChan_kept | refine ite_kept _ _ ?_ ?_ | simp only [kept_mk] | split | dsimp only

@[simp] theorem grantAccess_mem (port acct line k : Nat) (write : Bool) (s : State) : (grantAccess port acct line k write s).mem
    = s.mem := by
  unfold grantAccess
  with_reducible repeat' first
    | rfl | intro _
    | simp only [State.spend_mem, setChan_mem, setAcct_mem, conservePort_mem, activate_mem, apply_ite State.mem, ite_self]
    | split | dsimp only

theorem grantAccess_kept {o : State} (port acct line k : Nat) (write : Bool) (s : State) (hmem : Kept o s) : Kept o (grantAccess
    port acct line k write s) := by
  unfold grantAccess
  with_reducible repeat' first
    | assumption | intro _ | apply State.spend_kept | apply setChan_kept | apply setAcct_kept | apply conservePort_kept
    | apply activate_kept | refine ite_kept _ _ ?_ ?_ | simp only [kept_mk] | split | dsimp only

@[simp] theorem countCe_mem (c i : Nat) (s : State) : (countCe c i s).mem = s.mem := by
  unfold countCe
  with_reducible repeat' first | rfl | intro _ | simp only [setChan_mem] | split | dsimp only

theorem countCe_kept {o : State} (c i : Nat) (s : State) (hmem : Kept o s) : Kept o (countCe c i s) := by
  unfold countCe
  with_reducible repeat' first
    | assumption | intro _ | apply setChan_kept | refine ite_kept _ _ ?_ ?_ | simp only [kept_mk] | split | dsimp only

@[simp] theorem countUe_mem (a : Nat) (s : State) : (countUe a s).mem = s.mem := by
  unfold countUe
  with_reducible repeat' first | rfl | intro _ | simp only [setChan_mem] | split | dsimp only

theorem countUe_kept {o : State} (a : Nat) (s : State) (hmem : Kept o s) : Kept o (countUe a s) := by
  unfold countUe
  with_reducible repeat' first
    | assumption | intro _ | apply setChan_kept | refine ite_kept _ _ ?_ ?_ | simp only [kept_mk] | split | dsimp only

@[simp] theorem checkLine_mem (a i : Nat) (f : Finding) (s : State) : (checkLine a i f s).mem = s.mem := by
  unfold checkLine
  with_reducible repeat' first
    | rfl | intro _ | simp only [setChan_mem, countCe_mem, countUe_mem, apply_ite State.mem, ite_self] | split | dsimp only

theorem checkLine_kept {o : State} (a i : Nat) (f : Finding) (s : State) (hmem : Kept o s) : Kept o (checkLine a i f s) := by
  unfold checkLine
  with_reducible repeat' first
    | assumption | intro _ | apply setChan_kept | apply countCe_kept | apply countUe_kept | refine ite_kept _ _ ?_ ?_
    | simp only [kept_mk] | split | dsimp only

@[simp] theorem completeAccess_mem (g : Grant) (findings : List Finding) (s : State) : (completeAccess g findings s).mem = s.mem
    := by
  unfold completeAccess
  with_reducible repeat' first
    | rfl | intro _
    | simp only [State.spend_mem, setPort_mem, setAcct_mem, conservePort_mem, checkLine_mem, apply_ite State.mem]
    | refine (foldl_mem _ (fun _ _ => ?_) _ _).trans ?_ | split | dsimp only

theorem completeAccess_kept {o : State} (g : Grant) (findings : List Finding) (s : State) (hmem : Kept o s) : Kept o
    (completeAccess g findings s) := by
  unfold completeAccess
  with_reducible repeat' first
    | assumption | intro _ | apply State.spend_kept | apply setPort_kept | apply setAcct_kept | apply conservePort_kept
    | apply checkLine_kept | refine foldl_kept _ (fun _ _ _ => ?_) _ _ ?_ | refine ite_kept _ _ ?_ ?_ | simp only [kept_mk]
    | split | dsimp only

@[simp] theorem giveToken_mem (p a : Nat) (s : State) : (giveToken p a s).mem = s.mem := by
  unfold giveToken
  with_reducible repeat' first
    | rfl | intro _ | simp only [setPort_mem, setAcct_mem] | split | dsimp only

theorem giveToken_kept {o : State} (p a : Nat) (s : State) (hmem : Kept o s) : Kept o (giveToken p a s) := by
  unfold giveToken
  with_reducible repeat' first
    | assumption | intro _ | apply setPort_kept | apply setAcct_kept | simp only [kept_mk] | split | dsimp only

@[simp] theorem spread_mem (n : Nat) (s : State) : (spread n s).mem = s.mem := by
  induction n generalizing s with
  | zero => rfl
  | succ n ih => unfold spread; split <;> simp [ih]

theorem spread_kept {o : State} (n : Nat) (s : State) (h : Kept o s) : Kept o (spread n s) := by
  induction n generalizing s with
  | zero => exact h
  | succ n ih =>
    unfold spread
    with_reducible repeat' first | assumption | apply ih | apply giveToken_kept | simp only [kept_mk] | split | dsimp only

@[simp] theorem refillOne_mem (p a : Nat) (s : State) : (refillOne p a s).mem = s.mem := by
  unfold refillOne
  with_reducible repeat' first
    | rfl | intro _ | simp only [setPort_mem, setAcct_mem, spread_mem, apply_ite State.mem, ite_self] | split | dsimp only

theorem refillOne_kept {o : State} (p a : Nat) (s : State) (hmem : Kept o s) : Kept o (refillOne p a s) := by
  unfold refillOne
  with_reducible repeat' first
    | assumption | intro _ | apply setPort_kept | apply setAcct_kept | apply spread_kept | refine ite_kept _ _ ?_ ?_
    | simp only [kept_mk] | split | dsimp only

@[simp] theorem replaceOwners_mem (s : State) : (replaceOwners s).mem = s.mem := by
  unfold replaceOwners
  with_reducible repeat' first
    | rfl | intro _ | simp only [setChan_mem]
    | refine (foldl_mem _ (fun _ _ => ?_) _ _).trans ?_ | split | dsimp only

theorem replaceOwners_kept {o : State} (s : State) (hmem : Kept o s) : Kept o (replaceOwners s) := by
  unfold replaceOwners
  with_reducible repeat' first
    | assumption | intro _ | apply setChan_kept | refine foldl_kept _ (fun _ _ _ => ?_) _ _ ?_ | simp only [kept_mk] | split
    | dsimp only

@[simp] theorem startRetrain_mem (cmd : Option (Nat × Sub)) (s : State) : (startRetrain cmd s).mem = s.mem := by
  unfold startRetrain
  with_reducible repeat' first | rfl | intro _ | simp only [apply_ite State.mem, ite_self] | split | dsimp only

theorem startRetrain_kept {o : State} (cmd : Option (Nat × Sub)) (s : State) (hmem : Kept o s) : Kept o (startRetrain cmd s) :=
    by
  unfold startRetrain
  with_reducible repeat' first | assumption | intro _ | simp only [kept_mk] | split | dsimp only

@[simp] theorem dueRetrain_mem (s : State) : (dueRetrain s).mem = s.mem := by
  unfold dueRetrain
  with_reducible repeat' first
    | rfl | intro _ | simp only [startRetrain_mem, apply_ite State.mem, ite_self] | split | dsimp only

theorem dueRetrain_kept {o : State} (s : State) (hmem : Kept o s) : Kept o (dueRetrain s) := by
  unfold dueRetrain
  with_reducible repeat' first
    | assumption | intro _ | apply startRetrain_kept | refine ite_kept _ _ ?_ ?_ | simp only [kept_mk] | split | dsimp only

@[simp] theorem nextRetrainStart_mem (s : State) : (nextRetrainStart s).mem = s.mem := by
  unfold nextRetrainStart
  with_reducible repeat' first
    | rfl | intro _ | simp only [startRetrain_mem, apply_ite State.mem] | split | dsimp only

theorem nextRetrainStart_kept {o : State} (s : State) (hmem : Kept o s) : Kept o (nextRetrainStart s) := by
  unfold nextRetrainStart
  with_reducible repeat' first
    | assumption | intro _ | apply startRetrain_kept | refine ite_kept _ _ ?_ ?_ | simp only [kept_mk] | split | dsimp only

@[simp] theorem endRetrain_mem (st : BitVec 16) (s : State) : (endRetrain st s).mem = s.mem := by
  unfold endRetrain
  with_reducible repeat' first
    | rfl | intro _ | simp only [finishLong_mem, nextRetrainStart_mem] | split | dsimp only

theorem endRetrain_kept {o : State} (st : BitVec 16) (s : State) (hmem : Kept o s) : Kept o (endRetrain st s) := by
  unfold endRetrain
  with_reducible repeat' first
    | assumption | intro _ | apply finishLong_kept | apply nextRetrainStart_kept | simp only [kept_mk] | split | dsimp only

@[simp] theorem retrainBoundary_mem (r : Retrain) (s : State) : (retrainBoundary r s).mem = s.mem := by
  unfold retrainBoundary
  with_reducible repeat' first
    | rfl | intro _ | simp only [markLong_mem, settleLong_mem, endRetrain_mem, apply_ite State.mem, ite_self] | split
    | dsimp only

theorem retrainBoundary_kept {o : State} (r : Retrain) (s : State) (hmem : Kept o s) : Kept o (retrainBoundary r s) := by
  unfold retrainBoundary
  with_reducible repeat' first
    | assumption | intro _ | apply markLong_kept | apply settleLong_kept | apply endRetrain_kept | refine ite_kept _ _ ?_ ?_
    | simp only [kept_mk] | split | dsimp only

@[simp] theorem installAcct_mem (p a : Nat) (x : Account) (s : State) : (installAcct p a x s).mem = s.mem := by
  unfold installAcct
  with_reducible repeat' first
    | rfl | intro _
    | simp only [State.spend_mem, setAcct_mem, conservePort_mem, replaceOwners_mem, apply_ite State.mem, ite_self] | split
    | dsimp only

theorem installAcct_kept {o : State} (p a : Nat) (x : Account) (s : State) (hmem : Kept o s) : Kept o (installAcct p a x s) :=
    by
  unfold installAcct
  with_reducible repeat' first
    | assumption | intro _ | apply State.spend_kept | apply setAcct_kept | apply conservePort_kept | apply replaceOwners_kept
    | refine ite_kept _ _ ?_ ?_ | simp only [kept_mk] | split | dsimp only

@[simp] theorem accountSelect_mem (v : Word) (s : State) : (accountSelect v s).mem = s.mem := by
  unfold accountSelect
  with_reducible repeat' first
    | rfl | intro _ | simp only [installAcct_mem, apply_ite State.mem, ite_self] | split | dsimp only

theorem accountSelect_kept {o : State} (v : Word) (s : State) (hmem : Kept o s) : Kept o (accountSelect v s) := by
  unfold accountSelect
  with_reducible repeat' first
    | assumption | intro _ | apply installAcct_kept | refine ite_kept _ _ ?_ ?_ | simp only [kept_mk] | split | dsimp only

end Sys2Proof.Machine
end

