-- ==== Sys2Proof/Laws/KeptFlash.lean ====
section
/-! SUPPORT. Every function of Machine.Flash keeps what `Kept` promises; where it touches no memory a second law says so. -/

namespace Sys2Proof.Machine
open Sys2Proof Numeric

theorem writePage_kept {o : State} (b p kind : Nat) (data : Bytes) (s : State) (hmem : Kept o s) : Kept o (writePage b p kind
    data s) := by
  unfold writePage
  with_reducible repeat' first
    | assumption | intro _ | apply State.spend_kept | refine setMems_kept _ _ ?_ ?_
    | exact Kept.wf (by assumption) (by assumption) | apply Memory.wf_wrNand | refine Kept.wf ?_ ?_ | split | dsimp only

theorem eraseBlock_kept {o : State} (b : Nat) (s : State) (hmem : Kept o s) : Kept o (eraseBlock b s) := by
  unfold eraseBlock
  with_reducible repeat' first
    | assumption | intro _ | refine setMems_kept _ _ ?_ ?_ | exact Kept.wf (by assumption) (by assumption)
    | apply Memory.wf_clrNand | refine Kept.wf ?_ ?_ | split | dsimp only

@[simp] theorem setBlock_mem (b : Nat) (f : FltBlock → FltBlock) (s : State) : (setBlock b f s).mem = s.mem := by
  unfold setBlock
  with_reducible repeat' first | rfl | intro _ | simp only [apply_ite State.mem, ite_self] | split | dsimp only

theorem setBlock_kept {o : State} (b : Nat) (f : FltBlock → FltBlock) (s : State) (hmem : Kept o s) : Kept o (setBlock b f s) :=
    by
  unfold setBlock
  with_reducible repeat' first | assumption | intro _ | simp only [kept_mk] | split | dsimp only

@[simp] theorem setJournal_mem (c : Nat) (f : Journal → Journal) (s : State) : (setJournal c f s).mem = s.mem := by
  unfold setJournal
  with_reducible repeat' first | rfl | intro _ | simp only [apply_ite State.mem, ite_self] | split | dsimp only

theorem setJournal_kept {o : State} (c : Nat) (f : Journal → Journal) (s : State) (hmem : Kept o s) : Kept o (setJournal c f s)
    := by
  unfold setJournal
  with_reducible repeat' first | assumption | intro _ | simp only [kept_mk] | split | dsimp only

@[simp] theorem setLun_mem (k : Nat) (f : Lun → Lun) (s : State) : (setLun k f s).mem = s.mem := by
  unfold setLun
  with_reducible repeat' first | rfl | intro _ | simp only [apply_ite State.mem, ite_self] | split | dsimp only

theorem setLun_kept {o : State} (k : Nat) (f : Lun → Lun) (s : State) (hmem : Kept o s) : Kept o (setLun k f s) := by
  unfold setLun
  with_reducible repeat' first | assumption | intro _ | simp only [kept_mk] | split | dsimp only

@[simp] theorem setCmd_mem (n : Nat) (f : FlashCmd → FlashCmd) (s : State) : (setCmd n f s).mem = s.mem := by
  unfold setCmd
  with_reducible repeat' first | rfl | intro _ | simp only [apply_ite State.mem, ite_self] | split | dsimp only

theorem setCmd_kept {o : State} (n : Nat) (f : FlashCmd → FlashCmd) (s : State) (hmem : Kept o s) : Kept o (setCmd n f s) := by
  unfold setCmd
  with_reducible repeat' first | assumption | intro _ | refine ite_kept _ _ ?_ ?_ | simp only [kept_mk] | split | dsimp only

@[simp] theorem finishFlash_mem (n : Nat) (st : BitVec 16) (detail : Nat) (s : State) : (finishFlash n st detail s).mem = s.mem
    := by
  unfold finishFlash
  with_reducible repeat' first
    | rfl | intro _ | simp only [complete_mem, finishLong_mem, apply_ite State.mem, ite_self] | split | dsimp only

theorem finishFlash_kept {o : State} (n : Nat) (st : BitVec 16) (detail : Nat) (s : State) (hmem : Kept o s) : Kept o
    (finishFlash n st detail s) := by
  unfold finishFlash
  with_reducible repeat' first
    | assumption | intro _ | apply complete_kept | apply finishLong_kept | refine ite_kept _ _ ?_ ?_ | simp only [kept_mk]
    | split | dsimp only

@[simp] theorem kickJournal_mem (ch : Nat) (s : State) : (kickJournal ch s).mem = s.mem := by
  unfold kickJournal
  with_reducible repeat' first
    | rfl | intro _ | simp only [setJournal_mem, apply_ite State.mem, ite_self] | split | dsimp only

theorem kickJournal_kept {o : State} (ch : Nat) (s : State) (hmem : Kept o s) : Kept o (kickJournal ch s) := by
  unfold kickJournal
  with_reducible repeat' first
    | assumption | intro _ | apply setJournal_kept | refine ite_kept _ _ ?_ ?_ | simp only [kept_mk] | split | dsimp only

@[simp] theorem queueRec_mem (type b : Nat) (cmd : Option Nat) (s : State) : (queueRec type b cmd s).mem = s.mem := by
  unfold queueRec
  with_reducible repeat' first
    | rfl | intro _ | simp only [setJournal_mem, kickJournal_mem] | split | dsimp only

theorem queueRec_kept {o : State} (type b : Nat) (cmd : Option Nat) (s : State) (hmem : Kept o s) : Kept o (queueRec type b cmd
    s) := by
  unfold queueRec
  with_reducible repeat' first
    | assumption | intro _ | apply setJournal_kept | apply kickJournal_kept | simp only [kept_mk] | split | dsimp only

theorem pumpLun_kept {o : State} (fail : PageRead → State → State) (k : Nat)
    (hf : ∀ x s, Kept o s → Kept o (fail x s)) (n : Nat) (s : State)
    (hmem : Kept o s) : Kept o (pumpLun fail k n s) := by
  induction n generalizing s with
  | zero => exact hmem
  | succ n ih =>
    unfold pumpLun
    with_reducible repeat' first | assumption | apply setLun_kept | apply ih | apply hf | split | dsimp only

@[simp] theorem setIngest_mem (n : Nat) (f : Ingest → Ingest) (s : State) : (setIngest n f s).mem = s.mem := by
  unfold setIngest
  with_reducible repeat' first | rfl | intro _ | simp only [apply_ite State.mem, ite_self] | split | dsimp only

theorem setIngest_kept {o : State} (n : Nat) (f : Ingest → Ingest) (s : State) (hmem : Kept o s) : Kept o (setIngest n f s) :=
    by
  unfold setIngest
  with_reducible repeat' first | assumption | intro _ | simp only [kept_mk] | split | dsimp only

@[simp] theorem failRead_mem (x : PageRead) (s : State) : (failRead x s).mem = s.mem := by
  unfold failRead
  with_reducible repeat' first
    | rfl | intro _ | simp only [setLun_mem, setIngest_mem] | split | dsimp only

theorem failRead_kept {o : State} (x : PageRead) (s : State) (hmem : Kept o s) : Kept o (failRead x s) := by
  unfold failRead
  with_reducible repeat' first
    | assumption | intro _ | apply setLun_kept | apply setIngest_kept | refine ite_kept _ _ ?_ ?_
    | split | dsimp only

theorem pump_kept {o : State} (k : Nat) (s : State) (hmem : Kept o s) : Kept o (pump k s) := by
  unfold pump
  with_reducible repeat' first | assumption | intro _ | apply pumpLun_kept | apply failRead_kept | split | dsimp only

@[simp] theorem takeNext_mem (n : Nat) (s : State) : (takeNext n s).mem = s.mem := by
  unfold takeNext
  with_reducible repeat' first
    | rfl | intro _ | simp only [setBlock_mem, finishFlash_mem, queueRec_mem, apply_ite State.mem, ite_self] | split
    | dsimp only

theorem takeNext_kept {o : State} (n : Nat) (s : State) (hmem : Kept o s) : Kept o (takeNext n s) := by
  unfold takeNext
  with_reducible repeat' first
    | assumption | intro _ | apply setBlock_kept | apply finishFlash_kept | apply queueRec_kept | refine ite_kept _ _ ?_ ?_
    | simp only [kept_mk] | split | dsimp only

@[simp] theorem settleTier_mem (s : State) : (settleTier s).mem = s.mem := by
  unfold settleTier
  with_reducible repeat' first | rfl | intro _ | simp only [apply_ite State.mem, ite_self] | split | dsimp only

theorem settleTier_kept {o : State} (s : State) (hmem : Kept o s) : Kept o (settleTier s) := by
  unfold settleTier
  with_reducible repeat' first | assumption | intro _ | refine ite_kept _ _ ?_ ?_ | simp only [kept_mk] | split | dsimp only

theorem applyRec_kept {o : State} (s : State) (r : JRec) (hmem : Kept o s) : Kept o (applyRec s r) := by
  unfold applyRec
  with_reducible repeat' first
    | assumption | intro _ | apply setBlock_kept | apply setLun_kept | apply setCmd_kept | apply finishFlash_kept
    | apply pump_kept | apply takeNext_kept | apply settleTier_kept | refine ite_kept _ _ ?_ ?_ | simp only [kept_mk] | split
    | dsimp only

@[simp] theorem settleFormat_mem (s : State) : (settleFormat s).mem = s.mem := by
  unfold settleFormat
  with_reducible repeat' first
    | rfl | intro _ | simp only [finishFlash_mem, apply_ite State.mem, ite_self] | split | dsimp only

theorem settleFormat_kept {o : State} (s : State) (hmem : Kept o s) : Kept o (settleFormat s) := by
  unfold settleFormat
  with_reducible repeat' first
    | assumption | intro _ | apply finishFlash_kept | refine ite_kept _ _ ?_ ?_ | simp only [kept_mk] | split | dsimp only

@[simp] theorem rollJournal_mem (ch : Nat) (s : State) : (rollJournal ch s).mem = s.mem := by
  unfold rollJournal
  with_reducible repeat' first
    | rfl | intro _ | simp only [setJournal_mem, apply_ite State.mem, ite_self] | split | dsimp only

theorem rollJournal_kept {o : State} (ch : Nat) (s : State) (hmem : Kept o s) : Kept o (rollJournal ch s) := by
  unfold rollJournal
  with_reducible repeat' first
    | assumption | intro _ | apply setJournal_kept | refine ite_kept _ _ ?_ ?_ | simp only [kept_mk] | split | dsimp only

theorem pagePassed_kept {o : State} (ch : Nat) (s : State) (hmem : Kept o s) : Kept o (pagePassed ch s) := by
  unfold pagePassed
  with_reducible repeat' first
    | assumption | intro _ | apply writePage_kept | apply eraseBlock_kept | apply setJournal_kept | apply kickJournal_kept
    | apply settleTier_kept | apply applyRec_kept | apply settleFormat_kept | apply rollJournal_kept
    | refine foldl_kept _ (fun _ _ _ => ?_) _ _ ?_ | refine ite_kept _ _ ?_ ?_ | split | dsimp only

theorem directPage_kept {o : State} (n : Nat) (r : PageRead) (good : List Bool) (s : State) (hmem : Kept o s) : Kept o
    (directPage n r good s) := by
  unfold directPage
  with_reducible repeat' first
    | assumption | intro _ | apply setCmd_kept | apply finishFlash_kept | refine ite_kept _ _ ?_ ?_
    | refine setMems_kept _ _ ?_ ?_ | exact Kept.wf (by assumption) (by assumption) | apply Memory.wf_wrHost
    | refine Kept.wf ?_ ?_ | split | dsimp only

@[simp] theorem shardPage_mem (job shard : Nat) (ok : Bool) (r : PageRead) (s : State) : (shardPage job shard ok r s).mem =
    s.mem := by
  unfold shardPage
  with_reducible repeat' first
    | rfl | intro _ | simp only [setIngest_mem, failRead_mem, apply_ite State.mem, ite_self] | split | dsimp only

theorem shardPage_kept {o : State} (job shard : Nat) (ok : Bool) (r : PageRead) (s : State) (hmem : Kept o s) : Kept o
    (shardPage job shard ok r s) := by
  unfold shardPage
  with_reducible repeat' first
    | assumption | intro _ | apply setIngest_kept | apply failRead_kept | refine ite_kept _ _ ?_ ?_ | simp only [kept_mk]
    | split | dsimp only

@[simp] theorem afterRead_mem (k : Nat) (s : State) : (afterRead k s).mem = s.mem := by
  unfold afterRead
  with_reducible repeat' first | rfl | intro _ | simp only [setLun_mem, apply_ite State.mem, ite_self] | split | dsimp only

theorem afterRead_kept {o : State} (k : Nat) (s : State) (hmem : Kept o s) : Kept o (afterRead k s) := by
  unfold afterRead
  with_reducible repeat' first
    | assumption | intro _ | apply setLun_kept | refine ite_kept _ _ ?_ ?_ | split | dsimp only

@[simp] theorem addCmd_mem (c : FlashCmd) (s : State) : (addCmd c s).mem = s.mem := by
  unfold addCmd
  with_reducible repeat' first | rfl | intro _ | simp only [addLong_mem, apply_ite State.mem, ite_self] | split | dsimp only

theorem addCmd_kept {o : State} (c : FlashCmd) (s : State) (hmem : Kept o s) : Kept o (addCmd c s) := by
  unfold addCmd
  with_reducible repeat' first
    | assumption | intro _ | apply addLong_kept | refine ite_kept _ _ ?_ ?_ | simp only [kept_mk] | split | dsimp only

@[simp] theorem suspendFlash_mem (n : Nat) (s : State) : (suspendFlash n s).mem = s.mem := by
  unfold suspendFlash
  with_reducible repeat' first
    | rfl | intro _ | simp only [markLong_mem, settleLong_mem, setLun_mem, setCmd_mem] | split
    | dsimp only

theorem suspendFlash_kept {o : State} (n : Nat) (s : State) (hmem : Kept o s) : Kept o (suspendFlash n s) := by
  unfold suspendFlash
  with_reducible repeat' first
    | assumption | intro _ | apply markLong_kept | apply settleLong_kept | apply setLun_kept | apply setCmd_kept
    | simp only [kept_mk] | split | dsimp only

@[simp] theorem unfreeze_mem (n : Nat) (s : State) : (unfreeze n s).mem = s.mem := by
  unfold unfreeze
  with_reducible repeat' first | rfl | intro _ | simp only [setLun_mem] | split | dsimp only

theorem unfreeze_kept {o : State} (n : Nat) (s : State) (hmem : Kept o s) : Kept o (unfreeze n s) := by
  unfold unfreeze
  with_reducible repeat' first | assumption | intro _ | apply setLun_kept | simp only [kept_mk] | split | dsimp only

@[simp] theorem resumeFlash_mem (n : Nat) (s : State) : (resumeFlash n s).mem = s.mem := by
  unfold resumeFlash
  with_reducible repeat' first
    | rfl | intro _
    | simp only [markLong_mem, settleLong_mem, setCmd_mem, takeNext_mem, unfreeze_mem, apply_ite State.mem, ite_self] | split
    | dsimp only

theorem resumeFlash_kept {o : State} (n : Nat) (s : State) (hmem : Kept o s) : Kept o (resumeFlash n s) := by
  unfold resumeFlash
  with_reducible repeat' first
    | assumption | intro _ | apply markLong_kept | apply settleLong_kept | apply setCmd_kept | apply takeNext_kept
    | apply unfreeze_kept | refine ite_kept _ _ ?_ ?_ | split | dsimp only

@[simp] theorem cancelFlash_mem (n : Nat) (s : State) : (cancelFlash n s).mem = s.mem := by
  unfold cancelFlash
  with_reducible repeat' first
    | rfl | intro _ | simp only [setCmd_mem, finishFlash_mem, unfreeze_mem, apply_ite State.mem, ite_self] | split
    | dsimp only

theorem cancelFlash_kept {o : State} (n : Nat) (s : State) (hmem : Kept o s) : Kept o (cancelFlash n s) := by
  unfold cancelFlash
  with_reducible repeat' first
    | assumption | intro _ | apply setCmd_kept | apply finishFlash_kept | apply unfreeze_kept | refine ite_kept _ _ ?_ ?_
    | split | dsimp only

@[simp] theorem bringUpBlank_mem (badMarks : List Nat) (s : State) : (bringUpBlank badMarks s).mem = s.mem := by
  unfold bringUpBlank
  with_reducible repeat' first
    | rfl | intro _ | simp only [setBlock_mem, setJournal_mem]
    | refine (foldl_mem _ (fun _ _ => ?_) _ _).trans ?_ | split | dsimp only

theorem bringUpBlank_kept {o : State} (badMarks : List Nat) (s : State) (hmem : Kept o s) : Kept o (bringUpBlank badMarks s) :=
    by
  unfold bringUpBlank
  with_reducible repeat' first
    | assumption | intro _ | apply setBlock_kept | apply setJournal_kept | refine foldl_kept _ (fun _ _ _ => ?_) _ _ ?_
    | simp only [kept_mk] | split | dsimp only

theorem replayJournals_kept {o : State} (s : State) (hmem : Kept o s) : Kept o (replayJournals s) := by
  unfold replayJournals
  with_reducible repeat' first
    | assumption | intro _ | apply State.spend_kept | apply setBlock_kept | apply setLun_kept | apply queueRec_kept
    | apply pump_kept | refine foldl_kept _ (fun _ _ _ => ?_) _ _ ?_ | simp only [kept_mk] | split | dsimp only

@[simp] theorem setGeometry_mem (rep : FlashReport) (s : State) : (setGeometry rep s).mem = s.mem := by
  unfold setGeometry
  with_reducible repeat' first | rfl | intro _ | simp only [apply_ite State.mem, ite_self] | split | dsimp only

theorem setGeometry_kept {o : State} (rep : FlashReport) (s : State) (hmem : Kept o s) : Kept o (setGeometry rep s) := by
  unfold setGeometry
  with_reducible repeat' first | assumption | intro _ | simp only [kept_mk] | split | dsimp only

@[simp] theorem blockSelect_mem (v : Word) (s : State) : (blockSelect v s).mem = s.mem := by
  unfold blockSelect
  with_reducible repeat' first | rfl | intro _ | simp only [apply_ite State.mem, ite_self] | split | dsimp only

theorem blockSelect_kept {o : State} (v : Word) (s : State) (hmem : Kept o s) : Kept o (blockSelect v s) := by
  unfold blockSelect
  with_reducible repeat' first | assumption | intro _ | simp only [kept_mk] | split | dsimp only

end Sys2Proof.Machine
end

