-- ==== Sys2Proof/Laws/KeptIngest.lean ====
section
/-! SUPPORT. Every function of Machine.Ingest keeps what `Kept` promises; where it touches no memory a second law says so. -/

namespace Sys2Proof.Machine
open Sys2Proof Numeric

@[simp] theorem pinBlock_mem (b : Nat) (s : State) : (pinBlock b s).mem = s.mem := by
  unfold pinBlock
  with_reducible repeat' first | rfl | intro _ | simp only [setBlock_mem, apply_ite State.mem, ite_self] | split | dsimp only

theorem pinBlock_kept {o : State} (b : Nat) (s : State) (hmem : Kept o s) : Kept o (pinBlock b s) := by
  unfold pinBlock
  with_reducible repeat' first
    | assumption | intro _ | apply setBlock_kept | refine ite_kept _ _ ?_ ?_ | simp only [kept_mk] | split | dsimp only

@[simp] theorem unpinBlock_mem (b : Nat) (s : State) : (unpinBlock b s).mem = s.mem := by
  unfold unpinBlock
  with_reducible repeat' first | rfl | intro _ | simp only [setBlock_mem] | split | dsimp only

theorem unpinBlock_kept {o : State} (b : Nat) (s : State) (hmem : Kept o s) : Kept o (unpinBlock b s) := by
  unfold unpinBlock
  with_reducible repeat' first | assumption | intro _ | apply setBlock_kept | simp only [kept_mk] | split | dsimp only

theorem queuePages_kept {o : State} (n shard : Nat) (loc : DWord) (len : Nat) (s : State) (hmem : Kept o s) : Kept o (queuePages
    n shard loc len s) := by
  unfold queuePages
  with_reducible repeat' first
    | assumption | intro _ | apply setLun_kept | apply setIngest_kept | apply pump_kept | refine ite_kept _ _ ?_ ?_
    | simp only [kept_mk] | split | dsimp only

theorem beginFetch_kept {o : State} (n shard : Nat) (src : ShardSrc) (waiters : List Sub) (s : State) (hmem : Kept o s) : Kept o
    (beginFetch n shard src waiters s) := by
  unfold beginFetch
  with_reducible repeat' first
    | assumption | intro _ | apply setIngest_kept | apply queuePages_kept | refine ite_kept _ _ ?_ ?_
    | split | dsimp only

theorem startShards_kept {o : State} (n fuel : Nat) (s : State) (hmem : Kept o s) : Kept o (startShards n fuel s) := by
  induction fuel generalizing s with
  | zero => exact hmem
  | succ fuel ih =>
    unfold startShards
    with_reducible repeat' first | assumption | apply ih | apply beginFetch_kept | apply setIngest_kept | split | dsimp only

@[simp] theorem settleIngest_mem (n : Nat) (s : State) : (settleIngest n s).mem = s.mem := by
  unfold settleIngest
  with_reducible repeat' first
    | rfl | intro _ | simp only [markLong_mem, settleLong_mem, setIngest_mem, apply_ite State.mem, ite_self] | split
    | dsimp only

theorem settleIngest_kept {o : State} (n : Nat) (s : State) (hmem : Kept o s) : Kept o (settleIngest n s) := by
  unfold settleIngest
  with_reducible repeat' first
    | assumption | intro _ | apply markLong_kept | apply settleLong_kept | apply setIngest_kept | refine ite_kept _ _ ?_ ?_
    | simp only [kept_mk] | split | dsimp only

@[simp] theorem endShard_mem (n shard : Nat) (st : BitVec 16) (s : State) : (endShard n shard st s).mem = s.mem := by
  unfold endShard
  with_reducible repeat' first
    | rfl | intro _ | simp only [endWith_mem, setIngest_mem]
    | refine (foldl_mem _ (fun _ _ => ?_) _ _).trans ?_ | split | dsimp only

theorem endShard_kept {o : State} (n shard : Nat) (st : BitVec 16) (s : State) (hmem : Kept o s) : Kept o (endShard n shard st
    s) := by
  unfold endShard
  with_reducible repeat' first
    | assumption | intro _ | apply endWith_kept | apply setIngest_kept | refine foldl_kept _ (fun _ _ _ => ?_) _ _ ?_
    | split | dsimp only

@[simp] theorem setWindow_mem (f w : Nat) (g : Window → Window) (s : State) : (setWindow f w g s).mem = s.mem := by
  unfold setWindow
  with_reducible repeat' first | rfl | intro _ | simp only [setFunc_mem] | split | dsimp only

theorem setWindow_kept {o : State} (f w : Nat) (g : Window → Window) (s : State) (hmem : Kept o s) : Kept o (setWindow f w g s)
    := by
  unfold setWindow
  with_reducible repeat' first | assumption | intro _ | apply setFunc_kept | simp only [kept_mk] | split | dsimp only

@[simp] theorem openWindow_mem (sub : Sub) (w : Nat) (stg : Byte) (offset : Word) (s : State) : (openWindow sub w stg offset
    s).mem = s.mem := by
  unfold openWindow
  with_reducible repeat' first
    | rfl | intro _ | simp only [reply_mem, endWith_mem, setWindow_mem, apply_ite State.mem, ite_self] | split | dsimp only

theorem openWindow_kept {o : State} (sub : Sub) (w : Nat) (stg : Byte) (offset : Word) (s : State) (hmem : Kept o s) : Kept o
    (openWindow sub w stg offset s) := by
  unfold openWindow
  with_reducible repeat' first
    | assumption | intro _ | apply reply_kept | apply endWith_kept | apply setWindow_kept | refine ite_kept _ _ ?_ ?_
    | simp only [kept_mk] | split | dsimp only

@[simp] theorem closeWindow_mem (f w : Nat) (s : State) : (closeWindow f w s).mem = s.mem := by
  unfold closeWindow
  with_reducible repeat' first | rfl | intro _ | simp only [setWindow_mem, apply_ite State.mem, ite_self] | split | dsimp only

theorem closeWindow_kept {o : State} (f w : Nat) (s : State) (hmem : Kept o s) : Kept o (closeWindow f w s) := by
  unfold closeWindow
  with_reducible repeat' first
    | assumption | intro _ | apply setWindow_kept | refine ite_kept _ _ ?_ ?_ | simp only [kept_mk] | split | dsimp only

@[simp] theorem endReading_mem (f w : Nat) (s : State) : (endReading f w s).mem = s.mem := by
  unfold endReading
  with_reducible repeat' first
    | rfl | intro _ | simp only [setWindow_mem, openWindow_mem, apply_ite State.mem]
    | refine (foldl_mem _ (fun _ _ => ?_) _ _).trans ?_ | split | dsimp only

theorem endReading_kept {o : State} (f w : Nat) (s : State) (hmem : Kept o s) : Kept o (endReading f w s) := by
  unfold endReading
  with_reducible repeat' first
    | assumption | intro _ | apply setWindow_kept | apply openWindow_kept | refine foldl_kept _ (fun _ _ _ => ?_) _ _ ?_
    | refine ite_kept _ _ ?_ ?_ | simp only [kept_mk] | split | dsimp only

@[simp] theorem endShardWindow_mem (n shard : Nat) (s : State) : (endShardWindow n shard s).mem = s.mem := by
  unfold endShardWindow
  with_reducible repeat' first
    | rfl | intro _ | simp only [endReading_mem] | split | dsimp only

theorem endShardWindow_kept {o : State} (n shard : Nat) (s : State) (hmem : Kept o s) : Kept o (endShardWindow n shard s) := by
  unfold endShardWindow
  with_reducible repeat' first | assumption | intro _ | apply endReading_kept | split | dsimp only

@[simp] theorem clearIngest_mem (n : Nat) (s : State) : (clearIngest n s).mem = s.mem := by
  unfold clearIngest
  with_reducible repeat' first
    | rfl | intro _ | simp only [setSlot_mem, unpinBlock_mem, endShard_mem, endShardWindow_mem, apply_ite State.mem, ite_self]
    | refine (foldl_mem _ (fun _ _ => ?_) _ _).trans ?_ | split | dsimp only

theorem clearIngest_kept {o : State} (n : Nat) (s : State) (hmem : Kept o s) : Kept o (clearIngest n s) := by
  unfold clearIngest
  with_reducible repeat' first
    | assumption | intro _ | apply setSlot_kept | apply unpinBlock_kept | apply endShard_kept | apply endShardWindow_kept
    | refine foldl_kept _ (fun _ _ _ => ?_) _ _ ?_ | refine ite_kept _ _ ?_ ?_ | simp only [kept_mk] | split | dsimp only

@[simp] theorem failIngest_mem (n : Nat) (s : State) : (failIngest n s).mem = s.mem := by
  unfold failIngest
  with_reducible repeat' first
    | rfl | intro _ | simp only [setVersion_mem, clearIngest_mem] | split | dsimp only

theorem failIngest_kept {o : State} (n : Nat) (s : State) (hmem : Kept o s) : Kept o (failIngest n s) := by
  unfold failIngest
  with_reducible repeat' first
    | assumption | intro _ | apply setVersion_kept | apply clearIngest_kept | simp only [kept_mk] | split | dsimp only

@[simp] theorem cancelIngest_mem (n : Nat) (s : State) : (cancelIngest n s).mem = s.mem := by
  unfold cancelIngest
  with_reducible repeat' first
    | rfl | intro _ | simp only [finishLong_mem, failIngest_mem] | split | dsimp only

theorem cancelIngest_kept {o : State} (n : Nat) (s : State) (hmem : Kept o s) : Kept o (cancelIngest n s) := by
  unfold cancelIngest
  with_reducible repeat' first | assumption | intro _ | apply finishLong_kept | apply failIngest_kept | split | dsimp only

@[simp] theorem suspendIngest_mem (n : Nat) (s : State) : (suspendIngest n s).mem = s.mem := by
  unfold suspendIngest
  with_reducible repeat' first
    | rfl | intro _ | simp only [setIngest_mem, settleIngest_mem] | split | dsimp only

theorem suspendIngest_kept {o : State} (n : Nat) (s : State) (hmem : Kept o s) : Kept o (suspendIngest n s) := by
  unfold suspendIngest
  with_reducible repeat' first
    | assumption | intro _ | apply setIngest_kept | apply settleIngest_kept | simp only [kept_mk] | split | dsimp only

theorem resumeIngest_kept {o : State} (n : Nat) (s : State) (hmem : Kept o s) : Kept o (resumeIngest n s) := by
  unfold resumeIngest
  with_reducible repeat' first
    | assumption | intro _ | apply markLong_kept | apply settleLong_kept | apply setIngest_kept | apply startShards_kept
    | refine ite_kept _ _ ?_ ?_ | simp only [kept_mk] | split | dsimp only

theorem startIngest_kept {o : State} (sub : Sub) (req : IngestReq) (m : Manifest) (key : Bytes) (e : Nat) (s : State) (hmem :
    Kept o s) : Kept o (startIngest sub req m key e s) := by
  unfold startIngest
  with_reducible repeat' first
    | assumption | intro _ | apply addLong_kept | apply setVersion_kept | apply pinBlock_kept | apply startShards_kept
    | refine foldl_kept _ (fun _ _ _ => ?_) _ _ ?_ | refine ite_kept _ _ ?_ ?_ | simp only [kept_mk] | split | dsimp only

@[simp] theorem joinShard_mem (n shard : Nat) (sub : Sub) (s : State) : (joinShard n shard sub s).mem = s.mem := by
  unfold joinShard
  with_reducible repeat' first | rfl | intro _ | simp only [setIngest_mem] | split | dsimp only

theorem joinShard_kept {o : State} (n shard : Nat) (sub : Sub) (s : State) (hmem : Kept o s) : Kept o (joinShard n shard sub s)
    := by
  unfold joinShard
  with_reducible repeat' first
    | assumption | intro _ | apply setIngest_kept | refine ite_kept _ _ ?_ ?_ | simp only [kept_mk] | split | dsimp only

theorem failShard_kept {o : State} (n shard cause : Nat) (s : State) (hmem : Kept o s) : Kept o (failShard n shard cause s) :=
    by
  unfold failShard
  with_reducible repeat' first
    | assumption | intro _ | apply postEvent_kept | apply setIngest_kept | apply startShards_kept | apply settleIngest_kept
    | apply endShard_kept | apply endShardWindow_kept | simp only [kept_mk] | split | dsimp only

theorem writeRawHeaders_kept {o : State} (s : State) (r : RegionEntry) (shard blocks : Nat) (hmem : Kept o s) : Kept o
    (writeRawHeaders s r shard blocks) := by
  unfold writeRawHeaders
  with_reducible repeat' first | assumption | intro _ | apply writeLines_kept | split | dsimp only

@[simp] theorem beginBuild_mem (n : Nat) (s : State) : (beginBuild n s).mem = s.mem := by
  unfold beginBuild
  with_reducible repeat' first
    | rfl | intro _ | simp only [setSlot_mem, setIngest_mem, apply_ite State.mem] | split | dsimp only

theorem beginBuild_kept {o : State} (n : Nat) (s : State) (hmem : Kept o s) : Kept o (beginBuild n s) := by
  unfold beginBuild
  with_reducible repeat' first
    | assumption | intro _ | apply setSlot_kept | apply setIngest_kept | refine ite_kept _ _ ?_ ?_ | simp only [kept_mk]
    | split | dsimp only

theorem codeBlock_kept {o : State} (e table : Nat) (rec : Bytes) (s : State) (a : Nat) (hmem : Kept o s) : Kept o (codeBlock e
    table rec s a) := by
  unfold codeBlock
  with_reducible repeat' first
    | assumption | intro _ | apply writeLines_kept | apply patchDram_kept | refine ite_kept _ _ ?_ ?_
    | split | dsimp only

theorem buildTable_kept {o : State} (e tablesAt table : Nat) (blocks : List Nat) (s : State) (hmem : Kept o s) : Kept o
    (buildTable e tablesAt table blocks s) := by
  unfold buildTable
  with_reducible repeat' first
    | assumption | intro _ | apply writeLines_kept | apply codeBlock_kept | refine foldl_kept _ (fun _ _ _ => ?_) _ _ ?_
    | refine ite_kept _ _ ?_ ?_ | split | dsimp only

theorem runBuild_kept {o : State} (i : Ingest) (s : State) (hmem : Kept o s) : Kept o (runBuild i s) := by
  unfold runBuild
  with_reducible repeat' first
    | assumption | intro _ | apply State.spend_kept | apply setVersion_kept | apply buildTable_kept
    | refine foldl_kept _ (fun _ _ _ => ?_) _ _ ?_ | simp only [kept_mk] | split | dsimp only

@[simp] theorem dropWrite_mem (f w : Nat) (s : State) : (dropWrite f w s).mem = s.mem := by
  unfold dropWrite
  with_reducible repeat' first
    | rfl | intro _ | simp only [postEvent_mem, setWindow_mem, apply_ite State.mem, ite_self] | split | dsimp only

theorem dropWrite_kept {o : State} (f w : Nat) (s : State) (hmem : Kept o s) : Kept o (dropWrite f w s) := by
  unfold dropWrite
  with_reducible repeat' first
    | assumption | intro _ | apply postEvent_kept | apply setWindow_kept | refine ite_kept _ _ ?_ ?_ | simp only [kept_mk]
    | split | dsimp only

end Sys2Proof.Machine
end

