-- ==== Sys2Proof/Laws/KeptModels.lean ====
section
/-! SUPPORT. Every function of Machine.Models keeps what `Kept` promises; where it touches no memory a second law says so. -/

namespace Sys2Proof.Machine
open Sys2Proof Numeric

@[simp] theorem queueRun_mem (sub : Sub) (req : RunReq) (cs : List Nat) (s : State) : (queueRun sub req cs s).mem = s.mem := by
  unfold queueRun
  with_reducible repeat' first
    | rfl | intro _ | simp only [State.spend_mem, addLong_mem, addJob_mem, apply_ite State.mem, ite_self] | split | dsimp only

theorem queueRun_kept {o : State} (sub : Sub) (req : RunReq) (cs : List Nat) (s : State) (hmem : Kept o s) : Kept o (queueRun
    sub req cs s) := by
  unfold queueRun
  with_reducible repeat' first
    | assumption | intro _ | apply State.spend_kept | apply addLong_kept | apply addJob_kept | refine ite_kept _ _ ?_ ?_
    | simp only [kept_mk] | split | dsimp only

end Sys2Proof.Machine
end

