-- ==== Sys2Proof/Laws/KeptRecur.lean ====
section
/-! SUPPORT. Every function of Machine.Recur keeps what `Kept` promises; where it touches no memory a second law says so. -/

namespace Sys2Proof.Machine
open Sys2Proof Numeric

theorem copySram_kept {o : State} (n : Nat) (src dst : Nat → Nat) (s : State) (hmem : Kept o s) : Kept o (copySram n src dst s)
    := by
  unfold copySram
  with_reducible repeat' first
    | assumption | intro _ | apply writeSram_kept | refine foldl_kept _ (fun _ _ _ => ?_) _ _ ?_ | split | dsimp only

theorem gatherState_kept {old : State} (o : OpInst) (i c : Nat) (s : State) (hmem : Kept old s) : Kept old (gatherState o i c s)
    := by
  unfold gatherState
  with_reducible repeat' first
    | assumption | intro _ | apply setCtx_kept | apply zeroUnits_kept | apply copySram_kept | refine ite_kept _ _ ?_ ?_
    | simp only [kept_mk] | split | dsimp only

theorem gatherFrames_kept {old : State} (o : OpInst) (c : Nat) (rows : List Bytes) (s : State) (hmem : Kept old s) : Kept old
    (gatherFrames o c rows s) := by
  unfold gatherFrames
  with_reducible repeat' first
    | assumption | intro _ | apply writeSram_kept | refine foldl_kept _ (fun _ _ _ => ?_) _ _ ?_ | split | dsimp only

theorem takeMember_kept {old : State} (o : OpInst) (s : State) (x : (Nat × ReadyChunk) × Nat) (hmem : Kept old s) : Kept old
    (takeMember o s x) := by
  unfold takeMember
  with_reducible repeat' first
    | assumption | intro _ | apply setCtx_kept | apply gatherState_kept | apply gatherFrames_kept | refine ite_kept _ _ ?_ ?_
    | simp only [kept_mk] | split | dsimp only

theorem startChunkJob_kept {o : State} (i : Nat) (s : State) (hmem : Kept o s) : Kept o (startChunkJob i s) := by
  unfold startChunkJob
  with_reducible repeat' first
    | assumption | intro _ | apply addJob_kept | apply advanceClass_kept | apply startStream_kept | apply startOn_kept
    | apply takeMember_kept | refine foldl_kept _ (fun _ _ _ => ?_) _ _ ?_ | refine ite_kept _ _ ?_ ?_ | simp only [kept_mk]
    | split | dsimp only

@[simp] theorem writeRecord_mem (o : OpInst) (m : Member) (discarded : Bool) (deg : Nat) (s : State) : (writeRecord o m
    discarded deg s).mem = s.mem := by
  unfold writeRecord
  with_reducible repeat' first | rfl | intro _ | simp only [setCtx_mem] | split | dsimp only

theorem writeRecord_kept {old : State} (o : OpInst) (m : Member) (discarded : Bool) (deg : Nat) (s : State) (hmem : Kept old s)
    : Kept old (writeRecord o m discarded deg s) := by
  unfold writeRecord
  with_reducible repeat' first
    | assumption | intro _ | apply setCtx_kept | refine ite_kept _ _ ?_ ?_ | simp only [kept_mk] | split | dsimp only

@[simp] theorem releaseChunk_mem (m : Member) (s : State) : (releaseChunk m s).mem = s.mem := by
  unfold releaseChunk
  with_reducible repeat' first
    | rfl | intro _ | simp only [setCtx_mem, releaseFrames_mem, apply_ite State.mem, ite_self] | split | dsimp only

theorem releaseChunk_kept {o : State} (m : Member) (s : State) (hmem : Kept o s) : Kept o (releaseChunk m s) := by
  unfold releaseChunk
  with_reducible repeat' first
    | assumption | intro _ | apply setCtx_kept | apply releaseFrames_kept | refine ite_kept _ _ ?_ ?_ | simp only [kept_mk]
    | split | dsimp only

theorem settleCtx_kept {o : State} (c : Nat) (s : State) (hmem : Kept o s) : Kept o (settleCtx c s) := by
  unfold settleCtx
  with_reducible repeat' first
    | assumption | intro _ | apply setCtx_kept | apply zeroUnits_kept | apply evalNeeds_kept | apply settleSwap_kept
    | apply makeReady_kept | refine ite_kept _ _ ?_ ?_ | simp only [kept_mk] | split | dsimp only

@[simp] theorem passOn_mem (m : Member) (s : State) : (passOn m s).mem = s.mem := by
  unfold passOn
  with_reducible repeat' first | rfl | intro _ | simp only [setCtx_mem, apply_ite State.mem, ite_self] | split | dsimp only

theorem passOn_kept {o : State} (m : Member) (s : State) (hmem : Kept o s) : Kept o (passOn m s) := by
  unfold passOn
  with_reducible repeat' first
    | assumption | intro _ | apply setCtx_kept | refine ite_kept _ _ ?_ ?_ | simp only [kept_mk] | split | dsimp only

theorem failChunkJob_kept {old : State} (n : Nat) (o : OpInst) (ms : List Member) (s : State) (hmem : Kept old s) : Kept old
    (failChunkJob n o ms s) := by
  unfold failChunkJob
  with_reducible repeat' first
    | assumption | intro _ | apply retireJob_kept | apply resetMark_kept | apply endStreams_kept | apply writeRecord_kept
    | apply releaseChunk_kept | apply settleCtx_kept | refine foldl_kept _ (fun _ _ _ => ?_) _ _ ?_ | split | dsimp only

theorem regather_kept {old : State} (o : OpInst) (ms : List Member) (s : State) (hmem : Kept old s) : Kept old (regather o ms s)
    := by
  unfold regather
  with_reducible repeat' first
    | assumption | intro _ | apply copySram_kept | apply gatherFrames_kept | refine foldl_kept _ (fun _ _ _ => ?_) _ _ ?_
    | refine ite_kept _ _ ?_ ?_ | split | dsimp only

theorem ownContext_kept {o : State} (sub : Sub) (ctx : Byte) (f : Nat → State → State) (s : State)
    (hf : ∀ c s, Kept o s → Kept o (f c s)) (hmem : Kept o s) : Kept o (ownContext sub ctx f s) := by
  unfold ownContext
  split
  · exact endWith_kept _ _ _ hmem
  · split
    · exact endWith_kept _ _ _ hmem
    · exact hf _ _ hmem

theorem openContext_kept {o : State} (sub : Sub) (ctx : Byte) (f : Nat → State → State) (s : State)
    (hf : ∀ c s, Kept o s → Kept o (f c s)) (hmem : Kept o s) : Kept o (openContext sub ctx f s) := by
  unfold openContext
  refine ownContext_kept _ _ _ _ (fun c s h => ?_) hmem
  split
  · exact hf _ _ h
  · exact endWith_kept _ _ _ h

@[simp] theorem ctxSelWrite_mem (v : Word) (s : State) : (ctxSelWrite v s).mem = s.mem := by
  unfold ctxSelWrite
  with_reducible repeat' first | rfl | intro _ | simp only [apply_ite State.mem, ite_self] | split | dsimp only

theorem ctxSelWrite_kept {o : State} (v : Word) (s : State) (hmem : Kept o s) : Kept o (ctxSelWrite v s) := by
  unfold ctxSelWrite
  with_reducible repeat' first | assumption | intro _ | refine ite_kept _ _ ?_ ?_ | simp only [kept_mk] | split | dsimp only

end Sys2Proof.Machine
end

