-- ==== Sys2Proof/Laws/KeptPasses.lean ====
section
/-! SUPPORT. Every function of Machine.Passes keeps what `Kept` promises; where it touches no memory a second law says so. -/

namespace Sys2Proof.Machine
open Sys2Proof Numeric

@[simp] theorem startPassStreams_mem (n h budget : Nat) (seqs : List PassSeq) (s : State) : (startPassStreams n h budget seqs
    s).mem = s.mem := by
  unfold startPassStreams
  with_reducible repeat' first
    | rfl | intro _ | simp only [startStream_mem, startImageStream_mem]
    | refine (foldl_mem _ (fun _ _ => ?_) _ _).trans ?_ | split | dsimp only

theorem startPassStreams_kept {o : State} (n h budget : Nat) (seqs : List PassSeq) (s : State) (hmem : Kept o s) : Kept o
    (startPassStreams n h budget seqs s) := by
  unfold startPassStreams
  with_reducible repeat' first
    | assumption | intro _ | apply startStream_kept | apply startImageStream_kept
    | refine foldl_kept _ (fun _ _ _ => ?_) _ _ ?_ | split | dsimp only

@[simp] theorem startPass_mem (h : Nat) (s : State) : (startPass h s).mem = s.mem := by
  unfold startPass
  with_reducible repeat' first
    | rfl | intro _
    | simp only [addJob_mem, advanceClass_mem, startOn_mem, startPassStreams_mem, apply_ite State.mem, ite_self] | split
    | dsimp only

theorem startPass_kept {o : State} (h : Nat) (s : State) (hmem : Kept o s) : Kept o (startPass h s) := by
  unfold startPass
  with_reducible repeat' first
    | assumption | intro _ | apply addJob_kept | apply advanceClass_kept | apply startOn_kept | apply startPassStreams_kept
    | refine ite_kept _ _ ?_ ?_ | split | dsimp only

@[simp] theorem endWaiting_mem (n : Nat) (st : BitVec 16) (s : State) : (endWaiting n st s).mem = s.mem := by
  unfold endWaiting
  with_reducible repeat' first
    | rfl | intro _ | simp only [setJob_mem, finishHostJob_mem] | split | dsimp only

theorem endWaiting_kept {o : State} (n : Nat) (st : BitVec 16) (s : State) (hmem : Kept o s) : Kept o (endWaiting n st s) := by
  unfold endWaiting
  with_reducible repeat' first
    | assumption | intro _ | apply setJob_kept | apply finishHostJob_kept | simp only [kept_mk] | split | dsimp only

theorem startWaiting_kept {o : State} (n : Nat) (s : State) (hmem : Kept o s) : Kept o (startWaiting n s) := by
  unfold startWaiting
  with_reducible repeat' first
    | assumption | intro _ | apply advanceClass_kept | apply startStream_kept | apply startOn_kept | apply regather_kept
    | apply startPassStreams_kept | apply endWaiting_kept | refine ite_kept _ _ ?_ ?_ | split
    | dsimp only

theorem restoreRun_kept {o : State} (c : Nat) (s : State) (hmem : Kept o s) : Kept o (restoreRun c s) := by
  unfold restoreRun
  with_reducible repeat' first
    | assumption | intro _ | apply updCore_kept | refine setMems_kept _ _ ?_ ?_
    | exact Kept.wf (by assumption) (by assumption) | apply Memory.wf_wrProg | refine Kept.wf ?_ ?_
    | split | dsimp only

theorem resumeJob_kept {o : State} (n : Nat) (s : State) (hmem : Kept o s) : Kept o (resumeJob n s) := by
  unfold resumeJob
  with_reducible repeat' first
    | assumption | intro _ | apply markLong_kept | apply settleLong_kept | apply setJob_kept | apply restoreRun_kept
    | refine foldl_kept _ (fun _ _ _ => ?_) _ _ ?_ | refine ite_kept _ _ ?_ ?_ | simp only [kept_mk] | split | dsimp only

theorem commitTokens_kept {o : State} (n : Nat) (toks : List (Word × Bool)) (s : State) (hmem : Kept o s) : Kept o (commitTokens
    n toks s) := by
  unfold commitTokens
  with_reducible repeat' first
    | assumption | intro _ | apply postEvent_kept | apply setReq_kept | refine ite_kept _ _ ?_ ?_
    | refine setMems_kept _ _ ?_ ?_ | exact Kept.wf (by assumption) (by assumption) | apply Memory.wf_wrHost
    | refine Kept.wf ?_ ?_ | simp only [kept_mk] | split | dsimp only

@[simp] theorem setSeq_mem (a : SeqAt) (q : Sequence) (s : State) : (setSeq a q s).mem = s.mem := by
  unfold setSeq
  with_reducible repeat' first | rfl | intro _ | simp only [setReq_mem] | split | dsimp only

theorem setSeq_kept {o : State} (a : SeqAt) (q : Sequence) (s : State) (hmem : Kept o s) : Kept o (setSeq a q s) := by
  unfold setSeq
  with_reducible repeat' first
    | assumption | intro _ | apply setReq_kept | refine ite_kept _ _ ?_ ?_ | simp only [kept_mk] | split | dsimp only

theorem appendRows_kept {o : State} (a : SeqAt) (row0 rows : Nat) (s : State) (hmem : Kept o s) : Kept o (appendRows a row0 rows
    s) := by
  have key : Kept o ((List.range rows).foldl (fun acc i =>
      appendOne a.t a.nkv a.n ((seqOf s a).lkv + (seqOf s a).prov + i) (appendRow s a.t 0 a.nkv (row0 + i) a.g) a.g acc)
      (seqOf s a, s, 0)).2.1 :=
    foldl_keeps (fun (x : Sequence × State × Nat) => Kept o x.2.1) _ (fun _ _ h => appendOne_kept _ _ _ _ _ _ _ h) _ _ hmem
  unfold appendRows
  repeat' first
    | with_reducible exact key
    | with_reducible apply setReq_kept
    | with_reducible apply setSeq_kept
    | with_reducible refine ite_kept _ _ ?_ ?_
    | simp only [kept_mk]
    | dsimp only

theorem commitTo_kept {o : State} (a : SeqAt) (len held : Nat) (s : State) (hmem : Kept o s) : Kept o (commitTo a len held s) :=
    by
  unfold commitTo
  with_reducible repeat' first | assumption | intro _ | apply commitSeq_kept | apply setSeq_kept | split | dsimp only

theorem keepQuery_kept {o : State} (a : SeqAt) (row : Nat) (s : State) (hmem : Kept o s) : Kept o (keepQuery a row s) := by
  unfold keepQuery
  with_reducible repeat' first | assumption | intro _ | apply storeQuery_kept | refine ite_kept _ _ ?_ ?_ | split | dsimp only

@[simp] theorem leavePrefill_mem (n : Nat) (s : State) : (leavePrefill n s).mem = s.mem := by
  unfold leavePrefill
  with_reducible repeat' first | rfl | intro _ | simp only [setReq_mem] | split | dsimp only

theorem leavePrefill_kept {o : State} (n : Nat) (s : State) (hmem : Kept o s) : Kept o (leavePrefill n s) := by
  unfold leavePrefill
  with_reducible repeat' first
    | assumption | intro _ | apply setReq_kept | refine ite_kept _ _ ?_ ?_ | simp only [kept_mk] | split | dsimp only

theorem resolvePrefill_kept {o : State} (a : SeqAt) (row0 rows : Nat) (s : State) (hmem : Kept o s) : Kept o (resolvePrefill a
    row0 rows s) := by
  unfold resolvePrefill
  with_reducible repeat' first
    | assumption | intro _ | apply commitTokens_kept | apply commitTo_kept | apply keepQuery_kept | apply leavePrefill_kept
    | refine ite_kept _ _ ?_ ?_ | split | dsimp only

theorem resolveDecode_kept {o : State} (a : SeqAt) (row0 : Nat) (s : State) (hmem : Kept o s) : Kept o (resolveDecode a row0 s)
    := by
  unfold resolveDecode
  with_reducible repeat' first
    | assumption | intro _ | apply commitTokens_kept | apply commitTo_kept | apply keepQuery_kept | split | dsimp only

theorem resolveDraft_kept {o : State} (a : SeqAt) (row0 rows i : Nat) (s : State) (hmem : Kept o s) : Kept o (resolveDraft a
    row0 rows i s) := by
  unfold resolveDraft
  with_reducible repeat' first
    | assumption | intro _ | apply setReq_kept | apply commitTo_kept | apply keepQuery_kept | refine ite_kept _ _ ?_ ?_
    | simp only [kept_mk] | split | dsimp only

@[simp] theorem suspendSpeculation_mem (n : Nat) (s : State) : (suspendSpeculation n s).mem = s.mem := by
  unfold suspendSpeculation
  with_reducible repeat' first
    | rfl | intro _ | simp only [dropRefs_mem, setReq_mem, apply_ite State.mem, ite_self] | split | dsimp only

theorem suspendSpeculation_kept {o : State} (n : Nat) (s : State) (hmem : Kept o s) : Kept o (suspendSpeculation n s) := by
  unfold suspendSpeculation
  with_reducible repeat' first
    | assumption | intro _ | apply dropRefs_kept | apply setReq_kept | refine ite_kept _ _ ?_ ?_ | simp only [kept_mk] | split
    | dsimp only

theorem resolveVerify_kept {o : State} (a : SeqAt) (row0 rows : Nat) (degraded : Bool) (s : State) (hmem : Kept o s) : Kept o
    (resolveVerify a row0 rows degraded s) := by
  unfold resolveVerify
  with_reducible repeat' first
    | assumption | intro _ | apply setReq_kept | apply commitTokens_kept | apply commitTo_kept | apply keepQuery_kept
    | apply suspendSpeculation_kept | refine ite_kept _ _ ?_ ?_ | simp only [kept_mk] | split | dsimp only

@[simp] theorem settleRequest_mem (n : Nat) (s : State) : (settleRequest n s).mem = s.mem := by
  unfold settleRequest
  with_reducible repeat' first
    | rfl | intro _ | simp only [markLong_mem, settleLong_mem, setReq_mem, apply_ite State.mem, ite_self] | split | dsimp only

theorem settleRequest_kept {o : State} (n : Nat) (s : State) (hmem : Kept o s) : Kept o (settleRequest n s) := by
  unfold settleRequest
  with_reducible repeat' first
    | assumption | intro _ | apply markLong_kept | apply settleLong_kept | apply setReq_kept | refine ite_kept _ _ ?_ ?_
    | simp only [kept_mk] | split | dsimp only

theorem resolveSeq_kept {o : State} (degraded : Bool) (seqs : List PassSeq) (s : State) (i : Nat) (hmem : Kept o s) : Kept o
    (resolveSeq degraded seqs s i) := by
  unfold resolveSeq
  with_reducible repeat' first
    | assumption | intro _ | apply setReq_kept | apply appendRows_kept | apply resolvePrefill_kept | apply resolveDecode_kept
    | apply resolveDraft_kept | apply resolveVerify_kept | refine ite_kept _ _ ?_ ?_ | split
    | dsimp only

@[simp] theorem recordStep_mem (h d : Nat) (s : State) : (recordStep h d s).mem = s.mem := by
  unfold recordStep
  with_reducible repeat' first
    | rfl | intro _ | simp only [setVersion_mem] | split | dsimp only

theorem recordStep_kept {o : State} (h d : Nat) (s : State) (hmem : Kept o s) : Kept o (recordStep h d s) := by
  unfold recordStep
  with_reducible repeat' first | assumption | intro _ | apply setVersion_kept | simp only [kept_mk] | split | dsimp only

@[simp] theorem retirePass_mem (n : Nat) (s : State) : (retirePass n s).mem = s.mem := by
  unfold retirePass
  with_reducible repeat' first
    | rfl | intro _ | simp only [retireJob_mem, endStreams_mem] | split | dsimp only

theorem retirePass_kept {o : State} (n : Nat) (s : State) (hmem : Kept o s) : Kept o (retirePass n s) := by
  unfold retirePass
  with_reducible repeat' first | assumption | intro _ | apply retireJob_kept | apply endStreams_kept | split | dsimp only

@[simp] theorem failPass_mem (n : Nat) (seqs : List PassSeq) (st : BitVec 16) (s : State) : (failPass n seqs st s).mem = s.mem
    := by
  unfold failPass
  with_reducible repeat' first
    | rfl | intro _ | simp only [setReq_mem, retirePass_mem]
    | refine (foldl_mem _ (fun _ _ => ?_) _ _).trans ?_ | split | dsimp only

theorem failPass_kept {o : State} (n : Nat) (seqs : List PassSeq) (st : BitVec 16) (s : State) (hmem : Kept o s) : Kept o
    (failPass n seqs st s) := by
  unfold failPass
  with_reducible repeat' first
    | assumption | intro _ | apply setReq_kept | apply retirePass_kept | refine foldl_kept _ (fun _ _ _ => ?_) _ _ ?_
    | refine ite_kept _ _ ?_ ?_ | simp only [kept_mk] | split | dsimp only

theorem completePass_kept {o : State} (n h : Nat) (seqs : List PassSeq) (s : State) (hmem : Kept o s) : Kept o (completePass n h
    seqs s) := by
  unfold completePass
  with_reducible repeat' first
    | assumption | intro _ | apply State.spend_kept | apply setJob_kept | apply endStreams_kept | apply settleRequest_kept
    | apply resolveSeq_kept | apply recordStep_kept | apply retirePass_kept | apply failPass_kept
    | refine foldl_kept _ (fun _ _ _ => ?_) _ _ ?_ | refine ite_kept _ _ ?_ ?_ | simp only [kept_mk] | split | dsimp only

@[simp] theorem endRequest_mem (n : Nat) (s : State) : (endRequest n s).mem = s.mem := by
  unfold endRequest
  with_reducible repeat' first
    | rfl | intro _
    | simp only [finishLong_mem, dropRefs_mem, unref_mem, setReq_mem, setLedger_mem] | split
    | dsimp only

theorem endRequest_kept {o : State} (n : Nat) (s : State) (hmem : Kept o s) : Kept o (endRequest n s) := by
  unfold endRequest
  with_reducible repeat' first
    | assumption | intro _ | apply finishLong_kept | apply dropRefs_kept | apply unref_kept | apply setReq_kept
    | apply setLedger_kept | split | dsimp only

end Sys2Proof.Machine
end

