-- ==== Sys2Proof/Laws/KeptControl.lean ====
section
/-! SUPPORT. Every function of Machine.Control keeps what `Kept` promises; where it touches no memory a second law says so. -/

namespace Sys2Proof.Machine
open Sys2Proof

@[simp] theorem suspendJob_mem (n : Nat) (s : State) : (suspendJob n s).mem = s.mem := by
  unfold suspendJob
  with_reducible repeat' first
    | rfl | intro _
    | simp only [markLong_mem, settleLong_mem, setJob_mem, setRun_mem, settleSuspend_mem, apply_ite State.mem, ite_self]
    | refine (foldl_mem _ (fun _ _ => ?_) _ _).trans ?_ | split | dsimp only

theorem suspendJob_kept {o : State} (n : Nat) (s : State) (hmem : Kept o s) : Kept o (suspendJob n s) := by
  unfold suspendJob
  with_reducible repeat' first
    | assumption | intro _ | apply markLong_kept | apply settleLong_kept | apply setJob_kept | apply setRun_kept
    | apply settleSuspend_kept | refine foldl_kept _ (fun _ _ _ => ?_) _ _ ?_ | refine ite_kept _ _ ?_ ?_
    | simp only [kept_mk] | split | dsimp only

theorem cancelJob_kept {o : State} (n : Nat) (s : State) (hmem : Kept o s) : Kept o (cancelJob n s) := by
  unfold cancelJob
  with_reducible repeat' first
    | assumption | intro _ | apply cancelCores_kept | apply endWaiting_kept | refine ite_kept _ _ ?_ ?_ | split | dsimp only

@[simp] theorem suspendRetrain_mem (n : Nat) (s : State) : (suspendRetrain n s).mem = s.mem := by
  unfold suspendRetrain
  with_reducible repeat' first
    | rfl | intro _ | simp only [markLong_mem, settleLong_mem, apply_ite State.mem, ite_self] | split | dsimp only

theorem suspendRetrain_kept {o : State} (n : Nat) (s : State) (hmem : Kept o s) : Kept o (suspendRetrain n s) := by
  unfold suspendRetrain
  with_reducible repeat' first
    | assumption | intro _ | apply markLong_kept | apply settleLong_kept | refine ite_kept _ _ ?_ ?_ | split | dsimp only

@[simp] theorem resumeRetrain_mem (n : Nat) (s : State) : (resumeRetrain n s).mem = s.mem := by
  unfold resumeRetrain
  with_reducible repeat' first
    | rfl | intro _ | simp only [markLong_mem, settleLong_mem, nextRetrainStart_mem, apply_ite State.mem, ite_self] | split
    | dsimp only

theorem resumeRetrain_kept {o : State} (n : Nat) (s : State) (hmem : Kept o s) : Kept o (resumeRetrain n s) := by
  unfold resumeRetrain
  with_reducible repeat' first
    | assumption | intro _ | apply markLong_kept | apply settleLong_kept | apply nextRetrainStart_kept
    | refine ite_kept _ _ ?_ ?_ | simp only [kept_mk] | split | dsimp only

@[simp] theorem cancelRetrain_mem (n : Nat) (s : State) : (cancelRetrain n s).mem = s.mem := by
  unfold cancelRetrain
  with_reducible repeat' first
    | rfl | intro _ | simp only [finishLong_mem, endRetrain_mem, apply_ite State.mem, ite_self] | split | dsimp only

theorem cancelRetrain_kept {o : State} (n : Nat) (s : State) (hmem : Kept o s) : Kept o (cancelRetrain n s) := by
  unfold cancelRetrain
  with_reducible repeat' first
    | assumption | intro _ | apply finishLong_kept | apply endRetrain_kept | refine ite_kept _ _ ?_ ?_ | simp only [kept_mk]
    | split | dsimp only

@[simp] theorem suspendLong_mem (k : LongKind) (s : State) : (suspendLong k s).mem = s.mem := by
  unfold suspendLong
  with_reducible repeat' first
    | rfl | intro _
    | simp only [suspendFlash_mem, suspendIngest_mem, settleRequest_mem, suspendJob_mem, suspendRetrain_mem]
    | split | dsimp only

theorem suspendLong_kept {o : State} (k : LongKind) (s : State) (hmem : Kept o s) : Kept o (suspendLong k s) := by
  unfold suspendLong
  with_reducible repeat' first
    | assumption | intro _ | apply suspendFlash_kept | apply suspendIngest_kept | apply settleRequest_kept
    | apply suspendJob_kept | apply suspendRetrain_kept | simp only [kept_mk] | split | dsimp only

theorem resumeLong_kept {o : State} (k : LongKind) (s : State) (hmem : Kept o s) : Kept o (resumeLong k s) := by
  unfold resumeLong
  with_reducible repeat' first
    | assumption | intro _ | apply markLong_kept | apply settleLong_kept | apply setReq_kept | apply resumeFlash_kept
    | apply resumeIngest_kept | apply resumeJob_kept | apply resumeRetrain_kept | simp only [kept_mk] | split | dsimp only

theorem cancelLong_kept {o : State} (k : LongKind) (s : State) (hmem : Kept o s) : Kept o (cancelLong k s) := by
  unfold cancelLong
  with_reducible repeat' first
    | assumption | intro _ | apply cancelFlash_kept | apply cancelIngest_kept | apply settleRequest_kept
    | apply cancelJob_kept | apply cancelRetrain_kept | simp only [kept_mk] | split | dsimp only

end Sys2Proof.Machine
end

