-- ==== Sys2Proof/Laws/KeptSfe.lean ====
section
/-! SUPPORT. Every function of Machine.Sfe keeps what `Kept` promises; where it touches no memory a second law says so. -/

namespace Sys2Proof.Machine
open Sys2Proof Numeric

@[simp] theorem grantWrite_mem (v : Word) (s : State) : (grantWrite v s).mem = s.mem := by
  unfold grantWrite
  with_reducible repeat' first
    | rfl | intro _ | simp only [setFunc_mem, setCtx_mem, apply_ite State.mem, ite_self] | split | dsimp only

theorem grantWrite_kept {o : State} (v : Word) (s : State) (hmem : Kept o s) : Kept o (grantWrite v s) := by
  unfold grantWrite
  with_reducible repeat' first
    | assumption | intro _ | apply setFunc_kept | apply setCtx_kept | refine ite_kept _ _ ?_ ?_ | simp only [kept_mk] | split
    | dsimp only

@[simp] theorem ctxSelectWrite_mem (fn : Nat) (v : Word) (s : State) : (ctxSelectWrite fn v s).mem = s.mem := by
  unfold ctxSelectWrite
  with_reducible repeat' first
    | rfl | intro _ | simp only [setFunc_mem, grantWrite_mem, apply_ite State.mem, ite_self] | split | dsimp only

theorem ctxSelectWrite_kept {o : State} (fn : Nat) (v : Word) (s : State) (hmem : Kept o s) : Kept o (ctxSelectWrite fn v s) :=
    by
  unfold ctxSelectWrite
  with_reducible repeat' first
    | assumption | intro _ | apply setFunc_kept | apply grantWrite_kept | refine ite_kept _ _ ?_ ?_ | simp only [kept_mk]
    | split | dsimp only

@[simp] theorem setCsiPort_mem (p : Nat) (f : CsiPort → CsiPort) (s : State) : (setCsiPort p f s).mem = s.mem := by
  unfold setCsiPort
  with_reducible repeat' first | rfl | intro _ | simp only [apply_ite State.mem, ite_self] | split | dsimp only

theorem setCsiPort_kept {o : State} (p : Nat) (f : CsiPort → CsiPort) (s : State) (hmem : Kept o s) : Kept o (setCsiPort p f s)
    := by
  unfold setCsiPort
  with_reducible repeat' first | assumption | intro _ | simp only [kept_mk] | split | dsimp only

@[simp] theorem setCsiFrame_mem (i : Nat) (f : CsiFrame → CsiFrame) (s : State) : (setCsiFrame i f s).mem = s.mem := by
  unfold setCsiFrame
  with_reducible repeat' first | rfl | intro _ | simp only [apply_ite State.mem, ite_self] | split | dsimp only

theorem setCsiFrame_kept {o : State} (i : Nat) (f : CsiFrame → CsiFrame) (s : State) (hmem : Kept o s) : Kept o (setCsiFrame i f
    s) := by
  unfold setCsiFrame
  with_reducible repeat' first | assumption | intro _ | simp only [kept_mk] | split | dsimp only

@[simp] theorem sourceFrame_mem (i : Nat) (jump : Bool) (im : Option ImageIn) (s : State) : (sourceFrame i jump im s).mem =
    s.mem := by
  unfold sourceFrame
  with_reducible repeat' first
    | rfl | intro _ | simp only [setCtx_mem, queueImage_mem, setCsiPort_mem, apply_ite State.mem, ite_self] | split
    | dsimp only

theorem sourceFrame_kept {o : State} (i : Nat) (jump : Bool) (im : Option ImageIn) (s : State) (hmem : Kept o s) : Kept o
    (sourceFrame i jump im s) := by
  unfold sourceFrame
  with_reducible repeat' first
    | assumption | intro _ | apply setCtx_kept | apply queueImage_kept | apply setCsiPort_kept | refine ite_kept _ _ ?_ ?_
    | simp only [kept_mk] | split | dsimp only

@[simp] theorem loseCsi_mem (i : Nat) (s : State) : (loseCsi i s).mem = s.mem := by
  unfold loseCsi
  with_reducible repeat' first
    | rfl | intro _ | simp only [setCsiFrame_mem, sourceFrame_mem] | split | dsimp only

theorem loseCsi_kept {o : State} (i : Nat) (s : State) (hmem : Kept o s) : Kept o (loseCsi i s) := by
  unfold loseCsi
  with_reducible repeat' first | assumption | intro _ | apply setCsiFrame_kept | apply sourceFrame_kept | split | dsimp only

@[simp] theorem csiConfigure_mem (p : Nat) (s : State) : (csiConfigure p s).mem = s.mem := by
  unfold csiConfigure
  with_reducible repeat' first
    | rfl | intro _ | simp only [setCsiPort_mem, setCsiFrame_mem, apply_ite State.mem, ite_self]
    | refine (foldl_mem _ (fun _ _ => ?_) _ _).trans ?_ | split | dsimp only

theorem csiConfigure_kept {o : State} (p : Nat) (s : State) (hmem : Kept o s) : Kept o (csiConfigure p s) := by
  unfold csiConfigure
  with_reducible repeat' first
    | assumption | intro _ | apply setCsiPort_kept | apply setCsiFrame_kept | refine foldl_kept _ (fun _ _ _ => ?_) _ _ ?_
    | refine ite_kept _ _ ?_ ?_ | simp only [kept_mk] | split | dsimp only

@[simp] theorem csiStart_mem (i num : Nat) (s : State) : (csiStart i num s).mem = s.mem := by
  unfold csiStart
  with_reducible repeat' first
    | rfl | intro _ | simp only [setCsiFrame_mem, loseCsi_mem, apply_ite State.mem, ite_self] | split | dsimp only

theorem csiStart_kept {o : State} (i num : Nat) (s : State) (hmem : Kept o s) : Kept o (csiStart i num s) := by
  unfold csiStart
  with_reducible repeat' first
    | assumption | intro _ | apply setCsiFrame_kept | apply loseCsi_kept | refine ite_kept _ _ ?_ ?_ | simp only [kept_mk]
    | split | dsimp only

@[simp] theorem csiEnd_mem (i : Nat) (s : State) : (csiEnd i s).mem = s.mem := by
  unfold csiEnd
  with_reducible repeat' first
    | rfl | intro _ | simp only [setCsiFrame_mem, sourceFrame_mem, loseCsi_mem, apply_ite State.mem, ite_self] | split
    | dsimp only

theorem csiEnd_kept {o : State} (i : Nat) (s : State) (hmem : Kept o s) : Kept o (csiEnd i s) := by
  unfold csiEnd
  with_reducible repeat' first
    | assumption | intro _ | apply setCsiFrame_kept | apply sourceFrame_kept | apply loseCsi_kept | refine ite_kept _ _ ?_ ?_
    | split | dsimp only

@[simp] theorem csiLine_mem (i : Nat) (payload : Bytes) (crcOk overflow : Bool) (s : State) : (csiLine i payload crcOk overflow
    s).mem = s.mem := by
  unfold csiLine
  with_reducible repeat' first
    | rfl | intro _ | simp only [setCsiPort_mem, setCsiFrame_mem, apply_ite State.mem, ite_self] | split | dsimp only

theorem csiLine_kept {o : State} (i : Nat) (payload : Bytes) (crcOk overflow : Bool) (s : State) (hmem : Kept o s) : Kept o
    (csiLine i payload crcOk overflow s) := by
  unfold csiLine
  with_reducible repeat' first
    | assumption | intro _ | apply setCsiPort_kept | apply setCsiFrame_kept | refine ite_kept _ _ ?_ ?_ | simp only [kept_mk]
    | split | dsimp only

@[simp] theorem csiBody_mem (p : Nat) (k : CsiPacket) (s : State) : (csiBody p k s).mem = s.mem := by
  unfold csiBody
  with_reducible repeat' first
    | rfl | intro _
    | simp only [setCsiPort_mem, csiConfigure_mem, csiStart_mem, csiEnd_mem, csiLine_mem, apply_ite State.mem]
    | refine (foldl_mem _ (fun _ _ => ?_) _ _).trans ?_ | split | dsimp only

theorem csiBody_kept {o : State} (p : Nat) (k : CsiPacket) (s : State) (hmem : Kept o s) : Kept o (csiBody p k s) := by
  unfold csiBody
  with_reducible repeat' first
    | assumption | intro _ | apply setCsiPort_kept | apply csiConfigure_kept | apply csiStart_kept | apply csiEnd_kept
    | apply csiLine_kept | refine foldl_kept _ (fun _ _ _ => ?_) _ _ ?_ | refine ite_kept _ _ ?_ ?_ | simp only [kept_mk]
    | split | dsimp only

@[simp] theorem addInst_mem (t h : Nat) (s : State) (x : RecRec × Nat) : (addInst t h s x).mem = s.mem := by
  unfold addInst
  with_reducible repeat' first | rfl | intro _ | simp only [apply_ite State.mem, ite_self] | split | dsimp only

theorem addInst_kept {o : State} (t h : Nat) (s : State) (x : RecRec × Nat) (hmem : Kept o s) : Kept o (addInst t h s x) := by
  unfold addInst
  with_reducible repeat' first | assumption | intro _ | refine ite_kept _ _ ?_ ?_ | simp only [kept_mk] | split | dsimp only

@[simp] theorem openStream_mem (c h : Nat) (r : Bytes) (s : State) : (openStream c h r s).mem = s.mem := by
  unfold openStream
  with_reducible repeat' first
    | rfl | intro _ | simp only [setCtx_mem, refVersion_mem, setStreamPool_mem, addInst_mem, apply_ite State.mem, ite_self]
    | refine (foldl_mem _ (fun _ _ => ?_) _ _).trans ?_ | split | dsimp only

theorem openStream_kept {o : State} (c h : Nat) (r : Bytes) (s : State) (hmem : Kept o s) : Kept o (openStream c h r s) := by
  unfold openStream
  with_reducible repeat' first
    | assumption | intro _ | apply setCtx_kept | apply refVersion_kept | apply setStreamPool_kept | apply addInst_kept
    | refine foldl_kept _ (fun _ _ _ => ?_) _ _ ?_ | refine ite_kept _ _ ?_ ?_ | simp only [kept_mk] | split | dsimp only

theorem repeatFrames_kept {o : State} (f : State → State) (hf : ∀ s, Kept o s → Kept o (f s)) (n : Nat) (s : State)
    (hmem : Kept o s) : Kept o (repeatFrames f n s) := by
  induction n generalizing s with
  | zero => exact hmem
  | succ n ih => exact ih _ (hf _ hmem)

theorem pushRow_kept {o : State} (c : Nat) (data : Bytes) (s : State) (i : Nat) (hmem : Kept o s) : Kept o (pushRow c data s i)
    := by
  unfold pushRow
  with_reducible repeat' first | assumption | intro _ | apply frameArrives_kept | split | dsimp only

theorem pushData_kept {o : State} (sub : Sub) (c : Nat) (data : Bytes) (s : State) (hmem : Kept o s) : Kept o (pushData sub c
    data s) := by
  unfold pushData
  with_reducible repeat' first
    | assumption | intro _ | apply setCtx_kept | apply endWith_kept | apply deliverImage_kept | apply audioFrame_kept
    | apply repeatFrames_kept | apply pushRow_kept | refine foldl_kept _ (fun _ _ _ => ?_) _ _ ?_ | refine ite_kept _ _ ?_ ?_
    | split | dsimp only

end Sys2Proof.Machine
end

