-- ==== Sys2Proof/Laws/KeptPowerOps.lean ====
section
/-! SUPPORT. Every function of Machine.PowerOps keeps what `Kept` promises; where it touches no memory a second law says so. -/

namespace Sys2Proof.Machine
open Sys2Proof Numeric

@[simp] theorem poisonGroup_mem (d : Nat) (all : Bool) (s : State) : (poisonGroup d all s).mem = s.mem := by
  unfold poisonGroup
  with_reducible repeat' first | rfl | intro _ | simp only [apply_ite State.mem, ite_self] | split | dsimp only

theorem poisonGroup_kept {o : State} (d : Nat) (all : Bool) (s : State) (hmem : Kept o s) : Kept o (poisonGroup d all s) := by
  unfold poisonGroup
  with_reducible repeat' first | assumption | intro _ | refine ite_kept _ _ ?_ ?_ | simp only [kept_mk] | split | dsimp only

@[simp] theorem trainOne_mem (w0 w1 : LaneSweep) (c : Nat) (s : State) : (trainOne w0 w1 c s).mem = s.mem := by
  unfold trainOne
  with_reducible repeat' first
    | rfl | intro _ | simp only [setChan_mem, markFailing_mem, apply_ite State.mem, ite_self] | split | dsimp only

theorem trainOne_kept {o : State} (w0 w1 : LaneSweep) (c : Nat) (s : State) (hmem : Kept o s) : Kept o (trainOne w0 w1 c s) :=
    by
  unfold trainOne
  with_reducible repeat' first
    | assumption | intro _ | apply setChan_kept | apply markFailing_kept | refine ite_kept _ _ ?_ ?_ | split | dsimp only

@[simp] theorem trainGroup_mem (d : Nat) (s : State) : (trainGroup d s).mem = s.mem := by
  unfold trainGroup
  with_reducible repeat' first
    | rfl | intro _ | simp only [State.spend_mem, trainOne_mem]
    | refine (foldl_mem _ (fun _ _ => ?_) _ _).trans ?_ | split | dsimp only

theorem trainGroup_kept {o : State} (d : Nat) (s : State) (hmem : Kept o s) : Kept o (trainGroup d s) := by
  unfold trainGroup
  with_reducible repeat' first
    | assumption | intro _ | apply State.spend_kept | apply trainOne_kept | refine foldl_kept _ (fun _ _ _ => ?_) _ _ ?_
    | split | dsimp only

@[simp] theorem flushChecks_mem (d : Nat) (s : State) : (flushChecks d s).mem = s.mem := by
  unfold flushChecks
  with_reducible repeat' first
    | rfl | intro _ | simp only [setChan_mem]
    | refine (foldl_mem _ (fun _ _ => ?_) _ _).trans ?_ | split | dsimp only

theorem flushChecks_kept {o : State} (d : Nat) (s : State) (hmem : Kept o s) : Kept o (flushChecks d s) := by
  unfold flushChecks
  with_reducible repeat' first
    | assumption | intro _ | apply setChan_kept | refine foldl_kept _ (fun _ _ _ => ?_) _ _ ?_ | simp only [kept_mk] | split
    | dsimp only

@[simp] theorem freshBridges_mem (h : Nat) (s : State) : (freshBridges h s).mem = s.mem := by
  unfold freshBridges
  with_reducible repeat' first | rfl | intro _ | simp only [apply_ite State.mem, ite_self] | split | dsimp only

theorem freshBridges_kept {o : State} (h : Nat) (s : State) (hmem : Kept o s) : Kept o (freshBridges h s) := by
  unfold freshBridges
  with_reducible repeat' first | assumption | intro _ | refine ite_kept _ _ ?_ ?_ | simp only [kept_mk] | split | dsimp only

theorem zeroGroup_kept {o : State} (d : Nat) (s : State) (hmem : Kept o s) : Kept o (zeroGroup d s) := by
  unfold zeroGroup
  with_reducible repeat' first
    | assumption | intro _ | exact Kept.wf (by assumption) (by assumption) | apply Memory.wf_dropSram | refine Kept.wf ?_ ?_
    | split | dsimp only | refine Kept.mems ?_ _ _ _ _ _ _ _ _ _ _ _ _ _ _ _ _ ?_

@[simp] theorem forgetContexts_mem (s : State) : (forgetContexts s).mem = s.mem := by
  unfold forgetContexts
  with_reducible repeat' first | rfl | intro _ | simp only [apply_ite State.mem, ite_self] | split | dsimp only

theorem forgetContexts_kept {o : State} (s : State) (hmem : Kept o s) : Kept o (forgetContexts s) := by
  unfold forgetContexts
  with_reducible repeat' first | assumption | intro _ | simp only [kept_mk] | split | dsimp only

theorem enterSleep_kept {o : State} (d : Nat) (t : DomState) (s : State) (hmem : Kept o s) : Kept o (enterSleep d t s) := by
  unfold enterSleep
  with_reducible repeat' first
    | assumption | intro _ | apply resetCore_kept | apply poisonGroup_kept | apply flushChecks_kept | apply freshBridges_kept
    | apply zeroGroup_kept | apply forgetContexts_kept | refine ite_kept _ _ ?_ ?_ | split | dsimp only

theorem enterOn_kept {o : State} (d : Nat) (t : DomState) (s : State) (hmem : Kept o s) : Kept o (enterOn d t s) := by
  unfold enterOn
  with_reducible repeat' first
    | assumption | intro _ | apply updCore_kept | apply poisonGroup_kept | apply trainGroup_kept | apply zeroGroup_kept
    | refine ite_kept _ _ ?_ ?_ | simp only [kept_mk] | split | dsimp only

theorem changeState_kept {o : State} (d : Nat) (t : DomState) (s : State) (hmem : Kept o s) : Kept o (changeState d t s) := by
  unfold changeState
  with_reducible repeat' first
    | assumption | intro _ | apply setDom_kept | apply enterSleep_kept | apply enterOn_kept | refine ite_kept _ _ ?_ ?_
    | simp only [kept_mk] | split | dsimp only

theorem endTransition_kept {o : State} (d : Nat) (s : State) (hmem : Kept o s) : Kept o (endTransition d s) := by
  unfold endTransition
  with_reducible repeat' first
    | assumption | intro _ | apply setDom_kept | apply changeState_kept | simp only [kept_mk] | split | dsimp only

@[simp] theorem askDom_mem (d : Nat) (t : DomState) (s : State) : (askDom d t s).mem = s.mem := by
  unfold askDom
  with_reducible repeat' first | rfl | intro _ | simp only [setDom_mem] | split | dsimp only

theorem askDom_kept {o : State} (d : Nat) (t : DomState) (s : State) (hmem : Kept o s) : Kept o (askDom d t s) := by
  unfold askDom
  with_reducible repeat' first
    | assumption | intro _ | apply setDom_kept | refine ite_kept _ _ ?_ ?_ | simp only [kept_mk] | split | dsimp only

@[simp] theorem wakeDom_mem (d : Nat) (s : State) : (wakeDom d s).mem = s.mem := by
  unfold wakeDom
  with_reducible repeat' first | rfl | intro _ | simp only [askDom_mem, apply_ite State.mem, ite_self] | split | dsimp only

theorem wakeDom_kept {o : State} (d : Nat) (s : State) (hmem : Kept o s) : Kept o (wakeDom d s) := by
  unfold wakeDom
  with_reducible repeat' first | assumption | intro _ | apply askDom_kept | refine ite_kept _ _ ?_ ?_ | split | dsimp only

end Sys2Proof.Machine
end

