-- ==== Sys2Proof/Laws/KeptQueue.lean ====
section
/-! SUPPORT. Every function of Machine.Queue keeps what `Kept` promises; where it touches no memory a second law says so. -/

namespace Sys2Proof.Machine
open Sys2Proof Numeric

@[simp] theorem setSlots_mem (f q : Nat) (g : Pool → Pool) (s : State) : (setSlots f q g s).mem = s.mem := by
  unfold setSlots
  with_reducible repeat' first
    | rfl | intro _ | simp only [conserve_mem, setQueue_mem] | split | dsimp only

theorem setSlots_kept {o : State} (f q : Nat) (g : Pool → Pool) (s : State) (hmem : Kept o s) : Kept o (setSlots f q g s) := by
  unfold setSlots
  with_reducible repeat' first
    | assumption | intro _ | apply conserve_kept | apply setQueue_kept | simp only [kept_mk] | split | dsimp only

@[simp] theorem submitEntries_mem (f q : Nat) (v : Word) (s : State) : (submitEntries f q v s).mem = s.mem := by
  unfold submitEntries
  with_reducible repeat' first
    | rfl | intro _ | simp only [setQueue_mem, queueError_mem, setSlots_mem, apply_ite State.mem, ite_self] | split
    | dsimp only

theorem submitEntries_kept {o : State} (f q : Nat) (v : Word) (s : State) (hmem : Kept o s) : Kept o (submitEntries f q v s) :=
    by
  unfold submitEntries
  with_reducible repeat' first
    | assumption | intro _ | apply setQueue_kept | apply queueError_kept | apply setSlots_kept | refine ite_kept _ _ ?_ ?_
    | simp only [kept_mk] | split | dsimp only

@[simp] theorem passCompletions_mem (f q : Nat) (v : Word) (s : State) : (passCompletions f q v s).mem = s.mem := by
  unfold passCompletions
  with_reducible repeat' first
    | rfl | intro _ | simp only [setQueue_mem, queueError_mem, apply_ite State.mem, ite_self] | split | dsimp only

theorem passCompletions_kept {o : State} (f q : Nat) (v : Word) (s : State) (hmem : Kept o s) : Kept o (passCompletions f q v s)
    := by
  unfold passCompletions
  with_reducible repeat' first
    | assumption | intro _ | apply setQueue_kept | apply queueError_kept | refine ite_kept _ _ ?_ ?_ | simp only [kept_mk]
    | split | dsimp only

@[simp] theorem passEvents_mem (f : Nat) (v : Word) (s : State) : (passEvents f v s).mem = s.mem := by
  unfold passEvents
  with_reducible repeat' first | rfl | intro _ | simp only [setFunc_mem, apply_ite State.mem, ite_self] | split | dsimp only

theorem passEvents_kept {o : State} (f : Nat) (v : Word) (s : State) (hmem : Kept o s) : Kept o (passEvents f v s) := by
  unfold passEvents
  with_reducible repeat' first
    | assumption | intro _ | apply setFunc_kept | refine ite_kept _ _ ?_ ?_ | simp only [kept_mk] | split | dsimp only

@[simp] theorem takeEntry_mem (f q : Nat) (entry : Bytes) (s : State) : (takeEntry f q entry s).mem = s.mem := by
  unfold takeEntry
  with_reducible repeat' first
    | rfl | intro _ | simp only [setFunc_mem, setQueue_mem, endWith_mem, apply_ite State.mem, ite_self] | split | dsimp only

theorem takeEntry_kept {o : State} (f q : Nat) (entry : Bytes) (s : State) (hmem : Kept o s) : Kept o (takeEntry f q entry s) :=
    by
  unfold takeEntry
  with_reducible repeat' first
    | assumption | intro _ | apply setFunc_kept | apply setQueue_kept | apply endWith_kept | refine ite_kept _ _ ?_ ?_
    | simp only [kept_mk] | split | dsimp only

theorem writeCompletion_kept {o : State} (f q : Nat) (c : Completion) (s : State) (hmem : Kept o s) : Kept o (writeCompletion f
    q c s) := by
  unfold writeCompletion
  with_reducible repeat' first
    | assumption | intro _ | apply setQueue_kept | apply endWith_kept | apply setSlots_kept
    | refine foldl_kept _ (fun _ _ _ => ?_) _ _ ?_ | refine ite_kept _ _ ?_ ?_ | refine setMems_kept _ _ ?_ ?_
    | exact Kept.wf (by assumption) (by assumption) | apply Memory.wf_wrHost | refine Kept.wf ?_ ?_ | simp only [kept_mk]
    | split | dsimp only

@[simp] theorem setEvq_mem (f : Nat) (g : EventQueue → EventQueue) (s : State) : (setEvq f g s).mem = s.mem := by
  unfold setEvq
  with_reducible repeat' first | rfl | intro _ | simp only [setFunc_mem] | split | dsimp only

theorem setEvq_kept {o : State} (f : Nat) (g : EventQueue → EventQueue) (s : State) (hmem : Kept o s) : Kept o (setEvq f g s) :=
    by
  unfold setEvq
  with_reducible repeat' first | assumption | intro _ | apply setFunc_kept | simp only [kept_mk] | split | dsimp only

theorem writeLost_kept {o : State} (f : Nat) (s : State) (hmem : Kept o s) : Kept o (writeLost f s) := by
  unfold writeLost
  with_reducible repeat' first
    | assumption | intro _ | apply writeEvent_kept | apply setEvq_kept | refine ite_kept _ _ ?_ ?_ | simp only [kept_mk]
    | split | dsimp only

theorem placeEvent_kept {o : State} (f : Nat) (s : State) (hmem : Kept o s) : Kept o (placeEvent f s) := by
  unfold placeEvent
  with_reducible repeat' first
    | assumption | intro _ | apply writeEvent_kept | apply setEvq_kept | apply writeLost_kept | refine ite_kept _ _ ?_ ?_
    | split | dsimp only

@[simp] theorem createQueue_mem (f q g : Nat) (s : State) : (createQueue f q g s).mem = s.mem := by
  unfold createQueue
  with_reducible repeat' first
    | rfl | intro _ | simp only [conserve_mem, setQueue_mem] | split | dsimp only

theorem createQueue_kept {o : State} (f q g : Nat) (s : State) (hmem : Kept o s) : Kept o (createQueue f q g s) := by
  unfold createQueue
  with_reducible repeat' first
    | assumption | intro _ | apply conserve_kept | apply setQueue_kept | simp only [kept_mk] | split | dsimp only

@[simp] theorem queueSelect_mem (f : Nat) (v : Word) (s : State) : (queueSelect f v s).mem = s.mem := by
  unfold queueSelect
  with_reducible repeat' first
    | rfl | intro _ | simp only [setFunc_mem, setQueue_mem, createQueue_mem, apply_ite State.mem, ite_self] | split
    | dsimp only

theorem queueSelect_kept {o : State} (f : Nat) (v : Word) (s : State) (hmem : Kept o s) : Kept o (queueSelect f v s) := by
  unfold queueSelect
  with_reducible repeat' first
    | assumption | intro _ | apply setFunc_kept | apply setQueue_kept | apply createQueue_kept | refine ite_kept _ _ ?_ ?_
    | split | dsimp only

@[simp] theorem eventConfigure_mem (f : Nat) (v : Word) (s : State) : (eventConfigure f v s).mem = s.mem := by
  unfold eventConfigure
  with_reducible repeat' first | rfl | intro _ | simp only [setEvq_mem, apply_ite State.mem, ite_self] | split | dsimp only

theorem eventConfigure_kept {o : State} (f : Nat) (v : Word) (s : State) (hmem : Kept o s) : Kept o (eventConfigure f v s) := by
  unfold eventConfigure
  with_reducible repeat' first
    | assumption | intro _ | apply setEvq_kept | refine ite_kept _ _ ?_ ?_ | simp only [kept_mk] | split | dsimp only

end Sys2Proof.Machine
end

