-- ==== Sys2Proof/Laws/KeptLinks.lean ====
section
/-! SUPPORT. Every function of Machine.Links keeps what `Kept` promises; where it touches no memory a second law says so. -/

namespace Sys2Proof.Machine
open Sys2Proof

@[simp] theorem deleteQueues_mem (f : Nat) (s : State) : (deleteQueues f s).mem = s.mem := by
  unfold deleteQueues
  with_reducible repeat' first
    | rfl | intro _ | simp only [setFunc_mem, endWith_mem]
    | refine (foldl_mem _ (fun _ _ => ?_) _ _).trans ?_ | split | dsimp only

theorem deleteQueues_kept {o : State} (f : Nat) (s : State) (hmem : Kept o s) : Kept o (deleteQueues f s) := by
  unfold deleteQueues
  with_reducible repeat' first
    | assumption | intro _ | apply setFunc_kept | apply endWith_kept | refine foldl_kept _ (fun _ _ _ => ?_) _ _ ?_
    | simp only [kept_mk] | split | dsimp only

theorem cancelAll_kept {o : State} (f : Nat) (s : State) (hmem : Kept o s) : Kept o (cancelAll f s) := by
  unfold cancelAll
  with_reducible repeat' first
    | assumption | intro _ | apply waitLong_kept | apply cancelJob_kept | apply cancelLong_kept
    | refine foldl_kept _ (fun _ _ _ => ?_) _ _ ?_ | split | dsimp only

@[simp] theorem closeWindows_mem (f : Nat) (s : State) : (closeWindows f s).mem = s.mem := by
  unfold closeWindows
  with_reducible repeat' first
    | rfl | intro _ | simp only [setWindow_mem, closeWindow_mem]
    | refine (foldl_mem _ (fun _ _ => ?_) _ _).trans ?_ | split | dsimp only

theorem closeWindows_kept {o : State} (f : Nat) (s : State) (hmem : Kept o s) : Kept o (closeWindows f s) := by
  unfold closeWindows
  with_reducible repeat' first
    | assumption | intro _ | apply setWindow_kept | apply closeWindow_kept | refine foldl_kept _ (fun _ _ _ => ?_) _ _ ?_
    | simp only [kept_mk] | split | dsimp only

@[simp] theorem resetSetup_mem (f : Nat) (s : State) : (resetSetup f s).mem = s.mem := by
  unfold resetSetup
  with_reducible repeat' first | rfl | intro _ | simp only [setFunc_mem] | split | dsimp only

theorem resetSetup_kept {o : State} (f : Nat) (s : State) (hmem : Kept o s) : Kept o (resetSetup f s) := by
  unfold resetSetup
  with_reducible repeat' first | assumption | intro _ | apply setFunc_kept | simp only [kept_mk] | split | dsimp only

theorem closeStreams_kept {o : State} (t : Nat) (s : State) (hmem : Kept o s) : Kept o (closeStreams t s) := by
  unfold closeStreams
  with_reducible repeat' first
    | assumption | intro _ | apply startClose_kept | refine foldl_kept _ (fun _ _ _ => ?_) _ _ ?_ | split | dsimp only

@[simp] theorem dropBindings_mem (t : Nat) (s : State) : (dropBindings t s).mem = s.mem := by
  unfold dropBindings
  with_reducible repeat' first
    | rfl | intro _ | simp only [unbindSlot_mem]
    | refine (foldl_mem _ (fun _ _ => ?_) _ _).trans ?_ | split | dsimp only

theorem dropBindings_kept {o : State} (t : Nat) (s : State) (hmem : Kept o s) : Kept o (dropBindings t s) := by
  unfold dropBindings
  with_reducible repeat' first
    | assumption | intro _ | apply unbindSlot_kept | refine foldl_kept _ (fun _ _ _ => ?_) _ _ ?_ | split | dsimp only

@[simp] theorem leavePasses_mem (t : Nat) (s : State) : (leavePasses t s).mem = s.mem := by
  unfold leavePasses
  with_reducible repeat' first | rfl | intro _ | simp only [apply_ite State.mem, ite_self] | split | dsimp only

theorem leavePasses_kept {o : State} (t : Nat) (s : State) (hmem : Kept o s) : Kept o (leavePasses t s) := by
  unfold leavePasses
  with_reducible repeat' first | assumption | intro _ | simp only [kept_mk] | split | dsimp only

@[simp] theorem dropRequest_mem (n : Nat) (s : State) : (dropRequest n s).mem = s.mem := by
  unfold dropRequest
  with_reducible repeat' first
    | rfl | intro _
    | simp only [dropLong_mem, dropRefs_mem, unref_mem, setReq_mem, setLedger_mem] | split
    | dsimp only

theorem dropRequest_kept {o : State} (n : Nat) (s : State) (hmem : Kept o s) : Kept o (dropRequest n s) := by
  unfold dropRequest
  with_reducible repeat' first
    | assumption | intro _ | apply dropLong_kept | apply dropRefs_kept | apply unref_kept | apply setReq_kept
    | apply setLedger_kept | split | dsimp only

theorem dropWork_kept {o : State} (t : Nat) (s : State) (hmem : Kept o s) : Kept o (dropWork t s) := by
  unfold dropWork
  with_reducible repeat' first
    | assumption | intro _ | apply setCtx_kept | apply dropLong_kept | apply setJob_kept | apply dropJob_kept
    | apply retireJob_kept | apply cancelCores_kept | apply killCore_kept | apply closeContext_kept | apply endStreams_kept
    | apply failIngest_kept | apply leavePasses_kept | apply dropRequest_kept | refine foldl_kept _ (fun _ _ _ => ?_) _ _ ?_
    | refine ite_kept _ _ ?_ ?_ | simp only [kept_mk] | split | dsimp only

theorem scrubCores_kept {o : State} (t : Nat) (s : State) (hmem : Kept o s) : Kept o (scrubCores t s) := by
  unfold scrubCores
  with_reducible repeat' first
    | assumption | intro _ | apply releaseRegions_kept | apply scrubCore_kept | refine foldl_kept _ (fun _ _ _ => ?_) _ _ ?_
    | refine ite_kept _ _ ?_ ?_ | split | dsimp only

@[simp] theorem blankFramesOf_mem (t : Nat) (s : State) : (blankFramesOf t s).mem = s.mem := by
  unfold blankFramesOf
  with_reducible repeat' first
    | rfl | intro _ | simp only [setKvPool_mem, blankBlock_mem, apply_ite State.mem, ite_self]
    | refine (foldl_mem _ (fun _ _ => ?_) _ _).trans ?_ | split | dsimp only

theorem blankFramesOf_kept {o : State} (t : Nat) (s : State) (hmem : Kept o s) : Kept o (blankFramesOf t s) := by
  unfold blankFramesOf
  with_reducible repeat' first
    | assumption | intro _ | apply setKvPool_kept | apply blankBlock_kept | refine foldl_kept _ (fun _ _ _ => ?_) _ _ ?_
    | refine ite_kept _ _ ?_ ?_ | split | dsimp only

@[simp] theorem destroyMemory_mem (t : Nat) (s : State) : (destroyMemory t s).mem = s.mem := by
  unfold destroyMemory
  with_reducible repeat' first | rfl | intro _ | simp only [apply_ite State.mem, ite_self] | split | dsimp only

theorem destroyMemory_kept {o : State} (t : Nat) (s : State) (hmem : Kept o s) : Kept o (destroyMemory t s) := by
  unfold destroyMemory
  with_reducible repeat' first | assumption | intro _ | refine ite_kept _ _ ?_ ?_ | simp only [kept_mk] | split | dsimp only

theorem scrubTenant_kept {o : State} (t : Nat) (s : State) (hmem : Kept o s) : Kept o (scrubTenant t s) := by
  unfold scrubTenant
  with_reducible repeat' first
    | assumption | intro _ | apply clearSram_kept | apply drawTenantKey_kept | apply dropWork_kept | apply scrubCores_kept
    | apply blankFramesOf_kept | apply destroyMemory_kept | split | dsimp only

theorem tenantScrub_kept {o : State} (t : Nat) (s : State) (hmem : Kept o s) : Kept o (tenantScrub t s) := by
  unfold tenantScrub
  with_reducible repeat' first | assumption | intro _ | apply postReclaim_kept | apply scrubTenant_kept | split | dsimp only

theorem startFlr_kept {o : State} (f : Nat) (s : State) (hmem : Kept o s) : Kept o (startFlr f s) := by
  unfold startFlr
  with_reducible repeat' first
    | assumption | intro _ | apply setFunc_kept | apply setTsec_kept | apply deleteQueues_kept | apply cancelAll_kept
    | apply closeWindows_kept | apply resetSetup_kept | apply closeStreams_kept | apply dropBindings_kept
    | apply scrubTenant_kept | refine ite_kept _ _ ?_ ?_ | simp only [kept_mk] | split | dsimp only

theorem linkDown_kept {o : State} (s : State) (hmem : Kept o s) : Kept o (linkDown s) := by
  unfold linkDown
  with_reducible repeat' first
    | assumption | intro _ | apply startFlr_kept | refine foldl_kept _ (fun _ _ _ => ?_) _ _ ?_ | simp only [kept_mk] | split
    | dsimp only

end Sys2Proof.Machine
end

