-- ==== Sys2Proof/Laws/KeptDomReset.lean ====
section
/-! SUPPORT. Every function of Machine.DomReset keeps what `Kept` promises; where it touches no memory a second law says so. -/

namespace Sys2Proof.Machine
open Sys2Proof Numeric

theorem endWithDomain_kept {o : State} (d : Nat) (s : State) (n : Nat) (hmem : Kept o s) : Kept o (endWithDomain d s n) := by
  unfold endWithDomain
  with_reducible repeat' first
    | assumption | intro _ | apply updCore_kept | apply setJob_kept | apply cancelCores_kept | refine ite_kept _ _ ?_ ?_
    | simp only [kept_mk] | split | dsimp only

theorem loseKvPages_kept {o : State} (s : State) (hmem : Kept o s) : Kept o (loseKvPages s) := by
  unfold loseKvPages
  with_reducible repeat' first
    | assumption | intro _ | apply retireJob_kept | apply cancelCores_kept | apply setReq_kept | apply endStreams_kept
    | refine foldl_kept _ (fun _ _ _ => ?_) _ _ ?_ | refine ite_kept _ _ ?_ ?_ | simp only [kept_mk] | split | dsimp only

@[simp] theorem endIngestWithDomain_mem (s : State) (n : Nat) : (endIngestWithDomain s n).mem = s.mem := by
  unfold endIngestWithDomain
  with_reducible repeat' first
    | rfl | intro _ | simp only [finishLong_mem, failIngest_mem] | split | dsimp only

theorem endIngestWithDomain_kept {o : State} (s : State) (n : Nat) (hmem : Kept o s) : Kept o (endIngestWithDomain s n) := by
  unfold endIngestWithDomain
  with_reducible repeat' first | assumption | intro _ | apply finishLong_kept | apply failIngest_kept | split | dsimp only

@[simp] theorem freshTokens_mem (s : State) : (freshTokens s).mem = s.mem := by
  unfold freshTokens
  with_reducible repeat' first | rfl | intro _ | simp only [apply_ite State.mem, ite_self] | split | dsimp only

theorem freshTokens_kept {o : State} (s : State) (hmem : Kept o s) : Kept o (freshTokens s) := by
  unfold freshTokens
  with_reducible repeat' first | assumption | intro _ | simp only [kept_mk] | split | dsimp only

theorem resetMemorySide_kept {o : State} (s : State) (hmem : Kept o s) : Kept o (resetMemorySide s) := by
  unfold resetMemorySide
  with_reducible repeat' first
    | assumption | intro _ | apply loseKvPages_kept | apply endIngestWithDomain_kept | apply freshTokens_kept
    | refine foldl_kept _ (fun _ _ _ => ?_) _ _ ?_ | simp only [kept_mk] | split | dsimp only

theorem closeWithDomain_kept {o : State} (s : State) (c : Nat) (hmem : Kept o s) : Kept o (closeWithDomain s c) := by
  unfold closeWithDomain
  with_reducible repeat' first
    | assumption | intro _ | apply setCtx_kept | apply endWith_kept | apply closeContext_kept
    | refine foldl_kept _ (fun _ _ _ => ?_) _ _ ?_ | refine ite_kept _ _ ?_ ?_ | simp only [kept_mk] | split | dsimp only

theorem resetStreamFront_kept {o : State} (s : State) (hmem : Kept o s) : Kept o (resetStreamFront s) := by
  unfold resetStreamFront
  with_reducible repeat' first
    | assumption | intro _ | apply retireJob_kept | apply endStreams_kept | apply closeWithDomain_kept
    | refine foldl_kept _ (fun _ _ _ => ?_) _ _ ?_ | simp only [kept_mk] | split | dsimp only

@[simp] theorem resetFlash_mem (s : State) : (resetFlash s).mem = s.mem := by
  unfold resetFlash
  with_reducible repeat' first
    | rfl | intro _ | simp only [finishFlash_mem, endIngestWithDomain_mem]
    | refine (foldl_mem _ (fun _ _ => ?_) _ _).trans ?_ | split | dsimp only

theorem resetFlash_kept {o : State} (s : State) (hmem : Kept o s) : Kept o (resetFlash s) := by
  unfold resetFlash
  with_reducible repeat' first
    | assumption | intro _ | apply finishFlash_kept | apply endIngestWithDomain_kept
    | refine foldl_kept _ (fun _ _ _ => ?_) _ _ ?_ | simp only [kept_mk] | split | dsimp only

@[simp] theorem resetDramGroup_mem (d : Nat) (s : State) : (resetDramGroup d s).mem = s.mem := by
  unfold resetDramGroup
  with_reducible repeat' first
    | rfl | intro _
    | simp only [setChan_mem, endRetrain_mem, poisonGroup_mem, endIngestWithDomain_mem, apply_ite State.mem, ite_self]
    | refine (foldl_mem _ (fun _ _ => ?_) _ _).trans ?_ | split | dsimp only

theorem resetDramGroup_kept {o : State} (d : Nat) (s : State) (hmem : Kept o s) : Kept o (resetDramGroup d s) := by
  unfold resetDramGroup
  with_reducible repeat' first
    | assumption | intro _ | apply setChan_kept | apply endRetrain_kept | apply poisonGroup_kept
    | apply endIngestWithDomain_kept | refine foldl_kept _ (fun _ _ _ => ?_) _ _ ?_ | refine ite_kept _ _ ?_ ?_
    | simp only [kept_mk] | split | dsimp only

theorem resetContents_kept {o : State} (d : Nat) (s : State) (hmem : Kept o s) : Kept o (resetContents d s) := by
  unfold resetContents
  with_reducible repeat' first
    | assumption | intro _ | apply resetCore_kept | apply freshBridges_kept | apply zeroGroup_kept
    | apply resetMemorySide_kept | apply resetStreamFront_kept | apply resetFlash_kept | apply resetDramGroup_kept
    | refine ite_kept _ _ ?_ ?_ | split | dsimp only

theorem beginReset_kept {o : State} (d : Nat) (s : State) (hmem : Kept o s) : Kept o (beginReset d s) := by
  unfold beginReset
  with_reducible repeat' first
    | assumption | intro _ | apply setDom_kept | apply endWithDomain_kept | apply resetContents_kept
    | refine foldl_kept _ (fun _ _ _ => ?_) _ _ ?_ | split | dsimp only | rfl
    | refine Kept.boots ?_ _ _ _ _ _ _ _ _ _ _ _ _ _ _ _ _ ?_ ?_

theorem domResetWrite_kept {o : State} (v : Word) (s : State) (hmem : Kept o s) : Kept o (domResetWrite v s) := by
  unfold domResetWrite
  with_reducible repeat' first
    | assumption | intro _ | apply beginReset_kept | refine ite_kept _ _ ?_ ?_ | split | dsimp only
    | rfl | refine Kept.boots ?_ _ _ _ _ _ _ _ _ _ _ _ _ _ _ _ _ ?_ ?_

@[simp] theorem endReclaim_mem (s : State) : (endReclaim s).mem = s.mem := by
  unfold endReclaim
  with_reducible repeat' first
    | rfl | intro _ | simp only [postReclaim_mem] | split | dsimp only

theorem endReclaim_kept {o : State} (s : State) (hmem : Kept o s) : Kept o (endReclaim s) := by
  unfold endReclaim
  with_reducible repeat' first
    | assumption | intro _ | apply postReclaim_kept | split | dsimp only | rfl
    | refine Kept.boots ?_ _ _ _ _ _ _ _ _ _ _ _ _ _ _ _ _ ?_ ?_

theorem fenceLanes_kept {o : State} (h : Nat) (bad : Byte) (s : State) (hk : Kept o s) : Kept o (fenceLanes h bad s) := by
  have key := foldl_kept (o := o) (fun s l =>
    postEvent 0 (evUnitNotice 3 (Config.laneNumber h l)) { s with fences := fenceLane h l s.fences })
    (fun s l k => postEvent_kept _ _ _ (k.fenced _ (within_fenceLane _ _ _)))
    ((List.range 8).filter fun l => bad.getLsbD l && !laneFenced s h l) s hk
  unfold fenceLanes
  dsimp only
  split
  · exact fenceHalf_kept _ _ key
  · exact key

theorem fencePorts_kept {o : State} (bad : BitVec 4) (s : State) (h : Kept o s) : Kept o (fencePorts bad s) := by
  unfold fencePorts
  refine foldl_kept _ (fun _ _ h => postEvent_kept _ _ _ h) _ _ (h.fenced _ ?_)
  exact ⟨fun _ => id, fun _ => id, fun i h => by simp [h], fun _ => id, fun _ => id, fun _ => id, fun _ => id, fun _ => id⟩

theorem settleHeld_kept {o : State} (d : Nat) (rep : HeldReport) (s : State) (hmem : Kept o s) : Kept o (settleHeld d rep s) :=
    by
  unfold settleHeld
  with_reducible repeat' first
    | assumption | intro _ | apply fatalStop_kept | apply postEvent_kept | apply takeOut_kept | apply trainOne_kept
    | apply fenceLanes_kept | apply fencePorts_kept | refine foldl_kept _ (fun _ _ _ => ?_) _ _ ?_ | refine ite_kept _ _ ?_ ?_
    | split | dsimp only

@[simp] theorem reportHeld_mem (h : HeldPhase) (s : State) : (reportHeld h s).mem = s.mem := by
  unfold reportHeld
  with_reducible repeat' first
    | rfl | intro _ | simp only [setJob_mem, coreReport_mem]
    | refine (foldl_mem _ (fun _ _ => ?_) _ _).trans ?_ | split | dsimp only

theorem reportHeld_kept {o : State} (h : HeldPhase) (s : State) (hmem : Kept o s) : Kept o (reportHeld h s) := by
  unfold reportHeld
  with_reducible repeat' first
    | assumption | intro _ | apply setJob_kept | apply coreReport_kept | refine foldl_kept _ (fun _ _ _ => ?_) _ _ ?_
    | refine ite_kept _ _ ?_ ?_ | simp only [kept_mk] | split | dsimp only

end Sys2Proof.Machine
end

