-- ==== Sys2Proof/Laws/KeptClock.lean ====
section
/-! SUPPORT. Every function of Machine.Clock keeps what `Kept` promises; where it touches no memory a second law says so. -/

namespace Sys2Proof.Machine
open Sys2Proof

theorem tick_kept {o : State} (s : State) (hmem : Kept o s) : Kept o (tick s) := by
  unfold tick
  with_reducible repeat' first
    | assumption | intro _ | apply failedStart_kept | apply endReclaim_kept | refine ite_kept _ _ ?_ ?_ | simp only [kept_mk]
    | split | dsimp only

end Sys2Proof.Machine
end

