-- ==== Sys2Proof/Laws/KeptPower.lean ====
section
/-! SUPPORT. Every function of Machine.Power keeps what `Kept` promises; where it touches no memory a second law says so. -/

namespace Sys2Proof.Machine
open Sys2Proof Numeric

@[simp] theorem retarget_mem (s : State) : (retarget s).mem = s.mem := by
  unfold retarget
  with_reducible repeat' first
    | rfl | intro _ | simp only [updCore_mem, apply_ite State.mem, ite_self]
    | refine (foldl_mem _ (fun _ _ => ?_) _ _).trans ?_ | split | dsimp only

theorem retarget_kept {o : State} (s : State) (hmem : Kept o s) : Kept o (retarget s) := by
  unfold retarget
  with_reducible repeat' first
    | assumption | intro _ | apply updCore_kept | refine foldl_kept _ (fun _ _ _ => ?_) _ _ ?_ | refine ite_kept _ _ ?_ ?_
    | simp only [kept_mk] | split | dsimp only

@[simp] theorem serveJob_mem (s : State) (x : Nat × Nat) : (serveJob s x).mem = s.mem := by
  unfold serveJob
  with_reducible repeat' first | rfl | intro _ | simp only [setJob_mem, apply_ite State.mem, ite_self] | split | dsimp only

theorem serveJob_kept {o : State} (s : State) (x : Nat × Nat) (hmem : Kept o s) : Kept o (serveJob s x) := by
  unfold serveJob
  with_reducible repeat' first
    | assumption | intro _ | apply setJob_kept | refine ite_kept _ _ ?_ ?_ | simp only [kept_mk] | split | dsimp only

@[simp] theorem readSensors_mem (rep : WindowReport) (s : State) : (readSensors rep s).mem = s.mem := by
  unfold readSensors
  with_reducible repeat' first | rfl | intro _ | simp only [apply_ite State.mem, ite_self] | split | dsimp only

theorem readSensors_kept {o : State} (rep : WindowReport) (s : State) (hmem : Kept o s) : Kept o (readSensors rep s) := by
  unfold readSensors
  with_reducible repeat' first | assumption | intro _ | refine ite_kept _ _ ?_ ?_ | simp only [kept_mk] | split | dsimp only

@[simp] theorem estimate_mem (rep : WindowReport) (s : State) : (estimate rep s).mem = s.mem := by
  unfold estimate
  with_reducible repeat' first
    | rfl | intro _ | simp only [retarget_mem, serveJob_mem, apply_ite State.mem, ite_self]
    | refine (foldl_mem _ (fun _ _ => ?_) _ _).trans ?_ | split | dsimp only

theorem estimate_kept {o : State} (rep : WindowReport) (s : State) (hmem : Kept o s) : Kept o (estimate rep s) := by
  unfold estimate
  with_reducible repeat' first
    | assumption | intro _ | apply retarget_kept | apply serveJob_kept | refine foldl_kept _ (fun _ _ _ => ?_) _ _ ?_
    | refine ite_kept _ _ ?_ ?_ | simp only [kept_mk] | split | dsimp only

@[simp] theorem settleQueues_mem (at' : List (Nat × Nat)) (s : State) : (settleQueues at' s).mem = s.mem := by
  unfold settleQueues
  with_reducible repeat' first | rfl | intro _ | simp only [apply_ite State.mem, ite_self] | split | dsimp only

theorem settleQueues_kept {o : State} (at' : List (Nat × Nat)) (s : State) (hmem : Kept o s) : Kept o (settleQueues at' s) := by
  unfold settleQueues
  with_reducible repeat' first | assumption | intro _ | simp only [kept_mk] | split | dsimp only

@[simp] theorem attributeJob_mem (s : State) (x : Nat × Nat) : (attributeJob s x).mem = s.mem := by
  unfold attributeJob
  with_reducible repeat' first
    | rfl | intro _ | simp only [setJob_mem, setReq_mem, apply_ite State.mem, ite_self]
    | refine (foldl_mem _ (fun _ _ => ?_) _ _).trans ?_ | split | dsimp only

theorem attributeJob_kept {o : State} (s : State) (x : Nat × Nat) (hmem : Kept o s) : Kept o (attributeJob s x) := by
  unfold attributeJob
  with_reducible repeat' first
    | assumption | intro _ | apply setJob_kept | apply setReq_kept | refine foldl_kept _ (fun _ _ _ => ?_) _ _ ?_
    | refine ite_kept _ _ ?_ ?_ | simp only [kept_mk] | split | dsimp only

@[simp] theorem dropEnded_mem (s : State) : (dropEnded s).mem = s.mem := by
  unfold dropEnded
  with_reducible repeat' first | rfl | intro _ | simp only [apply_ite State.mem, ite_self] | split | dsimp only

theorem dropEnded_kept {o : State} (s : State) (hmem : Kept o s) : Kept o (dropEnded s) := by
  unfold dropEnded
  with_reducible repeat' first | assumption | intro _ | simp only [kept_mk] | split | dsimp only

@[simp] theorem domSelWrite_mem (v : Word) (s : State) : (domSelWrite v s).mem = s.mem := by
  unfold domSelWrite
  with_reducible repeat' first
    | rfl | intro _ | simp only [setDom_mem, askDom_mem, apply_ite State.mem, ite_self] | split | dsimp only

theorem domSelWrite_kept {o : State} (v : Word) (s : State) (hmem : Kept o s) : Kept o (domSelWrite v s) := by
  unfold domSelWrite
  with_reducible repeat' first
    | assumption | intro _ | apply setDom_kept | apply askDom_kept | refine ite_kept _ _ ?_ ?_ | simp only [kept_mk] | split
    | dsimp only

@[simp] theorem releasePads_mem (d : Nat) (s : State) : (releasePads d s).mem = s.mem := by
  unfold releasePads
  with_reducible repeat' first
    | rfl | intro _ | simp only [setDom_mem, dueRetrain_mem, apply_ite State.mem, ite_self] | split | dsimp only

theorem releasePads_kept {o : State} (d : Nat) (s : State) (hmem : Kept o s) : Kept o (releasePads d s) := by
  unfold releasePads
  with_reducible repeat' first
    | assumption | intro _ | apply setDom_kept | apply dueRetrain_kept | refine ite_kept _ _ ?_ ?_ | simp only [kept_mk]
    | split | dsimp only

@[simp] theorem padsWrite_mem (v : Word) (s : State) : (padsWrite v s).mem = s.mem := by
  unfold padsWrite
  with_reducible repeat' first
    | rfl | intro _ | simp only [releasePads_mem]
    | refine (foldl_mem _ (fun _ _ => ?_) _ _).trans ?_ | split | dsimp only

theorem padsWrite_kept {o : State} (v : Word) (s : State) (hmem : Kept o s) : Kept o (padsWrite v s) := by
  unfold padsWrite
  with_reducible repeat' first
    | assumption | intro _ | apply releasePads_kept | refine foldl_kept _ (fun _ _ _ => ?_) _ _ ?_ | refine ite_kept _ _ ?_ ?_
    | split | dsimp only

@[simp] theorem smbAnswer_mem (bs : Bytes) (s : State) : (smbAnswer bs s).mem = s.mem := by
  unfold smbAnswer
  with_reducible repeat' first | rfl | intro _ | simp only [apply_ite State.mem, ite_self] | split | dsimp only

theorem smbAnswer_kept {o : State} (bs : Bytes) (s : State) (hmem : Kept o s) : Kept o (smbAnswer bs s) := by
  unfold smbAnswer
  with_reducible repeat' first | assumption | intro _ | simp only [kept_mk] | split | dsimp only

end Sys2Proof.Machine
end

