-- ==== Sys2Proof/Laws/KeptRing.lean ====
section
/-! SUPPORT. Every function of Machine.Ring keeps what `Kept` promises; where it touches no memory a second law says so. -/

namespace Sys2Proof.Machine
open Sys2Proof Numeric

@[simp] theorem setTrg_mem (f : Trg → Trg) (s : State) : (setTrg f s).mem = s.mem := by
  unfold setTrg
  with_reducible repeat' first | rfl | intro _ | simp only [apply_ite State.mem, ite_self] | split | dsimp only

theorem setTrg_kept {o : State} (f : Trg → Trg) (s : State) (hmem : Kept o s) : Kept o (setTrg f s) := by
  unfold setTrg
  with_reducible repeat' first | assumption | intro _ | simp only [kept_mk] | split | dsimp only

@[simp] theorem discardKeys_mem (s : State) : (discardKeys s).mem = s.mem := by
  unfold discardKeys
  with_reducible repeat' first | rfl | intro _ | simp only [setTrg_mem] | split | dsimp only

theorem discardKeys_kept {o : State} (s : State) (hmem : Kept o s) : Kept o (discardKeys s) := by
  unfold discardKeys
  with_reducible repeat' first | assumption | intro _ | apply setTrg_kept | simp only [kept_mk] | split | dsimp only

@[simp] theorem samplesArrive_mem (slot : Nat) (vs : List (Option Int)) (s : State) : (samplesArrive slot vs s).mem = s.mem :=
    by
  unfold samplesArrive
  with_reducible repeat' first | rfl | intro _ | simp only [setCtx_mem] | split | dsimp only

theorem samplesArrive_kept {o : State} (slot : Nat) (vs : List (Option Int)) (s : State) (hmem : Kept o s) : Kept o
    (samplesArrive slot vs s) := by
  unfold samplesArrive
  with_reducible repeat' first | assumption | intro _ | apply setCtx_kept | simp only [kept_mk] | split | dsimp only

@[simp] theorem verifyTag_mem (slot : Nat) (x : RxSlot) (tagged : Bool) (s : State) : (verifyTag slot x tagged s).mem = s.mem :=
    by
  unfold verifyTag
  with_reducible repeat' first
    | rfl | intro _ | simp only [setTrg_mem, samplesArrive_mem, apply_ite State.mem, ite_self] | split | dsimp only

theorem verifyTag_kept {o : State} (slot : Nat) (x : RxSlot) (tagged : Bool) (s : State) (hmem : Kept o s) : Kept o (verifyTag
    slot x tagged s) := by
  unfold verifyTag
  with_reducible repeat' first
    | assumption | intro _ | apply setTrg_kept | apply samplesArrive_kept | refine ite_kept _ _ ?_ ?_
    | split | dsimp only

@[simp] theorem pushWord_mem (slot : Nat) (w : Word) (valid intact : Bool) (s : State) : (pushWord slot w valid intact s).mem =
    s.mem := by
  unfold pushWord
  with_reducible repeat' first
    | rfl | intro _ | simp only [setTrg_mem, samplesArrive_mem, verifyTag_mem, apply_ite State.mem, ite_self] | split
    | dsimp only

theorem pushWord_kept {o : State} (slot : Nat) (w : Word) (valid intact : Bool) (s : State) (hmem : Kept o s) : Kept o (pushWord
    slot w valid intact s) := by
  unfold pushWord
  with_reducible repeat' first
    | assumption | intro _ | apply setTrg_kept | apply samplesArrive_kept | apply verifyTag_kept | refine ite_kept _ _ ?_ ?_
    | simp only [kept_mk] | split | dsimp only

@[simp] theorem readSlot_mem (f slot : Nat) (w : Word) (valid intact : Bool) (s : State) : (readSlot f slot w valid intact
    s).mem = s.mem := by
  unfold readSlot
  with_reducible repeat' first
    | rfl | intro _ | simp only [setTrg_mem, pushWord_mem, apply_ite State.mem, ite_self] | split | dsimp only

theorem readSlot_kept {o : State} (f slot : Nat) (w : Word) (valid intact : Bool) (s : State) (hmem : Kept o s) : Kept o
    (readSlot f slot w valid intact s) := by
  unfold readSlot
  with_reducible repeat' first
    | assumption | intro _ | apply setTrg_kept | apply pushWord_kept | refine ite_kept _ _ ?_ ?_ | split | dsimp only

@[simp] theorem counterRead_mem (s : State) : (counterRead s).mem = s.mem := by
  unfold counterRead
  with_reducible repeat' first
    | rfl | intro _ | simp only [setTrg_mem, discardKeys_mem, apply_ite State.mem, ite_self] | split | dsimp only

theorem counterRead_kept {o : State} (s : State) (hmem : Kept o s) : Kept o (counterRead s) := by
  unfold counterRead
  with_reducible repeat' first
    | assumption | intro _ | apply setTrg_kept | apply discardKeys_kept | refine ite_kept _ _ ?_ ?_ | simp only [kept_mk]
    | split | dsimp only

@[simp] theorem tapFrame_mem (sync : RingSym) (bs : Bytes) (f : Nat) (k : FrameKind) (s : State) : (tapFrame sync bs f k s).mem
    = s.mem := by
  unfold tapFrame
  with_reducible repeat' first
    | rfl | intro _ | simp only [setTrg_mem, readSlot_mem, counterRead_mem, apply_ite State.mem, ite_self]
    | refine (foldl_mem _ (fun _ _ => ?_) _ _).trans ?_ | split | dsimp only

theorem tapFrame_kept {o : State} (sync : RingSym) (bs : Bytes) (f : Nat) (k : FrameKind) (s : State) (hmem : Kept o s) : Kept o
    (tapFrame sync bs f k s) := by
  unfold tapFrame
  with_reducible repeat' first
    | assumption | intro _ | apply setTrg_kept | apply readSlot_kept | apply counterRead_kept
    | refine foldl_kept _ (fun _ _ _ => ?_) _ _ ?_ | refine ite_kept _ _ ?_ ?_ | simp only [kept_mk] | split | dsimp only

@[simp] theorem masterFrame_mem (bs : Bytes) (f : Nat) (k : FrameKind) (lat : Nat) (s : State) : (masterFrame bs f k lat s).mem
    = s.mem := by
  unfold masterFrame
  with_reducible repeat' first
    | rfl | intro _ | simp only [setTrg_mem, readSlot_mem]
    | refine (foldl_mem _ (fun _ _ => ?_) _ _).trans ?_ | split | dsimp only

theorem masterFrame_kept {o : State} (bs : Bytes) (f : Nat) (k : FrameKind) (lat : Nat) (s : State) (hmem : Kept o s) : Kept o
    (masterFrame bs f k lat s) := by
  unfold masterFrame
  with_reducible repeat' first
    | assumption | intro _ | apply setTrg_kept | apply readSlot_kept | refine foldl_kept _ (fun _ _ _ => ?_) _ _ ?_
    | refine ite_kept _ _ ?_ ?_ | simp only [kept_mk] | split | dsimp only

@[simp] theorem takeFrame_mem (syms : List RingSym) (lat : Nat) (s : State) : (takeFrame syms lat s).mem = s.mem := by
  unfold takeFrame
  with_reducible repeat' first
    | rfl | intro _ | simp only [setTrg_mem, tapFrame_mem, masterFrame_mem, apply_ite State.mem, ite_self] | split
    | dsimp only

theorem takeFrame_kept {o : State} (syms : List RingSym) (lat : Nat) (s : State) (hmem : Kept o s) : Kept o (takeFrame syms lat
    s) := by
  unfold takeFrame
  with_reducible repeat' first
    | assumption | intro _ | apply setTrg_kept | apply tapFrame_kept | apply masterFrame_kept | refine ite_kept _ _ ?_ ?_
    | simp only [kept_mk] | split | dsimp only

@[simp] theorem acquire_mem (syms : List RingSym) (lat : Nat) (s : State) : (acquire syms lat s).mem = s.mem := by
  unfold acquire
  with_reducible repeat' first
    | rfl | intro _ | simp only [setTrg_mem, takeFrame_mem, apply_ite State.mem, ite_self] | split | dsimp only

theorem acquire_kept {o : State} (syms : List RingSym) (lat : Nat) (s : State) (hmem : Kept o s) : Kept o (acquire syms lat s)
    := by
  unfold acquire
  with_reducible repeat' first
    | assumption | intro _ | apply setTrg_kept | apply takeFrame_kept | refine ite_kept _ _ ?_ ?_ | simp only [kept_mk]
    | split | dsimp only

@[simp] theorem trgWrite_mem (v : Word) (s : State) : (trgWrite v s).mem = s.mem := by
  unfold trgWrite
  with_reducible repeat' first
    | rfl | intro _ | simp only [setTrg_mem, discardKeys_mem, apply_ite State.mem, ite_self] | split | dsimp only

theorem trgWrite_kept {o : State} (v : Word) (s : State) (hmem : Kept o s) : Kept o (trgWrite v s) := by
  unfold trgWrite
  with_reducible repeat' first
    | assumption | intro _ | apply setTrg_kept | apply discardKeys_kept | refine ite_kept _ _ ?_ ?_ | simp only [kept_mk]
    | split | dsimp only

end Sys2Proof.Machine
end

