-- ==== Sys2Proof/Laws/KeptSecurity.lean ====
section
/-! SUPPORT. Every function of Machine.Security keeps what `Kept` promises; where it touches no memory a second law says so. -/

namespace Sys2Proof.Machine
open Sys2Proof Numeric

@[simp] theorem setResponder_mem (f : Nat) (g : Spdm → Spdm) (s : State) : (setResponder f g s).mem = s.mem := by
  unfold setResponder
  with_reducible repeat' first | rfl | intro _ | simp only [apply_ite State.mem, ite_self] | split | dsimp only

theorem setResponder_kept {o : State} (f : Nat) (g : Spdm → Spdm) (s : State) (hmem : Kept o s) : Kept o (setResponder f g s) :=
    by
  unfold setResponder
  with_reducible repeat' first | assumption | intro _ | simp only [kept_mk] | split | dsimp only

@[simp] theorem answerDoe_mem (f : Nat) (bs : Bytes) (s : State) : (answerDoe f bs s).mem = s.mem := by
  unfold answerDoe
  with_reducible repeat' first
    | rfl | intro _ | simp only [setResponder_mem] | split | dsimp only

theorem answerDoe_kept {o : State} (f : Nat) (bs : Bytes) (s : State) (hmem : Kept o s) : Kept o (answerDoe f bs s) := by
  unfold answerDoe
  with_reducible repeat' first | assumption | intro _ | apply setResponder_kept | simp only [kept_mk] | split | dsimp only

@[simp] theorem spdmError_mem (f code : Nat) (data : Bytes) (s : State) : (spdmError f code data s).mem = s.mem := by
  unfold spdmError
  with_reducible repeat' first | rfl | intro _ | simp only [answerDoe_mem] | split | dsimp only

theorem spdmError_kept {o : State} (f code : Nat) (data : Bytes) (s : State) (hmem : Kept o s) : Kept o (spdmError f code data
    s) := by
  unfold spdmError
  with_reducible repeat' first | assumption | intro _ | apply answerDoe_kept | split | dsimp only

@[simp] theorem notReady_mem (f : Nat) (code token : Byte) (s : State) : (notReady f code token s).mem = s.mem := by
  unfold notReady
  with_reducible repeat' first | rfl | intro _ | simp only [spdmError_mem] | split | dsimp only

theorem notReady_kept {o : State} (f : Nat) (code token : Byte) (s : State) (hmem : Kept o s) : Kept o (notReady f code token s)
    := by
  unfold notReady
  with_reducible repeat' first | assumption | intro _ | apply spdmError_kept | refine ite_kept _ _ ?_ ?_ | split | dsimp only

theorem connected_kept {o : State} (f : Nat) (g : State → State) (s : State) (hg : ∀ s, Kept o s → Kept o (g s)) (hmem : Kept o
    s) :
    Kept o (connected f g s) := by
  unfold connected
  split
  · exact hg _ hmem
  · exact spdmError_kept _ _ _ _ hmem

@[simp] theorem vendorAnswer_mem (protocol : Nat) (bs : Bytes) (s : State) : (vendorAnswer protocol bs s).mem = s.mem := by
  unfold vendorAnswer
  with_reducible repeat' first | rfl | intro _ | simp only [answerDoe_mem] | split | dsimp only

theorem vendorAnswer_kept {o : State} (protocol : Nat) (bs : Bytes) (s : State) (hmem : Kept o s) : Kept o (vendorAnswer
    protocol bs s) := by
  unfold vendorAnswer
  with_reducible repeat' first | assumption | intro _ | apply answerDoe_kept | split | dsimp only

@[simp] theorem tdispAnswer_mem (code t : Nat) (rest : Bytes) (s : State) : (tdispAnswer code t rest s).mem = s.mem := by
  unfold tdispAnswer
  with_reducible repeat' first
    | rfl | intro _ | simp only [vendorAnswer_mem] | split | dsimp only

theorem tdispAnswer_kept {o : State} (code t : Nat) (rest : Bytes) (s : State) (hmem : Kept o s) : Kept o (tdispAnswer code t
    rest s) := by
  unfold tdispAnswer
  with_reducible repeat' first | assumption | intro _ | apply vendorAnswer_kept | split | dsimp only

@[simp] theorem tdispError_mem (t code : Nat) (s : State) : (tdispError t code s).mem = s.mem := by
  unfold tdispError
  with_reducible repeat' first
    | rfl | intro _ | simp only [tdispAnswer_mem] | split | dsimp only

theorem tdispError_kept {o : State} (t code : Nat) (s : State) (hmem : Kept o s) : Kept o (tdispError t code s) := by
  unfold tdispError
  with_reducible repeat' first | assumption | intro _ | apply tdispAnswer_kept | split | dsimp only

theorem tdiFails_kept {o : State} (t : Nat) (s : State) (hmem : Kept o s) : Kept o (tdiFails t s) := by
  unfold tdiFails
  with_reducible repeat' first
    | assumption | intro _ | apply setTsec_kept | apply tenantScrub_kept | simp only [kept_mk] | split | dsimp only

theorem tdisFail_kept {o : State} (p : TenantSec → Bool) (s : State) (hmem : Kept o s) : Kept o (tdisFail p s) := by
  unfold tdisFail
  with_reducible repeat' first
    | assumption | intro _ | apply tdiFails_kept | refine foldl_kept _ (fun _ _ _ => ?_) _ _ ?_ | refine ite_kept _ _ ?_ ?_
    | split | dsimp only

@[simp] theorem lockTdi_mem (t stream : Nat) (s : State) : (lockTdi t stream s).mem = s.mem := by
  unfold lockTdi
  with_reducible repeat' first
    | rfl | intro _ | simp only [State.spend_mem, setTsec_mem, tdispAnswer_mem] | split
    | dsimp only

theorem lockTdi_kept {o : State} (t stream : Nat) (s : State) (hmem : Kept o s) : Kept o (lockTdi t stream s) := by
  unfold lockTdi
  with_reducible repeat' first
    | assumption | intro _ | apply State.spend_kept | apply setTsec_kept | apply tdispAnswer_kept | simp only [kept_mk]
    | split | dsimp only

theorem stopTdi_kept {o : State} (t : Nat) (s : State) (hmem : Kept o s) : Kept o (stopTdi t s) := by
  unfold stopTdi
  with_reducible repeat' first
    | assumption | intro _ | apply setTsec_kept | apply tenantScrub_kept | apply tdispAnswer_kept | refine ite_kept _ _ ?_ ?_
    | simp only [kept_mk] | split | dsimp only

theorem runTdisp_kept {o : State} (req : TdispReq) (s : State) (hmem : Kept o s) : Kept o (runTdisp req s) := by
  unfold runTdisp
  with_reducible repeat' first
    | assumption | intro _ | apply setTsec_kept | apply tdispAnswer_kept | apply tdispError_kept | apply lockTdi_kept
    | apply stopTdi_kept | refine ite_kept _ _ ?_ ?_ | split | dsimp only

@[simp] theorem runChallenge_mem (f slot : Nat) (nonce : Bytes) (s : State) : (runChallenge f slot nonce s).mem = s.mem := by
  unfold runChallenge
  with_reducible repeat' first
    | rfl | intro _ | simp only [State.spend_mem, answerDoe_mem, spdmError_mem, apply_ite State.mem, ite_self] | split
    | dsimp only

theorem runChallenge_kept {o : State} (f slot : Nat) (nonce : Bytes) (s : State) (hmem : Kept o s) : Kept o (runChallenge f slot
    nonce s) := by
  unfold runChallenge
  with_reducible repeat' first
    | assumption | intro _ | apply State.spend_kept | apply answerDoe_kept | apply spdmError_kept | refine ite_kept _ _ ?_ ?_
    | split | dsimp only

@[simp] theorem runMeasurements_mem (f index : Nat) (signed : Bool) (nonce : Bytes) (s : State) : (runMeasurements f index
    signed nonce s).mem = s.mem := by
  unfold runMeasurements
  with_reducible repeat' first
    | rfl | intro _ | simp only [State.spend_mem, answerDoe_mem, spdmError_mem] | split
    | dsimp only

theorem runMeasurements_kept {o : State} (f index : Nat) (signed : Bool) (nonce : Bytes) (s : State) (hmem : Kept o s) : Kept o
    (runMeasurements f index signed nonce s) := by
  unfold runMeasurements
  with_reducible repeat' first
    | assumption | intro _ | apply State.spend_kept | apply answerDoe_kept | apply spdmError_kept | refine ite_kept _ _ ?_ ?_
    | split | dsimp only

@[simp] theorem runKeyExchange_mem (f slot reqSession : Nat) (exchange : Bytes) (s : State) : (runKeyExchange f slot reqSession
    exchange s).mem = s.mem := by
  unfold runKeyExchange
  with_reducible repeat' first
    | rfl | intro _
    | simp only [State.spend_mem, setResponder_mem, answerDoe_mem, spdmError_mem, apply_ite State.mem, ite_self] | split
    | dsimp only

theorem runKeyExchange_kept {o : State} (f slot reqSession : Nat) (exchange : Bytes) (s : State) (hmem : Kept o s) : Kept o
    (runKeyExchange f slot reqSession exchange s) := by
  unfold runKeyExchange
  with_reducible repeat' first
    | assumption | intro _ | apply State.spend_kept | apply setResponder_kept | apply answerDoe_kept | apply spdmError_kept
    | refine ite_kept _ _ ?_ ?_ | simp only [kept_mk] | split | dsimp only

theorem runSigned_kept {o : State} (f : Nat) (req : SignedReq) (s : State) (hmem : Kept o s) : Kept o (runSigned f req s) := by
  unfold runSigned
  with_reducible repeat' first
    | assumption | intro _ | apply spdmError_kept | apply connected_kept | apply runTdisp_kept | apply runChallenge_kept
    | apply runMeasurements_kept | apply runKeyExchange_kept | refine ite_kept _ _ ?_ ?_ | simp only [kept_mk] | split
    | dsimp only

theorem signedRequest_kept {o : State} (f : Nat) (code : Byte) (req : SignedReq) (s : State) (hmem : Kept o s) : Kept o
    (signedRequest f code req s) := by
  unfold signedRequest
  with_reducible repeat' first
    | assumption | intro _ | apply setResponder_kept | apply notReady_kept | apply runSigned_kept | refine ite_kept _ _ ?_ ?_
    | simp only [kept_mk] | split | dsimp only

@[simp] theorem updSession_mem (f : Nat) (id : Word) (g : Session → Session) (s : State) : (updSession f id g s).mem = s.mem :=
    by
  unfold updSession
  with_reducible repeat' first
    | rfl | intro _ | simp only [setResponder_mem] | split | dsimp only

theorem updSession_kept {o : State} (f : Nat) (id : Word) (g : Session → Session) (s : State) (hmem : Kept o s) : Kept o
    (updSession f id g s) := by
  unfold updSession
  with_reducible repeat' first
    | assumption | intro _ | apply setResponder_kept | refine ite_kept _ _ ?_ ?_ | simp only [kept_mk] | split | dsimp only

@[simp] theorem dropSession_mem (f : Nat) (id : Word) (s : State) : (dropSession f id s).mem = s.mem := by
  unfold dropSession
  with_reducible repeat' first
    | rfl | intro _ | simp only [setResponder_mem] | split | dsimp only

theorem dropSession_kept {o : State} (f : Nat) (id : Word) (s : State) (hmem : Kept o s) : Kept o (dropSession f id s) := by
  unfold dropSession
  with_reducible repeat' first | assumption | intro _ | apply setResponder_kept | simp only [kept_mk] | split | dsimp only

theorem inSession_kept {o : State} (f : Nat) (id : Word) (g : State → State) (s : State) (hg : ∀ s, Kept o s → Kept o (g s))
    (hmem : Kept o s) :
    Kept o (inSession f id g s) := by
  unfold inSession
  split
  · exact hg _ hmem
  · exact spdmError_kept _ _ _ _ hmem

@[simp] theorem setStream_mem (i : Nat) (f : IdeStream → IdeStream) (s : State) : (setStream i f s).mem = s.mem := by
  unfold setStream
  with_reducible repeat' first | rfl | intro _ | simp only [apply_ite State.mem, ite_self] | split | dsimp only

theorem setStream_kept {o : State} (i : Nat) (f : IdeStream → IdeStream) (s : State) (hmem : Kept o s) : Kept o (setStream i f
    s) := by
  unfold setStream
  with_reducible repeat' first | assumption | intro _ | simp only [kept_mk] | split | dsimp only

@[simp] theorem kmAck_mem (code status : Nat) (stream : Nat) (info : Nat) (s : State) : (kmAck code status stream info s).mem =
    s.mem := by
  unfold kmAck
  with_reducible repeat' first
    | rfl | intro _ | simp only [vendorAnswer_mem] | split | dsimp only

theorem kmAck_kept {o : State} (code status : Nat) (stream : Nat) (info : Nat) (s : State) (hmem : Kept o s) : Kept o (kmAck
    code status stream info s) := by
  unfold kmAck
  with_reducible repeat' first | assumption | intro _ | apply vendorAnswer_kept | split | dsimp only

theorem loseStream_kept {o : State} (stream : Nat) (s : State) (hmem : Kept o s) : Kept o (loseStream stream s) := by
  unfold loseStream
  with_reducible repeat' first | assumption | intro _ | apply tdisFail_kept | split | dsimp only

@[simp] theorem confAccount_mem (t p : Nat) (s : State) : (confAccount t p s).mem = s.mem := by
  unfold confAccount
  with_reducible repeat' first
    | rfl | intro _ | simp only [installAcct_mem] | split | dsimp only

theorem confAccount_kept {o : State} (t p : Nat) (s : State) (hmem : Kept o s) : Kept o (confAccount t p s) := by
  unfold confAccount
  with_reducible repeat' first
    | assumption | intro _ | apply installAcct_kept | refine ite_kept _ _ ?_ ?_ | simp only [kept_mk] | split | dsimp only

@[simp] theorem tenSelWrite_mem (v : Word) (s : State) : (tenSelWrite v s).mem = s.mem := by
  unfold tenSelWrite
  with_reducible repeat' first
    | rfl | intro _ | simp only [setTsec_mem, drawTenantKey_mem, confAccount_mem, apply_ite State.mem]
    | refine (foldl_mem _ (fun _ _ => ?_) _ _).trans ?_ | split | dsimp only

theorem tenSelWrite_kept {o : State} (v : Word) (s : State) (hmem : Kept o s) : Kept o (tenSelWrite v s) := by
  unfold tenSelWrite
  with_reducible repeat' first
    | assumption | intro _ | apply setTsec_kept | apply drawTenantKey_kept | apply confAccount_kept
    | refine foldl_kept _ (fun _ _ _ => ?_) _ _ ?_ | refine ite_kept _ _ ?_ ?_ | simp only [kept_mk] | split | dsimp only

@[simp] theorem setKeySlot_mem (k : Nat) (f : KeySlot → KeySlot) (s : State) : (setKeySlot k f s).mem = s.mem := by
  unfold setKeySlot
  with_reducible repeat' first | rfl | intro _ | simp only [apply_ite State.mem, ite_self] | split | dsimp only

theorem setKeySlot_kept {o : State} (k : Nat) (f : KeySlot → KeySlot) (s : State) (hmem : Kept o s) : Kept o (setKeySlot k f s)
    := by
  unfold setKeySlot
  with_reducible repeat' first | assumption | intro _ | simp only [kept_mk] | split | dsimp only

@[simp] theorem kslotWrite_mem (v : Word) (s : State) : (kslotWrite v s).mem = s.mem := by
  unfold kslotWrite
  with_reducible repeat' first
    | rfl | intro _ | simp only [setKeySlot_mem, apply_ite State.mem, ite_self] | split | dsimp only

theorem kslotWrite_kept {o : State} (v : Word) (s : State) (hmem : Kept o s) : Kept o (kslotWrite v s) := by
  unfold kslotWrite
  with_reducible repeat' first
    | assumption | intro _ | apply setKeySlot_kept | refine ite_kept _ _ ?_ ?_ | simp only [kept_mk] | split | dsimp only

@[simp] theorem rkeyWrite_mem (v : Word) (s : State) : (rkeyWrite v s).mem = s.mem := by
  unfold rkeyWrite
  with_reducible repeat' first | rfl | intro _ | simp only [setTrg_mem] | split | dsimp only

theorem rkeyWrite_kept {o : State} (v : Word) (s : State) (hmem : Kept o s) : Kept o (rkeyWrite v s) := by
  unfold rkeyWrite
  with_reducible repeat' first | assumption | intro _ | apply setTrg_kept | simp only [kept_mk] | split | dsimp only

end Sys2Proof.Machine
end

