-- ==== Sys2Proof/Laws/KeptBoot.lean ====
section
/-! SUPPORT. Every function of Machine.Boot keeps what `Kept` promises; where it touches no memory a second law says so. -/

namespace Sys2Proof.Machine
open Sys2Proof Numeric

theorem bootCtrlWrite_kept {o : State} (v : Word) (s : State) (hmem : Kept o s) : Kept o (bootCtrlWrite v s) := by
  unfold bootCtrlWrite
  with_reducible repeat' first
    | assumption | intro _ | apply packageReset_kept | refine ite_kept _ _ ?_ ?_ | split | dsimp only
    | rfl | refine Kept.boots ?_ _ _ _ _ _ _ _ _ _ _ _ _ _ _ _ _ ?_ ?_

@[simp] theorem startDram_mem (rep : StartReport) (s : State) : (startDram rep s).mem = s.mem := by
  unfold startDram
  with_reducible repeat' first
    | rfl | intro _ | simp only [setChan_mem]
    | refine (foldl_mem _ (fun _ _ => ?_) _ _).trans ?_ | split | dsimp only

theorem startDram_kept {o : State} (rep : StartReport) (s : State) (hmem : Kept o s) : Kept o (startDram rep s) := by
  unfold startDram
  with_reducible repeat' first
    | assumption | intro _ | apply setChan_kept | refine foldl_kept _ (fun _ _ _ => ?_) _ _ ?_ | refine ite_kept _ _ ?_ ?_
    | simp only [kept_mk] | split | dsimp only

@[simp] theorem coresOff_mem (s : State) : (coresOff s).mem = s.mem := by
  unfold coresOff
  with_reducible repeat' first
    | rfl | intro _ | simp only [setDom_mem]
    | refine (foldl_mem _ (fun _ _ => ?_) _ _).trans ?_ | split | dsimp only

theorem coresOff_kept {o : State} (s : State) (hmem : Kept o s) : Kept o (coresOff s) := by
  unfold coresOff
  with_reducible repeat' first
    | assumption | intro _ | apply setDom_kept | refine foldl_kept _ (fun _ _ _ => ?_) _ _ ?_ | simp only [kept_mk] | split
    | dsimp only

@[simp] theorem fwResult_mem (code : Nat) (s : State) : (fwResult code s).mem = s.mem := by
  unfold fwResult
  with_reducible repeat' first | rfl | intro _ | simp only [apply_ite State.mem, ite_self] | split | dsimp only

theorem fwResult_kept {o : State} (code : Nat) (s : State) (hmem : Kept o s) : Kept o (fwResult code s) := by
  unfold fwResult
  with_reducible repeat' first
    | assumption | intro _ | split | dsimp only | rfl
    | refine Kept.boots ?_ _ _ _ _ _ _ _ _ _ _ _ _ _ _ _ _ ?_ ?_

theorem beginActivation_kept {o : State} (s : State) (hmem : Kept o s) : Kept o (beginActivation s) := by
  unfold beginActivation
  with_reducible repeat' first
    | assumption | intro _ | apply tdisFail_kept | split | dsimp only | rfl
    | refine Kept.boots ?_ _ _ _ _ _ _ _ _ _ _ _ _ _ _ _ _ ?_ ?_

theorem activateNow_kept {o : State} (s : State) (hmem : Kept o s) : Kept o (activateNow s) := by
  unfold activateNow
  with_reducible repeat' first
    | assumption | intro _ | apply fwResult_kept | apply beginActivation_kept | refine ite_kept _ _ ?_ ?_ | split | dsimp only

@[simp] theorem activateAtReset_mem (s : State) : (activateAtReset s).mem = s.mem := by
  unfold activateAtReset
  with_reducible repeat' first | rfl | intro _ | simp only [fwResult_mem, apply_ite State.mem, ite_self] | split | dsimp only

theorem activateAtReset_kept {o : State} (s : State) (hmem : Kept o s) : Kept o (activateAtReset s) := by
  unfold activateAtReset
  with_reducible repeat' first
    | assumption | intro _ | apply fwResult_kept | refine ite_kept _ _ ?_ ?_ | split | dsimp only | rfl
    | refine Kept.boots ?_ _ _ _ _ _ _ _ _ _ _ _ _ _ _ _ _ ?_ ?_

theorem flashSlot_kept {o : State} (b : Bool) (img : Bytes) (s : State) (hmem : Kept o s) : Kept o (flashSlot b img s) := by
  unfold flashSlot
  with_reducible repeat' first
    | assumption | intro _ | refine ite_kept _ _ ?_ ?_ | exact Kept.wf (by assumption) (by assumption)
    | apply Memory.wf_clrEfl | apply Memory.wf_wrEfl | refine Kept.wf ?_ ?_ | split | dsimp only
    | refine Kept.mems ?_ _ _ _ _ _ _ _ _ _ _ _ _ _ _ _ _ ?_

@[simp] theorem fwIdle_mem (s : State) : (fwIdle s).mem = s.mem := by
  unfold fwIdle
  with_reducible repeat' first | rfl | intro _ | simp only [apply_ite State.mem, ite_self] | split | dsimp only

theorem fwIdle_kept {o : State} (s : State) (hmem : Kept o s) : Kept o (fwIdle s) := by
  unfold fwIdle
  with_reducible repeat' first
    | assumption | intro _ | split | dsimp only | rfl
    | refine Kept.boots ?_ _ _ _ _ _ _ _ _ _ _ _ _ _ _ _ _ ?_ ?_

theorem finishStage_kept {o : State} (flashOk : Bool) (s : State) (hmem : Kept o s) : Kept o (finishStage flashOk s) := by
  unfold finishStage
  with_reducible repeat' first
    | assumption | intro _ | apply fwResult_kept | apply flashSlot_kept | apply fwIdle_kept | refine ite_kept _ _ ?_ ?_
    | split | dsimp only | rfl | refine Kept.boots ?_ _ _ _ _ _ _ _ _ _ _ _ _ _ _ _ _ ?_ ?_

@[simp] theorem startCommit_mem (s : State) : (startCommit s).mem = s.mem := by
  unfold startCommit
  with_reducible repeat' first | rfl | intro _ | simp only [apply_ite State.mem, ite_self] | split | dsimp only

theorem startCommit_kept {o : State} (s : State) (hmem : Kept o s) : Kept o (startCommit s) := by
  unfold startCommit
  with_reducible repeat' first
    | assumption | intro _ | refine ite_kept _ _ ?_ ?_ | split | dsimp only | rfl
    | refine Kept.boots ?_ _ _ _ _ _ _ _ _ _ _ _ _ _ _ _ _ ?_ ?_

@[simp] theorem discardPending_mem (s : State) : (discardPending s).mem = s.mem := by
  unfold discardPending
  with_reducible repeat' first | rfl | intro _ | simp only [apply_ite State.mem, ite_self] | split | dsimp only

theorem discardPending_kept {o : State} (s : State) (hmem : Kept o s) : Kept o (discardPending s) := by
  unfold discardPending
  with_reducible repeat' first
    | assumption | intro _ | split | dsimp only | rfl
    | refine Kept.boots ?_ _ _ _ _ _ _ _ _ _ _ _ _ _ _ _ _ ?_ ?_

end Sys2Proof.Machine
end

