-- ==== Sys2Proof/Laws/KeptGate.lean ====
section
/-! SUPPORT. Every function of Machine.Gate keeps what `Kept` promises; where it touches no memory a second law says so. -/

namespace Sys2Proof.Machine
open Sys2Proof Numeric

theorem writeResults_kept {o : State} (c dst step w : Nat) (rows : List ResRow) (stats : Option (Nat × List FVal)) (nonfin :
    Bool) (p : Bool) (s : State) (hmem : Kept o s) : Kept o (writeResults c dst step w rows stats nonfin p s) := by
  unfold writeResults
  with_reducible repeat' first
    | assumption | intro _ | apply updCore_kept | apply putRows_kept | apply putPart_kept
    | refine foldl_kept _ (fun _ _ _ => ?_) _ _ ?_ | simp only [kept_mk] | split | dsimp only

theorem runDrain_kept {o : State} (c : Nat) (d : DrainOp) (p : Bool) (s : State) (hmem : Kept o s) : Kept o (runDrain c d p s)
    := by
  unfold runDrain
  with_reducible repeat' first
    | assumption | intro _ | apply writeResults_kept | refine ite_kept _ _ ?_ ?_ | split | dsimp only

theorem issueDrain_kept {o : State} (c : Nat) (s : State) (hmem : Kept o s) : Kept o (issueDrain c s) := by
  unfold issueDrain
  with_reducible repeat' first
    | assumption | intro _ | apply State.spend_kept | apply issueError_kept | apply issueRows_kept | apply runDrain_kept
    | refine ite_kept _ _ ?_ ?_ | split | dsimp only

theorem writeGate_kept {o : State} (c : Nat) (g : GateOp) (step w : Nat) (rows : List ResRow) (p : Bool) (s : State) (hmem :
    Kept o s) : Kept o (writeGate c g step w rows p s) := by
  unfold writeGate
  with_reducible repeat' first | assumption | intro _ | apply writeResults_kept | split | dsimp only

theorem runGfn_kept {o : State} (c : Nat) (g : GateOp) (p : Bool) (s : State) (hmem : Kept o s) : Kept o (runGfn c g p s) := by
  unfold runGfn
  with_reducible repeat' first | assumption | intro _ | apply writeGate_kept | split | dsimp only

theorem runGate2_kept {o : State} (c : Nat) (g : GateOp) (p : Bool) (s : State) (hmem : Kept o s) : Kept o (runGate2 c g p s) :=
    by
  unfold runGate2
  with_reducible repeat' first | assumption | intro _ | apply writeGate_kept | split | dsimp only

theorem runReduce_kept {o : State} (c : Nat) (g : GateOp) (p : Bool) (s : State) (hmem : Kept o s) : Kept o (runReduce c g p s)
    := by
  unfold runReduce
  with_reducible repeat' first | assumption | intro _ | apply putPart_kept | apply writeGate_kept | split | dsimp only

theorem runGquant_kept {o : State} (c : Nat) (g : GateOp) (p : Bool) (s : State) (hmem : Kept o s) : Kept o (runGquant c g p s)
    := by
  unfold runGquant
  with_reducible repeat' first | assumption | intro _ | apply writeGate_kept | refine ite_kept _ _ ?_ ?_ | split | dsimp only

theorem runGscale_kept {o : State} (c : Nat) (g : GateOp) (p : Bool) (s : State) (hmem : Kept o s) : Kept o (runGscale c g p s)
    := by
  unfold runGscale
  with_reducible repeat' first
    | assumption | intro _ | apply updCore_kept | apply putRow_kept | apply putPart_kept | simp only [kept_mk] | split
    | dsimp only

end Sys2Proof.Machine
end

