-- ==== Sys2Proof/Laws/KeptJtag.lean ====
section
/-! SUPPORT. Every function of Machine.Jtag keeps what `Kept` promises; where it touches no memory a second law says so. -/

namespace Sys2Proof.Machine
open Sys2Proof

@[simp] theorem shiftOut_mem (v : Word) (s : State) : (shiftOut v s).mem = s.mem := by
  unfold shiftOut
  with_reducible repeat' first | rfl | intro _ | simp only [apply_ite State.mem, ite_self] | split | dsimp only

theorem shiftOut_kept {o : State} (v : Word) (s : State) (hmem : Kept o s) : Kept o (shiftOut v s) := by
  unfold shiftOut
  with_reducible repeat' first | assumption | intro _ | simp only [kept_mk] | split | dsimp only

end Sys2Proof.Machine
end

