-- ==== Sys2Proof/Laws/KeptRegRead.lean ====
section
/-! SUPPORT. Every function of Machine.RegRead keeps what `Kept` promises; where it touches no memory a second law says so. -/

namespace Sys2Proof.Machine
open Sys2Proof Numeric

@[simp] theorem lowRead_mem (f off : Nat) (s : State) : (lowRead f off s).mem = s.mem := by
  unfold lowRead
  with_reducible repeat' first | rfl | intro _ | simp only [setFunc_mem, apply_ite State.mem, ite_self] | split | dsimp only

theorem lowRead_kept {o : State} (f off : Nat) (s : State) (hmem : Kept o s) : Kept o (lowRead f off s) := by
  unfold lowRead
  with_reducible repeat' first
    | assumption | intro _ | apply setFunc_kept | refine ite_kept _ _ ?_ ?_ | split | dsimp only

end Sys2Proof.Machine
end

