-- ==== Sys2Proof/Laws/KeptRegisters.lean ====
section
/-! SUPPORT. Every function of Machine.Registers keeps what `Kept` promises; where it touches no memory a second law says so. -/

namespace Sys2Proof.Machine
open Sys2Proof Numeric

theorem fwCmdWrite_kept {o : State} (op : Nat) (s : State) (hmem : Kept o s) : Kept o (fwCmdWrite op s) := by
  unfold fwCmdWrite
  with_reducible repeat' first
    | assumption | intro _ | apply fwResult_kept | apply activateNow_kept | apply activateAtReset_kept
    | refine ite_kept _ _ ?_ ?_ | split | dsimp only

theorem bootStore_kept {old : State} (o : Nat) (v : DWord) (s : State) (hmem : Kept old s) : Kept old (bootStore o v s) := by
  unfold bootStore
  with_reducible repeat' first
    | assumption | intro _ | apply setCal_kept | apply domResetWrite_kept | apply bootCtrlWrite_kept | apply startCommit_kept
    | apply discardPending_kept | apply fwCmdWrite_kept | refine ite_kept _ _ ?_ ?_ | split | dsimp only
    | rfl | refine Kept.boots ?_ _ _ _ _ _ _ _ _ _ _ _ _ _ _ _ _ ?_ ?_

@[simp] theorem limitWrite_mem (v : DWord) (s : State) : (limitWrite v s).mem = s.mem := by
  unfold limitWrite
  with_reducible repeat' first | rfl | intro _ | simp only [apply_ite State.mem, ite_self] | split | dsimp only

theorem limitWrite_kept {o : State} (v : DWord) (s : State) (hmem : Kept o s) : Kept o (limitWrite v s) := by
  unfold limitWrite
  with_reducible repeat' first | assumption | intro _ | refine ite_kept _ _ ?_ ?_ | simp only [kept_mk] | split | dsimp only

@[simp] theorem vfWrite_mem (v : DWord) (s : State) : (vfWrite v s).mem = s.mem := by
  unfold vfWrite
  with_reducible repeat' first | rfl | intro _ | simp only [apply_ite State.mem, ite_self] | split | dsimp only

theorem vfWrite_kept {o : State} (v : DWord) (s : State) (hmem : Kept o s) : Kept o (vfWrite v s) := by
  unfold vfWrite
  with_reducible repeat' first | assumption | intro _ | refine ite_kept _ _ ?_ ?_ | simp only [kept_mk] | split | dsimp only

@[simp] theorem powerStore_mem (o : Nat) (v : DWord) (s : State) : (powerStore o v s).mem = s.mem := by
  unfold powerStore
  with_reducible repeat' first
    | rfl | intro _ | simp only [domSelWrite_mem, padsWrite_mem, limitWrite_mem, vfWrite_mem]
    | split | dsimp only

theorem powerStore_kept {old : State} (o : Nat) (v : DWord) (s : State) (hmem : Kept old s) : Kept old (powerStore o v s) := by
  unfold powerStore
  with_reducible repeat' first
    | assumption | intro _ | apply domSelWrite_kept | apply padsWrite_kept | apply limitWrite_kept | apply vfWrite_kept
    | simp only [kept_mk] | split | dsimp only

@[simp] theorem secStore_mem (o : Nat) (v : DWord) (s : State) : (secStore o v s).mem = s.mem := by
  unfold secStore
  with_reducible repeat' first
    | rfl | intro _ | simp only [tenSelWrite_mem, kslotWrite_mem, rkeyWrite_mem, apply_ite State.mem, ite_self] | split
    | dsimp only

theorem secStore_kept {old : State} (o : Nat) (v : DWord) (s : State) (hmem : Kept old s) : Kept old (secStore o v s) := by
  unfold secStore
  with_reducible repeat' first
    | assumption | intro _ | apply tenSelWrite_kept | apply kslotWrite_kept | apply rkeyWrite_kept | refine ite_kept _ _ ?_ ?_
    | simp only [kept_mk] | split | dsimp only

@[simp] theorem fnCtrlWrite_mem (g : Nat) (v : DWord) (s : State) : (fnCtrlWrite g v s).mem = s.mem := by
  unfold fnCtrlWrite
  with_reducible repeat' first | rfl | intro _ | simp only [setFunc_mem, apply_ite State.mem, ite_self] | split | dsimp only

theorem fnCtrlWrite_kept {o : State} (g : Nat) (v : DWord) (s : State) (hmem : Kept o s) : Kept o (fnCtrlWrite g v s) := by
  unfold fnCtrlWrite
  with_reducible repeat' first
    | assumption | intro _ | apply setFunc_kept | refine ite_kept _ _ ?_ ?_ | simp only [kept_mk] | split | dsimp only

@[simp] theorem setupStore_mem (f g o : Nat) (v : DWord) (s : State) : (setupStore f g o v s).mem = s.mem := by
  unfold setupStore
  with_reducible repeat' first
    | rfl | intro _
    | simp only [setFunc_mem, setEvq_mem, queueSelect_mem, eventConfigure_mem, fnCtrlWrite_mem, apply_ite State.mem, ite_self]
    | split | dsimp only

theorem setupStore_kept {old : State} (f g o : Nat) (v : DWord) (s : State) (hmem : Kept old s) : Kept old (setupStore f g o v
    s) := by
  unfold setupStore
  with_reducible repeat' first
    | assumption | intro _ | apply setFunc_kept | apply setEvq_kept | apply queueSelect_kept | apply eventConfigure_kept
    | apply fnCtrlWrite_kept | refine ite_kept _ _ ?_ ?_ | simp only [kept_mk] | split | dsimp only

@[simp] theorem costWrite_mem (f : Nat) (v : DWord) (s : State) : (costWrite f v s).mem = s.mem := by
  unfold costWrite
  with_reducible repeat' first | rfl | intro _ | simp only [setTenant_mem, apply_ite State.mem, ite_self] | split | dsimp only

theorem costWrite_kept {o : State} (f : Nat) (v : DWord) (s : State) (hmem : Kept o s) : Kept o (costWrite f v s) := by
  unfold costWrite
  with_reducible repeat' first
    | assumption | intro _ | apply setTenant_kept | refine ite_kept _ _ ?_ ?_ | simp only [kept_mk] | split | dsimp only

theorem liftlineStore_kept {old : State} (f o : Nat) (v : DWord) (s : State) (hmem : Kept old s) : Kept old (liftlineStore f o v
    s) := by
  unfold liftlineStore
  with_reducible repeat' first
    | assumption | intro _ | apply partitionWrite_kept | apply versionSelect_kept | apply ctxSelWrite_kept
    | apply costWrite_kept | refine ite_kept _ _ ?_ ?_ | simp only [kept_mk] | split | dsimp only

@[simp] theorem kvStore_mem (o : Nat) (v : DWord) (s : State) : (kvStore o v s).mem = s.mem := by
  unfold kvStore
  with_reducible repeat' first
    | rfl | intro _ | simp only [kvPoolWrite_mem, kvTenantWrite_mem] | split | dsimp only

theorem kvStore_kept {old : State} (o : Nat) (v : DWord) (s : State) (hmem : Kept old s) : Kept old (kvStore o v s) := by
  unfold kvStore
  with_reducible repeat' first
    | assumption | intro _ | apply kvPoolWrite_kept | apply kvTenantWrite_kept | simp only [kept_mk] | split | dsimp only

@[simp] theorem tenantCfgWrite_mem (v : DWord) (s : State) : (tenantCfgWrite v s).mem = s.mem := by
  unfold tenantCfgWrite
  with_reducible repeat' first | rfl | intro _ | simp only [apply_ite State.mem, ite_self] | split | dsimp only

theorem tenantCfgWrite_kept {o : State} (v : DWord) (s : State) (hmem : Kept o s) : Kept o (tenantCfgWrite v s) := by
  unfold tenantCfgWrite
  with_reducible repeat' first | assumption | intro _ | refine ite_kept _ _ ?_ ?_ | simp only [kept_mk] | split | dsimp only

@[simp] theorem laneWrite_mem (v : DWord) (s : State) : (laneWrite v s).mem = s.mem := by
  unfold laneWrite
  with_reducible repeat' first | rfl | intro _ | simp only [setChan_mem, apply_ite State.mem, ite_self] | split | dsimp only

theorem laneWrite_kept {o : State} (v : DWord) (s : State) (hmem : Kept o s) : Kept o (laneWrite v s) := by
  unfold laneWrite
  with_reducible repeat' first
    | assumption | intro _ | apply setChan_kept | refine ite_kept _ _ ?_ ?_ | simp only [kept_mk] | split | dsimp only

@[simp] theorem dramStore_mem (o : Nat) (v : DWord) (s : State) : (dramStore o v s).mem = s.mem := by
  unfold dramStore
  with_reducible repeat' first
    | rfl | intro _ | simp only [regionSelect_mem, accountSelect_mem, laneWrite_mem] | split
    | dsimp only

theorem dramStore_kept {old : State} (o : Nat) (v : DWord) (s : State) (hmem : Kept old s) : Kept old (dramStore o v s) := by
  unfold dramStore
  with_reducible repeat' first
    | assumption | intro _ | apply regionSelect_kept | apply accountSelect_kept | apply laneWrite_kept | simp only [kept_mk]
    | split | dsimp only

@[simp] theorem flashStore_mem (o : Nat) (v : DWord) (s : State) : (flashStore o v s).mem = s.mem := by
  unfold flashStore
  with_reducible repeat' first
    | rfl | intro _ | simp only [blockSelect_mem] | split | dsimp only

theorem flashStore_kept {old : State} (o : Nat) (v : DWord) (s : State) (hmem : Kept old s) : Kept old (flashStore o v s) := by
  unfold flashStore
  with_reducible repeat' first | assumption | intro _ | apply blockSelect_kept | simp only [kept_mk] | split | dsimp only

@[simp] theorem streamStore_mem (f o : Nat) (v : DWord) (s : State) : (streamStore f o v s).mem = s.mem := by
  unfold streamStore
  with_reducible repeat' first
    | rfl | intro _ | simp only [ctxSelectWrite_mem, setCsiPort_mem, apply_ite State.mem] | split | dsimp only

theorem streamStore_kept {old : State} (f o : Nat) (v : DWord) (s : State) (hmem : Kept old s) : Kept old (streamStore f o v s)
    := by
  unfold streamStore
  with_reducible repeat' first
    | assumption | intro _ | apply ctxSelectWrite_kept | apply setCsiPort_kept | refine ite_kept _ _ ?_ ?_
    | simp only [kept_mk] | split | dsimp only

@[simp] theorem ringStore_mem (o : Nat) (v : DWord) (s : State) : (ringStore o v s).mem = s.mem := by
  unfold ringStore
  with_reducible repeat' first
    | rfl | intro _ | simp only [setTrg_mem, trgWrite_mem] | split | dsimp only

theorem ringStore_kept {old : State} (o : Nat) (v : DWord) (s : State) (hmem : Kept old s) : Kept old (ringStore o v s) := by
  unfold ringStore
  with_reducible repeat' first
    | assumption | intro _ | apply setTrg_kept | apply trgWrite_kept | simp only [kept_mk] | split | dsimp only

@[simp] theorem coreStore_mem (f n o : Nat) (v : DWord) (s : State) : (coreStore f n o v s).mem = s.mem := by
  unfold coreStore
  with_reducible repeat' first
    | rfl | intro _
    | simp only [updCore_mem, regionSelWrite_mem, clearNumeric_mem, clearArray_mem, apply_ite State.mem, ite_self] | split
    | dsimp only

theorem coreStore_kept {old : State} (f n o : Nat) (v : DWord) (s : State) (hmem : Kept old s) : Kept old (coreStore f n o v s)
    := by
  unfold coreStore
  with_reducible repeat' first
    | assumption | intro _ | apply updCore_kept | apply regionSelWrite_kept | apply clearNumeric_kept | apply clearArray_kept
    | refine ite_kept _ _ ?_ ?_ | simp only [kept_mk] | split | dsimp only

theorem registerStore_kept {o : State} (f off : Nat) (v : DWord) (s : State) (hmem : Kept o s) : Kept o (registerStore f off v
    s) := by
  unfold registerStore
  with_reducible repeat' first
    | assumption | intro _ | apply audSelectWrite_kept | apply bootStore_kept | apply powerStore_kept | apply secStore_kept
    | apply setupStore_kept | apply liftlineStore_kept | apply kvStore_kept | apply tenantCfgWrite_kept | apply dramStore_kept
    | apply flashStore_kept | apply streamStore_kept | apply ringStore_kept | apply coreStore_kept | refine ite_kept _ _ ?_ ?_
    | simp only [kept_mk] | split | dsimp only

end Sys2Proof.Machine
end

