-- ==== Sys2Proof/Laws/Lines.lean ====
section
/-! SUPPORT. Lines of the shared SRAM and of DRAM: what a write or a zero fill changes and what reads back. -/

namespace Sys2Proof.Machine

open Sys2Proof

theorem Mem.rdN_congr (d : Byte) (m m' : Mem) (a n : Nat) (h : ∀ k, k < n → Mem.rd d m (a + k) = Mem.rd d m' (a + k)) : Mem.rdN d m a n = Mem.rdN d m' a n := by
  unfold Mem.rdN
  exact List.map_congr_left fun k hk => h k (List.mem_range.1 hk)

theorem Mem.rdN_wrN_same (d : Byte) (m : Mem) (a n : Nat) (bs : Bytes) (h : bs.length = n) : Mem.rdN d (Mem.wrN d m a bs) a n = bs := by
  subst h; exact Mem.rdN_wrN _ _ _ _

theorem Mem.rdN_wrN_out (d : Byte) (m : Mem) (a b n : Nat) (bs : Bytes) (h : b + n ≤ a ∨ a + bs.length ≤ b) : Mem.rdN d (Mem.wrN d m a bs) b n = Mem.rdN d m b n :=
  Mem.rdN_congr _ _ _ _ _ fun k hk => Mem.rd_wrN_out _ _ _ _ _ (by omega)

theorem padTo_length (n : Nat) (bs : Bytes) : (padTo n bs).length = n := by simp [padTo, zeros]; omega

theorem LinesStored.refl (k : Nat) (P : Nat → Prop) (s : State) : LinesStored k P s s := ⟨rfl, fun _ _ => rfl, fun _ _ => rfl⟩

theorem LinesStored.trans {k : Nat} {P Q R : Nat → Prop} {s t u : State} (h : LinesStored k P s t) (g : LinesStored k Q t u) (hp : ∀ a, P a → R a) (hq : ∀ a, Q a → R a) : LinesStored k R s u := by
  refine ⟨?_, fun a ha => ?_, fun a ha => ?_⟩
  · rw [g.rest, h.rest]
  · rw [g.sram a (ha.imp id fun e x => e (hq _ x)), h.sram a (ha.imp id fun e x => e (hp _ x))]
  · rw [g.dram a (ha.imp id fun e x => e (hq _ x)), h.dram a (ha.imp id fun e x => e (hp _ x))]

theorem lineTaken_congr {k : Nat} {s t : State} (a : Nat) (h : t.dom = s.dom) (hf : t.fences = s.fences) (hd : t.ddr.gseg = s.ddr.gseg) (hdd : t.ddr.dens = s.ddr.dens) (hg : t.gdl.regions = s.gdl.regions) : lineTaken k t a = lineTaken k s a := by
  unfold lineTaken sramOff groupDom place channels entryOf State.region
  rw [h, hf, hd, hdd, hg]

theorem storeLine_ok (k : Nat) (s : State) (x : Nat × RowData) :
    LinesStored k (fun a => x.1 ≤ a ∧ a < x.1 + 64) s (storeLine k s x) ∧ (storeLine k s x).cores = s.cores ∧
    (lineTaken k s x.1 = true → lineBytes k (storeLine k s x) x.1 = padTo 64 x.2.data) ∧
    (∀ a, a + 64 ≤ x.1 ∨ x.1 + 64 ≤ a → lineBytes k (storeLine k s x) a = lineBytes k s a) ∧ (∀ a, lineTaken k (storeLine k s x) a = lineTaken k s a) ∧ (storeLine k s x).free = s.free := by
  have hl := padTo_length 64 x.2.data
  unfold storeLine
  split
  · next h0 =>
    unfold writeSram
    split
    · next ho => exact ⟨LinesStored.refl _ _ _, rfl, fun h => by simp [lineTaken, h0, ho] at h, fun _ _ => rfl, fun _ => rfl, rfl⟩
    · refine ⟨⟨rfl, fun a ha => ?_, fun a _ => rfl⟩, rfl, fun _ => ?_, fun a ha => ?_, fun a => lineTaken_congr a rfl rfl rfl rfl rfl, rfl⟩
      · rcases ha with ha | ha
        · exact absurd h0 ha
        · exact Mem.rdN_wrN_out _ _ _ _ _ _ (by rw [hl]; omega)
      · unfold lineBytes; rw [if_pos h0]; exact Mem.rdN_wrN_same _ _ _ _ _ hl
      · unfold lineBytes; rw [if_pos h0, if_pos h0]; exact Mem.rdN_wrN_out _ _ _ _ _ _ (by rw [hl]; omega)
  · next h0 =>
    unfold writeLine
    split
    · next ho => exact ⟨LinesStored.refl _ _ _, rfl, fun h => by simp [lineTaken, h0, ho] at h, fun _ _ => rfl, fun _ => rfl, rfl⟩
    · split
      · next ho => exact ⟨LinesStored.refl _ _ _, rfl, fun h => by simp [lineTaken, h0, ho] at h, fun _ _ => rfl, fun _ => rfl, rfl⟩
      · refine ⟨⟨rfl, fun a _ => rfl, fun a ha => ?_⟩, rfl, fun _ => ?_, fun a ha => ?_, fun a => lineTaken_congr a rfl rfl rfl rfl rfl, rfl⟩
        · rcases ha with ha | ha
          · exact absurd ha h0
          · exact Mem.rdN_wrN_out _ _ _ _ _ _ (by rw [hl]; omega)
        · unfold lineBytes; rw [if_neg h0]; exact Mem.rdN_wrN_same _ _ _ _ _ hl
        · unfold lineBytes; rw [if_neg h0, if_neg h0]; exact Mem.rdN_wrN_out _ _ _ _ _ _ (by rw [hl]; omega)

theorem storeLines_ok (k : Nat) (l : List (Nat × RowData)) (s : State) :
    LinesStored k (fun a => ∃ x ∈ l, x.1 ≤ a ∧ a < x.1 + 64) s (l.foldl (storeLine k) s) ∧ (l.foldl (storeLine k) s).cores = s.cores ∧
    (∀ x ∈ l, (∀ y ∈ l, y ≠ x → y.1 + 64 ≤ x.1 ∨ x.1 + 64 ≤ y.1) → lineTaken k s x.1 = true → lineBytes k (l.foldl (storeLine k) s) x.1 = padTo 64 x.2.data) ∧
    (∀ a, (∀ x ∈ l, a + 64 ≤ x.1 ∨ x.1 + 64 ≤ a) → lineBytes k (l.foldl (storeLine k) s) a = lineBytes k s a) ∧ (∀ a, lineTaken k (l.foldl (storeLine k) s) a = lineTaken k s a) ∧ (l.foldl (storeLine k) s).free = s.free := by
  induction l generalizing s with
  | nil => exact ⟨LinesStored.refl _ _ _, rfl, by simp, fun _ _ => rfl, fun _ => rfl, rfl⟩
  | cons y l ih =>
    rw [List.foldl_cons]
    obtain ⟨a1, a2, a3, a4, a5, a6⟩ := storeLine_ok k s y
    obtain ⟨b1, b2, b3, b4, b5, b6⟩ := ih (storeLine k s y)
    refine ⟨a1.trans b1 (fun a h => ⟨y, by simp, h⟩) (fun a ⟨x, hx, h⟩ => ⟨x, by simp [hx], h⟩), b2.trans a2, fun x hx hd ht => ?_, fun a ha => ?_, fun a => (b5 a).trans (a5 a), b6.trans a6⟩
    · by_cases hxl : x ∈ l
      · exact b3 x hxl (fun z hz => hd z (by simp [hz])) (by rw [a5]; exact ht)
      · rcases List.mem_cons.1 hx with rfl | h
        · rw [b4 _ fun z hz => (hd z (by simp [hz]) (fun e => hxl (e ▸ hz))).symm]
          exact a3 ht
        · exact absurd h hxl
    · rw [b4 a fun x hx => ha x (by simp [hx]), a4 a (ha y (by simp))]

theorem writeLine_eq (s : State) (a : Nat) (r : RowData) : writeLine s a r = storeLine 1 s (a, r) := rfl

theorem writeSram_eq (s : State) (a : Nat) (r : RowData) : writeSram s a r = storeLine 0 s (a, r) := rfl

/-- A run of lines of DRAM: bytes outside it stay, and a line that is taken reads as it was written. -/
theorem writeLines_ok (rows : List RowData) (s : State) (a : Nat) :
    LinesStored 1 (fun x => a ≤ x ∧ x < a + 64 * rows.length) s (writeLines s a rows) ∧ (writeLines s a rows).cores = s.cores ∧
    (∀ i (h : i < rows.length), lineTaken 1 s (a + 64 * i) = true →
      lineBytes 1 (writeLines s a rows) (a + 64 * i) = padTo 64 rows[i].data) ∧
    (∀ x, x + 64 ≤ a ∨ a + 64 * rows.length ≤ x → lineBytes 1 (writeLines s a rows) x = lineBytes 1 s x) ∧
    (∀ x, lineTaken 1 (writeLines s a rows) x = lineTaken 1 s x) ∧ (writeLines s a rows).free = s.free := by
  induction rows generalizing s a with
  | nil => exact ⟨(LinesStored.refl 1 _ s), rfl, fun i h => absurd h (by simp), fun _ _ => rfl, fun _ => rfl, rfl⟩
  | cons r rows ih =>
    obtain ⟨a1, a2, a3, a4, a5, a6⟩ := storeLine_ok 1 s (a, r)
    obtain ⟨b1, b2, b3, b4, b5, b6⟩ := ih (storeLine 1 s (a, r)) (a + 64)
    have e : writeLines s a (r :: rows) = writeLines (storeLine 1 s (a, r)) (a + 64) rows := rfl
    rw [e]
    refine ⟨a1.trans b1 (fun x h => ?_) (fun x h => ?_), b2.trans a2, fun i h ht => ?_, fun x hx => ?_,
      fun x => (b5 x).trans (a5 x), b6.trans a6⟩
    · simp only [List.length_cons] at *; omega
    · simp only [List.length_cons] at *; omega
    · cases i with
      | zero =>
        rw [b4 _ (.inl (by omega))]
        exact a3 ht
      | succ i =>
        have ei : a + 64 * (i + 1) = a + 64 + 64 * i := by omega
        rw [ei]
        exact b3 i (by simpa using h) (by rw [a5, ← ei]; exact ht)
    · simp only [List.length_cons] at hx
      rw [b4 x (by omega), a4 x (by simp; omega)]

theorem rdSram_clearSram (s : State) (a n x : Nat) :
    (clearSram s a n).mem.rdSram x 1 = if a ≤ x ∧ x < a + n then [0] else s.mem.rdSram x 1 := by
  show Mem.rdN 0 (Mem.clear s.mem.sram a n) x 1 = _
  unfold Mems.rdSram Mem.rdN
  simp only [List.range_one, List.map_cons, List.map_nil, Nat.add_zero, Mem.rd_clear]
  split <;> simp_all

/-- The units zeroed read zero, every other byte of the shared SRAM as before. -/
theorem zeroUnits_ok (us : List Nat) (s : State) :
    (∀ x, (zeroUnits us s).mem.rdSram x 1 = if x / 4096 ∈ us then [0] else s.mem.rdSram x 1) ∧
    zeroUnits us s = { s with
      mem := { s.mem with sram := (zeroUnits us s).mem.sram }
      gdl := { s.gdl with sramPoison := (zeroUnits us s).gdl.sramPoison } } := by
  unfold zeroUnits
  induction us generalizing s with
  | nil => exact ⟨fun x => rfl, rfl⟩
  | cons u us ih =>
    rw [List.foldl_cons]
    obtain ⟨h1, h2⟩ := ih (clearSram s (4096 * u) 4096)
    refine ⟨fun x => ?_, ?_⟩
    · rw [h1, rdSram_clearSram]
      by_cases hx : x / 4096 ∈ us
      · rw [if_pos hx, if_pos (List.mem_cons_of_mem _ hx)]
      · rw [if_neg hx]
        by_cases hu : x / 4096 = u
        · rw [if_pos (by omega), if_pos (by simp [hu])]
        · rw [if_neg (by omega), if_neg (by simp [hu, hx])]
    · rw [h2]; rfl

end Sys2Proof.Machine
end

