-- ==== Sys2Proof/Laws/Rows.lean ====
section
/-! SUPPORT. The scratchpad rows that an operation touches: what writing rows, parts of rows, results and statistics changes. -/

namespace Sys2Proof.Machine

open Sys2Proof Numeric

/-- From `s` to `t` rows of core `c`'s scratchpad were written, those in `rows`, with poison or without: they are present, and nothing else of the part
has changed but their bytes, their poison flags and the counters of the core's numerical events. -/
structure Touches (c : Nat) (p : Bool) (rows : List Nat) (s t : State) : Prop where
  only : OnlyCore c s t
  core : t.core c = { s.core c with
    presence := (t.core c).presence
    poison := (t.core c).poison
    outSat := (t.core c).outSat
    nonfinite := (t.core c).nonfinite
    fmtErr := (t.core c).fmtErr }
  present : ∀ i, (t.core c).present i = ((s.core c).present i || decide (i ∈ rows))
  poison : ∀ i, i ∉ rows → (t.core c).poison.getLsbD i = (s.core c).poison.getLsbD i
  marked : p = true → ∀ i ∈ rows, (t.core c).poison.getLsbD i = true
  bytes : ∀ a, a / 64 ∉ rows → t.mem.rdSpm c a 1 = s.mem.rdSpm c a 1

theorem Touches.refl (c : Nat) (p : Bool) (s : State) : Touches c p [] s s :=
  ⟨OnlyCore.refl c s, rfl, by simp, fun _ _ => rfl, by simp, fun _ _ => rfl⟩

theorem Touches.trans {c : Nat} {p : Bool} {a b : List Nat} {s t u : State} (h : Touches c p a s t) (k : Touches c p b t u) :
    Touches c p (a ++ b) s u := by
  refine ⟨h.only.trans k.only, ?_, fun i => ?_, fun i hi => ?_, fun hp i hi => ?_, fun x hx => ?_⟩
  · rw [k.core, h.core]
  · rw [k.present, h.present]; simp only [List.mem_append]
    by_cases h1 : i ∈ a <;> by_cases h2 : i ∈ b <;> simp [h1, h2]
  · simp only [List.mem_append, not_or] at hi
    exact (k.poison i hi.2).trans (h.poison i hi.1)
  · by_cases hb : i ∈ b
    · exact k.marked hp i hb
    · rw [k.poison i hb]
      rcases List.mem_append.1 hi with ha | hb'
      · exact h.marked hp i ha
      · exact absurd hb' hb
  · simp only [List.mem_append, not_or] at hx
    exact (k.bytes x hx.2).trans (h.bytes x hx.1)

/-- The same rows, in another order or listed more than once. -/
theorem Touches.rows {c : Nat} {p : Bool} {a b : List Nat} {s t : State} (h : Touches c p a s t) (e : ∀ x, x ∈ a ↔ x ∈ b) :
    Touches c p b s t :=
  ⟨h.only, h.core, fun i => by rw [h.present]; simp only [e i], fun i hi => h.poison i fun k => hi ((e i).1 k),
    fun hp i hi => h.marked hp i ((e i).2 hi),
    fun x hx => h.bytes x fun k => hx ((e _).1 k)⟩

theorem Touches.foldl {α : Type} {c : Nat} {p : Bool} {rows : α → List Nat} {g : State → α → State} (l : List α)
    (h : ∀ x ∈ l, ∀ s, Touches c p (rows x) s (g s x)) (s : State) : Touches c p (l.flatMap rows) s (l.foldl g s) := by
  induction l generalizing s with
  | nil => exact Touches.refl c p s
  | cons x l ih =>
    rw [List.flatMap_cons]
    exact (h x (by simp) s).trans (ih (fun y hy => h y (by simp [hy])) _)

theorem Touches.run {c : Nat} {p : Bool} {rows : List Nat} {s t : State} (h : Touches c p rows s t) : t.run c = s.run c := by
  unfold State.run; rw [h.core]

theorem Touches.region {c : Nat} {p : Bool} {rows : List Nat} {s t : State} (h : Touches c p rows s t) (x : Nat) :
    (t.core c).region x = (s.core c).region x := by
  rw [h.core]; rfl

theorem touches_putRow {c r : Nat} (bs : Bytes) (p : Bool) (s : State) (hr : r < 8192) : Touches c p [r] s (putRow c r bs p s) := by
  refine ⟨onlyCore_putRow c r bs p s, ?_, fun i => ?_, fun i hi => ?_, fun hp i hi => ?_, fun a ha => ?_⟩
  · rw [core_putRow]; unfold Core.setPoison Core.setPresence; split <;> rfl
  · rw [core_putRow]
    have : (((s.core c).setPresence r).setPoison r p).present i = ((s.core c).setPresence r).present i := by
      unfold Core.setPoison; split <;> rfl
    rw [this, present_setPresence _ _ _ hr]; simp
  · rw [core_putRow, poison_setPoison _ _ _ _ hr, if_neg (by simpa using hi)]
    rfl
  · rw [core_putRow, poison_setPoison _ _ _ _ hr, if_pos (by simpa using hi)]
    exact hp
  · rw [rdSpm_putRow, if_neg]
    simp only [List.mem_singleton] at ha
    omega

/-- Rows from `r` on. -/
theorem touches_putRows {c r n : Nat} (bs : Bytes) (p : Bool) (s : State) (hr : ∀ i, i < n → r + i < 8192) :
    Touches c p (rowsOf r 1 1 n) s (putRows c r bs p n s) := by
  have h := Touches.foldl (c := c) (p := p) (rows := fun i => [r + i]) (g := fun s i => putRow c (r + i) ((bs.drop (64 * i)).take 64) p s)
    (List.range n) (fun i hi s => touches_putRow _ _ _ (hr i (List.mem_range.1 hi))) s
  exact h.rows fun x => by simp [rowsOf]

theorem touches_putPart {c a : Nat} (bs : Bytes) (p : Bool) (s : State) (hr : a + bs.length ≤ 524288) :
    Touches c p ((List.range ((a % 64 + bs.length + 63) / 64)).map fun i => a / 64 + i) s (putPart c a bs p s) := by
  unfold putPart
  generalize hrows : ((List.range ((a % 64 + bs.length + 63) / 64)).map fun i => a / 64 + i) = rows
  have hlt : ∀ x ∈ rows, x < 8192 := by
    rw [← hrows]; intro x hx
    obtain ⟨i, hi, rfl⟩ := List.mem_map.1 hx
    have := List.mem_range.1 hi
    omega
  -- the flags
  have flags : ∀ (l : List Nat) (u : State), (∀ x ∈ l, x < 8192) →
      let g := fun (s : State) r => updCore s c fun k =>
        let k := k.setPresence r
        if p then k.setPoison r true else k
      OnlyCore c u (l.foldl g u) ∧ (l.foldl g u).mem = u.mem ∧
      (l.foldl g u).core c = { u.core c with
        presence := ((l.foldl g u).core c).presence
        poison := ((l.foldl g u).core c).poison } ∧
      (∀ i, ((l.foldl g u).core c).present i = ((u.core c).present i || decide (i ∈ l))) ∧
      (∀ i, i ∉ l → ((l.foldl g u).core c).poison.getLsbD i = (u.core c).poison.getLsbD i) ∧
      (p = true → ∀ i, (u.core c).poison.getLsbD i = true ∨ i ∈ l → ((l.foldl g u).core c).poison.getLsbD i = true) := by
    intro l
    induction l with
    | nil => intro u _; exact ⟨OnlyCore.refl c u, rfl, rfl, by simp, fun _ _ => rfl, fun _ i h => by simpa using h⟩
    | cons r l ih =>
      intro u hl
      dsimp only at ih ⊢
      rw [List.foldl_cons]
      obtain ⟨b1, b2, b3, b4, b5, b6⟩ := ih (updCore u c fun k => if p then (k.setPresence r).setPoison r true else k.setPresence r)
        (fun x hx => hl x (by simp [hx]))
      have hr := hl r (by simp)
      have hc : (updCore u c fun k => if p then (k.setPresence r).setPoison r true else k.setPresence r).core c =
        if p then ((u.core c).setPresence r).setPoison r true else (u.core c).setPresence r := updCore_core_same _ _ _
      refine ⟨(onlyCore_updCore c _ _).trans b1, b2.trans rfl, ?_, fun i => ?_, fun i hi => ?_, fun hp i hi => ?_⟩
      · rw [b3, hc]; unfold Core.setPoison Core.setPresence; split <;> rfl
      · rw [b4, hc]
        have : (if p then ((u.core c).setPresence r).setPoison r true else (u.core c).setPresence r).present i =
            ((u.core c).setPresence r).present i := by split <;> rfl
        rw [this, present_setPresence _ _ _ hr]
        by_cases h1 : i = r <;> by_cases h2 : i ∈ l <;> simp [h1, h2]
      · simp only [List.mem_cons, not_or] at hi
        rw [b5 i hi.2, hc]
        split
        · rw [poison_setPoison _ _ _ _ hr, if_neg hi.1]; rfl
        · rfl
      · apply b6 hp
        rw [hc, if_pos hp, poison_setPoison _ _ _ _ hr]
        by_cases h1 : i = r
        · simp [h1]
        · rw [if_neg h1]
          rcases hi with h | h
          · exact .inl h
          · exact .inr ((List.mem_cons.1 h).resolve_left h1)
  obtain ⟨b1, b2, b3, b4, b5, b6⟩ := flags rows (setMems s fun m => m.wrSpm c a bs) hlt
  dsimp only at b1 b2 b3 b4 b5 b6 ⊢
  have hc : (setMems s fun m => m.wrSpm c a bs).core c = s.core c := rfl
  rw [hc] at b3
  refine ⟨(onlyCore_wrSpm c _ _ s).trans b1, by rw [b3], fun i => ?_, fun i hi => ?_, fun hp i hi => b6 hp i (.inr hi), fun x hx => ?_⟩
  · rw [b4, hc]
  · rw [b5 i hi, hc]
  · rw [b2, setMems_mem, rdSpm_wrSpm, if_neg]
    intro h
    apply hx
    rw [← hrows]
    exact List.mem_map.2 ⟨x / 64 - a / 64, List.mem_range.2 (by omega), by omega⟩

/-! ### What an operation writes -/

theorem toLE_length (n x : Nat) : (toLE n x).length = n := by
  induction n generalizing x with
  | zero => rfl
  | succ n ih => simp [toLE, ih]

theorem flatMap_length {α : Type} (n : Nat) (f : α → Bytes) (h : ∀ x, (f x).length = n) (l : List α) :
    (l.flatMap f).length = n * l.length := by
  induction l with
  | nil => rfl
  | cons x l ih => rw [List.flatMap_cons, List.length_append, ih, h, List.length_cons]; rw [Nat.mul_add]; omega

theorem mem_rowsOf (r stride w n x : Nat) : x ∈ rowsOf r stride w n ↔ ∃ i j, i < n ∧ j < w ∧ x = r + i * stride + j := by
  simp only [rowsOf, List.mem_flatMap, List.mem_map, List.mem_range]
  constructor
  · rintro ⟨i, hi, j, hj, rfl⟩; exact ⟨i, j, hi, hj, rfl⟩
  · rintro ⟨i, j, hi, hj, rfl⟩; exact ⟨i, hi, j, hj, rfl⟩

theorem mem_rowsOf_one (r n x : Nat) : x ∈ rowsOf r 1 1 n ↔ r ≤ x ∧ x < r + n := by
  rw [mem_rowsOf]
  constructor
  · rintro ⟨i, j, hi, hj, rfl⟩; omega
  · intro h; exact ⟨x - r, 0, by omega, by omega, by omega⟩

/-- A vector of FP32 entries from row `r`. -/
theorem touches_vector {c r n : Nat} (bs : Bytes) (p : Bool) (s : State) (hl : bs.length = 4 * n)
    (hr : ∀ x ∈ rowsOf r 1 1 (ceilDiv n 16), x < 8192) (h0 : r ≤ 8192) :
    Touches c p (rowsOf r 1 1 (ceilDiv n 16)) s (putPart c (64 * r) bs p s) := by
  have hb : 64 * r + bs.length ≤ 524288 := by
    by_cases hn : n = 0
    · subst hn; omega
    · have := hr (r + (ceilDiv n 16 - 1)) ((mem_rowsOf_one _ _ _).2 (by unfold ceilDiv; omega))
      unfold ceilDiv at this
      omega
  refine (touches_putPart bs p s hb).rows fun x => ?_
  rw [mem_rowsOf_one]
  simp only [List.mem_map, List.mem_range, hl]
  unfold ceilDiv
  constructor
  · rintro ⟨i, hi, rfl⟩; omega
  · intro h; exact ⟨x - r, by omega, by omega⟩

/-- The counters of numerical events are no rows. -/
theorem touches_counts (c : Nat) (p : Bool) (s : State) (f : Core → Core)
    (hf : ∀ k, f k = { k with outSat := (f k).outSat, nonfinite := (f k).nonfinite, fmtErr := (f k).fmtErr }) :
    Touches c p [] s (updCore s c f) := by
  have hc : (updCore s c f).core c = f (s.core c) := updCore_core_same _ _ _
  refine ⟨onlyCore_updCore c f s, ?_, fun i => ?_, fun i _ => ?_, by simp, fun _ _ => rfl⟩
  · rw [hc, hf]
  · rw [hc, hf]; simp [Core.present]
  · rw [hc, hf]

theorem statEntriesOf_length (s : State) (c smode : Nat) (m v : Bool) (srow : Nat) (rows : List ResRow) (h : smode ≤ 3) (h0 : smode ≠ 0) :
    (statEntriesOf s c smode m v srow rows).length = statEntries smode rows.length v := by
  have hv : (statValues smode v rows).length = statEntries smode rows.length v := by
    unfold statValues statEntries
    have : smode = 1 ∨ smode = 2 ∨ smode = 3 := by omega
    rcases this with rfl | rfl | rfl <;> cases v <;> simp
  unfold statEntriesOf
  dsimp only
  split <;> simp [hv]

/-- Results, statistics and counts. -/
theorem touches_writeResults {c dst step w : Nat} (rows : List ResRow) (s' : State) (smode : Nat) (m v : Bool) (srow : Nat)
    (nf p : Bool) (s : State) (hr : ∀ x ∈ rowsOf dst step w rows.length, x < 8192)
    (hs : ∀ x ∈ statRows smode srow rows.length v, x < 8192) (h3 : smode ≤ 3) (hrow : smode ≠ 0 → srow ≤ 8192) :
    Touches c p (rowsOf dst step w rows.length ++ statRows smode srow rows.length v) s
      (writeResults c dst step w rows (statsOut s' c smode m v srow rows) nf p s) := by
  unfold writeResults
  have h1 := Touches.foldl (c := c) (p := p) (rows := fun x : ResRow × Nat => rowsOf (dst + x.2 * step) 1 1 w)
    (g := fun s x => putRows c (dst + x.2 * step) x.1.bytes p w s) rows.zipIdx (fun x hx s => by
      have hx2 : x.2 < rows.length := by
        have := List.snd_lt_of_mem_zipIdx hx
        simpa using this
      exact touches_putRows _ _ _ fun i hi => hr _ ((mem_rowsOf _ _ _ _ _).2 ⟨x.2, i, hx2, hi, rfl⟩)) s
  have h1 := h1.rows (b := rowsOf dst step w rows.length) fun x => by
    rw [mem_rowsOf]
    simp only [List.mem_flatMap, mem_rowsOf_one]
    constructor
    · rintro ⟨y, hy, h⟩
      have := List.snd_lt_of_mem_zipIdx hy
      exact ⟨y.2, x - (dst + y.2 * step), by simpa using this, by omega, by omega⟩
    · rintro ⟨i, j, hi, hj, rfl⟩
      exact ⟨(rows[i], i), List.mem_zipIdx_iff_getElem?.2 (by simp [hi]), by dsimp only; omega⟩
  generalize rows.zipIdx.foldl _ s = u at h1 ⊢
  by_cases h0 : smode = 0
  · subst h0
    have e : statRows 0 srow rows.length v = [] := by simp [statRows, statEntries, rowsOf, ceilDiv]
    rw [e]
    exact h1.trans (touches_counts c p _ _ fun k => rfl)
  · have hl := statEntriesOf_length s' c smode m v srow rows h3 h0
    simp only [statsOut, if_neg h0]
    rw [← List.append_nil (rowsOf dst step w rows.length ++ _), List.append_assoc]
    refine h1.trans (Touches.trans (b := []) ?_ (touches_counts c p _ _ fun k => rfl))
    unfold statRows at hs ⊢
    exact touches_vector _ _ _ (by rw [flatMap_length 4 _ (fun x => toLE_length 4 _), hl]) hs (hrow h0)

/-- Rows of `n` results of `w` rows each, one after the other, are the rows from the first on. -/
theorem rowsOf_dense (r w n x : Nat) : x ∈ rowsOf r w w n ↔ x ∈ rowsOf r 1 1 (n * w) := by
  rw [mem_rowsOf_one, mem_rowsOf]
  constructor
  · rintro ⟨i, j, hi, hj, rfl⟩
    have : i * w + w ≤ n * w := by rw [← Nat.succ_mul]; exact Nat.mul_le_mul_right _ hi
    omega
  · rintro ⟨h1, h2⟩
    have hw : 0 < w := by rcases Nat.eq_zero_or_pos w with h | h; · subst h; omega
                          · exact h
    refine ⟨(x - r) / w, (x - r) % w, (Nat.div_lt_iff_lt_mul hw).2 (by omega), Nat.mod_lt _ hw, ?_⟩
    have := Nat.div_add_mod (x - r) w
    rw [Nat.mul_comm] at this
    omega

theorem touches_runDrain (c : Nat) (d : DrainOp) (p : Bool) (s : State) (hw : ∀ x ∈ d.writes, x < 8192) (h3 : d.smode ≤ 3)
    (hs : d.smode ≠ 0 → d.srow ≤ 8192) : Touches c p d.writes s (runDrain c d p s) := by
  unfold runDrain
  have e : ∀ x, x ∈ rowsOf d.dst (resultRows d.ofmt) (resultRows d.ofmt) d.n ↔ x ∈ d.outRows := fun x => rowsOf_dense _ _ _ _
  refine (touches_writeResults (dst := d.dst) (step := resultRows d.ofmt) (w := resultRows d.ofmt) _ s d.smode d.smerge false d.srow _ p s ?_ ?_ h3 hs).rows
    fun x => ?_
  · simp only [List.length_map, List.length_range]
    exact fun x hx => hw x (List.mem_append_left _ ((e x).1 hx))
  · simp only [List.length_map, List.length_range]
    exact fun x hx => hw x (List.mem_append_right _ hx)
  · simp only [List.length_map, List.length_range, DrainOp.writes, List.mem_append, e]
    rfl

theorem touches_writeGate {c step w : Nat} (g : GateOp) (rows : List ResRow) (p : Bool) (s : State) (hn : rows.length = g.n)
    (hw : ∀ x ∈ rowsOf g.dst step w g.n ++ g.statRows, x < 8192) (h3 : g.smode ≤ 3) (hs : g.smode ≠ 0 → g.srow ≤ 8192) :
    Touches c p (rowsOf g.dst step w g.n ++ g.statRows) s (writeGate c g step w rows p s) := by
  have := touches_writeResults (c := c) (dst := g.dst) (step := step) (w := w) rows s g.smode g.smerge g.vec g.srow
    ((rows.any (·.nonfin)) || (g.smode != 0 && rows.any fun r => r.mags.any isNan) ||
      (g.smerge && statOldNonfin s c g.smode g.vec g.srow g.n)) p s
    (by rw [hn]; exact fun x hx => hw x (List.mem_append_left _ hx))
    (by rw [hn]; exact fun x hx => hw x (List.mem_append_right _ hx)) h3 hs
  rw [hn] at this
  exact this

theorem touches_runGfn (c : Nat) (g : GateOp) (p : Bool) (s : State) (hk : g.kind = .gfn) (hw : ∀ x ∈ g.writes, x < 8192)
    (h3 : g.smode ≤ 3) (hs : g.smode ≠ 0 → g.srow ≤ 8192) : Touches c p g.writes s (runGfn c g p s) := by
  have e : g.writes = rowsOf g.dst 2 2 g.n ++ g.statRows := by simp [GateOp.writes, GateOp.outRows, hk]
  rw [e] at hw ⊢
  unfold runGfn
  exact touches_writeGate g _ p s (by simp) hw h3 hs

theorem touches_runGate2 (c : Nat) (g : GateOp) (p : Bool) (s : State)
    (hk : g.kind = .gadd ∨ g.kind = .gsub ∨ g.kind = .gmul ∨ g.kind = .gmax) (hw : ∀ x ∈ g.writes, x < 8192)
    (h3 : g.smode ≤ 3) (hs : g.smode ≠ 0 → g.srow ≤ 8192) : Touches c p g.writes s (runGate2 c g p s) := by
  have e : g.writes = rowsOf g.dst 2 2 g.n ++ g.statRows := by
    rcases hk with h | h | h | h <;> simp [GateOp.writes, GateOp.outRows, h]
  rw [e] at hw ⊢
  unfold runGate2
  exact touches_writeGate g _ p s (by simp) hw h3 hs

theorem touches_runReduce (c : Nat) (g : GateOp) (p : Bool) (s : State) (hk : g.kind = .grsum ∨ g.kind = .grmax)
    (hw : ∀ x ∈ g.writes, x < 8192) (h3 : g.smode ≤ 3) (hs : g.smode ≠ 0 → g.srow ≤ 8192) (hd : g.dst ≤ 8192) :
    Touches c p g.writes s (runReduce c g p s) := by
  have e : g.writes = rowsOf g.dst 1 1 (ceilDiv g.n 16) ++ g.statRows := by
    rcases hk with h | h <;> simp [GateOp.writes, GateOp.outRows, h]
  rw [e] at hw ⊢
  unfold runReduce
  have e0 : rowsOf g.dst 0 0 g.n = [] := by
    apply List.eq_nil_iff_forall_not_mem.2
    intro x hx
    obtain ⟨i, j, -, hj, -⟩ := (mem_rowsOf _ _ _ _ _).1 hx
    omega
  have h1 := touches_writeGate (c := c) (step := 0) (w := 0) g (((List.range g.n).map (reduceRow s c g)).map fun v =>
    ({ bytes := [], sats := 0, nonfin := v.2, fmtErr := false, mags := [upVal v.1] } : ResRow)) p s (by simp)
    (by rw [e0]; exact fun x hx => hw x (List.mem_append_right _ (by simpa using hx))) h3 hs
  rw [e0] at h1
  dsimp only
  refine (h1.trans (touches_vector (c := c) (r := g.dst) (n := g.n) _ p _ ?_ ?_ hd)).rows fun x => ?_
  · rw [flatMap_length 4 _ (fun x => toLE_length 4 _)]; simp
  · exact fun x hx => hw x (List.mem_append_left _ hx)
  · simp only [List.nil_append, List.mem_append, or_comm]

theorem touches_runGquant (c : Nat) (g : GateOp) (p : Bool) (s : State) (hk : g.kind = .gquant)
    (hw : ∀ x ∈ g.writes, x < 8192) (h3 : g.smode ≤ 3) (hs : g.smode ≠ 0 → g.srow ≤ 8192) : Touches c p g.writes s (runGquant c g p s) := by
  have e : g.writes = rowsOf g.dst 1 1 g.n ++ g.statRows := by simp [GateOp.writes, GateOp.outRows, hk]
  rw [e] at hw ⊢
  unfold runGquant
  exact touches_writeGate g _ p s (by simp) hw h3 hs

theorem touches_runGscale (c : Nat) (g : GateOp) (p : Bool) (s : State) (hk : g.kind = .gscale)
    (hw : ∀ x ∈ g.writes, x < 8192) (h0 : g.smode = 0) (hn : g.n ≤ 64 * 8192) : Touches c p g.writes s (runGscale c g p s) := by
  have e : g.writes = rowsOf g.dst 1 1 (1 + ceilDiv g.n 64) := by
    simp [GateOp.writes, GateOp.outRows, GateOp.statRows, Machine.statRows, statEntries, rowsOf, ceilDiv, hk, h0]
  rw [e] at hw ⊢
  have hd : g.dst < 8192 := hw _ ((mem_rowsOf_one _ _ _).2 (by omega))
  have hlast : g.dst + ceilDiv g.n 64 < 8192 := hw _ ((mem_rowsOf_one _ _ _).2 (by omega))
  unfold runGscale
  dsimp only
  generalize hq : scaleRecord g.qfmt ((List.range g.n).map (fpEntry s c g.a)) = q
  have hl : (q.2.1.map fun q => BitVec.ofNat 8 q).length = g.n := by
    rw [← hq]; unfold scaleRecord; split <;> simp
  have hb : 64 * (g.dst + 1) + g.n ≤ 524288 := by unfold ceilDiv at hlast; omega
  have h2 := touches_putPart (c := c) (a := 64 * (g.dst + 1)) (q.2.1.map fun q => BitVec.ofNat 8 q) p
    (putRow c g.dst [BitVec.ofInt 8 q.1] p s) (by rw [hl]; exact hb)
  refine (((touches_putRow _ p s hd).trans h2).trans (touches_counts c p _ _ fun k => rfl)).rows fun x => ?_
  simp only [List.append_nil, List.mem_append, List.mem_singleton, List.mem_map, List.mem_range, mem_rowsOf_one, hl]
  unfold ceilDiv
  constructor
  · rintro (rfl | ⟨i, hi, rfl⟩) <;> omega
  · intro h
    by_cases hx : x = g.dst
    · exact .inl hx
    · exact .inr ⟨x - (g.dst + 1), by omega, by omega⟩

theorem touches_runMove (c : Nat) (m : MoveOp) (p : Bool) (s : State) (hw : ∀ x ∈ m.writes false, x < 8192) :
    Touches c p (m.writes false) s (runMove c m p s) := by
  unfold runMove
  have h := Touches.foldl (c := c) (p := p) (rows := fun x : Nat × Bytes => [x.1]) (g := fun s x => putRow c x.1 x.2 p s)
    ((List.range m.count).map fun i => (m.dst + i * m.dstride, rowBytes s c (m.src + i * m.sstride))) (fun x hx s => by
      obtain ⟨i, hi, rfl⟩ := List.mem_map.1 hx
      exact touches_putRow _ _ _ (hw _ ((mem_rowsOf _ _ _ _ _).2 ⟨i, 0, List.mem_range.1 hi, by omega, rfl⟩))) s
  refine h.rows fun x => ?_
  simp only [List.mem_flatMap, List.mem_map, List.mem_range, List.mem_singleton, MoveOp.writes, Bool.false_eq_true, if_false, mem_rowsOf]
  constructor
  · rintro ⟨y, ⟨i, hi, rfl⟩, rfl⟩; exact ⟨i, 0, hi, by omega, rfl⟩
  · rintro ⟨i, j, hi, hj, rfl⟩; exact ⟨_, ⟨i, hi, rfl⟩, by dsimp only; omega⟩

theorem touches_runTranspose (c : Nat) (m : MoveOp) (p : Bool) (s : State) (hw : ∀ x ∈ m.writes true, x < 8192) :
    Touches c p (m.writes true) s (runTranspose c m p s) := by
  unfold runTranspose
  dsimp only
  generalize ((List.range 64).map fun i => rowsBytes s c (m.src + i * m.sstride) (64 * (m.esize + 1))) = block
  have h := Touches.foldl (c := c) (p := p) (rows := fun x : Nat × Bytes => rowsOf x.1 1 1 (m.esize + 1)) (g := fun s x => putRows c x.1 x.2 p (m.esize + 1) s)
    ((List.range 64).map fun j => (m.dst + j * m.dstride, block.flatMap fun b => (b.drop ((m.esize + 1) * j)).take (m.esize + 1))) (fun x hx s => by
      obtain ⟨i, hi, rfl⟩ := List.mem_map.1 hx
      exact touches_putRows _ _ _ fun j hj => hw _ ((mem_rowsOf _ _ _ _ _).2 ⟨i, j, List.mem_range.1 hi, hj, rfl⟩)) s
  refine h.rows fun x => ?_
  have e : m.writes true = rowsOf m.dst m.dstride (m.esize + 1) 64 := rfl
  rw [e, mem_rowsOf]
  simp only [List.mem_flatMap, List.mem_map, List.mem_range, mem_rowsOf_one]
  constructor
  · rintro ⟨y, ⟨i, hi, rfl⟩, h⟩; exact ⟨i, x - (m.dst + i * m.dstride), hi, by omega, by omega⟩
  · rintro ⟨i, j, hi, hj, rfl⟩; exact ⟨_, ⟨i, hi, rfl⟩, by dsimp only; omega⟩



/-! ### The bytes that results are written as -/

theorem padTo_getD (n k : Nat) (bs : Bytes) : (padTo n bs).getD k 0 = if k < n then bs.getD k 0 else 0 := by
  unfold padTo zeros
  simp only [List.getD_eq_getElem?_getD]
  by_cases h : k < n
  · rw [if_pos h]
    by_cases h2 : k < bs.length
    · rw [List.getElem?_append_left (by simp; omega), List.getElem?_take_of_lt h]
    · rw [List.getElem?_append_right (by simp; omega), List.getElem?_replicate]
      rw [List.getElem?_eq_none (l := bs) (by omega)]
      split <;> rfl
  · rw [if_neg h, List.getElem?_eq_none]
    · rfl
    · simp; omega

theorem rdSpm_putRows (c r n : Nat) (bs : Bytes) (p : Bool) (s : State) (x : Nat) :
    (putRows c r bs p n s).mem.rdSpm c x 1 =
      if 64 * r ≤ x ∧ x < 64 * (r + n) then [bs.getD (x - 64 * r) 0] else s.mem.rdSpm c x 1 := by
  unfold putRows
  induction n with
  | zero => rw [if_neg (by omega)]; rfl
  | succ n ih =>
    rw [List.range_succ, List.foldl_append, List.foldl_cons, List.foldl_nil, rdSpm_putRow, ih]
    by_cases h : 64 * (r + n) ≤ x ∧ x < 64 * (r + n) + 64
    · rw [if_pos h, if_pos (by omega), padTo_getD, if_pos (by omega)]
      congr 1
      simp only [List.getD_eq_getElem?_getD]
      rw [List.getElem?_take_of_lt (by omega), List.getElem?_drop]
      congr 2
      omega
    · rw [if_neg h]
      by_cases h2 : 64 * r ≤ x ∧ x < 64 * (r + n)
      · rw [if_pos h2, if_pos (by omega)]
      · rw [if_neg h2, if_neg (by omega)]

/-- One byte of results of `w` rows each, `step` rows apart. -/
theorem rdSpm_results (c dst step w : Nat) (p : Bool) (hw : w ≤ step) (l : List ResRow) (k0 : Nat) (s : State) (i k : Nat) (hk : k < 64 * w)
    (hi : i < l.length) :
    ((l.zipIdx k0).foldl (fun s x => putRows c (dst + x.2 * step) x.1.bytes p w s) s).mem.rdSpm c (64 * (dst + (k0 + i) * step) + k) 1 =
      [l[i].bytes.getD k 0] := by
  have keep : ∀ (l : List ResRow) (k0 : Nat) (s : State) (x : Nat), x < 64 * (dst + k0 * step) →
      ((l.zipIdx k0).foldl (fun s x => putRows c (dst + x.2 * step) x.1.bytes p w s) s).mem.rdSpm c x 1 = s.mem.rdSpm c x 1 := by
    intro l
    induction l with
    | nil => intro k0 s x _; rfl
    | cons a l ih =>
      intro k0 s x hx
      have e := Nat.add_one_mul k0 step
      rw [List.zipIdx_cons, List.foldl_cons, ih (k0 + 1) _ x (by omega), rdSpm_putRows, if_neg (by dsimp only; omega)]
  induction l generalizing k0 s i with
  | nil => simp at hi
  | cons a l ih =>
    rw [List.zipIdx_cons, List.foldl_cons]
    cases i with
    | zero =>
      have e := Nat.add_one_mul k0 step
      rw [keep l (k0 + 1) _ _ (by rw [Nat.add_zero]; omega), rdSpm_putRows, if_pos (by dsimp only; rw [Nat.add_zero]; omega)]
      simp
    | succ i =>
      have := ih (k0 + 1) (putRows c (dst + k0 * step) a.bytes p w s) i (by simpa using hi)
      rw [show k0 + 1 + i = k0 + (i + 1) by omega] at this
      simpa using this

theorem rdSpm_putPart (c a : Nat) (bs : Bytes) (p : Bool) (s : State) (x : Nat) :
    (putPart c a bs p s).mem.rdSpm c x 1 = if a ≤ x ∧ x < a + bs.length then [bs.getD (x - a) 0] else s.mem.rdSpm c x 1 := by
  have e : (putPart c a bs p s).mem = s.mem.wrSpm c a bs := by
    unfold putPart
    dsimp only
    generalize ((List.range ((a % 64 + bs.length + 63) / 64)).map fun i => a / 64 + i) = l
    have : ∀ (l : List Nat) (u : State), (l.foldl (fun s r => updCore s c fun k => if p then (k.setPresence r).setPoison r true else k.setPresence r) u).mem = u.mem := by
      intro l
      induction l with
      | nil => intro u; rfl
      | cons y l ih => intro u; rw [List.foldl_cons, ih]; rfl
    rw [this]; rfl
  rw [e, rdSpm_wrSpm]

/-- A byte of a result row, where no statistic is written. -/
theorem rdSpm_writeResults {c dst step w : Nat} (rows : List ResRow) (stats : Option (Nat × List FVal)) (nf p : Bool) (s : State)
    (hw : w ≤ step) (i k : Nat) (hk : k < 64 * w) (hi : i < rows.length)
    (hs : ∀ st, stats = some st → ¬(64 * st.1 ≤ 64 * (dst + i * step) + k ∧ 64 * (dst + i * step) + k < 64 * st.1 + 4 * st.2.length)) :
    (writeResults c dst step w rows stats nf p s).mem.rdSpm c (64 * (dst + i * step) + k) 1 = [rows[i].bytes.getD k 0] := by
  unfold writeResults
  have h := rdSpm_results c dst step w p hw rows 0 s i k hk hi
  rw [Nat.zero_add] at h
  dsimp only
  rw [updCore_mem]
  split
  · next srow vs hst =>
    rw [rdSpm_putPart, if_neg]
    · exact h
    · rw [flatMap_length 4 _ (fun x => toLE_length 4 _)]
      exact hs _ rfl
  · exact h

end Sys2Proof.Machine
end

