-- ==== Sys2Proof/WellFormed.lean ====
section
/-! DEFINITION. When a command is well formed: its operands have the lengths that the bus, ring or message that brings them has.
Every other operand's type holds exactly the values it can have. The machine itself takes any command. -/

namespace Sys2Proof

/-- The lengths of R248, R250, R254, R287, R289, R355, R376, R386, R412, R415, R426, R434, R438, R447, R448 and R466. -/
def Instr.wellFormed : Instr → Bool
  | .ringFrameReceive syms _ => decide (syms.length = 144)
  | .lfsrReseed seeds => decide (seeds.length = 32)
  | .commandTake entry => decide (entry.length = 64)
  | .streamOpen _ _ _ record => decide (record.length = 64)
  | .devicePageProgramDone _ _ data => decide (data.length = 16384)
  | .challenge _ _ nonce => decide (nonce.length = 32)
  | .getMeasurements _ _ signed nonce => decide (nonce.length = if signed then 32 else 0)
  | .keyExchange _ _ _ exchange => decide (exchange.length = 64)
  | .startInterfaceRequest _ _ nonce => decide (nonce.length = 32)
  | .keyProg _ _ _ _ key => decide (key.length = 32)
  | .eflProgram _ data => decide (data.length = 4)
  | .dramAccessComplete _ findings => decide (findings.length ≤ 4)
  | .retrainChannelDone sweeps => decide (sweeps.length = 2)
  | .windowWrite _ offset data => decide (0 < data.length) && decide (offset.toNat % 2 ^ 22 + data.length ≤ 2 ^ 22)
  | .debugAccess _ write => write.all fun bs => decide (bs.length = 64)
  | .estimatorWindow rep => decide (rep.temps.length = 72)
  | .ringKeyUnwrapped key => key.all fun k => decide (k.length = 16)
  | .ringWrite _ _ words => decide (words.length < 2 ^ 16)
  | .startSequence rep => decide (rep.lanes.length = 64)
  | .flitReplay .. | .laneGroupFence .. | .audSelectWrite .. | .jobStart .. | .programLoadLand .. | .jobFirstDecode .. | .endOp .. | .jobComplete ..
  | .nop .. | .fetch .. | .fetchRowLand .. | .fwait .. | .matmul .. | .planeLoad .. | .rowSlotAdmit .. | .rampFall ..
  | .drain .. | .gfn .. | .gadd .. | .gsub .. | .gmul .. | .gmax .. | .grsum .. | .grmax ..
  | .gquant .. | .gscale .. | .move .. | .transpose .. | .store .. | .storeAck .. | .wait .. | .signal ..
  | .signalIncrementArrive .. | .signalAck .. | .fence .. | .reside .. | .unreside .. | .loop .. | .seti .. | .creditStall ..
  | .coreSelfFence .. | .spmRegionSelWrite .. | .coreNumClrWrite .. | .arrStatClrWrite .. | .chunkJobDispatch .. | .batchWindowExpiry .. | .chunkJobComplete .. | .memberCommit ..
  | .idleTimeout .. | .swapOutComplete .. | .swapInComplete .. | .resetMark .. | .contextCloseDone .. | .lflCtxSelWrite .. | .regionApply .. | .tileReadStart ..
  | .tableSlotLoad .. | .tableSlotLoadDone .. | .expanderBlockAccept .. | .blockDecodeDone .. | .tileComplete .. | .tileCopyDepart .. | .tileDeadline .. | .fallbackTileReady ..
  | .tableBuildComplete .. | .dramAccessGrant .. | .tokenRefill .. | .wheelSlot .. | .patrolScrub .. | .neighbourRefreshIssue .. | .retrainPeriodExpiry .. | .tempDeltaRetrain ..
  | .accountApply .. | .pairFailing .. | .flashProgram .. | .flashSeal .. | .flashRetire .. | .flashErase .. | .flashDirect .. | .flashFormat ..
  | .journalPageProgrammed .. | .eraseDeviceDone .. | .eraseSuspend .. | .flashPageReadDone .. | .flashTierBringup .. | .fltBlkSelWrite .. | .eflErase .. | .eflOpDone ..
  | .eflRead .. | .partitionApply .. | .generate .. | .gangDispatch .. | .passComplete .. | .jobTimeout .. | .requestComplete .. | .ledgerRefill ..
  | .lflVerSelWrite .. | .kvmPoolCfgWrite .. | .kvTenantApply .. | .contextGrantApply .. | .csiPacket .. | .imageFrameDelivered .. | .audioFrame .. | .ringFrameTransmit ..
  | .trgModeWrite .. | .trgKeyWrite .. | .sqTail .. | .cqHead .. | .evHead .. | .completionPost .. | .interruptSignal .. | .eventPost ..
  | .queueCreate .. | .queueDelete .. | .eventQueueEnable .. | .eventQueueDisable .. | .functionLevelReset .. | .hotReset .. | .linkTrain .. | .linkL1Exit ..
  | .run .. | .stateSwap .. | .streamClose .. | .streamPush .. | .streamMark .. | .bind .. | .replace .. | .unbind ..
  | .activate .. | .discard .. | .resideLoad .. | .resideRelease .. | .ingest .. | .ingestShard .. | .shardStaged .. | .shardVerifyDone ..
  | .ingestTimeout .. | .winOpen .. | .winClose .. | .suspend .. | .resume .. | .cancel .. | .ddrRetrain .. | .doeDiscovery ..
  | .getVersion .. | .getCapabilities .. | .negotiateAlgorithms .. | .getDigests .. | .getCertificate .. | .finish .. | .heartbeat .. | .keyUpdate ..
  | .endSession .. | .respondIfReady .. | .ideKmQuery .. | .kSetGo .. | .kSetStop .. | .ideIntegrityFail .. | .getTdispVersion .. | .getTdispCapabilities ..
  | .lockInterfaceRequest .. | .getDeviceInterfaceReport .. | .getDeviceInterfaceState .. | .stopInterfaceRequest .. | .tenantConfApply .. | .keySlotGenerate .. | .keySlotDestroy .. | .ringKeyInstall ..
  | .ringKeyRemove .. | .debugToken .. | .idcode .. | .bypass .. | .boundaryScan .. | .capDecision .. | .coreStepSettle .. | .powerTick ..
  | .vinFault .. | .thermalTrip .. | .domainStateApply .. | .domainTransitionDone .. | .autoWake .. | .padRelease .. | .smbusAddressMatch .. | .smbStatus ..
  | .smbTemp .. | .smbPower .. | .smbLimitRead .. | .smbLimitWrite .. | .smbNursery .. | .smbWake .. | .smbReset .. | .wakeTimerExpiry ..
  | .packageReset .. | .startTimeout .. | .doneHoldExpiry .. | .firmwareCopy .. | .watchdogExpiry .. | .stage .. | .activateNow .. | .activateAtReset ..
  | .commitSvn .. | .firmwareOpComplete .. | .bootResetRequest .. | .domainReset .. | .heldPhaseEnd .. | .calCommit .. | .calDiscard .. | .calCommitDone ..
  | .lowHalfRead .. | .registerWrite .. | .expectedSyncMissed .. | .linkL1Entry .. | .functionLevelResetComplete .. => true

end Sys2Proof
end

