-- ==== Sys2Proof/Tests/Slice0.lean ====
section
/-! SUPPORT. Worked examples of the spec, a refused term for each check of well-formedness, and witnesses: states and operands
that meet the hypotheses of the statements. -/

namespace Sys2Proof.Tests

set_option Elab.async false

open Sys2Proof Sys2Proof.Machine Numeric

/-! ## Commands that are not well formed -/

theorem test_ill_formed_ring_frame : (Instr.ringFrameReceive [] 0).wellFormed = false := by decide
theorem test_ill_formed_seeds : (Instr.lfsrReseed [1]).wellFormed = false := by decide
theorem test_ill_formed_entry : (Instr.commandTake [0x01]).wellFormed = false := by decide
theorem test_ill_formed_record : (Instr.streamOpen ⟨1, 0, 7, false⟩ 0 0 []).wellFormed = false := by decide
theorem test_ill_formed_page : (Instr.devicePageProgramDone 0 true [0]).wellFormed = false := by decide
theorem test_ill_formed_challenge : (Instr.challenge 0 0 [1]).wellFormed = false := by decide
theorem test_ill_formed_measurements : (Instr.getMeasurements 0 0 false [1]).wellFormed = false := by decide
theorem test_ill_formed_exchange : (Instr.keyExchange 0 0 0 []).wellFormed = false := by decide
theorem test_ill_formed_start_nonce : (Instr.startInterfaceRequest 0 1 []).wellFormed = false := by decide
theorem test_ill_formed_key : (Instr.keyProg 0 0 0 0 []).wellFormed = false := by decide
theorem test_ill_formed_flash_line : (Instr.eflProgram 1 [0, 0, 0]).wellFormed = false := by decide
theorem test_ill_formed_findings : (Instr.dramAccessComplete 0 [.clean, .clean, .clean, .clean, .clean]).wellFormed = false := by decide
theorem test_ill_formed_sweeps : (Instr.retrainChannelDone []).wellFormed = false := by decide
theorem test_ill_formed_window : (Instr.windowWrite 0 0x3FFFFF [1, 2]).wellFormed = false := by decide
theorem test_ill_formed_empty_window_write : (Instr.windowWrite 0 0 []).wellFormed = false := by decide
theorem test_ill_formed_debug_row : (Instr.debugAccess (.sram 0) (some [1])).wellFormed = false := by decide
theorem test_ill_formed_ring_key : (Instr.ringKeyUnwrapped (some [1])).wellFormed = false := by decide
theorem test_ill_formed_temperatures : (Instr.estimatorWindow { temps := [], dynamic := [], leakage := [], served := [], vinMv := 0, iinMa := 0 }).wellFormed = false := by decide
theorem test_well_formed_window_end : (Instr.windowWrite 0 0x3FFFFE [1, 2]).wellFormed = true := by decide

/-! ## Worked examples -/

/-- The encoding of operation 4 of the worked example of chapter 05. -/
theorem test_worked_matmul : decodeOp [0, 0, 0, 0, 0, 0, 0] 0x00000000003C02000000C00080000220 = .ok (.matmul {
    tfmt := 2
    afmt := 0
    trans := false
    acc := false
    wide := false
    lt := false
    ls := false
    ld := false
    la := false
    tile := 128
    scale := 192
    act := 0
    astride := 2
    n := 16
    d := 0
    delta := 0
    drows := 0
    texp := 0 }) := by decide

/-- The Bell-4 codes and the rescale of the worked example of chapter 02, with the saturating case after it. -/
theorem test_worked_rescale : [12 * bell4 0xD, -5 * bell4 0x2, 99 * bell4 0x7, 40 * bell4 0x9] = [888, 335, 0, 800] ∧
    rescaleInt 8 (2023 * 150 + -1100 * 90) 1 322123 30 = (61, false) ∧ rescaleInt 8 1000000 1 322123 30 = (127, true) := by decide

/-- The scale record of the floor hub's rows (R78): 3.703125 and 0.5 give e = −13 and the mantissas 239 and 33. -/
theorem test_worked_scale : scaleRecord 0 [.fin false 237 (-6), .fin false 1 (-1)] = (-13, [239, 33], false) := by decide

/-- The rows' maxima quantised (R78). -/
theorem test_worked_quantised : (quantOne 0 239 (-13) (.fin false 237 (-6))).bits = 127 ∧
    (quantOne 0 33 (-13) (.fin false 1 (-1))).bits = 124 := by decide

/-! ## States of the witnesses -/

/-- The part runs, in the 64-core variant, with no system area. -/
def up : State := { State.reset with
  boot := { Boot.reset with done := true }
  fuses := { stepping := 0, variant := 64, cores := 0, nodeId := 0, sys := 0, svnMin := 0, dens := 0, ranks := false }
  lfl := Lfl.reset 0
  trg := Trg.reset 0 }

/-- A job of tenant 1 that has loaded two operations and runs. -/
def idle : Run := {
  job := 0
  owner := 1
  image := 0
  phase := .running
  count := 2
  workset := 3
  init := [0, 0, 0, 0, 0, 0, 0]
  pos := 0
  iregs := [0, 0, 0, 0, 0, 0, 0]
  loops := []
  decodeEnded := false
  suspending := false
  ended := false
  queue := []
  nextPlane := 0
  array := []
  transfers := []
  nextXfer := 0
  stores := []
  signals := []
  reside := []
  unreside := []
  ending := none }

/-- The first 200 rows are present. -/
def firstRows : BitVec 8192 := BitVec.ofNatLT (2 ^ 200 - 1) (by decide +kernel)

/-- A core of tenant 1 whose regions 0 and 1 are WORK, with their rows present. -/
def busyCore (r : Run) : Core := { Core.init with
  owner := 1
  regions := [(0, .work), (1, .work)]
  credits := { total := 128, free := 126, held := 2 }
  presence := firstRows
  run := some r }

/-- Core 0 runs the job. -/
def onCore (r : Run) : State := { up with cores := [(0, busyCore r)] }

/-- Core 0's program buffer holds the operations. -/
def program (ws : List Nat) (s : State) : State := { s with mem := s.mem.wrProg 0 64 (ws.flatMap (toLE 16)) }

/-- The operation stands at the head of the queue. -/
def queued (op : Op) : Run := { idle with queue := [{ pos := 0, op := op, load := .waiting }] }

theorem onCore_up (r : Run) : OnCore 0 r (onCore r) :=
  ⟨(by decide : up.running = true), (by decide : coreUp up 0 = true), rfl⟩

/-! ## Witnesses: the machine as a whole -/

theorem test_front_command : ({ up with pending := [.idcode] } : State).pending = [.idcode] := by decide
theorem test_idle_step : State.reset.pending = [] ∧ State.reset.boot.fatal = false ∧ State.reset.boot.held = none := by decide
theorem test_step_from_reset : MemOk State.reset ∧ ∃ t, step State.reset = .next t := ⟨by rfl, _, rfl⟩

/-- A step that fences a lane group, in a part that runs. -/
theorem test_step_fences : ∃ t, step { up with pending := [.laneGroupFence 0 0] } = .next t ∧ t.boot.done = true ∧
    laneFenced t 0 0 = true := ⟨_, rfl, by decide, by decide⟩

/-- A step of a part with a fatal condition and a conservation fault. -/
theorem test_step_fatal : ∃ t, step { up with
      boot := { up.boot with fatal := true }
      audit := { up.audit with fault := true }
      pending := [.bypass] } = .next t ∧ t.boot.done = true := ⟨_, rfl, by decide⟩

/-- A command that changes the fuses. -/
theorem test_commit_svn : ∃ t, exec (.commitSvn 0 4 true true) up = .next t := ⟨_, rfl⟩
theorem test_confined : ∃ t, exec (.audSelectWrite 0 1) up = .next t := ⟨_, rfl⟩

/-! ## Witnesses: the compute core -/

theorem test_decodes_matmul : OnCore 0 idle (program [0x00000000003C02000000C00080000220] (onCore idle)) ∧ idle.decodes = true ∧
    (∃ m, nextOp (program [0x00000000003C02000000C00080000220] (onCore idle)) 0 idle = some (.ok (.matmul m)) ∧
      queuedBy 0 (.matmul m) = some (.matmul 0 .decode)) ∧ idle.queue.length < 16 :=
  ⟨⟨by rfl, by rfl, by rfl⟩, by decide, ⟨_, by rfl, by rfl⟩, by decide⟩

/-- The execute queue is full. -/
theorem test_queue_full : (let r := { idle with queue := List.replicate 16 { pos := 0, op := .nop, load := .waiting } }
    r.decodes = true ∧ 16 ≤ r.queue.length) := by decide

/-- SETI of I1, FWAIT on counter 3 with THRESH 65,535, and a LOOP of one operation, 65,535 times. -/
theorem test_fetch_engine_words : idle.decodes = true ∧
    nextOp (program [0x71 + 2 ^ 8 + 5 * 2 ^ 11] (onCore idle)) 0 idle = some (.ok (.seti 1 5)) ∧
    nextOp (program [0x11 + 3 * 2 ^ 14 + 65535 * 2 ^ 26] (onCore idle)) 0 idle = some (.ok (.fwait 3 65535)) ∧
    nextOp (program [0x70 + 65535 * 2 ^ 8 + 2 ^ 24 + 0x1FFF * 2 ^ 34] (onCore idle)) 0 idle =
      some (.ok (.loop 65535 1 [-1, 0, 0, 0, 0, 0, 0])) := by decide

theorem test_loop_ends : (let r := { idle with loops := [{ start := 0, stop := 1, left := 2, incs := [1, 0, 0, 0, 0, 0, 0], saved := [] }] }
    OnCore 0 r (program [1] (onCore r)) ∧ r.decodes = true ∧ nextOp (program [1] (onCore r)) 0 r = some (.ok .nop)) :=
  ⟨⟨by rfl, by rfl, by rfl⟩, by decide, by decide⟩

theorem test_last_iteration : (let r := { idle with loops := [{ start := 0, stop := 1, left := 1, incs := [], saved := [] }] }
    OnCore 0 r (program [1] (onCore r)) ∧ r.decodes = true ∧ nextOp (program [1] (onCore r)) 0 r = some (.ok .nop)) :=
  ⟨⟨by rfl, by rfl, by rfl⟩, by decide, by decide⟩

theorem atHead_queued (op : Op) : AtHead 0 (queued op) { pos := 0, op := op, load := .waiting } (onCore (queued op)) :=
  ⟨onCore_up _, by rfl, by rfl⟩

/-- An increment that has not arrived, and one that has. -/
theorem test_signals : (let r := { idle with signals := [{ target := 6, ctr := 0, inc := 255, arrived := false }, { target := 0, ctr := 1, inc := 1, arrived := true }] }
    (onCore r).running = true ∧ (onCore r).run 0 = some r ∧ (∃ x ∈ r.signals, x.arrived = false) ∧ (∃ x ∈ r.signals, x.arrived = true) ∧
      r.suspending = false) := ⟨by rfl, by rfl, by decide, by decide, by decide⟩

/-- A MOVE of the last row of region 0 to the first of region 1. -/
def moved : MoveOp := { esize := 0, last := false, count := 1, src := 63, sstride := 1, dst := 64, dstride := 1 }

theorem test_move_issues : CanIssue 0 (queued (.move moved)) { pos := 0, op := .move moved, load := .waiting } (onCore (queued (.move moved))) :=
  ⟨atHead_queued (.move moved), by decide +kernel, by decide +kernel, by decide +kernel, fun _ h => Op.noConfusion h⟩

def transposed : MoveOp := { esize := 1, last := false, count := 1, src := 0, sstride := 2, dst := 0, dstride := 2 }

theorem test_transpose_issues : CanIssue 0 (queued (.transpose transposed)) { pos := 0, op := .transpose transposed, load := .waiting }
    (onCore (queued (.transpose transposed))) := ⟨atHead_queued (.transpose transposed), by decide +kernel, by decide +kernel, by decide +kernel, fun _ h => Op.noConfusion h⟩

/-- A gate operation of two rows: A in rows 0 to 3, B from row 8, DST from row 64, statistics per column from row 80. -/
def gate (kind : GateKind) : GateOp := {
  kind := kind
  fn := 0
  bmode := 0
  merge := false
  qfmt := 0
  la := false
  lb := false
  n := 2
  a := 0
  astride := 2
  b := 8
  dst := 64
  smode := if kind = .gscale then 0 else 2
  smerge := false
  srow := 80 }

/-- Every gate operation issues, and its statistics lie apart from its output. -/
theorem test_gate_issues : ∀ kind : GateKind, CanIssue 0 (queued (.gate (gate kind))) { pos := 0, op := .gate (gate kind), load := .waiting }
    (onCore (queued (.gate (gate kind)))) ∧ ∀ x ∈ (gate kind).outRows, x ∉ (gate kind).statRows := by
  intro kind
  cases kind <;> exact ⟨⟨atHead_queued _, by decide +kernel, by decide +kernel, by decide +kernel, fun _ h => Op.noConfusion h⟩, by decide +kernel⟩

/-- A DRAIN of two rows to INT8. -/
def drained : DrainOp := {
  ofmt := 0
  fp := false
  wide := false
  compat := false
  cfn := 0
  mvec := false
  rowq := false
  lp := false
  lq := false
  accr := 0
  n := 2
  dst := 64
  m := 322123
  s := 30
  param := 0
  qrec := 0
  smode := 0
  smerge := false
  srow := 0
  eadj := false }

theorem test_drain_issues : CanIssue 0 (queued (.drain drained)) { pos := 0, op := .drain drained, load := .waiting } (onCore (queued (.drain drained))) ∧
    (∀ x ∈ drained.outRows, x ∉ drained.statRows) :=
  ⟨⟨atHead_queued _, by decide +kernel, by decide +kernel, by decide +kernel, fun d h => by cases h; exact ⟨by decide +kernel, by decide +kernel⟩⟩, by decide +kernel⟩

/-- A MOVE to the first row of region 2, which another tenant holds, and one from a row that is not present. -/
theorem test_move_denied : ({ busyCore idle with regions := [(0, .work), (2, .resident 2)] } : Core).check 1 [63] [128] = .denied ∧
    ({ busyCore idle with presence := 0 } : Core).allPresent (Op.move moved).reads = false := by decide +kernel

theorem test_residency : (∀ x ∈ (List.range 2).map (0 + ·), (busyCore idle).region x = .work) ∧
    (let k := { busyCore idle with regions := [(0, .resident 1), (1, .resident 2)] }
     (∀ x ∈ (List.range 1).map (0 + ·), k.region x = .resident 1) ∧ ∃ x ∈ (List.range 2).map (0 + ·), ∃ o, o ≠ 1 ∧ k.region x = .resident o) :=
  ⟨by decide +kernel, by decide +kernel, 1, by decide +kernel, 2, by decide +kernel, by decide +kernel⟩

/-- Tenant 1 holds cores 0 and 1, 64 units of shared SRAM, KV pages, a token budget and version 1, which is ACTIVE; PF0 and the
tenant's function have a queue each. -/
def tenant1 : Tenant := { Tenant.init with
  cores := 3
  base := 1
  size := 64
  kvQuota := 64
  burst := 1000
  ledger := Pool.whole 1000
  slots := [(0, 1)]
  frameKib := 64
  appUnits := 4 }

def version1 : Version := { Version.free with
  state := 3
  owner := 1
  kind := 1
  nroles := 1
  ctxMax := 4096
  nkv := 1 }

def queue0 : HostQueue := { HostQueue.none with
  state := .active
  slots := { total := 16, free := 15, held := 1 } }

def regions : Tab RegionEntry := [
  (0, { RegionEntry.none with size := 4, type := 1, owner := 1 }),
  (1, { RegionEntry.none with base := 4, size := 8, type := 5, owner := 1 }),
  (2, { RegionEntry.none with base := 12, size := 1, type := 4, owner := 1 })]

/-- A line that has been written under key slot 0. -/
def written : LineTag := { poison := false, key := 0, epoch := 0, ue := false }

def hall : State := { up with
  gdl := { up.gdl with regions := regions }
  ddr := { up.ddr with nch := 32, gseg := 1, cap := 100, tags := [(0, written), (1, written)] }
  lfl := { up.lfl with tenants := [(1, tenant1)], versions := [(1, version1)], kvPages := 1000 }
  pci := { up.pci with funcs := [(0, { Func.init with queues := [(0, queue0)] }), (1, { Func.init with queues := [(0, queue0)], winEn := true })] }
  sec := { up.sec with kslots := [(0, { live := true, owner := 0, epoch := 0 })] } }

/-- The sender of the commands: queue 0 of a function, with JOB_ID 7. -/
def sender (fn : Fn) : Sub := { fn := fn, qid := 0, jobId := 7, noirq := false }

/-- The command's entry has been taken. -/
def taken (op : Byte) (fn : Fn) (s : State) : State := { s with pci := { s.pci with
  taken := [{ fn := fn, qid := 0, entry := padTo 64 ([op, 0, 0, 0] ++ toLE 4 7) }] } }

theorem test_begins : Begins 0x08 (sender 1) (taken 0x08 1 hall) := ⟨by decide, by decide, by decide⟩

/-- Core 0 runs a job of tenant 1 in the hall. -/
def hallCore (r : Run) : State := { hall with cores := [(0, busyCore r)] }

theorem hallCore_up (r : Run) : OnCore 0 r (hallCore r) :=
  ⟨(by decide : hall.running = true), (by decide : coreUp hall 0 = true), rfl⟩

/-- A STORE of one row to the tenant's first unit of shared SRAM, and to a unit that is not the tenant's. -/
theorem test_store : (∀ dst, (let st : StoreOp := { kind := 0, last := false, rows := 1, src := 0, dst := dst }
    AtHead 0 (queued (.store st)) { pos := 0, op := .store st, load := .waiting } (hallCore (queued (.store st))))) ∧
    (busyCore idle).allPresent [0] = true ∧ (busyCore idle).check 1 [0] [] = .ok ∧
    storeAllowed hall 1 { kind := 0, last := false, rows := 1, src := 0, dst := 64 } = true ∧
    storeAllowed hall 1 { kind := 0, last := false, rows := 1, src := 0, dst := 63 } = false :=
  ⟨fun _ => ⟨hallCore_up _, rfl, rfl⟩, by decide +kernel, by decide +kernel, by decide +kernel, by decide +kernel⟩

/-- A STORE of two lines that waits for its acknowledgement. -/
theorem test_store_ack : (let r := { idle with stores := [{ kind := 0, lines := [(4096, { data := [1], poison := false }), (4160, { data := [2], poison := false })] }] }
    (hallCore r).running = true ∧ (hallCore r).run 0 = some r ∧ r.stores ≠ [] ∧ r.suspending = false ∧ lineTaken 0 hall 4096 = true) := by
  decide +kernel

/-- The MATMUL of a Bell-4 tile in rows 0 to 31 with its scales in row 32 and one activation row in row 64. -/
def matmul : MatOp := {
  tfmt := 2
  afmt := 0
  trans := false
  acc := false
  wide := false
  lt := false
  ls := false
  ld := false
  la := false
  tile := 0
  scale := 32
  act := 64
  astride := 2
  n := 1
  d := 0
  delta := 0
  drows := 0
  texp := 0 }

theorem test_plane_load : (queued (.matmul matmul)).issues = true ∧
    loadTarget 0 [] (queued (.matmul matmul)).queue = some (0, matmul, []) ∧ (queued (.matmul matmul)).planeFree 0 = true ∧
    (busyCore idle).allPresent matmul.loadRows = true ∧ disjoint matmul.loadRows (([] : List QOp).flatMap QOp.writes) = true ∧
    (busyCore idle).check 1 matmul.loadRows [] = .ok ∧ (busyCore idle).poisoned matmul.loadRows = false := by decide +kernel

theorem test_matmul_issues : (let q : QOp := { pos := 0, op := .matmul matmul, load := .loaded 0 }
    let r := { idle with queue := [q] }
    AtHead 0 r q (onCore r) ∧ (busyCore r).allPresent q.op.reads = true ∧ (busyCore r).check 1 q.op.reads [] = .ok ∧
      disjoint matmul.accRows r.pendingAcc = true ∧ (busyCore r).poisoned q.op.reads = false) :=
  ⟨⟨onCore_up _, rfl, rfl⟩, by decide +kernel, by decide +kernel, by decide +kernel, by decide +kernel⟩

theorem test_row_slot : (let a : ArrayOp := { m := matmul, plane := 0, slot := 0, acts := [[1, 2, 3]] }
    let r := { idle with array := [a] }
    OnCore 0 r (onCore r) ∧ r.array = a :: [] ∧ r.suspending = false ∧ a.m.tfmt < 3 ∧ a.m.wide = false) :=
  ⟨onCore_up _, rfl, rfl, by decide, rfl⟩

/-- FETCH of one row from the tenant's first unit into region 2. -/
def fetched : FetchOp := { kind := 0, fallback := false, rows := 1, dst := 128, src := 64 }

theorem test_fetch : (let s := program [0x10 + 128 * 2 ^ 22 + 64 * 2 ^ 41] (hallCore idle)
    OnCore 0 idle s ∧ idle.decodes = true ∧ nextOp s 0 idle = some (.ok (.fetch fetched)) ∧ fetchFaults s 0 idle fetched = [] ∧
      fetchReady (s.core 0) idle fetched = true ∧
      ((s.core 0).setRegions (streamTargets (s.core 0) idle fetched) .stream).credits.balanced = true) :=
  ⟨⟨by decide +kernel, by decide +kernel, by decide +kernel⟩, by decide, by decide +kernel, by decide +kernel, by decide +kernel, by decide +kernel⟩

/-- Region 2 is STREAM: the FETCH waits. With nothing outstanding and a STORE that lacks its row, the credit stalls. -/
theorem test_fetch_waits : (let st : StoreOp := { kind := 0, last := false, rows := 1, src := 250, dst := 64 }
    let r := queued (.store st)
    let k := { busyCore r with regions := [(0, .work), (1, .work), (2, .stream)] }
    let s := program [0x10 + 128 * 2 ^ 22 + 64 * 2 ^ 41] { hall with cores := [(0, k)] }
    fetchReady k r fetched = false ∧ waitsForCredit s 0 r = true ∧ r.quiet = true ∧ headLacks k r = true) := by decide +kernel

theorem test_fetch_lands : (let d : RowData := { data := [1], poison := false }
    let x : Transfer := { num := 0, f := fetched, landed := 0, rows := [some d], streaming := true }
    let r := { idle with transfers := [x] }
    OnCore 0 r (hallCore r) ∧ r.transfers.find? (fun x => x.num = 0) = some x ∧ arrival (hallCore r) r x = .row d ∧ r.cancelling = false ∧
      r.suspending = false ∧ x.f.dst + x.landed < 8192) :=
  ⟨hallCore_up _, by decide +kernel, by decide +kernel, by decide +kernel, by decide +kernel, by decide⟩

/-- Core 0 has the job 0 of tenant 1 assigned. -/
theorem test_job_start : (let s := { hall with cores := [(0, { Core.init with assigned := some (0, 1, 0) })] }
    s.running = true ∧ coreUp s 0 = true ∧ (s.core 0).assigned = some (0, 1, 0) ∧ canStart s 0 = true ∧
      ∀ w ∈ s.longWaiters (.job 0), w.2 ≠ 0x18) := by decide +kernel

/-- The program image of one operation in the tenant's first unit, and a unit of zeros, which holds no header. -/
theorem test_program_load : (let r := { idle with phase := .loading, image := 0x8000000000000000 }
    let s := hallCore r
    let t := { s with mem := s.mem.wrSram 4096 [1, 0, 1, 0] }
    s.run 0 = some r ∧ r.ending = none ∧ r.ended = false ∧ (∀ f n a, (s.job r.job).kind ≠ .resideLoad f n a) ∧
      imagePlace s 1 r.image = some (.sram 4096) ∧ mayReadPlace s 1 (.sram 4096) 64 = true ∧
      ((placeRows s (.sram 4096) 1).getD 0 { data := [], poison := true }).poison = false ∧
      parseHeader ((placeRows s (.sram 4096) 1).getD 0 { data := [], poison := true }).data = none ∧
      parseHeader ((placeRows t (.sram 4096) 1).getD 0 { data := [], poison := true }).data =
        some { count := 1, workset := 0, init := [0, 0, 0, 0, 0, 0, 0] } ∧
      mayReadPlace t 1 (.sram 4096) (imageBytes 1) = true ∧ (∀ x ∈ placeRows t (.sram 4096) (imageBytes 1 / 64), x.poison = false ∧ x.data.length = 64) ∧
      worksetOk (t.core 0) 1 0 = true ∧ (s.core 0).errValid = false) :=
  ⟨rfl, rfl, rfl, fun _ _ _ h => JobKind.noConfusion h, by decide +kernel, by decide +kernel, by decide +kernel, by decide +kernel, by decide +kernel, by decide +kernel,
    by decide +kernel, by decide +kernel, by decide +kernel⟩

theorem test_first_decode : (let r := { idle with phase := .loaded }
    (hallCore r).run 0 = some r ∧ r.phase = .loaded ∧ r.ending = none) := ⟨rfl, rfl, rfl⟩

theorem core_of_others (r : Run) (d : Nat) (h : d ≠ 0) : (hallCore r).core d = Core.init := by
  simp [hallCore, State.core, Tab.get, h]

/-- A job that has reached its END, and one that its time limit ends. -/
theorem test_job_ends : (let r := { idle with ended := true }
    OnCore 0 r (hallCore r) ∧ (∃ p ∈ (hallCore r).lfl.tenants, p.2.cores.getLsbD 0 = true) ∧ r.ends = true ∧ r.ending = none) ∧
    (let r := { idle with ending := some (St.timeout, 0) }
     r.ends = true ∧ St.timeout ≠ St.ok ∧ r.unreside = [] ∧ ((hallCore r).core 0).kept = none ∧ ((hallCore r).core 0).assigned = none ∧
       ∀ d, d ≠ 0 → ((hallCore r).core d).runs r.job = false ∧ ((hallCore r).core d).keeps r.job = false ∧ ((hallCore r).core d).awaits r.job = false) :=
  ⟨⟨hallCore_up _, ⟨(1, tenant1), by decide, by decide⟩, by decide, rfl⟩, by decide, by decide, rfl, rfl, rfl,
    fun d h => by rw [core_of_others _ d h]; decide⟩

theorem test_core_fences_itself : hall.running = true ∧ coreUp hall 63 = true ∧ (hall.core 63).run = none ∧ (hall.core 63).kept = none ∧
    (hall.core 63).assigned = none ∧ fenceCauseHolds (hall.core 63) (.ctrl 15) = true ∧
    fenceCauseHolds { Core.init with ueRows := [3, 19] } (.bank 3) = true := by decide

theorem test_core_windows_open : pf0Open hall 0 = true ∧ coreUp hall 0 = true ∧ coreWindowOpen hall 0 0 = true ∧
    coreWindowOpen (hallCore idle) 1 0 = true := by decide +kernel

/-! ## Witnesses: streams and chunk jobs -/

/-- Stream context 0 of tenant 1. -/
def withCtx (x : Context) : State := { hall with sfe := { hall.sfe with ctxs := [(0, x)] } }

def open1 : Context := { Context.init with
  cfgOwner := 1
  kind := 3
  rsv := 2
  life := .running
  handle := 1 }

/-- Idle at exactly LFL's limit, leaving, coming back, marked, and ready to close. -/
theorem test_contexts_move : (let s := { withCtx open1 with timer := 38400 * 2000 }
    s.running = true ∧ s.lfl.idleMs ≠ 0 ∧ (s.ctx 0).life = .running ∧ (s.ctx 0).lastFrame + s.lfl.idleMs.toNat = s.ms) ∧
    (let s := withCtx { open1 with loc := .swapOut, units := [1] }
     domUp s 0x70 = true ∧ (s.ctx 0).ready = [] ∧ (s.ctx 0).needSlot = false ∧ ∀ d, d ∈ tenantCtxs s (s.ctx 0).owner → (s.ctx d).needSlot = false) ∧
    (let s := withCtx { open1 with loc := .swapIn, units := [1] }
     domUp s 0x70 = true ∧ (s.ctx 0).swapWant = false ∧ (s.ctx 0).units.Nodup ∧ sramOff s 4096 = false ∧
       ∀ d, d ∈ tenantCtxs s (s.ctx 0).owner → (s.ctx d).needSlot = false) ∧
    (let s := withCtx { open1 with marksSent := 1 }
     (s.ctx 0).marksSent ≠ 0 ∧ (s.ctx 0).life ≠ .closed ∧ (s.ctx 0).zeroPend = false) ∧
    closeReady (withCtx { open1 with life := .closing }) 0 = true ∧ pf0Open hall 0 = true := by decide +kernel

/-- A ready chunk of operator 0 of context 0, which its instance may take at once. -/
def chunkState : State :=
  let x := { open1 with
    loc := .present
    ready := [{ op := 0, seq := 0, firstFrame := 0, steps := 1, since := 0, deadline := 0, waitState := false, reset := true, gap := false, padded := false }] }
  let o : OpInst := { tenant := 1, handle := 1, lsteps := 1, bmax := 1, stateOff := 0, stateLen := 64, bwin := 0, pos := 0, opidx := 0, stage := 0 }
  { withCtx x with lfl := { hall.lfl with insts := [(0, o)] } }

theorem test_chunk_starts : chunkState.running = true ∧ instBusy chunkState 0 = false ∧ batchFull chunkState 0 = true ∧ windowOver chunkState 0 = true ∧
    mayStart chunkState {
      cls := 0
      key := 0
      age := (takable chunkState 0).foldl (fun m x => min m x.2.since) chunkState.ns
      gang := chunkGang chunkState 1 1 } = true := by decide +kernel

/-- A chunk job of one member, in a state and with a result. -/
def chunkJob (st : JobStatus) (result : BitVec 16) : State :=
  let m : Member := { ctx := 0, op := 0, seq := 0, firstFrame := 0, steps := 1, deadline := 0, discard := false, reset := true, gap := false, padded := false }
  { chunkState with lfl := { chunkState.lfl with jobs := [(0, { Job.none with
    kind := .chunk 0 [m]
    tenant := 1
    state := st
    result := result })] } }

theorem test_chunk_ends : (∃ ms, ((chunkJob .done St.ok).job 0).kind = .chunk 0 ms) ∧
    ((chunkJob .done St.ok).job 0).state = .done ∧ ((chunkJob .done St.ok).job 0).result = St.ok ∧
    (let s := chunkJob .done St.unitFenced
     rerunStatus (s.job 0).result = true ∧ (s.job 0).rerun = false ∧ (versionOf s (s.inst 0).handle).nroles ≤ (partitionCores s (s.inst 0).tenant).length) ∧
    ((chunkJob .copying St.ok).job 0).state = .copying ∧ ((chunkJob .copying St.ok).job 0).committed = 0 :=
  ⟨⟨_, rfl⟩, by decide, by decide, by decide +kernel, by decide, by decide⟩

/-- The member's state slot is present, and its length and place are as the record says. -/
theorem test_member_commits : (let s := chunkJob .copying St.ok
    let x := { s.ctx 0 with units := [1] }
    x.loc = .present ∧ x.zeroPend = false ∧ x.swapWant = false ∧ x.needSlot = false ∧ (s.inst 0).stateOff % 64 = 0 ∧
      (s.inst 0).stateOff + (s.inst 0).stateLen ≤ 4096 * x.units.length ∧ x.units.Nodup ∧ 0 < (s.inst 0).stateLen / 64) := by decide +kernel

/-! ## Witnesses: bridges and the weight stream -/

/-- A flit that waits on lane group 0, one that was on lane group 7, and bridge 0 with its last lane group alone. -/
theorem test_bridges : 7 ∈ workingLanes hall 0 ∧ 0 ∈ workingLanes hall 0 ∧ workingLanes hall 0 ≠ [7] ∧
    (∃ b, hall.bridges[0]? = some b ∧ (∀ f ∈ b.replay, f.lane ≠ some 7) ∧ b.credits.free ≠ 0) ∧
    workingLanes { hall with fences := { hall.fences with brC0 := 0x7F } } 0 = [7] ∧ pf0Open hall 0 = true :=
  ⟨by decide, by decide, by decide, ⟨_, rfl, by decide, by decide⟩, by decide, by decide⟩

theorem test_replay_held : (let b : BridgeDir := { BridgeDir.init 512 with replay := [{ lane := some 3 }, { lane := some 7 }] }
    b.replay = [{ lane := some 3 }] ++ { lane := some 7 } :: [] ∧ ∀ f ∈ [({ lane := some 3 } : Flit)], f.lane ≠ some 7) := by decide

/-- RGN_SEL with and without APPLY; entry 3 takes a span that no other entry holds. -/
theorem test_region_apply : (0x03#32).getLsbD 8 = false ∧ (0x103#32).getLsbD 8 = true ∧
    (let s := { hall with gdl := { hall.gdl with rgnSpan := 0x00010020#32, rgnAttr := 0x101#64 } }
     pf0Open s 0 = true ∧ (newRegion s).size ≠ 0 ∧ (newRegion s).type = 1 ∧ (newRegion s).owner = 1 ∧ regionBusy s 3 = false ∧
       ∀ x ∈ s.gdl.regions, x.1 ≠ 3 → x.2.size ≠ 0 → x.2.hi ≤ (newRegion s).lo ∨ (newRegion s).hi ≤ x.2.lo) := by decide +kernel

/-- A pass of one layer of two Bell-4 tiles for cores 0 and 1. -/
def layer : LayerRec := { block0 := 0, ntiles := 2, tfmt := 2, chan := 3, set0 := 0, nsets := 1, fbElig := true, dfrac := 65535, fbOff := 0 }

def pass : GdlPass := { GdlPass.none with
  handle := 1
  sets := [3]
  layers := [layer]
  snowEn := 0x7FFF }

/-- A row of the tile, and a tile in the delivery buffer that waits for half 0. -/
def row : RowData := { data := [1], poison := false }

def tile (blocks : List BlockState) (complete : Bool) : BufEntry :=
  { pass := 0, layer := 0, tile := 0, blocks := blocks, complete := complete, waiting := [(0, 0)], fallback := [] }

/-- A FETCH of one row of channel 3. -/
def posted (fallback : Bool) : Run := { idle with transfers := [{
  num := 0
  f := { kind := 2, fallback := fallback, rows := 1, dst := 0, src := 3 }
  landed := 0
  rows := [none]
  streaming := false }] }

def stream (b : Option BufEntry) (r : Run) : State := { hall with
  cores := [(0, busyCore r)]
  gdl := { hall.gdl with passes := [(0, pass)], buffer := b.toList.map fun x => (0, some x) } }

theorem test_tile_reads : (let s := stream none idle
    s.running = true ∧ domUp s 0x70 = true ∧ freeEntry s = some 0 ∧ (s.pass 0).images = [] ∧ (s.pass 0).layer < (s.pass 0).layers.length ∧
      (s.pass 0).tile < ((s.pass 0).layerAt (s.pass 0).layer).ntiles) ∧ ({ pass with images := [row] } : GdlPass).images ≠ [] := by decide +kernel

/-- A coded block of table 5, a slot free for its table, then loading, then loaded; an Expander with room. -/
theorem test_tables : (let s := stream (some (tile [.coded 1 5 [row] 0] false)) idle
    let t := { s with gdl := { s.gdl with slots := [(2, { TableSlot.none with tag := some (1, 5) })] } }
    let u := { s with gdl := { s.gdl with slots := [(2, { TableSlot.none with tag := some (1, 5), loading := true })] } }
    wantsTable s 0 5 = some 1 ∧ (∀ i, i < 4 → (s.slot i).tag ≠ some (1, 5)) ∧ (∃ i, i < 4 ∧ slotFree (s.slot i) = true) ∧
      (u.slot 2).loading = true ∧ (s.buf 0).isSome = true ∧ (tile [.coded 1 5 [row] 0] false).blocks[0]? = some (.coded 1 5 [row] 0) ∧
      slotOf t 1 5 = some 2 ∧ (t.slot 2).loading = false ∧ ∃ x, x < 8 ∧ (t.expander x).length < 2) := by decide +kernel

theorem test_expander : (let x : ExpBlock := { entry := 0, blk := 0, pass := 0, layer := 0, tile := 0, slot := 2, lines := [row], crc := 0 }
    ({ hall with gdl := { hall.gdl with expanders := [(7, [x])] } } : State).expander 7 = x :: []) := by decide +kernel

theorem test_tile_complete : (stream (some (tile [.ready [row]] false)) idle).buf 0 = some (tile [.ready [row]] false) ∧
    ∀ x ∈ (tile [.ready [row]] false).blocks, ∃ ls, x = .ready ls := by
  refine ⟨by decide +kernel, fun x h => ⟨[row], ?_⟩⟩
  simpa [tile] using h

theorem test_tile_departs : (let s := stream (some (tile [.ready [row]] true)) (posted false)
    let b := tile [.ready [row]] true
    s.buf 0 = some b ∧ b.complete = true ∧ (s.pass b.pass).layers[b.layer]? = some layer ∧ 0 < layer.ntiles ∧
      b.waiting.find? (fun w => w.1 = 0) = some (0, 0) ∧ Tab.get [] b.fallback 0 = [] ∧ b.rows ≠ [] ∧ behind s b 0 = false ∧
      setCores s (s.pass b.pass) b.layer b.tile 0 = [0, 1] ∧ (∀ c ∈ [0], b.rows.length ≤ roomFor s c layer.chan) ∧ b.rows.length ≤ 8192) := by
  decide +kernel

/-- The same with core 0 alone in the set. -/
theorem test_tile_departs_to_core : (let s := stream (some (tile [.ready [row]] true)) (posted false)
    let t := { s with gdl := { s.gdl with passes := [(0, { pass with sets := [1] })] } }
    setCores t (t.pass 0) 0 0 0 ≠ [] ∧ ∀ c ∈ setCores t (t.pass 0) 0 0 0, 1 ≤ roomFor t c layer.chan) := by decide +kernel

/-- A tile that is late at the instant of its deadline, in the buffer and before its read; and a complete one. -/
theorem test_tile_deadline : (let s := stream (some (tile [.inExpander] false)) idle
    (s.pass 0).layers[0]? = some layer ∧ layer.fbElig = true ∧ 0 < layer.ntiles ∧
      (s.pass 0).start + layer.dfrac * (s.pass 0).budget / 65536 ≤ s.ns ∧ (0, 0, 0) ∉ (s.pass 0).late ∧
      tileEntry s 0 0 0 = some (0, tile [.inExpander] false) ∧ (∃ w ∈ (tile [.inExpander] false).waiting, w.1 = 0)) ∧
    (let s := stream none idle
     tileEntry s 0 0 1 = none ∧ (s.pass 0).layer = 0 ∧ (s.pass 0).tile ≤ 1 ∧ setCores s (s.pass 0) 0 1 0 ≠ []) ∧
    tileEntry (stream (some (tile [.ready [row]] true)) idle) 0 0 0 = some (0, tile [.ready [row]] true) := by decide +kernel

/-- A late tile whose FETCH takes a fallback tile, and the fallback tile ready to depart. -/
theorem test_fallback : (let s := stream (some (tile [.inExpander] false)) (posted true)
    let t := { s with gdl := { s.gdl with passes := [(0, { pass with late := [(0, 0, 0)], sets := [1] })] } }
    let b := { tile [.inExpander] false with fallback := [(0, [row])] }
    (0, 0, 0) ∈ (t.pass 0).late ∧ tileEntry t 0 0 0 = some (0, tile [.inExpander] false) ∧ fallbackApplies t (t.pass 0) 0 0 0 = true ∧ layer.tfmt = 2 ∧
      Tab.get [] b.fallback 0 ≠ [] ∧ behind t b 0 = false ∧ (setCores t (t.pass 0) 0 0 0 ≠ []) ∧
      (∀ c ∈ setCores t (t.pass 0) 0 0 0, (Tab.get [] b.fallback 0).length ≤ roomFor t c layer.chan)) := by decide +kernel

/-! ## Witnesses: DRAM -/

/-- Port 0 with 16 tokens free and 4 held in account 0. -/
def tokens : State := { hall with ddr := { hall.ddr with
  ports := { total := 20, accts := { Account.init 0 0 with free := 16, held := 4 } :: (List.range 15).map fun a => Account.init 0 (a + 1) } ::
    (List.range 6).map fun p => Port.init (p + 1) } }

theorem test_tokens : tokens.running = true ∧ (∃ x y, tokens.ddr.ports[0]? = some x ∧ x.accts[0]? = some y ∧ x.whole.balanced = true ∧ 4 ≤ y.held ∧ y.mode = 1) ∧
    grantable tokens 0 0 0 4 = true ∧ domUp tokens 0x70 = true :=
  ⟨by decide +kernel, ⟨_, _, rfl, rfl, by decide +kernel, by decide, by decide⟩, by decide +kernel, by decide +kernel⟩

/-- A granted read of line 0 of region 0, whose key is that of the line. -/
theorem test_grant_completes : (let g : Grant := { port := 0, acct := 0, line := 0, k := 1, write := false }
    let s := { tokens with ddr := { tokens.ddr with grants := [g] } }
    firstGrant 0 s.ddr.grants = some g ∧ ¬((s.dom (groupDom s (64 * g.line))).state = .off ∨ (s.dom (groupDom s (64 * g.line))).reset = true) ∧
      keyMismatch s (64 * g.line) = false) := by decide +kernel

theorem test_token_modes : ({ Account.init 0 0 with mode := 2 } : Account).mode = 2 ∧ (Account.init 0 1).mode = 0 := by decide

theorem test_dram_timers : 31 ∈ channels hall ∧ (List.replicate 32 (1 : Word)).length = 32 ∧ domUp hall 0x67 = true ∧
    slotOwner (hall.chan 31) (hall.chan 31).wheelPos.toNat = none ∧ hall.ddr.patrolH ≠ 0 ∧ domUp hall (groupDom hall (64 * 5)) = true ∧
    (let s := { hall with ddr := { hall.ddr with chans := [(31, { Channel.init with nr := [(bankKey 1 15, [7])] })] } }
     Tab.get [] (s.chan 31).nr (bankKey 1 15) = [7] ∧ Tab.get [] (s.chan 31).nr (bankKey 0 15) = []) := by decide +kernel

/-- An account that the rules allow: port 1, account 1, mode 2 with a slot; and a pair with two rows in error. -/
theorem test_account_apply : (let s := { hall with ddr := { hall.ddr with regCfg := 0x0010000108 + 2 * 2 ^ 10 + 16 * 2 ^ 32 } }
    pf0Open s 0 = true ∧ (0x111#32).getLsbD 8 = true ∧ s.ddr.regCfg.extractLsb' 10 2 = 2) ∧
    (let s := { hall with ddr := { hall.ddr with chans := [(31, { Channel.init with ueRows := [(0, 0, 1), (0, 0, 2)] })] } }
     31 / 2 = (15 : Fin 16).val ∧ 2 ≤ (s.chan 31).ueRows.length) := by decide +kernel

theorem test_retrain_due : (let s := { hall with timer := 38400 * 600000 }
    s.ddr.periodS ≠ 0 ∧ s.ddr.lastTrain + s.ddr.periodS.toNat * 10 ^ 9 ≤ s.ns) ∧
    (let s := { hall with pwr := { hall.pwr with temps := [10] } }
     s.ddr.tempDelta ≠ 0 ∧ s.ddr.tempDelta.toNat ≤ (junction s - s.ddr.lastTemp).natAbs) := by decide +kernel

theorem test_retrain_command : Begins 0x28 (sender 0) (taken 0x28 0 hall) := ⟨by decide, by decide, by decide⟩

/-- The retraining of the first channel, and of the last. -/
theorem test_retrain_channel : (let r : Retrain := { chan := 0, suspended := false, cmd := none }
    let s := { hall with ddr := { hall.ddr with retrain := some r } }
    r.chan ∈ channels s ∧ (trainable s).find? (fun c => decide (r.chan < c)) = some 1 ∧ (trainable s).find? (fun c => decide (31 < c)) = none ∧
      s.ddr.retrainDue = false ∧ s.ddr.retrainQ = []) := by decide +kernel

/-! ## Witnesses: the stream front end -/

/-- The record of an open: the backing area is all of the tenant's STREAM region, the input area the partition's first unit. -/
def record : Bytes := zeros 32 ++ toLE 8 (12 * 2 ^ 21) ++ zeros 24

theorem test_stream_open : (let s := withCtx { open1 with life := .closed }
    Begins 0x04 (sender 1) (taken 0x04 1 s)) := ⟨by decide, by decide, by decide⟩

theorem test_stream_opens : (let s := withCtx { open1 with life := .closed }
    (s.ctx 0).owner = 1 ∧ (s.ctx 0).life = .closed ∧ handleEntry s 1 = some 1 ∧ (s.version 1).state = 3 ∧ openTo s 1 (s.version 1) = true ∧
      badStream s 1 (s.ctx 0) record = false ∧ s.sfe.pool.balanced = true ∧ 2 ≤ s.sfe.pool.free) := by decide +kernel

/-- Every command of an open context is taken; the context is idle, of the sender's tenant, and its state is present or leaves. -/
theorem test_stream_commands : (∀ op ∈ [(0x03 : Byte), 0x05, 0x07], Begins op.toNat (sender 1) (taken op 1 (withCtx { open1 with life := .idle }))) ∧
    ctxInFlight (withCtx { open1 with loc := .present }) 0 = false ∧ ({ open1 with loc := .swapOut } : Context).swapWant = false := by
  refine ⟨fun op h => ?_, by decide, rfl⟩
  simp only [List.mem_cons, List.not_mem_nil, or_false] at h
  obtain rfl | rfl | rfl := h <;> exact ⟨by decide, by decide, by decide⟩

theorem test_context_grant : bar0Open hall 0 = true ∧ bar0Open hall 1 = true ∧ (0x17#32).getLsbD 5 = false ∧ (0x37#32).getLsbD 5 = true := by decide

/-- Port 0 is on; its virtual channel 1 brings frames of one line of two RGB pixels to camera context 0. -/
def camera : State := { hall with sfe := { hall.sfe with
  ports := [(0, { CsiPort.init with en := true, on := true })]
  vcsNow := [(0, { en := true, vcid := 1, dt := 0x24, width := 2, height := 1 })]
  frames := [(0, { CsiFrame.none with active := true, lines := [[1, 2, 3, 4, 5, 6]] })]
  ctxs := [(0, { open1 with kind := 1 })] } }

theorem test_csi_packets : domUp camera 0x71 = true ∧ camera.fences.csi.getLsbD 0 = false ∧ (camera.csiPort 0).on = true ∧
    (camera.csiVc 0).en = true ∧ (camera.csiVc 0).vcid = 1 ∧ (camera.csiVc 0).dt = 0x24 ∧ (camera.csiVc 1).en = false ∧
    (camera.csiFrame 0).active = true ∧ camCtx camera 0 = some 0 ∧ (camera.csiFrame 0).lost = false ∧
    (camera.csiFrame 0).lines.length = (camera.csiVc 0).height.toNat ∧ Tab.get 0 camera.sfe.decim 0 % max 1 (camera.ctx 0).params.decim = 0 ∧
    (camera.ctx 0).images.head? ≠ some none := by decide +kernel

/-- An image that waits for its context, and a hop of 480 samples. -/
theorem test_frames_arrive : (let im : ImageIn := { lines := [[1, 2, 3, 4, 5, 6]], dt := 0x24, timestamp := 0, jump := false }
    let s := withCtx { open1 with kind := 1, images := [some im] }
    takesFrames (s.ctx 0) = true ∧ (s.ctx 0).images = some im :: [] ∧ noRoom (s.ctx 0) = false) ∧
    (let s := withCtx { open1 with kind := 2, newSamples := List.replicate 480 (some 0) }
     takesFrames (s.ctx 0) = true ∧ (s.ctx 0).kind = 2 ∧ 480 ≤ (s.ctx 0).newSamples.length ∧ noRoom (s.ctx 0) = false ∧
       ((s.ctx 0).newSamples.take 480).any (·.isNone) = false) := by decide +kernel

theorem test_stream_push : Begins 0x06 (sender 1) (taken 0x06 1 (withCtx open1)) ∧ takesFrames open1 = true ∧ (List.replicate 960 (0 : Byte)).length % 960 = 0 ∧
    1 ≤ rowRoom open1 := ⟨⟨by decide, by decide, by decide⟩, by decide, by decide +kernel, by decide⟩

/-! ## Witnesses: the flash tier and the embedded flash -/

/-- Four channels of two LUNs with 8 blocks of 64 pages; block 64 is in a state. -/
def flash (b : FltBlock) : State := { hall with
  flt := { hall.flt with state := 2, channels := 4, luns := 2, pages := 64, blocks := 8, sets := 4, table := [(64, b)] }
  pci := { hall.pci with funcs := [(0, { Func.init with expertEn := true, queues := [(0, queue0)] })] } }

def blockIn (st : BitVec 4) : FltBlock := { state := st, wptr := 0, pins := 0 }

theorem test_flash_begins : ∀ op ∈ [(0x20 : Byte), 0x21, 0x22, 0x23, 0x24, 0x25], Begins op.toNat (sender 0) (taken op 0 (flash (blockIn 0))) := by
  intro op h
  simp only [List.mem_cons, List.not_mem_nil, or_false] at h
  obtain rfl | rfl | rfl | rfl | rfl | rfl := h <;> exact ⟨by decide, by decide, by decide⟩

/-- No check stops: a program of all 64 pages of a FREE block, a seal and a retire of an OPEN one, an erase, a direct read, a
format. -/
theorem test_flash_checks_pass : (let s := flash (blockIn 0)
    s.flt.state = 2 ∧ domUp s 0x72 = true ∧ 64 % 8 < s.flt.channels.toNat ∧ 64 / 8 % 8 < s.flt.luns.toNat ∧ 64 / 64 < s.flt.blocks.toNat ∧
      ¬s.flt.pages.toNat < 0 + 64 ∧ (s.block 64).state = 0 ∧ (s.block 64).wptr = 0 ∧ (s.block 64).pins = 0 ∧ s.flashCmd s.flt.nextCmd = none ∧
      expert s 0 = true ∧ (s.lun (64 % 64)).reads = []) ∧ ((flash (blockIn 1)).block 64).state = 1 := by decide +kernel

/-- A command in work on block 64. -/
def flashCmd (kind : Nat) : FlashCmd := {
  num := 0
  sub := sender 0
  kind := kind
  blocks := [64]
  page := 0
  left := 2
  host := 0
  raw := false
  suspended := false
  cancelled := false
  failPage := none }

theorem test_flash_work : (let r : JRec := { type := 2, addr := 64, seq := 0, cmd := none }
    let s := { flash (blockIn 1) with flt := { (flash (blockIn 1)).flt with journals := [(0, { Journal.init with programming := some [r], seq := 1 })] } }
    s.running = true ∧ domUp s 0x72 = true ∧ (s.journal 0).ckpt = 0 ∧ (s.journal 0).programming = some [r]) ∧
    (let s := { flash (blockIn 1) with flt := { (flash (blockIn 1)).flt with cmds := [flashCmd 0x20] } }
     (s.lun (64 % 64)).erase = none ∧ programOf s 64 = some (flashCmd 0x20) ∧ s.flashCmd 0 = some (flashCmd 0x20) ∧ (flashCmd 0x20).page = (s.block 64).wptr) ∧
    (let e : LunErase := { block := 64, cmd := none, since := 0, byCtrl := false, byHost := false, served := 0 }
     let p : PageRead := { block := 64, page := 3, who := .direct 0 }
     let s := { flash (blockIn 4) with
       flt := { (flash (blockIn 4)).flt with units := [(0, { Lun.idle with erase := some e, reads := [p] }), (8, { Lun.idle with reading := some p })], cmds := [flashCmd 0x24] }
       timer := 38400 }
     (s.lun (64 % 64)).erase = some e ∧ (s.lun (0 + 8 * 0)).reads ≠ [] ∧ max 100 s.flt.suspMin.toNat ≤ (s.timer - e.since) * 10 / 384 ∧
       (s.lun (0 + 8 * 1)).reading = some p ∧ s.flashCmd 0 = some (flashCmd 0x24)) := by decide +kernel

theorem test_flash_bringup : (let s := { hall with flt := { hall.flt with state := 1 } }
    s.flt.state = 1 ∧ domUp s 0x72 = true ∧ s.boot.fatal = false ∧ s.flt.blank = true) ∧ bar0Open hall 0 = true := by decide

/-- The last line that programs, of FFH bytes; a program in progress in bank 1; a busy bank and a free one. -/
theorem test_efl : (let s := { hall with efl := { hall.efl with busy := [(1, { erase := false, line := 2 ^ 18, data := zeros 32 })] } }
    s.boot.fatal = false ∧ (0x00FEFFE1#32).extractLsb' 0 2 = 1 ∧ ((0x00FEFFE1#32).extractLsb' 5 19).toNat = 0xFF0000 / 32 - 1 ∧
      eflBusy s 0 = none ∧ eflBusy s 1 = some { erase := false, line := 2 ^ 18, data := zeros 32 } ∧ (∀ b ∈ s.mem.rdEfl 0 32, b = 0xFF)) := by decide +kernel

/-! ## Witnesses: serving -/

theorem test_serving_registers : bar0Open hall 0 = true ∧ (0x11#32).getLsbD 4 = true ∧ (0x01#32).getLsbD 4 = false ∧ hall.lfl.kvPool.held = 0 ∧
    ((List.range 16).map fun o => (hall.tenant o).kvQuota.toNat).sum = 64 := by decide +kernel

/-- A request of 16 prompt tokens and up to 16 more, which the tenant has room for. -/
def generate : GenReq := {
  slot := 0
  pin := false
  nospec := false
  devsrc := false
  progress := false
  handle := 0
  maxOut := 16
  plen := 16
  dslot := 0xFF
  k := 0
  deadline := 0
  prompt := 0
  out := 0x1000
  outlen := 64
  tokens := List.replicate 16 5 }

theorem test_generate_admitted : (let s := hall
    let x := s.tenant 1
    let v := s.version 1
    let need := v.nkv * ((16 + 16 + 0 + 15) / 16)
    Tab.get 0 x.slots 0 = 1 ∧ v.state = 3 ∧ v.gen.toNat = 0 ∧ openTo s 1 v = true ∧ v.kind = 1 ∧ ¬v.ctxMax < 16 + 16 + 0 ∧
      ¬(partitionCores s 1).length < v.nroles ∧ x.quotaStale = false ∧ ¬x.frameKib.toNat * 1024 < (geomOf s v).page ∧ ¬x.kvQuota.toNat < need ∧
      ¬x.burst.toNat < 16 ∧ ¬x.contexts ≤ admitted s 1 ∧ ¬freeQuota s 1 < need ∧ ¬x.ledger.free < 16) := by decide +kernel

theorem test_generate : Begins 0x01 (sender 1) (taken 0x01 1 hall) := ⟨by decide, by decide, by decide⟩

/-- Request 0 of tenant 1, in the hall. -/
def request (r : Request) : State := { hall with lfl := { hall.lfl with requests := [(0, r)] } }

def asked : Request := { Request.none with
  sub := sender 1
  tenant := 1
  main := 1
  plen := 16
  maxOut := 16
  seq := { handle := 1, lkv := 0, blocks := [], prov := 0 } }

theorem test_request_completes : (let s := request { asked with stopped := true }
    s.running = true ∧ (s.req 0).maxOut ≠ 0 ∧ busyReq s 0 = false ∧ (s.req 0).stopped = true ∧ (s.dom 0x70).reset = false) := by decide

theorem test_pass_dispatch : (∃ r, readyPass (request asked) 1 = some r ∧ mayStart (request asked) r = true) ∧ readyPass hall 1 = none :=
  ⟨⟨_, rfl, by decide +kernel⟩, by decide⟩

/-- A host job for core 0, which waits, is suspended, or runs past its limit. -/
def hostJob (st : JobStatus) : Job := { Job.none with
  kind := .run true
  tenant := 1
  sub := some (sender 1)
  gang := [(0, 0)]
  limit := 1000
  state := st }

def jobs (j : Job) : State := { hall with lfl := { hall.lfl with jobs := [(0, j)] } }

theorem test_job_dispatch : (let s := jobs (hostJob .ready)
    ∃ x, jobStatusNow s (s.job 0) = none ∧ (readyJobs s).find? (fun x => x.1 = 0) = some x ∧ mayStart s x.2 = true) ∧
    (let s := { jobs (hostJob .ready) with fences := { hall.fences with cores := 1 } }
     ∃ st, jobStatusNow s (s.job 0) = some st) :=
  ⟨⟨_, by decide +kernel, rfl, by decide +kernel⟩, ⟨_, rfl⟩⟩

theorem test_job_resumes : (let k : KeptRun := { run := idle, regions := [], acc := [], plane0 := Plane.zero, plane1 := Plane.zero, prog := [] }
    let s := { jobs (hostJob .suspended) with
      cores := [(0, { Core.init with owner := 1, kept := some k })]
      lfl := { (jobs (hostJob .suspended)).lfl with longOps := [{ fn := 1, jobId := 7, kind := .job 0, suspended := true, waiting := [(sender 1, 0x19)] }] } }
    (∃ w ∈ s.longWaiters (.job 0), w.2 = 0x19) ∧ ((s.job 0).gang.map (·.1)).filter (fun c => (s.core c).keeps 0) = [0] ∧ coreUp s 0 = true ∧
      (s.core 0).run = none ∧ (s.core 0).assigned = none) := by decide +kernel

theorem test_job_timeout : (let s := { jobs (hostJob .running) with cores := [(0, busyCore idle)], timer := 384 }
    (s.job 0).state = .running ∧ (s.job 0).limit ≤ timeRun s (s.job 0) ∧ (s.core 0).runs 0 = true ∧
      ∀ c : Nat, c < 64 → (s.core c).keeps 0 = false ∧ (s.core c).awaits 0 = false) := by decide +kernel

theorem test_pass_ends : (let q : PassSeq := { req := 0, rowKind := .decode, isDraft := false, rows := 1, degraded := false }
    let s := { request asked with lfl := { (request asked).lfl with jobs := [(0, { Job.none with kind := .pass 1 [q], tenant := 1, state := .done, result := St.unitFenced })] } }
    (s.job 0).state = .done ∧ (s.job 0).kind = .pass 1 [q] ∧ rerunStatus (s.job 0).result = true ∧ (s.job 0).rerun = false ∧ enoughCores s [q] = true ∧
      Job.none.result = St.ok) := by decide +kernel

/-! ## Witnesses: the ring -/

def ringNode (mode : BitVec 2) (master lock : Bool) : State := { hall with trg := { hall.trg with mode := mode, master := master, lock := lock } }

/-- A frame of 144 symbols with this sync symbol and number, and this many violations. -/
def frame (sync : RingSym) (n : Byte) (bad : Nat) : List RingSym :=
  [sync, .data n] ++ List.replicate bad .violation ++ List.replicate (142 - bad) (.data 0)

theorem test_ring_node : (let s := ringNode 2 true false
    s.running = true ∧ s.trg.mode = 2 ∧ s.trg.master = true ∧ s.trg.txFrame < 48 ∧ s.boot.fatal = false) ∧
    (let s := ringNode 1 false true
     s.running = true ∧ s.trg.mode ≠ 0 ∧ s.trg.lock = true ∧ s.trg.missed = 0) ∧ ({ Trg.reset 0 with missed := 1 } : Trg).missed = 1 := by decide +kernel

/-- A frame of number 47 and one of number 48, which no node sends; 7 violations and 8. -/
theorem test_ring_frames : (frame .k285 47 7).length = 144 ∧ syncFits (frame .k285 47 0) = true ∧ syncFits (frame .k281 0 0) = true ∧
    syncFits (frame .k285 48 0) = false ∧ syncFits (frame .k281 1 0) = false ∧ (frame .k285 1 7).countP (fun x => x = .violation) = 7 ∧
    (frame .k285 1 8).countP (fun x => x = .violation) = 8 ∧ isSync ((frame .k285 1 7).getD 0 .violation) = true := by decide +kernel

theorem test_ring_write : Begins 0x29 (sender 0) (taken 0x29 0 hall) ∧ Begins 0x29 (sender 1) (taken 0x29 1 hall) ∧ (List.replicate 960 (1 : Word)).length = 960 :=
  ⟨⟨by decide, by decide, by decide⟩, ⟨by decide, by decide, by decide⟩, by decide +kernel⟩

/-! ## Witnesses: queues, completions and the link -/

/-- Function 1 with its queue 0 and its event queue. -/
def queues (q : HostQueue) (e : EventQueue) (s : State) : State := { s with pci := { s.pci with funcs := [(0, { Func.init with queues := [(0, queue0)] }),
  (1, { Func.init with qmax := 16, sqBase := 0x1000, cqBase := 0x2000, queues := [(0, q)], evq := e })] } }

/-- The queue created is the first free one, or one that is there already; the rings are aligned and of the least depth. -/
theorem test_queue_create : (let s := queues queue0 EventQueue.off hall
    let x := s.func 1
    bar0Open s 1 = true ∧ bits32 0x101 8 2 = 1 ∧ (s.queue 1 (bits32 0x101 0 6)).state = .none ∧ (s.queue 1 (bits32 0x100 0 6)).state ≠ .none ∧
      ¬min 64 x.qmax.toNat ≤ (x.queues.countP fun r => r.2.state ≠ .none) ∧ (∃ g, g < 256 ∧ ∀ e ∈ s.pci.funcs, ∀ r ∈ e.2.queues, r.2.globalIdx ≠ g) ∧
      x.sqBase.toNat % 4096 = 0 ∧ x.cqBase.toNat % 4096 = 0 ∧ bits32 x.qcfg 0 4 = 4 ∧ bits32 x.qcfg 4 7 ≤ 64) :=
  ⟨by decide +kernel, by decide +kernel, by decide +kernel, by decide +kernel, by decide +kernel, ⟨1, by decide, by decide +kernel⟩,
    by decide +kernel, by decide +kernel, by decide +kernel, by decide +kernel⟩

theorem test_queue_delete : (let s := queues { queue0 with slots := Pool.whole 16 } EventQueue.off hall
    bits32 0x200 8 2 = 2 ∧ (s.queue 1 0).state ≠ .none ∧ (s.queue 1 0).slots.held = 0) ∧
    ((queues queue0 EventQueue.off hall).queue 1 0).slots.held ≠ 0 := by decide +kernel

/-- A ring of 16 entries takes 15 more beside the one held, not 16; an index of 16 is none of it. -/
theorem test_doorbells : (let x := { queue0 with depth := 4, cqUsed := 3 }
    x.state = .active ∧ x.size = 16 ∧ x.slots.total = x.size ∧ x.slots.free + x.slots.held = x.size ∧
      x.slots.held + (15 + x.size - x.tail) % x.size = x.size ∧ bits32 15 0 12 < x.size ∧ x.size ≤ bits32 16 0 12 ∧
      (3 + x.size - x.cqHead) % x.size ≤ x.cqUsed ∧ x.cqUsed < (4 + x.size - x.cqHead) % x.size) ∧
    (let x := { queue0 with depth := 4, slots := { total := 16, free := 14, held := 2 } }
     x.size < x.slots.held + (15 + x.size - x.tail) % x.size) ∧
    (let e := { EventQueue.off with en := true, used := 1 }
     e.en = true ∧ bits32 1 0 12 < e.size ∧ (1 + e.size - e.head) % e.size ≤ e.used) := by decide +kernel

/-- Queue 0 of function 1 asks alone. -/
theorem test_command_take : (let s := queues { queue0 with untaken := 1 } EventQueue.off hall
    (s.queue 1 0).state = .active ∧ (s.queue 1 0).untaken ≠ 0 ∧ s.pci.rrFn = 0 ∧ (s.func 1).rrQueue = 0 ∧
      ∀ r, r < 64 → ¬((s.queue 0 r).state = .active ∧ (s.queue 0 r).untaken ≠ 0)) := by decide +kernel

theorem test_completion_posts : (let c := plainCompletion (sender 1) St.ok 0
    let x := { queue0 with depth := 4, waiting := [c] }
    x.state ≠ .none ∧ x.cqUsed < x.size ∧ x.waiting.find? (fun c => c.jobs.isEmpty) = some c ∧ c.after = [] ∧ 1 ≤ x.slots.held ∧
      x.slots.total = x.slots.free + x.slots.held) ∧
    (let x := { queue0 with unsignalled := 1, oldest := some 0, ithresh := 2, itime := 10 }
     x.unsignalled ≠ 0 ∧ ¬max 1 x.ithresh.toNat ≤ x.unsignalled ∧ x.itime.toNat * 384 ≤ (384 - 0) * 10 ∧ ¬x.itime.toNat * 384 ≤ (383 - 0) * 10) := by
  decide +kernel

theorem test_event_posts : (let e := { EventQueue.off with en := true, posted := [[0x02]] }
    e.en = true ∧ e.used < e.size ∧ e.lost = 0 ∧ e.posted = [0x02] :: []) ∧
    (let e := { EventQueue.off with en := true, used := 16, lost := 1 }
     e.size ≤ e.used ∧ e.lost ≠ 0) ∧ ({ EventQueue.off with kept := List.replicate 64 [] } : EventQueue).kept.length = 64 := by decide +kernel

/-- Switching on an event queue of depth 4 with a base; the same with the base 0 is refused. -/
theorem test_event_queue_enable : (let e := { EventQueue.off with base := 0x3000 }
    bit32 0x8004 15 = true ∧ e.en = false ∧ ¬(e.base = 0 ∨ e.base.toNat % 4096 ≠ 0 ∨ bits32 0x8004 0 4 < 4 ∨ 12 < bits32 0x8004 0 4 ∨ 64 < bits32 0x8004 4 7)) ∧
    EventQueue.off.base = 0 ∧ bit32 0x0004 15 = false := by decide +kernel

theorem test_function_quiet : FnQuiet 1 hall := ⟨by decide, by decide, by decide, fun _ => by decide +kernel, fun _ => by decide⟩

/-- A Function Level Reset that runs and has nothing in progress. -/
theorem test_function_reset_ends : (let s := { hall with pci := { hall.pci with funcs := [(0, { Func.init with queues := [(0, queue0)] }), (1, { Func.init with flr := true })] } }
    (s.func 1).flr = true ∧ FnQuiet 1 s ∧ (∀ c ∈ s.flt.cmds, c.sub.fn ≠ 1) ∧ ∀ r ∈ s.lfl.requests, r.2.sub.fn ≠ 1) :=
  ⟨by decide, ⟨by decide, by decide, by decide, fun _ => by decide +kernel, fun _ => by decide⟩, by decide, by decide⟩

theorem test_link : domUp hall 0x73 = true ∧ ({ width := 8, l1 := true } : Link).width ≠ 0 ∧
    (∀ g, g < 4 → hall.fences.pci.getLsbD g = false) := by decide

/-! ## Witnesses: models, jobs and ingest -/

theorem test_model_commands : ∀ op ∈ [(0x02 : Byte), 0x08, 0x09, 0x0A, 0x0B, 0x0C, 0x0D, 0x0E, 0x10, 0x11, 0x12, 0x13, 0x18, 0x19, 0x1A],
    Begins op.toNat (sender 1) (taken op 1 hall) := by
  intro op h
  simp only [List.mem_cons, List.not_mem_nil, or_false] at h
  obtain rfl | rfl | rfl | rfl | rfl | rfl | rfl | rfl | rfl | rfl | rfl | rfl | rfl | rfl | rfl := h <;> exact ⟨by decide, by decide, by decide⟩

/-- Version 1 of tenant 1 in another state. -/
def versions (st : BitVec 3) : State := { hall with lfl := { hall.lfl with versions := [(1, { version1 with state := st })] } }

/-- The slot 0 is bound and the slot 63 is not; the version of handle 1 is ACTIVE, READY without an image, or free. -/
theorem test_models : (let v := hall.version 1
    Tab.get 0 (hall.tenant 1).slots 63 = 0 ∧ Tab.get 0 (hall.tenant 1).slots 0 ≠ 0 ∧ v.state = 3 ∧ v.gen.toNat = 1 / 1024 ∧ v.owner.toNat = 1) ∧
    (let s := versions 2
     let x := s.version 1
     let head := readDram s x.addr 128
     x.state = 2 ∧ x.refs = 0 ∧ activationFail s (withHeader x head.1) head.1 (field head.1 32 4) head.2 ≠ 0) ∧ (hall.version 2).state = 0 := by decide +kernel

theorem test_reside_release : (let k := { Core.init with regions := [(3, .resident 1), (4, .resident 1)] }
    coreExists hall 0 = true ∧ coreFenced hall 0 = false ∧ (∀ r, 3 ≤ r ∧ r < 3 + 2 → k.region r = .resident 1) ∧ ¬128 < 127 + 1 ∧ 128 < 127 + 2 ∧
      k.region 5 ≠ .resident 1) := by
  refine ⟨by decide, by decide, fun r h => ?_, by decide, by decide, by decide⟩
  obtain rfl | rfl : r = 3 ∨ r = 4 := by omega
  · decide
  · decide

/-- RUN on cores 0 and 1 with its pointer table at the start of the MODEL region; its last byte, and one beyond. -/
theorem test_run : (let cs := (List.range 64).filter fun c => (3 : DWord).getLsbD c
    cs = [0, 1] ∧ (∀ c ∈ cs, coreExists hall c = true ∧ coreFenced hall c = false ∧ (hall.tenant 1).cores.getLsbD c = true) ∧
      mayReadDram hall 1 0 (8 * cs.length) = true ∧ mayReadDram hall 1 (4 * 2 ^ 21 - 1) 1 = true ∧ mayReadDram hall 1 (4 * 2 ^ 21 - 1) 2 = false ∧
      (hall.tenant 1).cores.getLsbD 2 = false) := by decide +kernel

/-- The fourth span of staging region 1 is its last; window 0 is closed. -/
theorem test_windows : (let r := hall.region 1
    r.size ≠ 0 ∧ r.type = 5 ∧ r.owner.toNat = 1 ∧ 2 ^ 22 * (3 + 1) ≤ r.len ∧ ¬2 ^ 22 * (4 + 1) ≤ r.len ∧ (hall.func 1).winEn = true ∧
      (∀ v, v < 16 → (hall.window 1 v).isOpen = false) ∧ (hall.window 1 15).reading = 0) ∧
    (let x := { Window.closed with gen := 1, stg := 1 }
     let s := { hall with pci := { hall.pci with funcs := [(0, { Func.init with queues := [(0, queue0)] }), (1, { Func.init with windows := [(15, x)] })] } }
     (s.window 1 15).isOpen = true ∧ stagingSpan s 1 1 0 = true ∧ (s.func 1).flr = false) := by decide +kernel

/-- The manifest of one shard of one byte, sealed with a key of zeros. -/
def manifest : Bytes :=
  let head := toLE 2 1 ++ zeros 2 ++ toLE 4 1 ++ toLE 8 1 ++ toLE 8 0 ++ zeros 8 ++ (zeros 104 ++ [1] ++ zeros 23) ++ zeros 32 ++ zeros 16
  head ++ Crypto.gcmTag (zeros 32) (manifestIv 0) head []

theorem test_manifest : (parseManifest manifest).any (fun m => unwrapFor 1 1 m.wrapped (some (zeros 32)) = some (zeros 32) &&
    unwrapFor 1 1 m.wrapped none = none && Crypto.gcmTag (zeros 32) (manifestIv m.nonce) m.head [] = m.mtag && imageFits (hall.region 0) m) = true := by
  decide +kernel

theorem test_manifest_place : (hall.region 0).size ≠ 0 ∧ (hall.region 0).type = 1 ∧ (hall.region 0).owner.toNat = 1 ∧ 2 ^ 23 ≤ (hall.region 1).len ∧
    newVersion (versions 2) 0 = some 2 := by decide +kernel

/-- Ingest 0 of tenant 1 has a shard on its way from the host, or from window 0. -/
def ingesting (st : ShardState) (src : ShardSrc) (left : Nat) : State := { hall with lfl := { hall.lfl with
  ingests := [(0, { Ingest.none with
    sub := sender 1
    src := 0
    dst := 0
    stg := 1
    timeoutMs := 60000
    nshards := 1
    imageLen := 1
    handle := 1
    shards := [(0, st)]
    active := [{ shard := 0, src := src, at' := 8388608, waiters := [], begun := true, left := left, failed := false }] })]
  longOps := [{ fn := 1, jobId := 7, kind := .ingest 0, suspended := false, waiting := [] }] } }

theorem test_shards : (let s := ingesting .staging .host 0
    let g := s.ingest 0
    targetIngest s 1 7 = some 0 ∧ targetIngest s 1 8 = none ∧ Tab.get ShardState.absent g.shards 0 = .staging ∧
      g.active.find? (fun x => x.shard = 0 && x.begun) = g.active.head? ∧ g.active ≠ [] ∧ (∀ y ∈ g.active, y.left = 0 ∧ y.src = .host ∧ y.failed = false) ∧
      (s.region g.dst).comp = false ∧ (∃ l ∈ s.lfl.longOps, l.kind = .ingest 0 ∧ l.suspended = false) ∧ g.building = false) ∧
    (let s := { ingesting .staging .host 0 with timer := 38400 * 60000 }
     (s.ingest 0).timeoutMs ≤ s.ms - (s.ingest 0).since) ∧
    (∀ b ∈ hall.gdl.builds, b.ingest ≠ 0) := by decide +kernel

/-- The long operation of each kind with JOB_ID 7. -/
def longOp (k : LongKind) (susp : Bool) : State := { hall with lfl := { hall.lfl with
  longOps := [{ fn := 1, jobId := 7, kind := k, suspended := susp, waiting := [] }] } }

theorem test_long_operations : ∀ k susp, Begins 0x18 (sender 1) (taken 0x18 1 (longOp k susp)) ∧
    (longOp k susp).lfl.longOps.find? (fun l => l.fn = 1 && l.jobId = 7) = some { fn := 1, jobId := 7, kind := k, suspended := susp, waiting := [] } ∧
    (longOp k susp).lfl.longOps.find? (fun l => l.fn = 1 && l.jobId = 8) = none :=
  fun _ _ => ⟨⟨(by decide : up.running = true), rfl, (by decide : (hall.queue 1 0).state ≠ .none)⟩, rfl, rfl⟩

/-- A request between two steps, and jobs that wait, are suspended, or have no core. -/
theorem test_long_points : (let s := request asked
    busyReq s 0 = false ∧ (s.req 0).settled = true ∧ (s.req 0).finished = false) ∧
    (let s := jobs (hostJob .ready)
     (s.job 0).state = .ready ∧ (s.job 0).sub = some (sender 1) ∧ (s.job 0).isAdapt = true ∧
       ∀ c, c < 64 → (s.core c).runs 0 = false ∧ (s.core c).keeps 0 = false ∧ (s.core c).awaits 0 = false) ∧
    ((jobs (hostJob .suspended)).job 0).state = .suspended ∧ retrainIs hall 0 = false ∧
    (let s := { hall with ddr := { hall.ddr with retrain := some { chan := 0, suspended := false, cmd := some (0, sender 0) } } }
     retrainIs s 0 = true) ∧
    (let s := { flash (blockIn 1) with flt := { (flash (blockIn 1)).flt with cmds := [flashCmd 0x20] } }
     s.flashCmd 0 = some (flashCmd 0x20) ∧ (flashCmd 0x20).kind = 0x20 ∧ ∀ b ∈ (flashCmd 0x20).blocks, (s.block b).state ≠ bsFree) := by decide +kernel

/-! ## Witnesses: trust and isolation -/

/-- The responder of PF0, with a session that has been established and one that has begun. -/
def sessions (conn : SpdmConn) : Spdm := { Spdm.init with
  conn := conn
  sessions := [{ id := 1, established := true, since := 0, heartbeat := true, reqKeys := 0, rspKeys := 0 },
    { id := 2, established := false, since := 0, heartbeat := true, reqKeys := 0, rspKeys := 0 }]
  deferred := some (0x83, 1, .challenge 0 (zeros 32)) }

def secured (conn : SpdmConn) (x : IdeStream) (o : TenantSec) : State := { hall with sec := { hall.sec with
  spdm := [(0, sessions conn)]
  ide := [(8, x)]
  tens := [(15, o)] } }

theorem test_sessions : (let s := secured .algorithms IdeStream.insecure TenantSec.init
    let r := s.responder 0
    s.running = true ∧ (s.func 0).flr = false ∧ r.conn = .algorithms ∧ (∃ x ∈ r.sessions, x.id = 1 ∧ x.established = true) ∧
      (∃ x ∈ r.sessions, x.id = 2 ∧ x.established = false) ∧ (∀ x ∈ r.sessions, x.id ≠ 3) ∧ s.boot.held = none ∧ s.boot.fwOp ≠ 2 ∧
      r.deferred = some (0x83, 1, .challenge 0 (zeros 32)) ∧ 2 ≤ r.sessions.length ∧ (hall.responder 0).sessions.length < 2 ∧
      (hall.responder 0).conn ≠ .version) := by decide +kernel

/-- The last stream is secure with a key in set 1 of sub-stream 2, and interface 15 is locked on it. -/
theorem test_interfaces : (let x : IdeStream := { subs := [(2, { keys := [(1, some (zeros 32))], active := some 1 })], secure := true, failed := false }
    let s := secured .algorithms x { TenantSec.init with conf := true, tdi := .locked, stream := 8, nonce := zeros 32 }
    (s.stream 8).secure = true ∧ ((s.stream 8).sub 2).active = some 1 ∧ Tab.get none ((s.stream 8).sub 2).keys 1 ≠ none ∧
      Tab.get none ((s.stream 8).sub 2).keys 0 = none ∧ tdiLocked s 15 = true ∧ (s.tsec 15).stream = 8 ∧ (zeros 32).length = 32 ∧
      (s.tsec 15).tdi = .locked ∧ (s.tsec 15).nonce = zeros 32) ∧
    (let x : IdeStream := { IdeStream.insecure with secure := true }
     let s := secured .algorithms x { TenantSec.init with conf := true }
     (s.tsec 15).tdi = .unlocked ∧ (8 : Byte) ≠ 0 ∧ (s.stream 8).secure = true ∧ (s.tsec 15).conf = true ∧ s.sec.dbgOpened = false) := by decide +kernel

/-- Tenant 2 holds nothing; the slot 127 is free; ring key 3; a token of the widest scope; a debug port that has been opened. -/
theorem test_security_commands : bar0Open hall 0 = true ∧ (0x12#32).getLsbD 4 = true ∧ (∀ q ∈ (hall.func 2).queues, q.2.state = .none) ∧
    (∀ c, c < 24 → (hall.ctx c).owner ≠ 2 ∨ (hall.ctx c).life = .closed) ∧ (∀ r ∈ hall.lfl.requests, r.2.tenant ≠ 2) ∧
    (∀ b ∈ hall.lfl.blocks, b.2.tenant ≠ 2) ∧ (∀ k ∈ hall.sec.kslots, k.2.owner.toNat ≠ 2) ∧ (∀ e ∈ hall.gdl.regions, e.2.owner.toNat ≠ 2) ∧
    tdiLocked hall 2 = false ∧ (keySlot hall 127).live = false ∧ (∀ e ∈ hall.gdl.regions, e.2.key.toNat ≠ 127) ∧ hall.lfl.descKey.toNat ≠ 127 ∧
    0x1017F / 256 % 4 = 1 ∧ 0x27F / 256 % 4 = 2 ∧ hall.sec.rkeyBusy = false ∧ 7 / 4 % 4 = 1 ∧ 11 / 4 % 4 = 2 := by decide +kernel

theorem test_ring_key : (let s := { hall with sec := { hall.sec with rkeyBusy := true, rkeyKey := 3, rkeyWork := [(13, 2)] } }
    let w := (List.range 16).flatMap fun i => toLE 8 (Tab.get 0 s.sec.rkeyWork i).toNat
    (zeros 16).length = 16 ∧ field w 104 1 = 2 ∧ field w 105 1 = 0 ∧ field w 106 22 = 0 ∧ field w 88 16 = 0) := by decide +kernel

theorem test_debug_access : (let s := { hallCore idle with sec := { hall.sec with dbgOpened := true, dbgScope := 7 } }
    s.running = true ∧ s.sec.dbgScope.getLsbD 1 = true ∧ s.sec.dbgScope.getLsbD 2 = true ∧ coreUp s 0 = true ∧ 8191 < 8192 ∧ isConf s (s.core 0).owner = false ∧
      (∀ o, o < 16 → isConf s o = false) ∧ sramOff s (2 ^ 26 - 64) = false) := by decide +kernel

/-! ## Witnesses: power, start-up and the registers -/

/-- Ten windows at the limit of 110 W exactly, and above it; sensors at 109 and 110 °C. -/
def windows (est amps : Nat) : State := { hall with pwr := { hall.pwr with
  windows := List.replicate 10 { est := est, above := est, amps := amps }
  temps := [109]
  passes := 9 } }

theorem test_power : (let s := windows 110000 14000
    let p := s.pwr
    p.windows.length = 10 ∧ min p.limit.toNat p.boardMax.toNat = 110 ∧ (p.windows.map (·.est)).sum = 10000 * 110 ∧ (p.windows.map (·.amps)).sum = 140000) ∧
    10000 * 110 < ((windows 110001 14000).pwr.windows.map (·.est)).sum ∧
    ((windows 108000 13000).pwr.windows.map (·.above)).sum + 20000 = 10000 * 110 ∧ coreUp hall 63 = true := by decide +kernel

theorem test_estimator_window : (let rep : WindowReport := { dynamic := [1000], leakage := [10], served := [(0, 1010)], temps := [70], vinMv := 12000, iinMa := 5000 }
    (rep.served.map (·.2)).sum ≤ rep.dynamic.sum + rep.leakage.sum ∧ ∀ x ∈ rep.served, ∃ j ∈ (jobs (hostJob .ready)).lfl.jobs, j.1 = x.1) := by decide

theorem test_thermal_trip : (let s := { hall with pwr := { hall.pwr with hotBefore := true, temps := [110] } }
    s.pwr.hotBefore = true ∧ ∃ x ∈ s.pwr.temps, 110 ≤ x) ∧ ∀ x ∈ [(109 : Int)], x < 110 := by decide

/-- A domain in a state, on its way to another. -/
def domain (d : Nat) (st target : DomState) (busy : Bool) : State := { hall with pwr := { hall.pwr with
  doms := [(d, { Dom.init with state := st, target := target, busy := busy })]
  smbMatched := true
  smbEn := true
  wakeTimer := 1 } }

/-- Core 63 may go off, the control domain may not; core 63 comes back. -/
theorem test_domains : (let s := domain 63 .on .off true
    s.boot.done = true ∧ (s.dom 63).busy = true ∧ (s.dom 63).reset = false ∧ (s.core 63).run = none ∧ (s.core 63).assigned = none ∧ (s.core 63).kept = none ∧
      coreExists s 63 = true ∧ s.fences.cores.getLsbD 63 = false ∧ bar0Open s 0 = true ∧ s.pwr.domTarget = 0 ∧ (0x13F#32).getLsbD 8 = true) ∧
    (let s := domain 63 .off .on true
     (s.dom 63).target = .on ∧ (s.dom (0x40 + 63 / 32)).state = .on) ∧
    (let s := { domain 63 .retain .retain false with cores := [(63, { Core.init with assigned := some (0, 1, 0) })] }
     s.running = true ∧ (s.dom 63).auto = true ∧ (s.dom 63).state ≠ .on ∧ (s.dom 63).busy = false ∧ (s.core 63).assigned ≠ none) ∧
    (let s := { domain 0x74 .retain .retain false with timer := 38400 }
     (s.dom 0x74).state = .retain ∧ s.pwr.wakeTimer ≠ 0 ∧ (s.dom 0x74).since + s.pwr.wakeTimer.toNat * 10 ^ 6 ≤ s.ns) := by decide +kernel

theorem test_management_port : (let s := domain 0x73 .on .on false
    s.pwr.smbMatched = true ∧ (s.dom 0x74).state = .on ∧ s.pwr.smbEn = true ∧ s.boot.done = true ∧ (0x5C : BitVec 7) = s.pwr.smbAddr) := by decide

/-- A manifest whose three images are the byte FFH, which the empty embedded flash holds, and a part that starts from it. -/
def firmware : Bytes :=
  let image := fun off => toLE 4 off ++ toLE 4 1 ++ zeros 24 ++ Crypto.sha256 [0xFF]
  toLE 2 1 ++ zeros 6 ++ [0x01] ++ zeros 55 ++ image 512 ++ image 544 ++ image 576 ++ zeros 256

def holding (bs : Bytes) : State := { State.reset with
  mem := State.reset.mem.wrEfl 0 bs
  fuses := up.fuses
  timer := 384000
  lfl := Lfl.reset 0
  trg := Trg.reset 0
  boot := { Boot.reset with forceNursery := true } }

def starting : State := holding firmware

theorem test_start_ready : startReady starting = true ∧ starting.boot.forceNursery = true ∧ starting.boot.fail.count.toNat < 2 ∧
    startReady { starting with timer := 383999 } = false ∧ startReady { starting with timer := 384000 + 38400 * 900 } = true := by decide +kernel

theorem firmware_length : firmware.length = 512 := by decide +kernel

theorem holding_bytes (bs : Bytes) (n : Nat) (h : bs.length = n) : (holding bs).mem.rdEfl 0 n = bs := Mem.rdN_wrN_same _ _ 0 n bs h

theorem holding_manifest (bs : Bytes) (h : bs.length = 512) : slotManifest (holding bs) false = bs := by
  simp only [slotManifest, slotBase, holding_bytes bs 512 h, Bool.false_eq_true, if_false]

theorem holding_rest (bs : Bytes) (a : Nat) (h : 0 + bs.length ≤ a) : (holding bs).mem.rdEfl a 1 = [0xFF] :=
  (Mem.rdN_wrN_out _ _ 0 a 1 bs (.inr h)).trans (by rfl)

theorem starting_manifest : slotManifest starting false = firmware := holding_manifest firmware firmware_length

theorem firmware_images : ∀ i ∈ [0, 1, 2], (imageEntry firmware i).off = 512 + 32 * i ∧ (imageEntry firmware i).len = 1 ∧
    Crypto.sha256 [0xFF] = (imageEntry firmware i).hash := by decide +kernel

/-- Slot A passes, and fails where its signature does not verify; slot B, which is blank, fails. -/
theorem test_slot_passes : slotCheck starting false true = 0 := by
  have first : firstChecks starting firmware true = 0 := by decide +kernel
  have hashes : hashesHold starting false firmware = true := by
    refine List.all_eq_true.2 fun i h => decide_eq_true ?_
    obtain ⟨off, len, hash⟩ := firmware_images i h
    simp only [slotBase]
    rw [off, len, ← hash]
    exact congrArg Crypto.sha256 (holding_rest firmware _ (by rw [firmware_length]; omega))
  simp [slotCheck, starting_manifest, first, hashes]

theorem test_slot_fails : slotCheck starting false false = 2 ∧ starting.boot.tryB = false := by
  have first : firstChecks starting firmware false = 2 := by decide +kernel
  exact ⟨by simp [slotCheck, starting_manifest, first], rfl⟩

/-- What a healthy part finds. -/
def healthy : StartReport := {
  fusesOk := true
  factoryOk := true
  sigA := true
  sigB := true
  railsFault := false
  powerReady := true
  securityReady := true
  dramSupported := true
  lanes := List.replicate 512 { rdA := 0, rdB := 127, wrA := 0, wrB := 127 }
  badCores := 0
  badPairs := 0
  badCsi := 0
  badPci := 0
  badC0 := 0
  badC1 := 0
  badX := 0
  badHalf := 0
  sramOk := true
  memOk := true
  controlOk := true }

theorem test_healthy_start : (startFences starting healthy).pairs ≠ 0xFFFF ∧ coreExists starting 0 = true ∧ (startFences starting healthy).cores.getLsbD 0 = false ∧
    (startFences starting healthy).brX ≠ 0xF := by decide +kernel

/-- The instants of R492 and R503: a fatal condition before 10 s have passed, and the expiry. -/
theorem test_done_hold : (let s := { up with boot := { up.boot with fatal := true, fatalAt := 1 }, timer := 384000000 }
    s.boot.done = true ∧ s.boot.fatalAt < s.boot.doneAt + 10 ^ 10 ∧ s.boot.doneAt + 10 ^ 10 ≤ s.ns) ∧ up.ns < up.boot.doneAt + 10 ^ 10 := by decide +kernel

theorem test_package_reset : bootOpen up 0 = true ∧ (0x02#8).getLsbD 1 = true ∧ (0x02#8).getLsbD 0 = false ∧ ((0x1A5 : Word).toNat % 256 = 0xA5) ∧
    (0x1A5#32).getLsbD 8 = true := by decide

/-- An idle security firmware, one that stages the image of `starting`, and a staged set. -/
theorem test_firmware : (let s := { starting with boot := { up.boot with slotB := true, fwOp := 1, fwImage := firmware, staged := true } }
    s.running = true ∧ s.boot.fwOp = 1 ∧ s.boot.staged = true ∧ up.boot.fwOp = 0 ∧ up.boot.nursery = false) := by
  decide +kernel

theorem test_domain_reset : bootOpen hall 0 = true ∧ hall.boot.held = none ∧ isDomain hall 0x70 = true ∧ isDomain hall 63 = true ∧ (0x170#32).getLsbD 8 = true ∧
    hall.lfl.sysUnits.toNat = 0 ∧ hall.fences.cores.getLsbD 63 = false ∧
    (let h : HeldPhase := { dom := 0x3F, reclaim := none, jobs := [] }
     let s := { up with boot := { up.boot with held := some h } }
     s.running = true ∧ s.boot.held = some h ∧ h.reclaim = none) := by decide +kernel

theorem test_calibration : pf0Open hall 0 = true ∧ hall.boot.fwOp = 0 ∧ hall.boot.calBusy = false ∧ calBounds (256 + 71) ≠ none ∧ calBounds (256 + 72) = none ∧
    (overlayCopy hall 0).map (·.seq) = none ∧ (overlayCopy hall 1).map (·.seq) = none := by decide +kernel

theorem test_registers : readOpen hall = true ∧ registerWidth 0x40 = some 64 ∧ registerWidth 0x80 = some 32 ∧ registerWidth 0x9080 = some 32 ∧
    registerWidth 0x90 = some 32 ∧ registerWidth 0x4000 = some 32 ∧ registerWidth 0x4018 = some 64 ∧ registerWidth 0x58 = none ∧
    (let s := { up with boot := Boot.reset, sec := { up.sec with dbgOpened := true }, pins := { up.pins with perstN := false } }
     s.pins.perstN = false ∧ s.boot.done = false ∧ s.boot.nursery = false ∧ s.sec.dbgOpened = true) := by decide +kernel
end Sys2Proof.Tests
end

section
/-! SUPPORT. What LAST frees and what the queue's head leaves behind, for the operations that keep the scratchpad (R94, R105). -/

namespace Sys2Proof.Machine

open Sys2Proof Numeric

@[simp] theorem clearPresence_nil (k : Core) : k.clearPresence [] = k := by
  have h : rowMask [] = 0#8192 := rfl
  unfold Core.clearPresence
  rw [h, BitVec.not_zero, BitVec.and_allOnes]

theorem onlyCore_setRun (c : Nat) (f : Run → Run) (s : State) : OnlyCore c s (setRun c f s) :=
  (onlyRun_setRun c f s).onlyCore

theorem core_popHead {c : Nat} {r : Run} {s : State} (h : s.run c = some r) :
    (popHead c s).core c = { s.core c with run := some { r with queue := r.queue.tail } } := by
  rw [(onlyRun_popHead c s).mine, popHead_run h]

theorem onlyCore_returnLast (c : Nat) (rows : List Nat) (s : State) : OnlyCore c s (returnLast c rows s) :=
  onlyCore_updCore c _ s

/-- LAST moves regions and their credits only. -/
theorem core_returnLast (c : Nat) (rows : List Nat) (s : State) :
    (returnLast c rows s).core c = { s.core c with
      regions := ((returnLast c rows s).core c).regions
      credits := ((returnLast c rows s).core c).credits } := by
  unfold returnLast
  rw [updCore_core_same]
  exact setRegions_eq _ _ _

/-- LAST frees the streaming regions in which its rows lie. -/
theorem region_returnLast (c : Nat) (rows : List Nat) (s : State) (x : Nat) :
    ((returnLast c rows s).core c).region x =
      if (s.core c).region x = .stream ∧ x ∈ regionsOf rows then .free else (s.core c).region x := by
  unfold returnLast
  rw [updCore_core_same, region_setRegions]
  simp only [List.mem_filter, decide_eq_true_eq, and_comm]

end Sys2Proof.Machine
end

section
/-! SUPPORT. The matrix array: the load of a plane (R124 to R129) and the issue of a MATMUL (R131, R164). -/

namespace Sys2Proof.Machine

open Sys2Proof Numeric

/-! ### Planes -/

@[simp] theorem plane_setPlane_same (k : Core) (p : Nat) (x : Plane) : (k.setPlane p x).plane p = x := by
  unfold Core.setPlane Core.plane
  split <;> rfl

theorem plane_setPlane_ne (k : Core) {p q : Nat} (x : Plane) (hp : p ≤ 1) (hq : q ≤ 1) (h : q ≠ p) :
    (k.setPlane p x).plane q = k.plane q := by
  unfold Core.setPlane Core.plane
  by_cases h0 : p = 0
  · rw [if_pos h0, if_neg (by omega), if_neg (by omega)]
  · rw [if_neg h0, if_pos (by omega), if_pos (by omega)]

/-- Filling a plane changes nothing but planes. -/
theorem setPlane_eq (k : Core) (p : Nat) (x : Plane) :
    k.setPlane p x = { k with plane0 := (k.setPlane p x).plane0, plane1 := (k.setPlane p x).plane1 } := by
  unfold Core.setPlane
  split <;> rfl

/-! ### PLANE_LOAD -/

/-- The tile is in plane `p`, the instruction at index `i` of the queue is marked, and the other plane is next: a load before
LAST returns credits. -/
def placeTile (c i p : Nat) (m : MatOp) (s : State) : State :=
  setRun c (fun r => { r with nextPlane := 1 - p }) (setLoad c i (.loaded p) (updCore s c fun k =>
    { k.setPlane p (loadedPlane s c m).1 with deltaSkip := satUp k.deltaSkip (loadedPlane s c m).2 }))

theorem onlyCore_placeTile (c i p : Nat) (m : MatOp) (s : State) : OnlyCore c s (placeTile c i p m s) :=
  ((onlyCore_updCore c _ s).trans (onlyCore_setRun c _ _)).trans (onlyCore_setRun c _ _)

theorem core_placeTile {c : Nat} {s : State} {r : Run} (i p : Nat) (m : MatOp) (h : s.run c = some r) :
    (placeTile c i p m s).core c = { (s.core c).setPlane p (loadedPlane s c m).1 with
      deltaSkip := satUp (s.core c).deltaSkip (loadedPlane s c m).2
      run := some { r with nextPlane := 1 - p, queue := r.queue.modify i fun q => { q with load := .loaded p } } } := by
  have hr : (s.core c).run = some r := h
  have hp : ((s.core c).setPlane p (loadedPlane s c m).1).run = some r := by rw [setPlane_eq]; exact hr
  unfold placeTile setLoad
  simp only [core_setRun, updCore_core_same, if_true, hp, Option.map_some]

/-- A load whose reads are allowed and carry no poison. -/
theorem runLoad_ok {c owner : Nat} {m : MatOp} {s : State} (i p : Nat) (hk : (s.core c).check owner m.loadRows [] = .ok)
    (hp : (s.core c).poisoned m.loadRows = false) :
    runLoad c i p owner m s = returnLast c m.lastLoad (placeTile c i p m s) := by
  unfold runLoad
  simp only [hk, hp, Bool.false_eq_true, if_false]
  rfl

/-- PLANE_LOAD runs the load of the oldest waiting instruction when its operands are there and the next plane is free. -/
theorem execPlaneLoad_ok {c : CoreId} {s : State} {r : Run} {i : Nat} {m : MatOp} {ahead : List QOp} (h : OnCore c r s)
    (hi : r.issues = true) (ht : loadTarget 0 [] r.queue = some (i, m, ahead)) (hf : r.planeFree r.nextPlane = true)
    (hp : (s.core c).allPresent m.loadRows = true) (hd : disjoint m.loadRows (ahead.flatMap QOp.writes) = true) :
    execPlaneLoad c s = .next (runLoad c i r.nextPlane r.owner m s) := by
  unfold execPlaneLoad
  rw [whenRunning_up h]
  simp [h.run, ht, hi, hf, hp, hd]

/-! ### MATMUL -/

/-- What a loaded MATMUL changes of its core as it runs: it waits in the array with its activation rows, and its events are
counted. -/
theorem core_runMatmul {c p : Nat} {q : QOp} {m : MatOp} {s : State} {r : Run} (ho : q.op = .matmul m) (hl : q.load = .loaded p)
    (h : s.run c = some r) :
    (runMatmul c q s).core c = { s.core c with
      run := some { r with array := r.array ++ [{
        m := m
        plane := p
        slot := 0
        acts := (List.range m.n).map fun i => rowsBytes s c (m.actRow i) (if m.afmt = 5 then 128 else 64) }] }
      nonfinite := ((runMatmul c q s).core c).nonfinite
      fmtErr := ((runMatmul c q s).core c).fmtErr } := by
  have hr : (s.core c).run = some r := h
  unfold runMatmul
  simp only [ho, hl, core_setRun, updCore_core_same, if_true, hr, Option.map_some]

theorem onlyCore_runMatmul (c : Nat) (q : QOp) (s : State) : OnlyCore c s (runMatmul c q s) := by
  unfold runMatmul
  split
  · exact (onlyCore_updCore c _ s).trans (onlyCore_setRun c _ _)
  · exact OnlyCore.refl c s

/-- A MATMUL at the head of the queue whose plane is loaded, whose rows are there without poison, and whose accumulator rows
are complete: it leaves the queue and runs, and LAST returns its credits. -/
theorem execMatmul_issue_ok {c : CoreId} {s : State} {r : Run} {q : QOp} {m : MatOp} {p : Nat} (h : AtHead c r q s)
    (ho : q.op = .matmul m) (hl : q.load = .loaded p) (hp : (s.core c).allPresent q.op.reads = true)
    (hk : (s.core c).check r.owner q.op.reads [] = .ok) (ha : disjoint m.accRows r.pendingAcc = true)
    (hx : (s.core c).poisoned q.op.reads = false) :
    execMatmul c .issue s = .next (returnLast c q.op.lastRows (runMatmul c q (updCore (popHead c s) c id))).spend := by
  have hs : isMatmul q.op = true := by rw [ho]; rfl
  have hw : q.op.writes = [] := by rw [ho]; rfl
  have hi : issueMatmul c s = issueRows c isMatmul matAcc (fun q _ s => runMatmul c q s) s := by
    unfold issueMatmul
    simp only [headOp_ok h hs, hl]
  have hid : (fun k : Core => k.clearPresence []) = id := funext clearPresence_nil
  unfold execMatmul
  rw [whenRunning_up h.toOnCore]
  dsimp only
  rw [hi, issueRows_ok h hs hp (by rw [hw]; exact hk) (by rw [ho]; exact ha), hx, hw, hid]
  rfl

/-! ### The statement -/

/-- Settles O21: each half is the equation of its command (`execPlaneLoad_ok`, `execMatmul_issue_ok`), of which the laws of
`placeTile`, `runMatmul` and `returnLast` tell the parts. -/
theorem matrixInstructionsRun : Obligations.MatrixInstructionsRun := by
  unfold Obligations.MatrixInstructionsRun
  intro c s r
  refine ⟨fun i m ahead h hi ht hf hp hd hk hx => ?_, fun q m p h ho hl hp hk ha hx => ?_⟩
  · have hcore := core_placeTile i r.nextPlane m h.run
    refine ⟨returnLast c m.lastLoad (placeTile c i r.nextPlane m s), ?_, ?_, ?_, ?_, fun p hp1 hn hne => ?_, ?_, fun x => ?_⟩
    · exact (execPlaneLoad_ok h hi ht hf hp hd).trans (by rw [runLoad_ok i r.nextPlane hk hx])
    · exact (onlyCore_placeTile c i _ m s).trans (onlyCore_returnLast c _ _)
    · rw [returnLast_mem]; rfl
    · rw [core_returnLast, hcore]
      exact plane_setPlane_same (s.core c) r.nextPlane (loadedPlane s c m).1
    · rw [core_returnLast, hcore]
      exact plane_setPlane_ne (s.core c) (loadedPlane s c m).1 hn hp1 hne
    · rw [core_returnLast, hcore, setPlane_eq]
    · have hreg : ((placeTile c i r.nextPlane m s).core c).region x = (s.core c).region x := by
        rw [hcore, setPlane_eq]; rfl
      rw [region_returnLast, hreg]
  · have hu : (updCore (popHead c s) c id).core c = { s.core c with run := some { r with queue := r.queue.tail } } := by
      rw [updCore_core_same]
      exact core_popHead h.run
    have hcore := core_runMatmul (s := updCore (popHead c s) c id) ho hl (congrArg Core.run hu)
    rw [hu] at hcore
    refine ⟨_, execMatmul_issue_ok h ho hl hp hk ha hx, ?_, ?_, ?_, fun x => ?_⟩
    · exact ((((onlyRun_popHead c s).onlyCore.trans (onlyCore_updCore c _ _)).trans (onlyCore_runMatmul c q _)).trans
        (onlyCore_returnLast c _ _)).trans (onlyCore_spend c _)
    · simp only [State.spend_mem, returnLast_mem, runMatmul_mem, updCore_mem, popHead_mem]
    · rw [State.spend_core, core_returnLast, hcore]
      rfl
    · have hreg : ((runMatmul c q (updCore (popHead c s) c id)).core c).region x = (s.core c).region x := by
        rw [hcore]; rfl
      rw [State.spend_core, region_returnLast, hreg]

end Sys2Proof.Machine
end

section
/-! SUPPORT. The element-wise results of the gate unit as the bytes of the scratchpad (R143 to R145). -/

namespace Sys2Proof.Machine

open Sys2Proof Numeric

/-! ### Bytes of fixed-width records -/

theorem leNat_toLE (n x : Nat) : leNat (toLE n x) = x % 256 ^ n := by
  induction n generalizing x with
  | zero => simp [toLE, leNat, Nat.mod_one]
  | succ n ih =>
    have hpow : 256 ^ (n + 1) = 256 * 256 ^ n := Nat.pow_succ'
    rw [toLE, leNat, ih, BitVec.toNat_ofNat, hpow, Nat.mod_mul]

/-- Byte `b` of record `i` in records of `w` bytes laid one after the other. -/
theorem getD_flatMap_record {α : Type} (w : Nat) (f : α → Bytes) (hf : ∀ x, (f x).length = w) (l : List α) (i b : Nat)
    (hi : i < l.length) (hb : b < w) : (l.flatMap f).getD (w * i + b) 0 = (f l[i]).getD b 0 := by
  induction l generalizing i with
  | nil => exact absurd hi (by simp)
  | cons x l ih =>
    rw [List.flatMap_cons, List.getD_eq_getElem?_getD]
    cases i with
    | zero => simp [List.getElem?_append_left, hf, hb]
    | succ i =>
      have hge : (f x).length ≤ w * (i + 1) + b := by rw [hf, Nat.mul_succ]; omega
      have hsub : w * (i + 1) + b - (f x).length = w * i + b := by rw [hf, Nat.mul_succ]; omega
      rw [List.getElem?_append_right hge, hsub, ← List.getD_eq_getElem?_getD]
      exact ih i (by simpa using hi)

theorem rdSpm_two (m : Mems) (c a : Nat) : m.rdSpm c a 2 = m.rdSpm c a 1 ++ m.rdSpm c (a + 1) 1 := rfl

/-! ### Results beside statistics -/

theorem statsOut_some {s : State} {c smode srow : Nat} {m v : Bool} {rows : List ResRow} {st : Nat × List FVal} (h3 : smode ≤ 3)
    (h : statsOut s c smode m v srow rows = some st) : st.1 = srow ∧ st.2.length = statEntries smode rows.length v := by
  unfold statsOut at h
  split at h
  · cases h
  · next h0 =>
    cases h
    exact ⟨rfl, statEntriesOf_length s c smode m v srow rows h3 h0⟩

/-- Every byte of a statistic lies in a row of its buffer. -/
theorem row_mem_statRows {smode srow n x : Nat} {v : Bool} (h : 64 * srow ≤ x ∧ x < 64 * srow + 4 * statEntries smode n v) :
    x / 64 ∈ statRows smode srow n v := by
  unfold statRows
  rw [mem_rowsOf_one]
  unfold ceilDiv
  omega

/-- A byte of a result row that a gate operation writes, where its statistics buffer lies outside its result rows. -/
theorem rdSpm_writeGate {c step w : Nat} (g : GateOp) (rows : List ResRow) (p : Bool) (s : State) (hn : rows.length = g.n)
    (hw : w ≤ step) (h3 : g.smode ≤ 3) (hs : ∀ x ∈ rowsOf g.dst step w g.n, x ∉ g.statRows) (i b : Nat) (hb : b < 64 * w)
    (hi : i < rows.length) :
    (writeGate c g step w rows p s).mem.rdSpm c (64 * (g.dst + i * step) + b) 1 = [rows[i].bytes.getD b 0] := by
  unfold writeGate
  refine rdSpm_writeResults rows _ _ p s hw i b hb hi fun st hst hin => ?_
  obtain ⟨hrow, hlen⟩ := statsOut_some h3 hst
  rw [hrow, hlen, hn] at hin
  refine hs _ ((mem_rowsOf _ _ _ _ _).2 ⟨i, b / 64, by omega, by omega, ?_⟩) (row_mem_statRows hin)
  omega

/-! ### One conversion of one value -/

/-- A BF16 encoding has 16 bits. -/
theorem bf16_conv_bits_lt (v : FVal) : (bf16.conv v).bits < 2 ^ 16 := by
  have hsign : ∀ n, bf16.signBits n ≤ 0x8000 := by decide
  cases v with
  | nan => decide
  | inf n =>
    have := hsign n
    show bf16.signBits n + 0x7F80 < 2 ^ 16
    omega
  | fin n m e =>
    have := hsign n
    have hmax : bf16.maxBits = 0x7F7F := rfl
    unfold FFmt.conv FFmt.convRat
    dsimp only
    split <;> dsimp only <;> omega

/-- The maximum with free zeros is the maximum, or a zero where both are zeros. -/
theorem maxFree_cases (pick : Nat) (a b : FVal) :
    maxFree pick a b = maxVal a b ∨ ∃ x y e f z, a = .fin x 0 e ∧ b = .fin y 0 f ∧ maxFree pick a b = .fin z 0 0 := by
  unfold maxFree
  split
  · next x e y f =>
    split
    · left
      simp [maxVal, ltVal, atExp]
    · exact .inr ⟨x, y, e, f, _, rfl, rfl, rfl⟩
  · exact .inl rfl

/-! ### Element-wise operations -/

/-- The value that element `n` of result row `i` is converted from (R144, R145). -/
def elementVal (s : State) (c : Nat) (g : GateOp) (i n : Nat) : FVal :=
  if g.kind = .gfn then Gfn.value g.fn (field (gateA s c g i) (2 * n) 2) (bfElem (gateA s c g i) n)
  else gateOp2 g.kind (s.fv (64 * i + n)) (bfElem (gateA s c g i) n) (gateB s c g i n)

/-- How an element-wise operation of kind `k` runs. -/
def elementRun (c : Nat) (k : GateKind) : GateOp → Bool → State → State := if k = .gfn then runGfn c else runGate2 c

/-- An element-wise operation converts the value of each element once and writes the rows. -/
theorem elementRun_eq (c : Nat) (g : GateOp) (p : Bool) (s : State) : ∃ nonfin : Nat → Bool,
    elementRun c g.kind g p s = writeGate c g 2 2
      ((List.range g.n).map fun i => bfResult ((List.range 64).map (elementVal s c g i)) (nonfin i)) p s := by
  unfold elementRun elementVal
  by_cases h : g.kind = .gfn
  · simp only [h, if_true]
    unfold runGfn
    simp only [List.map_map]
    exact ⟨_, rfl⟩
  · simp only [h, if_false]
    unfold runGate2
    simp only [List.map_map]
    exact ⟨_, rfl⟩

/-- Element `n` of a BF16 result row is the conversion of its value. -/
theorem bfResult_bytes (vals : List FVal) (nonfin : Bool) (n b : Nat) (hn : n < vals.length) (hb : b < 2) :
    (bfResult vals nonfin).bytes.getD (2 * n + b) 0 = (toLE 2 (bf16.conv vals[n]).bits).getD b 0 := by
  unfold bfResult
  dsimp only
  rw [getD_flatMap_record 2 _ (fun o => toLE_length 2 _) _ n b (by simpa using hn) hb, List.getElem_map]

/-- What the scratchpad holds of element `n` of result row `i` after an element-wise operation has run. -/
theorem rdSpm_elementRun (c : Nat) (g : GateOp) (p : Bool) (s : State) (h3 : g.smode ≤ 3)
    (hs : ∀ x ∈ rowsOf g.dst 2 2 g.n, x ∉ g.statRows) (i n : Nat) (hi : i < g.n) (hn : n < 64) :
    leNat ((elementRun c g.kind g p s).mem.rdSpm c (64 * (g.dst + i * 2) + 2 * n) 2) = (bf16.conv (elementVal s c g i n)).bits := by
  obtain ⟨nonfin, hrun⟩ := elementRun_eq c g p s
  have hbyte : ∀ b, b < 2 → (elementRun c g.kind g p s).mem.rdSpm c (64 * (g.dst + i * 2) + (2 * n + b)) 1 =
      [(toLE 2 (bf16.conv (elementVal s c g i n)).bits).getD b 0] := by
    intro b hb
    rw [hrun, rdSpm_writeGate g _ p s (by simp) (Nat.le_refl 2) h3 hs i (2 * n + b) (by omega) (by simpa using hi),
      List.getElem_map, bfResult_bytes _ _ n b (by simpa using hn) hb]
    simp
  have htwo : (elementRun c g.kind g p s).mem.rdSpm c (64 * (g.dst + i * 2) + 2 * n) 2 =
      toLE 2 (bf16.conv (elementVal s c g i n)).bits := by
    rw [rdSpm_two, Nat.add_assoc, hbyte 1 (by omega), ← Nat.add_zero (2 * n), hbyte 0 (by omega)]
    rfl
  rw [htwo, leNat_toLE]
  exact Nat.mod_eq_of_lt (bf16_conv_bits_lt _)

/-- The command of an element-wise operation issues it through `gateCommand`; its opcode plays a part in decoding only. -/
theorem exec_elementwise {c : CoreId} {g : GateOp} {i : Instr} (s : State) (opc : Nat) (hi : issuedBy c (.gate g) = some i)
    (hk : g.kind = .gfn ∨ g.kind = .gadd ∨ g.kind = .gsub ∨ g.kind = .gmul ∨ g.kind = .gmax) :
    exec i s = gateCommand c .issue g.kind opc (elementRun c g.kind) s := by
  rcases hk with hk | hk | hk | hk | hk <;>
  · simp only [issuedBy, hk, Option.some.injEq] at hi
    rw [← hi, hk]
    rfl

/-- A gate operation that can issue runs on the state in which it has left the queue. -/
theorem gateCommand_issue {c : CoreId} {s : State} {r : Run} {q : QOp} {g : GateOp} (h : CanIssue c r q s) (hq : q.op = .gate g)
    (opc : Nat) (f : GateOp → Bool → State → State) :
    gateCommand c .issue g.kind opc f s = .next (
      let p := (s.core c).poisoned q.op.reads
      let t := returnLast c q.op.lastRows (f g p (updCore (popHead c s) c fun k => k.clearPresence q.op.writes))
      (if p then raisePoison c 0 t else t).spend) := by
  have hs : isGate g.kind q.op = true := by rw [hq]; simp [isGate]
  unfold gateCommand
  rw [whenRunning_up h.toOnCore]
  dsimp only
  rw [issueRows_ok h.toAtHead hs h.present h.access rfl, hq]

/-- The memories after an element-wise operation has issued are those of its run. -/
theorem exec_elementwise_mem {c : CoreId} {s : State} {r : Run} {q : QOp} {g : GateOp} {i : Instr} (h : CanIssue c r q s)
    (hq : q.op = .gate g) (hi : issuedBy c q.op = some i)
    (hk : g.kind = .gfn ∨ g.kind = .gadd ∨ g.kind = .gsub ∨ g.kind = .gmul ∨ g.kind = .gmax) :
    Yields i s fun t => ∃ p, t.mem = (elementRun c g.kind g p (updCore (popHead c s) c fun k => k.clearPresence q.op.writes)).mem := by
  refine ⟨_, (exec_elementwise s 0 (hq ▸ hi) hk).trans (gateCommand_issue h hq 0 _), (s.core c).poisoned q.op.reads, ?_⟩
  dsimp only
  rw [State.spend_mem]
  split <;> simp only [raisePoison_mem, returnLast_mem]

/-- Settles O18: the issue leaves the memories of the run (`exec_elementwise_mem`), the run writes one conversion of each
element's value (`rdSpm_elementRun`), and of two zeros either may be the maximum (`maxFree_cases`). -/
theorem gateResults : Obligations.GateResults := by
  unfold Obligations.GateResults
  intro c s r q g i h hq hi hs hk
  obtain ⟨t, ht, p, hmem⟩ := exec_elementwise_mem h hq hi hk
  refine ⟨t, ht, fun k n hkn hn => ?_⟩
  have hfits := h.fits
  rw [hq] at hfits
  simp only [Op.fits, Bool.and_eq_true, decide_eq_true_eq] at hfits
  have h3 : g.smode ≤ 3 := by
    obtain ⟨-, ⟨⟨⟨h3, -⟩, -⟩, -⟩, -⟩ := hfits
    exact h3
  have hout : g.outRows = rowsOf g.dst 2 2 g.n := by
    rcases hk with hk | hk | hk | hk | hk <;> simp only [GateOp.outRows, hk]
  refine ⟨elementVal s c g k n, ?_, ?_⟩
  · rw [hmem, rdSpm_elementRun c g p _ h3 (hout ▸ hs) k n hkn hn]
    rfl
  · rcases hk with hk | hk | hk | hk | hk <;> simp only [elementVal, hk, gateOp2, if_true, reduceCtorEq, if_false]
    exact maxFree_cases _ _ _

end Sys2Proof.Machine
end
